-- ==== Sys2Proof/Word.lean ====
section
/-! DEFINITION. The word sizes of the Jurax device (R7: a byte is 8 bits, a half word 32 bits, a word 64 bits). -/

namespace Sys2Proof

/-- A byte (R7). -/
abbrev Byte := BitVec 8
/-- A half word, 32 bits (R7). -/
abbrev Half := BitVec 32
/-- A word, 64 bits (R7). -/
abbrev Word := BitVec 64

end Sys2Proof
end

