-- ==== Sys2Proof/Syntax.lean ====
section
/-! DEFINITION. The steps of the device: instruction words of the sequencer and vector engine (Table 7.4), the
records of the product and transfer engines (Table 7.8), and the device's events, one constructor for each row of
the opcode table. -/

namespace Sys2Proof

/-- A general-register field: 0 to 31 name g0 to g31, 32 names sp (R152). -/
abbrev GReg := Fin 33
/-- A predicate register p0 to p7. -/
abbrev PReg := Fin 8
/-- A walker w0 to w7. -/
abbrev WReg := Fin 8
/-- A loop counter lc0 to lc3. -/
abbrev LReg := Fin 4
/-- A guard slot gs0 to gs15. -/
abbrev SReg := Fin 16
/-- A plane v0 to v31. -/
abbrev VReg := Fin 32
/-- An ordering class (R358). -/
abbrev OrdClass := Fin 16

/-- The rounding modes of R61. -/
inductive Rm where
  | rne | rtz | rdn | rup
  deriving DecidableEq, Repr

/-- A rounding-mode field: `none` selects FPCS.RM (R151). -/
abbrev RmSel := Option Rm

/-- The access sizes of a memory form (R151, X14[20:18]). -/
inductive MemSize where
  | n8 | s8 | n16 | s16 | n32 | s32 | n64
  deriving DecidableEq, Repr

/-- The element types of Table 7.3, and FP64, which records name by code 11 (Table 10.8, Table 12.3). -/
inductive ElemTy where
  | s32 | n32 | fp32 | bf16 | fp16 | e4m3 | e5m2 | s8 | n8 | lg8 | lg6 | fp64
  deriving DecidableEq, Repr

/-- The levels that have named barriers (Table 1.4). -/
inductive Scope where
  | core | quad | die | pkg | pod
  deriving DecidableEq, Repr

/-- A core of the pod: package, die, core number (Table 7.11). -/
structure CoreKey where
  pkg : Nat
  die : Nat
  core : Nat
  deriving DecidableEq, Repr

/-- A die of the pod. -/
structure DieKey where
  pkg : Nat
  die : Nat
  deriving DecidableEq, Repr

/-- A queue of a package, numbered 0 to 63 (R80). -/
structure QKey where
  pkg : Nat
  q : Nat
  deriving DecidableEq, Repr

/-- The die of a core. -/
def CoreKey.dieKey (k : CoreKey) : DieKey := ⟨k.pkg, k.die⟩

/-- A named barrier at its home: its scope, the place that owns it and its index (R377). -/
structure BarKey where
  scope : Scope
  owner : CoreKey
  idx : Nat
  deriving DecidableEq, Repr

/-- A flit as it stands on a track link: header fields of Table 6.2, payload bytes and the CRC carried. -/
structure Flit where
  seq : BitVec 32
  tag : BitVec 32
  first : Bool
  last : Bool
  idle : Bool
  ctrl : Bool
  hole : Bool
  reinj : Bool
  replay : Bool
  len : BitVec 16
  offset : BitVec 40
  late : BitVec 24
  shbytes : BitVec 40
  crc : BitVec 32
  ticklo : BitVec 32
  payload : List Byte
  deriving DecidableEq, Repr

/-- A link failure as the coordinator classifies it (R142). -/
inductive FailKind where
  /-- die `die` of package `pkg` has failed -/
  | dieFail (pkg die : Nat)
  /-- package `pkg` is unreachable through the fabric -/
  | moduleFail (pkg : Nat)
  deriving DecidableEq, Repr

/-- The announcement of a repair (R142): its kind, the repair tick and the new dwell of each die. -/
structure Repair where
  kind : FailKind
  tick : Nat
  dwells : List (DieKey × BitVec 32)
  deriving DecidableEq, Repr

/-- A staged firmware image (R420, R422): its contents, the key it names, its rollback version, and the range of
state-table versions its header accepts. -/
structure Firmware where
  image : List Byte
  sig : List Byte
  key : Fin 2
  rollback : Nat
  stateLo : Nat
  stateHi : Nat
  deriving DecidableEq, Repr

/-- Where a device event takes place: a core (with its die and package), a queue, and a number (a launch, a group, a packet
or an entry of a list). -/
structure Place where
  core : CoreKey
  q : QKey
  n : Nat
  deriving DecidableEq, Repr

/-- One step of the device: a row of the opcode table. -/
inductive Instr where
  -- sequencer words: integer, bitfield, compare (R183 to R188)
  | nop
  | add (d a b : GReg)
  | sub (d a b : GReg)
  | mul (d a b : GReg)
  | mulhs (d a b : GReg)
  | mulhn (d a b : GReg)
  | divs (d a b : GReg)
  | divn (d a b : GReg)
  | rems (d a b : GReg)
  | remn (d a b : GReg)
  | and (d a b : GReg)
  | or (d a b : GReg)
  | xor (d a b : GReg)
  | andn (d a b : GReg)
  | shl (d a b : GReg)
  | shrl (d a b : GReg)
  | shra (d a b : GReg)
  | rotl (d a b : GReg)
  | clz (d a : GReg)
  | ctz (d a : GReg)
  | popc (d a : GReg)
  /-- `n` is the field X[5:0]; the width kept is n + 1 -/
  | sext (d a : GReg) (n : Fin 64)
  | mins (d a b : GReg)
  | minn (d a b : GReg)
  | maxs (d a b : GReg)
  | maxn (d a b : GReg)
  | sel (d a b : GReg) (c : PReg)
  /-- low bit `lo` and width minus one `w` (R186) -/
  | bfxs (d a : GReg) (lo w : Fin 64)
  | bfxn (d a : GReg) (lo w : Fin 64)
  | bfi (d a : GReg) (lo w : Fin 64)
  | cmpeq (d : PReg) (a b : GReg)
  | cmpne (d : PReg) (a b : GReg)
  | cmplts (d : PReg) (a b : GReg)
  | cmples (d : PReg) (a b : GReg)
  | cmpltn (d : PReg) (a b : GReg)
  | cmplen (d : PReg) (a b : GReg)
  | addi (d a : GReg) (i : BitVec 32)
  | andi (d a : GReg) (i : BitVec 32)
  | ori (d a : GReg) (i : BitVec 32)
  | xori (d a : GReg) (i : BitVec 32)
  | shli (d a : GReg) (n : Fin 64)
  | movi (d : GReg) (i : BitVec 32)
  | movh (d : GReg) (i : BitVec 32)
  | lea (d a b : GReg) (s : Fin 8) (off : BitVec 16)
  -- predicates (R189)
  | pand (d a b : PReg)
  | por (d a b : PReg)
  | pxor (d a b : PReg)
  | pnot (d a : PReg)
  | prsave (d : GReg)
  | prload (a : GReg)
  -- scalar floating point (R190 to R192); `dbl` is the width bit X[23]
  | fadd (dbl : Bool) (rm : RmSel) (d a b : GReg)
  | fsub (dbl : Bool) (rm : RmSel) (d a b : GReg)
  | fmul (dbl : Bool) (rm : RmSel) (d a b : GReg)
  | ffma (dbl : Bool) (rm : RmSel) (d a b c : GReg)
  | fdiv (dbl : Bool) (rm : RmSel) (d a b : GReg)
  | fsqrt (dbl : Bool) (rm : RmSel) (d a : GReg)
  | fmin (dbl : Bool) (d a b : GReg)
  | fmax (dbl : Bool) (d a b : GReg)
  | fcmp (dbl : Bool) (d : PReg) (a b : GReg) (c : Fin 5)
  | fcls (dbl : Bool) (d a : GReg)
  | fsgn (dbl : Bool) (d a b : GReg) (o : Fin 3)
  | fcvt (k : Fin 8) (dbl : Bool) (rm : RmSel) (d a : GReg)
  -- control flow (R193 to R199)
  | br (i : BitVec 32)
  | bc (m : Fin 4) (a : GReg) (i : BitVec 32)
  | bwe (w : WReg) (j : Fin 4) (i : BitVec 32)
  | bmz (i : BitVec 32)
  | brl (d a : GReg)
  | call (i : BitVec 32)
  | callr (a : GReg)
  | ret
  | loop (lc : LReg) (n e : BitVec 16)
  | loopr (lc : LReg) (a : GReg) (e : BitVec 16)
  | lbrk (lc : LReg) (i : BitVec 32)
  -- guard slots, safe points, exit, traps
  | gset (gs : SReg) (a : PReg)
  | gclr (gs : SReg)
  | safe (groups : BitVec 8) (live : BitVec 32)
  | exit
  | trap (n : BitVec 16)
  | rte
  -- walkers and the stack pointer (R205 to R209)
  | wbind (w : WReg) (a : GReg)
  /-- the field X[15:0]: advances minus one -/
  | wstep (w : WReg) (n : BitVec 16)
  | wpos (d : GReg) (w : WReg) (s : Fin 3)
  | wrst (w : WReg)
  | spadj (i : BitVec 32)
  | spmov (d : GReg) (i : BitVec 32)
  | spmovSp (a : GReg) (i : BitVec 32)
  -- streams (R210 to R213)
  | shard (d : GReg) (w : Fin 4)
  | batch (d a : GReg) (w : Fin 2)
  | need (d a b : GReg) (once : Bool)
  | unpin
  | kva (d a : GReg) (b : BitVec 32)
  -- engine work (R214 to R218); ENQR names g8, g16 or g24
  | enq (a : GReg)
  | enqr (base : Fin 3)
  | acalloc (d : GReg) (n : BitVec 32)
  | acfree (a : GReg)
  | gwset (c : BitVec 32)
  -- sequencer memory forms (R303 to R306)
  | ld (cls : OrdClass) (sz : MemSize) (d a : GReg) (off : BitVec 16)
  | st (cls : OrdClass) (sz : MemSize) (d a : GReg) (off : BitVec 16)
  | ldw (cls : OrdClass) (sz : MemSize) (d : GReg) (w : WReg)
  | stw (cls : OrdClass) (sz : MemSize) (d : GReg) (w : WReg)
  | ldp (cls : OrdClass) (d b a : GReg) (off : BitVec 16)
  | stp (cls : OrdClass) (d b a : GReg) (off : BitVec 16)
  | ldacq (cls : OrdClass) (obs : BitVec 5) (sz : MemSize) (d a : GReg) (off : BitVec 16)
  | strel (cls : OrdClass) (obs : BitVec 5) (sz : MemSize) (d a : GReg) (off : BitVec 16)
  | fence (mask : BitVec 16)
  | fenceo (mask : BitVec 16) (obs : BitVec 5)
  | aadd (cls : OrdClass) (obs : BitVec 5) (sz : MemSize) (d b a : GReg) (off : BitVec 16)
  | aand (cls : OrdClass) (obs : BitVec 5) (sz : MemSize) (d b a : GReg) (off : BitVec 16)
  | aor (cls : OrdClass) (obs : BitVec 5) (sz : MemSize) (d b a : GReg) (off : BitVec 16)
  | axor (cls : OrdClass) (obs : BitVec 5) (sz : MemSize) (d b a : GReg) (off : BitVec 16)
  | amins (cls : OrdClass) (obs : BitVec 5) (sz : MemSize) (d b a : GReg) (off : BitVec 16)
  | aminn (cls : OrdClass) (obs : BitVec 5) (sz : MemSize) (d b a : GReg) (off : BitVec 16)
  | amaxs (cls : OrdClass) (obs : BitVec 5) (sz : MemSize) (d b a : GReg) (off : BitVec 16)
  | amaxn (cls : OrdClass) (obs : BitVec 5) (sz : MemSize) (d b a : GReg) (off : BitVec 16)
  | axch (cls : OrdClass) (obs : BitVec 5) (sz : MemSize) (d b a : GReg) (off : BitVec 16)
  | acas (cls : OrdClass) (obs : BitVec 5) (sz : MemSize) (d b a : GReg) (off : BitVec 16)
  | afadd (cls : OrdClass) (obs : BitVec 5) (dbl : Bool) (d b a : GReg) (off : BitVec 16)
  -- barriers, tokens, signals (R378 to R387)
  | bara (d : GReg) (sc : Scope) (i : BitVec 7)
  | barw (sc : Scope) (i : BitVec 7) (a : GReg)
  | bar (sc : Scope) (i : BitVec 7)
  | barq (d : GReg) (sc : Scope) (i : BitVec 7)
  | barc (sc : Scope) (i : BitVec 7) (a : GReg)
  | tokw (mask : BitVec 8)
  | sigadd (cls : OrdClass) (obs : BitVec 5) (b a : GReg) (off : BitVec 16)
  | sigmax (cls : OrdClass) (obs : BitVec 5) (b a : GReg) (off : BitVec 16)
  | sigw (obs : BitVec 5) (d a b : GReg) (cmp : Fin 4) (lim : BitVec 16)
  | merge
  -- control registers, translation, code, time (R219 to R221, R300)
  | ctlrd (d : GReg) (n : BitVec 12)
  | ctlwr (n : BitVec 12) (a : GReg)
  | ctlset (n : BitVec 12) (a : GReg)
  | ctlclr (n : BitVec 12) (a : GReg)
  /-- CTLWR to control register 0x200 -/
  | qcreate (a : GReg)
  /-- CTLWR to control register 0x201 -/
  | qkill (a : GReg)
  | tmark (a b : GReg) (range scope : Fin 3)
  | icfence
  | tick (d : GReg)
  | rep (cnt : Fin 64) (step : BitVec 4) (stride : Fin 4)
  -- vector words: arithmetic (R233, R234)
  | vadd (ty : ElemTy) (rm : RmSel) (sat : Bool) (d a b : VReg)
  | vsub (ty : ElemTy) (rm : RmSel) (sat : Bool) (d a b : VReg)
  | vmul (ty : ElemTy) (rm : RmSel) (sat : Bool) (d a b : VReg)
  | vfma (ty : ElemTy) (rm : RmSel) (sat : Bool) (d a b c : VReg)
  | vmin (ty : ElemTy) (d a b : VReg)
  | vmax (ty : ElemTy) (d a b : VReg)
  | vabs (ty : ElemTy) (sat : Bool) (d a : VReg)
  | vneg (ty : ElemTy) (sat : Bool) (d a : VReg)
  -- logic, shifts, compare, select, move (R235 to R239)
  | vand (d a b : VReg)
  | vor (d a b : VReg)
  | vxor (d a b : VReg)
  | vnot (d a : VReg)
  | vshl (ty : ElemTy) (d a b : VReg)
  | vshr (ty : ElemTy) (d a b : VReg)
  | vsha (ty : ElemTy) (d a b : VReg)
  | vcmp (ty : ElemTy) (d a b : VReg) (c : Fin 5)
  | vsel (d a b c : VReg)
  | vmov (d a : VReg)
  | vmovExtract (d : GReg) (a : VReg) (row : Fin 16) (col : Fin 64)
  | vmovInsert (d : VReg) (a : GReg) (row : Fin 16) (col : Fin 64)
  | vbc (d : VReg) (a : GReg)
  | vcvt (s t : ElemTy) (part : Fin 8) (rm : RmSel) (sat : Bool) (d a : VReg)
  -- vector memory (R241 to R244)
  | vld (cls : OrdClass) (sz : MemSize) (d : VReg) (a b : GReg) (off : BitVec 16)
  | vst (cls : OrdClass) (sz : MemSize) (d : VReg) (a b : GReg) (off : BitVec 16)
  | vldw (cls : OrdClass) (sz : MemSize) (d : VReg) (w : WReg) (b : GReg)
  | vstw (cls : OrdClass) (sz : MemSize) (d : VReg) (w : WReg) (b : GReg)
  | vgath (cls : OrdClass) (sz : MemSize) (d : VReg) (a : GReg) (b : VReg) (off : BitVec 16)
  | vscat (cls : OrdClass) (sz : MemSize) (d : VReg) (a : GReg) (b : VReg) (off : BitVec 16)
  -- along a lane and across a row (R245 to R249)
  | vrrot (d a : VReg) (n : Fin 64)
  | vrbc (d a : VReg) (n : Fin 64)
  | vcrot (d a : VReg) (n : Fin 16)
  | vcbc (d a : VReg) (n : Fin 16)
  | vrred (ty : ElemTy) (rm : RmSel) (sat : Bool) (op : Fin 3) (d a : VReg)
  | vcred (ty : ElemTy) (rm : RmSel) (sat : Bool) (op : Fin 3) (d a : VReg)
  | vrscan (ty : ElemTy) (rm : RmSel) (sat : Bool) (op : Fin 3) (d a : VReg)
  | vcscan (ty : ElemTy) (rm : RmSel) (sat : Bool) (op : Fin 3) (d a : VReg)
  | vtrp (d a : VReg)
  | vperm (d a b : VReg)
  -- masks (R231)
  | mpush (a : VReg)
  | minv
  | mpop
  | mand (a : VReg)
  -- transcendental functions (R250)
  | vexpf (d a : VReg)
  | vexpx (d a : VReg)
  | vlogf (d a : VReg)
  | vlogx (d a : VReg)
  | vrcpf (d a : VReg)
  | vrcpx (d a : VReg)
  | vrsqf (d a : VReg)
  | vrsqx (d a : VReg)
  | vsinf (d a : VReg)
  | vsinx (d a : VReg)
  | vcosf (d a : VReg)
  | vcosx (d a : VReg)
  | vtanhf (d a : VReg)
  | vtanhx (d a : VReg)
  -- dot products, scales, random bits, packing (R251 to R258)
  /-- `ta`, `tb` true: E5M2; false: E4M3 -/
  | vdot8 (ta tb : Bool) (h : Fin 4) (d a b c : VReg)
  | vdotb (rm : RmSel) (sat : Bool) (h : Fin 4) (d a b c : VReg)
  /-- `bf` true: BF16; false: FP32 -/
  | vscl (bf : Bool) (rm : RmSel) (sat : Bool) (s : Fin 4) (d a b : VReg)
  | vrng (d : VReg)
  | vpkp (ty : ElemTy) (sel : Bool) (part : Fin 64) (d a : VReg)
  | vxtp (f : Fin 128) (n : Fin 16) (d a : VReg)
  -- device events that carry data; every event takes place at the unit that State.place names
  | storePerform (cls : OrdClass)
  /-- retirement of record `place.n` of the records running in the transfer (or product) engine -/
  | recordRetire (xfer : Bool)
  | barrierArrival (b : BarKey)
  | destroyNotice (t : Nat)
  -- the ring (R117 to R149); `up` true names the upstream port of the die
  | flitReceive (up : Bool) (f : Flit)
  | flitReplay (up : Bool) (seq : BitVec 32)
  | flitSend (up : Bool)
  | latencyProbe (up : Bool)
  | probeEcho (up : Bool)
  | linkFailResends (up : Bool)
  | linkFailSilence (up : Bool)
  | ringStall (ts : Nat)
  | podStep (k : Fin 5)
  | repairReport (f : FailKind)
  | repairAnnouncement (r : Repair)
  | domainAbort (tid : BitVec 32)
  | localClockStep (k : Fin 5) (centi : Nat)
  | thermalShutdown (centi : Nat)
  | softError (space : Fin 5)
  -- management, host and test access (R414 to R429)
  | setEventq (addr : BitVec 56)
  | attest (nonce : List Byte)
  | update (fw : Firmware)
  | powerLimit (watts : Nat)
  | hostRead (pa : BitVec 56) (n : Nat)
  | hostPostedWrite (pa : BitVec 56) (bytes : List Byte)
  | hostFetchadd (pa : BitVec 56) (v : Word)
  | hostCompareAndSwap (pa : BitVec 56) (cmp new : Word)
  | testEnableStrap (on : Bool)
  -- steps of the vector engine and of the memory accesses (R226, R291)
  | vectorIssue
  | vectorComplete
  | loadDataArrival
  -- product records: the head of the product queue starts (R259 to R289)
  | pdotF64
  | pdotF32
  | pdotBf16
  | plog66
  | plog68
  | plog88
  | pmulp
  | pmul
  | pscale
  | pnorm
  | pzero
  | pload
  | pdrain
  | pxtp
  -- transfer records: the head of the transfer queue starts (R307 to R332)
  | xcopy
  | xcopyTable
  | xcvt
  | xfill
  | xgath
  | xscat
  | xrestr
  | xprol
  | xsten
  | xslab
  | xslabRelease
  | xput
  | xget
  | xsend
  | xsig
  | xmlrSetup
  | xmlr
  | xtmark
  | xmlrCombine
  | xmlrTimeout
  | xmlrSetupTimeout
  -- synchronisation events
  | signalUpdate
  | signalResend
  | sigwLimit
  | mergeApply
  | finalMerge
  | taskLogApply
  | streamLogApply
  -- command processor (R80 to R96)
  | packetFetch
  | queuePoll
  | launch
  | gangLaunch
  | bindKernel
  | registerRequest
  | registerNeed
  | removeNeed
  | setRequestState
  | unbind
  | signalWait
  | waitTimeout
  | signalSet
  | fetchFence
  | barrierPacket
  | destroy
  | destroyTick
  | packetRetire
  -- placement (R97 to R116)
  | placementChoice
  | contextSaveDone
  | gangReadyCheck
  | gangNotReady
  | gangDefer
  | gangStart
  | dieLaunchReport
  | taskRetire
  | coreFuse
  -- ring (R117 to R149)
  | batchFormation
  | streamStart
  | shardDeparture
  | departureDeadline
  | ringStallBegin
  | ringStallEnd
  | repairTick
  | reinjection
  | ringInject
  -- interruption
  | safeGap
  | powerLimitExceeded
  -- events, management, host, test access (R414 to R429)
  | eventPost
  | overflow
  | heartbeat
  | takeover
  | ringRestart
  | resetPackage
  | powerOnReset
  | bypass
  | samplePreload
  | extest
  | idcode
  | warmReset
  | powerLoss
  | forcedStallCycle
  | signalAcknowledge
  | fabricPortLoss
  | fabricPortReturn
  deriving DecidableEq, Repr

/-- A decoded word: its guard, p[GP] XOR GN (R155), and its instruction. -/
structure Guarded where
  neg : Bool
  gp : PReg
  instr : Instr
  deriving DecidableEq, Repr

end Sys2Proof
end

