-- ==== Sys2Proof/WellFormed.lean ====
section
/-! DEFINITION. Which operand values an instruction word may hold: the values that check 3 of R154 tests beyond the
must-be-zero fields, and the control-register numbers that check 4 tests. -/

namespace Sys2Proof

/-- The integer types of Table 7.3. -/
def ElemTy.isInt : ElemTy → Bool
  | .s32 | .n32 | .s8 | .n8 => true
  | _ => false

/-- The Orris types (R58, R59). -/
def ElemTy.isOrris : ElemTy → Bool
  | .lg6 | .lg8 => true
  | _ => false

/-- The types a vector word can name: all of Table 7.3, FP64 excepted. -/
def ElemTy.isVec : ElemTy → Bool
  | .fp64 => false
  | _ => true

/-- Sub-elements of a 32-bit element (R57, R222). -/
def ElemTy.count : ElemTy → Nat
  | .s32 | .n32 | .fp32 | .fp64 => 1
  | .bf16 | .fp16 => 2
  | .e4m3 | .e5m2 | .s8 | .n8 | .lg8 => 4
  | .lg6 => 5

/-- R224: integer and Orris types take no rounding mode, Orris types no saturation. -/
def fitFields (ty : ElemTy) (rm : RmSel) (sat : Bool) : Bool :=
  ty.isVec && (!(ty.isInt || ty.isOrris) || rm == none) && (!ty.isOrris || !sat)

/-- R234: VABS and VNEG saturate only integers. -/
def absFields (ty : ElemTy) (sat : Bool) : Bool := ty.isVec && (ty.isInt || !sat)

/-- R235: the types of the vector shifts, and of VPKP (R257). -/
def shiftTy (ty : ElemTy) : Bool := ty.isInt

/-- R246: types FP32, s32 and n32; max and min take neither mode nor saturation. -/
def redFields (ty : ElemTy) (rm : RmSel) (sat : Bool) (op : Fin 3) : Bool :=
  (ty == .fp32 || ((ty == .s32 || ty == .n32) && rm == none)) && (op == 0 || (rm == none && !sat))

/-- R240: PART is below ⌈max(ks, kd)/m⌉, and an Orris destination takes no mode. -/
def cvtFields (s t : ElemTy) (part : Fin 8) (rm : RmSel) : Bool :=
  let ks := s.count
  let kd := t.count
  let m := min ks kd
  s.isVec && t.isVec && decide (part.val < (max ks kd + m - 1) / m) && (!t.isOrris || rm == none)

/-- The number of named barriers of a scope (Table 1.4). -/
def Scope.count : Scope → Nat
  | .core => 96
  | .quad => 32
  | .die => 64
  | .pkg => 32
  | .pod => 16

/-- A relative offset is a multiple of 8 (R193). -/
def off8 (i : BitVec 32) : Bool := i.toNat % 8 == 0

/-- The limits of the GWSET operand (R218, Table 8.10). -/
def gwFields (c : BitVec 32) : Bool :=
  let g := c.toNat / 2 ^ 24
  let k := c.toNat / 2 ^ 16 % 256
  let wa := c.toNat / 2 ^ 11 % 32
  let wb := c.toNat / 2 ^ 5 % 32
  decide (4 ≤ g ∧ g ≤ 128 ∧ 1 ≤ k ∧ k ≤ 64 ∧ 1 ≤ wa ∧ wa ≤ 16 ∧ 1 ≤ wb ∧ wb ≤ 16 ∧ k * g ≤ 512)
    && c.toNat % 16 == 0

/-- The sizes an atomic takes: n32, s32 and n64 (R305). -/
def atomSize (sz : MemSize) : Bool := sz == .n32 || sz == .s32 || sz == .n64

/-- The assigned control-register numbers (Table 7.10). -/
def ctlAssigned (n : BitVec 12) : Bool :=
  let k := n.toNat
  decide (k ≤ 4 ∨ (0x010 ≤ k ∧ k ≤ 0x012) ∨ (0x100 ≤ k ∧ k ≤ 0x103) ∨ (0x110 ≤ k ∧ k ≤ 0x117) ∨ k = 0x120 ∨ k = 0x121
    ∨ (0x130 ≤ k ∧ k ≤ 0x133) ∨ (0x200 ≤ k ∧ k ≤ 0x203) ∨ (0x300 ≤ k ∧ k ≤ 0x307) ∨ (0x310 ≤ k ∧ k ≤ 0x31F))

/-- Check 3 of R154 on the operand values a constructor can hold: a field that holds a value its entry marks reserved
or invalid. Every constructor it does not name has none. -/
def Instr.check3 : Instr → Bool
  | .bfxs _ _ lo w | .bfxn _ _ lo w | .bfi _ _ lo w => decide (lo.val + w.val + 1 ≤ 64)
  | .fcvt k dbl _ _ _ => !(decide (k.val ≤ 1) && dbl)
  | .br i | .bc _ _ i | .bwe _ _ i | .bmz i | .call i | .lbrk _ i | .spadj i => off8 i
  | .loop _ _ e | .loopr _ _ e => e.toNat % 8 == 0 && decide (8 ≤ e.toNat)
  | .kva _ _ b => b.toNat % 32 == 0 && decide (32 ≤ b.toNat ∧ b.toNat ≤ 65536)
  | .acalloc _ n => decide (1 ≤ n.toNat ∧ n.toNat ≤ 16)
  | .gwset c => gwFields c
  | .ldacq _ obs _ _ _ _ | .strel _ obs _ _ _ _ | .fenceo _ obs => obs != 0
  | .fence mask => mask != 0
  | .aadd _ _ sz _ _ _ _ | .aand _ _ sz _ _ _ _ | .aor _ _ sz _ _ _ _ | .axor _ _ sz _ _ _ _ | .amins _ _ sz _ _ _ _
  | .aminn _ _ sz _ _ _ _ | .amaxs _ _ sz _ _ _ _ | .amaxn _ _ sz _ _ _ _ | .axch _ _ sz _ _ _ _
  | .acas _ _ sz _ _ _ _ => atomSize sz
  | .bara _ sc i | .barw sc i _ | .bar sc i | .barq _ sc i | .barc sc i _ => decide (i.toNat < sc.count)
  | .vadd ty rm sat _ _ _ | .vsub ty rm sat _ _ _ | .vmul ty rm sat _ _ _ | .vfma ty rm sat _ _ _ _ => fitFields ty rm sat
  | .vmin ty _ _ _ | .vmax ty _ _ _ => ty.isVec
  | .vabs ty sat _ _ | .vneg ty sat _ _ => absFields ty sat
  | .vshl ty _ _ _ | .vshr ty _ _ _ | .vsha ty _ _ _ | .vpkp ty _ _ _ _ => shiftTy ty
  | .vcmp ty _ _ _ c => ty.isVec && !(ty.isInt && c == 3)
  | .vcvt s t part rm _ _ _ => cvtFields s t part rm
  | .vrred ty rm sat op _ _ | .vcred ty rm sat op _ _ | .vrscan ty rm sat op _ _ | .vcscan ty rm sat op _ _ =>
    redFields ty rm sat op
  | _ => true

/-- The part of check 4 of R154 that is about control-register numbers; QCREATE and QKILL are the words of numbers
0x200 and 0x201, so CTLWR names neither. -/
def Instr.check4 : Instr → Bool
  | .ctlrd _ n | .ctlset n _ | .ctlclr n _ => ctlAssigned n
  | .ctlwr n _ => ctlAssigned n && n != 0x200 && n != 0x201
  | _ => true

/-- A well-formed step: its operand values pass checks 3 and 4. -/
def Instr.wellFormed (i : Instr) : Bool := i.check3 && i.check4

/-- A well-formed guarded word: its instruction is well-formed, and a REP prefix carries no guard (Table 7.5). -/
def Guarded.wellFormed (g : Guarded) : Bool :=
  g.instr.wellFormed && match g.instr with
    | .rep _ _ _ => !g.neg && g.gp == 0
    | _ => true

end Sys2Proof
end

