-- ==== Sys2Proof/Machine/Bits.lean ====
section
/-! DEFINITION. Bit ranges, extensions, little-endian bytes (R5, R6, R16), integer logarithm and square root, and
CRC-32C (R121). -/

namespace Sys2Proof

/-- Bits [hi:lo] of a number (R16). -/
def bits (x hi lo : Nat) : Nat := x / 2 ^ lo % 2 ^ (hi + 1 - lo)

/-- Bit i of a number. -/
def bitAt (x i : Nat) : Bool := x / 2 ^ i % 2 == 1

/-- The value of the low n bits of x read as two's complement. -/
def sintOf (n x : Nat) : Int :=
  let y := x % 2 ^ n
  if y < 2 ^ (n - 1) then (y : Int) else (y : Int) - (2 ^ n : Nat)

/-- An integer modulo 2^n (R16). -/
def wrapN (n : Nat) (x : Int) : Nat := (x % ((2 ^ n : Nat) : Int)).toNat

/-- sext(x, 64) of a 16-bit offset. -/
def sext16 (x : BitVec 16) : Word := x.signExtend 64
/-- sext(x, 64) of a 32-bit immediate. -/
def sext32 (x : BitVec 32) : Word := x.signExtend 64

/-- Replace bits [hi:lo] of a word. -/
def putBits (w : Word) (hi lo : Nat) (v : Nat) : Word :=
  let n := w.toNat
  BitVec.ofNat 64 (n - bits n hi lo * 2 ^ lo + v % 2 ^ (hi + 1 - lo) * 2 ^ lo)

/-- The n low bytes of a number, lowest address first (R6). -/
def toBytes : Nat → Nat → List Byte
  | 0, _ => []
  | n + 1, x => BitVec.ofNat 8 x :: toBytes n (x / 256)

/-- The number whose bytes stand at ascending addresses (R6). -/
def ofBytes : List Byte → Nat
  | [] => 0
  | b :: bs => b.toNat + 256 * ofBytes bs

/-- ⌊log2 n⌋ for n ≥ 1. -/
def flog2 (n : Nat) : Nat := Nat.log2 n

/-- ⌈log2 n⌉ for n ≥ 1. -/
def clog2 (n : Nat) : Nat := if n ≤ 1 then 0 else Nat.log2 (n - 1) + 1

/-- Bits of the integer square root, from bit i downwards. -/
def isqrtAux : Nat → Nat → Nat → Nat
  | 0, _, r => r
  | i + 1, n, r =>
    let r' := r + 2 ^ i
    isqrtAux i n (if r' * r' ≤ n then r' else r)

/-- ⌊√n⌋. -/
def isqrt (n : Nat) : Nat := isqrtAux (Nat.log2 n / 2 + 1) n 0

/-- One bit of the reflected CRC-32C division (polynomial 0x1EDC6F41, reflected 0x82F63B78). -/
def crcBit (c : Nat) : Nat := if c % 2 == 1 then (c / 2) ^^^ 0x82F63B78 else c / 2

/-- One byte into the CRC. -/
def crcByte (c : Nat) (b : Byte) : Nat :=
  crcBit (crcBit (crcBit (crcBit (crcBit (crcBit (crcBit (crcBit (c ^^^ b.toNat))))))))

/-- CRC-32C of bytes in ascending address order (R121). -/
def crc32c (bs : List Byte) : Nat := bs.foldl crcByte 0xFFFFFFFF ^^^ 0xFFFFFFFF

/-- Serial-number order on n32 identifiers: a comes before b (R375). -/
def serialBefore (a b : BitVec 32) : Bool := decide (1 ≤ (b - a).toNat ∧ (b - a).toNat < 2 ^ 31)

/-- Bit i of a mask set. -/
def setBit {n : Nat} (m : BitVec n) (i : Nat) : BitVec n := m ||| (1#n <<< i)
/-- Bit i of a mask cleared. -/
def unsetBit {n : Nat} (m : BitVec n) (i : Nat) : BitVec n := m &&& ~~~(1#n <<< i)

end Sys2Proof
end

