-- ==== Sys2Proof/Machine/Numbers.lean ====
section
/-! DEFINITION. The numbers the device computes with (R53 to R71): formats, rounding, conversions, the basic
operations, aligned-window summation and integer digits. Values are exact: a sign, a natural significand and an
exponent; codes are natural numbers. -/

namespace Sys2Proof

/-! ### Flags (R63): NV 4, DZ 3, OF 2, UF 1, NX 0 -/

/-- The five sticky flags of one engine group (R63). -/
abbrev Flags := BitVec 5
/-- No flag. -/
def Flags.none : Flags := 0
/-- Inexact. -/
def Flags.nx : Flags := 1
/-- Underflow. -/
def Flags.uf : Flags := 2
/-- Overflow. -/
def Flags.of : Flags := 4
/-- Divide by zero. -/
def Flags.dz : Flags := 8
/-- Invalid. -/
def Flags.nv : Flags := 16

/-! ### Floating-point formats (R55, Table 3.2) -/

/-- A format: exponent bits, fraction bits, bias, and whether it has infinities. -/
structure FFmt where
  eb : Nat
  fb : Nat
  bias : Nat
  hasInf : Bool
  deriving DecidableEq, Repr

def FFmt.fp64 : FFmt := ⟨11, 52, 1023, true⟩
def FFmt.fp32 : FFmt := ⟨8, 23, 127, true⟩
def FFmt.fp16 : FFmt := ⟨5, 10, 15, true⟩
def FFmt.bf16 : FFmt := ⟨8, 7, 127, true⟩
def FFmt.e4m3 : FFmt := ⟨4, 3, 7, false⟩
def FFmt.e5m2 : FFmt := ⟨5, 2, 15, true⟩

/-- The format of a float type; other types answer FP32, and are not asked. -/
def ElemTy.ffmt : ElemTy → FFmt
  | .fp64 => .fp64 | .fp16 => .fp16 | .bf16 => .bf16 | .e4m3 => .e4m3 | .e5m2 => .e5m2 | _ => .fp32

/-- Is the type one of the float types? -/
def ElemTy.isFloat : ElemTy → Bool
  | .fp32 | .bf16 | .fp16 | .e4m3 | .e5m2 | .fp64 => true
  | _ => false

/-- Bits of a value of the type (Tables 3.1, 3.2; R58, R59). -/
def ElemTy.width : ElemTy → Nat
  | .s32 | .n32 | .fp32 => 32 | .bf16 | .fp16 => 16 | .e4m3 | .e5m2 | .s8 | .n8 | .lg8 => 8 | .lg6 => 6 | .fp64 => 64

/-- Is the integer type signed? -/
def ElemTy.signed : ElemTy → Bool
  | .s32 | .s8 => true
  | _ => false

/-- Exponent of the smallest normal. -/
def FFmt.emin (F : FFmt) : Int := 1 - (F.bias : Int)
/-- The code of the largest finite magnitude. -/
def FFmt.maxCode (F : FFmt) : Nat := if F.hasInf then (2 ^ F.eb - 1) * 2 ^ F.fb - 1 else 2 ^ (F.eb + F.fb) - 2
/-- The code of +∞, for a format that has one. -/
def FFmt.infCode (F : FFmt) : Nat := (2 ^ F.eb - 1) * 2 ^ F.fb
/-- The sign bit. -/
def FFmt.signBit (F : FFmt) : Nat := 2 ^ (F.eb + F.fb)
/-- A magnitude code with a sign. -/
def FFmt.withSign (F : FFmt) (neg : Bool) (c : Nat) : Nat := if neg then c + F.signBit else c
/-- The default NaN (R56). -/
def FFmt.defaultNaN (F : FFmt) : Nat :=
  if F.hasInf then (2 ^ F.eb - 1) * 2 ^ F.fb + 2 ^ (F.fb - 1) else 2 ^ (F.eb + F.fb) - 1

/-- The value of a code of any format: NaN with its fraction (of fb bits), NaV, infinity, an exact dyadic value
(−1)^neg · m · 2^e, or an Orris value (−1)^neg · 2^(k/8). -/
inductive Num where
  | nan (neg : Bool) (frac fb : Nat)
  | nav (six : Bool)
  | inf (neg : Bool)
  | dy (neg : Bool) (m : Nat) (e : Int)
  | lg (neg : Bool) (k : Int)
  deriving DecidableEq, Repr

/-- The value of a floating-point code (R55, R56). -/
def FFmt.val (F : FFmt) (c : Nat) : Num :=
  let neg := bitAt c (F.eb + F.fb)
  let ex := c / 2 ^ F.fb % 2 ^ F.eb
  let fr := c % 2 ^ F.fb
  if ex = 2 ^ F.eb - 1 ∧ F.hasInf = true then (if fr = 0 then .inf neg else .nan neg fr F.fb)
  else if ex = 2 ^ F.eb - 1 ∧ fr = 2 ^ F.fb - 1 then .nan neg fr F.fb
  else if ex = 0 then .dy neg fr (F.emin - F.fb)
  else .dy neg (2 ^ F.fb + fr) ((ex : Int) - F.bias - F.fb)

/-! ### Rounding (R61) -/

/-- m · 2^s for a signed shift, rounded down. -/
def shiftNat (m : Nat) (s : Int) : Nat := if 0 ≤ s then m * 2 ^ s.toNat else m / 2 ^ (-s).toNat

/-- The bits of m below weight 2^s, as (quotient, remainder against 2^s). -/
def splitAt2 (m : Nat) (s : Int) : Nat × Nat := if s ≤ 0 then (m * 2 ^ (-s).toNat, 0) else (m / 2 ^ s.toNat, m % 2 ^ s.toNat)

/-- Does a nonzero remainder round the magnitude up? `st`: the true value lies just above. -/
def roundsUp (mode : Rm) (neg : Bool) (lo rem : Nat) (s : Int) (st : Bool) : Bool :=
  match mode with
  | .rtz => false
  | .rdn => neg
  | .rup => !neg
  | .rne =>
    let half := if s ≤ 0 then 0 else 2 ^ (s.toNat - 1)
    if half = 0 then false
    else if rem < half then false
    else if half < rem then true
    else st || lo % 2 == 1

/-- round_to of the magnitude (m, e), with `st` for a value just above it in magnitude (R61). The answer is a code of
the format and the flags. It is used for m ≠ 0 or st = true. -/
def roundMag (F : FFmt) (mode : Rm) (sat : Bool) (neg : Bool) (m : Nat) (e : Int) (st : Bool) : Nat × Flags :=
  let E : Int := if m = 0 then F.emin else max ((Nat.log2 m : Int) + e) F.emin
  let q := E - F.fb
  let (lo, rem) := if m = 0 then (0, 0) else splitAt2 m (q - e)
  let exact := rem = 0 ∧ st = false
  let s := if m = 0 then 0 else q - e
  let mant := if exact then lo else if roundsUp mode neg lo rem s st then lo + 1 else lo
  -- a carry out of the significand moves to the next exponent by itself: codes are consecutive
  let code : Int := if mant < 2 ^ F.fb then (mant : Int) else (q + F.fb + F.bias) * 2 ^ F.fb + ((mant : Int) - 2 ^ F.fb)
  let tiny := m = 0 ∨ (Nat.log2 m : Int) + e < F.emin
  let fl := (if exact then Flags.none else Flags.nx) ||| (if ¬ exact ∧ tiny then Flags.uf else Flags.none)
  if (F.maxCode : Int) < code then
    let toMax := sat || !F.hasInf || mode == .rtz || (mode == .rdn && !neg) || (mode == .rup && neg)
    (F.withSign neg (if toMax then F.maxCode else F.infCode), fl ||| Flags.of ||| Flags.nx)
  else (F.withSign neg code.toNat, fl)

/-- round_to of a signed value v · 2^e with R61's sticky (the true value lies above v · 2^e). -/
def roundInt (F : FFmt) (mode : Rm) (sat : Bool) (v : Int) (e : Int) (st : Bool) : Nat × Flags :=
  if v < 0 ∧ st = true then
    roundMag F mode sat true (v.natAbs * 2 ^ (F.fb + 3) - 1) (e - (F.fb + 3 : Nat)) true
  else roundMag F mode sat (decide (v < 0)) v.natAbs e st

/-! ### NaN rules (R56, R62, R65, R66) -/

/-- The payload rule (R65). -/
def nanConv (F : FFmt) (neg : Bool) (frac fb : Nat) : Nat :=
  if !F.hasInf then F.withSign neg (2 ^ (F.eb + F.fb) - 1)
  else
    let fr := if fb ≤ F.fb then frac * 2 ^ (F.fb - fb) else frac / 2 ^ (fb - F.fb)
    F.withSign neg (F.infCode + (if fr = 0 then 2 ^ (F.fb - 1) else fr))

/-- The same with the quiet bit set (R62). -/
def nanQuiet (F : FFmt) (neg : Bool) (frac fb : Nat) : Nat :=
  let c := nanConv F neg frac fb
  if F.hasInf then c ||| 2 ^ (F.fb - 1) else c

/-- An infinite result of R62: the largest finite value and OF where the format has no infinity. -/
def infResult (F : FFmt) (neg : Bool) : Nat × Flags :=
  if F.hasInf then (F.withSign neg F.infCode, Flags.none) else (F.withSign neg F.maxCode, Flags.of)

/-- The NaN fraction of NaV's FP32 image (R66). -/
def navFrac (six : Bool) : Nat := if six then 0x400006 else 0x400008

/-- A NaV as the FP32 NaN it converts to (R66); other values unchanged. -/
def Num.unNav : Num → Num
  | .nav six => .nan true (navFrac six) 23
  | v => v

/-! ### Orris codes (R58, R59, R67) -/

/-- Steps of the format per octave: 4 for LG6, 8 for LG8. -/
def lgSteps (six : Bool) : Nat := if six then 4 else 8

/-- The value of an Orris code. -/
def lgVal (six : Bool) (c : Nat) : Num :=
  let nb := if six then 5 else 7
  let neg := bitAt c nb
  let t := c % 2 ^ nb
  if t = 0 then (if neg then .nav six else .dy false 0 0)
  else if six then .lg neg (2 * ((t : Int) - 16)) else .lg neg ((t : Int) - 64)

/-- The NaV code. -/
def navCode (six : Bool) : Nat := if six then 0x20 else 0x80

/-- The code of grid index k (in the format's own steps), and the flags of R67; `exact`: the value is the grid point. -/
def lgCode (six : Bool) (neg : Bool) (k : Int) (exact : Bool) : Nat × Flags :=
  let t := k + (if six then 16 else 64)
  let tmax : Int := if six then 31 else 127
  let sg := if neg then navCode six else 0
  let fl := if exact then Flags.none else Flags.nx
  if t < 1 then (0, fl ||| Flags.uf ||| Flags.nx)
  else if tmax < t then (sg + tmax.toNat, fl ||| Flags.of ||| Flags.nx)
  else (sg + t.toNat, fl)

/-- ⌊2^(700 + i/16)⌋ for i = 0 to 15. -/
def root16Table : List Nat :=
  [ 0x10000000000000000000000000000000000000000000000000000000000000000000000000000000000000000000000000000000000000000000000000000000000000000000000000000000000000000000000000000000,
  0x10b5586cf9890f6298b92b71842a98364291408b3ceb0a2a2ba8566c55e3dd0b2f06b5f3569cc6ab905b937e6843081a3306f87a8260d58d1724329dcddf3ca59ce75147e24d7473515b280c517dcffce32cb204a186a577,
  0x1172b83c7d517adcdf7c8c50eb14a792035509ff7d758693f23c26bdd0947ee6769e5190f34a497a93329f58fe9d4ca972380eb275b73ffb77931edbe1df655f96177573483312014d9d0cf5574800686c5c25d68f8a343b,
  0x12387a6e75623866c1fadb1c15cb593b0328566902df69e4de240795ecb7f73729c1b32184f886c86476a09f6bb5b764a7ac15a4aa1924f42d6b862f29ceb7250d52b6a38ef678b2b7ddce52584dec5dd6806106ac55ca01,
  0x1306fe0a31b7152de8d5a46305c85edecbc27343629f502f1af16cb97df4f76df7c8f869a7004a1509d3f29dc1921b77ac99af6480fa535c4bcf5067cde8af5bfe88ab481ad0d1497113905116f1d93fe03d0f635f6a96fc,
  0x13dea64c12342235b41223e13d773fba2cb82b8244267c54443f2effcf8ff422f9a25cb5b523ddef744c8d2d6dedc563802f32015e187223a48c3007a8821aa5f389cd5e91e4688afef17cbe9bf21c390c5ccdcc454364e6,
  0x14bfdad5362a271d4397afec42e20e0363ba2e159c579f82e4b1393150521a7e0a6876940661500a55a6bd1cb18b9c9e9d21933aff943ec2a56783d6c157bb56cc51044c7502b53f0de07688b076eee49069a381c9e3700a,
  0x15ab07dd48542958c93015191eb345d88d7c81280e069fbdb62cbe2830674cfb48b1fabe89c4d4f4ee7347a0c3fd4eb2564c98810a235cbdb080574872e8d8859cddc96c68649f7a9c03cbda2d97c98007bb868464d44338,
  0x16a09e667f3bcc908b2fb1366ea957d3e3adec17512775099da2f590b0667322a95f90608757145875163fcdfb907b6721ee950bc8738f694f0090e6c7bf44ed1a4405d0e855e3e9ca60b38c0237866f7956379222d108b1,
  0x17a11473eb0186d7d51023f6cda1f5ef42b66977960531e821b3497c047d9c0633730be741d5c383a5078cdb6adbf2ff0fab9deb46ac76d2dd2bc08f08b626d0cc5f8159e87ae96afb252ae42f289f83d9b7f5ba4b2b5576,
  0x18ace5422aa0db5ba7c55a192c9bb3e6ed61f2733304a346d8ed0c00dc9cd81257640d17c46ea25bfdf74321da34b14a35a2de020607a769d47baf3d100392ee1246700c5588d5a61626caff4ebe448d53b56b685da5174b,
  0x19c49182a3f0901c7c46b071f2be58ddade50c217186c90b4577a7315e6b80f3e37068611177b5ba99b195d78bb12984cdaa51240c61acfa9fa210c8cdd4c877df00346f46ba69627671ce9737aca0c786d4acfde3ed9c61,
  0x1ae89f995ad3ad5e8734d1773205a7fbc3ae675ea440b162d6b8275b41cef0533df603fb4669795350248e8b1f6c3caece360af48f58d99083feec2c4b5f406af95da59427183eb7e97348c1f091f5d490f3bc4335cd1f74,
  0x1c199bdd85529c2220cb12a091ba6679444964a366612400439733a7e3fe53144310103fce0c5ec3de89c2e4c5b4936ba7d7fccda38ef31275b9a0b58ffad8203cb2b1cf7c06d383fe8853c9364e90f47864c3c4b0afbc3c,
  0x1d5818dcfba48725da05aeb66e0dca9f589f559c0876ff2382fb1a3d1946310156671f9a5585ff7901229050a9b033c8865e2c35db0b7f98edca035a5f860d05405c81143b99a2f70ea7f1d872d6b58517e3bedb0296f8ae,
  0x1ea4afa2a490d9858f73a18f5db301f86dea20610ceee13eb7bb006526c95453fa45ba06de320c12853e0ebe46e61d230d3d9de3f37935190fb20a854db669f26d49906ed9aa0aaa844c6a417017346d659924cb6578a5dd]

/-- ⌊2^(700 + i/16)⌋. -/
def root16 (i : Nat) : Nat := root16Table.getD i 0

/-- The index k nearest to n·log2 y, for y = Y · 2^e with Y > 0, n = 4 or 8, when no tie arises: the octave of y plus
the number of half-step bounds 2^((2i+1)/(2n)) not above its significand. -/
def nearestLog (n Y : Nat) (e : Int) : Int :=
  let L := Nat.log2 Y
  let above := fun i => decide (root16 ((2 * i + 1) * (8 / n)) * 2 ^ L ≤ Y * 2 ^ 700)
  (n : Int) * ((L : Int) + e) + ((List.range n).countP above : Nat)

/-- to_lg of an exact dyadic magnitude with a sticky bit (R67); m ≠ 0 or st. -/
def toLgDyadic (six : Bool) (neg : Bool) (m : Nat) (e : Int) (st : Bool) : Nat × Flags :=
  if m = 0 then (if st then (0, Flags.uf ||| Flags.nx) else (0, Flags.none))
  else lgCode six neg (nearestLog (lgSteps six) m e) (decide (m = 2 ^ Nat.log2 m) && !st)

/-- to_lg of ±2^(k/8): exact in LG8; in LG6 an odd k is a tie, taken to the even index (R67). -/
def toLgLog (six : Bool) (neg : Bool) (k : Int) : Nat × Flags :=
  if six then
    if k % 2 = 0 then lgCode true neg (k / 2) true
    else
      let f := k / 2
      lgCode true neg (if f % 2 = 0 then f else f + 1) false
  else lgCode false neg k true

/-- to_lg of the sum of two Orris values ±2^(a/8) ± 2^(b/8) (R67, R224), decided on 700-bit roots of two. -/
def toLgSum (six : Bool) (sa : Bool) (a : Int) (sb : Bool) (b : Int) : Nat × Flags :=
  let (sh, h, sl, l) := if a < b then (sb, b, sa, a) else (sa, a, sb, b)
  let d := (h - l).toNat
  let same := sh == sl
  if d = 0 ∧ same = false then (0, Flags.none)
  else
    let big := root16 (2 * (d % 8)) * 2 ^ (d / 8)
    let y := if same then big + 2 ^ 700 else big - 2 ^ 700
    let rational := d % 8 = 0
    let c := if same then 2 ^ (d / 8) + 1 else 2 ^ (d / 8) - 1
    if rational ∧ c = 2 ^ Nat.log2 c then toLgLog six sh (l + 8 * (Nat.log2 c : Nat))
    else
      let n := lgSteps six
      -- n·log2 y, with the factor 2^(l/8): l/8 octaves are n·l/8 steps; an odd l in LG6 is a half step
      if six ∧ l % 2 ≠ 0 then
        lgCode true sh (nearestLog 4 (y * root16 2) (-1400) + 4 * ((l - 1) / 8) + (l - 1) % 8 / 2) false
      else lgCode six sh (nearestLog n y (-700) + (if six then l / 2 else l)) false

/-! ### Integers (R53, R54, R68) -/

/-- Round a magnitude with sticky to an integer magnitude; the flag says it was exact. -/
def roundToNat (mode : Rm) (neg : Bool) (m : Nat) (e : Int) (st : Bool) : Nat × Bool :=
  let (lo, rem) := splitAt2 m (-e)
  if rem = 0 ∧ st = false then (lo, true)
  else (if roundsUp mode neg lo rem (-e) st then lo + 1 else lo, false)

/-- The least and greatest value of an n-bit integer format. -/
def intMin (n : Nat) (sg : Bool) : Int := if sg then -((2 ^ (n - 1) : Nat) : Int) else 0
def intMax (n : Nat) (sg : Bool) : Int := if sg then ((2 ^ (n - 1) : Nat) : Int) - 1 else ((2 ^ n : Nat) : Int) - 1

/-- Clamp to a range. -/
def clampInt (lo hi x : Int) : Int := if x < lo then lo else if hi < x then hi else x

/-- R68 on a magnitude with a sign: the integer code (n bits) and flags. -/
def toIntMag (n : Nat) (sg : Bool) (mode : Rm) (neg : Bool) (m : Nat) (e : Int) (st : Bool) : Nat × Flags :=
  let (r, exact) := roundToNat mode neg m e st
  let v : Int := if neg then -(r : Int) else r
  let w := clampInt (intMin n sg) (intMax n sg) v
  (wrapN n w, if w ≠ v then Flags.nv else if exact then Flags.none else Flags.nx)

/-- Magnitude of an Orris value as 2^-700 · root with a sticky bit when it is irrational. -/
def lgMag (k : Int) : Nat × Int × Bool :=
  if k % 8 = 0 then (1, k / 8, false) else (root16 (2 * (k % 8).toNat), k / 8 - 700, true)

/-! ### Conversions (R65 to R68, R240) -/

/-- The value of a code of a type. -/
def ElemTy.val (t : ElemTy) (c : Nat) : Num :=
  if t.isFloat then t.ffmt.val c
  else match t with
    | .lg6 => lgVal true c
    | .lg8 => lgVal false c
    | _ =>
      let v := if t.signed then sintOf t.width c else ((c % 2 ^ t.width : Nat) : Int)
      .dy (decide (v < 0)) v.natAbs 0

/-- A value into a floating-point format (R65, R66). -/
def Num.toFloat (F : FFmt) (mode : Rm) (sat : Bool) (v : Num) : Nat × Flags :=
  match v.unNav with
  | .nan neg frac fb => (nanConv F neg frac fb, Flags.none)
  | .inf neg => if sat || !F.hasInf then (F.withSign neg F.maxCode, Flags.of) else (F.withSign neg F.infCode, Flags.none)
  | .dy neg m e => if m = 0 then (F.withSign neg 0, Flags.none) else roundMag F mode sat neg m e false
  | .lg neg k => let (m, e, st) := lgMag k; roundMag F mode sat neg m e st
  | .nav _ => (F.defaultNaN, Flags.none)

/-- A value into an Orris format (R67). -/
def Num.toOrris (six : Bool) (v : Num) : Nat × Flags :=
  match v with
  | .nan _ _ _ | .nav _ => (navCode six, Flags.none)
  | .inf neg => lgCode six neg (if six then 100 else 1000) true
  | .dy neg m e => toLgDyadic six neg m e false
  | .lg neg k => toLgLog six neg k

/-- A value into an n-bit integer (R68). -/
def Num.toInt (n : Nat) (sg : Bool) (mode : Rm) (v : Num) : Nat × Flags :=
  match v with
  | .nan _ _ _ | .nav _ => (0, Flags.nv)
  | .inf neg => (wrapN n (if neg then intMin n sg else intMax n sg), Flags.nv)
  | .dy neg m e => toIntMag n sg mode neg m e false
  | .lg neg k => let (m, e, st) := lgMag k; toIntMag n sg mode neg m e st

/-- convert of R240: a code of type s to a code of type t. A conversion to an integer sets the flags of R68, though R229 says that a word that
computes no float or Orris result sets none (DESIGN CHOICE, entry 109). -/
def convert (s t : ElemTy) (mode : Rm) (sat : Bool) (c : Nat) : Nat × Flags :=
  let v := s.val c
  if t.isFloat then v.toFloat t.ffmt mode sat
  else if t.isOrris then v.toOrris (t == .lg6)
  else if s.isInt then
    let x := if s.signed then sintOf s.width c else ((c % 2 ^ s.width : Nat) : Int)
    (wrapN t.width (if sat then clampInt (intMin t.width t.signed) (intMax t.width t.signed) x else x), Flags.none)
  else v.toInt t.width t.signed mode

/-! ### The basic operations (R62) -/

/-- A signed dyadic value as an integer against 2^e'. -/
def signedAt (neg : Bool) (m : Nat) (e e' : Int) : Int :=
  let x : Int := (m * 2 ^ (e - e').toNat : Nat)
  if neg then -x else x

/-- The sign of an exactly zero sum of two values (R62). -/
def zeroSumNeg (mode : Rm) (az an bz bn : Bool) : Bool := if az && bz && an == bn then an else mode == .rdn

/-- x + y of exact dyadic values, rounded once (R62). -/
def addDy (F : FFmt) (mode : Rm) (sat : Bool) (an : Bool) (am : Nat) (ae : Int) (bn : Bool) (bm : Nat) (be : Int) : Nat × Flags :=
  let e := min ae be
  let s := signedAt an am ae e + signedAt bn bm be e
  if s = 0 then (F.withSign (zeroSumNeg mode (am == 0) an (bm == 0) bn) 0, Flags.none)
  else roundInt F mode sat s e false

/-- The first NaN of a list of operands, as the result of R62. -/
def firstNaN (F : FFmt) : List Num → Option Nat
  | [] => none
  | .nan neg frac fb :: _ => some (nanQuiet F neg frac fb)
  | _ :: r => firstNaN F r

/-- The invalid result: the default NaN and NV (R62). -/
def invalid (F : FFmt) : Nat × Flags := (F.defaultNaN, Flags.nv)

/-- x + y (R62). -/
def fpAdd (F : FFmt) (mode : Rm) (sat : Bool) (x y : Num) : Nat × Flags :=
  match firstNaN F [x, y] with
  | some c => (c, Flags.none)
  | none =>
    match x, y with
    | .inf a, .inf b => if a == b then infResult F a else invalid F
    | .inf a, _ => infResult F a
    | _, .inf b => infResult F b
    | .dy an am ae, .dy bn bm be => addDy F mode sat an am ae bn bm be
    | _, _ => invalid F

/-- The value with its sign inverted. -/
def Num.neg : Num → Num
  | .nan s f b => .nan (!s) f b
  | .inf s => .inf (!s)
  | .dy s m e => .dy (!s) m e
  | .lg s k => .lg (!s) k
  | .nav b => .nav b

/-- x − y (R62): a NaN operand keeps its own sign. -/
def fpSub (F : FFmt) (mode : Rm) (sat : Bool) (x y : Num) : Nat × Flags :=
  match firstNaN F [x, y] with
  | some c => (c, Flags.none)
  | none => fpAdd F mode sat x y.neg

/-- Is the value zero? -/
def Num.isZero : Num → Bool
  | .dy _ m _ => m == 0
  | _ => false

/-- The sign of a value. -/
def Num.isNeg : Num → Bool
  | .nan s _ _ => s | .inf s => s | .dy s _ _ => s | .lg s _ => s | .nav _ => true

/-- The exact product of two values that are no NaN; `none` for ∞ × 0 (R62). -/
def mulNum (x y : Num) : Option Num :=
  match x, y with
  | .inf a, y => if y.isZero then none else some (.inf (a != y.isNeg))
  | x, .inf b => if x.isZero then none else some (.inf (x.isNeg != b))
  | .dy an am ae, .dy bn bm be => some (.dy (an != bn) (am * bm) (ae + be))
  | _, _ => none

/-- x × y (R62). -/
def fpMul (F : FFmt) (mode : Rm) (sat : Bool) (x y : Num) : Nat × Flags :=
  match firstNaN F [x, y] with
  | some c => (c, Flags.none)
  | none =>
    match mulNum x y with
    | some (.inf s) => infResult F s
    | some (.dy s m e) => if m = 0 then (F.withSign s 0, Flags.none) else roundMag F mode sat s m e false
    | _ => invalid F

/-- x × y + z, rounded once (R62). -/
def fpFma (F : FFmt) (mode : Rm) (sat : Bool) (x y z : Num) : Nat × Flags :=
  match firstNaN F [x, y, z] with
  | some c => (c, Flags.none)
  | none =>
    match mulNum x y with
    | some p => fpAdd F mode sat p z
    | none => invalid F

/-- x / y (R62). -/
def fpDiv (F : FFmt) (mode : Rm) (sat : Bool) (x y : Num) : Nat × Flags :=
  match firstNaN F [x, y] with
  | some c => (c, Flags.none)
  | none =>
    let s := x.isNeg != y.isNeg
    match x, y with
    | .inf _, .inf _ => invalid F
    | .inf _, _ => infResult F s
    | _, .inf _ => (F.withSign s 0, Flags.none)
    | .dy _ am ae, .dy _ bm be =>
      if bm = 0 then (if am = 0 then invalid F else let (c, f) := infResult F s; (c, f ||| Flags.dz))
      else if am = 0 then (F.withSign s 0, Flags.none)
      else
        let k := F.fb + 4 + Nat.log2 bm
        roundMag F mode sat s (am * 2 ^ k / bm) (ae - be - k) (am * 2 ^ k % bm != 0)
    | _, _ => invalid F

/-- √x (R62, Table 8.4: √−0 = −0). -/
def fpSqrt (F : FFmt) (mode : Rm) (x : Num) : Nat × Flags :=
  match firstNaN F [x] with
  | some c => (c, Flags.none)
  | none =>
    match x with
    | .inf false => infResult F false
    | .dy s m e =>
      if m = 0 then (F.withSign s 0, Flags.none)
      else if s then invalid F
      else
        let k := 2 * (F.fb + 4) + (e % 2).toNat
        let n := m * 2 ^ k
        let r := isqrt n
        roundMag F mode false false r ((e - k) / 2) (r * r != n)
    | _ => invalid F

/-- The order of two values that are neither NaN nor NaV; zeros are equal. -/
def cmpNum (x y : Num) : Ordering :=
  match x, y with
  | .inf a, .inf b => if a == b then .eq else if a then .lt else .gt
  | .inf a, _ => if a then .lt else .gt
  | _, .inf b => if b then .gt else .lt
  | .dy an am ae, .dy bn bm be => let e := min ae be; compare (signedAt an am ae e) (signedAt bn bm be e)
  | .lg an a, .lg bn b => if an != bn then (if an then .lt else .gt) else if an then compare b a else compare a b
  | .dy _ _ _, .lg b _ => if b then .gt else .lt      -- Orris zero against a nonzero Orris value
  | .lg a _, .dy _ _ _ => if a then .lt else .gt
  | _, _ => .eq

/-- Is the value a NaN or NaV? -/
def Num.unordered : Num → Bool
  | .nan _ _ _ | .nav _ => true
  | _ => false

/-- The relation of a condition code of R191 (0 =, 1 <, 2 ≤, 3 unordered, 4 ≠ or unordered). -/
def condHolds (c : Nat) (x y : Num) : Bool :=
  let u := x.unordered || y.unordered
  match c with
  | 0 => !u && cmpNum x y == .eq
  | 1 => !u && cmpNum x y == .lt
  | 2 => !u && (cmpNum x y == .eq || cmpNum x y == .lt)
  | 3 => u
  | _ => u || cmpNum x y != .eq

/-- Minimum or maximum of two float codes (R62): −0 below +0, one NaN gives the other operand. -/
def fpMinMax (F : FFmt) (mx : Bool) (a b : Nat) : Nat :=
  match F.val a, F.val b with
  | .nan s f n, .nan _ _ _ => nanQuiet F s f n
  | .nan _ _ _, _ => b
  | _, .nan _ _ _ => a
  | x, y =>
    let less := cmpNum x y == .lt || (cmpNum x y == .eq && x.isNeg && !y.isNeg)
    if less != mx then a else b

/-! ### Aligned-window summation (R70) -/

/-- An exact signed term v · 2^e. -/
abbrev Term := Int × Int

/-- ⌊v · 2^e / 2^q⌋ and whether it is exact. -/
def floorAt (v e q : Int) : Int × Bool :=
  if q ≤ e then (v * ((2 ^ (e - q).toNat : Nat) : Int), true)
  else
    let p : Int := ((2 ^ (q - e).toNat : Nat) : Int)
    (v / p, v % p == 0)

/-- emax of R70 over the nonzero terms. -/
def maxExp : List Term → Option Int
  | [] => none
  | (v, e) :: r =>
    let here : Option Int := if v = 0 then none else some ((Nat.log2 v.natAbs : Int) + e)
    match here, maxExp r with
    | none, m => m
    | some x, none => some x
    | some x, some y => some (max x y)

/-- align_window (R70): the sum as an integer against 2^q, q itself, and the sticky bit. -/
def alignWindow (T : List Term) (W : Nat) : Int × Int × Bool :=
  match maxExp T with
  | none => (0, 0, false)
  | some emax =>
    let q := emax - W + 2
    let cs := T.map (fun t => floorAt t.1 t.2 q)
    (cs.foldl (fun s c => s + c.1) 0, q, cs.any (fun c => !c.2))

/-- A value that is exact as a window term. -/
def Num.term : Num → Term
  | .dy s m e => (if s then -(m : Int) else m, e)
  | _ => (0, 0)

/-! ### fit (R224) and operations on one sub-element (R233) -/

/-- Orris arithmetic on values: NaV propagates, zero adds nothing (R224, R233). -/
def lgAdd (six : Bool) (x y : Num) : Nat × Flags :=
  match x, y with
  | .nav _, _ | _, .nav _ => (navCode six, Flags.none)
  | .lg a k, .lg b l => toLgSum six a k b l
  | .lg a k, _ => toLgLog six a k
  | _, .lg b l => toLgLog six b l
  | _, _ => (0, Flags.none)

/-- The exact product of two Orris values. -/
def lgMulNum (x y : Num) : Num :=
  match x, y with
  | .nav s, _ => .nav s
  | _, .nav s => .nav s
  | .lg a k, .lg b l => .lg (a != b) (k + l)
  | _, _ => .dy false 0 0

/-- An Orris value rounded to its format. -/
def lgFit (six : Bool) (x : Num) : Nat × Flags := x.toOrris six

/-- fit of an exact integer (R224). -/
def fitInt (t : ElemTy) (sat : Bool) (x : Int) : Nat × Flags :=
  (wrapN t.width (if sat then clampInt (intMin t.width t.signed) (intMax t.width t.signed) x else x), Flags.none)

/-- The integer value of a code. -/
def ElemTy.int (t : ElemTy) (c : Nat) : Int := if t.signed then sintOf t.width c else ((c % 2 ^ t.width : Nat) : Int)

/-- a + b in type t. -/
def subAdd (t : ElemTy) (mode : Rm) (sat : Bool) (a b : Nat) : Nat × Flags :=
  if t.isFloat then fpAdd t.ffmt mode sat (t.val a) (t.val b)
  else if t.isOrris then lgAdd (t == .lg6) (t.val a) (t.val b)
  else fitInt t sat (t.int a + t.int b)

/-- a − b in type t. -/
def subSub (t : ElemTy) (mode : Rm) (sat : Bool) (a b : Nat) : Nat × Flags :=
  if t.isFloat then fpSub t.ffmt mode sat (t.val a) (t.val b)
  else if t.isOrris then lgAdd (t == .lg6) (t.val a) (t.val b).neg
  else fitInt t sat (t.int a - t.int b)

/-- a × b in type t. -/
def subMul (t : ElemTy) (mode : Rm) (sat : Bool) (a b : Nat) : Nat × Flags :=
  if t.isFloat then fpMul t.ffmt mode sat (t.val a) (t.val b)
  else if t.isOrris then lgFit (t == .lg6) (lgMulNum (t.val a) (t.val b))
  else fitInt t sat (t.int a * t.int b)

/-- a × b + c in type t, rounded once. -/
def subFma (t : ElemTy) (mode : Rm) (sat : Bool) (a b c : Nat) : Nat × Flags :=
  if t.isFloat then fpFma t.ffmt mode sat (t.val a) (t.val b) (t.val c)
  else if t.isOrris then lgAdd (t == .lg6) (lgMulNum (t.val a) (t.val b)) (t.val c)
  else fitInt t sat (t.int a * t.int b + t.int c)

/-- Minimum or maximum in type t (Table 9.2). -/
def subMinMax (t : ElemTy) (mx : Bool) (a b : Nat) : Nat :=
  if t.isFloat then fpMinMax t.ffmt mx a b
  else if t.isOrris then
    if (t.val a).unordered || (t.val b).unordered then navCode (t == .lg6)
    else if (cmpNum (t.val a) (t.val b) == .lt) != mx then a else b
  else if decide (t.int a < t.int b) != mx then a else b

/-- VABS of one value (R234). -/
def subAbs (t : ElemTy) (sat : Bool) (a : Nat) : Nat :=
  if t.isFloat then a % t.ffmt.signBit
  else if t.isOrris then
    let s := navCode (t == .lg6)
    if a % (2 * s) = s then s else a % s
  else (fitInt t sat (t.int a).natAbs).1

/-- VNEG of one value (R234). -/
def subNeg (t : ElemTy) (sat : Bool) (a : Nat) : Nat :=
  if t.isFloat then a % (2 * t.ffmt.signBit) ^^^ t.ffmt.signBit
  else if t.isOrris then
    let s := navCode (t == .lg6)
    if a % s = 0 then a % (2 * s) else a % (2 * s) ^^^ s
  else (fitInt t sat (-(t.int a))).1

/-- Does condition c hold (R236)? Integers have no unordered case. -/
def subCmp (t : ElemTy) (c : Nat) (a b : Nat) : Bool := condHolds c (t.val a) (t.val b)

/-- Shift of one sub-element (R235): 0 left, 1 right logical, 2 right arithmetic. -/
def subShift (t : ElemTy) (kind : Nat) (a b : Nat) : Nat :=
  let n := t.width
  let x := a % 2 ^ n
  let s := b % 2 ^ n % n
  match kind with
  | 0 => x * 2 ^ s % 2 ^ n
  | 1 => x / 2 ^ s
  | _ => wrapN n (sintOf n x / ((2 ^ s : Nat) : Int))

/-! ### Digits (R257, R258) -/

/-- The lowest digit of g bits of x, in −2^(g−1) to 2^(g−1) − 1. -/
def digit (g : Nat) (x : Int) : Int := sintOf g (wrapN g x)

/-- Digits 0 to n − 1 of x, lowest first (R258). -/
def digits (g : Nat) : Nat → Int → List Int
  | 0, _ => []
  | n + 1, x => let d := digit g x; d :: digits g n ((x - d) / ((2 ^ g : Nat) : Int))

/-- A digit clamped to s32, as a code, and OF when the clamp changed it. -/
def clampDigit (d : Int) : Nat × Flags :=
  let c := clampInt (intMin 32 true) (intMax 32 true) d
  (wrapN 32 c, if c ≠ d then Flags.of else Flags.none)

end Sys2Proof
end

