-- ==== Sys2Proof/Machine/Sparse.lean ====
section
/-! DEFINITION. Sparse storage: a list of (key, value) pairs with strictly rising keys and no entry equal to what an
unlisted key reads as. Memory, planes and accumulator entries are held in this form. -/

namespace Sys2Proof

/-- The value at a key; an unlisted key reads as `z`. -/
def sget {α : Type} (z : α) : List (Nat × α) → Nat → α
  | [], _ => z
  | (k, v) :: r, i => if i = k then v else sget z r i

/-- Set a key; setting it to `z` removes its entry. -/
def sput {α : Type} [DecidableEq α] (z : α) : List (Nat × α) → Nat → α → List (Nat × α)
  | [], i, x => if x = z then [] else [(i, x)]
  | (k, v) :: r, i, x =>
    if i = k then (if x = z then r else (k, x) :: r)
    else if i < k then (if x = z then (k, v) :: r else (i, x) :: (k, v) :: r)
    else (k, v) :: sput z r i x

/-- The canonical form: every key at least `lo`, keys strictly rising, no entry equal to `z`. -/
def swfFrom {α : Type} [DecidableEq α] (z : α) : Nat → List (Nat × α) → Bool
  | _, [] => true
  | lo, (k, v) :: r => decide (lo ≤ k) && decide (v ≠ z) && swfFrom z (k + 1) r

/-- The canonical form of a whole list. -/
def swf {α : Type} [DecidableEq α] (z : α) (l : List (Nat × α)) : Bool := swfFrom z 0 l

/-- Set consecutive keys from `i` on. -/
def sputList {α : Type} [DecidableEq α] (z : α) (l : List (Nat × α)) (i : Nat) : List α → List (Nat × α)
  | [] => l
  | x :: xs => sputList z (sput z l i x) (i + 1) xs

/-- The values of n consecutive keys from `i` on. -/
def sgetList {α : Type} (z : α) (l : List (Nat × α)) : Nat → Nat → List α
  | _, 0 => []
  | i, n + 1 => sget z l i :: sgetList z l (i + 1) n

/-- Remove the keys from `lo` to `hi - 1`. -/
def sclear {α : Type} (l : List (Nat × α)) (lo hi : Nat) : List (Nat × α) :=
  l.filter (fun e => e.1 < lo || hi ≤ e.1)

/-- The value of a finite map kept as a list of pairs. -/
def aget {κ α : Type} [DecidableEq κ] (l : List (κ × α)) (k : κ) : Option α :=
  (l.find? (fun e => e.1 = k)).map (·.2)

/-- Set a key of a finite map kept as a list of pairs. -/
def aput {κ α : Type} [DecidableEq κ] : List (κ × α) → κ → α → List (κ × α)
  | [], k, v => [(k, v)]
  | e :: r, k, v => if e.1 = k then (k, v) :: r else e :: aput r k v

/-- Remove a key of a finite map kept as a list of pairs. -/
def adel {κ α : Type} [DecidableEq κ] (l : List (κ × α)) (k : κ) : List (κ × α) := l.filter (fun e => e.1 ≠ k)

end Sys2Proof
end

