-- ==== Sys2Proof/Machine/State.lean ====
section
/-! DEFINITION. The state of the device: a core and its four engines, a die, the queues and launches, the ring, the
management complexes and memory. Everything is plain data. The machine after reset is `State.reset`. -/

namespace Sys2Proof.Machine

/-! ### How a step can end -/

/-- A step that stops the machine (R428 gives no effect to a package without power or held in reset). -/
inductive Fault where
  /-- raised by `step` when the current core's package has lost power or is held in reset; safe: nothing runs there -/
  | noPower
  deriving DecidableEq, Repr

/-- A step for which there is no next state. -/
inductive Refusal where
  /-- raised by an arm of `exec` whose instruction has no meaning yet; safe -/
  | notModelled (mnemonic : String)
  deriving DecidableEq, Repr

/-- A fault as its rule gives it: code of Table 15.2, engine, operand slot, ADDR, DETAIL, and the queue entry. -/
structure FaultInfo where
  code : Nat
  engine : Nat := 0
  slot : Nat := 0
  addr : Nat := 0
  detail : Nat := 0
  qidx : Nat := 0xFF
  deriving DecidableEq, Repr

/-- The answer of a meaning. -/
abbrev Out (σ : Type) := Host.Outcome σ Fault Refusal

/-! ### One core -/

/-- A walker: a bound 4-D pattern, its position and end flags (Table 8.7, R206). `trips` holds trips minus one. -/
structure Walker where
  base : BitVec 56
  trips : Vector (BitVec 16) 4
  strides : Vector (BitVec 32) 4
  idx : Vector (BitVec 16) 4
  flags : BitVec 4
  deriving DecidableEq, Repr

/-- The one-element pattern of R49. -/
def Walker.reset : Walker :=
  ⟨0, Vector.replicate 4 0, Vector.replicate 4 0, Vector.replicate 4 0, 0⟩

/-- A loop counter with its hidden start, end and active bit (R197). -/
structure LoopCtr where
  count : BitVec 32
  start : BitVec 17
  fin : BitVec 17
  active : Bool
  deriving DecidableEq, Repr

/-- A guard slot (R200): unresolved, or resolved to a value. -/
inductive GuardSlot where
  | unresolved
  | resolved (b : Bool)
  deriving DecidableEq, Repr

/-- A token's two counts (R382). -/
structure Token where
  enq : BitVec 32
  ret : BitVec 32
  deriving DecidableEq, Repr

/-- Control registers of one core (Table 7.10). MODE, TVEC, EPC, REPPOS and FREC as Tables 15.3 to 15.6 and 15.9. -/
structure Ctl where
  fpcs : Word
  rngseed : Word
  rngctr : Word
  gwcfg : Word
  coreid : Word
  lbase : Word
  llim : Word
  slim : Word
  mode : Word
  tvec : Word
  epc : Word
  reppos : Word
  frec : Vector Word 8
  asid : Word
  ptbase : Word
  kscr : Vector Word 4
  deriving DecidableEq, Repr

/-- A translation as it was taken from a leaf (R293, R296): address space, page, first address of the entry that it was read
from, physical page, permissions. -/
structure Trans where
  asid : BitVec 16
  vbase : Nat
  size : Nat
  ebase : Nat
  pbase : Nat
  isLocal : Bool
  u : Bool
  w : Bool
  r : Bool
  deriving DecidableEq, Repr

/-- One accumulator entry: M, EXP, TAG, HEAD and the guard bits (Table 3.6). -/
structure AccEntry where
  m : BitVec 128
  exp : BitVec 28
  tag : BitVec 4
  head : BitVec 8
  nv : Bool
  pinf : Bool
  ninf : Bool
  stk : Bool
  ovf : Bool
  inv : Bool
  deriving DecidableEq, Repr

/-- The zero entry (R74). -/
def AccEntry.zero : AccEntry := ⟨0, 0, 0, 0, false, false, false, false, false, false⟩

/-- A projection of an entry's TAG, EXP and HEAD at enqueue time (R267). -/
structure Proj where
  tag : BitVec 4
  exp : BitVec 28
  head : BitVec 8
  deriving DecidableEq, Repr

/-- The projection of a zero entry. -/
def Proj.zero : Proj := ⟨0, 0, 0⟩

/-- An atomic on its way to its home (R305): its operation (0 to 7 of Table 14.3, 8 exchange, 9 floating-point addition, 10 compare and
store), its size, its operand, and the value that ACAS compares with. -/
structure Rmw where
  op : Nat
  sz : MemSize
  x : Nat
  want : Nat
  deriving DecidableEq, Repr

/-- A store that has been made and has not performed (R355). `bytes` names physical addresses; `word` is the vector
word that will supply the bytes, while it has not issued; `addrs` names each element's address of a vector store that has not
issued, and `width` the bytes of an element; `vec` marks the store of a vector word (R226); `at_` is the core cycle of its perform point,
where it has one (R365); `rmw` makes it an atomic, whose bytes it then only names; `trans` are the translations that it holds (R299). -/
structure PStore where
  num : Nat
  cls : OrdClass
  bytes : List (Nat × Byte)
  word : Option Nat
  addrs : List (Nat × Nat)
  width : Nat
  obs : BitVec 5
  trans : List Trans
  vec : Bool
  at_ : Option Nat
  rmw : Option Rmw
  deriving DecidableEq, Repr

/-- Where a load's data goes. -/
inductive LoadDst where
  /-- a g register, the access size -/
  | reg (d : GReg) (sz : MemSize)
  /-- the two registers of LDP -/
  | pair (d b : GReg)
  /-- a plane takes its elements -/
  | plane (v : VReg) (sz : MemSize)
  deriving DecidableEq, Repr

/-- A load whose data has not arrived. `items` pairs an element index with a physical address; each item reads `size`
bytes. A vector load waits for the issue of its word, and has then one load for each row group or row. `at_` is the first core cycle in
which it may read and `more` the core cycles from there to its data (R226, R291, R365); `got` is what it has read, or nothing
where it met a soft error, and `ready` the core cycle at which that is ready; where the memory has no nominal latency both wait for its
arrival. `obs` is the observer mask of an acquire (R363); `atom` marks what an atomic returns, which its perform supplies;
`trans` are the translations that it holds (R299). -/
structure PLoad where
  num : Nat
  cls : OrdClass
  dst : LoadDst
  items : List (Nat × Nat)
  size : Nat
  issued : Bool
  word : Nat
  at_ : Nat
  more : Nat
  ready : Option Nat
  got : Option (List Nat)
  obs : BitVec 5
  atom : Bool
  trans : List Trans
  deriving DecidableEq, Repr

/-- What a vector word leaves when it completes: elements of planes (index 1,024 v + e), flags, a g
register (R226). -/
structure VResult where
  planes : List (Nat × Half)
  flags : BitVec 5
  greg : Option (GReg × Word)
  deriving DecidableEq, Repr

/-- A vector word in the issue queue or in flight (R225): what the sequencer captured at dispatch; once it has issued, its result.
`ready` is its ready cycle, and before its issue the first cycle in which it may issue (R226). -/
structure VWord where
  id : Nat
  instr : Instr
  rm : Rm
  scalar : Word
  aux : Word
  tid : BitVec 32
  result : Option VResult
  ready : Nat
  deriving DecidableEq, Repr

/-- A stencil table slot (Table 12.5). -/
structure Stencil where
  w : List (BitVec 16)
  shift : Nat
  bmode : Nat
  dims : Nat
  par : List Half
  deriving DecidableEq, Repr

/-- Where a value of a record lies: in memory (with its sub-element, for LG6), in a plane or in the bypass buffer at position p. -/
inductive VLoc where
  | mem (va : Int) (sub : Nat)
  | plane (v : Nat) (p : Int)
  | byp (p : Int)
  deriving DecidableEq, Repr

/-- How a product record changes an accumulator entry when its write performs: it replaces it; it accumulates the pairs of codes that
its issues gave the entry, from zero on or onto what stands there; or it adds a scaled source entry (R274 to R283). -/
inductive AccOp where
  | set (e : AccEntry)
  | mac (zero : Bool) (steps : List (List (Nat × Nat)))
  | scale (src : AccEntry) (c0 c1 : Nat)
  deriving DecidableEq, Repr

/-- A write that a running record has still to perform: a value of b bits, an entry by its key, a stencil slot, the watermark of a slab
after so many rows. -/
inductive RPut where
  | val (logs : Bool) (b : Nat) (l : VLoc) (v : Nat)
  | entry (key : Nat) (op : AccOp)
  | slot (n : Fin 8) (t : Option Stencil)
  | rows (n : Nat)
  deriving DecidableEq, Repr

/-- The writes that one issue of a record performs together, with their core cycle where they have one (R271, R313). -/
structure Put where
  at_ : Option Nat
  ops : List RPut
  deriving DecidableEq, Repr

/-- A record in an engine's queue or running (R214, R443): its words, what was captured at enqueue, and its progress.
`waitSt` names the accesses that it waits for (R362, R363); `pend` the bytes of the DET region that it will write (R370); `due` is the
timetable cycle of AT in fixed mode (R391), which its first read precedes by `lead` (R272); `gate` is what its guard slot read, once
its waits hold, and `off` says that this was false (R201); `start` is its start cycle, once that is known, and `seen` the first cycle
whose reads it has not made; `tiles` holds tiles read ahead (operand, issue, values), `work` the pairs that its issues have given entries
so far (key, from zero on, pairs), `puts` what it has to write; `sten` is the stencil slot at its start; `data` holds what a
set-up read at its start (R328). -/
structure QRec where
  ent : Nat
  words : Vector Word 8
  rm : Rm
  gwcfg : Word
  waitPh : Option (BitVec 16)
  waitTok : List (Nat × BitVec 32)
  waitSt : List Nat
  pages : List Trans
  asid : BitVec 16
  origin : Nat
  number : Nat
  due : Nat
  lead : Nat
  marker : Option Nat
  gate : Option Bool
  start : Nat
  seen : Nat
  tiles : List (Nat × Nat × List (List Nat))
  work : List (Nat × Bool × List (List (Nat × Nat)))
  puts : List Put
  sten : Option Stencil
  done : Bool
  row : Nat
  flags : BitVec 5
  pend : List Nat
  off : Bool
  data : List Word
  deriving DecidableEq, Repr

/-- A merge-log entry (Table 14.3): `head` is W0, `data` is W1. -/
structure LogEntry where
  head : Word
  data : Word
  deriving DecidableEq, Repr

/-- A named barrier (R377): expected count, arrival count, phase, posted count, and the expected count that BARC set
while arrivals were pending (R381). -/
structure Barrier where
  ec : BitVec 16
  ac : BitVec 16
  ph : BitVec 16
  pc : Nat
  nextEc : Option (BitVec 16)
  deriving DecidableEq, Repr

/-- A disabled barrier, as at power-on. -/
def Barrier.off : Barrier := ⟨0, 0, 0, 0, none⟩

/-- Why a task is asked to stop (R406). -/
inductive StopCause where
  | preempt | displace | gang | destroy | fuse
  deriving DecidableEq, Repr

/-- The task or stream that a core holds (R47 to R49, R133): what the launch unit loaded for it. `copy` names the places of the
launch parameters in their block, and of the device's copy of them (physical base, length, base of the copy; R45); `safeAt` the address of its last SAFE
(R106); `started` the serial number of a stream's start on its die, and `formNo` the number of its batch among those formed there (R375). -/
structure Task where
  tid : BitVec 32
  launchSeq : BitVec 32
  lid : Nat
  q : QKey
  stream : Bool
  fixed : Bool
  det : Bool
  gang : Bool
  abort : Bool
  dom : BitVec 2
  safegap : Nat
  nbank : Nat
  unitsz : Nat
  clusz : Nat
  stacksz : Nat
  patches : List (Nat × Nat)
  params : List Half
  copy : List (Nat × Nat × Nat)
  ttab : List (Nat × Nat × Nat)
  unitva : Nat
  cluva : Nat
  logbase : Nat
  shardRec : List Word
  batch : List (Word × Word)
  shard : Nat
  pinned : Bool
  level : Nat
  executed : Bool
  safeAt : Option (BitVec 17)
  merges : Nat
  started : Nat
  formNo : Nat
  deriving DecidableEq, Repr

/-- How a task ended: EXIT, a fault (R400), or a stop for a destroy (R406 step 3). -/
inductive EndKind where
  | exit | fault | destroy
  deriving DecidableEq, Repr

/-- What a core is doing: free; running its task; its task has ended and waits to retire (R411); or it has stopped at a
SAFE, whose live planes and registers and whose address are named, and its image is to be written (R406). -/
inductive Phase where
  | free
  | running
  | ending (k : EndKind)
  | stopped (groups : BitVec 8) (live : BitVec 32) (at_ : BitVec 17)
  deriving DecidableEq, Repr

/-- What a word that has begun and has not retired waits for, with what it has done so far. -/
inductive Waiting where
  /-- BAR: its arrival joined phase ph (Table 14.4) -/
  | phase (ph : BitVec 16)
  /-- SIGW: the core cycles it has waited, the place of the signal, its place among the agent's accesses, the
  translation that it holds, and the last value read (R297, R299, R387) -/
  | signal (cycles pa num : Nat) (tr : Trans) (last : Nat)
  /-- MERGE: it has arrived at a merge point (R372) -/
  | merge (m : Nat)
  /-- MERGE: the logs of its point have been applied (R373) -/
  | merged (m : Nat)
  /-- TMARK: the cores that it has marked, each with the number of its marker (R300) -/
  | marks (l : List (CoreKey × Nat))
  /-- ENQ: the record that it read (R214 step 1) -/
  | record (ws : Vector Word 8)
  deriving DecidableEq, Repr

/-- Progress of a REP sequence (R157): the stepped fields of the prefix and the next repeat. -/
structure RepState where
  cnt : Nat
  step : BitVec 4
  stride : Fin 4
  pos : Nat
  deriving DecidableEq, Repr

/-- What of a core stands as it is now in its task's context image, and so is not dirty (R407): g registers by number, planes, accumulator
banks with their projections, the bypass buffer, the core barriers, and 256-byte lines of code memory. -/
structure Clean where
  g : BitVec 33
  planes : BitVec 32
  banks : BitVec 16
  byp : Bool
  bars : Bool
  code : List Nat
  deriving DecidableEq, Repr

/-- Everything is dirty, as at the start of a task. -/
def Clean.none : Clean := ⟨0, 0, 0, false, false, []⟩

/-- A core: registers (Table 7.9), control registers, engines, and the task it holds. `repHeld` is the address of a REP whose word's
guard read true before a fault interrupted its repeats (R159); `trap` a fault that waits for the vector words before it (R397);
`oldCode` the words that transfer records have overwritten in code memory since the last ICFENCE, `fetches` the number of the next
fetch of one of them (R221); `codeLines` the lines of code memory that they have written since the task's start, and `clean` what its
image holds as it stands (R407). `clock` is the time of the end of its last core cycle (entry 4), `stepAge` counts the core cycles for which
it has not taken its die's clock step (R395). `tau` counts the core cycles of its work, stall cycles left out (R391); `begun` says that
cycle `tau` has begun and nothing has issued in it yet, `verdict` whether it is a stall cycle of its domain, once that has been judged (R394);
`stalled` is the answer of a word that waits for a delay, and `slow` asks for a stall cycle (R395, entry 11). `vfree` is the first cycle at
which its vector engine issues again (R226); `score` holds the registers whose results are still to come, with the cycle from which they
can be read, and `nextAt` is the first cycle in which the next word may issue (Table 8.1); `entering` says that the pc came to a section entry
whose word has not issued (R392); `newFlags` are the flags of FPCS set in this cycle (R64). -/
structure Core where
  key : CoreKey
  -- registers
  g : Vector Word 33
  p : BitVec 8
  w : Vector Walker 8
  lc : Vector LoopCtr 4
  gs : Vector GuardSlot 16
  tok : Vector Token 8
  pc : BitVec 17
  retStore : List (BitVec 17)
  lcnt : Nat
  ctl : Ctl
  -- the vector engine
  planes : Vector (List (Nat × Half)) 32
  masks : List (BitVec 1024)
  vq : List VWord
  vfly : List VWord
  loads : List PLoad
  stores : List PStore
  num : Nat
  -- the product engine
  pq : List QRec
  prun : List QRec
  pent : Nat
  acc : List (Nat × AccEntry)
  proj : List (Nat × Proj)
  handles : List (Nat × Nat)
  drains : Vector (Option (Nat × Nat × Nat)) 4
  bypass : List (Nat × Half)
  bypNext : Bool
  -- the transfer engine
  tq : List QRec
  trun : List QRec
  tent : Nat
  stencils : Vector (Option Stencil) 8
  -- barriers, translations, the merge log
  bars : Vector Barrier 96
  held : List Trans
  log : List LogEntry
  -- execution
  phase : Phase
  task : Option Task
  stop : Option StopCause
  watch : Nat
  origin : Nat
  span : Nat
  tau : Nat
  begun : Bool
  verdict : Option Bool
  stalled : Bool
  slow : Bool
  entering : Bool
  clk : Nat
  rep : Option RepState
  repResume : Bool
  repHeld : Option (BitVec 17)
  ir : Word
  wait : Option Waiting
  unpin : Option Nat
  mergeFault : Option (Nat × Nat × Nat)
  abortTid : Option (BitVec 32)
  trap : Option FaultInfo
  oldCode : List (Nat × Word)
  codeLines : List Nat
  clean : Clean
  fetches : Nat
  clock : Nat
  stepAge : Nat
  vfree : Nat
  score : List (Nat × Nat)
  nextAt : Nat
  newFlags : Word
  deriving DecidableEq, Repr

/-! ### Images, launches and queues -/

/-- A tag-table entry (Table 2.3). -/
structure TagEntry where
  value : Half
  mask : Half
  entry : Nat
  fixed : Bool
  dom : Bool
  batch : Nat
  deriving DecidableEq, Repr

/-- The device's own copy of a Shusko image (R38, Table 2.1). -/
structure Image where
  gang : Bool
  detreq : Bool
  timed : Bool
  ring : Bool
  entry : Nat
  codesz : Nat
  nbank : Nat
  maxbatch : Nat
  safegap : Nat
  clusz : Nat
  unitsz : Nat
  stacksz : Nat
  code : List Byte
  consts : List Byte
  patches : List (Nat × Nat)
  tags : List TagEntry
  ttab : List (Nat × Nat × Nat)
  deriving DecidableEq, Repr

/-- The device's copy of a launch parameter block (Table 2.4), with the address it was read at and the places of its parameters
and of their copy (physical base, length, base of the copy). -/
structure Lpb where
  va : Nat
  image : Nat
  trav : Nat
  swz : Nat
  xm1 : Nat
  ym1 : Nat
  zm1 : Nat
  cores : Nat
  mesh : Bool
  dom : Nat
  abort : Bool
  gang : Bool
  det : Bool
  fixed : Bool
  hops : Nat
  mcols : Nat
  mrows : Nat
  dies : Nat
  start : Nat
  params : List Half
  copy : List (Nat × Nat × Nat)
  deriving DecidableEq, Repr

/-- A queue packet that has been fetched (R89): its words, and how far it has come. A packet that breaks R84 is invalid, with the
detail that names the field, and ends in its turn. -/
inductive PacketPhase where
  | fetched
  | invalid (detail : Nat)
  | dispatched
  | ended (status detail ran stopped : Nat)
  deriving DecidableEq, Repr

/-- A packet of a queue. `since` is the tick of its dispatch; `ph` the barrier phase it joined. -/
structure Packet where
  idx : Nat
  words : Vector Word 8
  phase : PacketPhase
  since : Nat
  ph : Option (BitVec 16)
  lid : Option Nat
  destroys : Option Nat
  retired : Bool
  deriving DecidableEq, Repr

/-- A queue: the command processor's copy of its descriptor (Table 4.1), its state (0 active, 1 ERR, 2 destroying, 3 past its
destroy tick) and its packets; `part` holds the words of the packet at the fetch index that have been read (R83, R92). -/
structure Queue where
  descPA : Nat
  base : Nat
  asid : BitVec 16
  home : Nat
  prio : Nat
  log2s : Nat
  poll : Nat
  ptbase : Word
  unitva : Nat
  cluva : Nat
  rd : Nat
  fetch : Nat
  part : List (Nat × Word)
  state : Nat
  packets : List Packet
  destroyAt : Option Nat
  launches : Nat
  pollAt : Nat
  deriving DecidableEq, Repr

/-- What a gang's die knows of its start (R112): not checked, ready, a not-ready message on its way, or received. -/
inductive GangCheck where
  | unchecked | ready | sent | told
  deriving DecidableEq, Repr

/-- One die's share of a launch: the groups not yet placed (local logical core, identifier) in placing order, the core that each
logical core is bound to, the counts, and whether it has reported (R101, R412). -/
structure DieShare where
  die : Nat
  pending : List (Nat × Nat)
  bind : List Nat
  ran : Nat
  stopped : Nat
  live : Nat
  check : GangCheck
  reported : Bool
  deriving DecidableEq, Repr

/-- A launch in progress (R89, R95, R412). `faults` names tasks that ended by a fault, or whose logs were discarded; `done` the
tasks whose logs have been applied or discarded, or that were dropped; `logs` the logs applied, by task. -/
structure Launch where
  lid : Nat
  q : QKey
  pidx : Nat
  seq : BitVec 32
  prio : Nat
  lpb : Lpb
  image : Image
  shares : List DieShare
  start : Nat
  notReady : Bool
  begun : Bool
  destroyed : Option Nat
  faults : List Nat
  done : List Nat
  logs : List (Nat × List LogEntry)
  deriving DecidableEq, Repr

/-! ### One die -/

/-- A registered request: the die's copy of its descriptor (Table 2.6). -/
structure ReqCopy where
  req : Nat
  asid : BitVec 16
  state : Nat
  slabdir : Nat
  pos : Nat
  rowb : Nat
  addr : Nat
  deriving DecidableEq, Repr

/-- A kernel bound to the ring (R86). -/
structure Binding where
  image : Image
  lpb : Lpb
  dom : Nat
  q : QKey
  asid : BitVec 16
  ptbase : Word
  unitva : Nat
  cluva : Nat
  deriving DecidableEq, Repr

/-- A batch waiting to start (R131): its number in its shard and, as `no`, among all batches formed on the die, its needs (need-table slot and the number of the registration there), its tag-table
entry, DEPART, and whether the last attempt was refused a reservation. -/
structure Batch where
  num : Nat
  needs : List (Nat × Nat)
  entries : List (Word × Word)
  tag : TagEntry
  depart : Nat
  refused : Bool
  no : Nat
  deriving DecidableEq, Repr

/-- A shard held in the carousel (R126 to R130). `base` counts bytes since reset, before reduction modulo the carousel's
size; `region` is the physical base of the carousel; `got` and `sent` list the flits received and sent; `late` is the LATE
that its first flit left with, `bound` the binding in force at its arrival (R86). -/
structure Shard where
  id : Nat
  tag : Half
  base : Nat
  bytes : Nat
  region : Nat
  got : List Nat
  sent : List Nat
  arrival : Nat
  deadline : Nat
  late : Nat
  pins : Nat
  resv : Bool
  formed : Bool
  batches : List Batch
  arrNo : Nat
  bound : Option Binding
  reinj : Bool
  deriving DecidableEq, Repr

/-- A track port (R120 to R123): sequence numbers, the last flits sent, resends asked for and counted, flits waiting with the
XSEND record that each ends, control requests received and not yet acted on, and the hop latency measured by probes. -/
structure Port where
  txSeq : BitVec 32
  rxSeq : BitVec 32
  sent : List Flit
  resend : List (BitVec 32)
  tries : List (BitVec 32 × Nat)
  queue : List (Flit × Option (CoreKey × Nat))
  owners : List (BitVec 32 × CoreKey × Nat)
  ctrl : List (Nat × BitVec 32)
  lastRx : Nat
  failed : Bool
  probeAt : Option Nat
  latency : Nat
  deriving DecidableEq, Repr

/-- A forwarding pair (R327, R336): the pieces of its old and new range (physical base, length, offset in the slab), row
bytes, row count, watermark, whether the encodings agree, and what keeps it in force (R341). -/
structure FwdPair where
  oldVA : Nat
  asid : BitVec 16
  old : List (Nat × Nat × Nat)
  new : List (Nat × Nat × Nat)
  ob : Nat
  nb : Nat
  rows : Nat
  wm : Nat
  plain : Bool
  released : Bool
  moved : Bool
  deriving DecidableEq, Repr

/-- What a save has written (R407): whether the core barriers and the bypass buffer, which g registers, planes and banks, and which 256-byte
lines of the unit-scratchpad area and of code memory; beside the control part and the partition, which every save writes. -/
structure SaveItems where
  bars : Bool
  g : BitVec 33
  planes : BitVec 32
  banks : BitVec 16
  byp : Bool
  unit : List Nat
  code : List Nat
  partition : Nat
  deriving DecidableEq, Repr

/-- A saved task (R407): the launch it belongs to, the level it holds and the placements counted against it, its core and
everything its image holds, and what its last save wrote. The image stands in an area that the spec gives no address (entry 115). -/
structure Saved where
  core : Core
  level : Nat
  count : Nat
  lid : Nat
  unit : List (Nat × Byte)
  cluster : List (Nat × Byte)
  code : List (Nat × List Byte)
  wrote : SaveItems
  live : BitVec 32
  groups : BitVec 8
  at_ : BitVec 17
  deriving DecidableEq, Repr

/-- Placement state of one physical core (R107, R108, R111): effective levels (launch, level, count), the launch last placed,
and the gangs that reserve it, the first reservation first. -/
structure CoreSlot where
  levels : List (Nat × Nat × Nat)
  last : Nat
  gangs : List Nat
  deriving DecidableEq, Repr

/-- A stream's log applied on the die, with the number of its batch among those formed there, and the serial numbers of the stream's start and end (R375). -/
structure StreamLog where
  sid : BitVec 32
  no : Nat
  log : List LogEntry
  fromT : Nat
  toT : Nat
  deriving DecidableEq, Repr

/-- A die: ring registers, need table, carousel, ports, placement, barriers. `regs` gives each need-table slot the number of its
registration and the time it was made at (R52), `regNo` the next number; `streams` lists the DET streams whose logs are not settled, by the number of their batch among the `formNo` formed since reset, and
`lives` numbers the starts and ends of streams (R375);
`handler` is TVEC and the handler block (R398); `holeFrom` the
paced count at which the HOLE slot last arrived began (R149); `dwellWas` the paced count of the last repair tick, with the dwell of
shards due before it (R147). `ringl` and `ringh` are the masks of ring cores at the last batch formation (R114). -/
structure Die where
  key : DieKey
  carva : Word
  carcfg : Word
  rpace : Word
  rslot : Word
  rstall : Word
  rstat : Word
  misslog : Word
  rtrk : Word
  occd : Vector Word 8
  occu : Vector Word 8
  rcmaskl : Word
  rcmaskh : Word
  ringl : Word
  ringh : Word
  need : List (Nat × Word)
  regs : List (Nat × Nat × Nat)
  regNo : Nat
  reqs : List ReqCopy
  binding : Option Binding
  arrivals : Nat
  shards : List Shard
  head : Nat
  resv : Nat
  up : Port
  down : Port
  stallReq : List Nat
  ownStall : Option Nat
  stallUntil : Option Nat
  slotFrom : Option Nat
  holeAt : Option Nat
  holeFrom : Option Nat
  dwellWas : Option (Nat × Nat)
  lastSent : Half
  lastRecv : Half
  through : List (Nat × Flit)
  since : Nat
  notices : List (QKey × Nat)
  pairs : List FwdPair
  slots : List (Nat × CoreSlot)
  saved : List Saved
  streams : List (Nat × BitVec 32)
  formNo : Nat
  streamLogs : List StreamLog
  lives : Nat
  quadBars : List (Nat × Barrier)
  dieBars : List (Nat × Barrier)
  handler : Option (Word × List Byte)
  localStep : Nat
  centi : Nat
  soft : List (Nat × Nat × Nat)
  events : List (Vector Word 8)
  repair : Option Repair
  stopped : Bool
  halted : Bool
  deriving DecidableEq, Repr

/-! ### Package and pod -/

/-- A management complex (R419, R423). -/
structure Complex where
  firmware : Option Firmware
  index : Nat
  stateVer : Nat
  deriving DecidableEq, Repr

/-- How a management command completed (R423, R425). -/
inductive CmdStatus where
  | none | done | refused | keyExhausted
  deriving DecidableEq, Repr

/-- The instruction of the test access port (R426). -/
inductive TapIr where
  | bypass | samplePreload | extest | idcode
  deriving DecidableEq, Repr

/-- What the HA-16 is given for the last host request (R417). -/
inductive HostReply where
  | none | done | data (bs : List Byte) | abort
  deriving DecidableEq, Repr

/-- A package (R419 to R428): power, reset, whether bring-up has left it reachable, its fabric ports on die 0 and die 7 (R25), fuse map
(die, core), complexes, keys, barriers, test access, and the status
and reply of its last management command. `samples` counts the samples that the test port has taken of the pins: the model's
own, it numbers free values (entry 24). -/
structure Package where
  pkg : Nat
  power : Bool
  inReset : Bool
  reachable : Bool
  port0 : Bool
  port1 : Bool
  fused : List (Nat × Nat)
  activeB : Bool
  a : Complex
  b : Complex
  beatAt : Nat
  revoked : List (Fin 2)
  minRollback : Nat
  tapen : Bool
  tapIr : TapIr
  tapDr : Half
  samples : Nat
  limit : Nat
  updating : Option Firmware
  status : CmdStatus
  reply : List Byte
  pkgBars : List (Nat × Barrier)
  deriving DecidableEq, Repr

/-- A signal update on its way to its home (R385). `ord` places an update of a sequencer among its class's accesses; `owner`
is the XSIG record, `pkt` the packet, that waits for it; `obs` the observer mask of SIGADD or SIGMAX (R364); `trans` the
translations that the access holds (R299); `at_` the core cycle of its perform point, where it has one (R365). -/
structure SigMsg where
  src : BitVec 19
  seq : BitVec 32
  home : Nat
  addr : Nat
  isMax : Bool
  val : Word
  applied : Bool
  ord : Option (CoreKey × OrdClass × Nat)
  owner : Option (CoreKey × Nat)
  pkt : Option (QKey × Nat)
  obs : BitVec 5
  trans : List Trans
  at_ : Option Nat
  deriving DecidableEq, Repr

/-- What a home keeps for a source: the highest sequence number applied, and the map of the 256 up to it (R385). -/
structure SigHome where
  home : Nat
  src : BitVec 19
  h : BitVec 32
  map : BitVec 256
  deriving DecidableEq, Repr

/-- A contribution that has reached the switch: member die, the record's number in the group, the core and record it comes
from, the tick of its arrival; `off` marks a record whose guard slot read false, which contributes nothing (R201). -/
structure Contrib where
  die : DieKey
  num : Nat
  core : CoreKey
  record : Nat
  tick : Nat
  off : Bool
  deriving DecidableEq, Repr

/-- A reduce group in the switch and the member dies (R328, R329): contributions not yet combined; per member, the records
numbered at enqueue and the records that the switch is past. -/
structure XGroup where
  grp : Nat
  members : List DieKey
  tmo : Nat
  installed : List DieKey
  contrib : List Contrib
  counts : List (DieKey × Nat)
  taken : List (DieKey × Nat)
  deriving DecidableEq, Repr

/-- The host event queue as the bridge module knows it (R414, R415). -/
structure EventQ where
  desc : Option Nat
  buffer : List (Vector Word 8)
  lost : Nat
  overflow : Bool
  msix : List (BitVec 16)
  deriving DecidableEq, Repr

/-- The paced link cycles (R124, R138): the step in force from link cycle `from_` on and the one before it, and the count of
paced link cycles at `from_`. -/
structure Pace where
  step : Nat
  old : Nat
  from_ : Nat
  count : Nat
  deriving DecidableEq, Repr

/-- The ring as the pod and its coordinator see it (R137, R142, R148, R149): the pace, the next pod step agreed (tick, step),
stalls announced, the repair announced and whether it has taken effect, lost segments (tag, bytes, host address), the
place of the ring image and the next segment to inject, what has failed. -/
structure Ring where
  pace : Pace
  stepAt : Option (Nat × Nat)
  stalls : List Nat
  repair : Option Repair
  lost : List (Half × Nat × Nat)
  imageAt : Nat
  next : Nat
  failedPkgs : List Nat
  failedDies : List DieKey
  downNow : Bool
  restarting : Bool
  deriving DecidableEq, Repr

/-- Which agent moves next: the model's own input, not the spec's (entry 3). -/
inductive Turn where
  /-- core k becomes the core whose agents move -/
  | core (k : CoreKey)
  /-- the sequencer of the current core moves -/
  | seq
  /-- the device event i takes place at p -/
  | ev (p : Place) (i : Instr)
  /-- an uncorrectable soft error strikes the byte at pa (R416) -/
  | spoil (pa : Nat)
  /-- a datum or a write of an engine of the current core's domain is late: its next core cycle is a stall cycle (R394) -/
  | late
  deriving DecidableEq, Repr

/-- The device. `core` is the core whose agents move; the others are parked. `modules` is how many modules the pod has and
`bridge` the one that the host is joined to (R27, entry 13). `bad` names the bytes that hold an
uncorrectable soft error (R416), `cleanLines` the 256-byte lines of unit scratchpads that stand in a running task's image as they are (R407).
`veils` gives each DET launch the bytes that direct writes of its own tasks have changed since its last merge, as they read before (R311).
`turns`, `place` and `skipped` are the model's own: the choice of the next agent, where the event that it
names takes place, and whether the condition of the last event tried does not hold, so that nothing happened (entry 3). Time is counted in 1/504 ns (entry 4). -/
structure State where
  core : Core
  parked : List (CoreKey × Core)
  dies : List (DieKey × Die)
  pkgs : List (Nat × Package)
  mem : List (Nat × Byte)
  bad : List Nat
  cleanLines : List Nat
  veils : List (Nat × List (Nat × Byte))
  queues : List (QKey × Queue)
  served : List (DieKey × Nat)
  launches : List Launch
  nextLid : Nat
  podBars : List (Nat × Barrier)
  sigs : List SigMsg
  sigHomes : List SigHome
  sigSeq : List (BitVec 19 × BitVec 32)
  groups : List XGroup
  eventq : EventQ
  hostReply : HostReply
  ring : Ring
  modules : Nat
  bridge : Nat
  now : Nat
  turns : List Turn
  place : Place
  skipped : Bool
  deriving DecidableEq, Repr

/-! ### Reset -/

/-- Control registers at power-on (Table 7.10): zero, but COREID, which names the core. -/
def Ctl.reset (k : CoreKey) : Ctl :=
  { fpcs := 0, rngseed := 0, rngctr := 0, gwcfg := 0
    coreid := BitVec.ofNat 64 (k.pkg % 128 * 2 ^ 16 + k.die % 8 * 2 ^ 10 + k.core % 128)
    lbase := 0, llim := 0, slim := 0, mode := 0, tvec := 0, epc := 0, reppos := 0
    frec := Vector.replicate 8 0, asid := 0, ptbase := 0, kscr := Vector.replicate 4 0 }

/-- A core at power-on (R165): every register zero, guard slots unresolved, tokens idle, no task. -/
def Core.reset (k : CoreKey) : Core :=
  { key := k, g := Vector.replicate 33 0, p := 1, w := Vector.replicate 8 Walker.reset
    lc := Vector.replicate 4 ⟨0, 0, 0, false⟩, gs := Vector.replicate 16 .unresolved
    tok := Vector.replicate 8 ⟨0, 0⟩, pc := 0, retStore := [], lcnt := 0, ctl := Ctl.reset k
    planes := Vector.replicate 32 [], masks := [], vq := [], vfly := [], loads := [], stores := [], num := 0
    pq := [], prun := [], pent := 0, acc := [], proj := [], handles := [], drains := Vector.replicate 4 none, bypass := [], bypNext := false
    tq := [], trun := [], tent := 0, stencils := Vector.replicate 8 none
    bars := Vector.replicate 96 Barrier.off, held := [], log := []
    phase := .free, task := none, stop := none, watch := 0, origin := 0, span := 0, tau := 0, begun := false, verdict := none, stalled := false, slow := false
    entering := false, clk := 0, rep := none
    repResume := false, repHeld := none, ir := 0, wait := none, unpin := none, mergeFault := none, abortTid := none
    trap := none, oldCode := [], codeLines := [], clean := Clean.none, fetches := 0, clock := 0, stepAge := 0, vfree := 0, score := [], nextAt := 0, newFlags := 0 }

/-- A track port at power-on. -/
def Port.reset : Port :=
  { txSeq := 0, rxSeq := 0xFFFFFFFF, sent := [], resend := [], tries := [], queue := [], owners := [], ctrl := []
    lastRx := 0, failed := false, probeAt := none, latency := 0 }

/-- A die at power-on: the reset values of Tables 5.2, 5.3, 6.3 to 6.16; need table empty, barriers disabled. -/
def Die.reset (k : DieKey) : Die :=
  { key := k, carva := 0, carcfg := 0x10_0000_0000, rpace := 0x40_0000_0000, rslot := 0
    rstall := 0x1000_0001_0000, rstat := 0, misslog := 0, rtrk := 0, occd := Vector.replicate 8 0
    occu := Vector.replicate 8 0, rcmaskl := 0xFFFF_FFFF_FFFF_FFFF, rcmaskh := 0xFFFF, ringl := 0xFFFF_FFFF_FFFF_FFFF, ringh := 0xFFFF
    need := [], regs := [], regNo := 0, reqs := [], binding := none, arrivals := 0, shards := [], head := 0, resv := 0
    up := Port.reset, down := Port.reset, stallReq := [], ownStall := none, stallUntil := none, slotFrom := none, holeAt := none
    holeFrom := none, dwellWas := none, lastSent := 0, lastRecv := 0, through := [], since := 0, notices := [], pairs := [], slots := [], saved := []
    streams := [], formNo := 0, streamLogs := [], lives := 0, quadBars := [], dieBars := [], handler := none, localStep := 0
    centi := 0, soft := [], events := [], repair := none, stopped := false, halted := false }

/-- A package at power-on: nothing fused, complex A active, power limit 3,200 W (R427). -/
def Package.reset (n : Nat) : Package :=
  { pkg := n, power := true, inReset := false, reachable := true, port0 := true, port1 := true, fused := [], activeB := false, a := ⟨none, 0, 0⟩
    b := ⟨none, 0, 0⟩, beatAt := 0, revoked := [], minRollback := 0, tapen := false, tapIr := .idcode, tapDr := 0, samples := 0
    limit := 3200, updating := none, status := .none, reply := [], pkgBars := [] }

/-- The pod right after reset: core 0 of die 0 of package 0 is the current core (entry 1); nothing runs, no queue exists,
memory reads zero (R356, R428). -/
def State.reset : State :=
  { core := Core.reset ⟨0, 0, 0⟩, parked := [], dies := [], pkgs := [], mem := [], bad := [], cleanLines := [], veils := [], queues := [], served := []
    launches := [], nextLid := 1, podBars := [], sigs := [], sigHomes := [], sigSeq := [], groups := []
    eventq := ⟨none, [], 0, false, []⟩, hostReply := .none
    ring := ⟨⟨0, 0, 0, 0⟩, none, [], none, [], 0xFE_1000_0000_0000, 0, [], [], false, false⟩
    modules := 72, bridge := 0, now := 0, turns := [], place := ⟨⟨0, 0, 0⟩, ⟨0, 0⟩, 0⟩, skipped := false }

end Sys2Proof.Machine
end

