-- ==== Sys2Proof/Machine/Ops.lean ====
section
/-! DEFINITION. Named operations over registers, cores, dies and time; loop-end processing and retirement (R198),
faults and the supervisor handler (R397 to R400), barriers (R378), events (R415). -/

namespace Sys2Proof.Machine

/-! ### Cores, dies, packages -/

/-- The core with a key. -/
def State.getCore (s : State) (k : CoreKey) : Core :=
  if s.core.key = k then s.core else (aget s.parked k).getD (Core.reset k)

/-- Put a core back. -/
def State.setCore (s : State) (c : Core) : State :=
  if s.core.key = c.key then { s with core := c } else { s with parked := aput s.parked c.key c }

/-- Make core k the current core. -/
def State.select (s : State) (k : CoreKey) : State :=
  if s.core.key = k then s
  else { s with core := s.getCore k, parked := adel (aput s.parked s.core.key s.core) k }

/-- The die with a key. -/
def State.getDie (s : State) (k : DieKey) : Die := (aget s.dies k).getD (Die.reset k)
/-- Put a die back. -/
def State.setDie (s : State) (d : Die) : State := { s with dies := aput s.dies d.key d }
/-- The die of the current core. -/
def State.ownDie (s : State) : Die := s.getDie s.core.key.dieKey
/-- The package with a number. -/
def State.getPkg (s : State) (n : Nat) : Package := (aget s.pkgs n).getD (Package.reset n)
/-- Put a package back. -/
def State.setPkg (s : State) (p : Package) : State := { s with pkgs := aput s.pkgs p.pkg p }
/-- Do something on another core, and come back. -/
def State.atCore (s : State) (k : CoreKey) (f : State → State) : State := (f (s.select k)).select s.core.key
/-- All cores that hold state. -/
def State.allCores (s : State) : List Core := s.core :: s.parked.map (·.2)
/-- Every core of a die, by number. -/
def dieCores (k : DieKey) : List CoreKey := (List.range 96).map (fun i => ⟨k.pkg, k.die, i⟩)

/-! ### The fabric (R25, R27) -/

/-- Is the package present in the pod? -/
def State.present (s : State) (n : Nat) : Bool := decide (n < s.modules)
/-- Is a package up, its bring-up complete? -/
def Package.up (p : Package) : Bool := p.reachable && p.power && !p.inReset
/-- May a package be reached through the fabric: by one of its ports, but for port 0 of the bridge module, which is in host mode? -/
def State.fabricUp (s : State) (n : Nat) : Bool := let p := s.getPkg n; p.up && (p.port1 || (p.port0 && n != s.bridge))
/-- Does the host reach the bridge module through its port 0? -/
def State.hostUp (s : State) : Bool := let p := s.getPkg s.bridge; p.up && p.port0

/-! ### Time (R9, R11, R395) -/

/-- The pod tick (R9): 504 units of 1/504 ns. -/
def State.tick (s : State) : Nat := s.now / 504

/-- The tick as the current core reads it: that of its own clock (entry 4). -/
def State.coreTick (s : State) : Nat := s.core.clock / 504

/-- The link cycle: eight to a tick. -/
def State.linkCycle (s : State) : Nat := s.now / 63

/-- The step in force in link cycle c. -/
def Pace.stepAt (p : Pace) (c : Nat) : Nat := if p.from_ ≤ c then p.step else p.old

/-- The pod step in force now (R138). -/
def State.podStep (s : State) : Nat := s.ring.pace.stepAt s.linkCycle

/-- RPACE.STEP of a die: the step in force, where it took effect after the die's reset (R14). -/
def State.stepRead (s : State) (d : Die) : Nat := if d.since ≤ s.ring.pace.from_ then s.podStep else 0

/-- The clock step in force for a core: the pod step, or the local step, which a fixed-mode core takes at a stall cycle (R138,
R395). -/
def Core.clockStep (c : Core) (pod loc : Nat) : Nat := max pod (if c.ctl.mode.getLsbD 1 then c.clk else loc)

/-- The core-clock period p of 210 units, or the first one behind it that is not suppressed: at clock step k the last k of every group of
eight are (R9, R395). -/
def runPeriod (k p : Nat) : Nat := if p % 8 < 8 - min k 4 then p else (p / 8 + 1) * 8

/-- The end of the first core cycle that ends behind time t, at clock step k. -/
def cycleEndAfter (k t : Nat) : Nat := (runPeriod k (t / 210) + 1) * 210

/-- The period of the core cycle that time t falls in, at clock step k. -/
def cycleAt (k t : Nat) : Nat := let p := t / 210; min p (p / 8 * 8 + 7 - min k 4)

/-- The clock step in force for the current core's next core cycle. -/
def State.coreStep (s : State) : Nat := s.core.clockStep (s.ring.pace.stepAt (s.core.clock / 63)) s.ownDie.localStep

/-! ### General registers and predicates (R181, R189) -/

/-- g[a] (R181): g0 reads zero; field 32 is sp. -/
def Core.rd (c : Core) (a : GReg) : Word := if a.val = 0 then 0 else c.g.get a
/-- g[d] := v, without the check of sp (R181): a write to g0 is discarded. -/
def Core.wr (c : Core) (d : GReg) (v : Word) : Core := 
  if d.val = 0 then c else { c with g := c.g.set d.val v, clean := { c.clean with g := unsetBit c.clean.g d.val } }
/-- p[a]; p0 reads 1. -/
def Core.rp (c : Core) (a : PReg) : Bool := a.val == 0 || c.p.getLsbD a.val
/-- p[d] := b; a write to p0 is discarded. -/
def Core.wp (c : Core) (d : PReg) (b : Bool) : Core :=
  if d.val = 0 then c
  else { c with p := if b then c.p ||| BitVec.ofNat 8 (2 ^ d.val) else c.p &&& ~~~(BitVec.ofNat 8 (2 ^ d.val)) }

/-- A guard slot as it reads (Table 7.9). -/
def Core.slot (c : Core) (n : SReg) : GuardSlot := if n.val = 0 then .resolved true else c.gs.get n

/-! ### Mode and task (Table 15.4) -/

/-- MODE.PRIV. -/
def Core.priv (c : Core) : Bool := c.ctl.mode.getLsbD 0
/-- MODE.FIXED. -/
def Core.fixed (c : Core) : Bool := c.ctl.mode.getLsbD 1
/-- MODE.DET. -/
def Core.det (c : Core) : Bool := c.ctl.mode.getLsbD 4
/-- MODE.STREAM. -/
def Core.isStream (c : Core) : Bool := c.ctl.mode.getLsbD 5
/-- The quad of a core (Table 7.11). -/
def quadOf (k : CoreKey) : Nat := k.core / 4
/-- The task identifier, 0 where no task runs. -/
def Core.tid (c : Core) : BitVec 32 := (c.task.map (·.tid)).getD 0

/-! ### The pc, hardware loops, retirement (R166, R198, R392) -/

/-- One visit of R198 at address a: the counters, and the target once found. -/
def loopVisit (a : BitVec 17) (acc : Vector LoopCtr 4 × Option (BitVec 17)) (n : Fin 4) :
    Vector LoopCtr 4 × Option (BitVec 17) :=
  match acc.2 with
  | some _ => acc
  | none =>
    let l := acc.1.get n
    if l.active && l.fin == a then
      let cnt := l.count - 1
      if cnt ≠ 0 then (acc.1.set n.val { l with count := cnt }, some l.start)
      else (acc.1.set n.val { l with count := cnt, active := false }, none)
    else acc

/-- Loop-end processing for the word at address a (R198): the counters and the next pc. -/
def loopEnd (lc : Vector LoopCtr 4) (a : BitVec 17) : Vector LoopCtr 4 × BitVec 17 :=
  let r := [0, 1, 2, 3].foldl (loopVisit a) (lc, none)
  (r.1, r.2.getD (a + 8))

/-- The timetable span of a section entry of the task, if the address is one (R392). -/
def Core.sectionAt (c : Core) (a : BitVec 17) : Option Nat :=
  match c.task with
  | some t => if t.fixed then (t.ttab.find? (fun e => e.1 = a.toNat)).map (fun e => e.2.2) else none
  | none => none

/-- The task has executed an instruction (Table 4.6, RAN). -/
def Core.markExecuted (c : Core) : Core := { c with task := c.task.map (fun t => { t with executed := true }) }

/-- The pc moves to a by sequential fetch, a taken branch or a call: the word of a section entry takes a new origin when it issues (R392). -/
def Core.goto (c : Core) (a : BitVec 17) : Core :=
  { { c with repResume := false, fetches := c.fetches + 1 }.markExecuted with pc := a, entering := !c.priv && (c.sectionAt a).isSome }

/-- The word of a section entry issues: the origin is its cycle, and the span that of the new section (R392). -/
def Core.enterSection (c : Core) : Core :=
  if c.entering then { c with entering := false, origin := c.tau, span := (c.sectionAt c.pc).getD 0 } else c

/-- Does a handler run in fixed mode, during whose stall the timetable time stands (R401)? -/
def Core.inStall (c : Core) : Bool := c.fixed && c.priv && c.phase == .running

/-- The next word issues n core cycles after this one at the earliest (Table 8.1). A handler in fixed mode, during which no timetable time
passes, keeps no such account (entry 110). -/
def Core.nextIn (n : Nat) (c : Core) : Core := if c.inStall then c else { c with nextAt := c.tau + n }

/-- Address of the word being executed: the word behind the REP during a REP sequence (R157). -/
def Core.wordAddr (c : Core) : BitVec 17 := if c.rep.isSome then c.pc + 8 else c.pc

/-- Retirement of a word that does not transfer control: the next repeat of a REP sequence (R159), else loop-end
processing (R198). -/
def Core.retire (c : Core) : Core :=
  match c.rep with
  | some r =>
    if r.pos < r.cnt then { c with rep := some { r with pos := r.pos + 1 }, wait := none }.markExecuted
    else
      let (lc, n) := loopEnd c.lc (c.pc + 8)
      { c with rep := none, lc := lc, wait := none }.goto n
  | none =>
    let (lc, n) := loopEnd c.lc c.pc
    { c with lc := lc, wait := none }.goto n

/-- The word waits for a delay of Table 15.1: in fixed mode this asks for a stall cycle of its domain (R394). -/
def stay (s : State) : Out State :=
  .next { s with core := { s.core with stalled := s.core.stalled || s.core.ctl.mode.getLsbD 1 } }

/-- The same in a MERGE, BARW, BAR, TOKW or SIGW, through whose wait the watchdog keeps counting (R372, R405). -/
def stayCounted (s : State) : Out State :=
  if s.core.ctl.mode.getLsbD 1 then stay { s with core := { s.core with watch := s.core.watch + 1 } } else stay s

/-- Retirement, on the state. -/
def State.retire (s : State) : State := { s with core := s.core.retire }

/-- The next state. -/
def ok (s : State) : Out State := .next s

/-- Retire with the core changed by f. -/
def retireWith (f : Core → Core) (s : State) : Out State := .next { s with core := (f s.core).retire }

/-- Transfer of control to a, with the core changed by f: no loop-end processing (R198). The target issues three core cycles later
(Table 8.1). -/
def transferTo (a : BitVec 17) (f : Core → Core) (s : State) : Out State :=
  .next { s with core := ({ f s.core with wait := none }.goto a).nextIn 3 }

/-! ### Events (R414, R415) -/

/-- An event record without its lap code (Table 16.2). -/
def eventRecord (ty : Nat) (k : CoreKey) (tick : Nat) (w : List Word) : Vector Word 8 :=
  let g := fun i => w.getD i 0
  ⟨#[BitVec.ofNat 64 (ty * 2 ^ 48 + k.pkg % 128 * 2 ^ 41 + k.die % 8 * 2 ^ 38 + k.core % 128 * 2 ^ 31), BitVec.ofNat 64 tick,
    g 0, g 1, g 2, g 3, g 4, g 5], rfl⟩

/-- Put an event into the bridge module's buffer of 4,096; a full buffer drops it (R415). -/
def EventQ.push (q : EventQ) (e : Vector Word 8) : EventQ :=
  if q.buffer.length < 4096 then { q with buffer := q.buffer ++ [e] }
  else { q with lost := min (q.lost + 1) (2 ^ 32 - 1), overflow := true }

/-- Heartbeats of a package's active complex that its standby has missed (R419). -/
def State.beatsMissed (s : State) (p : Nat) : Nat := (s.tick - (s.getPkg p).beatAt) / 2 ^ 20

/-- Does a package have an active complex at work: it is up, and no four heartbeats have been missed (R419)? -/
def State.managed (s : State) (p : Nat) : Bool := (s.getPkg p).up && decide (s.beatsMissed p < 4)

/-- Post an event: it waits in the die's buffer of 256 while the package is between complexes (R419), and goes to the bridge
module otherwise. -/
def State.post (s : State) (ty : Nat) (k : CoreKey) (w : List Word) : State :=
  let e := eventRecord ty k s.tick w
  if s.beatsMissed k.pkg < 4 then { s with eventq := s.eventq.push e }
  else
    let d := s.getDie k.dieKey
    if d.events.length < 256 then s.setDie { d with events := d.events ++ [e] } else s

/-! ### Faults (R397 to R400) -/

/-- The fatal codes of Table 15.2. -/
def fatalCode (c : Nat) : Bool := 27 ≤ c

/-- The fault record (Table 15.3): the address is that of the word, and for CORE_LOST that of the task's last SAFE (R106; entry 94
where it has executed none). -/
def faultRecord (f : FaultInfo) (s : State) : Vector Word 8 :=
  let c := s.core
  let k := c.key
  let w0 := f.code * 2 ^ 48 + f.engine * 2 ^ 44 + f.slot * 2 ^ 40 + k.pkg % 128 * 2 ^ 23 + k.die % 8 * 2 ^ 20
    + quadOf k % 32 * 2 ^ 15 + k.core % 128 * 2 ^ 8
  let pc := if f.code = 32 then (c.task.bind (·.safeAt)).getD c.pc else c.pc
  let w4 := (match c.task with | some t => t.launchSeq.toNat | none => 0) * 2 ^ 32 + c.tid.toNat
  ⟨#[BitVec.ofNat 64 w0, BitVec.ofNat 64 (f.qidx * 2 ^ 32 + pc.toNat), BitVec.ofNat 64 f.addr, BitVec.ofNat 64 f.detail,
    BitVec.ofNat 64 w4, BitVec.ofNat 64 s.coreTick, c.ir, 0], rfl⟩

/-- Do two cores belong to one quad or die stall domain (R393)? -/
def sameDomain (a b : Core) : Bool :=
  match a.task, b.task with
  | some t, some u =>
    t.fixed && u.fixed && t.dom == u.dom && a.key.dieKey == b.key.dieKey
      && ((t.dom == 1 && quadOf a.key == quadOf b.key) || t.dom == 2)
  | _, _ => false

/-- The other members of the domain take DOMAIN_ABORT at their next word boundary (R400). -/
def State.abortDomain (s : State) : State :=
  let mark := fun (c : Core) => if sameDomain s.core c && c.abortTid == none then { c with abortTid := some s.core.tid } else c
  { s with parked := s.parked.map (fun e => (e.1, mark e.2)) }

/-- Drop the pin of the current core's stream on its shard (R129); a reservation returns with the last pin (R130). -/
def State.dropPin (s : State) : State :=
  match s.core.task with
  | some t =>
    if t.stream && t.pinned then
      let d := s.ownDie
      let unpin := fun (x : Shard) => if x.id = t.shard then { x with pins := x.pins - 1, resv := x.resv && decide (x.pins ≠ 1) } else x
      let freed := (d.shards.filter (fun x => x.id = t.shard && x.resv && x.pins == 1)).foldl (fun n x => n + (x.bytes + 63) / 64 * 64) 0
      let s := s.setDie { d with shards := d.shards.map unpin, resv := d.resv - freed }
      { s with core := { s.core with task := some { t with pinned := false } } }
    else s
  | none => s

/-- Is this a load into a plane? -/
def PLoad.isPlane (l : PLoad) : Bool := match l.dst with | .plane _ _ => true | _ => false

/-- A pending UNPIN takes effect once the stream's own records and vector loads before it are done (R212); a marker of a TMARK is
no record of the stream. -/
def State.settlePin (s : State) : State :=
  let c := s.core
  match c.unpin with
  | some n =>
    if (c.pq ++ c.prun ++ c.tq ++ c.trun).all (fun r => r.marker.isSome || decide (n ≤ r.number)) && c.loads.all (fun l => !l.isPlane || decide (n ≤ l.num)) then
      let s := s.dropPin
      { s with core := { s.core with unpin := none } }
    else s
  | none => s

/-- The log of the current core's DET task is discarded: it counts as applied (R400, R466, R375). -/
def State.discardLog (s : State) : State :=
  match s.core.task with
  | some t =>
    if !t.det then s
    else
      let s : State := { s with core := { s.core with log := [] } }
      if t.stream then (let d := s.ownDie; s.setDie { d with streams := d.streams.filter (fun x => x.1 ≠ t.formNo) })
      else { s with launches := s.launches.map (fun l => if l.lid = t.lid then { l with done := t.tid.toNat :: l.done } else l) }
  | none => s

/-- Has the current core's task ended by a fault? Its log takes nothing more (R400). -/
def Core.failed (c : Core) : Bool := c.phase == .ending .fault

/-- The end of a task by a fault (R400): its sequencer issues nothing more, its pin is dropped and its log discarded. -/
def State.endByFault (s : State) : State :=
  let s := s.abortDomain.dropPin.discardLog
  { s with core := { s.core with phase := .ending .fault, rep := none, wait := none, trap := none } }

/-- Taking a fault (R397, R399, R400): the fault record; then the handler, or the end of the task. A handleable fault of
the handler's own word is DOUBLE_FAULT. -/
def takeFault (f : FaultInfo) (s : State) : State :=
  let c := s.core
  let f := if !fatalCode f.code && c.priv then { f with code := 28, detail := f.code } else f
  let frec := faultRecord f s
  let pos := BitVec.ofNat 64 (match c.rep with | some r => r.pos | none => 0)
  if fatalCode f.code || !c.ctl.tvec.getLsbD 0 then
    { s with core := { c with ctl := { c.ctl with frec := frec, reppos := pos } } }.endByFault
  else
    let back := if f.code = 26 then c.pc + 8 else c.pc
    let ctl := { c.ctl with
      frec := frec, reppos := pos, epc := back.zeroExtend 64, mode := c.ctl.mode ||| 1 }
    { s with core := { c with
      ctl := ctl, pc := BitVec.ofNat 17 (bits c.ctl.tvec.toNat 16 3 * 8), rep := none, repResume := false, wait := none, trap := none,
      repHeld := if c.rep.isSome then some c.pc else none } }

/-- Has every vector word dispatched earlier completed, its stores performed (R225, R226, R397)? -/
def Core.vectorIdle (c : Core) : Bool :=
  c.vq.isEmpty && c.vfly.isEmpty && c.loads.all (fun l => !l.isPlane) && c.stores.all (fun p => !p.vec)

/-- A fault arises: it is taken once every vector word dispatched earlier has completed (R225, R397); until then it waits. A task that a
fault has ended already keeps its record (R400). -/
def State.raised (f : FaultInfo) (s : State) : State :=
  if s.core.failed then s
  else if s.core.vectorIdle then takeFault f s else { s with core := { s.core with trap := some f } }

/-- Raise a fault. -/
def raise (f : FaultInfo) (s : State) : Out State := .next (s.raised f)

/-- PRIVILEGE_VIOLATION unless the handler runs (R156). -/
def privileged (m : State → Out State) (s : State) : Out State := if s.core.priv then m s else raise { code := 2 } s

/-! ### Flags (R63, R64) -/

/-- OR flags into group n of FPCS: 0 SFL, 1 VFL, 2 PFL, 3 XFL (R63, R64). A write in the same core cycle does not clear them. -/
def Core.orFlags (c : Core) (n : Nat) (f : Flags) : Core :=
  let x : Word := f.zeroExtend 64 <<< (5 * n)
  { c with ctl := { c.ctl with fpcs := c.ctl.fpcs ||| x }, newFlags := c.newFlags ||| x }

/-! ### Results written to a g register (R181) -/

/-- May v be written to sp? -/
def Core.spOk (c : Core) (v : Word) : Bool := decide (c.ctl.slim.toNat ≤ v.toNat) && v.toNat % 8 == 0

/-- Would writing v to register d raise STACK_FAULT (R181)? -/
def Core.stackBad (c : Core) (d : GReg) (v : Word) : Bool := d.val == 32 && !c.spOk v

/-- The core changed by f and then g[d] := v, with the check of sp, and retirement (R181). -/
def writeRetire (d : GReg) (v : Word) (f : Core → Core) (s : State) : Out State :=
  if s.core.stackBad d v then raise { code := 6, addr := v.toNat, detail := 0 } s
  else retireWith (fun c => (f c).wr d v) s

/-- g[d] := v and retirement. -/
def setG (d : GReg) (v : Word) (s : State) : Out State := writeRetire d v id s

/-! ### Barriers (R377, R378, R381) -/

/-- An arrival applied at the home; with EC 0 it is dropped (R378, R381). -/
def Barrier.arrive (b : Barrier) : Barrier :=
  if b.ec = 0 then b
  else if b.ec.toNat ≤ b.ac.toNat + 1 then { b with ph := b.ph + 1, ac := 0, ec := b.nextEc.getD b.ec, nextEc := none }
  else { b with ac := b.ac + 1 }

/-- BARC (R381). -/
def Barrier.setCount (b : Barrier) (ec ph : BitVec 16) (reset : Bool) : Barrier :=
  if reset then { b with ec := ec, ac := 0, ph := ph, nextEc := none }
  else if b.ac = 0 then { b with ec := ec, nextEc := none }
  else { b with nextEc := some ec }

/-- Have `target` phases completed since (PH − t in 1 to 32,767; R379)? -/
def phaseDone (ph t : BitVec 16) : Bool := decide (1 ≤ (ph - t).toNat ∧ (ph - t).toNat ≤ 32767)

/-- The barrier that a scope operand names for a core (R377). -/
def barKey (k : CoreKey) (sc : Scope) (i : Nat) : BarKey :=
  match sc with
  | .core => ⟨sc, k, i⟩
  | .quad => ⟨sc, ⟨k.pkg, k.die, quadOf k * 4⟩, i⟩
  | .die => ⟨sc, ⟨k.pkg, k.die, 0⟩, i⟩
  | .pkg => ⟨sc, ⟨k.pkg, 0, 0⟩, i⟩
  | .pod => ⟨sc, ⟨0, 0, 0⟩, i⟩

/-- Read a barrier at its home. -/
def State.getBar (s : State) (b : BarKey) : Barrier :=
  match b.scope with
  | .core => (s.getCore b.owner).bars.get (Fin.ofNat 96 b.idx)
  | .quad => (aget (s.getDie b.owner.dieKey).quadBars (quadOf b.owner * 32 + b.idx)).getD Barrier.off
  | .die => (aget (s.getDie b.owner.dieKey).dieBars b.idx).getD Barrier.off
  | .pkg => (aget (s.getPkg b.owner.pkg).pkgBars b.idx).getD Barrier.off
  | .pod => (aget s.podBars b.idx).getD Barrier.off

/-- Write a barrier at its home. -/
def State.setBar (s : State) (b : BarKey) (x : Barrier) : State :=
  match b.scope with
  | .core => let c := s.getCore b.owner; s.setCore { c with bars := c.bars.set (b.idx % 96) x (Nat.mod_lt _ (by decide)), clean := { c.clean with bars := false } }
  | .quad => let d := s.getDie b.owner.dieKey; s.setDie { d with quadBars := aput d.quadBars (quadOf b.owner * 32 + b.idx) x }
  | .die => let d := s.getDie b.owner.dieKey; s.setDie { d with dieBars := aput d.dieBars b.idx x }
  | .pkg => let p := s.getPkg b.owner.pkg; s.setPkg { p with pkgBars := aput p.pkgBars b.idx x }
  | .pod => { s with podBars := aput s.podBars b.idx x }

/-! ### Tokens (R382) -/

/-- Is a waiter that captured `cap` satisfied by a token's retired count (R382)? -/
def tokenDone (ret cap : BitVec 32) : Bool := decide ((ret - cap).toNat < 2 ^ 31)

/-- The counts ENQ captured for the tokens of a mask. -/
def Core.captureTokens (c : Core) (mask : Nat) : List (Nat × BitVec 32) :=
  ((List.range 8).filter (bitAt mask ·)).map (fun n => (n, (c.tok.get (Fin.ofNat 8 n)).enq))

/-- Are all captured counts satisfied? -/
def Core.tokensDone (c : Core) (caps : List (Nat × BitVec 32)) : Bool :=
  caps.all (fun e => tokenDone (c.tok.get (Fin.ofNat 8 e.1)).ret e.2)

/-- Change one token. -/
def Core.setTok (c : Core) (n : Nat) (f : Token → Token) : Core :=
  { c with tok := c.tok.set (n % 8) (f (c.tok.get (Fin.ofNat 8 n))) (Nat.mod_lt _ (by decide)) }

/-! ### Signals (R384, R385) -/

/-- The source identifier of an update: package, die, core, agent. -/
def sigSource (k : CoreKey) (agent : Nat) : BitVec 19 :=
  BitVec.ofNat 19 (k.pkg % 128 * 2 ^ 12 + k.die % 8 * 2 ^ 9 + k.core % 128 * 2 ^ 2 + agent)

/-- The home of a physical address: package, die and space, and the quad or core within it (R292, R355). -/
def homeOf (pa : Nat) : Nat :=
  match bits pa 45 42 with
  | 1 => pa / 2 ^ 24 * 2 ^ 24
  | 2 => pa / 2 ^ 20 * 2 ^ 20
  | 3 => pa / 2 ^ 17 * 2 ^ 17
  | _ => pa / 2 ^ 42 * 2 ^ 42

/-- Send an update: it takes the next SEQ of its source (R385). -/
def State.sendSig (s : State) (src : BitVec 19) (pa : Nat) (isMax : Bool) (v : Word)
    (ord : Option (CoreKey × OrdClass × Nat)) (owner : Option (CoreKey × Nat)) (pkt : Option (QKey × Nat)) (obs : BitVec 5 := 0)
    (trans : List Trans := []) (point : Option Nat := none) : State :=
  let seq := ((aget s.sigSeq src).getD 0) + 1
  { s with
    sigSeq := aput s.sigSeq src seq
    sigs := s.sigs ++ [⟨src, seq, homeOf pa, pa, isMax, v, false, ord, owner, pkt, obs, trans, point⟩] }

/-- May the source send another update to the home (R385: 256 unacknowledged)? -/
def State.sigRoom (s : State) (src : BitVec 19) (pa : Nat) : Bool :=
  decide ((s.sigs.filter (fun m => m.src = src && m.home = homeOf pa)).length < 256)

/-- Is an update of core k's sequencer, of a class and made before access number n, still on its way (R359, R384)? -/
def State.sigBefore (s : State) (k : CoreKey) (cls : OrdClass) (n : Nat) : Bool :=
  s.sigs.any (fun m => !m.applied && (match m.ord with | some o => o.1 == k && o.2.1 == cls && decide (o.2.2 < n) | none => false))

/-- A device event whose condition does not hold: nothing happens. -/
def idle (s : State) : Out State := .next { s with skipped := true }

end Sys2Proof.Machine
end

