-- ==== Sys2Proof/Machine/Mem.lean ====
section
/-! DEFINITION. Physical addresses (R292), page tables and translation (R293 to R298), memory bytes, loads and stores on
their way (R291, R355), the DET region and the merge log (R368 to R371). -/

namespace Sys2Proof.Machine

/-! ### Physical addresses (R292) -/

/-- Fields of a physical address (Table 11.2). -/
def paPkg (pa : Nat) : Nat := bits pa 55 49
def paDie (pa : Nat) : Nat := bits pa 48 46
def paSpace (pa : Nat) : Nat := bits pa 45 42
def paOff (pa : Nat) : Nat := pa % 2 ^ 42
/-- The die of a physical address. -/
def paDieKey (pa : Nat) : DieKey := ⟨paPkg pa, paDie pa⟩

/-- Size of a space (Table 11.3). -/
def spaceSize : Nat → Nat
  | 0 => 2560 * 2 ^ 20 | 1 => 24 * 2 ^ 24 | 2 => 96 * 2 ^ 20 | 3 => 96 * 2 ^ 17 | 4 => 2 ^ 42 | _ => 0

/-- Is it a physical address (R292)? -/
def validPA (pa : Nat) : Bool :=
  decide (pa < 2 ^ 56) && decide (paOff pa < spaceSize (paSpace pa))
    && (if paSpace pa = 4 then paPkg pa == 127 && paDie pa == 0 else decide (paPkg pa ≤ 71))

/-- The physical address of an offset in a space of a die. -/
def mkPA (pkg die space off : Nat) : Nat := pkg * 2 ^ 49 + die * 2 ^ 46 + space * 2 ^ 42 + off

/-- A core's own unit scratchpad, code memory, and cluster partition (R104). -/
def unitPA (k : CoreKey) : Nat := mkPA k.pkg k.die 2 (k.core * 2 ^ 20)
def codePA (k : CoreKey) : Nat := mkPA k.pkg k.die 3 (k.core * 2 ^ 17)
def partPA (k : CoreKey) : Nat := mkPA k.pkg k.die 1 (quadOf k * 2 ^ 24 + k.core % 4 * 2 ^ 22)

/-! ### Bytes of memory (R356) -/

/-- A memory is in canonical form (strictly rising addresses, no zero byte listed). -/
abbrev Memory.wf (m : List (Nat × Byte)) : Bool := swf 0 m

/-- The byte at a physical address: zero where nothing was written since reset (R356). -/
def State.byte (s : State) (pa : Nat) : Byte := sget 0 s.mem pa
/-- n bytes from a physical address on. -/
def State.bytes (s : State) (pa n : Nat) : List Byte := sgetList 0 s.mem pa n
/-- The little-endian number of n bytes at a physical address (R6). -/
def State.num (s : State) (pa n : Nat) : Nat := ofBytes (s.bytes pa n)
/-- The word at a physical address. -/
def State.word (s : State) (pa : Nat) : Word := BitVec.ofNat 64 (s.num pa 8)
/-- Write single bytes at physical addresses. -/
def putBytes (m : List (Nat × Byte)) (l : List (Nat × Byte)) : List (Nat × Byte) := l.foldl (fun m e => sput 0 m e.1 e.2) m
/-- Perform writes of bytes at their homes; a byte that is written holds a soft error no more, and its line is dirty (R407, R416). -/
def State.perform (s : State) (l : List (Nat × Byte)) : State :=
  { s with
    mem := putBytes s.mem l, bad := s.bad.filter (fun a => !l.any (fun e => e.1 == a))
    cleanLines := s.cleanLines.filter (fun a => !l.any (fun e => e.1 / 256 == a)) }
/-- Does one of the n bytes at pa hold an uncorrectable soft error (R416)? -/
def State.spoiled (s : State) (pa n : Nat) : Bool := s.bad.any (fun a => decide (pa ≤ a ∧ a < pa + n))
/-- One write of a whole slot of a queue is seen whole: what has been read of a packet there is read again (R92). -/
def State.freshSlots (l : List Nat) (s : State) : State :=
  if s.queues.all (fun q => q.2.part.isEmpty) then s
  else
    let whole := fun (e : Nat × Word) => (List.range 64).all (fun i => l.contains (e.1 / 64 * 64 + i))
    { s with queues := s.queues.map (fun q => (q.1, { q.2 with part := q.2.part.filter (fun e => !whole e) })) }
/-- Pair bytes with consecutive addresses. -/
def addressed (pa : Nat) : List Byte → List (Nat × Byte)
  | [] => []
  | b :: r => (pa, b) :: addressed (pa + 1) r
/-- Write bytes from a physical address on. -/
def State.write (s : State) (pa : Nat) (bs : List Byte) : State := s.perform (addressed pa bs)
/-- Write a word. -/
def State.writeWord (s : State) (pa : Nat) (w : Word) : State := s.write pa (toBytes 8 w.toNat)

/-! ### Page tables (R295, R296) -/

/-- The levels of the table: number, lowest index bit, index mask (R296). -/
def pageLevels : List (Nat × Nat × Nat) := [(0, 52, 16), (1, 42, 1024), (2, 32, 1024), (3, 22, 1024), (4, 12, 1024)]

/-- Bytes of a page of size k (R295). -/
def pageBytes (k : Nat) : Nat := 4096 * 4 ^ k

/-- Bytes that one entry of a page of size k spans, by its level (R296). -/
def entryBytes (k : Nat) : Nat := if k ≤ 4 then 2 ^ 12 else if k ≤ 9 then 2 ^ 22 else 2 ^ 32

/-- Page sizes that a level may hold (R296). -/
def sizeAtLevel (level k : Nat) : Bool :=
  match level with
  | 4 => decide (k ≤ 4) | 3 => decide (5 ≤ k ∧ k ≤ 9) | 2 => decide (k = 10 ∨ k = 11) | _ => false

/-- May a core-local leaf name this space with a page of size k (R296)? -/
def localOk (space k : Nat) : Bool :=
  match space with
  | 1 => decide (k ≤ 6) | 2 => decide (k ≤ 4) | 3 => decide (k ≤ 2) | _ => false

/-- The leaf's translation, or the reason it is malformed (Table 11.6, Table 11.7 reason 3). -/
def leafTrans (asid : BitVec 16) (va level e : Nat) : Except Nat Trans :=
  let k := bits e 61 58
  let pa := bits e 55 12 * 4096
  if !sizeAtLevel level k || bits e 57 56 != 0 || bits e 11 8 != 0 || bits e 3 0 != 0 || pa % pageBytes k != 0
      || (bitAt e 7 && !localOk (paSpace pa) k) then .error 3
  else .ok ⟨asid, va / pageBytes k * pageBytes k, k, va / entryBytes k * entryBytes k, pa, bitAt e 7, bitAt e 6, bitAt e 5, bitAt e 4⟩

/-- Why an access has no translation: the reason of Table 11.7; or its walk has to wait for an earlier access of the agent to a table
entry (R228), or meets an uncorrectable soft error in the entry at pa (R416). -/
inductive NoTrans where
  | fault (reason : Nat)
  | wait
  | spoiled (pa : Nat)
  deriving DecidableEq, Repr

/-- The walk of R296 from a table on; `rd` reads the entry at a physical address. -/
def walkFrom (rd : Nat → Except NoTrans Nat) (asid : BitVec 16) (va : Nat) : List (Nat × Nat × Nat) → Nat → Except NoTrans Trans
  | [], _ => .error (.fault 3)
  | (level, lo, n) :: r, base =>
    match rd (base + 8 * (va / 2 ^ lo % n)) with
    | .error x => .error x
    | .ok e =>
      if !bitAt e 63 then .error (.fault 2)
      else if bitAt e 62 then (match leafTrans asid va level e with | .ok t => .ok t | .error x => .error (.fault x))
      else if level == 4 || bits e 61 56 != 0 || bits e 11 7 != 0 || bits e 3 0 != 0 || bitAt e 12 then .error (.fault 3)
      else walkFrom rd asid va r (bits e 55 12 * 4096)

/-- Does a page contain an address? -/
def Trans.inPage (t : Trans) (va : Nat) : Bool := decide (t.vbase ≤ va ∧ va < t.vbase + pageBytes t.size)
/-- Is an address translated by the entry that a held translation was read from (R296: each address by its own entry)? -/
def Trans.covers (t : Trans) (va : Nat) : Bool := decide (t.ebase ≤ va ∧ va < t.ebase + entryBytes t.size)

/-- The translation of a page: the one the core holds, or a fresh walk (R293). -/
def lookupTrans (rd : Nat → Except NoTrans Nat) (held : List Trans) (asid : BitVec 16) (ptbase va : Nat) : Except NoTrans Trans :=
  match held.find? (fun t => t.asid == asid && t.covers va) with
  | some t => .ok t
  | none => walkFrom rd asid va pageLevels ptbase

/-- The physical address that a translation gives a core (R296, core-local leaves). -/
def Trans.pa (t : Trans) (k : CoreKey) (va : Nat) : Nat :=
  let pa := t.pbase + (va - t.vbase)
  if t.isLocal then
    match paSpace pa with
    | 1 => mkPA k.pkg k.die 1 (quadOf k * 2 ^ 24 + paOff pa % 2 ^ 24)
    | 2 => mkPA k.pkg k.die 2 (k.core * 2 ^ 20 + paOff pa % 2 ^ 20)
    | _ => mkPA k.pkg k.die 3 (k.core * 2 ^ 17 + paOff pa % 2 ^ 17)
  else pa

/-! ### Translation of one access (R297, R298) -/

/-- How an access uses its page: a read, a write or an atomic (W only; entry 6), or an operand that a record reads and writes. -/
inductive Access where
  | read | write | update
  deriving DecidableEq, Repr

/-- The places a sequencer or vector access may reach (Table 11.1). -/
def seqReach (k : CoreKey) (pa : Nat) : Bool :=
  match paSpace pa with
  | 0 => true
  | 1 => paPkg pa == k.pkg && paDie pa == k.die && paOff pa / 2 ^ 24 == quadOf k
  | 2 => paPkg pa == k.pkg && paDie pa == k.die && paOff pa / 2 ^ 20 == k.core
  | 4 => true
  | _ => false

/-- Reason 6: does a user-mode access stay inside the task's partition and unit-scratchpad area (R104)? Under DET the merge log
behind the CLUSZ bytes counts as inside the partition (entry 103). -/
def Core.inArea (c : Core) (pa : Nat) : Bool :=
  let t := c.task
  let unit := (t.map (·.unitsz)).getD 0
  let clu := (t.map (·.clusz)).getD 0 + (if c.det then 2 ^ 18 else 0)
  match paSpace pa with
  | 1 => decide (partPA c.key ≤ pa ∧ pa < partPA c.key + clu)
  | 2 => decide (unitPA c.key ≤ pa ∧ pa < unitPA c.key + unit)
  | _ => true

/-- The first reason of Table 11.7 from 4 on, if any. -/
def Core.accessReason (c : Core) (reach : Nat → Bool) (a : Access) (t : Trans) (pa : Nat) : Option Nat :=
  let user := !c.priv
  if !validPA pa || !reach pa then some 4
  else if (user && !t.u) || (a != .write && !t.r) || (a != .read && !t.w) then some 5
  else if user && !c.inArea pa then some 6
  else none

/-- Hold a translation that has been taken (R293). -/
def Core.hold (c : Core) (t : Trans) : Core := if t ∈ c.held then c else { c with held := t :: c.held }
/-- The same on the state. -/
def State.hold (s : State) (t : Trans) : State := { s with core := s.core.hold t }

/-- MEMORY_ERROR at a read that meets an uncorrectable soft error: DETAIL names the space (Table 15.2). -/
def memoryError (pa engine : Nat) (s : State) : Out State :=
  raise { code := 31, addr := pa, detail := paSpace pa, engine := engine } s
/-- The read of n bytes at pa, or MEMORY_ERROR. -/
def unlessSpoiled (pa n : Nat) (m : State → Out State) (s : State) : Out State := if s.spoiled pa n then memoryError pa 0 s else m s
/-- TRANSLATION_FAULT (R298); a word whose walk has to wait is executed again in the next core cycle. -/
def transFault (va : Nat) (x : NoTrans) (slot engine : Nat) (s : State) : Out State :=
  match x with
  | .fault reason => raise { code := 5, addr := va, detail := reason, slot := slot, engine := engine } s
  | .spoiled pa => memoryError pa engine s
  | .wait => ok s
/-- ALIGNMENT_FAULT. -/
def alignFault (va slot engine : Nat) (s : State) : Out State := raise { code := 4, addr := va, slot := slot, engine := engine } s

/-! ### The DET region and the merge log (R368 to R371) -/

/-- Does a physical address lie in the DET region (R368)? -/
def detRegion (k : CoreKey) (pa : Nat) : Bool := paSpace pa == 0 || paSpace pa == 4 || paPkg pa != k.pkg

/-- Fields of a merge-log entry (Table 14.3). -/
def LogEntry.isRed (e : LogEntry) : Bool := bits e.head.toNat 2 0 == 1
def LogEntry.gran (e : LogEntry) : Nat := bits e.head.toNat 55 3 * 8
def LogEntry.mask (e : LogEntry) : Nat := bits e.head.toNat 63 56
def LogEntry.op (e : LogEntry) : Nat := bits e.head.toNat 63 60
def LogEntry.size (e : LogEntry) : Nat := bits e.head.toNat 58 56
/-- The location of a reduction. -/
def LogEntry.loc (e : LogEntry) : Nat := e.gran + (if bitAt e.head.toNat 59 then 4 else 0)
/-- The bytes of a reduction. -/
def LogEntry.width (e : LogEntry) : Nat := if e.size = 6 then 8 else 4

/-- A plain entry. -/
def plainEntry (gran mask data : Nat) : LogEntry := ⟨BitVec.ofNat 64 (mask * 2 ^ 56 + gran), BitVec.ofNat 64 data⟩
/-- A reduction entry. -/
def redEntry (op size loc data : Nat) : LogEntry :=
  ⟨BitVec.ofNat 64 (op * 2 ^ 60 + (if bitAt loc 2 then 2 ^ 59 else 0) + size * 2 ^ 56 + loc / 8 * 8 + 1), BitVec.ofNat 64 data⟩

/-- Does an entry write or reduce the byte at pa? -/
def LogEntry.touches (e : LogEntry) (pa : Nat) : Bool :=
  if e.isRed then decide (e.loc ≤ pa ∧ pa < e.loc + e.width)
  else decide (e.gran = pa / 8 * 8) && bitAt e.mask (pa % 8)

/-- The byte a task's own log holds for pa (R369): plain writes only (R371). -/
def logByte (log : List LogEntry) (pa : Nat) : Option Byte :=
  (log.find? (fun e => !e.isRed && e.touches pa)).map (fun e => BitVec.ofNat 8 (e.data.toNat / 256 ^ (pa % 8)))

/-- One plain byte into the log: a granule with a plain entry is updated in place (R370). -/
def logPut (log : List LogEntry) (pa : Nat) (b : Byte) : List LogEntry :=
  let g := pa / 8 * 8
  let i := pa % 8
  if log.any (fun e => !e.isRed && e.gran = g) then
    log.map (fun e => if !e.isRed && e.gran = g then
        ⟨e.head ||| BitVec.ofNat 64 (2 ^ (56 + i)), putBits e.data (8 * i + 7) (8 * i) b.toNat⟩ else e)
  else log ++ [plainEntry g (2 ^ i) (b.toNat * 256 ^ i)]

/-- What stops a logged write: entries that do not fit, or a conflict with the task's own entries (R370, R371). -/
inductive LogStop where
  | full (needed : Nat)
  | conflict (pa : Nat)
  deriving DecidableEq, Repr

/-- The granules of some bytes that have no plain entry yet. -/
def logFresh (log : List LogEntry) (as : List Nat) : List Nat :=
  ((as.map (· / 8)).eraseDups).filter (fun g => !log.any (fun e => !e.isRed && e.gran = g * 8))

/-- The entries that some bytes need, when they exceed what remains beside those that queued records will need. -/
def logShort (log : List LogEntry) (resv as : List Nat) : Option Nat :=
  let held := logFresh log resv
  let need := (logFresh log as).filter (fun g => !held.contains g)
  if !need.isEmpty && decide (16384 < log.length + held.length + need.length) then some need.length else none

/-- Plain writes into the log (R370, R371). `resv`: bytes that queued records will write. -/
def logPlain (log : List LogEntry) (resv : List Nat) (l : List (Nat × Byte)) : Except LogStop (List LogEntry) :=
  match l.find? (fun x => log.any (fun e => e.isRed && e.touches x.1)) with
  | some x => .error (.conflict x.1)
  | none =>
    match logShort log resv (l.map (·.1)) with
    | some n => .error (.full n)
    | none => .ok (l.foldl (fun log x => logPut log x.1 x.2) log)

/-- The bytes that queued records of a core will write into the merge log (R370). -/
def Core.resv (c : Core) : List Nat := ((c.pq ++ c.prun ++ c.tq ++ c.trun).filter (fun r => !(r.done && r.puts.isEmpty))).flatMap (·.pend)

/-- The physical address of the merge log of the current core (R104, R370). -/
def Core.logPA (c : Core) : Nat := partPA c.key + (c.task.map (·.clusz)).getD 0

/-- The log's bytes as they stand in memory (Table 14.3). -/
def logBytes (base : Nat) : List LogEntry → List (Nat × Byte)
  | [] => []
  | e :: r => addressed base (toBytes 8 e.head.toNat ++ toBytes 8 e.data.toNat) ++ logBytes (base + 16) r

/-- Replace the current core's merge log, in its registers and in memory (R370). -/
def State.setLog (s : State) (log : List LogEntry) : State :=
  { s with core := { s.core with log := log } }.perform (logBytes s.core.logPA log)

/-- The faults of R370 and R371. -/
def logFault (e : LogStop) (engine : Nat) (s : State) : Out State :=
  match e with
  | .full n => raise { code := 21, detail := n, engine := engine } s
  | .conflict pa => raise { code := 22, detail := s.core.tid.toNat * 2 ^ 32 + s.core.tid.toNat, addr := pa, engine := engine } s

/-! ### Access sizes (R151, R303) -/

/-- Bytes of an access size. -/
def sizeBytes : MemSize → Nat
  | .n8 | .s8 => 1 | .n16 | .s16 => 2 | .n32 | .s32 => 4 | .n64 => 8

/-- Bytes of an element in memory for a vector memory form: no suffix means four (Table 9.3). -/
def vecBytes (sz : MemSize) : Nat := min (sizeBytes sz) 4

/-- The value extended to 64 bits. -/
def extendSize (sz : MemSize) (x : Nat) : Word :=
  match sz with
  | .s8 => (BitVec.ofNat 8 x).signExtend 64
  | .s16 => (BitVec.ofNat 16 x).signExtend 64
  | .s32 => (BitVec.ofNat 32 x).signExtend 64
  | .n8 => BitVec.ofNat 64 (x % 2 ^ 8)
  | .n16 => BitVec.ofNat 64 (x % 2 ^ 16)
  | .n32 => BitVec.ofNat 64 (x % 2 ^ 32)
  | .n64 => BitVec.ofNat 64 x

/-! ### Nominal latencies and perform points (R226, R291, R365, R366) -/

/-- The nominal latency of a place in core cycles (R226, Tables 12.1 and 14.5); none for host memory. -/
def nominal (k : CoreKey) (pa : Nat) : Nat :=
  match paSpace pa with
  | 2 => 4 | 1 => 12 | 0 => if paDieKey pa == k.dieKey then 96 else if paPkg pa == k.pkg then 220 else 2400 | _ => 0

/-- The latency that fixes when a load reads and has its data: in fixed mode of every place but host memory, in flow mode of unit scratchpad
and cluster SRAM (R365, R366). A handler in fixed mode runs in flow timing while the timetable time stands: its accesses have no points
(R401, entry 110). -/
def Core.lag (c : Core) (pa : Nat) : Option Nat :=
  let n := nominal c.key pa
  if n = 0 ∨ (!c.fixed ∧ 12 < n) ∨ c.inStall then none else some n

/-- The latency after which a write performs, where it has one: not in another package (R365). -/
def Core.writeLag (c : Core) (pa : Nat) : Option Nat := (c.lag pa).bind (fun n => if n = 2400 then none else some n)

/-- The largest of some latencies; none where one is missing. -/
def longest (l : List (Option Nat)) : Option Nat := if l.any (·.isNone) then none else some (l.foldl (fun m x => max m (x.getD 0)) 0)

/-- The core cycle in which a write to some places made `more` cycles from now performs (R365). -/
def Core.pointOf (c : Core) (as : List Nat) (more : Nat) : Option Nat := (longest (as.map c.writeLag)).map (c.tau + more + ·)

/-- The longest latency of the places that a load reads, where they have one. -/
def Core.loadLag (c : Core) (items : List (Nat × Nat)) : Option Nat := longest (items.map (fun e => c.lag e.2))

/-- Is the place in unit scratchpad or cluster SRAM, whose accesses perform at their points in either mode? -/
def isNear (k : CoreKey) (pa : Nat) : Bool := decide (nominal k pa ≤ 12) && paSpace pa != 4
/-- The same of a store. -/
def PStore.near (p : PStore) (k : CoreKey) : Bool := p.bytes.all (fun e => isNear k e.1)

/-- Has core cycle t ended (R394: a point passes with its cycle)? -/
def Core.ended (c : Core) (t : Nat) : Bool := if c.begun then decide (t < c.tau) else decide (t ≤ c.tau)

/-- Has a perform point passed, if there is one (R365: the device holds the access until then)? -/
def Core.reached (c : Core) (at_ : Option Nat) : Bool := match at_ with | some t => c.ended t | none => true

/-! ### Order among the accesses of an agent (R228, R361 to R364) -/

/-- An observer mask (R361): kinds C 4, X 3, P 2, D 1, H 0. -/
def obsX (o : BitVec 5) : Bool := o.getLsbD 3
def obsP (o : BitVec 5) : Bool := o.getLsbD 2

/-- Does a home lie in the reach of one of the named kinds (Table 14.1)? `k` is the core whose access it is. -/
def inReach (o : BitVec 5) (k : CoreKey) (pa : Nat) : Bool :=
  let sp := paSpace pa
  let far := paPkg pa != k.pkg
  (o.getLsbD 4 && (sp == 0 || sp == 1 || sp == 4 || far)) || (o.getLsbD 3 && sp != 3)
    || (o.getLsbD 2 && (sp == 1 || sp == 2 || (sp == 0 && paDieKey pa == k.dieKey)))
    || (o.getLsbD 1 && sp != 2 && sp != 3) || (o.getLsbD 0 && (sp == 0 || sp == 4))

/-- Does a word change the mask stack (R231)? -/
def isMaskWord : Instr → Bool
  | .mpush _ | .minv | .mpop | .mand _ => true
  | _ => false

/-- The mask that the vector word `id` will issue under, where it is known: no word before it changes the mask stack. -/
def Core.maskFor (c : Core) (id : Nat) : Option (BitVec 1024) :=
  if (c.vq.takeWhile (fun v => v.id ≠ id)).any (fun v => isMaskWord v.instr) then none else some (c.masks.headD (BitVec.allOnes 1024))

/-- May a pending store write one of the n bytes at pa? One that has not issued writes its active elements, or, while its mask is not known,
any. -/
def Core.touches (c : Core) (p : PStore) (pa n : Nat) : Bool :=
  match p.word with
  | none => p.bytes.any (fun e => decide (pa ≤ e.1 ∧ e.1 < pa + n))
  | some id =>
    let m := (c.maskFor id).getD (BitVec.allOnes 1024)
    p.addrs.any (fun e => m.getLsbD e.1 && decide (pa < e.2 + p.width ∧ e.2 < pa + n))

/-- Is a store of the class to one of the n bytes at pa still pending, or an atomic that is an acquire in whose reach they lie, made before
access number k (R228, R364)? -/
def Core.storeBefore (c : Core) (cls : OrdClass) (k pa n : Nat) : Bool :=
  c.stores.any (fun p => p.cls == cls && decide (p.num < k)
    && (c.touches p pa n || (p.rmw.isSome && p.obs != 0 && inReach p.obs c.key pa)))

/-- Is any store to one of the n bytes at pa pending? -/
def Core.storePending (c : Core) (pa n : Nat) : Bool := c.stores.any (fun p => c.touches p pa n)

/-- Has a load yet to read? What an atomic returns is read by its store. -/
def PLoad.unread (l : PLoad) : Bool := l.got.isNone && !l.atom

/-- Is a load of the class, made before access number k, yet to read one of the n bytes at pa; or, being an acquire in whose reach they
lie, yet to read (R228, R363)? -/
def Core.loadBefore (c : Core) (cls : OrdClass) (k pa n : Nat) : Bool :=
  c.loads.any (fun l => l.unread && l.cls == cls && decide (l.num < k)
    && (l.items.any (fun i => decide (pa < i.2 + l.size ∧ i.2 < pa + n)) || (l.obs != 0 && inReach l.obs c.key pa)))

/-- Has an access of the class not yet performed? -/
def State.classBusy (s : State) (cls : OrdClass) : Bool :=
  s.core.stores.any (fun p => p.cls == cls) || s.core.loads.any (fun l => l.cls == cls && l.unread) || s.sigBefore s.core.key cls s.core.num

/-- Has any access of the sequencer and vector agent not yet performed? -/
def State.accessBusy (s : State) : Bool :=
  !s.core.stores.isEmpty || s.core.loads.any (·.unread) || (List.finRange 16).any (fun c => s.sigBefore s.core.key c s.core.num)

/-- Does an update that core k's sequencer sent before access number n, of the class, hold back a read of the bytes at pa: it
names them, or carries a mask in whose reach they lie (R228, R364)? -/
def State.sigHolds (s : State) (cls : OrdClass) (n pa size : Nat) : Bool :=
  s.sigs.any (fun m => !m.applied
    && (decide (m.addr < pa + size ∧ pa < m.addr + 8) || (m.obs != 0 && inReach m.obs s.core.key pa))
    && (match m.ord with | some o => o.1 == s.core.key && o.2.1 == cls && decide (o.2.2 < n) | none => false))

/-- Must a read of the class, made as access number n, wait for an earlier store or update, or for an earlier load of one of its
bytes (R228, R364)? -/
def State.readBlocked (s : State) (cls : OrdClass) (n pa size : Nat) : Bool :=
  s.core.storeBefore cls n pa size || s.core.loadBefore cls n pa size || s.sigHolds cls n pa size

/-- Has an access of a class in the mask, with a home in the observers' reach, not yet performed (R360, R364)? With `soon`, only one that the
timetable time brings to its point: neither held for its point's own sake nor without one (R365). -/
def State.fenceBusy (s : State) (mask : BitVec 16) (reach : Nat → Bool) (soon : Bool := false) : Bool :=
  let c := s.core
  let coming := fun (t : Option Nat) => !soon || (match t with | some t => decide (c.tau ≤ t) | none => false)
  c.stores.any (fun p => mask.getLsbD p.cls.val && ((p.bytes.any (fun e => reach e.1)) || p.addrs.any (fun e => reach e.2))
      && (p.word.isSome || coming p.at_))
    || c.loads.any (fun l => l.unread && mask.getLsbD l.cls.val && l.items.any (fun e => reach e.2)
      && (!soon || !l.issued || (c.loadLag l.items).isSome))
    || s.sigs.any (fun m => !m.applied && reach m.addr && coming m.at_
        && (match m.ord with | some o => o.1 == c.key && mask.getLsbD o.2.1.val | none => false))

/-- A word waits until accesses of its own agent have performed. In fixed mode the wait passes in timetable time while that brings one of
them to its point; a wait for others is a delay (R360, R365). -/
def waitOwn (mask : BitVec 16) (reach : Nat → Bool) (s : State) : Out State := if s.fenceBusy mask reach true then ok s else stay s

/-! ### Reads of the current core's agents -/

/-- The offset in a slab of a physical byte of one of its pieces (R336). -/
def pieceOff (l : List (Nat × Nat × Nat)) (pa : Nat) : Option Nat :=
  (l.find? (fun x => decide (x.1 ≤ pa ∧ pa < x.1 + x.2.1))).map (fun x => x.2.2 + (pa - x.1))
/-- The physical byte at an offset of a slab. -/
def pieceAt (l : List (Nat × Nat × Nat)) (off : Nat) : Option Nat :=
  (l.find? (fun x => decide (x.2.2 ≤ off ∧ off < x.2.2 + x.2.1))).map (fun x => x.1 + (off - x.2.2))

/-- Where a pair serves a read of a physical byte from (Table 13.2). -/
def FwdPair.redirect (p : FwdPair) (pa : Nat) : Option Nat :=
  match pieceOff p.old pa with
  | some off => if p.plain && decide (off / p.ob < p.rows) && decide (off / p.ob < p.wm) then pieceAt p.new off else none
  | none =>
    match pieceOff p.new pa with
    | some off => if p.plain && decide (off / p.nb < p.rows) && !decide (off / p.nb < p.wm) then pieceAt p.old off else none
    | none => none

/-- Is the byte in a row that the pair covers (R339)? -/
def FwdPair.covers (p : FwdPair) (pa : Nat) : Bool :=
  (match pieceOff p.old pa with | some off => decide (off / p.ob < p.rows) | none => false)
    || (match pieceOff p.new pa with | some off => decide (off / p.nb < p.rows) | none => false)

/-- The forwarding pairs of the die that holds a physical byte. -/
def State.pairsAt (s : State) (pa : Nat) : List FwdPair := if paSpace pa = 0 then (s.getDie (paDieKey pa)).pairs else []

/-- The byte that a read of an agent of the package is given: through the forwarding pairs (R337). -/
def State.readByte (s : State) (pa : Nat) : Byte := s.byte (((s.pairsAt pa).findSome? (fun p => p.redirect pa)).getD pa)

/-- The number of n bytes as an agent of the package reads them. -/
def State.readNum (s : State) (pa n : Nat) : Nat := ofBytes ((List.range n).map (fun i => s.readByte (pa + i)))

/-- The word at a physical address as an agent of the package reads it (R337). -/
def State.readWord (s : State) (pa : Nat) : Word := BitVec.ofNat 64 (s.readNum pa 8)

/-- The offset of the first of n bytes at pa that lies in a covered row (R339). -/
def State.slabFirst (s : State) (pa n : Nat) : Option Nat :=
  if (s.pairsAt pa).isEmpty then none else (List.range n).find? (fun i => (s.pairsAt pa).any (fun p => p.covers (pa + i)))

/-- Does a write to n bytes at pa touch a covered row (R339)? -/
def State.slabBusy (s : State) (pa n : Nat) : Bool := (s.slabFirst pa n).isSome

/-- The DET launch of a core's task; none for a stream, which takes part in no merge (R311, R372; entry 118). -/
def Core.detLaunch (c : Core) : Option Nat := if c.det then c.task.bind (fun t => if t.stream then none else some t.lid) else none

/-- What the snapshot of the current core's task has in place of a byte that direct writes of its launch have changed since the last merge
(R311). -/
def State.veiled (s : State) (pa : Nat) : Option Byte :=
  s.core.detLaunch.bind (fun l => (aget s.veils l).bind (fun v => aget v pa))

/-- Bytes are about to be written directly for the task of core k: its launch's snapshot keeps them until the next merge (R311, R376). -/
def State.veil (s : State) (k : CoreKey) (pa n : Nat) : State :=
  match (s.getCore k).detLaunch with
  | some l =>
    let v := (aget s.veils l).getD []
    let new := ((List.range n).map (pa + ·)).filter (fun a => detRegion k a && (aget v a).isNone)
    if new.isEmpty then s else { s with veils := aput s.veils l (v ++ new.map (fun a => (a, s.readByte a))) }
  | none => s

/-- A merge of a launch: its tasks' next snapshots are of memory as it stands (R373, R374). -/
def State.unveil (s : State) (l : Nat) : State := { s with veils := adel s.veils l }

/-- A direct write for the task of core k (R311). -/
def State.writeDirect (s : State) (k : CoreKey) (pa : Nat) (bs : List Byte) : State := (s.veil k pa bs.length).write pa bs

/-- A byte as the current core's task reads it: under DET its own log first, then its snapshot (R311, R369). -/
def State.taskByte (s : State) (pa : Nat) : Byte :=
  if s.core.det && detRegion s.core.key pa then (logByte s.core.log pa).getD ((s.veiled pa).getD (s.readByte pa)) else s.readByte pa

/-- n bytes as the current core's task reads them. -/
def State.taskBytes (s : State) (pa n : Nat) : List Byte := (List.range n).map (fun i => s.taskByte (pa + i))
/-- The number of n bytes as the task reads them. -/
def State.taskNum (s : State) (pa n : Nat) : Nat := ofBytes (s.taskBytes pa n)

/-- What a load reads: the values of its items, or nothing where one of them meets an uncorrectable soft error (R416). -/
def State.itemValues (s : State) (items : List (Nat × Nat)) (size : Nat) : List Nat :=
  if items.any (fun e => s.spoiled e.2 size) then [] else items.map (fun e => s.taskNum e.2 size)

/-- May a load that is on its way read now: its issue and its cycle have come, its memory has a nominal latency, and no earlier access of
its class holds it (R228, R365)? -/
def State.mayRead (s : State) (l : PLoad) : Bool :=
  l.unread && l.issued && decide (l.at_ ≤ s.core.tau) && (s.core.loadLag l.items).isSome
    && l.items.all (fun e => !s.readBlocked l.cls l.num e.2 l.size)

/-- A load has read some values: its data is ready `more` core cycles later, where its memory has a nominal latency (R226, R291). -/
def PLoad.read (l : PLoad) (c : Core) (v : List Nat) : PLoad :=
  { l with got := some v, ready := (c.loadLag l.items).map (fun _ => c.tau + l.more) }

/-- The loads whose cycle it is read. -/
def State.readsDue (s : State) : State :=
  { s with core := { s.core with loads := s.core.loads.map (fun l => if s.mayRead l then l.read s.core (s.itemValues l.items l.size) else l) } }

/-! ### Translation (R296 to R298) -/

/-- An entry of a page table as a walk of the current core reads it: a class-0 load in order with the agent's own accesses (R228, R296). -/
def State.walkEntry (s : State) (pa : Nat) : Except NoTrans Nat :=
  if s.readBlocked 0 s.core.num pa 8 then .error .wait
  else if s.spoiled pa 8 then .error (.spoiled pa)
  else .ok (s.readNum pa 8)

/-- Where a physical byte of the launch parameter block stands for the tasks of the launch: in the device's copy (R45, entry 45). -/
def Core.placed (c : Core) (pa : Nat) : Nat := ((c.task.map (·.copy)).bind (pieceOff · pa)).getD pa

/-- Translate an effective address for the current core (R297, R298): the physical address and the translation taken, or why there is
none. -/
def translate (reach : CoreKey → Nat → Bool) (a : Access) (va : Nat) (s : State) : Except NoTrans (Nat × Trans) :=
  let c := s.core
  if 2 ^ 56 ≤ va then .error (.fault 1)
  else
    match lookupTrans s.walkEntry c.held (c.ctl.asid.truncate 16) c.ctl.ptbase.toNat va with
    | .error e => .error e
    | .ok t =>
      let pa := t.pa c.key va
      match c.accessReason (reach c.key) a t pa with
      | some r => .error (.fault r)
      | none => .ok (c.placed pa, t)

/-! ### Loads and stores on their way (R291, R355) -/

/-- Where a store of the class made now performs: at its point, but no sooner than the earlier writes of the class (R228, R365). -/
def Core.storePoint (c : Core) (cls : OrdClass) (as : List Nat) : Option Nat :=
  (c.pointOf as 0).map (fun t => (c.stores.filter (fun p => p.cls == cls)).foldl (fun m p => max m (p.at_.getD 0)) t)

/-- Send a store, or an atomic, on its way: one pending store of bytes at physical addresses (R291). -/
def Core.pushStore (c : Core) (cls : OrdClass) (l : List (Nat × Byte)) (obs : BitVec 5) (trans : List Trans) (vec : Bool := false)
    (rmw : Option Rmw := none) : Core :=
  { c with num := c.num + 1, stores := c.stores ++ [⟨c.num, cls, l, none, [], 0, obs, trans, vec, c.storePoint cls (l.map (·.1)), rmw⟩] }

/-- Send a load on its way, which may read at once, its data ready its memory's latency later. -/
def Core.pushLoad (c : Core) (cls : OrdClass) (dst : LoadDst) (items : List (Nat × Nat)) (size : Nat) (trans : List Trans)
    (obs : BitVec 5 := 0) (atom : Bool := false) : Core :=
  { c with num := c.num + 1, loads := c.loads ++ [⟨c.num, cls, dst, items, size, true, 0, c.tau, (c.loadLag items).getD 0, none, none, obs, atom, trans⟩] }

/-- Stores of the current core, one access per list of bytes: into the log under DET, once no earlier load of the class
holds one of the bytes (R228, R363), else on their way to their homes (R303, R368). The core is then changed by `fin`. -/
def storeChunks (cls : OrdClass) (ls : List (List (Nat × Byte))) (obs : BitVec 5) (trans : List Trans) (fin : Core → Core)
    (s : State) (vec : Bool := false) : Out State :=
  let logged := fun (e : Nat × Byte) => s.core.det && detRegion s.core.key e.1
  let inLog := ls.flatten.filter logged
  let early := inLog.any (fun e => s.core.loadBefore cls s.core.num e.1 1)
  if early then ok s
  else
  match logPlain s.core.log s.core.resv inLog with
  | .error e => logFault e 0 s
  | .ok log =>
    let s := if inLog.isEmpty then s else s.setLog log
    let push := fun (c : Core) (l : List (Nat × Byte)) =>
      let d := l.filter (fun e => !logged e)
      if d.isEmpty then c else c.pushStore cls d obs trans vec
    .next { s with core := fin (ls.foldl push s.core) }

/-- One store. -/
def storeBytes (cls : OrdClass) (l : List (Nat × Byte)) (obs : BitVec 5) (trans : List Trans) (fin : Core → Core) (s : State)
    (vec : Bool := false) : Out State := storeChunks cls [l] obs trans fin s vec

/-- The oldest store of a class may perform: its bytes are known, and no earlier load of the class holds one of them; a release follows
every such load in the reach of its mask (R228, R362, R363). -/
def Core.performable (c : Core) (p : PStore) : Bool :=
  p.word.isNone && !p.bytes.any (fun e => c.loadBefore p.cls p.num e.1 1)
    && !c.loads.any (fun l => l.unread && l.cls == p.cls && decide (l.num < p.num) && p.obs != 0 && l.items.any (fun i => inReach p.obs c.key i.2))

/-- Does a write to one of the bytes by a lower-numbered core of the die that is past its point come first (R365)? -/
def State.outranked (s : State) (p : PStore) : Bool :=
  p.at_.isSome && s.parked.any (fun e => e.1.dieKey == s.core.key.dieKey && decide (e.1.core < s.core.key.core)
    && e.2.stores.any (fun q => q.at_.isSome && e.2.reached q.at_ && q.bytes.any (fun (b : Nat × Byte) => p.bytes.any (fun (x : Nat × Byte) => x.1 == b.1))))

/-! ### Atomic operations (R305) -/

/-- The new value of an atomic: operation 0 add, 1 and, 2 or, 3 xor, 4 and 6 signed minimum and maximum, 5 and 7 unsigned,
8 exchange; n bits. -/
def amoValue (op n old b : Nat) : Nat :=
  match op with
  | 0 => (old + b) % 2 ^ n
  | 1 => old &&& b
  | 2 => old ||| b
  | 3 => old ^^^ b
  | 4 => if sintOf n b < sintOf n old then b else old
  | 5 => min old b
  | 6 => if sintOf n old < sintOf n b then b else old
  | 7 => max old b
  | _ => b

/-- The new value and the flags of an atomic (R305). -/
def Rmw.apply (m : Rmw) (old : Nat) : Nat × Flags :=
  if m.op = 9 then
    let F := if m.sz = .n64 then FFmt.fp64 else FFmt.fp32
    fpAdd F .rne false (F.val old) (F.val m.x)
  else if m.op = 10 then (if old = m.want then m.x else old, Flags.none)
  else (amoValue m.op (8 * sizeBytes m.sz) old m.x, Flags.none)

/-- A pending store performs (R355): its bytes take effect. An atomic reads and writes at once: its flags join SFL, and its load has the old
value, ready its memory's latency later (R305, R365); an uncorrectable soft error there is MEMORY_ERROR. -/
def State.performStore (s : State) (p : PStore) : State :=
  let t : State := { s with core := { s.core with stores := s.core.stores.erase p } }
  match p.rmw with
  | none => t.perform p.bytes
  | some m =>
    let old := ofBytes (p.bytes.map (fun e => s.byte e.1))
    let r := m.apply old
    let bad := p.bytes.any (fun e => s.bad.contains e.1)
    let back := fun (l : PLoad) =>
      if l.atom && l.num == p.num then l.read s.core (if bad then [] else [old]) else l
    let t : State := { t with core := { t.core with loads := t.core.loads.map back } }
    if bad then t
    else ({ t with core := t.core.orFlags 0 r.2 } : State).perform ((p.bytes.map (·.1)).zip (toBytes p.bytes.length r.1))

/-- Perform the oldest store of a class (R228, R355). -/
def performOldest (cls : OrdClass) (s : State) : Option State :=
  match s.core.stores.find? (fun p => p.cls == cls) with
  | none => none
  | some p =>
    if s.core.reached p.at_ && s.core.performable p && !s.sigBefore s.core.key cls p.num && !s.outranked p then some (s.performStore p)
    else none

/-- Perform the stores of a class, at most n, whose points lie in the cycle that ends, in unit scratchpad and cluster SRAM. -/
def settleClass (cls : OrdClass) : Nat → State → State
  | 0, s => s
  | n + 1, s =>
    match s.core.stores.find? (fun p => p.cls == cls) with
    | some p =>
      if p.at_.isSome && p.near s.core.key then (match performOldest cls s with | some t => settleClass cls n t | none => s) else s
    | none => s

end Sys2Proof.Machine
end

