-- ==== Sys2Proof/Machine/Operands.lean ====
section
/-! DEFINITION. What the integer words compute (R183 to R189), effective addresses and walkers (R205, R206), as
functions of values. -/

namespace Sys2Proof.Machine

/-! ### Integer results (Table 8.2, R184) -/

/-- floor(sint(a) × sint(b) / 2⁶⁴). -/
def mulHighS (a b : Word) : Word := BitVec.ofInt 64 (a.toInt * b.toInt / 2 ^ 64)
/-- The same on n64. -/
def mulHighN (a b : Word) : Word := BitVec.ofNat 64 (a.toNat * b.toNat / 2 ^ 64)
/-- DIVS (R184): truncated towards zero; −1 for a divisor of zero; −2⁶³ by −1 wraps to −2⁶³. -/
def divS (a b : Word) : Word := if b = 0 then -1 else BitVec.ofInt 64 (a.toInt.tdiv b.toInt)
/-- DIVN (R184): 2⁶⁴ − 1 for a divisor of zero. -/
def divN (a b : Word) : Word := if b = 0 then -1 else BitVec.ofNat 64 (a.toNat / b.toNat)
/-- Remainder of a quotient q (Table 8.2): a − b × q; the dividend for a divisor of zero. -/
def remOf (q a b : Word) : Word := if b = 0 then a else a - b * q
/-- A shift count: the low six bits (R183). -/
def shiftCount (b : Word) : Nat := b.toNat % 64
/-- Leading zero bits; 64 for zero. -/
def clz64 (a : Word) : Nat := if a = 0 then 64 else 63 - Nat.log2 a.toNat
/-- Trailing zero bits; 64 for zero. -/
def ctz64 (a : Word) : Nat := ((List.range 64).find? (fun i => a.getLsbD i)).getD 64
/-- Number of 1 bits. -/
def popc64 (a : Word) : Nat := ((List.range 64).filter (fun i => a.getLsbD i)).length
/-- sext(a[n−1:0], 64). -/
def sextLow (n : Nat) (a : Word) : Word := BitVec.ofInt 64 (sintOf n a.toNat)
/-- The field of w + 1 bits at lo (R186). -/
def field (a : Word) (lo w : Nat) : Nat := bits a.toNat (lo + w) lo

/-! ### Effective addresses and walkers (R303, R205, R206) -/

/-- EA = g[A] + sext(I16) modulo 2⁶⁴. -/
def effAddr (c : Core) (a : GReg) (off : BitVec 16) : Nat := (c.rd a + sext16 off).toNat

/-- The walker's current address (R205). -/
def Walker.addr (w : Walker) : Nat :=
  let t := fun (k : Fin 4) => (w.idx.get k).toNat * (w.strides.get k).toInt
  wrapN 56 (w.base.toNat + t 0 + t 1 + t 2 + t 3)

/-- One advance from dimension k outward: stop at the first that does not wrap (R206). -/
def advanceDims : List (Fin 4) → Walker → Walker
  | [], w => w
  | k :: r, w =>
    let i := w.idx.get k
    if i.toNat + 1 ≤ (w.trips.get k).toNat then { w with idx := w.idx.set k.val (i + 1) }
    else advanceDims r { w with idx := w.idx.set k.val 0, flags := w.flags ||| BitVec.ofNat 4 (2 ^ k.val) }

/-- One advance, its flags joining those that stand. -/
def Walker.bump (w : Walker) : Walker := advanceDims [0, 1, 2, 3] w
/-- n advances. -/
def Walker.bumps : Nat → Walker → Walker
  | 0, w => w
  | n + 1, w => (w.bump).bumps n
/-- An advancing instruction with n advances: the flags are cleared first (R206). -/
def Walker.advance (w : Walker) (n : Nat) : Walker := ({ w with flags := 0 } : Walker).bumps n

/-- The linear index (Table 8.8). -/
def Walker.linear (w : Walker) : Nat :=
  let i := fun (k : Fin 4) => (w.idx.get k).toNat
  let t := fun (k : Fin 4) => (w.trips.get k).toNat + 1
  i 0 + t 0 * (i 1 + t 1 * (i 2 + t 2 * i 3))

/-- Position and flags zero, the pattern kept. -/
def Walker.home (w : Walker) : Walker := { w with idx := Vector.replicate 4 0, flags := 0 }

/-- The walker bound by a descriptor's four words (Table 8.7); none where a reserved field is nonzero. -/
def walkerOf (w0 w1 w2 w3 : Word) : Option Walker :=
  let f := fun (w : Word) hi lo => bits w.toNat hi lo
  if f w0 63 56 ≠ 0 then none
  else some
    { base := w0.truncate 56
      trips := ⟨#[BitVec.ofNat 16 (f w1 15 0), BitVec.ofNat 16 (f w1 31 16), BitVec.ofNat 16 (f w1 47 32),
        BitVec.ofNat 16 (f w1 63 48)], rfl⟩
      strides := ⟨#[BitVec.ofNat 32 (f w2 31 0), BitVec.ofNat 32 (f w2 63 32), BitVec.ofNat 32 (f w3 31 0),
        BitVec.ofNat 32 (f w3 63 32)], rfl⟩
      idx := Vector.replicate 4 0, flags := 0 }

/-- Change walker k. -/
def Core.setWalker (c : Core) (k : WReg) (w : Walker) : Core := { c with w := c.w.set k.val w }

end Sys2Proof.Machine
end

