-- ==== Sys2Proof/Machine/Flags.lean ====
section
/-! DEFINITION. The flags of FPCS (R63, R64), the rounding mode in force (R62), and the scalar floating-point values of
R190 to R192. -/

namespace Sys2Proof.Machine

/-- FPCS.RM (Table 3.4). -/
def Ctl.rm (c : Ctl) : Rm :=
  match bits c.fpcs.toNat 33 32 with
  | 0 => .rne | 1 => .rtz | 2 => .rdn | _ => .rup

/-- The mode of a rounding-mode field: its own suffix, or FPCS.RM (R62). -/
def Core.mode (c : Core) (r : RmSel) : Rm := r.getD c.ctl.rm


/-- The format of a scalar word's width bit. -/
def scalarFmt (dbl : Bool) : FFmt := if dbl then .fp64 else .fp32

/-- The operand code of the width (R181): an FP32 operand is bits [31:0]. -/
def fpCode (dbl : Bool) (w : Word) : Nat := if dbl then w.toNat else w.toNat % 2 ^ 32

/-- The value of an operand. -/
def Core.fp (c : Core) (dbl : Bool) (a : GReg) : Num := (scalarFmt dbl).val (fpCode dbl (c.rd a))

/-- The class bit of FCLS (R191). -/
def fpClass (F : FFmt) (x : Nat) : Nat :=
  let neg := bitAt x (F.eb + F.fb)
  let mag := x % F.signBit
  match F.val x with
  | .nan _ _ _ => 8
  | .inf _ => if neg then 0 else 7
  | _ =>
    if mag = 0 then (if neg then 3 else 4)
    else if mag < 2 ^ F.fb then (if neg then 2 else 5)
    else if neg then 1 else 6

/-- The result of FSGN (R191): the magnitude of x with the sign of y, its inverse, or the XOR of both. -/
def fpSign (F : FFmt) (o x y : Nat) : Nat :=
  let sx := bitAt x (F.eb + F.fb)
  let sy := bitAt y (F.eb + F.fb)
  F.withSign (match o with | 0 => sy | 1 => !sy | _ => sx != sy) (x % F.signBit)

/-- An integer as an exact value. -/
def intNum (v : Int) : Num := .dy (decide (v < 0)) v.natAbs 0

/-- FCVT (Table 8.5): the result register value and flags. -/
def fpConvert (k : Nat) (dbl : Bool) (mode : Rm) (w : Word) : Word × Flags :=
  let F := scalarFmt dbl
  let x := F.val (fpCode dbl w)
  let out := fun (r : Nat × Flags) => (BitVec.ofNat 64 r.1, r.2)
  match k with
  | 0 => out ((FFmt.fp32.val (w.toNat % 2 ^ 32)).toFloat .fp64 mode false)
  | 1 => out ((FFmt.fp64.val w.toNat).toFloat .fp32 mode false)
  | 2 => out (x.toInt 64 true mode)
  | 3 => out (x.toInt 64 false mode)
  | 4 => out ((intNum w.toInt).toFloat F mode false)
  | 5 => out ((intNum w.toNat).toFloat F mode false)
  | 6 => let r := x.toInt 32 true mode; (BitVec.ofInt 64 (sintOf 32 r.1), r.2)
  | _ => out (x.toInt 32 false mode)

end Sys2Proof.Machine
end

