-- ==== Sys2Proof/Config.lean ====
section
/-! DEFINITION. What the spec leaves to an implementation, as constants with no body: nothing in Lean evaluates them,
so a statement about the model holds whatever their values are (entries 2, 12, 24, 27, 73, 80, 95). -/

namespace Sys2Proof

/-- The FP32 code an F form would return: function number (0 VEXPF, 1 VLOGF, 2 VRCPF, 3 VRSQF, 4 VSINF, 5 VCOSF,
6 VTANHF) and operand code (R78: any value within the bound; the model uses it only where it is within). -/
opaque Config.fForm : Nat → BitVec 32 → BitVec 32

/-- The direction of "nearest integer" on a tie in PMULP (R277 states none; entry 12): weight and product; true rounds up. -/
opaque Config.tieUp : Nat → Int → Bool

/-- HEAD that PNORM gives an entry with TAG 2 and M = −2¹²⁷, where 127 − b is −1 (R282 states no value; entry 80): the entry's EXP. -/
opaque Config.headLeast : BitVec 28 → BitVec 8

/-- Which of the words that a transfer record in flight is replacing, or has replaced, a fetch returns: of the nth such fetch, before
reduction modulo the number of candidates (R221: each 8-byte word is independently the old one or the new; entry 27). -/
opaque Config.fetchPick : Nat → Nat

/-- Adedar's firmware public keys, held in package fuses (R422). -/
opaque Config.firmwareKey : Fin 2 → List Byte

/-- The secret of a complex's identity key (package, complex B), generated at manufacture (R423): byte i of the public seed (0), of the
randomizer seed (1), and of the start of chain c of leaf l (2 + 67 l + c). -/
opaque Config.identity : Nat → Bool → Nat → Nat → Byte

/-- The parameter that a patched word of a bound kernel takes when its patch entry names one that the launch parameter block does
not hold (R86 checks a binding as in R36 only; entry 95). -/
opaque Config.noParam : Nat → BitVec 32

/-- Flabino's handler configuration of a die (package, die): TVEC, and the bytes of the handler block from TVEC.BASE × 8 on (R398,
R428 step 6). -/
opaque Config.handler : Nat → Nat → Word × List Byte

/-- What Flabino writes to a ring register of a die at bring-up: package, die, register number (R125, R428 step 5). -/
opaque Config.ringReg : Nat → Nat → Nat → Word

/-- The Flabino image in a complex's firmware store at manufacture (package, complex B): its bytes, signature, key and rollback version. -/
opaque Config.factoryImage : Nat → Bool → List Byte × List Byte × Fin 2 × Nat

/-- The serial number of a package (Table 16.4). -/
opaque Config.serial : Nat → Word

/-- Adedar's JEDEC manufacturer identity (R426). -/
opaque Config.jedec : BitVec 11

/-- What the pins of a package read when the test port samples them for the nth time (R426). -/
opaque Config.pins : Nat → Nat → BitVec 32

end Sys2Proof
end

