-- ==== Sys2Proof/Decode.lean ====
section
/-! DEFINITION. The decoder of 64-bit instruction words (Tables 7.1 to 7.4, R154), and the encoder written from the
same tables. A word is read as a number; its fields are quotients and remainders. -/

namespace Sys2Proof

/-- The fields that every format shares (Tables 7.1 and 7.2): MAJ, SUB, GN, GP, D, A, and bits [35:0]. -/
structure Fields where
  maj : Nat
  sub : Nat
  gn : Nat
  gp : Nat
  d : Nat
  a : Nat
  low : Nat
  deriving DecidableEq, Repr

/-- The fields of a word. -/
def fieldsOf (w : Nat) : Fields :=
  { maj := w / 2 ^ 56 % 256, sub := w / 2 ^ 52 % 16, gn := w / 2 ^ 51 % 2, gp := w / 2 ^ 48 % 8, d := w / 2 ^ 42 % 64,
    a := w / 2 ^ 36 % 64, low := w % 2 ^ 36 }

/-- The word of given fields. -/
def Fields.pack (f : Fields) : Nat :=
  f.maj * 2 ^ 56 + f.sub * 2 ^ 52 + f.gn * 2 ^ 51 + f.gp * 2 ^ 48 + f.d * 2 ^ 42 + f.a * 2 ^ 36 + f.low

/-- Field B, bits [35:30] (formats Q and H). -/
def Fields.b (f : Fields) : Nat := f.low / 2 ^ 30
/-- Field C, bits [29:24] (format Q). -/
def Fields.c (f : Fields) : Nat := f.low / 2 ^ 24 % 64
/-- Field X, bits [23:0] (format Q). -/
def Fields.x (f : Fields) : Nat := f.low % 2 ^ 24
/-- Field X14, bits [29:16] (format H). -/
def Fields.x14 (f : Fields) : Nat := f.low / 2 ^ 16 % 2 ^ 14
/-- Field I16, bits [15:0] (format H). -/
def Fields.i16 (f : Fields) : Nat := f.low % 2 ^ 16
/-- Field X4, bits [35:32] (format W). -/
def Fields.x4 (f : Fields) : Nat := f.low / 2 ^ 32
/-- Field I32, bits [31:0] (format W). -/
def Fields.i32 (f : Fields) : Nat := f.low % 2 ^ 32

/-- Codes of Table 7.3. -/
def elemTy? : Nat → Option ElemTy
  | 0 => some .s32 | 1 => some .n32 | 2 => some .fp32 | 3 => some .bf16 | 4 => some .fp16 | 5 => some .e4m3
  | 6 => some .e5m2 | 7 => some .s8 | 8 => some .n8 | 9 => some .lg8 | 10 => some .lg6 | _ => none

/-- The code of an element type; FP64 has the records' code 11. -/
def ElemTy.code : ElemTy → Nat
  | .s32 => 0 | .n32 => 1 | .fp32 => 2 | .bf16 => 3 | .fp16 => 4 | .e4m3 => 5 | .e5m2 => 6 | .s8 => 7 | .n8 => 8
  | .lg8 => 9 | .lg6 => 10 | .fp64 => 11

/-- Rounding-mode codes (R151): 0 FPCS.RM, 4 to 7 the modes, 1 to 3 reserved. -/
def rmSel? : Nat → Option RmSel
  | 0 => some none | 4 => some (some .rne) | 5 => some (some .rtz) | 6 => some (some .rdn) | 7 => some (some .rup)
  | _ => none

/-- The code of a rounding-mode field. -/
def rmCode : RmSel → Nat
  | none => 0 | some .rne => 4 | some .rtz => 5 | some .rdn => 6 | some .rup => 7

/-- Access sizes (R151): 7 is reserved. -/
def memSize? : Nat → Option MemSize
  | 0 => some .n8 | 1 => some .s8 | 2 => some .n16 | 3 => some .s16 | 4 => some .n32 | 5 => some .s32 | 6 => some .n64
  | _ => none

/-- The code of an access size. -/
def MemSize.code : MemSize → Nat
  | .n8 => 0 | .s8 => 1 | .n16 => 2 | .s16 => 3 | .n32 => 4 | .s32 => 5 | .n64 => 6

/-- Barrier scopes (Table 14.4): 0, 6 and 7 are reserved. -/
def scope? : Nat → Option Scope
  | 1 => some .core | 2 => some .quad | 3 => some .die | 4 => some .pkg | 5 => some .pod | _ => none

/-- The code of a barrier scope. -/
def Scope.code : Scope → Nat
  | .core => 1 | .quad => 2 | .die => 3 | .pkg => 4 | .pod => 5

/-- A number as a field of a given range, when it lies in the range. -/
def below? (n k : Nat) [NeZero n] : Option (Fin n) := if k < n then some (Fin.ofNat n k) else none

/-- A Boolean as a bit. -/
def bit (b : Bool) : Nat := if b then 1 else 0

/-- A register number of class g. -/
def toG (n : Nat) : GReg := Fin.ofNat 33 n
/-- A number as a field of 3 bits (classes p and w). -/
def to8 (n : Nat) : Fin 8 := Fin.ofNat 8 n
/-- A plane number. -/
def toV (n : Nat) : VReg := Fin.ofNat 32 n
/-- An ordering class, from SUB. -/
def toCls (n : Nat) : OrdClass := Fin.ofNat 16 n

/-- Checks 3 and 4 of R154 on one candidate: `none` is a field value with no meaning; `mbz` says that the
must-be-zero fields are zero, `rng` that every register number lies in its class's range. -/
def row (o : Option (Bool × Bool × Instr)) : Except Nat Instr :=
  match o with
  | none => .error 3
  | some (mbz, rng, i) =>
    if !(mbz && i.check3) then .error 3 else if !(rng && i.check4) then .error 4 else .ok i

/-- Range test of a g field. -/
def okG (n : Nat) : Bool := decide (n ≤ 32)
/-- Range test of a p, w or lc field and the like. -/
def okB (k n : Nat) : Bool := decide (n < k)


/-- Majors 0x01 to 0x0E: integer, bitfield, compare and predicate words (Table 8.2, Table 8.3, R186 to R189). -/
def decodeInt (f : Fields) : Except Nat Instr :=
  match f.maj with
  | 0x01 =>
    match f.sub with
    | 0 =>
      row (some (f.d == 0 && f.a == 0 && f.b == 0 && f.c == 0 && f.x == 0, true, .nop))
    | _ => .error 2
  | 0x02 =>
    match f.sub with
    | 0 =>
      row (some (f.c == 0 && f.x == 0, okG f.d && okG f.a && okG f.b, .add (toG f.d) (toG f.a) (toG f.b)))
    | 1 =>
      row (some (f.c == 0 && f.x == 0, okG f.d && okG f.a && okG f.b, .sub (toG f.d) (toG f.a) (toG f.b)))
    | 2 =>
      row (some (f.c == 0 && f.x == 0, okG f.d && okG f.a && okG f.b, .mul (toG f.d) (toG f.a) (toG f.b)))
    | 3 =>
      row (some (f.c == 0 && f.x == 0, okG f.d && okG f.a && okG f.b, .mulhs (toG f.d) (toG f.a) (toG f.b)))
    | 4 =>
      row (some (f.c == 0 && f.x == 0, okG f.d && okG f.a && okG f.b, .mulhn (toG f.d) (toG f.a) (toG f.b)))
    | _ => .error 2
  | 0x03 =>
    match f.sub with
    | 0 =>
      row (some (f.c == 0 && f.x == 0, okG f.d && okG f.a && okG f.b, .divs (toG f.d) (toG f.a) (toG f.b)))
    | 1 =>
      row (some (f.c == 0 && f.x == 0, okG f.d && okG f.a && okG f.b, .divn (toG f.d) (toG f.a) (toG f.b)))
    | 2 =>
      row (some (f.c == 0 && f.x == 0, okG f.d && okG f.a && okG f.b, .rems (toG f.d) (toG f.a) (toG f.b)))
    | 3 =>
      row (some (f.c == 0 && f.x == 0, okG f.d && okG f.a && okG f.b, .remn (toG f.d) (toG f.a) (toG f.b)))
    | _ => .error 2
  | 0x04 =>
    match f.sub with
    | 0 =>
      row (some (f.c == 0 && f.x == 0, okG f.d && okG f.a && okG f.b, .and (toG f.d) (toG f.a) (toG f.b)))
    | 1 =>
      row (some (f.c == 0 && f.x == 0, okG f.d && okG f.a && okG f.b, .or (toG f.d) (toG f.a) (toG f.b)))
    | 2 =>
      row (some (f.c == 0 && f.x == 0, okG f.d && okG f.a && okG f.b, .xor (toG f.d) (toG f.a) (toG f.b)))
    | 3 =>
      row (some (f.c == 0 && f.x == 0, okG f.d && okG f.a && okG f.b, .andn (toG f.d) (toG f.a) (toG f.b)))
    | _ => .error 2
  | 0x05 =>
    match f.sub with
    | 0 =>
      row (some (f.c == 0 && f.x == 0, okG f.d && okG f.a && okG f.b, .shl (toG f.d) (toG f.a) (toG f.b)))
    | 1 =>
      row (some (f.c == 0 && f.x == 0, okG f.d && okG f.a && okG f.b, .shrl (toG f.d) (toG f.a) (toG f.b)))
    | 2 =>
      row (some (f.c == 0 && f.x == 0, okG f.d && okG f.a && okG f.b, .shra (toG f.d) (toG f.a) (toG f.b)))
    | 3 =>
      row (some (f.c == 0 && f.x == 0, okG f.d && okG f.a && okG f.b, .rotl (toG f.d) (toG f.a) (toG f.b)))
    | _ => .error 2
  | 0x06 =>
    match f.sub with
    | 0 =>
      row (some (f.b == 0 && f.c == 0 && f.x == 0, okG f.d && okG f.a, .clz (toG f.d) (toG f.a)))
    | 1 =>
      row (some (f.b == 0 && f.c == 0 && f.x == 0, okG f.d && okG f.a, .ctz (toG f.d) (toG f.a)))
    | 2 =>
      row (some (f.b == 0 && f.c == 0 && f.x == 0, okG f.d && okG f.a, .popc (toG f.d) (toG f.a)))
    | 3 =>
      row (some (f.b == 0 && f.c == 0 && decide (f.x < 64), okG f.d && okG f.a, .sext (toG f.d) (toG f.a) (Fin.ofNat 64 f.x)))
    | _ => .error 2
  | 0x07 =>
    match f.sub with
    | 0 =>
      row (some (f.c == 0 && f.x == 0, okG f.d && okG f.a && okG f.b, .mins (toG f.d) (toG f.a) (toG f.b)))
    | 1 =>
      row (some (f.c == 0 && f.x == 0, okG f.d && okG f.a && okG f.b, .minn (toG f.d) (toG f.a) (toG f.b)))
    | 2 =>
      row (some (f.c == 0 && f.x == 0, okG f.d && okG f.a && okG f.b, .maxs (toG f.d) (toG f.a) (toG f.b)))
    | 3 =>
      row (some (f.c == 0 && f.x == 0, okG f.d && okG f.a && okG f.b, .maxn (toG f.d) (toG f.a) (toG f.b)))
    | 4 =>
      row (some (f.x == 0, okG f.d && okG f.a && okG f.b && okB 8 f.c, .sel (toG f.d) (toG f.a) (toG f.b) (to8 f.c)))
    | _ => .error 2
  | 0x08 =>
    match f.sub with
    | 0 =>
      row (some (f.b == 0 && f.x14 == 0 && f.i16 / 2 ^ 14 == 0 && f.i16 / 2 ^ 6 % 4 == 0, okG f.d && okG f.a, .bfxs (toG f.d) (toG f.a) (Fin.ofNat 64 (f.i16 % 64)) (Fin.ofNat 64 (f.i16 / 2 ^ 8 % 64))))
    | 1 =>
      row (some (f.b == 0 && f.x14 == 0 && f.i16 / 2 ^ 14 == 0 && f.i16 / 2 ^ 6 % 4 == 0, okG f.d && okG f.a, .bfxn (toG f.d) (toG f.a) (Fin.ofNat 64 (f.i16 % 64)) (Fin.ofNat 64 (f.i16 / 2 ^ 8 % 64))))
    | 2 =>
      row (some (f.b == 0 && f.x14 == 0 && f.i16 / 2 ^ 14 == 0 && f.i16 / 2 ^ 6 % 4 == 0, okG f.d && okG f.a, .bfi (toG f.d) (toG f.a) (Fin.ofNat 64 (f.i16 % 64)) (Fin.ofNat 64 (f.i16 / 2 ^ 8 % 64))))
    | _ => .error 2
  | 0x09 =>
    match f.sub with
    | 0 =>
      row (some (f.c == 0 && f.x == 0, okB 8 f.d && okG f.a && okG f.b, .cmpeq (to8 f.d) (toG f.a) (toG f.b)))
    | 1 =>
      row (some (f.c == 0 && f.x == 0, okB 8 f.d && okG f.a && okG f.b, .cmpne (to8 f.d) (toG f.a) (toG f.b)))
    | 2 =>
      row (some (f.c == 0 && f.x == 0, okB 8 f.d && okG f.a && okG f.b, .cmplts (to8 f.d) (toG f.a) (toG f.b)))
    | 3 =>
      row (some (f.c == 0 && f.x == 0, okB 8 f.d && okG f.a && okG f.b, .cmples (to8 f.d) (toG f.a) (toG f.b)))
    | 4 =>
      row (some (f.c == 0 && f.x == 0, okB 8 f.d && okG f.a && okG f.b, .cmpltn (to8 f.d) (toG f.a) (toG f.b)))
    | 5 =>
      row (some (f.c == 0 && f.x == 0, okB 8 f.d && okG f.a && okG f.b, .cmplen (to8 f.d) (toG f.a) (toG f.b)))
    | _ => .error 2
  | 0x0a =>
    match f.sub with
    | 0 =>
      row (some (f.x4 == 0, okG f.d && okG f.a, .addi (toG f.d) (toG f.a) (BitVec.ofNat 32 f.i32)))
    | 1 =>
      row (some (f.x4 == 0, okG f.d && okG f.a, .andi (toG f.d) (toG f.a) (BitVec.ofNat 32 f.i32)))
    | 2 =>
      row (some (f.x4 == 0, okG f.d && okG f.a, .ori (toG f.d) (toG f.a) (BitVec.ofNat 32 f.i32)))
    | 3 =>
      row (some (f.x4 == 0, okG f.d && okG f.a, .xori (toG f.d) (toG f.a) (BitVec.ofNat 32 f.i32)))
    | 4 =>
      row (some (f.x4 == 0 && decide (f.i32 < 64), okG f.d && okG f.a, .shli (toG f.d) (toG f.a) (Fin.ofNat 64 f.i32)))
    | _ => .error 2
  | 0x0b =>
    match f.sub with
    | 0 =>
      row (some (f.a == 0 && f.x4 == 0, okG f.d, .movi (toG f.d) (BitVec.ofNat 32 f.i32)))
    | 1 =>
      row (some (f.a == 0 && f.x4 == 0, okG f.d, .movh (toG f.d) (BitVec.ofNat 32 f.i32)))
    | _ => .error 2
  | 0x0c =>
    match f.sub with
    | 0 =>
      row (some (decide (f.x14 < 8), okG f.d && okG f.a && okG f.b, .lea (toG f.d) (toG f.a) (toG f.b) (Fin.ofNat 8 f.x14) (BitVec.ofNat 16 f.i16)))
    | _ => .error 2
  | 0x0d =>
    match f.sub with
    | 0 =>
      row (some (f.c == 0 && f.x == 0, okB 8 f.d && okB 8 f.a && okB 8 f.b, .pand (to8 f.d) (to8 f.a) (to8 f.b)))
    | 1 =>
      row (some (f.c == 0 && f.x == 0, okB 8 f.d && okB 8 f.a && okB 8 f.b, .por (to8 f.d) (to8 f.a) (to8 f.b)))
    | 2 =>
      row (some (f.c == 0 && f.x == 0, okB 8 f.d && okB 8 f.a && okB 8 f.b, .pxor (to8 f.d) (to8 f.a) (to8 f.b)))
    | 3 =>
      row (some (f.b == 0 && f.c == 0 && f.x == 0, okB 8 f.d && okB 8 f.a, .pnot (to8 f.d) (to8 f.a)))
    | _ => .error 2
  | 0x0e =>
    match f.sub with
    | 0 =>
      row (some (f.a == 0 && f.b == 0 && f.c == 0 && f.x == 0, okG f.d, .prsave (toG f.d)))
    | 1 =>
      row (some (f.d == 0 && f.b == 0 && f.c == 0 && f.x == 0, okG f.a, .prload (toG f.a)))
    | _ => .error 2
  | _ => .error 1

/-- Majors 0x30 to 0x32: scalar floating point (Table 8.4, R191, R192). -/
def decodeFp (f : Fields) : Except Nat Instr :=
  match f.maj with
  | 0x30 =>
    match f.sub with
    | 0 =>
      row (do let rm ← rmSel? (f.x / 2 ^ 20 % 8); some (f.c == 0 && f.x % 2 ^ 20 == 0, okG f.d && okG f.a && okG f.b, .fadd (f.x / 2 ^ 23 == 1) rm (toG f.d) (toG f.a) (toG f.b)))
    | 1 =>
      row (do let rm ← rmSel? (f.x / 2 ^ 20 % 8); some (f.c == 0 && f.x % 2 ^ 20 == 0, okG f.d && okG f.a && okG f.b, .fsub (f.x / 2 ^ 23 == 1) rm (toG f.d) (toG f.a) (toG f.b)))
    | 2 =>
      row (do let rm ← rmSel? (f.x / 2 ^ 20 % 8); some (f.c == 0 && f.x % 2 ^ 20 == 0, okG f.d && okG f.a && okG f.b, .fmul (f.x / 2 ^ 23 == 1) rm (toG f.d) (toG f.a) (toG f.b)))
    | 3 =>
      row (do let rm ← rmSel? (f.x / 2 ^ 20 % 8); some (f.x % 2 ^ 20 == 0, okG f.d && okG f.a && okG f.b && okG f.c, .ffma (f.x / 2 ^ 23 == 1) rm (toG f.d) (toG f.a) (toG f.b) (toG f.c)))
    | 4 =>
      row (do let rm ← rmSel? (f.x / 2 ^ 20 % 8); some (f.c == 0 && f.x % 2 ^ 20 == 0, okG f.d && okG f.a && okG f.b, .fdiv (f.x / 2 ^ 23 == 1) rm (toG f.d) (toG f.a) (toG f.b)))
    | 5 =>
      row (do let rm ← rmSel? (f.x / 2 ^ 20 % 8); some (f.b == 0 && f.c == 0 && f.x % 2 ^ 20 == 0, okG f.d && okG f.a, .fsqrt (f.x / 2 ^ 23 == 1) rm (toG f.d) (toG f.a)))
    | _ => .error 2
  | 0x31 =>
    match f.sub with
    | 0 =>
      row (some (f.c == 0 && f.x % 2 ^ 23 == 0, okG f.d && okG f.a && okG f.b, .fmin (f.x / 2 ^ 23 == 1) (toG f.d) (toG f.a) (toG f.b)))
    | 1 =>
      row (some (f.c == 0 && f.x % 2 ^ 23 == 0, okG f.d && okG f.a && okG f.b, .fmax (f.x / 2 ^ 23 == 1) (toG f.d) (toG f.a) (toG f.b)))
    | 2 =>
      row (do let c ← below? 5 (f.x % 8); some (f.c == 0 && f.x / 8 % 2 ^ 20 == 0, okB 8 f.d && okG f.a && okG f.b, .fcmp (f.x / 2 ^ 23 == 1) (to8 f.d) (toG f.a) (toG f.b) c))
    | 3 =>
      row (some (f.b == 0 && f.c == 0 && f.x % 2 ^ 23 == 0, okG f.d && okG f.a, .fcls (f.x / 2 ^ 23 == 1) (toG f.d) (toG f.a)))
    | 4 =>
      row (do let o ← below? 3 (f.x % 4); some (f.c == 0 && f.x / 4 % 2 ^ 21 == 0, okG f.d && okG f.a && okG f.b, .fsgn (f.x / 2 ^ 23 == 1) (toG f.d) (toG f.a) (toG f.b) o))
    | _ => .error 2
  | 0x32 =>
    match f.sub with
    | 0 =>
      row (do let rm ← rmSel? (f.x / 2 ^ 20 % 8); let k ← below? 8 (f.x / 2 ^ 16 % 16); some (f.b == 0 && f.c == 0 && f.x % 2 ^ 16 == 0, okG f.d && okG f.a, .fcvt k (f.x / 2 ^ 23 == 1) rm (toG f.d) (toG f.a)))
    | _ => .error 2
  | _ => .error 1

/-- Majors 0x40 to 0x5C: control flow, guard slots, walkers, stack pointer, streams and engine work. -/
def decodeControl (f : Fields) : Except Nat Instr :=
  match f.maj with
  | 0x40 =>
    match f.sub with
    | 0 =>
      row (some (f.d == 0 && f.a == 0 && f.x4 == 0, true, .br (BitVec.ofNat 32 f.i32)))
    | 1 =>
      row (do let m ← below? 4 f.x4; some (f.d == 0, okG f.a, .bc m (toG f.a) (BitVec.ofNat 32 f.i32)))
    | 2 =>
      row (do let j ← below? 4 f.x4; some (f.d == 0, okB 8 f.a, .bwe (to8 f.a) j (BitVec.ofNat 32 f.i32)))
    | 3 =>
      row (some (f.d == 0 && f.a == 0 && f.x4 == 0, true, .bmz (BitVec.ofNat 32 f.i32)))
    | _ => .error 2
  | 0x41 =>
    match f.sub with
    | 0 =>
      row (some (f.b == 0 && f.c == 0 && f.x == 0, okG f.d && okG f.a, .brl (toG f.d) (toG f.a)))
    | 1 =>
      row (some (f.d == 0 && f.b == 0 && f.c == 0 && f.x == 0, okG f.a, .callr (toG f.a)))
    | 2 =>
      row (some (f.d == 0 && f.a == 0 && f.b == 0 && f.c == 0 && f.x == 0, true, .ret))
    | _ => .error 2
  | 0x42 =>
    match f.sub with
    | 0 =>
      row (some (f.d == 0 && f.a == 0 && f.x4 == 0, true, .call (BitVec.ofNat 32 f.i32)))
    | _ => .error 2
  | 0x43 =>
    match f.sub with
    | 0 =>
      row (some (f.a == 0 && f.x4 == 0, okB 4 f.d, .loop (Fin.ofNat 4 f.d) (BitVec.ofNat 16 (f.i32 / 2 ^ 16)) (BitVec.ofNat 16 (f.i32 % 2 ^ 16))))
    | 1 =>
      row (some (f.x4 == 0 && f.i32 / 2 ^ 16 == 0, okB 4 f.d && okG f.a, .loopr (Fin.ofNat 4 f.d) (toG f.a) (BitVec.ofNat 16 (f.i32 % 2 ^ 16))))
    | 2 =>
      row (some (f.a == 0 && f.x4 == 0, okB 4 f.d, .lbrk (Fin.ofNat 4 f.d) (BitVec.ofNat 32 f.i32)))
    | _ => .error 2
  | 0x44 =>
    match f.sub with
    | 0 =>
      row (some (f.b == 0 && f.c == 0 && f.x == 0, okB 16 f.d && okB 8 f.a, .gset (Fin.ofNat 16 f.d) (to8 f.a)))
    | 1 =>
      row (some (f.a == 0 && f.b == 0 && f.c == 0 && f.x == 0, okB 16 f.d, .gclr (Fin.ofNat 16 f.d)))
    | _ => .error 2
  | 0x45 =>
    match f.sub with
    | 0 =>
      row (some (f.a % 16 == 0 && f.x4 == 0, true, .safe (BitVec.ofNat 8 (f.d * 4 + f.a / 16)) (BitVec.ofNat 32 f.i32)))
    | _ => .error 2
  | 0x46 =>
    match f.sub with
    | 0 =>
      row (some (f.d == 0 && f.a == 0 && f.x4 == 0 && f.i32 == 0, true, .exit))
    | 1 =>
      row (some (f.d == 0 && f.a == 0 && f.x4 == 0 && f.i32 / 2 ^ 16 == 0, true, .trap (BitVec.ofNat 16 f.i32)))
    | 2 =>
      row (some (f.d == 0 && f.a == 0 && f.x4 == 0 && f.i32 == 0, true, .rte))
    | _ => .error 2
  | 0x50 =>
    match f.sub with
    | 0 =>
      row (some (f.b == 0 && f.c == 0 && f.x == 0, okB 8 f.d && okG f.a, .wbind (to8 f.d) (toG f.a)))
    | 1 =>
      row (some (f.a == 0 && f.b == 0 && f.c == 0 && f.x / 2 ^ 16 == 0, okB 8 f.d, .wstep (to8 f.d) (BitVec.ofNat 16 f.x)))
    | 2 =>
      row (do let s ← below? 3 (f.x % 4); some (f.b == 0 && f.c == 0 && f.x / 4 == 0, okG f.d && okB 8 f.a, .wpos (toG f.d) (to8 f.a) s))
    | 3 =>
      row (some (f.a == 0 && f.b == 0 && f.c == 0 && f.x == 0, okB 8 f.d, .wrst (to8 f.d)))
    | _ => .error 2
  | 0x51 =>
    match f.sub with
    | 0 =>
      row (some (f.d == 0 && f.a == 0 && f.x4 == 0, true, .spadj (BitVec.ofNat 32 f.i32)))
    | 1 =>
      match f.x4 with
      | 0 => row (some (f.a == 0, okG f.d, .spmov (toG f.d) (BitVec.ofNat 32 f.i32)))
      | 1 => row (some (f.d == 0, okG f.a, .spmovSp (toG f.a) (BitVec.ofNat 32 f.i32)))
      | _ => .error 3
    | _ => .error 2
  | 0x52 =>
    match f.sub with
    | 0 =>
      row (some (f.a == 0 && f.b == 0 && f.c == 0 && f.x / 4 == 0, okG f.d, .shard (toG f.d) (Fin.ofNat 4 f.x)))
    | 1 =>
      row (some (f.b == 0 && f.c == 0 && f.x / 2 == 0, okG f.d && okG f.a, .batch (toG f.d) (toG f.a) (Fin.ofNat 2 f.x)))
    | 2 =>
      row (some (f.c == 0 && f.x / 2 == 0, okG f.d && okG f.a && okG f.b, .need (toG f.d) (toG f.a) (toG f.b) (f.x == 1)))
    | 3 =>
      row (some (f.d == 0 && f.a == 0 && f.b == 0 && f.c == 0 && f.x == 0, true, .unpin))
    | _ => .error 2
  | 0x53 =>
    match f.sub with
    | 0 =>
      row (some (f.d == 0 && f.b == 0 && f.c == 0 && f.x == 0, okG f.a, .enq (toG f.a)))
    | 1 =>
      row (some (f.d == 0 && f.b == 0 && f.c == 0 && f.x == 0, f.a == 8 || f.a == 16 || f.a == 24, .enqr (Fin.ofNat 3 (f.a / 8 - 1))))
    | _ => .error 2
  | 0x54 =>
    match f.sub with
    | 0 =>
      row (some (f.d == 0 && f.b == 0 && f.c == 0 && f.x == 0, okG f.a, .acfree (toG f.a)))
    | _ => .error 2
  | 0x5c =>
    match f.sub with
    | 0 =>
      row (some (f.d == 0 && f.a == 0 && f.x4 == 0, true, .gwset (BitVec.ofNat 32 f.i32)))
    | 1 =>
      row (some (f.a == 0 && f.x4 == 0, okG f.d, .acalloc (toG f.d) (BitVec.ofNat 32 f.i32)))
    | 2 =>
      row (some (f.x4 == 0, okG f.d && okG f.a, .kva (toG f.d) (toG f.a) (BitVec.ofNat 32 f.i32)))
    | _ => .error 2
  | _ => .error 1

/-- The memory forms 0x60 to 0x6C, 0x72 and 0x73: SUB is the ordering class (Table 11.8, R305, R384). -/
def decodeMem (f : Fields) : Except Nat Instr :=
  match f.maj with
  | 0x60 =>
    row (do let sz ← memSize? (f.x14 / 4 % 8); some (f.b == 0 && f.x14 / 32 == 0 && f.x14 % 4 == 0, okG f.d && okG f.a, .ld (toCls f.sub) sz (toG f.d) (toG f.a) (BitVec.ofNat 16 f.i16)))
  | 0x61 =>
    row (do let sz ← memSize? (f.x14 / 4 % 8); some (f.b == 0 && f.x14 / 32 == 0 && f.x14 % 4 == 0, okG f.d && okG f.a, .st (toCls f.sub) sz (toG f.d) (toG f.a) (BitVec.ofNat 16 f.i16)))
  | 0x62 =>
    row (do let sz ← memSize? (f.x14 / 4 % 8); some (f.b == 0 && f.x14 / 32 == 0 && f.x14 % 4 == 0 && f.i16 == 0, okG f.d && okB 8 f.a, .ldw (toCls f.sub) sz (toG f.d) (to8 f.a)))
  | 0x63 =>
    row (do let sz ← memSize? (f.x14 / 4 % 8); some (f.b == 0 && f.x14 / 32 == 0 && f.x14 % 4 == 0 && f.i16 == 0, okG f.d && okB 8 f.a, .stw (toCls f.sub) sz (toG f.d) (to8 f.a)))
  | 0x64 =>
    row (some (f.x14 / 32 == 0 && f.x14 % 4 == 0 && f.x14 / 4 % 8 == 6, okG f.d && okG f.a && okG f.b, .ldp (toCls f.sub) (toG f.d) (toG f.b) (toG f.a) (BitVec.ofNat 16 f.i16)))
  | 0x65 =>
    row (some (f.x14 / 32 == 0 && f.x14 % 4 == 0 && f.x14 / 4 % 8 == 6, okG f.d && okG f.a && okG f.b, .stp (toCls f.sub) (toG f.d) (toG f.b) (toG f.a) (BitVec.ofNat 16 f.i16)))
  | 0x66 =>
    row (do let sz ← memSize? (f.x14 / 4 % 8); some (f.b == 0 && f.x14 / 2 ^ 10 == 0 && f.x14 % 4 == 0, okG f.d && okG f.a, .ldacq (toCls f.sub) (BitVec.ofNat 5 (f.x14 / 32 % 32)) sz (toG f.d) (toG f.a) (BitVec.ofNat 16 f.i16)))
  | 0x67 =>
    row (do let sz ← memSize? (f.x14 / 4 % 8); some (f.b == 0 && f.x14 / 2 ^ 10 == 0 && f.x14 % 4 == 0, okG f.d && okG f.a, .strel (toCls f.sub) (BitVec.ofNat 5 (f.x14 / 32 % 32)) sz (toG f.d) (toG f.a) (BitVec.ofNat 16 f.i16)))
  | 0x68 =>
    row (some (f.sub == 0 && f.d == 0 && f.a == 0 && f.b == 0 && f.x14 == 0, true, .fence (BitVec.ofNat 16 f.i16)))
  | 0x69 =>
    row (some (f.sub == 0 && f.d == 0 && f.a == 0 && f.b == 0 && f.x14 / 2 ^ 10 == 0 && f.x14 % 32 == 0, true, .fenceo (BitVec.ofNat 16 f.i16) (BitVec.ofNat 5 (f.x14 / 32 % 32))))
  | 0x6a =>
    match f.x14 / 2 ^ 10 with
      | 0 => row (do let sz ← memSize? (f.x14 / 4 % 8); some (f.x14 % 4 == 0, okG f.d && okG f.a && okG f.b, .aadd (toCls f.sub) (BitVec.ofNat 5 (f.x14 / 32 % 32)) sz (toG f.d) (toG f.b) (toG f.a) (BitVec.ofNat 16 f.i16)))
      | 1 => row (do let sz ← memSize? (f.x14 / 4 % 8); some (f.x14 % 4 == 0, okG f.d && okG f.a && okG f.b, .aand (toCls f.sub) (BitVec.ofNat 5 (f.x14 / 32 % 32)) sz (toG f.d) (toG f.b) (toG f.a) (BitVec.ofNat 16 f.i16)))
      | 2 => row (do let sz ← memSize? (f.x14 / 4 % 8); some (f.x14 % 4 == 0, okG f.d && okG f.a && okG f.b, .aor (toCls f.sub) (BitVec.ofNat 5 (f.x14 / 32 % 32)) sz (toG f.d) (toG f.b) (toG f.a) (BitVec.ofNat 16 f.i16)))
      | 3 => row (do let sz ← memSize? (f.x14 / 4 % 8); some (f.x14 % 4 == 0, okG f.d && okG f.a && okG f.b, .axor (toCls f.sub) (BitVec.ofNat 5 (f.x14 / 32 % 32)) sz (toG f.d) (toG f.b) (toG f.a) (BitVec.ofNat 16 f.i16)))
      | 4 => row (do let sz ← memSize? (f.x14 / 4 % 8); some (f.x14 % 4 == 0, okG f.d && okG f.a && okG f.b, .amins (toCls f.sub) (BitVec.ofNat 5 (f.x14 / 32 % 32)) sz (toG f.d) (toG f.b) (toG f.a) (BitVec.ofNat 16 f.i16)))
      | 5 => row (do let sz ← memSize? (f.x14 / 4 % 8); some (f.x14 % 4 == 0, okG f.d && okG f.a && okG f.b, .aminn (toCls f.sub) (BitVec.ofNat 5 (f.x14 / 32 % 32)) sz (toG f.d) (toG f.b) (toG f.a) (BitVec.ofNat 16 f.i16)))
      | 6 => row (do let sz ← memSize? (f.x14 / 4 % 8); some (f.x14 % 4 == 0, okG f.d && okG f.a && okG f.b, .amaxs (toCls f.sub) (BitVec.ofNat 5 (f.x14 / 32 % 32)) sz (toG f.d) (toG f.b) (toG f.a) (BitVec.ofNat 16 f.i16)))
      | 7 => row (do let sz ← memSize? (f.x14 / 4 % 8); some (f.x14 % 4 == 0, okG f.d && okG f.a && okG f.b, .amaxn (toCls f.sub) (BitVec.ofNat 5 (f.x14 / 32 % 32)) sz (toG f.d) (toG f.b) (toG f.a) (BitVec.ofNat 16 f.i16)))
      | 8 => row (do let sz ← memSize? (f.x14 / 4 % 8); some (f.x14 % 4 == 0, okG f.d && okG f.a && okG f.b, .axch (toCls f.sub) (BitVec.ofNat 5 (f.x14 / 32 % 32)) sz (toG f.d) (toG f.b) (toG f.a) (BitVec.ofNat 16 f.i16)))
      | _ => .error 3
  | 0x6b =>
    row (do let sz ← memSize? (f.x14 / 4 % 8); some (f.x14 / 2 ^ 10 == 0 && f.x14 % 4 == 0, okG f.d && okG f.a && okG f.b, .acas (toCls f.sub) (BitVec.ofNat 5 (f.x14 / 32 % 32)) sz (toG f.d) (toG f.b) (toG f.a) (BitVec.ofNat 16 f.i16)))
  | 0x6c =>
    row (some (f.x14 / 2 ^ 10 == 0 && f.x14 % 4 == 0 && (f.x14 / 4 % 8 == 4 || f.x14 / 4 % 8 == 6), okG f.d && okG f.a && okG f.b, .afadd (toCls f.sub) (BitVec.ofNat 5 (f.x14 / 32 % 32)) (f.x14 / 4 % 8 == 6) (toG f.d) (toG f.b) (toG f.a) (BitVec.ofNat 16 f.i16)))
  | 0x72 =>
    row (some (f.d == 0 && f.x14 / 2 ^ 10 == 0 && f.x14 % 4 == 0 && f.x14 / 4 % 8 == 6, okG f.a && okG f.b, .sigadd (toCls f.sub) (BitVec.ofNat 5 (f.x14 / 32 % 32)) (toG f.b) (toG f.a) (BitVec.ofNat 16 f.i16)))
  | 0x73 =>
    row (some (f.d == 0 && f.x14 / 2 ^ 10 == 0 && f.x14 % 4 == 0 && f.x14 / 4 % 8 == 6, okG f.a && okG f.b, .sigmax (toCls f.sub) (BitVec.ofNat 5 (f.x14 / 32 % 32)) (toG f.b) (toG f.a) (BitVec.ofNat 16 f.i16)))
  | _ => .error 1

/-- Barriers, tokens, SIGW, MERGE, control registers, TMARK, ICFENCE and TICK. -/
def decodeSync (f : Fields) : Except Nat Instr :=
  match f.maj with
  | 0x70 =>
    match f.sub with
    | 0 =>
      row (do let sc ← scope? (f.x14 / 2 ^ 11); some (f.a == 0 && f.b == 0 && f.x14 % 2 ^ 11 == 0 && f.i16 / 2 ^ 7 == 0, okG f.d, .bara (toG f.d) sc (BitVec.ofNat 7 f.i16)))
    | 1 =>
      row (do let sc ← scope? (f.x14 / 2 ^ 11); some (f.d == 0 && f.b == 0 && f.x14 % 2 ^ 11 == 0 && f.i16 / 2 ^ 7 == 0, okG f.a, .barw sc (BitVec.ofNat 7 f.i16) (toG f.a)))
    | 2 =>
      row (do let sc ← scope? (f.x14 / 2 ^ 11); some (f.d == 0 && f.a == 0 && f.b == 0 && f.x14 % 2 ^ 11 == 0 && f.i16 / 2 ^ 7 == 0, true, .bar sc (BitVec.ofNat 7 f.i16)))
    | 3 =>
      row (do let sc ← scope? (f.x14 / 2 ^ 11); some (f.a == 0 && f.b == 0 && f.x14 % 2 ^ 11 == 0 && f.i16 / 2 ^ 7 == 0, okG f.d, .barq (toG f.d) sc (BitVec.ofNat 7 f.i16)))
    | 4 =>
      row (do let sc ← scope? (f.x14 / 2 ^ 11); some (f.d == 0 && f.b == 0 && f.x14 % 2 ^ 11 == 0 && f.i16 / 2 ^ 7 == 0, okG f.a, .barc sc (BitVec.ofNat 7 f.i16) (toG f.a)))
    | _ => .error 2
  | 0x71 =>
    match f.sub with
    | 0 =>
      row (some (f.d == 0 && f.a == 0 && f.b == 0 && f.c == 0 && f.x / 2 ^ 8 == 0, true, .tokw (BitVec.ofNat 8 f.x)))
    | _ => .error 2
  | 0x74 =>
    match f.sub with
    | 0 =>
      row (some (f.x14 / 2 ^ 10 % 4 == 0 && f.x14 / 4 % 8 == 6 && f.x14 % 4 == 0, okG f.d && okG f.a && okG f.b, .sigw (BitVec.ofNat 5 (f.x14 / 32 % 32)) (toG f.d) (toG f.a) (toG f.b) (Fin.ofNat 4 (f.x14 / 2 ^ 12)) (BitVec.ofNat 16 f.i16)))
    | _ => .error 2
  | 0x75 =>
    match f.sub with
    | 0 =>
      row (some (f.d == 0 && f.a == 0 && f.b == 0 && f.c == 0 && f.x == 0, true, .merge))
    | _ => .error 2
  | 0x78 =>
    match f.sub with
    | 0 =>
      row (some (f.a == 0 && f.b == 0 && f.x14 == 0 && f.i16 / 2 ^ 12 == 0, okG f.d, .ctlrd (toG f.d) (BitVec.ofNat 12 f.i16)))
    | 1 =>
      if f.i16 == 0x200 then row (some (f.d == 0 && f.b == 0 && f.x14 == 0, okG f.a, .qcreate (toG f.a)))
      else if f.i16 == 0x201 then row (some (f.d == 0 && f.b == 0 && f.x14 == 0, okG f.a, .qkill (toG f.a)))
      else row (some (f.d == 0 && f.b == 0 && f.x14 == 0 && f.i16 / 2 ^ 12 == 0, okG f.a, .ctlwr (BitVec.ofNat 12 f.i16) (toG f.a)))
    | 2 =>
      row (some (f.d == 0 && f.b == 0 && f.x14 == 0 && f.i16 / 2 ^ 12 == 0, okG f.a, .ctlset (BitVec.ofNat 12 f.i16) (toG f.a)))
    | 3 =>
      row (some (f.d == 0 && f.b == 0 && f.x14 == 0 && f.i16 / 2 ^ 12 == 0, okG f.a, .ctlclr (BitVec.ofNat 12 f.i16) (toG f.a)))
    | _ => .error 2
  | 0x79 =>
    match f.sub with
    | 0 =>
      row (do let r ← below? 3 (f.x % 4); let s ← below? 3 (f.x / 4 % 4); some (f.d == 0 && f.c == 0 && f.x / 16 == 0, okG f.a && okG f.b, .tmark (toG f.a) (toG f.b) r s))
    | 1 =>
      row (some (f.d == 0 && f.a == 0 && f.b == 0 && f.c == 0 && f.x == 0, true, .icfence))
    | 2 =>
      row (some (f.a == 0 && f.b == 0 && f.c == 0 && f.x == 0, okG f.d, .tick (toG f.d)))
    | _ => .error 2
  | _ => .error 1

/-- Majors 0x80 to 0x83: lane-wise vector words (R233 to R240). -/
def decodeVec (f : Fields) : Except Nat Instr :=
  match f.maj with
  | 0x80 =>
    match f.sub with
    | 0 =>
      row (do let ty ← elemTy? (f.x / 2 ^ 19); let rm ← rmSel? (f.x / 2 ^ 16 % 8); some (f.c == 0 && f.x % 2 ^ 15 == 0, okB 32 f.d && okB 32 f.a && okB 32 f.b, .vadd ty rm (f.x / 2 ^ 15 % 2 == 1) (toV f.d) (toV f.a) (toV f.b)))
    | 1 =>
      row (do let ty ← elemTy? (f.x / 2 ^ 19); let rm ← rmSel? (f.x / 2 ^ 16 % 8); some (f.c == 0 && f.x % 2 ^ 15 == 0, okB 32 f.d && okB 32 f.a && okB 32 f.b, .vsub ty rm (f.x / 2 ^ 15 % 2 == 1) (toV f.d) (toV f.a) (toV f.b)))
    | 2 =>
      row (do let ty ← elemTy? (f.x / 2 ^ 19); let rm ← rmSel? (f.x / 2 ^ 16 % 8); some (f.c == 0 && f.x % 2 ^ 15 == 0, okB 32 f.d && okB 32 f.a && okB 32 f.b, .vmul ty rm (f.x / 2 ^ 15 % 2 == 1) (toV f.d) (toV f.a) (toV f.b)))
    | 3 =>
      row (do let ty ← elemTy? (f.x / 2 ^ 19); let rm ← rmSel? (f.x / 2 ^ 16 % 8); some (f.x % 2 ^ 15 == 0, okB 32 f.d && okB 32 f.a && okB 32 f.b && okB 32 f.c, .vfma ty rm (f.x / 2 ^ 15 % 2 == 1) (toV f.d) (toV f.a) (toV f.b) (toV f.c)))
    | 4 =>
      row (do let ty ← elemTy? (f.x / 2 ^ 19); some (f.c == 0 && f.x % 2 ^ 19 == 0, okB 32 f.d && okB 32 f.a && okB 32 f.b, .vmin ty (toV f.d) (toV f.a) (toV f.b)))
    | 5 =>
      row (do let ty ← elemTy? (f.x / 2 ^ 19); some (f.c == 0 && f.x % 2 ^ 19 == 0, okB 32 f.d && okB 32 f.a && okB 32 f.b, .vmax ty (toV f.d) (toV f.a) (toV f.b)))
    | 6 =>
      row (do let ty ← elemTy? (f.x / 2 ^ 19); some (f.b == 0 && f.c == 0 && f.x % 2 ^ 15 == 0 && f.x / 2 ^ 16 % 8 == 0, okB 32 f.d && okB 32 f.a, .vabs ty (f.x / 2 ^ 15 % 2 == 1) (toV f.d) (toV f.a)))
    | 7 =>
      row (do let ty ← elemTy? (f.x / 2 ^ 19); some (f.b == 0 && f.c == 0 && f.x % 2 ^ 15 == 0 && f.x / 2 ^ 16 % 8 == 0, okB 32 f.d && okB 32 f.a, .vneg ty (f.x / 2 ^ 15 % 2 == 1) (toV f.d) (toV f.a)))
    | _ => .error 2
  | 0x81 =>
    match f.sub with
    | 0 =>
      row (some (f.c == 0 && f.x == 0, okB 32 f.d && okB 32 f.a && okB 32 f.b, .vand (toV f.d) (toV f.a) (toV f.b)))
    | 1 =>
      row (some (f.c == 0 && f.x == 0, okB 32 f.d && okB 32 f.a && okB 32 f.b, .vor (toV f.d) (toV f.a) (toV f.b)))
    | 2 =>
      row (some (f.c == 0 && f.x == 0, okB 32 f.d && okB 32 f.a && okB 32 f.b, .vxor (toV f.d) (toV f.a) (toV f.b)))
    | 3 =>
      row (some (f.b == 0 && f.c == 0 && f.x == 0, okB 32 f.d && okB 32 f.a, .vnot (toV f.d) (toV f.a)))
    | 4 =>
      row (do let ty ← elemTy? (f.x / 2 ^ 19); some (f.c == 0 && f.x % 2 ^ 19 == 0, okB 32 f.d && okB 32 f.a && okB 32 f.b, .vshl ty (toV f.d) (toV f.a) (toV f.b)))
    | 5 =>
      row (do let ty ← elemTy? (f.x / 2 ^ 19); some (f.c == 0 && f.x % 2 ^ 19 == 0, okB 32 f.d && okB 32 f.a && okB 32 f.b, .vshr ty (toV f.d) (toV f.a) (toV f.b)))
    | 6 =>
      row (do let ty ← elemTy? (f.x / 2 ^ 19); some (f.c == 0 && f.x % 2 ^ 19 == 0, okB 32 f.d && okB 32 f.a && okB 32 f.b, .vsha ty (toV f.d) (toV f.a) (toV f.b)))
    | _ => .error 2
  | 0x82 =>
    match f.sub with
    | 0 =>
      row (do let ty ← elemTy? (f.x / 2 ^ 19); let c ← below? 5 (f.x % 8); some (f.c == 0 && f.x / 8 % 2 ^ 16 == 0, okB 32 f.d && okB 32 f.a && okB 32 f.b, .vcmp ty (toV f.d) (toV f.a) (toV f.b) c))
    | 1 =>
      row (some (f.x == 0, okB 32 f.d && okB 32 f.a && okB 32 f.b && okB 32 f.c, .vsel (toV f.d) (toV f.a) (toV f.b) (toV f.c)))
    | 2 =>
      match f.x / 2 ^ 13 with
      | 0 => row (some (f.b == 0 && f.c == 0 && f.x == 0, okB 32 f.d && okB 32 f.a, .vmov (toV f.d) (toV f.a)))
      | 1 => row (some (f.b == 0 && f.c == 0 && f.x / 2 ^ 10 % 8 == 0, okG f.d && okB 32 f.a, .vmovExtract (toG f.d) (toV f.a) (Fin.ofNat 16 (f.x / 2 ^ 6)) (Fin.ofNat 64 f.x)))
      | 2 => row (some (f.b == 0 && f.c == 0 && f.x / 2 ^ 10 % 8 == 0, okB 32 f.d && okG f.a, .vmovInsert (toV f.d) (toG f.a) (Fin.ofNat 16 (f.x / 2 ^ 6)) (Fin.ofNat 64 f.x)))
      | _ => .error 3
    | 3 =>
      row (some (f.b == 0 && f.c == 0 && f.x == 0, okB 32 f.d && okG f.a, .vbc (toV f.d) (toG f.a)))
    | _ => .error 2
  | 0x83 =>
    match f.sub with
    | 0 =>
      row (do let s ← elemTy? (f.x / 2 ^ 19); let t ← elemTy? (f.x / 2 ^ 10 % 32); let rm ← rmSel? (f.x / 2 ^ 16 % 8); some (f.b == 0 && f.c == 0 && f.x % 2 ^ 7 == 0, okB 32 f.d && okB 32 f.a, .vcvt s t (Fin.ofNat 8 (f.x / 2 ^ 7)) rm (f.x / 2 ^ 15 % 2 == 1) (toV f.d) (toV f.a)))
    | _ => .error 2
  | _ => .error 1

/-- The vector memory forms 0x84 to 0x89 (R241 to R244). -/
def decodeVMem (f : Fields) : Except Nat Instr :=
  match f.maj with
  | 0x84 =>
    row (do let sz ← memSize? (f.x14 / 4 % 8); some (f.x14 / 32 == 0 && f.x14 % 4 == 0, okB 32 f.d && okG f.a && okG f.b, .vld (toCls f.sub) sz (toV f.d) (toG f.a) (toG f.b) (BitVec.ofNat 16 f.i16)))
  | 0x85 =>
    row (do let sz ← memSize? (f.x14 / 4 % 8); some (f.x14 / 32 == 0 && f.x14 % 4 == 0, okB 32 f.d && okG f.a && okG f.b, .vst (toCls f.sub) sz (toV f.d) (toG f.a) (toG f.b) (BitVec.ofNat 16 f.i16)))
  | 0x86 =>
    row (do let sz ← memSize? (f.x14 / 4 % 8); some (f.x14 / 32 == 0 && f.x14 % 4 == 0 && f.i16 == 0, okB 32 f.d && okB 8 f.a && okG f.b, .vldw (toCls f.sub) sz (toV f.d) (to8 f.a) (toG f.b)))
  | 0x87 =>
    row (do let sz ← memSize? (f.x14 / 4 % 8); some (f.x14 / 32 == 0 && f.x14 % 4 == 0 && f.i16 == 0, okB 32 f.d && okB 8 f.a && okG f.b, .vstw (toCls f.sub) sz (toV f.d) (to8 f.a) (toG f.b)))
  | 0x88 =>
    row (do let sz ← memSize? (f.x14 / 4 % 8); some (f.x14 / 32 == 0 && f.x14 % 4 == 0, okB 32 f.d && okG f.a && okB 32 f.b, .vgath (toCls f.sub) sz (toV f.d) (toG f.a) (toV f.b) (BitVec.ofNat 16 f.i16)))
  | 0x89 =>
    row (do let sz ← memSize? (f.x14 / 4 % 8); some (f.x14 / 32 == 0 && f.x14 % 4 == 0, okB 32 f.d && okG f.a && okB 32 f.b, .vscat (toCls f.sub) sz (toV f.d) (toG f.a) (toV f.b) (BitVec.ofNat 16 f.i16)))
  | _ => .error 1

/-- Majors 0x8A to 0x92: axes, masks, functions, dot products, random bits and packing (R245 to R258). -/
def decodeVec2 (f : Fields) : Except Nat Instr :=
  match f.maj with
  | 0x8a =>
    match f.sub with
    | 0 =>
      row (some (f.b == 0 && f.c == 0 && decide (f.x < 64), okB 32 f.d && okB 32 f.a, .vrrot (toV f.d) (toV f.a) (Fin.ofNat 64 f.x)))
    | 1 =>
      row (some (f.b == 0 && f.c == 0 && decide (f.x < 64), okB 32 f.d && okB 32 f.a, .vrbc (toV f.d) (toV f.a) (Fin.ofNat 64 f.x)))
    | 2 =>
      row (do let ty ← elemTy? (f.x / 2 ^ 19); let rm ← rmSel? (f.x / 2 ^ 16 % 8); let op ← below? 3 (f.x % 8); some (f.b == 0 && f.c == 0 && f.x / 8 % 2 ^ 12 == 0, okB 32 f.d && okB 32 f.a, .vrred ty rm (f.x / 2 ^ 15 % 2 == 1) op (toV f.d) (toV f.a)))
    | 3 =>
      row (do let ty ← elemTy? (f.x / 2 ^ 19); let rm ← rmSel? (f.x / 2 ^ 16 % 8); let op ← below? 3 (f.x % 8); some (f.b == 0 && f.c == 0 && f.x / 8 % 2 ^ 12 == 0, okB 32 f.d && okB 32 f.a, .vrscan ty rm (f.x / 2 ^ 15 % 2 == 1) op (toV f.d) (toV f.a)))
    | _ => .error 2
  | 0x8b =>
    match f.sub with
    | 0 =>
      row (some (f.b == 0 && f.c == 0 && decide (f.x < 16), okB 32 f.d && okB 32 f.a, .vcrot (toV f.d) (toV f.a) (Fin.ofNat 16 f.x)))
    | 1 =>
      row (some (f.b == 0 && f.c == 0 && decide (f.x < 16), okB 32 f.d && okB 32 f.a, .vcbc (toV f.d) (toV f.a) (Fin.ofNat 16 f.x)))
    | 2 =>
      row (do let ty ← elemTy? (f.x / 2 ^ 19); let rm ← rmSel? (f.x / 2 ^ 16 % 8); let op ← below? 3 (f.x % 8); some (f.b == 0 && f.c == 0 && f.x / 8 % 2 ^ 12 == 0, okB 32 f.d && okB 32 f.a, .vcred ty rm (f.x / 2 ^ 15 % 2 == 1) op (toV f.d) (toV f.a)))
    | 3 =>
      row (do let ty ← elemTy? (f.x / 2 ^ 19); let rm ← rmSel? (f.x / 2 ^ 16 % 8); let op ← below? 3 (f.x % 8); some (f.b == 0 && f.c == 0 && f.x / 8 % 2 ^ 12 == 0, okB 32 f.d && okB 32 f.a, .vcscan ty rm (f.x / 2 ^ 15 % 2 == 1) op (toV f.d) (toV f.a)))
    | _ => .error 2
  | 0x8c =>
    match f.sub with
    | 0 =>
      row (some (f.b == 0 && f.c == 0 && f.x == 0, okB 32 f.d && okB 32 f.a, .vtrp (toV f.d) (toV f.a)))
    | 1 =>
      row (some (f.c == 0 && f.x == 0, okB 32 f.d && okB 32 f.a && okB 32 f.b, .vperm (toV f.d) (toV f.a) (toV f.b)))
    | _ => .error 2
  | 0x8d =>
    match f.sub with
    | 0 =>
      row (some (f.d == 0 && f.b == 0 && f.c == 0 && f.x == 0, okB 32 f.a, .mpush (toV f.a)))
    | 1 =>
      row (some (f.d == 0 && f.a == 0 && f.b == 0 && f.c == 0 && f.x == 0, true, .minv))
    | 2 =>
      row (some (f.d == 0 && f.a == 0 && f.b == 0 && f.c == 0 && f.x == 0, true, .mpop))
    | 3 =>
      row (some (f.d == 0 && f.b == 0 && f.c == 0 && f.x == 0, okB 32 f.a, .mand (toV f.a)))
    | _ => .error 2
  | 0x8e =>
    match f.sub with
    | 0 =>
      row (some (f.b == 0 && f.c == 0 && f.x == 2 * 2 ^ 19, okB 32 f.d && okB 32 f.a, .vexpf (toV f.d) (toV f.a)))
    | 1 =>
      row (some (f.b == 0 && f.c == 0 && f.x == 2 * 2 ^ 19, okB 32 f.d && okB 32 f.a, .vexpx (toV f.d) (toV f.a)))
    | 2 =>
      row (some (f.b == 0 && f.c == 0 && f.x == 2 * 2 ^ 19, okB 32 f.d && okB 32 f.a, .vlogf (toV f.d) (toV f.a)))
    | 3 =>
      row (some (f.b == 0 && f.c == 0 && f.x == 2 * 2 ^ 19, okB 32 f.d && okB 32 f.a, .vlogx (toV f.d) (toV f.a)))
    | 4 =>
      row (some (f.b == 0 && f.c == 0 && f.x == 2 * 2 ^ 19, okB 32 f.d && okB 32 f.a, .vrcpf (toV f.d) (toV f.a)))
    | 5 =>
      row (some (f.b == 0 && f.c == 0 && f.x == 2 * 2 ^ 19, okB 32 f.d && okB 32 f.a, .vrcpx (toV f.d) (toV f.a)))
    | 6 =>
      row (some (f.b == 0 && f.c == 0 && f.x == 2 * 2 ^ 19, okB 32 f.d && okB 32 f.a, .vrsqf (toV f.d) (toV f.a)))
    | 7 =>
      row (some (f.b == 0 && f.c == 0 && f.x == 2 * 2 ^ 19, okB 32 f.d && okB 32 f.a, .vrsqx (toV f.d) (toV f.a)))
    | _ => .error 2
  | 0x8f =>
    match f.sub with
    | 0 =>
      row (some (f.b == 0 && f.c == 0 && f.x == 2 * 2 ^ 19, okB 32 f.d && okB 32 f.a, .vsinf (toV f.d) (toV f.a)))
    | 1 =>
      row (some (f.b == 0 && f.c == 0 && f.x == 2 * 2 ^ 19, okB 32 f.d && okB 32 f.a, .vsinx (toV f.d) (toV f.a)))
    | 2 =>
      row (some (f.b == 0 && f.c == 0 && f.x == 2 * 2 ^ 19, okB 32 f.d && okB 32 f.a, .vcosf (toV f.d) (toV f.a)))
    | 3 =>
      row (some (f.b == 0 && f.c == 0 && f.x == 2 * 2 ^ 19, okB 32 f.d && okB 32 f.a, .vcosx (toV f.d) (toV f.a)))
    | 4 =>
      row (some (f.b == 0 && f.c == 0 && f.x == 2 * 2 ^ 19, okB 32 f.d && okB 32 f.a, .vtanhf (toV f.d) (toV f.a)))
    | 5 =>
      row (some (f.b == 0 && f.c == 0 && f.x == 2 * 2 ^ 19, okB 32 f.d && okB 32 f.a, .vtanhx (toV f.d) (toV f.a)))
    | _ => .error 2
  | 0x90 =>
    match f.sub with
    | 0 =>
      row (some ((f.x / 2 ^ 19 == 5 || f.x / 2 ^ 19 == 6) && (f.x / 2 ^ 10 % 32 == 5 || f.x / 2 ^ 10 % 32 == 6) && f.x / 2 ^ 15 % 16 == 0 && f.x / 4 % 2 ^ 8 == 0, okB 32 f.d && okB 32 f.a && okB 32 f.b && okB 32 f.c, .vdot8 (f.x / 2 ^ 19 == 6) (f.x / 2 ^ 10 % 32 == 6) (Fin.ofNat 4 f.x) (toV f.d) (toV f.a) (toV f.b) (toV f.c)))
    | 1 =>
      row (do let rm ← rmSel? (f.x / 2 ^ 16 % 8); some (f.x / 2 ^ 19 == 3 && f.x / 4 % 2 ^ 13 == 0, okB 32 f.d && okB 32 f.a && okB 32 f.b && okB 32 f.c, .vdotb rm (f.x / 2 ^ 15 % 2 == 1) (Fin.ofNat 4 f.x) (toV f.d) (toV f.a) (toV f.b) (toV f.c)))
    | 2 =>
      row (do let rm ← rmSel? (f.x / 2 ^ 16 % 8); some (f.c == 0 && (f.x / 2 ^ 19 == 2 || f.x / 2 ^ 19 == 3) && f.x / 4 % 2 ^ 13 == 0, okB 32 f.d && okB 32 f.a && okB 32 f.b, .vscl (f.x / 2 ^ 19 == 3) rm (f.x / 2 ^ 15 % 2 == 1) (Fin.ofNat 4 f.x) (toV f.d) (toV f.a) (toV f.b)))
    | _ => .error 2
  | 0x91 =>
    match f.sub with
    | 0 =>
      row (some (f.a == 0 && f.b == 0 && f.c == 0 && f.x == 0, okB 32 f.d, .vrng (toV f.d)))
    | _ => .error 2
  | 0x92 =>
    match f.sub with
    | 0 =>
      row (do let ty ← elemTy? (f.x / 2 ^ 19); some (f.b == 0 && f.c == 0 && f.x / 2 ^ 7 % 2 ^ 12 == 0, okB 32 f.d && okB 32 f.a, .vpkp ty (f.x / 2 ^ 6 % 2 == 1) (Fin.ofNat 64 f.x) (toV f.d) (toV f.a)))
    | 1 =>
      row (some (f.b == 0 && f.c == 0 && f.x / 2 ^ 15 == 0 && f.x / 2 ^ 4 % 16 == 0, okB 32 f.d && okB 32 f.a, .vxtp (Fin.ofNat 128 (f.x / 2 ^ 8)) (Fin.ofNat 16 f.x) (toV f.d) (toV f.a)))
    | _ => .error 2
  | _ => .error 1

/-- The REP prefix (Table 7.5); its operand is checked when it executes (R158). -/
def decodeRep (f : Fields) : Except Nat Instr :=
  row (some (f.sub == 0 && f.gn == 0 && f.gp == 0 && f.low == 0, true,
    .rep (Fin.ofNat 64 f.d) (BitVec.ofNat 4 (f.a / 4)) (Fin.ofNat 4 f.a)))

/-- The instruction of a word's fields, or the number of the check of R154 that fails first. -/
def decodeFields (f : Fields) : Except Nat Instr :=
  if f.maj < 0x30 then decodeInt f
  else if f.maj < 0x40 then decodeFp f
  else if f.maj < 0x60 then decodeControl f
  else if f.maj < 0x70 || f.maj == 0x72 || f.maj == 0x73 then decodeMem f
  else if f.maj < 0x80 then decodeSync f
  else if f.maj < 0x84 then decodeVec f
  else if f.maj < 0x8A then decodeVMem f
  else if f.maj == 0xFC then decodeRep f
  else decodeVec2 f

/-- R154: the word's guard and instruction, or the number of the first failing check. -/
def decode (w : Word) : Except Nat Guarded :=
  let f := fieldsOf w.toNat
  match decodeFields f with
  | .ok i => .ok ⟨f.gn == 1, to8 f.gp, i⟩
  | .error n => .error n


/-- Fields with a clear guard. -/
def mkFields (maj sub d a low : Nat) : Option Fields := some ⟨maj, sub, 0, 0, d, a, low⟩

/-- The encodings of the words that `decodeInt` decodes. -/
def encInt (i : Instr) : Option Fields :=
  match i with
  | .nop => mkFields 0x01 0 0 0 (0)
  | .add d a b => mkFields 0x02 0 d.val a.val (b.val * 2 ^ 30)
  | .sub d a b => mkFields 0x02 1 d.val a.val (b.val * 2 ^ 30)
  | .mul d a b => mkFields 0x02 2 d.val a.val (b.val * 2 ^ 30)
  | .mulhs d a b => mkFields 0x02 3 d.val a.val (b.val * 2 ^ 30)
  | .mulhn d a b => mkFields 0x02 4 d.val a.val (b.val * 2 ^ 30)
  | .divs d a b => mkFields 0x03 0 d.val a.val (b.val * 2 ^ 30)
  | .divn d a b => mkFields 0x03 1 d.val a.val (b.val * 2 ^ 30)
  | .rems d a b => mkFields 0x03 2 d.val a.val (b.val * 2 ^ 30)
  | .remn d a b => mkFields 0x03 3 d.val a.val (b.val * 2 ^ 30)
  | .and d a b => mkFields 0x04 0 d.val a.val (b.val * 2 ^ 30)
  | .or d a b => mkFields 0x04 1 d.val a.val (b.val * 2 ^ 30)
  | .xor d a b => mkFields 0x04 2 d.val a.val (b.val * 2 ^ 30)
  | .andn d a b => mkFields 0x04 3 d.val a.val (b.val * 2 ^ 30)
  | .shl d a b => mkFields 0x05 0 d.val a.val (b.val * 2 ^ 30)
  | .shrl d a b => mkFields 0x05 1 d.val a.val (b.val * 2 ^ 30)
  | .shra d a b => mkFields 0x05 2 d.val a.val (b.val * 2 ^ 30)
  | .rotl d a b => mkFields 0x05 3 d.val a.val (b.val * 2 ^ 30)
  | .clz d a => mkFields 0x06 0 d.val a.val (0)
  | .ctz d a => mkFields 0x06 1 d.val a.val (0)
  | .popc d a => mkFields 0x06 2 d.val a.val (0)
  | .sext d a n => mkFields 0x06 3 d.val a.val (n.val)
  | .mins d a b => mkFields 0x07 0 d.val a.val (b.val * 2 ^ 30)
  | .minn d a b => mkFields 0x07 1 d.val a.val (b.val * 2 ^ 30)
  | .maxs d a b => mkFields 0x07 2 d.val a.val (b.val * 2 ^ 30)
  | .maxn d a b => mkFields 0x07 3 d.val a.val (b.val * 2 ^ 30)
  | .sel d a b c => mkFields 0x07 4 d.val a.val (b.val * 2 ^ 30 + c.val * 2 ^ 24)
  | .bfxs d a lo w => mkFields 0x08 0 d.val a.val (w.val * 2 ^ 8 + lo.val)
  | .bfxn d a lo w => mkFields 0x08 1 d.val a.val (w.val * 2 ^ 8 + lo.val)
  | .bfi d a lo w => mkFields 0x08 2 d.val a.val (w.val * 2 ^ 8 + lo.val)
  | .cmpeq d a b => mkFields 0x09 0 d.val a.val (b.val * 2 ^ 30)
  | .cmpne d a b => mkFields 0x09 1 d.val a.val (b.val * 2 ^ 30)
  | .cmplts d a b => mkFields 0x09 2 d.val a.val (b.val * 2 ^ 30)
  | .cmples d a b => mkFields 0x09 3 d.val a.val (b.val * 2 ^ 30)
  | .cmpltn d a b => mkFields 0x09 4 d.val a.val (b.val * 2 ^ 30)
  | .cmplen d a b => mkFields 0x09 5 d.val a.val (b.val * 2 ^ 30)
  | .addi d a i => mkFields 0x0a 0 d.val a.val (i.toNat)
  | .andi d a i => mkFields 0x0a 1 d.val a.val (i.toNat)
  | .ori d a i => mkFields 0x0a 2 d.val a.val (i.toNat)
  | .xori d a i => mkFields 0x0a 3 d.val a.val (i.toNat)
  | .shli d a n => mkFields 0x0a 4 d.val a.val (n.val)
  | .movi d i => mkFields 0x0b 0 d.val 0 (i.toNat)
  | .movh d i => mkFields 0x0b 1 d.val 0 (i.toNat)
  | .lea d a b s off => mkFields 0x0c 0 d.val a.val (b.val * 2 ^ 30 + s.val * 2 ^ 16 + off.toNat)
  | .pand d a b => mkFields 0x0d 0 d.val a.val (b.val * 2 ^ 30)
  | .por d a b => mkFields 0x0d 1 d.val a.val (b.val * 2 ^ 30)
  | .pxor d a b => mkFields 0x0d 2 d.val a.val (b.val * 2 ^ 30)
  | .pnot d a => mkFields 0x0d 3 d.val a.val (0)
  | .prsave d => mkFields 0x0e 0 d.val 0 (0)
  | .prload a => mkFields 0x0e 1 0 a.val (0)
  | _ => none

/-- The encodings of the words that `decodeFp` decodes. -/
def encFp (i : Instr) : Option Fields :=
  match i with
  | .fadd dbl rm d a b => mkFields 0x30 0 d.val a.val (b.val * 2 ^ 30 + bit dbl * 2 ^ 23 + rmCode rm * 2 ^ 20)
  | .fsub dbl rm d a b => mkFields 0x30 1 d.val a.val (b.val * 2 ^ 30 + bit dbl * 2 ^ 23 + rmCode rm * 2 ^ 20)
  | .fmul dbl rm d a b => mkFields 0x30 2 d.val a.val (b.val * 2 ^ 30 + bit dbl * 2 ^ 23 + rmCode rm * 2 ^ 20)
  | .ffma dbl rm d a b c => mkFields 0x30 3 d.val a.val (b.val * 2 ^ 30 + c.val * 2 ^ 24 + bit dbl * 2 ^ 23 + rmCode rm * 2 ^ 20)
  | .fdiv dbl rm d a b => mkFields 0x30 4 d.val a.val (b.val * 2 ^ 30 + bit dbl * 2 ^ 23 + rmCode rm * 2 ^ 20)
  | .fsqrt dbl rm d a => mkFields 0x30 5 d.val a.val (bit dbl * 2 ^ 23 + rmCode rm * 2 ^ 20)
  | .fmin dbl d a b => mkFields 0x31 0 d.val a.val (b.val * 2 ^ 30 + bit dbl * 2 ^ 23)
  | .fmax dbl d a b => mkFields 0x31 1 d.val a.val (b.val * 2 ^ 30 + bit dbl * 2 ^ 23)
  | .fcmp dbl d a b c => mkFields 0x31 2 d.val a.val (b.val * 2 ^ 30 + bit dbl * 2 ^ 23 + c.val)
  | .fcls dbl d a => mkFields 0x31 3 d.val a.val (bit dbl * 2 ^ 23)
  | .fsgn dbl d a b o => mkFields 0x31 4 d.val a.val (b.val * 2 ^ 30 + bit dbl * 2 ^ 23 + o.val)
  | .fcvt k dbl rm d a => mkFields 0x32 0 d.val a.val (bit dbl * 2 ^ 23 + rmCode rm * 2 ^ 20 + k.val * 2 ^ 16)
  | _ => none

/-- The encodings of the words that `decodeControl` decodes. -/
def encControl (i : Instr) : Option Fields :=
  match i with
  | .br i => mkFields 0x40 0 0 0 (i.toNat)
  | .bc m a i => mkFields 0x40 1 0 a.val (m.val * 2 ^ 32 + i.toNat)
  | .bwe w j i => mkFields 0x40 2 0 w.val (j.val * 2 ^ 32 + i.toNat)
  | .bmz i => mkFields 0x40 3 0 0 (i.toNat)
  | .brl d a => mkFields 0x41 0 d.val a.val (0)
  | .callr a => mkFields 0x41 1 0 a.val (0)
  | .ret => mkFields 0x41 2 0 0 (0)
  | .call i => mkFields 0x42 0 0 0 (i.toNat)
  | .loop lc n e => mkFields 0x43 0 lc.val 0 (n.toNat * 2 ^ 16 + e.toNat)
  | .loopr lc a e => mkFields 0x43 1 lc.val a.val (e.toNat)
  | .lbrk lc i => mkFields 0x43 2 lc.val 0 (i.toNat)
  | .gset gs a => mkFields 0x44 0 gs.val a.val (0)
  | .gclr gs => mkFields 0x44 1 gs.val 0 (0)
  | .safe groups live => mkFields 0x45 0 (groups.toNat / 4) (groups.toNat % 4 * 16) (live.toNat)
  | .exit => mkFields 0x46 0 0 0 (0)
  | .trap n => mkFields 0x46 1 0 0 (n.toNat)
  | .rte => mkFields 0x46 2 0 0 (0)
  | .wbind w a => mkFields 0x50 0 w.val a.val (0)
  | .wstep w n => mkFields 0x50 1 w.val 0 (n.toNat)
  | .wpos d w s => mkFields 0x50 2 d.val w.val (s.val)
  | .wrst w => mkFields 0x50 3 w.val 0 (0)
  | .spadj i => mkFields 0x51 0 0 0 (i.toNat)
  | .spmov d i => mkFields 0x51 1 d.val 0 i.toNat
  | .spmovSp a i => mkFields 0x51 1 0 a.val (2 ^ 32 + i.toNat)
  | .shard d w => mkFields 0x52 0 d.val 0 (w.val)
  | .batch d a w => mkFields 0x52 1 d.val a.val (w.val)
  | .need d a b once => mkFields 0x52 2 d.val a.val (b.val * 2 ^ 30 + bit once)
  | .unpin => mkFields 0x52 3 0 0 (0)
  | .enq a => mkFields 0x53 0 0 a.val (0)
  | .enqr base => mkFields 0x53 1 0 (8 * base.val + 8) 0
  | .acfree a => mkFields 0x54 0 0 a.val (0)
  | .gwset i => mkFields 0x5c 0 0 0 (i.toNat)
  | .acalloc d i => mkFields 0x5c 1 d.val 0 (i.toNat)
  | .kva d a i => mkFields 0x5c 2 d.val a.val (i.toNat)
  | _ => none

/-- The encodings of the words that `decodeMem` decodes. -/
def encMem (i : Instr) : Option Fields :=
  match i with
  | .ld cls sz d a off => mkFields 0x60 cls.val d.val a.val (sz.code * 2 ^ 18 + off.toNat)
  | .st cls sz d a off => mkFields 0x61 cls.val d.val a.val (sz.code * 2 ^ 18 + off.toNat)
  | .ldw cls sz d w => mkFields 0x62 cls.val d.val w.val (sz.code * 2 ^ 18)
  | .stw cls sz d w => mkFields 0x63 cls.val d.val w.val (sz.code * 2 ^ 18)
  | .ldp cls d b a off => mkFields 0x64 cls.val d.val a.val (b.val * 2 ^ 30 + 6 * 2 ^ 18 + off.toNat)
  | .stp cls d b a off => mkFields 0x65 cls.val d.val a.val (b.val * 2 ^ 30 + 6 * 2 ^ 18 + off.toNat)
  | .ldacq cls obs sz d a off => mkFields 0x66 cls.val d.val a.val (obs.toNat * 2 ^ 21 + sz.code * 2 ^ 18 + off.toNat)
  | .strel cls obs sz d a off => mkFields 0x67 cls.val d.val a.val (obs.toNat * 2 ^ 21 + sz.code * 2 ^ 18 + off.toNat)
  | .fence mask => mkFields 0x68 0 0 0 (mask.toNat)
  | .fenceo mask obs => mkFields 0x69 0 0 0 (obs.toNat * 2 ^ 21 + mask.toNat)
  | .aadd cls obs sz d b a off => mkFields 0x6A cls.val d.val a.val (b.val * 2 ^ 30 + 0 * 2 ^ 26 + obs.toNat * 2 ^ 21 + sz.code * 2 ^ 18 + off.toNat)
  | .aand cls obs sz d b a off => mkFields 0x6A cls.val d.val a.val (b.val * 2 ^ 30 + 1 * 2 ^ 26 + obs.toNat * 2 ^ 21 + sz.code * 2 ^ 18 + off.toNat)
  | .aor cls obs sz d b a off => mkFields 0x6A cls.val d.val a.val (b.val * 2 ^ 30 + 2 * 2 ^ 26 + obs.toNat * 2 ^ 21 + sz.code * 2 ^ 18 + off.toNat)
  | .axor cls obs sz d b a off => mkFields 0x6A cls.val d.val a.val (b.val * 2 ^ 30 + 3 * 2 ^ 26 + obs.toNat * 2 ^ 21 + sz.code * 2 ^ 18 + off.toNat)
  | .amins cls obs sz d b a off => mkFields 0x6A cls.val d.val a.val (b.val * 2 ^ 30 + 4 * 2 ^ 26 + obs.toNat * 2 ^ 21 + sz.code * 2 ^ 18 + off.toNat)
  | .aminn cls obs sz d b a off => mkFields 0x6A cls.val d.val a.val (b.val * 2 ^ 30 + 5 * 2 ^ 26 + obs.toNat * 2 ^ 21 + sz.code * 2 ^ 18 + off.toNat)
  | .amaxs cls obs sz d b a off => mkFields 0x6A cls.val d.val a.val (b.val * 2 ^ 30 + 6 * 2 ^ 26 + obs.toNat * 2 ^ 21 + sz.code * 2 ^ 18 + off.toNat)
  | .amaxn cls obs sz d b a off => mkFields 0x6A cls.val d.val a.val (b.val * 2 ^ 30 + 7 * 2 ^ 26 + obs.toNat * 2 ^ 21 + sz.code * 2 ^ 18 + off.toNat)
  | .axch cls obs sz d b a off => mkFields 0x6A cls.val d.val a.val (b.val * 2 ^ 30 + 8 * 2 ^ 26 + obs.toNat * 2 ^ 21 + sz.code * 2 ^ 18 + off.toNat)
  | .acas cls obs sz d b a off => mkFields 0x6b cls.val d.val a.val (b.val * 2 ^ 30 + obs.toNat * 2 ^ 21 + sz.code * 2 ^ 18 + off.toNat)
  | .afadd cls obs dbl d b a off => mkFields 0x6C cls.val d.val a.val (b.val * 2 ^ 30 + obs.toNat * 2 ^ 21 + (4 + 2 * bit dbl) * 2 ^ 18 + off.toNat)
  | .sigadd cls obs b a off => mkFields 0x72 cls.val 0 a.val (b.val * 2 ^ 30 + obs.toNat * 2 ^ 21 + 6 * 2 ^ 18 + off.toNat)
  | .sigmax cls obs b a off => mkFields 0x73 cls.val 0 a.val (b.val * 2 ^ 30 + obs.toNat * 2 ^ 21 + 6 * 2 ^ 18 + off.toNat)
  | _ => none

/-- The encodings of the words that `decodeSync` decodes. -/
def encSync (i : Instr) : Option Fields :=
  match i with
  | .bara d sc i => mkFields 0x70 0 d.val 0 (sc.code * 2 ^ 27 + i.toNat)
  | .barw sc i a => mkFields 0x70 1 0 a.val (sc.code * 2 ^ 27 + i.toNat)
  | .bar sc i => mkFields 0x70 2 0 0 (sc.code * 2 ^ 27 + i.toNat)
  | .barq d sc i => mkFields 0x70 3 d.val 0 (sc.code * 2 ^ 27 + i.toNat)
  | .barc sc i a => mkFields 0x70 4 0 a.val (sc.code * 2 ^ 27 + i.toNat)
  | .tokw mask => mkFields 0x71 0 0 0 (mask.toNat)
  | .sigw obs d a b cmp lim => mkFields 0x74 0 d.val a.val (b.val * 2 ^ 30 + cmp.val * 2 ^ 28 + obs.toNat * 2 ^ 21 + 6 * 2 ^ 18 + lim.toNat)
  | .merge => mkFields 0x75 0 0 0 (0)
  | .ctlrd d n => mkFields 0x78 0 d.val 0 (n.toNat)
  | .ctlwr n a => mkFields 0x78 1 0 a.val n.toNat
  | .qcreate a => mkFields 0x78 1 0 a.val 0x200
  | .qkill a => mkFields 0x78 1 0 a.val 0x201
  | .ctlset n a => mkFields 0x78 2 0 a.val (n.toNat)
  | .ctlclr n a => mkFields 0x78 3 0 a.val (n.toNat)
  | .tmark a b r s => mkFields 0x79 0 0 a.val (b.val * 2 ^ 30 + s.val * 4 + r.val)
  | .icfence => mkFields 0x79 1 0 0 (0)
  | .tick d => mkFields 0x79 2 d.val 0 (0)
  | _ => none

/-- The encodings of the words that `decodeVec` decodes. -/
def encVec (i : Instr) : Option Fields :=
  match i with
  | .vadd ty rm sat d a b => mkFields 0x80 0 d.val a.val (b.val * 2 ^ 30 + ty.code * 2 ^ 19 + rmCode rm * 2 ^ 16 + bit sat * 2 ^ 15)
  | .vsub ty rm sat d a b => mkFields 0x80 1 d.val a.val (b.val * 2 ^ 30 + ty.code * 2 ^ 19 + rmCode rm * 2 ^ 16 + bit sat * 2 ^ 15)
  | .vmul ty rm sat d a b => mkFields 0x80 2 d.val a.val (b.val * 2 ^ 30 + ty.code * 2 ^ 19 + rmCode rm * 2 ^ 16 + bit sat * 2 ^ 15)
  | .vfma ty rm sat d a b c => mkFields 0x80 3 d.val a.val (b.val * 2 ^ 30 + c.val * 2 ^ 24 + ty.code * 2 ^ 19 + rmCode rm * 2 ^ 16 + bit sat * 2 ^ 15)
  | .vmin ty d a b => mkFields 0x80 4 d.val a.val (b.val * 2 ^ 30 + ty.code * 2 ^ 19)
  | .vmax ty d a b => mkFields 0x80 5 d.val a.val (b.val * 2 ^ 30 + ty.code * 2 ^ 19)
  | .vabs ty sat d a => mkFields 0x80 6 d.val a.val (ty.code * 2 ^ 19 + bit sat * 2 ^ 15)
  | .vneg ty sat d a => mkFields 0x80 7 d.val a.val (ty.code * 2 ^ 19 + bit sat * 2 ^ 15)
  | .vand d a b => mkFields 0x81 0 d.val a.val (b.val * 2 ^ 30)
  | .vor d a b => mkFields 0x81 1 d.val a.val (b.val * 2 ^ 30)
  | .vxor d a b => mkFields 0x81 2 d.val a.val (b.val * 2 ^ 30)
  | .vnot d a => mkFields 0x81 3 d.val a.val (0)
  | .vshl ty d a b => mkFields 0x81 4 d.val a.val (b.val * 2 ^ 30 + ty.code * 2 ^ 19)
  | .vshr ty d a b => mkFields 0x81 5 d.val a.val (b.val * 2 ^ 30 + ty.code * 2 ^ 19)
  | .vsha ty d a b => mkFields 0x81 6 d.val a.val (b.val * 2 ^ 30 + ty.code * 2 ^ 19)
  | .vcmp ty d a b c => mkFields 0x82 0 d.val a.val (b.val * 2 ^ 30 + ty.code * 2 ^ 19 + c.val)
  | .vsel d a b c => mkFields 0x82 1 d.val a.val (b.val * 2 ^ 30 + c.val * 2 ^ 24)
  | .vmov d a => mkFields 0x82 2 d.val a.val 0
  | .vmovExtract d a row col => mkFields 0x82 2 d.val a.val (2 ^ 13 + row.val * 2 ^ 6 + col.val)
  | .vmovInsert d a row col => mkFields 0x82 2 d.val a.val (2 * 2 ^ 13 + row.val * 2 ^ 6 + col.val)
  | .vbc d a => mkFields 0x82 3 d.val a.val (0)
  | .vcvt s t part rm sat d a => mkFields 0x83 0 d.val a.val (s.code * 2 ^ 19 + rmCode rm * 2 ^ 16 + bit sat * 2 ^ 15 + t.code * 2 ^ 10 + part.val * 2 ^ 7)
  | _ => none

/-- The encodings of the words that `decodeVMem` decodes. -/
def encVMem (i : Instr) : Option Fields :=
  match i with
  | .vld cls sz d a b off => mkFields 0x84 cls.val d.val a.val (b.val * 2 ^ 30 + sz.code * 2 ^ 18 + off.toNat)
  | .vst cls sz d a b off => mkFields 0x85 cls.val d.val a.val (b.val * 2 ^ 30 + sz.code * 2 ^ 18 + off.toNat)
  | .vldw cls sz d w b => mkFields 0x86 cls.val d.val w.val (b.val * 2 ^ 30 + sz.code * 2 ^ 18)
  | .vstw cls sz d w b => mkFields 0x87 cls.val d.val w.val (b.val * 2 ^ 30 + sz.code * 2 ^ 18)
  | .vgath cls sz d a b off => mkFields 0x88 cls.val d.val a.val (b.val * 2 ^ 30 + sz.code * 2 ^ 18 + off.toNat)
  | .vscat cls sz d a b off => mkFields 0x89 cls.val d.val a.val (b.val * 2 ^ 30 + sz.code * 2 ^ 18 + off.toNat)
  | _ => none

/-- The encodings of the words that `decodeVec2` decodes. -/
def encVec2 (i : Instr) : Option Fields :=
  match i with
  | .vrrot d a n => mkFields 0x8a 0 d.val a.val (n.val)
  | .vrbc d a n => mkFields 0x8a 1 d.val a.val (n.val)
  | .vcrot d a n => mkFields 0x8b 0 d.val a.val (n.val)
  | .vcbc d a n => mkFields 0x8b 1 d.val a.val (n.val)
  | .vrred ty rm sat op d a => mkFields 0x8a 2 d.val a.val (ty.code * 2 ^ 19 + rmCode rm * 2 ^ 16 + bit sat * 2 ^ 15 + op.val)
  | .vrscan ty rm sat op d a => mkFields 0x8a 3 d.val a.val (ty.code * 2 ^ 19 + rmCode rm * 2 ^ 16 + bit sat * 2 ^ 15 + op.val)
  | .vcred ty rm sat op d a => mkFields 0x8b 2 d.val a.val (ty.code * 2 ^ 19 + rmCode rm * 2 ^ 16 + bit sat * 2 ^ 15 + op.val)
  | .vcscan ty rm sat op d a => mkFields 0x8b 3 d.val a.val (ty.code * 2 ^ 19 + rmCode rm * 2 ^ 16 + bit sat * 2 ^ 15 + op.val)
  | .vtrp d a => mkFields 0x8c 0 d.val a.val (0)
  | .vperm d a b => mkFields 0x8c 1 d.val a.val (b.val * 2 ^ 30)
  | .mpush a => mkFields 0x8d 0 0 a.val (0)
  | .minv => mkFields 0x8d 1 0 0 (0)
  | .mpop => mkFields 0x8d 2 0 0 (0)
  | .mand a => mkFields 0x8d 3 0 a.val (0)
  | .vexpf d a => mkFields 0x8e 0 d.val a.val (2 * 2 ^ 19)
  | .vexpx d a => mkFields 0x8e 1 d.val a.val (2 * 2 ^ 19)
  | .vlogf d a => mkFields 0x8e 2 d.val a.val (2 * 2 ^ 19)
  | .vlogx d a => mkFields 0x8e 3 d.val a.val (2 * 2 ^ 19)
  | .vrcpf d a => mkFields 0x8e 4 d.val a.val (2 * 2 ^ 19)
  | .vrcpx d a => mkFields 0x8e 5 d.val a.val (2 * 2 ^ 19)
  | .vrsqf d a => mkFields 0x8e 6 d.val a.val (2 * 2 ^ 19)
  | .vrsqx d a => mkFields 0x8e 7 d.val a.val (2 * 2 ^ 19)
  | .vsinf d a => mkFields 0x8f 0 d.val a.val (2 * 2 ^ 19)
  | .vsinx d a => mkFields 0x8f 1 d.val a.val (2 * 2 ^ 19)
  | .vcosf d a => mkFields 0x8f 2 d.val a.val (2 * 2 ^ 19)
  | .vcosx d a => mkFields 0x8f 3 d.val a.val (2 * 2 ^ 19)
  | .vtanhf d a => mkFields 0x8f 4 d.val a.val (2 * 2 ^ 19)
  | .vtanhx d a => mkFields 0x8f 5 d.val a.val (2 * 2 ^ 19)
  | .vdot8 ta tb h d a b c => mkFields 0x90 0 d.val a.val (b.val * 2 ^ 30 + c.val * 2 ^ 24 + (5 + bit ta) * 2 ^ 19 + (5 + bit tb) * 2 ^ 10 + h.val)
  | .vdotb rm sat h d a b c => mkFields 0x90 1 d.val a.val (b.val * 2 ^ 30 + c.val * 2 ^ 24 + 3 * 2 ^ 19 + rmCode rm * 2 ^ 16 + bit sat * 2 ^ 15 + h.val)
  | .vscl bf rm sat s d a b => mkFields 0x90 2 d.val a.val (b.val * 2 ^ 30 + (2 + bit bf) * 2 ^ 19 + rmCode rm * 2 ^ 16 + bit sat * 2 ^ 15 + s.val)
  | .vrng d => mkFields 0x91 0 d.val 0 (0)
  | .vpkp ty su part d a => mkFields 0x92 0 d.val a.val (ty.code * 2 ^ 19 + bit su * 2 ^ 6 + part.val)
  | .vxtp fd n d a => mkFields 0x92 1 d.val a.val (fd.val * 2 ^ 8 + n.val)
  | _ => none

/-- The encoding of the REP prefix (Table 7.5). -/
def encRep (i : Instr) : Option Fields :=
  match i with
  | .rep cnt step stride => mkFields 0xFC 0 cnt.val (step.toNat * 4 + stride.val) 0
  | _ => none

/-- The fields of an instruction's word, less its guard; none for a step that is no instruction word. -/
def Instr.fields? (i : Instr) : Option Fields :=
  encInt i <|> encFp i <|> encControl i <|> encMem i <|> encSync i <|> encVec i <|> encVMem i <|> encVec2 i <|> encRep i

/-- Is the step a 64-bit instruction word (Table 7.4), rather than a record's start or a device event? -/
def Instr.isWord (i : Instr) : Bool := i.fields?.isSome

/-- The word of a guarded instruction (Tables 7.1, 7.2, 7.4); none for a step that is no instruction word. -/
def encode (g : Guarded) : Option Word :=
  match g.instr.fields? with
  | some f => some (BitVec.ofNat 64 ({ f with gn := bit g.neg, gp := g.gp.val } : Fields).pack)
  | none => none

/-- The record whose word 0 is given (Table 7.6, Table 7.8, Table 12.2): OP in [63:56], FLAGS in [21:16]. Bit 0 of
FLAGS tells the stencil-table load of XCOPY and the set-up of XMLR apart, bit 1 the release of XSLAB. -/
def decodeRecord (w0 : Nat) : Option Instr :=
  let fl := w0 / 2 ^ 16 % 64
  match w0 / 2 ^ 56 % 256 with
  | 0x10 => some .pmul | 0x11 => some .pmulp | 0x12 => some .pxtp | 0x13 => some .pdotF64 | 0x14 => some .pdotF32
  | 0x15 => some .pdotBf16 | 0x16 => some .plog66 | 0x17 => some .plog68 | 0x18 => some .plog88 | 0x19 => some .pscale
  | 0x1A => some .pnorm | 0x1B => some .pdrain | 0x1C => some .pzero | 0x1D => some .pload
  | 0x40 => some (if fl % 2 = 1 then .xcopyTable else .xcopy) | 0x41 => some .xcvt | 0x42 => some .xfill
  | 0x43 => some .xgath | 0x44 => some .xscat | 0x45 => some .xrestr | 0x46 => some .xprol | 0x47 => some .xsten
  | 0x48 => some (if fl / 2 % 2 = 1 then .xslabRelease else .xslab) | 0x49 => some .xsend | 0x4A => some .xput
  | 0x4B => some .xget | 0x4C => some (if fl % 2 = 1 then .xmlrSetup else .xmlr) | 0x4D => some .xsig
  | 0x4E => some .xtmark
  | _ => none

/-- The instruction of a table row whose bits are w: a 64-bit word, or a record of eight words (nbits above 64). -/
def decodeTableWord (nbits w : Nat) : Option Instr :=
  if 64 < nbits then decodeRecord (w % 2 ^ 64)
  else
    match decode (BitVec.ofNat 64 w) with
    | .ok g => some g.instr
    | .error _ => none

end Sys2Proof
end

