-- ==== Sys2Proof/Machine/Fetch.lean ====
section
/-! DEFINITION. Fetching an instruction word from code memory with the patch overlay (R19, R40, R166), and the words of a
REP sequence (R157). -/

namespace Sys2Proof.Machine

/-- A word with its low 32 bits replaced (R40). -/
def overlay (w : Word) (p : Half) : Word := (w &&& 0xFFFFFFFF00000000) ||| p.zeroExtend 64

/-- The word of code memory that a fetch at an address returns: the one that stands there, or, where transfer records have replaced
it since the last ICFENCE, any of these and of those that they replaced (R221, entry 27). -/
def State.codeWord (s : State) (a : BitVec 17) : Word :=
  let w := s.word (codePA s.core.key + a.toNat)
  match s.core.oldCode.filter (fun e => e.1 = a.toNat) with
  | [] => w
  | l => ((w :: l.map (·.2))[Config.fetchPick s.core.fetches % (l.length + 1)]?).getD w

/-- The word at a code address, after the overlay of the task's patch table (R40). -/
def State.fetch (s : State) (a : BitVec 17) : Word :=
  let w := s.codeWord a
  match s.core.task with
  | some t =>
    match t.patches.find? (fun e => e.1 = a.toNat) with
    | some (_, n) => overlay w ((t.params[n]?).getD (Config.noParam n))
    | none => w
  | none => w

/-- The word of repeat i: each stepped register field names its number plus i × 2^STRIDE (R157). STEP bits 3 to 0 select
D, A, B and C. -/
def repWord (w : Word) (r : RepState) : Word :=
  let k := r.pos * 2 ^ r.stride.val
  let add := fun (x : Word) (on : Bool) (lo : Nat) => if on then x + BitVec.ofNat 64 (k * 2 ^ lo) else x
  add (add (add (add w (r.step.getLsbD 3) 42) (r.step.getLsbD 2) 36) (r.step.getLsbD 1) 30) (r.step.getLsbD 0) 24

/-- The word that the sequencer executes next: at the pc, or the next repeat of a REP sequence, fetched afresh for each (DESIGN CHOICE, entry
109). -/
def State.nextWord (s : State) : Word :=
  match s.core.rep with
  | some r => repWord (s.fetch (s.core.pc + 8)) r
  | none => s.fetch s.core.pc

/-- The word that a fault at a word boundary reports is the one that would execute next (Table 15.3). -/
def State.atBoundary (s : State) : State := { s with core := { s.core with ir := s.nextWord } }

/-- Store an instruction word in the current core's code memory: the only word that a fetch there can return. -/
def State.putCode (s : State) (a : BitVec 17) (w : Word) : State :=
  { s with core := { s.core with oldCode := s.core.oldCode.filter (fun e => e.1 ≠ a.toNat) } }.writeWord (codePA s.core.key + a.toNat) w

end Sys2Proof.Machine
end

