-- ==== Sys2Proof/Machine/Agents.lean ====
section
/-! DEFINITION. What the agents of a die, beside its cores, use: translation by the command processor, the launch unit and
the carousel (R80, R127), link cycles and their pace (R124, R138), the carousel's free space (R128), ring stalls (R136). -/

namespace Sys2Proof.Machine

/-! ### Translation outside a core -/

/-- Is it die scratchpad or host memory; or, for a signal, any memory but code memory that is not an accessing core's own (R384)? -/
def plainHome (sig : Bool) (t : Trans) (pa : Nat) : Bool :=
  paSpace pa == 0 || paSpace pa == 4 || (sig && !t.isLocal && (paSpace pa == 1 || paSpace pa == 2))

/-- The physical address of a virtual address in an address space, for an agent of a die: scratchpad of a die or host memory, which is
all that Table 11.1 lets it reach, but for a signal, on a page that allows the access; none where it does not translate (R80, R84, R298,
R384). -/
def State.agentPA (s : State) (k : DieKey) (asid : BitVec 16) (ptbase : Word) (va : Nat) (a : Access := .read) (sig : Bool := false) :
    Option Nat :=
  if 2 ^ 56 ≤ va then none
  else
    match walkFrom (fun pa => .ok (s.readNum pa 8)) asid va pageLevels ptbase.toNat with
    | .ok t =>
      let pa := t.pa ⟨k.pkg, k.die, 0⟩ va
      if validPA pa && plainHome sig t pa && (a == .write || t.r) && (a == .read || t.w) then some pa else none
    | .error _ => none

/-- n bytes at a virtual address, each through its own page; none where one does not translate. -/
def State.agentBytes (s : State) (k : DieKey) (asid : BitVec 16) (ptbase : Word) (va n : Nat) : Option (List Byte) :=
  let pages := (List.range ((va + n - 1) / 4096 - va / 4096 + 1)).map (fun i => s.agentPA k asid ptbase ((va / 4096 + i) * 4096))
  if pages.any (·.isNone) then none
  else some ((List.range n).map (fun i => s.readByte (((pages.getD ((va + i) / 4096 - va / 4096) none).getD 0) + (va + i) % 4096)))

/-- The physical address that a die register's virtual address stands for: through the binding's address space, where the
die has a binding; else, and where it does not translate, the same offset in the die's scratchpad (entry 15). -/
def State.diePA (s : State) (d : Die) (va : Nat) : Nat :=
  let plain := mkPA d.key.pkg d.key.die 0 (va % 2 ^ 42 % spaceSize 0)
  match d.binding with
  | some b => (s.agentPA d.key b.asid b.ptbase va).getD plain
  | none => plain

/-- Is a core fused off (R97)? -/
def State.fusedOff (s : State) (k : CoreKey) : Bool := (s.getPkg k.pkg).fused.contains (k.die, k.core)

/-! ### Link cycles (R124, R138) -/

/-- Paced link cycles among the first c at step k: the first 8 − k of each group of eight. -/
def pacedIn (k c : Nat) : Nat := c / 8 * (8 - k) + min (c % 8) (8 - k)

/-- Paced link cycles before link cycle c. -/
def Pace.paced (p : Pace) (c : Nat) : Nat :=
  if p.from_ ≤ c then p.count + (pacedIn p.step c - pacedIn p.step p.from_)
  else p.count - (pacedIn p.old p.from_ - pacedIn p.old c)

/-- Is link cycle c paced? -/
def Pace.isPaced (p : Pace) (c : Nat) : Bool := decide (c % 8 < 8 - p.stepAt c)

/-- Paced link cycles up to now. -/
def State.pacedNow (s : State) : Nat := s.ring.pace.paced s.linkCycle

/-- Another step from the first group of eight link cycles on that begins at or after link cycle c (R138). -/
def Pace.change (p : Pace) (k c : Nat) : Pace :=
  let g := (c + 7) / 8 * 8
  ⟨k, p.stepAt c, g, p.paced g⟩

/-- The a-th paced link cycle at step k, from 0. -/
def nthPaced (k a : Nat) : Nat := a / (8 - k) * 8 + a % (8 - k)

/-- The tick of the link cycle that n paced ones precede, under the step in force (R133). -/
def State.tickOfPaced (s : State) (n : Nat) : Nat :=
  let p := s.ring.pace
  (if p.from_ ≤ s.linkCycle ∧ p.count ≤ n then nthPaced p.step (pacedIn p.step p.from_ + (n - p.count))
    else nthPaced p.old (pacedIn p.old p.from_ + n - p.count)) / 8


/-! ### The registers of the ring (Tables 6.3 to 6.16); a value that is not listed acts as zero (R15) -/

def Die.dwell (d : Die) : Nat := bits d.rpace.toNat 31 0
def Die.svc (d : Die) : Nat := let n := bits d.rpace.toNat 47 32; if 16 ≤ n then n else 0
def Die.fps (d : Die) : Nat := bits d.rslot.toNat 20 0
def Die.seg (d : Die) : Nat := bits d.rslot.toNat 47 32
def Die.enabled (d : Die) : Bool := d.carcfg.getLsbD 63
def Die.stlow (d : Die) : Nat := bits d.carcfg.toNat 43 32
def Die.size (d : Die) : Nat := let n := bits d.carcfg.toNat 27 16; if 64 ≤ n ∧ n ≤ 2560 then n * 2 ^ 20 else 0
def Die.nom (d : Die) : Nat := bits d.carcfg.toNat 11 0
def Die.stlead (d : Die) : Nat := bits d.rstall.toNat 47 32
def Die.stallq (d : Die) : Nat := bits d.rstall.toNat 31 0
def Die.upsrc (d : Die) : Nat := bits d.rtrk.toNat 11 10
def Die.dndst (d : Die) : Nat := bits d.rtrk.toNat 9 8
def Die.carries (d : Die) : Bool := d.rtrk.getLsbD 2
def Die.transit (d : Die) : Bool := d.rtrk.getLsbD 1

/-- REPLAYS counts one more, saturating (Table 6.16). -/
def Die.countReplay (d : Die) : Die :=
  { d with rtrk := putBits d.rtrk 63 32 (min (bits d.rtrk.toNat 63 32 + 1) (2 ^ 32 - 1)) }

/-- RSTAT.MISSES and RSTAT.STALLS count one more, wrapping (Table 6.12). -/
def Die.countMiss (d : Die) : Die := { d with rstat := putBits d.rstat 31 0 (bits d.rstat.toNat 31 0 + 1) }
def Die.countStall (d : Die) : Die := { d with rstat := putBits d.rstat 63 32 (bits d.rstat.toNat 63 32 + 1) }

/-! ### The carousel (R128) -/

/-- Flits of a shard. -/
def Shard.flits (x : Shard) : Nat := (x.bytes + 479) / 480
/-- Bytes in the carousel that a shard takes. -/
def Shard.footprint (x : Shard) : Nat := (x.bytes + 63) / 64 * 64
/-- Has every flit been received (R122)? -/
def Shard.complete (x : Shard) : Bool := decide (x.flits ≤ x.got.length)
/-- Has every flit been sent? -/
def Shard.gone (x : Shard) : Bool := decide (x.flits ≤ x.sent.length)
/-- Is the shard's departure under way? -/
def Shard.leaving (x : Shard) : Bool := !x.sent.isEmpty && !x.gone
/-- Flits that have been sent, from the first on without a gap. -/
def Shard.passed (x : Shard) : Nat := ((List.range x.flits).takeWhile (fun i => x.sent.contains i)).length
/-- The physical address of byte i of a shard. -/
def Shard.pa (x : Shard) (size i : Nat) : Nat := x.region + (x.base + i) % (max size 1)

/-- The tail (R128): it frees bytes in arrival order, past flits that have been sent once the shard's pin count is zero. -/
def carouselTail (head : Nat) : List Shard → Nat
  | [] => head
  | x :: r => if x.pins = 0 then (if x.complete && x.gone then carouselTail head r else x.base + 480 * x.passed) else x.base

/-- Free space of the carousel. -/
def Die.free (d : Die) : Nat := d.size - (d.head - carouselTail d.head d.shards)

/-- Shards that the tail has passed are forgotten. -/
def dropPassed : List Shard → List Shard
  | [] => []
  | x :: r => if x.pins = 0 && x.complete && x.gone then dropPassed r else x :: r

/-! ### Ring stalls (R136, R141) -/

/-- A die with none of its own pending requests a ring stall: it chooses Ts, announces it to every die of the pod, and posts a ring event (R136, R137). -/
def State.requestStall (s : State) (k : DieKey) : State :=
  let d := s.getDie k
  if d.ownStall.isSome then s
  else
  let ts := s.tick + d.stlead
  let s := s.setDie { d with ownStall := some ts, stallReq := d.stallReq ++ [ts] }
  { s with ring := { s.ring with stalls := s.ring.stalls ++ [ts] } }.post 3 ⟨k.pkg, k.die, 0⟩ [BitVec.ofNat 64 d.free, BitVec.ofNat 64 ts]

/-- Request a stall where the free space has fallen below STLOW. -/
def State.checkSpace (s : State) (k : DieKey) : State :=
  let d := s.getDie k
  if d.enabled && decide (d.free < d.stlow * 2 ^ 20) then s.requestStall k else s

end Sys2Proof.Machine
end

