-- ==== Sys2Proof/Machine/Images.lean ====
section
/-! DEFINITION. Shusko images and launch parameter blocks: reading them and their checks (R35, R36, R39, R41, R43, R45, R46). -/

namespace Sys2Proof.Machine

/-! ### Reading fields -/

/-- Number of n bytes at an offset of a byte list. -/
def blockNum (bs : List Byte) (off n : Nat) : Nat := ofBytes ((bs.drop off ++ List.replicate n 0).take n)
/-- Bits [hi:lo] of word i of a byte list. -/
def blockBits (bs : List Byte) (i hi lo : Nat) : Nat := bits (blockNum bs (8 * i) 8) hi lo

/-! ### The Shusko image (Table 2.1) -/

/-- Code bytes that a core can hold (R37). -/
def codeLimit (codesz : Nat) : Nat := min codesz 131072

/-- The sections behind the header: offset and size, in their order (R35). -/
def imageSections (h : List Byte) : List (Nat × Nat) :=
  [(64, blockBits h 1 31 0), (blockBits h 2 31 0, 8 * blockBits h 2 47 32), (blockBits h 3 31 0, 16 * blockBits h 2 63 48),
    (blockBits h 3 63 32, blockBits h 4 31 0), (blockBits h 4 63 32, blockBits h 5 31 0)]

/-- The image ends at the end of the last section that is not empty (R35). -/
def imageSize (h : List Byte) : Nat :=
  (imageSections h).foldl (fun m x => if x.2 = 0 then m else max m (x.1 + x.2)) 64

/-- The sections are aligned, ascending and do not overlap; an empty one has offset zero (R35). -/
def sectionsOk : Nat → List (Nat × Nat) → Bool
  | _, [] => true
  | low, (off, n) :: r => if n = 0 then off == 0 && sectionsOk low r else off % 64 == 0 && decide (low ≤ off) && sectionsOk (off + n) r

/-- Does an entry point meet the limits of Table 2.1? -/
def entryOk (codesz e : Nat) : Bool := e % 8 == 0 && decide (e < codeLimit codesz)

/-- Sizes, counts and offsets of the header within their limits (Table 2.2, reason 3). -/
def imageLimits (h : List Byte) : Bool :=
  let codesz := blockBits h 1 31 0
  let ring := blockBits h 0 48 48 == 1
  let ntag := blockBits h 2 63 48
  let maxb := blockBits h 5 55 48
  let unitsz := blockBits h 6 31 0
  let constsz := blockBits h 5 31 0
  let stacksz := blockBits h 7 31 0
  entryOk codesz (blockBits h 1 63 32) && codesz % 8 == 0 && decide (8 ≤ codesz ∧ codesz ≤ 2 ^ 31)
    && (if ring then decide (1 ≤ ntag ∧ ntag ≤ 1024) && decide (1 ≤ maxb ∧ maxb ≤ 32) else ntag == 0 && maxb == 0)
    && decide (blockBits h 2 47 32 ≤ 4096) && blockBits h 4 31 0 % 16 == 0 && decide (blockBits h 5 63 56 ≤ 16)
    && decide (1 ≤ blockBits h 5 47 32) && blockBits h 6 63 32 % 4096 == 0 && unitsz % 4096 == 0
    && decide (4096 ≤ unitsz ∧ unitsz ≤ 1048576) && decide (constsz + 64 ≤ unitsz) && stacksz % 8 == 0
    && decide (stacksz + constsz + 64 ≤ unitsz)

/-- The patch table: OFFSET and PARAM (R39). -/
def imagePatches (bs : List Byte) : List (Nat × Nat) :=
  (List.range (blockBits bs 2 47 32)).map (fun i =>
    let e := blockNum bs (blockBits bs 2 31 0 + 8 * i) 8
    (bits e 31 0, bits e 47 32))

/-- Is the patch table in order (R39)? -/
def patchesOk (bs : List Byte) : Bool :=
  let l := imagePatches bs
  let lim := codeLimit (blockBits bs 1 31 0)
  l.all (fun p => p.1 % 8 == 0 && decide (p.1 < lim))
    && (l.zip (l.drop 1)).all (fun x => decide (x.1.1 < x.2.1))
    && (List.range l.length).all (fun i => bits (blockNum bs (blockBits bs 2 31 0 + 8 * i) 8) 63 48 == 0)

/-- Word j of timetable entry i. -/
def ttWord (bs : List Byte) (i j : Nat) : Nat := blockNum bs (blockBits bs 3 63 32 + 16 * i + 8 * j) 8
/-- The timetable: ENTRY, DOMAIN, SPAN (R43). -/
def imageTimes (bs : List Byte) : List (Nat × Nat × Nat) :=
  (List.range (blockBits bs 4 31 0 / 16)).map (fun i => (bits (ttWord bs i 0) 31 0, bits (ttWord bs i 0) 33 32, bits (ttWord bs i 1) 31 0))

/-- Is the timetable in order (R43)? -/
def timesOk (bs : List Byte) : Bool :=
  let l := imageTimes bs
  l.all (fun e => entryOk (blockBits bs 1 31 0) e.1 && e.2.1 != 3 && e.2.2 != 0)
    && (List.range l.length).all (fun i => bits (ttWord bs i 0) 63 34 == 0 && bits (ttWord bs i 1) 63 32 == 0)
    && decide ((l.map (·.1)).eraseDups.length = l.length)
    && !(blockBits bs 0 49 49 == 1 && l.isEmpty)

/-- Word j of tag-table entry i. -/
def tagWord (bs : List Byte) (i j : Nat) : Nat := blockNum bs (blockBits bs 3 31 0 + 16 * i + 8 * j) 8
/-- The tag table (Table 2.3). -/
def imageTags (bs : List Byte) : List TagEntry :=
  (List.range (blockBits bs 2 63 48)).map (fun i =>
    let a := tagWord bs i 0
    let b := tagWord bs i 1
    ⟨BitVec.ofNat 32 a, BitVec.ofNat 32 (a / 2 ^ 32), bits b 31 0, bitAt b 32, bitAt b 33, bits b 39 34⟩)

/-- Is the tag table in order (R41)? -/
def tagsOk (bs : List Byte) : Bool :=
  let timed := blockBits bs 0 49 49 == 1
  (imageTags bs).all (fun t => (t.value &&& ~~~t.mask) == 0 && entryOk (blockBits bs 1 31 0) t.entry && (t.fixed || !t.dom)
      && decide (t.batch ≤ blockBits bs 5 55 48) && (!t.fixed || (timed && (imageTimes bs).any (fun e => e.1 == t.entry))))
    && (List.range (imageTags bs).length).all (fun i => bits (tagWord bs i 1) 63 40 == 0)

/-- The bytes of an image with CHECK taken as zero. -/
def imageZeroed (bs : List Byte) : List Byte := bs.take 60 ++ [0, 0, 0, 0] ++ bs.drop 64

/-- The first failing reason of Table 2.2, from 1 to 6. `bs` holds the whole image. -/
def imageReason (va : Nat) (bs : List Byte) : Option Nat :=
  if blockBits bs 0 31 0 ≠ 0x314B4853 ∨ blockBits bs 0 47 32 ≠ 1 ∨ blockBits bs 0 63 52 ≠ 0 then some 1
  else if crc32c (imageZeroed bs) ≠ blockBits bs 7 63 32 then some 2
  else if !imageLimits bs || !sectionsOk (64 + blockBits bs 1 31 0) ((imageSections bs).drop 1) || va % 64 != 0 then some 3
  else if !patchesOk bs then some 4
  else if !tagsOk bs then some 5
  else if !timesOk bs then some 6
  else none

/-- The device's copy of a checked image (R38). -/
def imageOf (bs : List Byte) : Image :=
  { gang := blockBits bs 0 51 51 == 1, detreq := blockBits bs 0 50 50 == 1, timed := blockBits bs 0 49 49 == 1
    ring := blockBits bs 0 48 48 == 1, entry := blockBits bs 1 63 32, codesz := blockBits bs 1 31 0, nbank := blockBits bs 5 63 56
    maxbatch := blockBits bs 5 55 48, safegap := blockBits bs 5 47 32, clusz := blockBits bs 6 63 32, unitsz := blockBits bs 6 31 0
    stacksz := blockBits bs 7 31 0, code := (bs.drop 64).take (codeLimit (blockBits bs 1 31 0))
    consts := (bs.drop (blockBits bs 4 63 32)).take (blockBits bs 5 31 0), patches := imagePatches bs, tags := imageTags bs
    ttab := imageTimes bs }

/-- Can some core of a die meet the image's needs (R104; reason 7)? -/
def imageFits (i : Image) (det : Bool) : Bool :=
  decide (i.unitsz ≤ 2 ^ 20) && decide (i.clusz + (if det then 2 ^ 18 else 0) ≤ 2 ^ 22)

/-! ### The launch parameter block (Table 2.4) -/

/-- Dies of the DIES field. -/
def diesOf (mask : Nat) : List Nat := (List.range 8).filter (bitAt mask)

/-- The block's header fields; `params` are read with it. -/
def lpbOf (va : Nat) (bs : List Byte) : Lpb :=
  { va := va, image := blockBits bs 0 47 0, trav := blockBits bs 0 55 48, swz := blockBits bs 0 59 56, xm1 := blockBits bs 1 19 0
    ym1 := blockBits bs 1 39 20, zm1 := blockBits bs 1 59 40, cores := blockBits bs 2 47 32, mesh := blockBits bs 2 10 10 == 1
    dom := blockBits bs 2 7 6, abort := blockBits bs 2 5 5 == 1, gang := blockBits bs 2 4 4 == 1, det := blockBits bs 2 3 3 == 1
    fixed := blockBits bs 2 0 0 == 1, hops := blockBits bs 3 19 16, mcols := blockBits bs 3 15 8, mrows := blockBits bs 3 7 0
    dies := blockBits bs 4 7 0, start := blockNum bs 40 8
    params := (List.range (blockBits bs 6 12 0)).map (fun i => BitVec.ofNat 32 (blockNum bs (64 + 4 * i) 4)), copy := [] }

/-- The reserved fields of the block: word, high and low bit. -/
def lpbReserved : List (Nat × Nat × Nat) :=
  [(0, 63, 60), (1, 63, 60), (2, 63, 48), (2, 31, 11), (2, 9, 8), (2, 2, 1), (3, 63, 20), (4, 63, 8), (6, 63, 13), (7, 63, 0)]

/-- Groups of a launch. -/
def Lpb.groups (l : Lpb) : Nat := (l.xm1 + 1) * (l.ym1 + 1) * (l.zm1 + 1)

/-- E of R97: the smallest count of eligible cores among the launch's dies. -/
def State.eligible (s : State) (pkg : Nat) (dies : List Nat) : Nat :=
  let n := fun d => 96 - ((s.getPkg pkg).fused.filter (fun f => f.1 = d)).length
  (dies.map n).foldl min 96

/-- A detail code: word and low bit (R46). -/
def detailOf (w lo : Nat) : Nat := w * 2 ^ 16 + lo

/-- The details of the block's own fields that break their limits (Table 2.8). -/
def lpbOwnFaults (bs : List Byte) (e : Nat) : List Nat :=
  let l := lpbOf 0 (bs.take 64)
  let m := if l.cores = 0 then e else l.cores
  let on := fun (b : Bool) (d : Nat) => if b then [d] else []
  (lpbReserved.filterMap (fun f => if blockBits bs f.1 f.2.1 f.2.2 = 0 then none else some (detailOf f.1 f.2.2)))
    ++ on (decide (8 < l.swz)) (detailOf 0 56) ++ on (decide (3 < l.trav)) (detailOf 0 48) ++ on (l.dom == 3) (detailOf 2 6)
    ++ on (l.mesh && !decide (1 ≤ l.hops ∧ l.hops ≤ 9)) (detailOf 3 16) ++ on (l.mesh && !decide (1 ≤ l.mcols ∧ l.mcols ≤ 96)) (detailOf 3 8)
    ++ on (l.mesh && (!decide (1 ≤ l.mrows ∧ l.mrows ≤ 96) || l.mrows * l.mcols != m)) (detailOf 3 0)
    ++ on (l.dies == 0) (detailOf 4 0) ++ on (decide (4096 < blockBits bs 6 12 0)) (detailOf 6 0)
    ++ on (decide (2 ^ 32 ≤ l.groups)) (detailOf 1 0)

/-- The details that the launch as a whole breaks (R46, R85, R97, R111). -/
def lpbLaunchFaults (l : Lpb) (i : Image) (gangPacket : Bool) (e tick : Nat) : List Nat :=
  let m := if l.cores = 0 then e else l.cores
  let on := fun (b : Bool) (d : Nat) => if b then [d] else []
  on (decide (e < l.cores)) (detailOf 2 32) ++ on (l.gang && decide (m * (diesOf l.dies).length < l.groups)) (detailOf 1 0)
    ++ on (i.patches.any (fun p => decide (l.params.length ≤ p.2))) (detailOf 6 0)
    ++ on (l.fixed && !(i.timed && i.ttab.any (fun t => t.1 == i.entry))) (detailOf 2 0) ++ on (i.detreq && !l.det) (detailOf 2 3)
    ++ on (i.gang && !l.gang) (detailOf 2 4) ++ on (l.gang != gangPacket) (detailOf 2 4)
    ++ on (l.gang && decide (l.start < tick + 4096)) (detailOf 5 0)

/-- The lowest of some details (R46). -/
def lowest : List Nat → Option Nat
  | [] => none
  | x :: r => some (r.foldl min x)

/-- Why a launch or a binding is not accepted: a status code of Table 4.7 and its detail. -/
abbrev Refused := Nat × Nat

/-- Read and check an image at an address (R36, reasons 1 to 6). An address that does not translate is LAUNCH_INVALID naming
W0[47:0] of the block (entry 17). -/
def State.readImage (s : State) (k : DieKey) (asid : BitVec 16) (pt : Word) (va : Nat) : Except Refused Image :=
  match s.agentBytes k asid pt va 64 with
  | none => .error (1, 0)
  | some h =>
    if blockBits h 0 31 0 ≠ 0x314B4853 ∨ blockBits h 0 47 32 ≠ 1 ∨ blockBits h 0 63 52 ≠ 0 then .error (2, 1)
    else
      match s.agentBytes k asid pt va (imageSize h) with
      | none => .error (1, 0)
      | some bs =>
        match imageReason va bs with
        | some n => .error (2, n)
        | none => .ok (imageOf bs)

/-- Read a launch parameter block with its parameters (R45); the flag tells that the parameters could not be read. -/
def State.readLpb (s : State) (k : DieKey) (asid : BitVec 16) (pt : Word) (va : Nat) : Except Refused (List Byte × Bool) :=
  match s.agentBytes k asid pt va 64 with
  | none => .error (1, detailOf 6 0)
  | some h =>
    match s.agentBytes k asid pt va (64 + 4 * blockBits h 6 12 0) with
    | none => .ok (h, true)
    | some bs => .ok (bs, false)

/-- The places of n bytes at a virtual address: physical base, length, offset. -/
def State.agentPieces (s : State) (k : DieKey) (asid : BitVec 16) (pt : Word) (va n : Nat) : List (Nat × Nat × Nat) :=
  (List.range ((va + n + 4095) / 4096 - va / 4096)).filterMap (fun i =>
    let lo := max va ((va / 4096 + i) * 4096)
    let hi := min (va + n) ((va / 4096 + i + 1) * 4096)
    if lo < hi then (s.agentPA k asid pt lo).map (fun pa => (pa, hi - lo, lo - va)) else none)

/-- Where the device keeps copy n of launch parameters: behind the memory of die 0's scratchpad, within its space (entry 45). -/
def copyPA (pkg n : Nat) : Nat := mkPA pkg 0 0 (2 ^ 41 + n % 2 ^ 26 * 2 ^ 15)

/-- A block that has been read, with the places that its parameters, up to the end of their last 64 bytes, were read from, and those of the
device's copy of them (R45, entry 45). -/
def State.copyLpb (s : State) (k : DieKey) (asid : BitVec 16) (pt : Word) (va : Nat) (bs : List Byte) : Lpb :=
  let l := lpbOf va bs
  let pieces := s.agentPieces k asid pt ((va + 64) % 2 ^ 56) ((4 * l.params.length + 63) / 64 * 64)
  { l with copy := pieces.map (fun x => (x.1, x.2.1, copyPA k.pkg s.nextLid + x.2.2)) }

/-- The device makes its copy of the launch parameters; the next number of a copy is another. -/
def State.makeCopy (l : Lpb) (s : State) : State :=
  { l.copy.foldl (fun s x => s.write x.2.2 ((List.range x.2.1).map (fun i => s.readByte (x.1 + i)))) s with nextLid := s.nextLid + 1 }

/-- The checks of a launch in their order: image reasons 1 to 6, the block, reason 7 (entry 17). -/
def State.checkLaunch (s : State) (k : DieKey) (asid : BitVec 16) (pt : Word) (lva : Nat) (gangPacket : Bool) :
    Except Refused (Lpb × Image) :=
  match s.readLpb k asid pt lva with
  | .error e => .error e
  | .ok (bs, short) =>
    let l := s.copyLpb k asid pt lva bs
    match s.readImage k asid pt l.image with
    | .error e => .error e
    | .ok i =>
      let e := s.eligible k.pkg (diesOf l.dies)
      match lowest (lpbOwnFaults bs e ++ lpbLaunchFaults l i gangPacket e s.tick ++ (if short then [detailOf 6 0] else [])) with
      | some d => .error (1, d)
      | none => if imageFits i l.det then .ok (l, i) else .error (2, 7)

end Sys2Proof.Machine
end

