-- ==== Sys2Proof/Machine/Streams.lean ====
section
/-! DEFINITION. Stream words, key-value addresses and accumulator allocation (R210 to R213, R216 to R218). -/

namespace Sys2Proof.Machine

/-- NOT_STREAM unless the running work is a segment stream (R210, R212). -/
def streamOnly (m : Task → State → Out State) (s : State) : Out State :=
  if s.core.isStream then
    match s.core.task with
    | some t => m t s
    | none => raise { code := 10 } s
  else raise { code := 10 } s

/-- SHARD (R210): word w of the shard record. -/
def execShard (d : GReg) (w : Fin 4) (s : State) : Out State :=
  streamOnly (fun t s => setG d (t.shardRec.getD w.val 0) s) s

/-- BATCH (R210): word w of the batch entry g[A]; an index of COUNT or more raises BATCH_INDEX. -/
def execBatch (d a : GReg) (w : Fin 2) (s : State) : Out State :=
  streamOnly (fun t s =>
    let i := (s.core.rd a).toNat
    match t.batch[i]? with
    | some e => setG d (if w.val = 0 then e.1 else e.2) s
    | none => raise { code := 11, addr := i, detail := t.batch.length } s) s

/-- Fields of a need-table entry (Table 2.7). -/
def needValid (w : Word) : Bool := w.getLsbD 63
def needOnce (w : Word) : Bool := w.getLsbD 62
def needReq (w : Word) : Nat := bits w.toNat 47 32
def needTag (w : Word) : Nat := bits w.toNat 31 0
/-- A need-table entry. -/
def mkNeed (once : Bool) (req tag : Nat) : Word :=
  BitVec.ofNat 64 (2 ^ 63 + (if once then 2 ^ 62 else 0) + req % 2 ^ 16 * 2 ^ 32 + tag % 2 ^ 32)

/-- The slot of the valid entry for a request and tag. -/
def Die.needSlot (d : Die) (req tag : Nat) : Option Nat :=
  (d.need.find? (fun e => needValid e.2 && needReq e.2 == req && needTag e.2 == tag)).map (·.1)

/-- The lowest slot of the 4,096 that holds no valid entry. -/
def Die.needFree (d : Die) : Option Nat := (List.range 4096).find? (fun i => !needValid (sget 0 d.need i))

/-- The number of the registration in a slot of the need table, and the time it was made at (R52). -/
def Die.regOf (d : Die) (i : Nat) : Nat × Nat := (aget d.regs i).getD (0, 0)
/-- Clear a slot of the need table. -/
def Die.clearNeed (d : Die) (i : Nat) : Die := { d with need := sput 0 d.need i 0 }

/-- The outcome of registering a need at a time (R51, R211): 0 registered, 1 present, 2 full, 3 no active request in the ASID. -/
def Die.register (d : Die) (asid : BitVec 16) (once : Bool) (req tag now : Nat) : Die × Nat :=
  if !d.reqs.any (fun r => r.req == req && r.asid == asid && r.state == 0) then (d, 3)
  else if (d.needSlot req tag).isSome then (d, 1)
  else
    match d.needFree with
    | some i =>
      ({ d with need := sput 0 d.need i (mkNeed once req tag), regs := aput d.regs i (d.regNo + 1, now), regNo := d.regNo + 1 }, 0)
    | none => (d, 2)

/-- NEED (R211): registers in the executing die's table when it retires, and writes the status. -/
def execNeed (d a b : GReg) (once : Bool) (s : State) : Out State :=
  let c := s.core
  let (die, st) := s.ownDie.register (c.ctl.asid.truncate 16) once (bits (c.rd a).toNat 15 0) (bits (c.rd b).toNat 31 0) s.now
  let v := BitVec.ofNat 64 st
  if c.stackBad d v then raise { code := 6, addr := st, detail := 0 } s
  else setG d v (s.setDie die)

/-- UNPIN (R212): the pin drops once the stream's earlier records have retired and its vector loads have completed; the
sequencer does not wait. -/
def execUnpin (s : State) : Out State :=
  streamOnly (fun _ s => .next ({ s with core := { s.core with num := s.core.num + 1, unpin := some (s.core.unpin.getD s.core.num) } }).settlePin.retire) s

/-- KVA (R213): g[D] + g[A][19:0] × b; bits above raise KVA_RANGE. -/
def execKva (d a : GReg) (b : BitVec 32) (s : State) : Out State :=
  let pos := (s.core.rd a).toNat
  if 2 ^ 20 ≤ pos then raise { code := 12, addr := pos } s
  else setG d (s.core.rd d + BitVec.ofNat 64 (pos * b.toNat)) s

/-! ### Accumulator banks (R216, R217) -/

/-- The handle of n banks from `first` on (Table 8.9). -/
def mkHandle (first n : Nat) : Word := BitVec.ofNat 64 (256 + (n - 1) * 16 + first)

/-- The banks a core's task holds. -/
def Core.banksHeld (c : Core) : List Nat := c.handles.flatMap (fun h => (List.range h.2).map (h.1 + ·))

/-- The lowest run of n free banks. -/
def Core.freeRun (c : Core) (n : Nat) : Option Nat :=
  (List.range 16).find? (fun f => decide (f + n ≤ 16) && (List.range n).all (fun i => !(c.banksHeld.contains (f + i))))

/-- Zero every entry and projection of n banks (R216). -/
def Core.zeroBanks (c : Core) (f n : Nat) : Core :=
  { c with
    acc := sclear c.acc (f * 1024) ((f + n) * 1024), proj := sclear c.proj (f * 1024) ((f + n) * 1024)
    clean := { c.clean with banks := (List.range n).foldl (fun m i => unsetBit m (f + i)) c.clean.banks } }

/-- ACALLOC (R216): the lowest run of n free banks, within the task's NBANK. A refusal writes 0. -/
def execAcalloc (d : GReg) (n : BitVec 32) (s : State) : Out State :=
  let c := s.core
  let k := n.toNat
  let room := decide (c.banksHeld.length + k ≤ (c.task.map (·.nbank)).getD 0)
  match (if room then c.freeRun k else none) with
  | none => setG d 0 s
  | some f => writeRetire d (mkHandle f k) (fun c => { c.zeroBanks f k with handles := c.handles ++ [(f, k)] }) s

/-- ACFREE (R217, R285): the banks of a live handle and every band on it, once every product record enqueued before has
retired. -/
def execAcfree (a : GReg) (s : State) : Out State :=
  let c := s.core
  let h := c.rd a
  match c.handles.find? (fun x => mkHandle x.1 x.2 = h) with
  | none => raise { code := 14, addr := h.toNat } s
  | some x =>
    if c.pq.isEmpty && c.prun.isEmpty then retireWith (fun c => { c with
        handles := c.handles.filter (· ≠ x)
        drains := c.drains.map (fun b => if (b.map (·.1)) = some h.toNat then none else b) }) s
    else ok s

/-- GWSET (R218). -/
def execGwset (v : BitVec 32) (s : State) : Out State :=
  retireWith (fun c => { c with ctl := { c.ctl with gwcfg := v.zeroExtend 64 } }) s

end Sys2Proof.Machine
end

