-- ==== Sys2Proof/Machine/Placement.lean ====
section
/-! DEFINITION. The distribution of a launch's groups (R97 to R103), what a core is given at the start of a task or stream (R37,
R49, R104, R398, R404), saving and resuming (R406 to R408), and the choice among launches (R107 to R109). -/

namespace Sys2Proof.Machine

/-! ### Traversal orders (R47, R99, R100) -/

/-- The smallest k with 2^k ≥ n. -/
def ceilLog2 (n : Nat) : Nat := clog2 n

/-- The Morton key of a point with k bits a coordinate (R99). -/
def mortonKey (k x y z : Nat) : Nat :=
  (List.range k).foldl (fun m i => m + x / 2 ^ i % 2 * 2 ^ (3 * i) + y / 2 ^ i % 2 * 2 ^ (3 * i + 1) + z / 2 ^ i % 2 * 2 ^ (3 * i + 2)) 0

/-- The Hilbert key of a point of an n × n plane, n = 2^k, one level at a time (R100). -/
def hilbertKey (n : Nat) : Nat → Nat → Nat → Nat
  | 0, _, _ => 0
  | k + 1, x, y =>
    let side := 2 ^ k
    let rx := x / side % 2
    let ry := y / side % 2
    let d := side * side * ((3 * rx) ^^^ ry)
    if ry = 0 then
      if rx = 1 then d + hilbertKey n k (n - 1 - y) (n - 1 - x) else d + hilbertKey n k y x
    else d + hilbertKey n k x y

/-- The element of a list with exactly r elements of smaller key. -/
def ofRank {α : Type} (key : α → Nat) (l : List α) (r : Nat) : Option α :=
  l.find? (fun a => (l.filter (fun b => key b < key a)).length = r)

/-- The points of a plane. -/
def planePoints (x y : Nat) : List (Nat × Nat) := (List.range y).flatMap (fun j => (List.range x).map (fun i => (i, j)))

/-- The group with identifier j (R47, R99, R100). -/
def groupOf (l : Lpb) (j : Nat) : Nat × Nat × Nat :=
  let X := l.xm1 + 1
  let Y := l.ym1 + 1
  let Z := l.zm1 + 1
  match l.trav with
  | 0 => (j % X, j / X % Y, j / X / Y)
  | 1 => (j / Z / Y, j / Z % Y, j % Z)
  | 2 =>
    let k := ceilLog2 (max X (max Y Z))
    let pts := (List.range Z).flatMap (fun z => (planePoints X Y).map (fun p => (p.1, p.2, z)))
    (ofRank (fun p => mortonKey k p.1 p.2.1 p.2.2) pts j).getD (0, 0, 0)
  | _ =>
    let k := ceilLog2 (max X Y)
    let p := (ofRank (fun (p : Nat × Nat) => hilbertKey (2 ^ k) k p.1 p.2) (planePoints X Y) (j % (X * Y))).getD (0, 0)
    (p.1, p.2, j / (X * Y))

/-! ### Distribution (R101) -/

/-- Logical core of the package and wave of task j, of n tasks over c logical cores with swizzle width w = 2^SWZ. -/
def distribute (n c w j : Nat) : Nat × Nat :=
  let b := j / (w * c)
  let o := j - b * w * c
  let width := min w ((n - b * w * c + c - 1) / c)
  (o / width, b * w + o % width)

/-- The groups of one die, in the order of their identifiers: local logical core and identifier. `m` logical cores a die,
`rank` the die's place among the launch's dies. -/
def dieGroups (l : Lpb) (m dies rank : Nat) : List (Nat × Nat) :=
  (List.range l.groups).filterMap (fun j =>
    let x := (distribute l.groups (m * dies) (2 ^ l.swz) j).1
    if x / m = rank then some (x % m, j) else none)

/-! ### Binding (R102, R103) -/

/-- Eligible cores of a die, ascending. -/
def State.eligibleCores (s : State) (k : DieKey) : List Nat := (List.range 96).filter (fun c => !s.fusedOff ⟨k.pkg, k.die, c⟩)

/-- Manhattan distance of two cores' quads on the 4 × 6 mesh (R18). -/
def quadDistance (a b : Nat) : Nat :=
  let d := fun (x y : Nat) => if x ≤ y then y - x else x - y
  d (a / 4 / 6) (b / 4 / 6) + d (a / 4 % 6) (b / 4 % 6)

/-- May core c take logical core `bound.length`, after `bound`? -/
def meshAccepts (cols hops : Nat) (bound : List Nat) (c : Nat) : Bool :=
  let n := bound.length
  let near := fun (i : Nat) => decide (quadDistance (bound.getD i 0) c ≤ hops)
  (n % cols == 0 || near (n - 1)) && (decide (n < cols) || near (n - cols))

/-- The depth-first search of R103: cores bound so far, the place in the list of eligible cores from which the next unassigned one is
tested, and the candidates tested. The first argument bounds the work: each test and each return takes one. -/
def embedFrom (cols hops m : Nat) (cores : List Nat) : Nat → List Nat → Nat → Nat → Option (List Nat)
  | 0, _, _, _ => none
  | fuel + 1, bound, i, trials =>
    if m ≤ bound.length then some bound
    else
      match (cores.zipIdx.drop i).find? (fun x => !bound.contains x.1) with
      | none =>
        match bound.getLast? with
        | none => none
        | some c => embedFrom cols hops m cores fuel bound.dropLast (cores.findIdx (· = c) + 1) trials
      | some (c, j) =>
        if 2 ^ 20 ≤ trials then none
        else if meshAccepts cols hops bound c then embedFrom cols hops m cores fuel (bound ++ [c]) 0 (trials + 1)
        else embedFrom cols hops m cores fuel bound (j + 1) (trials + 1)

/-- The cores that a die's m logical cores are bound to; none without an embedding. -/
def State.bindCores (s : State) (l : Lpb) (m : Nat) (k : DieKey) : Option (List Nat) :=
  let cores := s.eligibleCores k
  if l.mesh then embedFrom l.mcols l.hops m cores (2 ^ 21) [] 0 0 else some (cores.take m)

/-! ### The start of a task or stream -/

/-- What the work is, beside its launch block and image: its queue's address space and areas (R104, R294), its launch. -/
structure Source where
  lpb : Lpb
  image : Image
  q : QKey
  asid : BitVec 16
  ptbase : Word
  unitva : Nat
  cluva : Nat
  lid : Nat
  seq : BitVec 32
  tid : BitVec 32
  group : Nat × Nat × Nat
  entry : Nat
  fixed : Bool
  dom : Nat
  stream : Option (List Word × List (Word × Word) × Nat)
  level : Nat
  formNo : Nat := 0

/-- The virtual base of the unit-scratchpad area and of the cluster partition (R104). -/
def Source.unit (w : Source) : Nat := w.unitva * 4096
def Source.cluster (w : Source) (k : CoreKey) : Nat := w.cluva * 4096 + 2 ^ 22 * (k.core % 4)

/-- The task block (Table 2.5). -/
def taskBlock (w : Source) (k : CoreKey) : List Byte :=
  toBytes 8 (w.seq.toNat * 2 ^ 32 + w.tid.toNat) ++ toBytes 8 (w.group.2.1 * 2 ^ 20 + w.group.1) ++ toBytes 8 w.group.2.2
    ++ toBytes 8 ((w.lpb.va + 64) % 2 ^ 56) ++ toBytes 8 (w.cluster k) ++ toBytes 8 (if w.lpb.det then w.cluster k + w.image.clusz else 0)
    ++ toBytes 8 0 ++ toBytes 8 0

/-- The task as the core holds it. -/
def Source.task (w : Source) (k : CoreKey) (serial : Nat) : Task :=
  { tid := w.tid, launchSeq := w.seq, lid := w.lid, q := w.q, stream := w.stream.isSome, fixed := w.fixed, det := w.lpb.det
    gang := w.lpb.gang && w.stream.isNone, abort := w.lpb.abort, dom := if w.fixed then BitVec.ofNat 2 w.dom else 0
    safegap := w.image.safegap, nbank := w.image.nbank, unitsz := w.image.unitsz, clusz := w.image.clusz, stacksz := w.image.stacksz
    patches := w.image.patches, params := w.lpb.params, copy := w.lpb.copy, ttab := w.image.ttab, unitva := w.unit, cluva := w.cluster k
    logbase := if w.lpb.det then w.cluster k + w.image.clusz else 0
    shardRec := (w.stream.map (·.1)).getD [], batch := (w.stream.map (·.2.1)).getD [], shard := (w.stream.map (·.2.2)).getD 0
    pinned := w.stream.isSome, level := w.level, executed := false, safeAt := none, merges := 0, started := serial, formNo := w.formNo }

/-- MODE at the start (Table 15.4). -/
def Source.mode (w : Source) : Word :=
  BitVec.ofNat 64 ((if w.fixed then 2 + 4 * w.dom else 0) + (if w.lpb.det then 16 else 0) + (if w.stream.isSome then 32 else 0))

/-- A core barrier at the start of a task (R377). -/
def Barrier.start : Barrier := { ec := 1, ac := 0, ph := 0, pc := 0, nextEc := none }

/-- A core at the first word of its work (R49, R165, R255, R312, R377, R404, R443). Its translations, its scratch and fault registers,
GWCFG and the bypass buffer keep what they held (entry 18). -/
def Source.core (w : Source) (c : Core) (tvec : Word) (serial clock : Nat) : Core :=
  let z := Core.reset c.key
  let base := w.unit
  let top := base + w.image.unitsz
  let lb := top - w.image.stacksz
  let lim := BitVec.ofNat 64 (lb + min 512 (8 * (w.image.stacksz / 16)))
  { z with
    g := (z.g.set 31 (BitVec.ofNat 64 base)).set 32 (BitVec.ofNat 64 top)
    pc := BitVec.ofNat 17 w.entry
    ctl := { c.ctl with
      fpcs := 0, rngseed := 0, rngctr := 0, lbase := BitVec.ofNat 64 lb, llim := lim, slim := lim, mode := w.mode, tvec := tvec
      asid := w.asid.zeroExtend 64, ptbase := w.ptbase }
    num := c.num, bypass := c.bypass, held := c.held, fetches := c.fetches
    bars := Vector.replicate 96 Barrier.start
    phase := .running, task := some (w.task c.key serial), clock := clock, entering := w.fixed }

/-- TVEC as the die's configuration gives it (Table 15.5); its reset value before any configuration is written. -/
def tvecOf (handler : Option (Word × List Byte)) : Word :=
  match handler with | some h => h.1 &&& 0x1FFF9 | none => 0

/-- The address that TVEC.BASE stands for. -/
def tvecBase (tvec : Word) : Nat := bits tvec.toNat 16 3 * 8

/-- The code memory of a core is loaded: the code section, then with TVEC.EN the handler block (R37, R398). -/
def loadCode (k : CoreKey) (i : Image) (handler : Option (Word × List Byte)) (s : State) : State :=
  let s := s.write (codePA k) i.code
  match handler with
  | some h => if h.1.getLsbD 0 then s.write (codePA k + tvecBase h.1) (h.2.take (131072 - tvecBase h.1)) else s
  | none => s

/-- The clock step that a core takes with its work: that of the members of its domain, else its die's (R395). -/
def State.joinStep (s : State) (c : Core) : Nat :=
  match s.allCores.find? (fun x => x.key != c.key && x.phase != .free && sameDomain c x) with
  | some x => x.clk
  | none => (s.getDie c.key.dieKey).localStep

/-- The end of the core cycle of a die in which a core is given work: its own cycles follow (entry 4). -/
def State.firstCycle (s : State) (k : DieKey) : Nat := (cycleAt (max s.podStep (s.getDie k).localStep) s.now + 1) * 210

/-- The lines of core k's unit scratchpad that stand in its task's image are those of its area numbered. -/
def State.setCleanLines (s : State) (k : CoreKey) (l : List Nat) : State :=
  let lo := unitPA k / 256
  { s with cleanLines := l.map (lo + ·) ++ s.cleanLines.filter (fun a => decide (a < lo ∨ lo + 4096 ≤ a)) }

/-- Start work on core k (R37, R49): code memory, task block and constants, registers. -/
def State.startWork (s : State) (k : CoreKey) (w : Source) : State :=
  let h := (s.getDie k.dieKey).handler
  let s := loadCode k w.image h s
  let s := (s.write (unitPA k) (taskBlock w k)).write (unitPA k + 64) w.image.consts
  let s := s.setCleanLines k []
  let c := w.core (s.getCore k) (tvecOf h) (s.getDie k.dieKey).lives (s.firstCycle k.dieKey)
  s.setCore { c with clk := s.joinStep c }

/-! ### Saving and resuming (R406 to R408) -/

/-- The bytes of a range that are not zero, by offset. -/
def State.grab (s : State) (lo n : Nat) : List (Nat × Byte) :=
  (s.mem.filter (fun e => decide (lo ≤ e.1 ∧ e.1 < lo + n))).map (fun e => (e.1 - lo, e.2))

/-- A range takes a saved content. -/
def State.restore (s : State) (lo n : Nat) (l : List (Nat × Byte)) : State :=
  { s with mem := putBytes (sclear s.mem lo (lo + n)) (l.map (fun e => (lo + e.1, e.2))) }

/-- Bytes of a task's partition, with its merge log. -/
def Task.partition (t : Task) : Nat := t.clusz + (if t.det then 2 ^ 18 else 0)

/-- Code memory that an image covers: below the handler. -/
def codeSpan (c : Core) : Nat := if c.ctl.tvec.getLsbD 0 then tvecBase c.ctl.tvec else 131072

/-- Lines of a unit-scratchpad area. -/
def Task.lines (t : Task) : List Nat := List.range ((t.unitsz + 255) / 256)

/-- The banks that a task has allocated. -/
def Core.bankMask (c : Core) : BitVec 16 := c.banksHeld.foldl (fun m b => setBit m b) 0

/-- The g registers that a SAFE's list names: bit 0 sp, bit n g register n (Table 15.8). -/
def liveMask (live : BitVec 32) : BitVec 33 := (live >>> 1 <<< 1).zeroExtend 33 ||| (if live.getLsbD 0 then 1 <<< 32 else 0)

/-- The planes of the plane groups that a SAFE names. -/
def planeMask (groups : BitVec 8) : BitVec 32 :=
  (List.range 32).foldl (fun m v => if groups.getLsbD (v / 4) then setBit m v else m) 0

/-- The lines of code memory that transfer records have written, as far as an image covers them. -/
def Core.savedLines (c : Core) : List Nat := c.codeLines.filter (fun a => decide (256 * a < codeSpan c))

/-- What a save writes: the items named that are dirty (Table 15.8). -/
def State.saveItems (s : State) (c : Core) (t : Task) (groups : BitVec 8) (live : BitVec 32) : SaveItems :=
  { bars := !c.clean.bars, g := liveMask live &&& ~~~c.clean.g, planes := planeMask groups &&& ~~~c.clean.planes
    banks := c.bankMask &&& ~~~c.clean.banks, byp := !c.clean.byp
    unit := t.lines.filter (fun a => !s.cleanLines.contains (unitPA c.key / 256 + a)), code := c.savedLines.filter (!c.clean.code.contains ·)
    partition := t.partition }

/-- Bits set in a mask of n. -/
def countBits {n : Nat} (m : BitVec n) : Nat := ((List.range n).filter (m.getLsbD ·)).length

/-- The bytes that a save writes (Table 15.8). -/
def SaveItems.bytes (x : SaveItems) : Nat :=
  1024 + (if x.bars then 768 else 0) + 8 * countBits x.g + 4096 * countBits x.planes + 40960 * countBits x.banks + (if x.byp then 4096 else 0)
    + 256 * (x.unit.length + x.code.length) + x.partition

/-- The image of a stopped task (Table 15.8): what earlier saves wrote and what this one does. The items that are not dirty stand there as
they stand in the core. Its own ageing count starts at 0 (entry 99). -/
def State.image (s : State) (c : Core) (t : Task) (groups : BitVec 8) (live : BitVec 32) (at_ : BitVec 17) : Saved :=
  { core := c, level := t.level, count := 0, lid := t.lid, unit := s.grab (unitPA c.key) t.unitsz, cluster := s.grab (partPA c.key) t.partition
    code := c.savedLines.map (fun a => (a, (List.range 256).map (fun i => s.byte (codePA c.key + 256 * a + i))))
    wrote := s.saveItems c t groups live, live := live, groups := groups, at_ := at_ }

/-- g registers and planes that the SAFE did not name read zero (R203, R408). Bit 0 names sp, bit n g register n. -/
def keepLive (c : Core) (groups : BitVec 8) (live : BitVec 32) : Core :=
  { c with
    g := Vector.ofFn (fun i => if live.getLsbD (if i.val = 32 then 0 else i.val) && i.val ≠ 0 then c.g.get i else 0)
    planes := Vector.ofFn (fun v => if groups.getLsbD (v.val / 4) then c.planes.get v else []) }

/-- A core holds nothing; its barriers keep their state until the next task starts (R377). -/
def Core.vacate (c : Core) : Core :=
  { (Core.reset c.key) with
    ctl := { c.ctl with mode := 0 }, num := c.num, bars := c.bars, bypass := c.bypass, held := c.held, fetches := c.fetches, clock := c.clock }

/-- Resume a saved task on its core (R408); it translates afresh (R409). -/
def State.resume (s : State) (m : Saved) (i : Image) (asid : BitVec 16) (ptbase : Word) : State :=
  let k := m.core.key
  let now := s.getCore k
  match m.core.task with
  | none => s
  | some t =>
    let h := (s.getDie k.dieKey).handler
    let s := m.code.foldl (fun s e => s.write (codePA k + 256 * e.1) e.2) (loadCode k i h s)
    let s := (s.restore (unitPA k) t.unitsz m.unit).restore (partPA k) t.partition m.cluster
    let s := s.setCleanLines k t.lines
    let c := keepLive m.core m.groups m.live
    let c : Core := { c with
      ctl := { c.ctl with
        tvec := tvecOf h, epc := now.ctl.epc, reppos := now.ctl.reppos, frec := now.ctl.frec, kscr := now.ctl.kscr
        asid := asid.zeroExtend 64, ptbase := ptbase }
      clean := ⟨liveMask m.live, planeMask m.groups, c.bankMask, true, true, c.savedLines⟩
      num := max c.num now.num, held := [], fetches := now.fetches
      phase := .running, begun := false, verdict := none, stalled := false, slow := false, clock := s.firstCycle k.dieKey, stepAge := 0, stop := if m.core.stop = some .destroy then some .destroy else none, watch := 0
      task := some { t with level := m.level } }
    s.setCore { c with clk := s.joinStep c }

/-! ### Placement state (R107, R108) -/

/-- The placement state of a core. -/
def Die.slot (d : Die) (c : Nat) : CoreSlot := (aget d.slots c).getD ⟨[], 0, []⟩
/-- Replace it. -/
def Die.setSlot (d : Die) (c : Nat) (x : CoreSlot) : Die := { d with slots := aput d.slots c x }
/-- The effective level of a launch on a core. -/
def CoreSlot.level (x : CoreSlot) (l : Launch) : Nat × Nat := (aget x.levels l.lid).getD (l.prio, 0)

/-- A placement of another launch: after eight, the level falls by one (R107). -/
def ageLevel (x : Nat × Nat) : Nat × Nat := if 8 ≤ x.2 + 1 then (x.1 - 1, 0) else (x.1, x.2 + 1)

/-- A candidate of a core: the next group of a launch, or a saved task. -/
inductive Candidate where
  | group (lid : Nat) (task : Nat)
  | saved (lid : Nat) (m : Saved)
  deriving DecidableEq, Repr

/-- The launch of a candidate. -/
def Candidate.lid : Candidate → Nat
  | .group n _ => n
  | .saved n _ => n

/-- The share of a die in a launch. -/
def Launch.share (l : Launch) (die : Nat) : Option DieShare := l.shares.find? (fun x => x.die = die)
/-- Replace a share. -/
def Launch.setShare (l : Launch) (x : DieShare) : Launch := { l with shares := l.shares.map (fun y => if y.die = x.die then x else y) }
/-- A launch of the state. -/
def State.launch (s : State) (lid : Nat) : Option Launch := s.launches.find? (fun l => l.lid = lid)
/-- Replace a launch. -/
def State.setLaunch (s : State) (l : Launch) : State := { s with launches := s.launches.map (fun x => if x.lid = l.lid then l else x) }

/-- The next group of a launch for a core: the head of the pending lists of the logical cores bound to it. -/
def DieShare.next (x : DieShare) (core : Nat) : Option (Nat × Nat) := x.pending.find? (fun p => x.bind[p.1]? = some core)

/-- Is the queue's destroy tick reached (R95)? -/
def State.queueOver (s : State) (q : QKey) : Bool :=
  match aget s.queues q with
  | some x => (match x.destroyAt with | some t => decide (t ≤ s.tick) | none => false)
  | none => true

/-- The candidates of a core with their levels (R107): saved tasks first, so that one comes before its own launch's next
group. -/
def State.candidatesOf (s : State) (k : CoreKey) : List (Nat × Candidate) :=
  let d := s.getDie k.dieKey
  let sl := d.slot k.core
  (d.saved.filter (fun m => m.core.key = k)).map (fun m => (m.level, .saved m.lid m))
    ++ s.launches.filterMap (fun l =>
      if l.q.pkg = k.pkg ∧ l.lpb.gang = false ∧ s.queueOver l.q = false then
        (l.share k.die).bind (fun x => (x.next k.core).map (fun p => ((sl.level l).1, .group l.lid p.2)))
      else none)

/-- The choice of R108: the lowest level; among equals, launches in the order in which they reached the die, after the one last
placed. -/
def chooseCandidate (last : Nat) (l : List (Nat × Candidate)) : Option Candidate :=
  let best := l.foldl (fun m x => min m x.1) 3
  let eq := l.filter (fun x => x.1 = best)
  let lids := eq.map (fun x => x.2.lid)
  let pick := (lids.filter (fun n => last < n)).foldl (fun m n => some (match m with | some k => min k n | none => n)) (none : Option Nat)
  let first := lids.foldl (fun m n => some (match m with | some k => min k n | none => n)) (none : Option Nat)
  (eq.find? (fun x => some x.2.lid = (pick <|> first))).map (·.2)

/-- The levels after a placement of launch l on a core (R107, R108): its own returns to its base when a group is placed. -/
def Die.placed (d : Die) (core : Nat) (l : Launch) (others : List Launch) (isGroup : Bool) : Die :=
  let sl := d.slot core
  let lv := others.foldl (fun v o => if o.lid = l.lid then v else aput v o.lid (ageLevel (sl.level o))) sl.levels
  let lv := if isGroup then aput lv l.lid (l.prio, 0) else lv
  let age := fun (m : Saved) => if m.core.key.core = core ∧ m.lid ≠ l.lid then (let a := ageLevel (m.level, m.count); { m with level := a.1, count := a.2 }) else m
  { (d.setSlot core { sl with levels := lv, last := l.lid }) with saved := d.saved.map age }

/-- The work of task j of a launch. -/
def State.source (s : State) (l : Launch) (j : Nat) (level : Nat) : Source :=
  let q := aget s.queues l.q
  { lpb := l.lpb, image := l.image, q := l.q, asid := (q.map (·.asid)).getD 0, ptbase := (q.map (·.ptbase)).getD 0
    unitva := (q.map (·.unitva)).getD 0, cluva := (q.map (·.cluva)).getD 0, lid := l.lid, seq := l.seq, tid := BitVec.ofNat 32 j
    group := groupOf l.lpb j, entry := l.image.entry, fixed := l.lpb.fixed, dom := l.lpb.dom, stream := none, level := level }

/-- The group j of a launch leaves the pending lists of a die and is placed. -/
def Launch.take (l : Launch) (die j : Nat) : Launch :=
  match l.share die with
  | some x => l.setShare { x with pending := x.pending.filter (fun p => p.2 ≠ j), live := x.live + 1 }
  | none => l

/-- Place group j of a launch on core k. -/
def State.placeGroup (s : State) (l : Launch) (k : CoreKey) (j level : Nat) : State :=
  (s.setLaunch (l.take k.die j)).startWork k (s.source l j level)

/-- Is the core idle and able to take work? -/
def State.coreFree (s : State) (k : CoreKey) : Bool := (s.getCore k).phase == .free && !s.fusedOff k && !(s.getDie k.dieKey).halted

end Sys2Proof.Machine
end

