-- ==== Sys2Proof/Machine/Launches.lean ====
section
/-! DEFINITION. Events of the launch units: placement, saving, gang starts, retirement and reports (R95, R106 to R113, R406,
R411, R412). -/

namespace Sys2Proof.Machine

/-! ### Streams waiting for a core (R114 to R116, R130) -/

/-- Is a core a ring core: set in the masks, and in those of the last batch formation (R114)? -/
def Die.ringCore (d : Die) (c : Nat) : Bool :=
  if c < 64 then d.rcmaskl.getLsbD c && d.ringl.getLsbD c else d.rcmaskh.getLsbD (c - 64) && d.ringh.getLsbD (c - 64)

/-- SPAN of a stream's entry point in the image of the binding (R130). -/
def Binding.span (b : Binding) (entry : Nat) : Nat :=
  ((b.image.ttab.find? (fun e => e.1 = entry)).map (·.2.2)).getD b.image.safegap

/-- Does a stream on the shard need a reservation that is not held (R130)? -/
def State.needsRoom (s : State) (d : Die) (b : Binding) (x : Shard) (t : TagEntry) : Bool :=
  !x.resv && decide (x.deadline + d.fps < s.pacedNow + (b.span t.entry * 10 + 2) / 3)

/-- Is there room for the shard's footprint (R130)? -/
def Die.room (d : Die) (x : Shard) : Bool := decide (d.resv + x.footprint + (d.nom + d.stlow) * 2 ^ 20 ≤ d.size)

/-- The batches of a die in queue order with their shards, before the shards' deadlines (R131, R134). -/
def Die.queued (d : Die) : List (Shard × Batch) := d.shards.flatMap (fun x => x.batches.map (fun b => (x, b)))

/-- May a batch start, but for a core (R130, R131)? One that was queued when its kernel was unbound still may: R86 speaks of streams that have
started and of shards that arrive afterwards (DESIGN CHOICE, entry 108). -/
def State.batchReady (s : State) (d : Die) (e : Shard × Batch) : Bool :=
  match e.1.bound with
  | some b => !d.transit && !s.ring.restarting && decide (s.pacedNow ≤ e.1.deadline) && (!s.needsRoom d b e.1 e.2.tag || d.room e.1)
  | none => false

/-- May a core take a stream: a ring core with no stream, no gang task and no gang reservation (R115)? -/
def State.takesStream (s : State) (k : CoreKey) : Bool :=
  let d := s.getDie k.dieKey
  d.ringCore k.core && !d.halted && !s.fusedOff k && (d.slot k.core).gangs.isEmpty
    && (match (s.getCore k).task with | some t => !t.stream && !t.gang | none => true)

/-- Does a free core wait for a stream: a queued batch may start and the core may take it? -/
def State.streamWants (s : State) (k : CoreKey) : Bool :=
  let d := s.getDie k.dieKey
  s.takesStream k && d.queued.any (s.batchReady d)

/-! ### Placement (R108) -/

/-- Launches that have a group pending for a core. -/
def State.waitingOn (s : State) (k : CoreKey) : List Launch :=
  s.launches.filter (fun o => (o.share k.die).any (fun x => (x.next k.core).isSome) && o.q.pkg == k.pkg)

/-- Place group j of a launch on core k: a placement that counts against the other launches there (R107, R108). -/
def State.placeCounted (s : State) (l : Launch) (k : CoreKey) (j level : Nat) : State :=
  (s.setDie ((s.getDie k.dieKey).placed k.core l (s.waitingOn k) true)).placeGroup l k j level

/-- PLACEMENT_CHOICE: a free core, not reserved and not wanted by a stream, takes the candidate of R108. The resumption of a saved task
counts as a placement of its launch (entry 99). -/
def execPlacementChoice (s : State) : Out State :=
  let k := s.place.core
  let d := s.getDie k.dieKey
  if !s.coreFree k || !(d.slot k.core).gangs.isEmpty || s.streamWants k then idle s
  else
    match chooseCandidate (d.slot k.core).last (s.candidatesOf k) with
    | none => idle s
    | some c =>
      match s.launch c.lid with
      | none => idle s
      | some l =>
        match c with
        | .group _ j => ok (s.placeCounted l k j ((d.slot k.core).level l).1)
        | .saved _ m =>
          let d := d.placed k.core l (s.waitingOn k) false
          let q := aget s.queues l.q
          ok ((s.setDie { d with saved := d.saved.erase m }).resume m l.image ((q.map (·.asid)).getD 0) ((q.map (·.ptbase)).getD 0))

/-- Ask the flow task of a core to stop (R109, R111, R115). A gang or fixed-mode task, a stream, or a task already asked is left. -/
def askStop (why : StopCause) (c : Core) : Core :=
  match c.task with
  | some t => if c.phase == .running && !t.fixed && !t.gang && !t.stream && c.stop.isNone then { c with stop := some why } else c
  | none => c

/-- A launch's candidates have become pending on its cores: a running flow task of a strictly higher level is asked to stop
(R109). -/
def State.preempt (s : State) (l : Launch) : State :=
  l.shares.foldl (fun s x => x.bind.eraseDups.foldl (fun s n =>
    let k : CoreKey := ⟨l.q.pkg, x.die, n⟩
    let c := s.getCore k
    match c.task with
    | some t => if (x.next n).isSome && decide (l.prio < t.level) then s.setCore (askStop .preempt c) else s
    | none => s) s) s

/-! ### Quiet cores -/

/-- Has every vector word, record, load and store of a core run to its end (R406, R411)? -/
def Core.quiet (c : Core) : Bool :=
  c.vectorIdle && c.loads.isEmpty && c.stores.isEmpty && c.pq.isEmpty && c.prun.isEmpty && c.tq.isEmpty && c.trun.isEmpty

/-- Has every signal update of a core been applied? -/
def State.signalsDone (s : State) (k : CoreKey) : Bool :=
  s.sigs.all (fun m => m.applied || (match m.ord with | some o => o.1 != k | none => true))

/-- CONTEXT_SAVE_DONE: a task that has stopped at a SAFE, with nothing under way, has its image written and leaves its core
(R406, R407). -/
def execContextSaveDone (s : State) : Out State :=
  let c := s.core
  match c.phase, c.task with
  | .stopped groups live at_, some t =>
    if c.quiet && c.trap.isNone && s.signalsDone c.key then
      let d := s.ownDie
      ok ((s.setDie { d with saved := d.saved ++ [s.image c t groups live at_] }).setCore c.vacate)
    else idle s
  | _, _ => idle s

/-! ### Retirement (R411, R413) -/

/-- Under DET: has the task's log been applied or discarded (R373 to R375, R466)? -/
def State.logSettled (s : State) (k : CoreKey) (t : Task) : Bool :=
  if !t.det then true
  else if t.stream then !(s.getDie k.dieKey).streams.any (fun x => x.1 == t.formNo)
  else match s.launch t.lid with | some l => l.done.contains t.tid.toNat | none => true

/-- The words of a fault event (Table 16.3). -/
def faultWords (c : Core) : List Word := [0, 1, 2, 3, 4, 6].map (fun i => c.ctl.frec.get (Fin.ofNat 8 i))

/-- The counts of a launch after the end of one of its placed groups (R412). -/
def Launch.ended (l : Launch) (die : Nat) (t : Task) (k : EndKind) : Launch :=
  let l := match l.share die with
    | some x => l.setShare { x with
        ran := x.ran + (if t.executed then 1 else 0), stopped := x.stopped + (if k = .destroy then 1 else 0), live := x.live - 1 }
    | none => l
  if k = .fault then { l with faults := t.tid.toNat :: l.faults } else l

/-- The log of a stream that has retired closes its life with a serial number (R375). -/
def closeStream (no serial : Nat) (l : List StreamLog) : List StreamLog :=
  l.map (fun x => if x.no = no ∧ x.toT = 2 ^ 64 then { x with toT := serial } else x)

/-- TASK_RETIRE: the task or stream of this core has ended and everything of it has run out; its core becomes free. -/
def execTaskRetire (s : State) : Out State :=
  let c := s.core
  match c.phase, c.task with
  | .ending k, some t =>
    if c.quiet && s.signalsDone c.key && s.logSettled c.key t then
      let s := s.dropPin
      let s := if k = .fault then s.post (if t.stream then 2 else 1) c.key (faultWords c) else s
      let s := match s.launch t.lid with
        | some l => if t.stream then s else s.setLaunch (l.ended c.key.die t k)
        | none => s
      let d := s.ownDie
      let s := if t.stream then s.setDie { d with lives := d.lives + 1, streamLogs := closeStream t.formNo (d.lives + 1) d.streamLogs } else s
      ok (s.setCore s.core.vacate)
    else idle s
  | _, _ => idle s

/-- The packet of a launch ends with a status (R412). -/
def State.endPacket (s : State) (q : QKey) (idx status detail ran stopped : Nat) : State :=
  match aget s.queues q with
  | some x =>
    let f := fun (p : Packet) => if p.idx = idx then { p with phase := .ended status detail ran stopped } else p
    { s with queues := aput s.queues q { x with packets := x.packets.map f } }
  | none => s

/-- Dies of a launch that have nothing left. -/
def State.shareOver (s : State) (l : Launch) (x : DieShare) : Bool :=
  (x.pending.isEmpty && x.live == 0 && !(s.getDie ⟨l.q.pkg, x.die⟩).saved.any (fun m => m.lid == l.lid))

/-- The status of a launch that every die has reported (R412). -/
def Launch.status (l : Launch) : Nat × Nat :=
  match l.destroyed with
  | some t => (4, t % 2 ^ 32)
  | none => match lowest l.faults with | some n => (9, n) | none => (0, 0)

/-- DIE_LAUNCH_REPORT: the report of a die on launch `place.n` reaches the home die; the last one ends the launch. -/
def execDieLaunchReport (s : State) : Out State :=
  match s.launch s.place.n with
  | none => idle s
  | some l =>
    match l.share s.place.core.die with
    | none => idle s
    | some x =>
      if x.reported || !s.shareOver l x then idle s
      else
        let l := l.setShare { x with reported := true }
        if l.shares.all (·.reported) then
          let st := l.status
          let sum := fun (f : DieShare → Nat) => l.shares.foldl (fun n y => n + f y) 0
          let s := s.endPacket l.q l.pidx st.1 st.2 (sum (·.ran)) (sum (·.stopped))
          ok { s with launches := s.launches.filter (fun y => y.lid ≠ l.lid) }
        else ok (s.setLaunch l)

/-! ### Gang starts (R111 to R113) -/

/-- The cores of a die's share. -/
def DieShare.cores (x : DieShare) (pkg : Nat) : List CoreKey :=
  ((x.pending.filterMap (fun p => x.bind[p.1]?)).eraseDups).map (fun c => ⟨pkg, x.die, c⟩)

/-- A gang reserves a core and asks the flow task there to stop (R111). The gangs of a core stand in the order of their dispatch, also where a
fusing has moved a reservation, so that the one dispatched first starts first and no two wait for each other (R110). -/
def State.reserveCore (s : State × Nat) (k : CoreKey) : State × Nat :=
  let d := s.1.getDie k.dieKey
  let sl := d.slot k.core
  ((s.1.setDie (d.setSlot k.core { sl with gangs := sl.gangs.filter (· < s.2) ++ s.2 :: sl.gangs.filter (s.2 < ·) })).setCore (askStop .gang (s.1.getCore k)), s.2)

/-- A gang reserves its cores (R111). -/
def State.reserve (s : State) (l : Launch) : State :=
  l.shares.foldl (fun s x => ((x.cores l.q.pkg).foldl State.reserveCore (s, l.lid)).1) s

/-- A gang gives its reservations back. -/
def State.unreserve (s : State) (l : Launch) : State :=
  l.shares.foldl (fun s x => x.bind.eraseDups.foldl (fun s c =>
    let d := s.getDie ⟨l.q.pkg, x.die⟩
    let sl := d.slot c
    s.setDie (d.setSlot c { sl with gangs := sl.gangs.filter (· ≠ l.lid) })) s) s

/-- A gang that has not begun, and the share of a die in it. -/
def gangShare (m : Launch → DieShare → Out State) (s : State) : Out State :=
  match s.launch s.place.n with
  | some l =>
    match l.share s.place.core.die with
    | some x => if l.lpb.gang && !l.begun then m l x else idle s
    | none => idle s
  | none => idle s

/-- Can a die's share of a gang start: its reserved cores are free, one for each group? A gang that a fusing has left with more groups than
cores never is, and keeps its reservations: the spec says nothing of it (DESIGN CHOICE, entry 107). -/
def State.gangFree (s : State) (l : Launch) (x : DieShare) : Bool :=
  (x.cores l.q.pkg).all (fun k => s.coreFree k && ((s.getDie k.dieKey).slot k.core).gangs.head? == some l.lid)
    && (x.cores l.q.pkg).length == x.pending.length

/-- GANG_READY_CHECK: at START − 256 a die checks that its reserved cores are free, and loads the kernel's code on them; if they are
not, it sends a not-ready message. -/
def execGangReadyCheck (s : State) : Out State :=
  gangShare (fun l x =>
    if x.check = .unchecked ∧ l.start ≤ s.tick + 256 then
      if s.gangFree l x then
        let s := (x.cores l.q.pkg).foldl (fun s k => loadCode k l.image (s.getDie k.dieKey).handler s) s
        ok (s.setLaunch (l.setShare { x with check := .ready }))
      else ok (s.setLaunch (l.setShare { x with check := .sent }))
    else idle s) s

/-- GANG_NOT_READY: the home die receives the message. -/
def execGangNotReady (s : State) : Out State :=
  gangShare (fun l x =>
    if x.check = .sent then ok (s.setLaunch { (l.setShare { x with check := .told }) with notReady := true })
    else idle s) s

/-- Is a gang ready on every die, with no message to the contrary? -/
def Launch.ready (l : Launch) : Bool := !l.notReady && l.shares.all (fun x => x.check == .ready)

/-- GANG_DEFER: with a not-ready message by START − 128, every die takes START + 4,096 and checks again. A die that has not checked by
then, or a start that was not made in its tick, counts as not ready (entry 100). -/
def execGangDefer (s : State) : Out State :=
  match s.launch s.place.n with
  | some l =>
    if l.lpb.gang && !l.begun && ((!l.ready && decide (l.start ≤ s.tick + 128)) || decide (l.start < s.tick)) then
      ok (s.setLaunch { l with start := l.start + 4096, notReady := false, shares := l.shares.map (fun x => { x with check := .unchecked }) })
    else idle s
  | none => idle s

/-- The first core cycle of core k is the first that ends in a tick. -/
def State.beginAt (s : State) (k : CoreKey) (tick : Nat) : State :=
  s.atCore k (fun t => { t with core := { t.core with clock := runPeriod t.coreStep ((tick * 504 + 209) / 210 - 1) * 210 } })

/-- GANG_START: the start tick stands, every die being ready: every group of the launch is placed, and executes its first instruction in
that tick (R112). -/
def execGangStart (s : State) : Out State :=
  match s.launch s.place.n with
  | some l =>
    if l.lpb.gang && !l.begun && l.ready && decide (l.start ≤ s.tick + 128) && decide (s.tick ≤ l.start) && !(l.lpb.abort && s.queueOver l.q) then
      let s := s.unreserve l
      let s := s.setLaunch { l with begun := true }
      ok (l.shares.foldl (fun s x => x.pending.foldl (fun s p =>
        match x.bind[p.1]?, s.launch l.lid with
        | some c, some m => (s.placeCounted m ⟨l.q.pkg, x.die, c⟩ p.2 m.prio).beginAt ⟨l.q.pkg, x.die, c⟩ l.start
        | _, _ => s) s) s)
    else idle s
  | none => idle s

/-! ### Fusing (R98, R106) -/

/-- The core that takes the groups of a fused core's logical core, when the binding is made afresh (R98, entry 19). -/
def State.rebind (s : State) (l : Launch) (x : DieShare) (i : Nat) : Nat :=
  let k : DieKey := ⟨l.q.pkg, x.die⟩
  match s.bindCores l.lpb x.bind.length k with
  | some b => b.getD i (((s.eligibleCores k).getLast?).getD 0)
  | none => ((s.eligibleCores k).getLast?).getD 0

/-- The share of a launch after core c has been fused: of a gang that has not begun the whole binding is made afresh, of another launch
that of the logical cores bound to c. -/
def State.rebound (s : State) (l : Launch) (x : DieShare) (c : Nat) : DieShare :=
  let whole := l.lpb.gang && !l.begun
  { x with
    bind := (List.range x.bind.length).map (fun i => if whole || x.bind.getD i 0 = c then s.rebind l x i else x.bind.getD i 0)
    check := if whole then .unchecked else x.check }

/-- The reservations of a gang follow its binding: cores that it leaves are given back, cores that it takes are reserved (R111). -/
def State.moveGang (s : State) (l : Launch) (x y : DieShare) : State :=
  let left := (x.cores l.q.pkg).filter (fun k => !(y.cores l.q.pkg).contains k)
  let new := (y.cores l.q.pkg).filter (fun k => !(x.cores l.q.pkg).contains k)
  let s := left.foldl (fun s k =>
    let d := s.getDie k.dieKey
    let sl := d.slot k.core
    s.setDie (d.setSlot k.core { sl with gangs := sl.gangs.filter (· ≠ l.lid) })) s
  new.foldl State.reserveCore (s, l.lid) |>.1

/-- A launch after core k has been fused: its unplaced groups become pending elsewhere (R98, R109). -/
def State.rebindLaunch (s : State) (k : CoreKey) (l : Launch) : State :=
  match l.share k.die with
  | some x =>
    if l.q.pkg = k.pkg ∧ x.bind.contains k.core = true then
      let y := s.rebound l x k.core
      let m := l.setShare y
      let s := s.setLaunch m
      if l.lpb.gang then (if l.begun then s else s.moveGang l x y) else s.preempt m
    else s
  | none => s

/-- A saved task ends with a fatal fault: CORE_LOST on a fused core (R106), MEMORY_ERROR on a die that is stopped (R396). Its image
and its log are discarded, and the record names its last SAFE. -/
def State.loseSaved (code : Nat) (s : State) (m : Saved) : State :=
  match m.core.task with
  | some t =>
    let rec_ := faultRecord { code := code, engine := 4 } { s with core := { m.core with pc := m.at_, task := some { t with safeAt := some m.at_ } } }
    let s := s.post 1 m.core.key (faultWords { m.core with ctl := { m.core.ctl with frec := rec_ } })
    match s.launch t.lid with
    | some l => s.setLaunch { (l.ended m.core.key.die t .fault) with done := t.tid.toNat :: l.done }
    | none => s
  | none => s

/-- The fuse map of a die: cores 0 to 63, and 64 to 95. -/
def State.fuseWords (s : State) (k : DieKey) : List Word :=
  let bit := fun (lo n : Nat) => (List.range n).foldl (fun v i => v + if s.fusedOff ⟨k.pkg, k.die, lo + i⟩ then 2 ^ i else 0) 0
  [BitVec.ofNat 64 (bit 0 64), BitVec.ofNat 64 (bit 64 32)]

/-- Fuse off a core that holds no work: saved tasks of it are lost, and its unplaced groups go elsewhere (R98, R106). -/
def State.fuse (s : State) (k : CoreKey) : State :=
  let p := s.getPkg k.pkg
  let s := s.setPkg { p with fused := p.fused ++ [(k.die, k.core)] }
  let d := s.getDie k.dieKey
  let mine := d.saved.filter (fun m => m.core.key = k)
  let s := mine.foldl (State.loseSaved 32) (s.setDie { d with saved := d.saved.filter (fun m => m.core.key ≠ k) })
  (s.launches.foldl (fun s l => s.rebindLaunch k l) s).post 6 k (s.fuseWords k.dieKey)

/-- CORE_FUSE: Flabino fuses off a core (R22, R106). A running flow task is first asked to stop at its next safe point. Of a
core that has failed (`place.n` 1), the work ends at once with CORE_LOST. -/
def execCoreFuse (s : State) : Out State :=
  let k := s.place.core
  let c := s.getCore k
  if s.fusedOff k then idle s
  else
    if c.phase = .free then ok (s.fuse k)
    else if s.place.n = 1 then
      if c.failed then idle s else ok (s.atCore k (fun t => t.atBoundary.raised { code := 32, engine := 4 }))
    else if (askStop .fuse c).stop = c.stop then idle s
    else ok (s.setCore (askStop .fuse c))

end Sys2Proof.Machine
end

