-- ==== Sys2Proof/Machine/LoadStore.lean ====
section
/-! DEFINITION. Sequencer loads, stores, fences and atomics (R303 to R306, R360 to R364). -/

namespace Sys2Proof.Machine

/-! ### Loads -/

/-- A load of n bytes at va: alignment, then translation, then m on the physical address and the translation, which is held. -/
def withRead (va n : Nat) (m : Nat → Trans → State → Out State) (s : State) : Out State :=
  if va % n ≠ 0 then alignFault va 0 0 s
  else
    match translate seqReach .read va s with
    | .error r => transFault va r 0 0 s
    | .ok (pa, tr) => m pa tr (s.hold tr)

/-- The same for a write, SLAB_BUSY left to the caller. -/
def withPlace (va n : Nat) (m : Nat → Trans → State → Out State) (s : State) : Out State :=
  if va % n ≠ 0 then alignFault va 0 0 s
  else
    match translate seqReach .write va s with
    | .error r => transFault va r 0 0 s
    | .ok (pa, tr) => m pa tr (s.hold tr)

/-- SLAB_BUSY for a write of n bytes that a forwarding pair covers, at the first byte in the covered range (R339). -/
def unlessCovered (va pa n : Nat) (m : State → Out State) (s : State) : Out State :=
  match s.slabFirst pa n with
  | some i => raise { code := 24, addr := va + i } s
  | none => m s

/-- A store or an atomic of n bytes: SLAB_BUSY follows translation (R339). -/
def withWrite (va n : Nat) (m : Nat → Trans → State → Out State) (s : State) : Out State :=
  withPlace va n (fun pa tr => unlessCovered va pa n (m pa tr)) s

/-- A load that has been sent on its way reads in this core cycle where nothing holds it (R365). -/
def sendLoad (f : Core → Core) (s : State) : Out State := ok ({ s with core := (f s.core).retire } : State).readsDue

/-- A load into g[D] (R291): it goes on its way, and LOAD_DATA_ARRIVAL brings the data. Into sp it reads at once, since the
check of sp is precise at the load (R181, entry 9). -/
def loadReg (cls : OrdClass) (sz : MemSize) (d : GReg) (va : Nat) (f : Core → Core) (s : State) (obs : BitVec 5 := 0) : Out State :=
  let n := sizeBytes sz
  withRead va n (fun pa tr s =>
    if d.val = 32 then
      if s.readBlocked cls s.core.num pa n then ok s
      else unlessSpoiled pa n (fun s => writeRetire d (extendSize sz (s.taskNum pa n)) f s) s
    else sendLoad (fun c => (f c).pushLoad cls (.reg d sz) [(0, pa)] n [tr] obs) s) s

/-- LD (Table 11.8). -/
def execLd (cls : OrdClass) (sz : MemSize) (d a : GReg) (off : BitVec 16) (s : State) : Out State :=
  loadReg cls sz d (effAddr s.core a off) id s

/-- LDACQ (R363): later accesses of its class in the reach of its mask, and records of the engines that it names, follow it. -/
def execLdacq (cls : OrdClass) (obs : BitVec 5) (sz : MemSize) (d a : GReg) (off : BitVec 16) (s : State) : Out State :=
  loadReg cls sz d (effAddr s.core a off) id s obs

/-- LDW (R208): through the walker, which then advances once. -/
def execLdw (cls : OrdClass) (sz : MemSize) (d : GReg) (w : WReg) (s : State) : Out State :=
  loadReg cls sz d (s.core.w.get w).addr (fun c => c.setWalker w ((c.w.get w).advance 1)) s

/-- LDP (R304): two words; both pages translate before either is read; with D = B the second stays. -/
def execLdp (cls : OrdClass) (d b a : GReg) (off : BitVec 16) (s : State) : Out State :=
  let va := effAddr s.core a off
  withRead va 8 (fun p0 t0 s => withRead ((va + 8) % 2 ^ 64) 8 (fun p1 t1 s =>
    if d.val = 32 || b.val = 32 then
      if s.readBlocked cls s.core.num p0 8 || s.readBlocked cls s.core.num p1 8 then ok s
      else unlessSpoiled p0 8 (unlessSpoiled p1 8 (fun s =>
        let v0 := BitVec.ofNat 64 (s.taskNum p0 8)
        let v1 := BitVec.ofNat 64 (s.taskNum p1 8)
        if d ≠ b && s.core.stackBad d v0 then raise { code := 6, addr := v0.toNat } s
        else writeRetire b v1 (fun c => c.wr d v0) s)) s
    else sendLoad (fun c => c.pushLoad cls (.pair d b) [(0, p0), (1, p1)] 8 [t0, t1]) s) s) s

/-! ### Stores -/

/-- Does a write by the current task at a physical address go to its merge log (R368)? -/
def State.logsAt (s : State) (pa : Nat) : Bool := s.core.det && detRegion s.core.key pa

/-- The classes of a mask of one. -/
def classMask (cls : OrdClass) : BitVec 16 := BitVec.ofNat 16 (2 ^ cls.val)

/-- A store of the low bytes of g[D] (R303). A release into the merge log, which takes effect at once, first waits for the earlier
accesses of its class (R362). -/
def storeReg (cls : OrdClass) (obs : BitVec 5) (sz : MemSize) (d : GReg) (va : Nat) (f : Core → Core) (s : State) : Out State :=
  let n := sizeBytes sz
  withWrite va n (fun pa tr s =>
    if obs ≠ 0 && s.logsAt pa && s.classBusy cls then waitOwn (classMask cls) (fun _ => true) s
    else storeBytes cls (addressed pa (toBytes n (s.core.rd d).toNat)) obs [tr] (fun c => (f c).retire) s) s

/-- ST (Table 11.8). -/
def execSt (cls : OrdClass) (sz : MemSize) (d a : GReg) (off : BitVec 16) (s : State) : Out State :=
  storeReg cls 0 sz d (effAddr s.core a off) id s

/-- STW (R208). -/
def execStw (cls : OrdClass) (sz : MemSize) (d : GReg) (w : WReg) (s : State) : Out State :=
  storeReg cls 0 sz d (s.core.w.get w).addr (fun c => c.setWalker w ((c.w.get w).advance 1)) s

/-- STREL (R362): it performs after the accesses of its class that precede it, in the reach of its mask, and records of the named
engines that are enqueued later wait for it. -/
def execStrel (cls : OrdClass) (obs : BitVec 5) (sz : MemSize) (d a : GReg) (off : BitVec 16) (s : State) : Out State :=
  storeReg cls obs sz d (effAddr s.core a off) id s

/-- STP (R304): one access where EA is a multiple of 16, else two; both words translate before either is looked up in a pair. -/
def execStp (cls : OrdClass) (d b a : GReg) (off : BitVec 16) (s : State) : Out State :=
  let va := effAddr s.core a off
  let vb := (va + 8) % 2 ^ 64
  withPlace va 8 (fun p0 t0 => withPlace vb 8 (fun p1 t1 => unlessCovered va p0 8 (unlessCovered vb p1 8 (fun s =>
    let l0 := addressed p0 (toBytes 8 (s.core.rd d).toNat)
    let l1 := addressed p1 (toBytes 8 (s.core.rd b).toNat)
    storeChunks cls (if va % 16 = 0 then [l0 ++ l1] else [l0, l1]) 0 [t0, t1] Core.retire s)))) s

/-! ### Fences (R360, R364) -/

/-- A fence: the word waits until every earlier access of the mask's classes with a home in some reach has performed (entry 10). -/
def fence (mask : BitVec 16) (reach : Nat → Bool) (s : State) : Out State :=
  if s.fenceBusy mask reach then waitOwn mask reach s else ok s.retire

/-- FENCE. -/
def execFence (mask : BitVec 16) (s : State) : Out State := fence mask (fun _ => true) s

/-- FENCEO: the same for homes within the named kinds' reach. -/
def execFenceo (mask : BitVec 16) (obs : BitVec 5) (s : State) : Out State := fence mask (inReach obs s.core.key) s

/-! ### Atomics (R305, R306, R371) -/

/-- The code of an atomic in the merge log (Table 14.3); none for AXCH and ACAS, which have no reduction. -/
def Rmw.red (m : Rmw) : Option Nat := if m.op < 8 ∨ m.op = 9 then some m.op else none

/-- A reduction into the task's merge log (R306, R370, R371). -/
def reduceInto (m : Rmw) (pa : Nat) (resv : List Nat) (log : List LogEntry) : Except LogStop (List LogEntry × Flags) :=
  let code := m.sz.code
  let n := sizeBytes m.sz
  let same := fun (e : LogEntry) => e.isRed && e.loc == pa && e.op == m.op && e.size == code
  match (List.range n).find? (fun i => log.any (fun e => e.touches (pa + i) && !same e) || resv.contains (pa + i)) with
  | some i => .error (.conflict (pa + i))
  | none =>
    match log.find? same with
    | some e =>
      let r := m.apply e.data.toNat
      .ok (log.map (fun x => if same x then { x with data := BitVec.ofNat 64 r.1 } else x), r.2)
    | none => if 16384 ≤ log.length + (logFresh log resv).length then .error (.full 1) else .ok (log ++ [redEntry m.op code pa m.x], Flags.none)

/-- One atomic (R305): under DET into the log, or DET_ATOMIC; otherwise it goes on its way to its home, where it performs at its point, and
g[D] waits for the old value (R365). Into sp it performs at once, once the agent's earlier accesses of the class have (entry 9). With a
mask it is a release and an acquire (R364). -/
def atomic (cls : OrdClass) (obs : BitVec 5) (m : Rmw) (d a : GReg) (off : BitVec 16) (s : State) : Out State :=
  let n := sizeBytes m.sz
  let va := effAddr s.core a off
  withWrite va n (fun pa tr s =>
    if s.logsAt pa then
      match (if d.val = 0 then m.red else none) with
      | none => raise { code := 20, addr := va } s
      | some _ =>
        if obs ≠ 0 && s.classBusy cls then waitOwn (classMask cls) (fun _ => true) s
        else
        match reduceInto m pa s.core.resv s.core.log with
        | .error e => logFault e 0 s
        | .ok (log, fl) => retireWith (fun c => c.orFlags 0 fl) (s.setLog log)
    else if d.val = 32 then
      if s.classBusy cls then waitOwn (classMask cls) (fun _ => true) s
      else unlessSpoiled pa n (fun s =>
        let old := s.num pa n
        let r := m.apply old
        let v := extendSize m.sz old
        if s.core.stackBad d v then raise { code := 6, addr := v.toNat } s
        else retireWith (fun c => (c.orFlags 0 r.2).wr d v) (s.write pa (toBytes n r.1))) s
    else retireWith (fun c =>
      let t := c.pushStore cls (addressed pa (List.replicate n 0)) obs [tr] false (some m)
      { c.pushLoad cls (.reg d m.sz) [(0, pa)] n [tr] 0 true with num := t.num, stores := t.stores }) s) s

/-- The integer atomic of an operation code, with its operand g[B]. -/
def intAtomic (op : Nat) (sz : MemSize) (c : Core) (b : GReg) : Rmw := ⟨op, sz, (c.rd b).toNat % 2 ^ (8 * sizeBytes sz), 0⟩

/-- AADD (Table 7.4). -/
def execAadd (cls : OrdClass) (obs : BitVec 5) (sz : MemSize) (d b a : GReg) (off : BitVec 16) (s : State) : Out State :=
  atomic cls obs (intAtomic 0 sz s.core b) d a off s
/-- AAND. -/
def execAand (cls : OrdClass) (obs : BitVec 5) (sz : MemSize) (d b a : GReg) (off : BitVec 16) (s : State) : Out State :=
  atomic cls obs (intAtomic 1 sz s.core b) d a off s
/-- AOR. -/
def execAor (cls : OrdClass) (obs : BitVec 5) (sz : MemSize) (d b a : GReg) (off : BitVec 16) (s : State) : Out State :=
  atomic cls obs (intAtomic 2 sz s.core b) d a off s
/-- AXOR. -/
def execAxor (cls : OrdClass) (obs : BitVec 5) (sz : MemSize) (d b a : GReg) (off : BitVec 16) (s : State) : Out State :=
  atomic cls obs (intAtomic 3 sz s.core b) d a off s
/-- AMINS. -/
def execAmins (cls : OrdClass) (obs : BitVec 5) (sz : MemSize) (d b a : GReg) (off : BitVec 16) (s : State) : Out State :=
  atomic cls obs (intAtomic 4 sz s.core b) d a off s
/-- AMINN. -/
def execAminn (cls : OrdClass) (obs : BitVec 5) (sz : MemSize) (d b a : GReg) (off : BitVec 16) (s : State) : Out State :=
  atomic cls obs (intAtomic 5 sz s.core b) d a off s
/-- AMAXS. -/
def execAmaxs (cls : OrdClass) (obs : BitVec 5) (sz : MemSize) (d b a : GReg) (off : BitVec 16) (s : State) : Out State :=
  atomic cls obs (intAtomic 6 sz s.core b) d a off s
/-- AMAXN. -/
def execAmaxn (cls : OrdClass) (obs : BitVec 5) (sz : MemSize) (d b a : GReg) (off : BitVec 16) (s : State) : Out State :=
  atomic cls obs (intAtomic 7 sz s.core b) d a off s
/-- AXCH: exchange. -/
def execAxch (cls : OrdClass) (obs : BitVec 5) (sz : MemSize) (d b a : GReg) (off : BitVec 16) (s : State) : Out State :=
  atomic cls obs (intAtomic 8 sz s.core b) d a off s

/-- ACAS: the operand is stored where the old value equals g[D]. -/
def execAcas (cls : OrdClass) (obs : BitVec 5) (sz : MemSize) (d b a : GReg) (off : BitVec 16) (s : State) : Out State :=
  atomic cls obs { intAtomic 10 sz s.core b with want := (s.core.rd d).toNat % 2 ^ (8 * sizeBytes sz) } d a off s

/-- AFADD: a floating-point add under RNE, flags to SFL. -/
def execAfadd (cls : OrdClass) (obs : BitVec 5) (dbl : Bool) (d b a : GReg) (off : BitVec 16) (s : State) : Out State :=
  atomic cls obs (intAtomic 9 (if dbl then .n64 else .n32) s.core b) d a off s

end Sys2Proof.Machine
end

