-- ==== Sys2Proof/Machine/Merge.lean ====
section
/-! DEFINITION. Merge logs: conflicts, their application at merge points, at the final merge, and at retirement (R373 to R375,
R466). -/

namespace Sys2Proof.Machine

/-! ### Conflicts (R373) -/

/-- The bytes of an entry's granule that it writes or reduces. -/
def LogEntry.covers (e : LogEntry) : List Nat := ((List.range 8).map (e.gran + ·)).filter e.touches

/-- Two reductions of one operation and size to one location. -/
def LogEntry.sameRed (e f : LogEntry) : Bool := e.isRed && f.isRed && e.loc == f.loc && e.op == f.op && e.size == f.size

/-- The lowest byte in conflict between two entries. -/
def entryConflict (e f : LogEntry) : Option Nat :=
  if e.gran = f.gran ∧ e.sameRed f = false then e.covers.find? f.touches else none

/-- The smaller of two, where there is one. -/
def minOpt : Option Nat → Option Nat → Option Nat
  | some a, some b => some (min a b)
  | some a, none => some a
  | none, b => b

/-- The lowest byte in conflict between two logs. -/
def logConflict (a b : List LogEntry) : Option Nat :=
  a.foldl (fun m e => b.foldl (fun m f => minOpt m (entryConflict e f)) m) none

/-- Logs by identifier, and the pairs in conflict: lower identifier, higher identifier, lowest byte, in ascending order. -/
abbrev TaskLogs := List (Nat × List LogEntry)

/-- Logs in ascending order of identifier. -/
def sortLogs (l : TaskLogs) : TaskLogs := l.foldr (fun x acc => (acc.takeWhile (fun y => y.1 < x.1)) ++ x :: acc.dropWhile (fun y => y.1 < x.1)) []

/-- The pairs in conflict of sorted logs. -/
def conflicts : TaskLogs → List (Nat × Nat × Nat)
  | [] => []
  | x :: r => r.filterMap (fun y => (logConflict x.2 y.2).map (fun b => (x.1, y.1, b))) ++ conflicts r

/-! ### Application (R373) -/

/-- The operation of a reduction entry on the value found and the combined operand. -/
def redValue (op size old x : Nat) : Nat × Flags :=
  if op = 9 then (let F := scalarFmt (size == 6); fpAdd F .rne false (F.val old) (F.val x))
  else (amoValue op (if size = 6 then 64 else 32) old x, Flags.none)

/-- One entry is applied. -/
def applyEntry (x : State × Flags) (e : LogEntry) : State × Flags :=
  if e.isRed then
    let r := redValue e.op e.size (x.1.num e.loc e.width) (e.data.toNat % 256 ^ e.width)
    (x.1.write e.loc (toBytes e.width r.1), x.2 ||| r.2)
  else
    (x.1.perform ((List.range 8).filterMap (fun i =>
      if bitAt e.mask i then some (e.gran + i, BitVec.ofNat 8 (e.data.toNat / 256 ^ i)) else none)), x.2)

/-- A log is applied in entry order: the memory and the flags of its AFADD entries. -/
def applyLog (s : State) (l : List LogEntry) : State × Flags := l.foldl applyEntry (s, Flags.none)

/-- The log of a task is emptied, and the flags go to its FPCS.SFL. -/
def State.clearLog (s : State) (k : CoreKey) (f : Flags) : State :=
  let c := s.getCore k
  s.setCore { c.orFlags 0 f with log := [] }

/-- Apply the logs of cores in ascending order of their tasks. -/
def State.applyCores (s : State) (l : List (Nat × CoreKey)) : State :=
  l.foldl (fun s e =>
    let x := applyLog s (s.getCore e.2).log
    x.1.clearLog e.2 x.2) s

/-! ### Gang launches (R372, R373, R466) -/

/-- The merge point at which a core waits, if it waits at a MERGE. -/
def Core.atMerge (c : Core) : Option Nat :=
  match decode c.ir, c.wait with
  | .ok g, some (.merge m) => if g.instr = .merge ∧ c.phase = .running then some m else none
  | _, _ => none

/-- Has a core's task finished (R372)? -/
def Core.finished (c : Core) : Bool := (match c.phase with | .ending _ => true | _ => false) && c.quiet

/-- The cores that hold tasks of a launch, by task. -/
def State.tasksOf (s : State) (lid : Nat) : List (Nat × Core) :=
  s.allCores.filterMap (fun c => match c.task with | some t => if t.lid = lid ∧ t.stream = false then some (t.tid.toNat, c) else none | none => none)

/-- The tasks of a launch whose logs are neither applied nor discarded, in ascending order. -/
def State.openTasks (s : State) (l : Launch) : List (Nat × Core) :=
  let ts := (s.tasksOf l.lid).filter (fun x => !l.done.contains x.1)
  let order := sortLogs (ts.map (fun x => (x.1, [])))
  order.filterMap (fun o => ts.find? (fun x => x.1 = o.1))

/-- A gang launch with DET that runs. -/
def gangDet (m : Launch → Out State) (s : State) : Out State :=
  match s.launch s.place.n with
  | some l => if l.lpb.gang && l.lpb.det && l.begun then m l else idle s
  | none => idle s

/-- The identifiers that are the higher of a pair in conflict. -/
def higherOf (l : List (Nat × Nat × Nat)) : List Nat := (l.map (·.2.1)).eraseDups
/-- The identifiers in a pair in conflict. -/
def inConflict (l : List (Nat × Nat × Nat)) : List Nat := (l.flatMap (fun x => [x.1, x.2.1])).eraseDups

/-- A merge at point m with a conflict: every running task is given the lowest pair; finished tasks in a pair lose their logs. -/
def State.mergeConflict (s : State) (l : Launch) (ts : List (Nat × Core)) (cs : List (Nat × Nat × Nat)) : State :=
  let first := cs.headD (0, 0, 0)
  let lost := ((ts.filter (fun x => x.2.finished)).map (·.1)).filter (inConflict cs).contains
  let s := ts.foldl (fun s x =>
    let c := s.getCore x.2.key
    if x.2.finished then (if lost.contains x.1 then s.setCore { c with log := [] } else s)
    else s.setCore { c with mergeFault := some first }) s
  s.setLaunch { l with done := lost ++ l.done, faults := lost ++ l.faults }

/-- A merge without a conflict: the logs are applied, waiting tasks go on, finished ones may retire. -/
def State.mergeDone (s : State) (l : Launch) (ts : List (Nat × Core)) : State :=
  let s := (s.applyCores (ts.map (fun x => (x.1, x.2.key)))).unveil l.lid
  let s := ts.foldl (fun s x =>
    match x.2.atMerge with
    | some m => s.setCore { s.getCore x.2.key with wait := some (.merged m) }
    | none => s) s
  s.setLaunch { l with done := (ts.filter (fun x => x.2.finished)).map (·.1) ++ l.done }

/-- MERGE_APPLY: every task of launch `place.n` has arrived at the merge point or has finished (R373). -/
def execMergeApply (s : State) : Out State :=
  gangDet (fun l =>
    let ts := s.openTasks l
    let waiting := ts.any (fun x => x.2.atMerge.isSome && x.2.mergeFault.isNone)
    if waiting && ts.all (fun x => (x.2.atMerge.isSome && x.2.mergeFault.isNone) || x.2.finished) then
      let cs := conflicts (ts.map (fun x => (x.1, x.2.log)))
      ok (if cs.isEmpty then s.mergeDone l ts else s.mergeConflict l ts cs)
    else idle s) s

/-- FINAL_MERGE: every task of launch `place.n` has finished (R466). -/
def execFinalMerge (s : State) : Out State :=
  gangDet (fun l =>
    let ts := s.openTasks l
    if !ts.isEmpty && ts.all (fun x => x.2.finished) then
      let cs := conflicts (ts.map (fun x => (x.1, x.2.log)))
      let ids := ts.map (·.1)
      let t := if cs.isEmpty then (s.applyCores (ts.map (fun x => (x.1, x.2.key)))).unveil l.lid
        else ts.foldl (fun s x => s.setCore { s.getCore x.2.key with log := [] }) s
      ok (t.setLaunch { l with done := ids ++ l.done, faults := higherOf cs ++ l.faults })
    else idle s) s

/-! ### Other launches, and streams (R374, R375) -/

/-- TASK_LOG_APPLY: the log of this core's DET task, which has ended, is applied once those of all lower identifiers have been; a
conflict with a log applied earlier discards it (R374). -/
def execTaskLogApply (s : State) : Out State :=
  let c := s.core
  match c.task with
  | some t =>
    match s.launch t.lid with
    | some l =>
      let n := t.tid.toNat
      if t.det && !t.gang && !t.stream && c.finished && !l.done.contains n && (List.range n).all l.done.contains then
        if l.logs.any (fun x => (logConflict x.2 c.log).isSome) then
          ok ({ s with core := { c with log := [] } }.setLaunch { l with done := n :: l.done, faults := n :: l.faults })
        else
          let x := applyLog s c.log
          ok (((x.1.clearLog c.key x.2).unveil l.lid).setLaunch { l with done := n :: l.done, logs := l.logs ++ [(n, c.log)] })
      else idle s
    | none => idle s
  | none => idle s

/-- The first conflict of a stream's log with those applied earlier whose streams' lives overlapped its own, which began with the
serial number `start`: the lowest byte, and of
the streams in conflict there the earliest. -/
def streamConflict (l : List StreamLog) (start : Nat) (log : List LogEntry) : Option (Nat × BitVec 32) :=
  (l.filter (fun x => decide (start < x.toT))).foldl (fun m x =>
    match logConflict x.log log, m with
    | some b, none => some (b, x.sid)
    | some b, some y => if b < y.1 then some (b, x.sid) else some y
    | none, m => m) none

/-- STREAM_LOG_APPLY: the log of this core's DET stream, which has ended, is applied once every stream of the die formed before it
is settled (R375). The order of formation is that of the identifiers as serial numbers, but for streams of an earlier binding, whose
identifiers may come again after a new one (R48; entry 107). -/
def execStreamLogApply (s : State) : Out State :=
  let c := s.core
  match c.task with
  | some t =>
    let d := s.ownDie
    if t.det && t.stream && c.finished && d.streams.contains (t.formNo, t.tid) && d.streams.all (fun x => decide (t.formNo ≤ x.1)) then
      let d := { d with streams := d.streams.filter (fun x => x.1 ≠ t.formNo) }
      match streamConflict d.streamLogs t.started c.log with
      | some (b, sid) =>
        let frec := faultRecord { code := 22, addr := b, detail := sid.toNat * 2 ^ 32 + t.tid.toNat } s
        ok ({ s with core := { c with log := [], phase := .ending .fault, ctl := { c.ctl with frec := frec } } }.setDie d)
      | none =>
        let x := applyLog s c.log
        ok ((x.1.clearLog c.key x.2).setDie { d with streamLogs := d.streamLogs ++ [⟨t.tid, t.formNo, c.log, t.started, 2 ^ 64⟩] })
    else idle s
  | none => idle s

end Sys2Proof.Machine
end

