-- ==== Sys2Proof/Machine/Control.lean ====
section
/-! DEFINITION. Branches, calls, hardware loops, guard slots, safe points, EXIT, TRAP and RTE (R193 to R204, R402, R403). -/

namespace Sys2Proof.Machine

/-! ### Targets (R193) -/

/-- A relative target: pc + sext(I32) modulo 131,072. -/
def Core.relTarget (c : Core) (i : BitVec 32) : BitVec 17 := c.pc + i.truncate 17

/-- Is a register value a target: bits [63:17] and [2:0] zero? -/
def targetOk (v : Word) : Bool := decide (v.toNat < 2 ^ 17) && v.toNat % 8 == 0

/-- BRANCH_TARGET with the offending value (R193). -/
def badTarget (v : Word) (s : State) : Out State := raise { code := 8, addr := v.toNat } s

/-- A conditional relative branch: taken, or retired as an ordinary word (R198). -/
def branchIf (t : Core → Bool) (i : BitVec 32) (s : State) : Out State :=
  if t s.core then transferTo (s.core.relTarget i) id s else ok s.retire

/-- BR (Table 8.6). -/
def execBr (i : BitVec 32) (s : State) : Out State := transferTo (s.core.relTarget i) id s

/-- BC (Table 8.6): 0 nonzero, 1 zero, 2 negative, 3 not negative. -/
def execBc (m : Fin 4) (a : GReg) (i : BitVec 32) (s : State) : Out State :=
  branchIf (fun c =>
    match m with
    | 0 => c.rd a != 0
    | 1 => c.rd a == 0
    | 2 => (c.rd a).msb
    | 3 => !(c.rd a).msb) i s

/-- BWE (Table 8.6): the walker's end flag e_j. -/
def execBwe (w : WReg) (j : Fin 4) (i : BitVec 32) (s : State) : Out State :=
  branchIf (fun c => (c.w.get w).flags.getLsbD j.val) i s

/-- Has every earlier word that changes the mask stack completed (R194)? -/
def Core.masksSettled (c : Core) : Bool := (c.vq ++ c.vfly).all (fun v => !isMaskWord v.instr)

/-- BMZ (R194): waits for the mask stack, then branches where its top entry is zero; an empty stack reads as ones. -/
def execBmz (i : BitVec 32) (s : State) : Out State :=
  if s.core.masksSettled then branchIf (fun c => c.masks.head? == some 0) i s else ok s

/-- BRL (Table 8.6): g[A] is read before g[D] is written. -/
def execBrl (d a : GReg) (s : State) : Out State :=
  let t := s.core.rd a
  let link : Word := (s.core.pc + 8).zeroExtend 64
  if !targetOk t then badTarget t s
  else if s.core.stackBad d link then raise { code := 6, addr := link.toNat, detail := 0 } s
  else transferTo (t.truncate 17) (fun c => c.wr d link) s

/-! ### The return store (R195, R196) -/

/-- Push a return address and transfer to t: with eight entries on chip, the oldest goes to the link stack first. -/
def pushAndGo (t : BitVec 17) (s : State) : Out State :=
  let c := s.core
  let v := c.pc + 8
  if c.retStore.length < 8 then transferTo t (fun c => { c with retStore := v :: c.retStore }) s
  else
    let a := c.ctl.lbase.toNat + 8 * c.lcnt
    if c.ctl.llim.toNat < a + 8 then raise { code := 6, slot := 7, addr := a, detail := 1 } s
    else
      match translate seqReach .write a s with
      | .error r => transFault a r 7 0 s
      | .ok (pa, tr) =>
        match s.slabFirst pa 8 with
        | some i => raise { code := 24, slot := 7, addr := a + i } s
        | none =>
          let oldest := (c.retStore.getLast?.getD 0).toNat
          storeBytes 0 (addressed pa (toBytes 8 oldest)) 0 [tr]
            (fun c => ({ c with retStore := v :: c.retStore.dropLast, lcnt := c.lcnt + 1, wait := none }.goto t).nextIn 3) (s.hold tr)

/-- CALL (R195). -/
def execCall (i : BitVec 32) (s : State) : Out State := pushAndGo (s.core.relTarget i) s

/-- CALLR (R195): the target is checked first. -/
def execCallr (a : GReg) (s : State) : Out State :=
  let t := s.core.rd a
  if targetOk t then pushAndGo (t.truncate 17) s else badTarget t s

/-- The pc moves to a without a change of origin (R392: RET and RTE). -/
def Core.jump (c : Core) (a : BitVec 17) : Core := { c with pc := a, repResume := false, wait := none, fetches := c.fetches + 1 }.markExecuted

/-- RET (R195): the newest entry on chip, or a refill from the link stack. The load waits for this agent's own class-0
stores to the word (R196, R228). The target issues three core cycles later, or four and the latency of the link stack's memory
(Table 8.1). -/
def execRet (s : State) : Out State :=
  let c := s.core
  match c.retStore with
  | v :: r => .next { s with core := ({ c with retStore := r }.jump v).nextIn 3 }
  | [] =>
    if c.lcnt = 0 then raise { code := 7 } s
    else
      let a := c.ctl.lbase.toNat + 8 * (c.lcnt - 1)
      match translate seqReach .read a s with
      | .error r => transFault a r 7 0 s
      | .ok (pa, tr) =>
        if s.readBlocked 0 c.num pa 8 then ok s
        else unlessSpoiled pa 8 (fun (s : State) =>
          let w := s.taskNum pa 8
          let c := (({ s.core with lcnt := s.core.lcnt - 1 }).hold tr).jump (BitVec.ofNat 17 (bits w 16 3 * 8))
          .next { s with core := c.nextIn (4 + nominal c.key pa) }) s

/-! ### Hardware loops (R197, R199) -/

/-- Start a loop of `cnt` passes on counter l, whose body ends at pc + e; a count of zero skips the body as a transfer of
control (R197, entry 8). -/
def startLoop (l : LReg) (cnt : BitVec 32) (e : BitVec 16) (s : State) : Out State :=
  let c := s.core
  let e17 : BitVec 17 := e.zeroExtend 17
  if cnt = 0 then
    transferTo (c.pc + e17 + 8) (fun c => { c with lc := c.lc.set l.val { c.lc.get l with active := false } }) s
  else retireWith (fun c => { c with lc := c.lc.set l.val ⟨cnt, c.pc + 8, c.pc + e17, true⟩ }) s

/-- LOOP (R197). -/
def execLoop (l : LReg) (n e : BitVec 16) (s : State) : Out State := startLoop l (n.zeroExtend 32) e s
/-- LOOPR (R197). -/
def execLoopr (l : LReg) (a : GReg) (e : BitVec 16) (s : State) : Out State := startLoop l ((s.core.rd a).truncate 32) e s

/-- Clear the active bit of counters up to l. -/
def clearLoops (l : LReg) (v : Vector LoopCtr 4) : Vector LoopCtr 4 :=
  [0, 1, 2, 3].foldl (fun v (n : Fin 4) => if n ≤ l then v.set n.val { v.get n with active := false } else v) v

/-- LBRK (R199). -/
def execLbrk (l : LReg) (i : BitVec 32) (s : State) : Out State :=
  transferTo (s.core.relTarget i) (fun c => { c with lc := clearLoops l c.lc }) s

/-! ### Guard slots (R200) -/

/-- A write to a guard slot; gs0 keeps reading resolved true. -/
def setSlot (n : SReg) (v : GuardSlot) (c : Core) : Core := if n.val = 0 then c else { c with gs := c.gs.set n.val v }

/-- GSET (R200). -/
def execGset (n : SReg) (a : PReg) (s : State) : Out State := retireWith (fun c => setSlot n (.resolved (c.rp a)) c) s
/-- GCLR (R200). -/
def execGclr (n : SReg) (s : State) : Out State := retireWith (setSlot n .unresolved) s

/-! ### Safe points, EXIT, TRAP, RTE -/

/-- SAFE (R202, R406): outside the handler it restarts the watchdog, and a pending stop takes effect here. A task stopped
for a destroy ends; any other waits for its image to be written. Its address is kept for CORE_LOST (R106). -/
def execSafe (groups : BitVec 8) (live : BitVec 32) (s : State) : Out State :=
  let c : Core := { s.core with task := s.core.task.map (fun (t : Task) => { t with safeAt := some s.core.pc }) }
  if c.priv then ok s.retire
  else
    match c.stop with
    | none => .next { s with core := { c with watch := 0 }.retire }
    | some .destroy => .next { s with core := { c.retire with watch := 0, phase := .ending .destroy } }
    | some _ => .next { s with core := { c.retire with watch := 0, phase := .stopped groups live c.pc } }

/-- EXIT (R204): the sequencer issues nothing more; the task retires under R411. -/
def execExit (s : State) : Out State := .next { s with core := { s.core with phase := .ending .exit, wait := none }.markExecuted }

/-- TRAP (R402). -/
def execTrap (n : BitVec 16) (s : State) : Out State := raise { code := 26, detail := n.toNat } s

/-- RTE (R403): back to EPC in user mode; a REP there resumes at REPPOS (R159). -/
def execRte (s : State) : Out State :=
  privileged (fun s =>
    let c := s.core
    let c := { c with ctl := { c.ctl with mode := c.ctl.mode &&& ~~~1 } }.jump (BitVec.ofNat 17 (bits c.ctl.epc.toNat 16 3 * 8))
    .next { s with core := { c with repResume := true } }) s

end Sys2Proof.Machine
end

