-- ==== Sys2Proof/Machine/Transcend.lean ====
section
/-! DEFINITION. The transcendental functions of R78. An exact value is a dyadic number, or a dyadic lower bound of the
magnitude at more than 250 significant bits with the sticky bit set; the X form rounds it once, and an F form returns
the implementation's value where it lies within the bound of Table 3.8. -/

namespace Sys2Proof

/-- ⌊π · 2^700⌋. -/
def piFix : Nat := 0x3243f6a8885a308d313198a2e03707344a4093822299f31d0082efa98ec4e6c89452821e638d01377be5466cf34e90c6cc0ac29b7c97c50dd3f84d5b5b54709179216d5d98979fb1bd1310ba698dfb5ac2ffd72dbd01adfb
/-- ⌊ln 2 · 2^320⌋. -/
def ln2Fix : Nat := 0xb17217f7d1cf79abc9e3b39803f2f6af40f343267298b62d8a0d175b8baafa2be7b876206debac98
/-- The fixed point of the series below: 2^320. -/
def oneFix : Nat := 2 ^ 320

/-- Σ r^j/j! over n terms from the term `t` = r^k/k! on. -/
def expSeries (r : Nat) : Nat → Nat → Nat → Nat
  | 0, _, _ => 0
  | n + 1, k, t => t + expSeries r n (k + 1) (t * r / oneFix / (k + 1))

/-- 2^f in fixed point, for f in [0, 1). -/
def exp2Frac (f : Nat) : Nat := expSeries (f * ln2Fix / oneFix) 72 0 oneFix

/-- Σ ±r^j/j! over every second j. -/
def altSeries (r : Nat) : Nat → Nat → Nat → Int
  | 0, _, _ => 0
  | n + 1, k, t => (t : Int) - altSeries r n (k + 2) (t * r / oneFix * r / oneFix / ((k + 1) * (k + 2)))

/-- sin r and cos r in fixed point, for r in [0, π/2]. -/
def sinFix (r : Nat) : Nat := (altSeries r 48 1 r).toNat
def cosFix (r : Nat) : Nat := (altSeries r 48 0 oneFix).toNat

/-- Σ z^(2j+1)/(2j+1), for z in [0, 1/3]. -/
def atanhSeries (z2 : Nat) : Nat → Nat → Nat → Nat
  | 0, _, _ => 0
  | n + 1, k, t => t / k + atanhSeries z2 n (k + 2) (t * z2 / oneFix)

/-- The result of a function before rounding: a fixed code with its flags, or a magnitude (m, e) with the sticky bit of
the part below it. -/
inductive FnVal where
  | code (c : Nat) (fl : Flags)
  | mag (neg : Bool) (m : Nat) (e : Int) (st : Bool)
  deriving DecidableEq, Repr

/-- A magnitude just below |x| (for sin x and tanh x of a tiny x). -/
def justBelow (neg : Bool) (m : Nat) (e : Int) : FnVal := .mag neg (m * 2 ^ 200 - 1) (e - 200) true

/-- 2^x. -/
def fnExp2 (neg : Bool) (m : Nat) (e : Int) : FnVal :=
  let big := 0 ≤ e ∨ 200 < shiftNat m e
  if m = 0 then .mag false 1 0 false
  else if big then (if 0 ≤ e ∧ shiftNat m (min e 200) ≤ 200 then .mag false 1 (if neg then -(shiftNat m e : Int) else shiftNat m e) false
    else .mag false 1 (if neg then -400 else 400) (decide (e < 0 ∧ m % 2 ^ (-e).toNat ≠ 0)))
  else
    let f0 := m * 2 ^ (320 + e).toNat
    let i0 := f0 / oneFix
    let r := f0 % oneFix
    if r = 0 then .mag false 1 (if neg then -(i0 : Int) else i0) false
    else if neg then .mag false (exp2Frac (oneFix - r)) (-(i0 : Int) - 1 - 320) true
    else .mag false (exp2Frac r) ((i0 : Int) - 320) true

/-- log2 x for x > 0. -/
def fnLog2 (m : Nat) (e : Int) : FnVal :=
  let l := Nat.log2 m
  let d := 2 ^ l
  let k : Int := e + l
  if m = d then (if k = 0 then .code 0 Flags.none else .mag (decide (k < 0)) k.natAbs 0 false)
  else
    let z := (m - d) * oneFix / (m + d)
    let ln := 2 * atanhSeries (z * z / oneFix) 110 1 z
    let v : Int := k * (oneFix : Int) + (ln * oneFix / ln2Fix : Nat)
    .mag (decide (v < 0)) v.natAbs (-320) true

/-- 1/√x for x > 0. -/
def fnRsqrt (m : Nat) (e : Int) : FnVal :=
  let odd := e % 2 = 1
  let m' := if odd then m * 2 else m
  let e' := if odd then e - 1 else e
  let r := isqrt (2 ^ 600 / m')
  .mag false r (-300 - e' / 2) (decide (r * r * m' ≠ 2 ^ 600))

/-- Quadrant and remainder (fixed point 2^320) of |x| by π/2. -/
def quadrant (m : Nat) (e : Int) : Nat × Nat :=
  let n := m * 2 ^ (701 + e).toNat
  (n / piFix, n % piFix / 2 ^ 381)

/-- sin x (or cos x). -/
def fnTrig (cos : Bool) (neg : Bool) (m : Nat) (e : Int) : FnVal :=
  if (Nat.log2 m : Int) + e < -40 then
    if cos then .mag false (2 ^ 200 - 1) (-200) true else justBelow neg m e
  else
    let (n, r) := quadrant m e
    let q := (if cos then n + 1 else n) % 4
    let v := if q % 2 = 0 then sinFix r else cosFix r
    .mag ((decide (2 ≤ q)) != (neg && !cos)) v (-320) true

/-- tanh x. -/
def fnTanh (neg : Bool) (m : Nat) (e : Int) : FnVal :=
  let l : Int := (Nat.log2 m : Int) + e
  if l < -40 then justBelow neg m e
  else if 6 ≤ l then .mag neg (2 ^ 200 - 1) (-200) true
  else
    let a := m * 2 ^ (321 + e).toNat * oneFix / ln2Fix
    let E := exp2Frac (a % oneFix) * 2 ^ (a / oneFix)
    .mag neg ((E - oneFix) * oneFix / (E + oneFix)) (-320) true

/-- The function `fn` (0 exp, 1 log, 2 reciprocal, 3 reciprocal square root, 4 sine, 5 cosine, 6 tanh) of an FP32
code that is no NaN, with the special results of Table 3.8. -/
def fnVal (fn : Nat) (c : Nat) : FnVal :=
  let F := FFmt.fp32
  let s := bitAt c 31
  match F.val c with
  | .inf neg =>
    match fn with
    | 0 => .code (if neg then 0 else F.infCode) Flags.none
    | 1 => if neg then .code F.defaultNaN Flags.nv else .code F.infCode Flags.none
    | 2 => .code (F.withSign neg 0) Flags.none
    | 3 => if neg then .code F.defaultNaN Flags.nv else .code 0 Flags.none
    | 6 => .code (F.withSign neg 0x3F800000) Flags.none
    | _ => .code F.defaultNaN Flags.nv
  | .dy neg m e =>
    if m = 0 then
      match fn with
      | 0 | 5 => .code 0x3F800000 Flags.none
      | 1 => .code (F.withSign true F.infCode) Flags.dz
      | 2 | 3 => .code (F.withSign s F.infCode) Flags.dz
      | _ => .code (F.withSign s 0) Flags.none
    else
      match fn with
      | 0 => fnExp2 neg m e
      | 1 => if neg then .code F.defaultNaN Flags.nv else fnLog2 m e
      | 2 => .mag neg (2 ^ 400 / m) (-400 - e) (decide (2 ^ 400 % m ≠ 0))
      | 3 => if neg then .code F.defaultNaN Flags.nv else fnRsqrt m e
      | 4 => fnTrig false neg m e
      | 5 => fnTrig true neg m e
      | _ => fnTanh neg m e
  | _ => .code F.defaultNaN Flags.none

/-- The X form: round_rne of the exact value (R78). -/
def fnX (fn : Nat) (c : Nat) : Nat × Flags :=
  match firstNaN FFmt.fp32 [FFmt.fp32.val c] with
  | some n => (n, Flags.none)
  | none =>
    match fnVal fn c with
    | .code r fl => (r, fl)
    | .mag neg m e st => roundMag FFmt.fp32 .rne false neg m e st

/-- Is the code within the bound of Table 3.8 of the value (neg, m, e)? An infinity stands for 2^128. -/
def fnWithin (fn : Nat) (x : Nat) (neg : Bool) (m : Nat) (e : Int) (v : Nat) : Bool :=
  let F := FFmt.fp32
  let E := max ((Nat.log2 m : Int) + e) F.emin
  let ulps : Int := if fn = 2 ∨ fn = 3 then 1 else 2
  let xm := x % 2 ^ 31
  let ovf := 128 ≤ (Nat.log2 m : Int) + e
  let isInf := v % 2 ^ 31 = F.infCode
  if F.infCode < v % 2 ^ 31 then false
  else if (fn = 4 ∨ fn = 5) ∧ 0x44800000 < xm then decide (v % 2 ^ 31 ≤ 0x3F800000)
  else if ovf && isInf then bitAt v 31 == neg
  else
    let (vm, ve) : Nat × Int :=
      match F.val v with
      | .dy _ a b => (a, b)
      | _ => (1, 128)
    let lo := min (min e ve) (E - 23)
    let diff : Int := signedAt (bitAt v 31) vm ve lo - signedAt neg m e lo
    let bound1 : Int := ulps * ((2 ^ (E - 23 - lo).toNat : Nat) : Int)
    let abs22 : Prop := fn = 4 ∨ fn = 5 ∨ (fn = 1 ∧ 0x3F000000 ≤ x ∧ x ≤ 0x40000000)
    let bound2 : Int := if abs22 ∧ lo ≤ -22 then ((2 ^ (-22 - lo).toNat : Nat) : Int) else 0
    decide (diff.natAbs ≤ max bound1 bound2)

/-- The exact cases of Table 3.8, its last column: NX stays clear in an F form. A special result outside that column is none. -/
def fnExact (fn : Nat) (c : Nat) : Bool :=
  match fnVal fn c with
  | .code _ _ =>
    match FFmt.fp32.val c with
    | .dy neg m _ => if m = 0 then fn == 0 || decide (4 ≤ fn) else fn == 1 && !neg
    | _ => fn == 6
  | .mag _ m e st => !st && (fn != 2 || decide (m = 2 ^ Nat.log2 m ∧ (Nat.log2 m : Int) + e < 128))

/-- The F form: the implementation's value where it is within the bound, else the X form's (R78). -/
def fnF (fn : Nat) (c : Nat) : Nat × Flags :=
  match firstNaN FFmt.fp32 [FFmt.fp32.val c] with
  | some n => (n, Flags.none)
  | none =>
    match fnVal fn c with
    | .code r fl =>
      let fl := if r % 2 ^ 31 = FFmt.fp32.infCode ∧ c % 2 ^ 31 < FFmt.fp32.infCode then fl ||| Flags.of else fl
      (r, if fnExact fn c then fl else fl ||| Flags.nx)
    | .mag neg m e _ =>
      let v0 := (Config.fForm fn (BitVec.ofNat 32 c)).toNat
      let v := if fnWithin fn c neg m e v0 then v0 else (fnX fn c).1
      let mag := v % 2 ^ 31
      (v, (if fnExact fn c then Flags.none else Flags.nx)
        ||| (if mag = FFmt.fp32.infCode then Flags.of else Flags.none)
        ||| (if mag < 0x800000 then Flags.uf else Flags.none))

end Sys2Proof
end

