-- ==== Sys2Proof/Machine/VecValues.lean ====
section
/-! DEFINITION. What the vector words compute on planes (R222 to R258): planes as lists of 1,024 elements, sub-elements,
active elements, trees and scans, dot products, packing. -/

namespace Sys2Proof.Machine

/-! ### Planes (R222) -/

/-- The values of n consecutive keys from i on, in one pass over a sparse list. -/
def denseFrom : List (Nat × Half) → Nat → Nat → List Half
  | _, _, 0 => []
  | [], i, n + 1 => 0 :: denseFrom [] (i + 1) n
  | (k, v) :: r, i, n + 1 => if k = i then v :: denseFrom r (i + 1) n else 0 :: denseFrom ((k, v) :: r) (i + 1) n

/-- A plane as its 1,024 elements. -/
def Core.plane (c : Core) (v : VReg) : Array Half := (denseFrom (c.planes.get v) 0 1024).toArray
/-- Element e of a plane. -/
def Core.elem (c : Core) (v : VReg) (e : Nat) : Half := sget 0 (c.planes.get v) e
/-- Element e of a plane's array. -/
def at_ (x : Array Half) (e : Nat) : Half := x.getD e 0
/-- Write an element of a plane. -/
def Core.putElem (c : Core) (v : VReg) (e : Nat) (x : Half) : Core :=
  { c with planes := c.planes.set v.val (sput 0 (c.planes.get v) e x), clean := { c.clean with planes := unsetBit c.clean.planes v.val } }
/-- Write elements (index 1,024 v + e). -/
def Core.putElems (c : Core) (l : List (Nat × Half)) : Core := l.foldl (fun c x => c.putElem (Fin.ofNat 32 (x.1 / 1024)) (x.1 % 1024) x.2) c

/-- The top mask: all ones when the stack is empty (R230). -/
def Core.topMask (c : Core) : BitVec 1024 := c.masks.headD (BitVec.allOnes 1024)
/-- The active elements, ascending. -/
def Core.active (c : Core) : List Nat := (List.range 1024).filter (fun e => c.topMask.getLsbD e)

/-! ### Results -/

/-- A result that writes nothing. -/
def VResult.none : VResult := ⟨[], 0, Option.none⟩

/-- Write f e to each active element of plane d, with the flags that f sets (R229, R230). -/
def mapActive (c : Core) (d : VReg) (f : Nat → Half × Flags) : VResult :=
  let l := c.active.map (fun e => (1024 * d.val + e, f e))
  ⟨l.map (fun x => (x.1, x.2.1)), l.foldl (fun a x => a ||| x.2.2) 0, Option.none⟩

/-! ### Sub-elements (R57) -/

/-- Sub-element i of an element of type t. -/
def subOf (t : ElemTy) (x : Half) (i : Nat) : Nat := x.toNat / 2 ^ (t.width * i) % 2 ^ t.width
/-- Put sub-elements together, from i on; the unused top bits of LG6 packing are zero. -/
def packFrom (t : ElemTy) (i : Nat) : List Nat → Nat
  | [] => 0
  | x :: r => x % 2 ^ t.width * 2 ^ (t.width * i) + packFrom t (i + 1) r
/-- An element from its sub-elements. -/
def packSubs (t : ElemTy) (l : List Nat) : Half := BitVec.ofNat 32 (packFrom t 0 l)
/-- Replace sub-element i. -/
def putSub (t : ElemTy) (x : Half) (i v : Nat) : Half :=
  packSubs t ((List.range t.count).map (fun j => if j = i then v else subOf t x j))

/-- One element from a function of each sub-element index. -/
def eachSub (t : ElemTy) (f : Nat → Nat × Flags) : Half × Flags :=
  let l := (List.range t.count).map f
  (packSubs t (l.map (·.1)), l.foldl (fun a x => a ||| x.2) 0)

/-- A lane-wise operation of two planes (R233). -/
def lane2 (c : Core) (t : ElemTy) (f : Nat → Nat → Nat × Flags) (d a b : VReg) : VResult :=
  let x := c.plane a
  let y := c.plane b
  mapActive c d (fun e => eachSub t (fun i => f (subOf t (at_ x e) i) (subOf t (at_ y e) i)))

/-- A lane-wise operation of one plane. -/
def lane1 (c : Core) (t : ElemTy) (f : Nat → Nat × Flags) (d a : VReg) : VResult :=
  let x := c.plane a
  mapActive c d (fun e => eachSub t (fun i => f (subOf t (at_ x e) i)))

/-- A lane-wise operation of three planes. -/
def lane3 (c : Core) (t : ElemTy) (f : Nat → Nat → Nat → Nat × Flags) (d a b q : VReg) : VResult :=
  let x := c.plane a
  let y := c.plane b
  let z := c.plane q
  mapActive c d (fun e => eachSub t (fun i => f (subOf t (at_ x e) i) (subOf t (at_ y e) i) (subOf t (at_ z e) i)))

/-- A word that acts on all 32 bits of each active element. -/
def bitwise (c : Core) (f : Half → Half → Half) (d a b : VReg) : VResult :=
  let x := c.plane a
  let y := c.plane b
  mapActive c d (fun e => (f (at_ x e) (at_ y e), 0))

/-- Each active element takes source element g e of plane a (R245, R248). -/
def moveFrom (c : Core) (g : Nat → Nat) (d a : VReg) : VResult :=
  let x := c.plane a
  mapActive c d (fun e => (at_ x (g e), 0))

/-! ### Conversion (R240) -/

/-- VCVT of one element: the destination element's old value is y. -/
def cvtElem (sT dT : ElemTy) (part : Nat) (mode : Rm) (sat : Bool) (x y : Half) : Half × Flags :=
  let ks := sT.count
  let kd := dT.count
  let m := min ks kd
  let r := (List.range m).foldl (fun (acc : Half × Flags) i =>
      let si := if kd < ks then part * m + i else i
      let di := if ks < kd then part * m + i else i
      if si < ks ∧ di < kd then
        let v := convert sT dT mode sat (subOf sT x si)
        (putSub dT acc.1 di v.1, acc.2 ||| v.2)
      else acc) (y, 0)
  r

/-! ### Reductions and scans (R246, R247) -/

/-- combine of R246: 0 add, 1 max, 2 min; none is an absent input. -/
def combine (t : ElemTy) (mode : Rm) (sat : Bool) (op : Nat) : Option (Nat × Flags) → Option (Nat × Flags) → Option (Nat × Flags)
  | none, b => b
  | a, none => a
  | some a, some b =>
    if op = 0 then let r := subAdd t mode sat a.1 b.1; some (r.1, r.2 ||| a.2 ||| b.2)
    else some (subMinMax t (op == 1) a.1 b.1, a.2 ||| b.2)

/-- One level of the tree: neighbours combined. -/
def treeLevel (f : Option (Nat × Flags) → Option (Nat × Flags) → Option (Nat × Flags)) :
    List (Option (Nat × Flags)) → List (Option (Nat × Flags))
  | a :: b :: r => f a b :: treeLevel f r
  | l => l

/-- The tree over at most 2^n inputs. -/
def tree (f : Option (Nat × Flags) → Option (Nat × Flags) → Option (Nat × Flags)) :
    Nat → List (Option (Nat × Flags)) → Option (Nat × Flags)
  | 0, l => (l.head?).join
  | n + 1, l => tree f n (treeLevel f l)

/-- identity(op, T) (R246). -/
def identityOf (t : ElemTy) (op : Nat) : Nat :=
  match op with
  | 0 => 0
  | 1 => if t.isFloat then 0xFF800000 else if t.signed then 0x80000000 else 0
  | _ => if t.isFloat then 0x7F800000 else if t.signed then 0x7FFFFFFF else 0xFFFFFFFF

/-- An input of an axis: absent when inactive. -/
def Core.axisInput (c : Core) (x : Array Half) (e : Nat) : Option (Nat × Flags) :=
  if c.topMask.getLsbD e then some ((at_ x e).toNat, 0) else none

/-- The elements of line i of an axis: a row (64 elements) or a lane (16). -/
def axisElems (row : Bool) (i : Nat) : List Nat :=
  if row then (List.range 64).map (fun k => 64 * i + k) else (List.range 16).map (fun k => 64 * k + i)

/-- VRRED and VCRED (R246). -/
def reduceAxis (c : Core) (row : Bool) (t : ElemTy) (mode : Rm) (sat : Bool) (op : Nat) (d a : VReg) : VResult :=
  let x := c.plane a
  let res := ((List.range (if row then 16 else 64)).map (fun i =>
      tree (combine t mode sat op) 6 ((axisElems row i).map (c.axisInput x)))).toArray
  mapActive c d (fun e =>
    match (res.getD (if row then e / 64 else e % 64) none) with
    | some r => (BitVec.ofNat 32 r.1, r.2)
    | none => (BitVec.ofNat 32 (identityOf t op), 0))

/-- The scan along one line: the prefix at each active element. -/
def scanLine (f : Option (Nat × Flags) → Option (Nat × Flags) → Option (Nat × Flags)) :
    Option (Nat × Flags) → List (Nat × Option (Nat × Flags)) → List (Nat × Nat × Flags)
  | _, [] => []
  | acc, (e, x) :: r =>
    match x with
    | none => scanLine f acc r
    | some _ =>
      let n := f acc x
      (match n with | some v => [(e, v)] | none => []) ++ scanLine f n r

/-- VRSCAN and VCSCAN (R247). -/
def scanAxis (c : Core) (row : Bool) (t : ElemTy) (mode : Rm) (sat : Bool) (op : Nat) (d a : VReg) : VResult :=
  let x := c.plane a
  let l := (List.range (if row then 16 else 64)).flatMap (fun i =>
    scanLine (combine t mode sat op) none ((axisElems row i).map (fun e => (e, c.axisInput x e))))
  ⟨l.map (fun y => (1024 * d.val + y.1, BitVec.ofNat 32 y.2.1)), l.foldl (fun f y => f ||| y.2.2) 0, Option.none⟩

/-! ### Dot products (R251, R252) -/

/-- The result of a dot product's special cases, or none: NaN, invalid, infinity, an exact zero (R251). `rdn`: where R251
gives +0 the result is −0 (R252). -/
def dotSpecial (ps : List (Num × Num)) (add : Num) (sum0 : Bool) (rdn : Bool) : Option (Nat × Flags) :=
  let F := FFmt.fp32
  match firstNaN F (ps.flatMap (fun p => [p.1, p.2]) ++ [add]) with
  | some r => some (r, Flags.none)
  | none =>
    let prods := ps.map (fun p => mulNum p.1 p.2)
    let all := prods ++ [some add]
    let pos := all.any (fun x => x == some (.inf false))
    let neg := all.any (fun x => x == some (.inf true))
    if prods.any (·.isNone) || (pos && neg) then some (invalid F)
    else if pos then some (F.infCode, Flags.none)
    else if neg then some (F.withSign true F.infCode, Flags.none)
    else if sum0 then
      let vs := all.filterMap id
      if vs.all (fun v => v.isZero) && vs.all (fun v => v.isNeg) then some (F.withSign true 0, Flags.none)
      else if vs.all (fun v => v.isZero) && vs.all (fun v => !v.isNeg) then some (0, Flags.none)
      else some (F.withSign rdn 0, Flags.none)
    else none

/-- The sum of exact terms as an integer against the least exponent. -/
def exactSum (T : List Term) : Int × Int :=
  let e := T.foldl (fun m t => min m t.2) 0
  (T.foldl (fun s t => s + t.1 * ((2 ^ (t.2 - e).toNat : Nat) : Int)) 0, e)

/-- The product of two finite values as a term. -/
def prodTerm (p : Num × Num) : Term :=
  match mulNum p.1 p.2 with
  | some v => v.term
  | none => (0, 0)

/-- A dot product of products `ps` and an addend; `window` chooses the sum of VDOT8 or the exact sum of VDOTB. -/
def dotElem (window : Bool) (mode : Rm) (sat : Bool) (ps : List (Num × Num)) (add : Num) : Nat × Flags :=
  let terms := ps.map prodTerm
  let part : Term := if window then (let r := alignWindow terms 25; (r.1, r.2.1)) else exactSum terms
  let sum := exactSum [part, add.term]
  match dotSpecial ps add (sum.1 == 0) (!window && mode == .rdn) with
  | some r => r
  | none => roundInt .fp32 mode sat sum.1 sum.2 false

/-- VDOT8 and VDOTB: element (4h + j, c) from rows 4j to 4j + 3 of the sources. -/
def dotPlane (c : Core) (window : Bool) (mode : Rm) (sat : Bool) (ta tb : ElemTy) (h : Nat) (d a b q : VReg) : VResult :=
  let x := c.plane a
  let y := c.plane b
  let z := c.plane q
  let es := c.active.filter (fun e => e / 256 == h)
  let l := es.map (fun e =>
    let j := e / 64 % 4
    let col := e % 64
    let ps := (List.range 4).flatMap (fun i => (List.range ta.count).map (fun k =>
      let s := 64 * (4 * j + i) + col
      (ta.val (subOf ta (at_ x s) k), tb.val (subOf tb (at_ y s) k))))
    (1024 * d.val + e, dotElem window mode sat ps (FFmt.fp32.val (at_ z e).toNat)))
  ⟨l.map (fun r => (r.1, BitVec.ofNat 32 r.2.1)), l.foldl (fun f r => f ||| r.2.2) 0, Option.none⟩

/-! ### Scales (R253), random bits (R79) -/

/-- x × 2^(κ − 127) in FP32 or BF16 (R253): a NaN keeps its code. -/
def scaleSub (t : ElemTy) (mode : Rm) (sat : Bool) (k x : Nat) : Nat × Flags :=
  if k = 255 then (t.ffmt.defaultNaN, Flags.none)
  else
    match t.ffmt.val x with
    | .dy neg m e => if m = 0 then (x, Flags.none) else roundMag t.ffmt mode sat neg m (e + k - 127) false
    | _ => (x, Flags.none)

/-- One round of vrng_mix (R79). -/
def vrngRound (x y : Word) (i : Nat) : Word × Word :=
  let x := x + y + BitVec.ofNat 64 i * 0x5B29E4C10D87A63F
  let x := x ^^^ (x >>> 31)
  let x := x * 0xA5C317E94B6D2F35
  let y := y ^^^ x.rotateLeft 17
  let y := y * 0x6F1BD85392A7C4E1
  (x, y ^^^ (y >>> 29))

/-- vrng_mix (R79). -/
def vrngMix (seed : Word) (tid : BitVec 32) (ctr : Word) (idx : Nat) : Half :=
  let y : Word := (tid.zeroExtend 64 <<< 32 ||| BitVec.ofNat 64 idx) ^^^ seed.rotateLeft 29
  let r := [0, 1, 2, 3, 4, 5].foldl (fun (p : Word × Word) i => vrngRound p.1 p.2 i) (ctr ^^^ seed, y)
  ((r.1 ^^^ r.2) >>> 32).truncate 32

/-! ### Wide words (R256 to R258) -/

/-- The 512-bit word w of a plane. -/
def wideWord (x : Array Half) (w : Nat) : Nat := (List.range 16).foldr (fun j n => (at_ x (16 * w + j)).toNat + 2 ^ 32 * n) 0
/-- The 16 elements of a 512-bit word. -/
def wideElems (v : Nat) : List Half := (List.range 16).map (fun j => BitVec.ofNat 32 (v / 2 ^ (32 * j)))

/-- A field whose value is not listed has the effect of zero (R15). -/
def listed (lo hi n : Nat) : Nat := if lo ≤ n ∧ n ≤ hi then n else 0

/-- Fields of GWCFG (Table 8.10). -/
def gwG (w : Word) : Nat := listed 4 128 (bits w.toNat 31 24)
def gwK (w : Word) : Nat := listed 1 64 (bits w.toNat 23 16)
def gwWA (w : Word) : Nat := listed 1 16 (bits w.toNat 15 11)
def gwSA (w : Word) : Bool := w.getLsbD 10
def gwWB (w : Word) : Nat := listed 1 16 (bits w.toNat 9 5)
def gwSB (w : Word) : Bool := w.getLsbD 4

/-- Write whole wide words: those whose element 16w is active (R256). -/
def mapWide (c : Core) (d : VReg) (f : Nat → List Half × Flags) : VResult :=
  let l := ((List.range 64).filter (fun w => c.topMask.getLsbD (16 * w))).map (fun w => (w, f w))
  ⟨l.flatMap (fun r => (List.range 16).map (fun j => (1024 * d.val + 16 * r.1 + j, r.2.1.getD j 0))),
    l.foldl (fun a r => a ||| r.2.2) 0, Option.none⟩

/-- VPKP (R257). -/
def packWide (c : Core) (t : ElemTy) (selB : Bool) (part : Nat) (gw : Word) (d a : VReg) : VResult :=
  let x := c.plane a
  let k := t.count
  let W := if selB then gwWB gw else gwWA gw
  let sg := if selB then gwSB gw else gwSA gw
  let value := fun t' => if t' < 1024 * k then t.int (subOf t (at_ x (t' / k)) (t' % k)) else 0
  mapWide c d (fun w =>
    let ds := (List.range (gwK gw)).map (fun j =>
      let v := value ((64 * part + w) * gwK gw + j)
      let u := clampInt (intMin W sg) (intMax W sg) v
      (u * ((2 ^ (gwG gw * j) : Nat) : Int), if u ≠ v then Flags.of else Flags.none))
    (wideElems (wrapN 512 (ds.foldl (fun s p => s + p.1) 0)), ds.foldl (fun f p => f ||| p.2) 0))

/-- VXTP (R258). -/
def extractWide (c : Core) (f n : Nat) (gw : Word) (d a : VReg) : VResult :=
  let x := c.plane a
  mapWide c d (fun w =>
    let ds := (digits (gwG gw) (f + n) (sintOf 512 (wideWord x w))).drop f
    let rs := ds.map clampDigit
    ((rs.map (fun r => BitVec.ofNat 32 r.1)) ++ List.replicate (16 - n) 0, rs.foldl (fun a r => a ||| r.2) 0))

/-- nz(vA) (R231): bit e is 1 where element e is nonzero. -/
def Core.nzMask (c : Core) (a : VReg) : BitVec 1024 :=
  (c.planes.get a).foldl (fun m e => m ||| BitVec.ofNat 1024 (2 ^ e.1)) 0

end Sys2Proof.Machine
end

