-- ==== Sys2Proof/Machine/Accumulate.lean ====
section
/-! DEFINITION. Accumulator entries: how products, log terms and packed products are added (R73 to R76, R274 to R281), how
an entry is normalised, loaded, drained and extracted (R77, R282 to R287). -/

namespace Sys2Proof.Machine

/-! ### Windowed float (R75) -/

/-- The FP64 image of a NaN (R75). -/
def nanImage (x : Num) : Word :=
  match x with
  | .nan neg frac fb => BitVec.ofNat 64 (nanConv .fp64 neg frac fb)
  | _ => BitVec.ofNat 64 FFmt.fp64.defaultNaN

/-- Is it a NaN? -/
def numNaN : Num → Bool
  | .nan _ _ _ => true
  | _ => false

/-- Hold the first NaN (R75): M[63:0] takes its image, and M changes no more. -/
def AccEntry.hold (e : AccEntry) (x : Word) : AccEntry :=
  if e.nv then e else { e with nv := true, m := e.m.extractLsb' 64 64 ++ x }

/-- Hold the first NaV (R73): M takes its code, zero-extended. -/
def AccEntry.holdNav (e : AccEntry) (m : BitVec 128) : AccEntry := if e.nv then e else { e with nv := true, m := m }

/-- What one product sets in the guard bits. -/
def AccEntry.special (e : AccEntry) (p : Num × Num) : AccEntry :=
  if numNaN p.1 then e.hold (nanImage p.1)
  else if numNaN p.2 then e.hold (nanImage p.2)
  else
    match mulNum p.1 p.2 with
    | none => { e.hold (BitVec.ofNat 64 FFmt.fp64.defaultNaN) with inv := true }
    | some (.inf true) => { e with ninf := true }
    | some (.inf false) => { e with pinf := true }
    | _ => e

/-- Does an integer fit in s128? -/
def fits128 (x : Int) : Bool := decide (-(2 ^ 127 : Nat) ≤ x ∧ x < (2 ^ 127 : Nat))

/-- Steps 2 to 5 of R75 on exact terms. Terms that are all zero change nothing. Where nonzero products cancel to P = 0 and M is 0
too, step 3 has no nonzero term to take its weight q from, and R75 states none: the entry keeps its EXP (entry 91). -/
def AccEntry.addTerms (e : AccEntry) (T : List Term) : AccEntry :=
  if T.all (fun t => t.1 == 0) then e
  else
    let (p, qp, sp) := alignWindow T 128
    let (v, q, s2) := alignWindow [(e.m.toInt, e.exp.toInt), (p, qp)] 128
    let fits := fits128 v
    let q := if v = 0 ∧ e.m = 0 then e.exp.toInt else q
    { e with
      m := BitVec.ofInt 128 (if fits then v else v / 2)
      exp := BitVec.ofInt 28 (if fits then q else q + 1)
      stk := e.stk || sp || s2 || (!fits && v % 2 != 0) }

/-- One k-step of a float product into an entry (R75, R274). -/
def AccEntry.addProducts (e : AccEntry) (ps : List (Num × Num)) : AccEntry :=
  let e := ps.foldl AccEntry.special { e with tag := 1, head := 0 }
  if e.nv then e else e.addTerms (ps.map prodTerm)

/-! ### Log terms (R72, R73, R275) -/

/-- lg_table (R72). -/
def lgTable : List Nat := [4096, 4467, 4871, 5312, 5793, 6317, 6889, 7512]

/-- The code that a NaV leaves in M (R73). -/
def navImage (six : Bool) : BitVec 128 := if six then 0xFFF80000C0000000 else 0xFFF8000100000000

/-- The integer term of a log product (R73); zero for a zero operand. -/
def lgTerm (p : Num × Num) : Int :=
  match p.1, p.2 with
  | .lg s k, .lg t l =>
    let e := k + l
    let v : Int := (lgTable.getD (e % 8).toNat 0 * 2 ^ (e / 8 + 16).toNat : Nat)
    if s != t then -v else v
  | _, _ => 0

/-- Add an exact integer to M; leaving s128 sets OVF and wraps (R76). -/
def AccEntry.addInt (e : AccEntry) (x : Int) : AccEntry :=
  let v := e.m.toInt + x
  { e with m := BitVec.ofInt 128 v, ovf := e.ovf || !fits128 v }

/-- One log product into an entry. -/
def AccEntry.addLog (e : AccEntry) (p : Num × Num) : AccEntry :=
  match p.1, p.2 with
  | .nav six, _ => e.holdNav (navImage six)
  | _, .nav six => e.holdNav (navImage six)
  | _, _ => if e.nv then e else e.addInt (lgTerm p)

/-- One issue of a PLOG into an entry (R275): TAG 2, EXP −28. -/
def AccEntry.addLogs (e : AccEntry) (ps : List (Num × Num)) : AccEntry :=
  ps.foldl AccEntry.addLog { e with tag := 2, exp := BitVec.ofInt 28 (-28) }

/-! ### Packed products (R277) -/

/-- The nearest integer to x / 2^k; on a tie the direction is open (entry 12). -/
def nearest (x : Int) (k : Nat) : Int :=
  if k = 0 then x
  else
    let h : Int := (2 ^ (k - 1) : Nat)
    let d : Int := (2 ^ k : Nat)
    if x % d = h then x / d + (if Config.tieUp k x then 1 else 0) else (x + h) / d

/-- One product of a PMULP into an entry: g digit bits, window from digit f (R277). V is added whatever the guard bits are. -/
def AccEntry.addPacked (e : AccEntry) (g f : Nat) (x : Int) : AccEntry :=
  let n := g * (128 / g)
  let v := sintOf n (wrapN n (nearest x (g * f)))
  { e with tag := 3, exp := BitVec.ofInt 28 (g * f : Nat) }.addInt v

/-! ### Headroom (R276, R278, R282) -/

/-- ⌈log2 n⌉ as the bits of a bound. -/
def bitsFor (n : Nat) : Nat := clog2 n

/-- The bit count b of an entry under TAG 2 (R276). -/
def lgBits (tag : BitVec 4) (head : BitVec 8) : Nat := if tag = 0 then 0 else 127 - head.toNat
/-- b′ after n more issues of 16 terms (R276); `n` counts terms. -/
def lgBits' (b n : Nat) : Nat := bitsFor (2 ^ b + n * 2 ^ 44)
/-- The digit-bound bits D of an entry under TAG 3 (R278). -/
def digitBits (g : Nat) (tag : BitVec 4) (head : BitVec 8) : Nat := if tag = 0 then 0 else g - 1 - head.toNat
/-- The per-digit bound of one issue, K × mA × mB (R278). -/
def digitBound (gw : Word) : Nat :=
  let m := fun (w : Nat) (sg : Bool) => if sg then 2 ^ (w - 1) else 2 ^ w - 1
  gwK gw * m (gwWA gw) (gwSA gw) * m (gwWB gw) (gwSB gw)

/-- PNORM on an entry (R282; M = −2¹²⁷: entry 80). -/
def AccEntry.norm (e : AccEntry) (gw : Word) : AccEntry :=
  if e.tag = 2 then
    let m := e.m.toInt.natAbs
    { e with head := if m = 2 ^ 127 then Config.headLeast e.exp else BitVec.ofNat 8 (127 - (if m = 0 then 0 else Nat.log2 m + 1)) }
  else if e.tag = 3 ∧ gwG gw ≠ 0 ∧ gwK gw ≠ 0 then
    let g := gwG gw
    let top := (digits g (128 / g) e.m.toInt).foldl (fun n d => max n d.natAbs) 0
    let d := bitsFor (top + 1)
    if g - 1 < d then { e with head := 0, ovf := true } else { e with head := BitVec.ofNat 8 (g - 1 - d) }
  else e

/-! ### The image of an entry (Table 3.6, R283) -/

/-- The entry that 32 bytes hold; reserved bits are dropped. -/
def entryOf (n : Nat) : AccEntry :=
  { m := BitVec.ofNat 128 n, exp := BitVec.ofNat 28 (bits n 155 128), tag := BitVec.ofNat 4 (bits n 159 156)
    head := BitVec.ofNat 8 (bits n 167 160), nv := bitAt n 191, pinf := bitAt n 190, ninf := bitAt n 189, stk := bitAt n 188
    ovf := bitAt n 187, inv := bitAt n 186 }

/-- The image of an entry. -/
def AccEntry.image (e : AccEntry) : Nat :=
  let b := fun (x : Bool) (i : Nat) => if x then 2 ^ i else 0
  e.m.toNat + e.exp.toNat * 2 ^ 128 + e.tag.toNat * 2 ^ 156 + e.head.toNat * 2 ^ 160 + b e.nv 191 + b e.pinf 190
    + b e.ninf 189 + b e.stk 188 + b e.ovf 187 + b e.inv 186

/-! ### Scaling (R281) -/

/-- One source entry with its two X8 codes into a destination entry. -/
def AccEntry.scaleInto (t s : AccEntry) (row col : Nat) : AccEntry :=
  let t := { t with tag := 1, head := 0 }
  if row = 255 || col = 255 || s.nv || s.ovf then
    { t.hold (BitVec.ofNat 64 FFmt.fp64.defaultNaN) with inv := t.inv || s.inv || s.ovf }
  else if s.pinf || s.ninf then { t with pinf := t.pinf || s.pinf, ninf := t.ninf || s.ninf }
  else if s.tag ≠ 0 then
    let t := if t.nv then t else t.addTerms [(s.m.toInt, s.exp.toInt + row + col - 254)]
    { t with stk := t.stk || s.stk }
  else t

/-! ### Drains (R77, R286, R287) -/

/-- The magnitude of v · 2^e with a value just above it in sign order made a magnitude with a sticky bit. -/
def stickyMag (v : Int) (st : Bool) (e : Int) : Nat × Int :=
  if v < 0 ∧ st = true then (v.natAbs * 2 ^ 160 - 1, e - 160) else (v.natAbs, e)

/-- A drain of an entry into a type (R77). An infinity drained into an integer format is rounded by R68, which sets NV and gives the
format's bound; the OF of R77 is for float and Orris formats (entry 92). -/
def AccEntry.drain (e : AccEntry) (t : ElemTy) (mode : Rm) (sat : Bool) : Nat × Flags :=
  let F := t.ffmt
  let nan := fun (x : Nat × Flags) => if t.isFloat then x else if t.isOrris then (navCode (t == .lg6), x.2) else (0, Flags.nv)
  let v := e.m.toInt
  let x := e.exp.toInt
  if e.nv then
    let r := nan (nanConv F (e.m.getLsbD 63) (e.m.toNat % 2 ^ 52) 52, Flags.none)
    (r.1, r.2 ||| (if e.inv then Flags.nv else Flags.none))
  else if e.ovf || (e.pinf && e.ninf) then nan (F.defaultNaN, Flags.nv)
  else if e.pinf || e.ninf then
    if t.isFloat then infResult F e.ninf
    else if t.isOrris then (((Num.inf e.ninf).toOrris (t == .lg6)).1, Flags.of)
    else (Num.inf e.ninf).toInt t.width t.signed mode
  else if v = 0 && !e.stk then (if t.isFloat then F.withSign (mode == .rdn) 0 else 0, Flags.none)
  else if t.isFloat then roundInt F mode sat v x e.stk
  else
    let (m, q) := stickyMag v e.stk x
    if t.isOrris then toLgDyadic (t == .lg6) (decide (v < 0)) m q e.stk
    else toIntMag t.width t.signed mode (decide (v < 0)) m q e.stk

/-- The 16 values of a PXTP issue (R287): digits f to f + n − 1, then zeros. -/
def AccEntry.extract (e : AccEntry) (g f n : Nat) : List (Nat × Flags) :=
  ((digits g (f + n) e.m.toInt).drop f).map clampDigit ++ List.replicate (16 - n) (0, Flags.none)

end Sys2Proof.Machine
end

