-- ==== Sys2Proof/Machine/Interlock.lean ====
section
/-! DEFINITION. The sequencer's interlock (R180, R291, Table 8.1): which registers a word names and reads, whether the data or the result of
one of them is still to come, and the latencies of words. -/

namespace Sys2Proof.Machine

/-- The general registers that a word names, to read or to write. -/
def gNames : Instr → List GReg
  | .add d a b | .sub d a b | .mul d a b | .mulhs d a b | .mulhn d a b | .divs d a b | .divn d a b | .rems d a b | .remn d a b
  | .and d a b | .or d a b | .xor d a b | .andn d a b | .shl d a b | .shrl d a b | .shra d a b | .rotl d a b | .mins d a b | .minn d a b
  | .maxs d a b | .maxn d a b | .sel d a b _ | .lea d a b _ _ | .fadd _ _ d a b | .fsub _ _ d a b | .fmul _ _ d a b | .fdiv _ _ d a b
  | .fmin _ d a b | .fmax _ d a b | .fsgn _ d a b _ | .need d a b _ | .ldp _ d a b _ | .stp _ d a b _ | .aadd _ _ _ d a b _
  | .aand _ _ _ d a b _ | .aor _ _ _ d a b _ | .axor _ _ _ d a b _ | .amins _ _ _ d a b _ | .aminn _ _ _ d a b _ | .amaxs _ _ _ d a b _
  | .amaxn _ _ _ d a b _ | .axch _ _ _ d a b _ | .acas _ _ _ d a b _ | .afadd _ _ _ d a b _ | .sigw _ d a b _ _ => [d, a, b]
  | .ffma _ _ d a b c => [d, a, b, c]
  | .clz d a | .ctz d a | .popc d a | .sext d a _ | .bfxs d a _ _ | .bfxn d a _ _ | .bfi d a _ _ | .addi d a _ | .andi d a _ | .ori d a _
  | .xori d a _ | .shli d a _ | .fsqrt _ _ d a | .fcls _ d a | .fcvt _ _ _ d a | .brl d a | .batch d a _ | .kva d a _ | .ld _ _ d a _
  | .st _ _ d a _ | .ldacq _ _ _ d a _ | .strel _ _ _ d a _ => [d, a]
  | .cmpeq _ a b | .cmpne _ a b | .cmplts _ a b | .cmples _ a b | .cmpltn _ a b | .cmplen _ a b | .fcmp _ _ a b _ | .sigadd _ _ a b _
  | .sigmax _ _ a b _ | .tmark a b _ _ | .vld _ _ _ a b _ | .vst _ _ _ a b _ => [a, b]
  | .spadj _ => [32]
  | .spmov d _ => [d, 32]
  | .spmovSp a _ => [32, a]
  | .movi d _ | .movh d _ | .prsave d | .wpos d _ _ | .shard d _ | .acalloc d _ | .ldw _ _ d _ | .stw _ _ d _ | .bara d _ _
  | .barq d _ _ | .ctlrd d _ | .tick d | .vmovExtract d _ _ _ => [d]
  | .prload a | .bc _ a _ | .callr a | .loopr _ a _ | .wbind _ a | .enq a | .acfree a | .barw _ _ a | .barc _ _ a | .ctlwr _ a
  | .ctlset _ a | .ctlclr _ a | .qcreate a | .qkill a | .vmovInsert _ a _ _ | .vbc _ a | .vldw _ _ _ _ a | .vstw _ _ _ _ a
  | .vgath _ _ _ a _ _ | .vscat _ _ _ a _ _ => [a]
  | .enqr base => (List.range 8).map (fun i => Fin.ofNat 33 (8 * (base.val + 1) + i))
  | _ => []

/-- The general registers that a word reads. -/
def gReads (i : Instr) : List GReg :=
  match i with
  | .bfi _ _ _ _ | .movh _ _ | .st _ _ _ _ _ | .strel _ _ _ _ _ _ | .stw _ _ _ _ | .stp _ _ _ _ _ | .acas _ _ _ _ _ _ _ | .cmpeq _ _ _
  | .cmpne _ _ _ | .cmplts _ _ _ | .cmples _ _ _ | .cmpltn _ _ _ | .cmplen _ _ _ | .fcmp _ _ _ _ _ | .sigadd _ _ _ _ _ | .sigmax _ _ _ _ _
  | .tmark _ _ _ _ | .vld _ _ _ _ _ _ | .vst _ _ _ _ _ _ | .spadj _ | .prload _ | .bc _ _ _ | .callr _ | .loopr _ _ _ | .wbind _ _ | .enq _
  | .acfree _ | .barw _ _ _ | .barc _ _ _ | .ctlwr _ _ | .ctlset _ _ | .ctlclr _ _ | .qcreate _ | .qkill _ | .vmovInsert _ _ _ _ | .vbc _ _
  | .vldw _ _ _ _ _ | .vstw _ _ _ _ _ | .vgath _ _ _ _ _ _ | .vscat _ _ _ _ _ _ | .enqr _ => gNames i
  | .ldp _ _ _ a _ => [a]
  | _ => (gNames i).tail

/-- The predicates that a word reads, beside its guard. -/
def pReads : Instr → List PReg
  | .sel _ _ _ p | .gset _ p | .pnot _ p => [p]
  | .pand _ a b | .por _ a b | .pxor _ a b => [a, b]
  | .prsave _ => List.finRange 8
  | _ => []

/-! ### Latencies (Table 8.1) -/

/-- Does a word use the unit that divides and takes square roots, which serves one word at a time (R180)? -/
def usesDivider : Instr → Bool
  | .divs _ _ _ | .divn _ _ _ | .rems _ _ _ | .remn _ _ _ | .fdiv _ _ _ _ _ | .fsqrt _ _ _ _ => true
  | _ => false

/-- The core cycles after which a word that reads the result may issue. -/
def latencyOf : Instr → Nat
  | .mul _ _ _ | .mulhs _ _ _ | .mulhn _ _ _ => 3
  | .divs _ _ _ | .divn _ _ _ | .rems _ _ _ | .remn _ _ _ => 20
  | .fadd _ _ _ _ _ | .fsub _ _ _ _ _ | .fmul _ _ _ _ _ | .ffma _ _ _ _ _ _ | .fmin _ _ _ _ | .fmax _ _ _ _ | .fcmp _ _ _ _ _ | .fcls _ _ _
  | .fsgn _ _ _ _ _ | .fcvt _ _ _ _ _ => 4
  | .fdiv dbl _ _ _ _ => if dbl then 20 else 12
  | .fsqrt dbl _ _ _ => if dbl then 24 else 14
  | .ctlrd _ _ | .tick _ | .shard _ _ | .batch _ _ _ | .wpos _ _ _ => 6
  | _ => 1

/-- The numbers under which the account of results keeps general registers, predicates and the divider. -/
def scoreG (a : GReg) : Nat := a.val
def scoreP (a : PReg) : Nat := 64 + a.val
def scoreDivider : Nat := 128

/-- What a word's result is kept under. -/
def scoreDest (i : Instr) : List Nat :=
  (match i with
    | .fcmp _ d _ _ _ | .cmpeq d _ _ | .cmpne d _ _ | .cmplts d _ _ | .cmples d _ _ | .cmpltn d _ _ | .cmplen d _ _ | .pand d _ _ | .por d _ _
    | .pxor d _ _ | .pnot d _ => [scoreP d]
    | _ => ((gNames i).take 1).map scoreG) ++ (if usesDivider i then [scoreDivider] else [])

/-- What a word has to be able to read. -/
def scoreNeeds (i : Instr) : List Nat :=
  (gReads i).map scoreG ++ (pReads i).map scoreP ++ (if usesDivider i then [scoreDivider] else [])

/-- The account of a result that takes more than one core cycle: from which cycle it can be read (R180). A later result in the same
register takes its place. -/
def Core.noteResult (c : Core) (i : Instr) : Core :=
  let n := latencyOf i
  let ds := scoreDest i
  let rest := c.score.filter (fun e => decide (c.tau < e.2) && !ds.contains e.1)
  if c.inStall then c
  else { c with score := if n ≤ 1 then rest else ds.map (fun d => (d, c.tau + n)) ++ rest }

/-! ### What the next word waits for -/

/-- Is register a one that a load brings data for? -/
def PLoad.fills (l : PLoad) (a : GReg) : Bool :=
  match l.dst with | .reg d _ => d == a | .pair d b => d == a || b == a | .plane _ _ => false

/-- Is register a one that a VMOV extract writes? -/
def VWord.fills (v : VWord) (a : GReg) : Bool := match v.instr with | .vmovExtract d _ _ _ => d == a | _ => false

/-- The guard of R155. -/
def Core.guardHolds (c : Core) (g : Guarded) : Bool := c.rp g.gp != g.neg

/-- The registers that the word w waits for: those that it names, unless its guard is false. -/
def Core.waitsFor (c : Core) (w : Word) : List GReg :=
  match decode w with
  | .ok g => if c.rep.isSome || c.guardHolds g then (gNames g.instr).filter (fun a => a.val ≠ 0) else []
  | .error _ => []

/-- Does the word w need the data of a load: of one that brings a register that it waits for (R291)? -/
def Core.needs (c : Core) (w : Word) (l : PLoad) : Bool := !l.isPlane && (c.waitsFor w).any l.fills

/-- Does the word w need a result whose cycle has not come (Table 8.1)? Its guard comes first. -/
def Core.scored (c : Core) (w : Word) : Bool :=
  let late := fun (n : Nat) => c.score.any (fun e => e.1 == n && decide (c.tau < e.2))
  match decode w with
  | .ok g => late (scoreP g.gp) || ((c.rep.isSome || c.guardHolds g) && (scoreNeeds g.instr).any late)
  | .error _ => false

/-- Does the next word wait for the data of a load, for a VMOV extract, for a result or for its own cycle (R180, R239, R291)? The account of
results stands still in a handler in fixed mode (entry 110). -/
def State.interlocked (s : State) : Bool :=
  let w := s.nextWord
  let c := s.core
  c.loads.any (c.needs w)
    || (c.vq ++ c.vfly).any (fun v => match v.instr with | .vmovExtract _ _ _ _ => (c.waitsFor w).any v.fills | _ => false)
    || (!c.inStall && (decide (c.tau < c.nextAt) || c.scored w))

end Sys2Proof.Machine
end

