-- ==== Sys2Proof/Machine/Timetable.lean ====
section
/-! DEFINITION. The fields of a record's words (Tables 7.6, 7.7), its issues (R269), and the conditions of its start that both engines share
(R201, R362, R363). -/

namespace Sys2Proof.Machine

/-! ### Fields -/

/-- The eight words of a record. -/
abbrev RWords := Vector Word 8

/-- Bits [hi:lo] of word i. -/
def rbits (ws : RWords) (i : Fin 8) (hi lo : Nat) : Nat := bits (ws.get i).toNat hi lo
/-- Is a word zero? -/
def rzero (ws : RWords) (i : Fin 8) : Bool := ws.get i == 0
def rOp (ws : RWords) : Nat := rbits ws 0 63 56
def rCls (ws : RWords) : OrdClass := Fin.ofNat 16 (rbits ws 0 55 52)
def rGslot (ws : RWords) : SReg := Fin.ofNat 16 (rbits ws 0 51 48)
def rWbar (ws : RWords) : Nat := rbits ws 0 47 41
def rSbar (ws : RWords) : Nat := rbits ws 0 40 34
def rStok (ws : RWords) : Nat := rbits ws 0 33 31
def rTv (ws : RWords) : Bool := rbits ws 0 30 30 == 1
def rWtok (ws : RWords) : Nat := rbits ws 0 29 22
def rFlags (ws : RWords) : Nat := rbits ws 0 21 16
def rAt (ws : RWords) : Nat := rbits ws 0 15 0
/-- Trip counts minus one (R162). -/
def rTrip (ws : RWords) (k : Nat) : Nat := rbits ws 1 (16 * k + 15) (16 * k)

/-- Loop indices i0 to i3, or the four strides of a descriptor. -/
structure Four (α : Type) where
  x0 : α
  x1 : α
  x2 : α
  x3 : α
  deriving DecidableEq, Repr

/-- Component k. -/
def Four.at {α : Type} (f : Four α) (k : Nat) : α := match k with | 0 => f.x0 | 1 => f.x1 | 2 => f.x2 | _ => f.x3

/-- An operand descriptor (Table 7.7). -/
structure Desc where
  base : Nat
  s : Four Int
  deriving DecidableEq, Repr

/-- The descriptor whose lower word is word i. -/
def rDesc (ws : RWords) (i : Fin 8) : Desc :=
  let v := (ws.get i).toNat + 2 ^ 64 * (ws.get (i + 1)).toNat
  let s := fun k => sintOf 20 (bits v (67 + 20 * k) (48 + 20 * k))
  ⟨bits v 47 0, ⟨s 0, s 1, s 2, s 3⟩⟩

/-- The loop indices of a record's issues, in expansion order (R269). -/
def rIssues (ws : RWords) : List (Four Nat) :=
  let r := fun k => List.range (rTrip ws k + 1)
  (r 3).flatMap (fun i3 => (r 2).flatMap (fun i2 => (r 1).flatMap (fun i1 => (r 0).map (fun i0 => ⟨i0, i1, i2, i3⟩))))

/-- The number of issues of a record (R269). -/
def issueCount (ws : RWords) : Nat := (rTrip ws 0 + 1) * (rTrip ws 1 + 1) * (rTrip ws 2 + 1) * (rTrip ws 3 + 1)

/-- The loop indices of issue number i, i0 being the innermost (R269). -/
def issueAt (ws : RWords) (i : Nat) : Four Nat :=
  let n := fun k => rTrip ws k + 1
  ⟨i % n 0, i / n 0 % n 1, i / (n 0 * n 1) % n 2, i / (n 0 * n 1 * n 2) % n 3⟩

/-- Σ i_k × S_k. -/
def stride (s : Four Int) (i : Four Nat) : Int := i.x0 * s.x0 + i.x1 * s.x1 + i.x2 * s.x2 + i.x3 * s.x3

/-! ### Conditions of a start (R201, R270, R307) -/

/-- Are the wait barrier and the wait tokens of a record satisfied? -/
def Core.waitsHold (c : Core) (r : QRec) : Bool :=
  (match r.waitPh with
    | some t => decide (((c.bars.get (Fin.ofNat 96 (rWbar r.words - 1))).ph - t).toNat ≤ 32767)
    | none => true)
  && c.tokensDone r.waitTok

/-- What the record has read of its guard slot: nothing, until its waits hold and the slot is resolved (R201). -/
def Core.gateOf (c : Core) (r : QRec) : Option Bool :=
  match r.gate with
  | some b => some b
  | none =>
    match c.slot (rGslot r.words) with
    | .resolved b => if c.waitsHold r then some b else none
    | .unresolved => none

/-- A record reads its guard slot in the first cycle in which its waits hold and the slot is resolved (R201). -/
def Core.latch (c : Core) (r : QRec) : QRec := let g := c.gateOf r; { r with gate := g, off := g == some false }

/-- The records of both engines read their guard slots. -/
def Core.latchGates (c : Core) : Core :=
  { c with pq := c.pq.map c.latch, prun := c.prun.map c.latch, tq := c.tq.map c.latch }

/-- When a pending store performs: at the latest point of its class up to it, where those have points and no earlier load of the class holds
it (R228, R365). -/
def Core.timed (c : Core) (p : PStore) : Option Nat :=
  if c.performable p then longest ((c.stores.filter (fun q => q.cls == p.cls && decide (q.num ≤ p.num))).map (·.at_)) else none

/-- Is an access pending that the record has to follow (R362, R363)? Without `all`, only one whose cycle is not known. -/
def Core.behind (c : Core) (r : QRec) (all : Bool) : Bool :=
  r.waitSt.any (fun n => c.stores.any (fun p => p.num == n && (all || (c.timed p).isNone)) || c.loads.any (fun l => l.num == n && l.unread))

/-- The first cycle behind the accesses that the record has to follow, as far as their cycles are known (R362, R365). -/
def Core.behindPoints (c : Core) (r : QRec) : Nat :=
  c.stores.foldl (fun m p => if r.waitSt.contains p.num then max m ((c.timed p).getD 0 + 1) else m) 0

/-- Is the core in a core cycle that has begun, is no stall cycle, and in which it has issued nothing? -/
def Core.isOpen (c : Core) : Bool := c.begun && c.verdict == some false

/-- Does a record have no issues: its guard is false, in flow mode? In fixed mode the timing of a record does not depend on its guard (R272,
entry 111). -/
def QRec.skips (r : QRec) (c : Core) : Bool := r.off && !c.fixed

end Sys2Proof.Machine
end

