-- ==== Sys2Proof/Machine/Sequence.lean ====
section
/-! DEFINITION. What the sequencer does around the meaning of a word: the faults of a word boundary, decode and guard (R154, R155, R397,
R405); places and events; and the placing of a word or a record for the next step. -/

namespace Sys2Proof.Machine

/-- The fault due at a word boundary before any word is executed: DOMAIN_ABORT (R400), SAFE_GAP (R405). -/
def Core.boundaryFault (c : Core) : Option FaultInfo :=
  match c.abortTid with
  | some t => some { code := 29, engine := 4, detail := t.toNat }
  | none =>
    match c.task with
    | some t => if t.safegap < c.watch then some { code := 27, engine := 4, detail := t.safegap } else none
    | none => none

/-- A word whose guard is false: the advance of the pc with its loop-end processing (R155). -/
def skipWord (s : State) : Out State := .next s.retire

/-- UNDEFINED_INSTRUCTION with the failing check (R154). -/
def undefined (check : Nat) (s : State) : Out State := raise { code := 1, detail := check } s

/-- The word w issues: it is in the instruction register, and where it is a section entry the origin is its cycle (R392). -/
def State.issued (s : State) (w : Word) : State := { s with core := ({ s.core with ir := w } : Core).enterSection }

/-- Execute the word w with the meaning `run` (R154, R155). Inside a REP sequence the guard was read before repeat 0. -/
def runWord (run : Instr → State → Out State) (w : Word) (s : State) : Out State :=
  let s := s.issued w
  if s.spoiled (codePA s.core.key + s.core.wordAddr.toNat) 8 then memoryError (codePA s.core.key + s.core.wordAddr.toNat) 0 s else
  match decode w with
  | .error n => undefined n s
  | .ok g =>
    if s.core.rep.isSome || s.core.guardHolds g then run g.instr { s with core := s.core.noteResult g.instr } else skipWord s

/-- Does the word of a section entry wait for the end of the old section (R392)? -/
def Core.beforeSection (c : Core) : Bool := c.entering && !c.inStall && decide (c.tau < c.origin + c.span)

/-- What the current core's sequencer does in a core cycle: a fault that waits for the vector words before it is taken once they have
completed (R397); else, where the task runs, the fault of a word boundary is taken, or the next word executes unless something holds it. -/
def sequence (run : Instr → State → Out State) (s : State) : Out State :=
  match s.core.trap with
  | some f => .next (s.raised f)
  | none =>
    if s.core.phase = .running then
      match s.core.boundaryFault with
      | some f => .next (s.atBoundary.raised f)
      | none => if s.interlocked || s.core.beforeSection then .next s else runWord run s.nextWord s
    else .next s

/-- The place of a core. -/
def placeOf (k : CoreKey) : Place := ⟨k, ⟨k.pkg, 0⟩, 0⟩
/-- The place of a die. -/
def placeOfDie (k : DieKey) : Place := placeOf ⟨k.pkg, k.die, 0⟩
/-- The same place with a number. -/
def atNum (p : Place) (n : Nat) : Place := { p with n := n }

/-- An event at a place. -/
abbrev Event := Place × Instr
/-- Events at one place. -/
def atPlace (p : Place) (l : List Instr) : List Event := l.map (fun i => (p, i))

/-- A flow-mode task with no limits reached, no parameters and no patches: what a core is given to run a word that is
placed from outside. -/
def blankTask : Task :=
  { tid := 0, launchSeq := 0, lid := 0, q := ⟨0, 0⟩, stream := false, fixed := false, det := false, gang := false
    abort := false, dom := 0, safegap := 65535, nbank := 16, unitsz := 0, clusz := 0, stacksz := 0, patches := [], params := [], copy := []
    ttab := [], unitva := 0, cluva := 0, logbase := 0, shardRec := [], batch := [], shard := 0, pinned := false, level := 0
    executed := false, safeAt := none, merges := 0, started := 0, formNo := 0 }

/-- A record as it would stand in a queue with nothing to wait for. -/
def plainRecord (ws : Vector Word 8) (ent : Nat) : QRec :=
  { ent := ent, words := ws, rm := .rne, gwcfg := 0, waitPh := none, waitTok := [], waitSt := [], pages := [], asid := 0
    origin := 0, number := 0, due := 0, lead := 0, marker := none, gate := none, start := 0, seen := 0, tiles := [], work := [], puts := []
    sten := none, done := false, row := 0, flags := 0, pend := [], off := false, data := [] }

/-- The state in which the next step executes the word w: the word at the pc, a task that runs, in a core cycle that has begun, the
sequencer's turn; no other core has a cycle to finish first. -/
def State.withWord (s : State) (w : Word) : State :=
  let c := s.core
  let t := c.task.getD blankTask
  let t := { t with patches := t.patches.filter (fun e => e.1 ≠ c.pc.toNat), safegap := max t.safegap (c.watch + 1) }
  let s := { s with
    core := { c with
      phase := .running, task := some t, rep := none, abortTid := none, trap := none
      begun := true, verdict := some false, entering := false, score := [], nextAt := 0, clock := 0
      loads := c.loads.filter (fun l => match l.dst with | .plane _ _ => true | _ => false)
      vq := c.vq.filter (fun v => match v.instr with | .vmovExtract _ _ _ _ => false | _ => true)
      vfly := c.vfly.filter (fun v => match v.instr with | .vmovExtract _ _ _ _ => false | _ => true) }
    turns := .seq :: s.turns }
  s.putCode c.pc w

/-- The state in which the next step starts the record of eight words: at the head of its engine's queue, in a core cycle that has begun. -/
def State.withRecord (s : State) (ws : Vector Word 8) : State :=
  match decodeRecord (ws.get 0).toNat with
  | some i =>
    let c := s.core
    let c := { c with begun := true, verdict := some false }
    let r := { plainRecord ws c.pent with gate := some true }
    let core := if (ws.get 0).toNat / 2 ^ 56 % 256 < 0x40 then { c with pq := r :: c.pq, prun := [] }
      else { c with tq := { r with ent := c.tent } :: c.tq, trun := [] }
    { s with core := core, turns := .ev (placeOf c.key) i :: s.turns }
  | none => s

/-- The eight words of a 512-bit number. -/
def recordWords (w : Nat) : Vector Word 8 :=
  ⟨#[BitVec.ofNat 64 w, BitVec.ofNat 64 (w / 2 ^ 64), BitVec.ofNat 64 (w / 2 ^ 128), BitVec.ofNat 64 (w / 2 ^ 192),
    BitVec.ofNat 64 (w / 2 ^ 256), BitVec.ofNat 64 (w / 2 ^ 320), BitVec.ofNat 64 (w / 2 ^ 384), BitVec.ofNat 64 (w / 2 ^ 448)], rfl⟩

end Sys2Proof.Machine
end

