-- ==== Sys2Proof/Machine/Vector.lean ====
section
/-! DEFINITION. The vector words as the sequencer dispatches them: their checks, what it captures for them, and the queue
(R225, R231, R238, R239, R241 to R244, R254, R256). What a word then does when it issues is in VecSteps. -/

namespace Sys2Proof.Machine

/-! ### Dispatch (R225) -/

/-- A fault of a vector word: engine 1. -/
def vFault (code : Nat) (s : State) : Out State := raise { code := code, engine := 1 } s

/-- HANDLER_ENGINE in a fixed-mode handler (R401); a full queue makes the sequencer wait (R225). -/
def vGuard (m : State → Out State) (s : State) : Out State :=
  if s.core.priv && s.core.fixed then vFault 30 s
  else if 16 ≤ s.core.vq.length then stay s
  else m s

/-- Append a word to the issue queue: it issues in the next core cycle at the earliest (R226). -/
def Core.vpush (i : Instr) (rm : Rm) (scalar aux : Word) (c : Core) : Core :=
  { c with num := c.num + 1, vq := c.vq ++ [⟨c.num, i, rm, scalar, aux, c.tid, none, c.tau + 1⟩] }

/-- Dispatch a word that needs no further check. -/
def vPut (i : Instr) (rm : Rm) (scalar aux : Word) (s : State) : Out State :=
  vGuard (fun s => retireWith (Core.vpush i rm scalar aux) s) s

/-- Dispatch a word without operands of the sequencer. -/
def vPlain (i : Instr) (s : State) : Out State := vPut i .rne 0 0 s

/-- Dispatch a word with a rounding-mode field (R62, R224). -/
def vRound (i : Instr) (rm : RmSel) (s : State) : Out State := vPut i (s.core.mode rm) 0 0 s

/-! ### Lane-wise arithmetic, logic, shifts (R233 to R235) -/

/-- VADD. -/
def execVadd (ty : ElemTy) (rm : RmSel) (sat : Bool) (d a b : VReg) (s : State) : Out State := vRound (.vadd ty rm sat d a b) rm s
/-- VSUB. -/
def execVsub (ty : ElemTy) (rm : RmSel) (sat : Bool) (d a b : VReg) (s : State) : Out State := vRound (.vsub ty rm sat d a b) rm s
/-- VMUL. -/
def execVmul (ty : ElemTy) (rm : RmSel) (sat : Bool) (d a b : VReg) (s : State) : Out State := vRound (.vmul ty rm sat d a b) rm s
/-- VFMA. -/
def execVfma (ty : ElemTy) (rm : RmSel) (sat : Bool) (d a b c : VReg) (s : State) : Out State :=
  vRound (.vfma ty rm sat d a b c) rm s
/-- VMIN. -/
def execVmin (ty : ElemTy) (d a b : VReg) (s : State) : Out State := vPlain (.vmin ty d a b) s
/-- VMAX. -/
def execVmax (ty : ElemTy) (d a b : VReg) (s : State) : Out State := vPlain (.vmax ty d a b) s
/-- VABS. -/
def execVabs (ty : ElemTy) (sat : Bool) (d a : VReg) (s : State) : Out State := vPlain (.vabs ty sat d a) s
/-- VNEG. -/
def execVneg (ty : ElemTy) (sat : Bool) (d a : VReg) (s : State) : Out State := vPlain (.vneg ty sat d a) s
/-- VAND. -/
def execVand (d a b : VReg) (s : State) : Out State := vPlain (.vand d a b) s
/-- VOR. -/
def execVor (d a b : VReg) (s : State) : Out State := vPlain (.vor d a b) s
/-- VXOR. -/
def execVxor (d a b : VReg) (s : State) : Out State := vPlain (.vxor d a b) s
/-- VNOT. -/
def execVnot (d a : VReg) (s : State) : Out State := vPlain (.vnot d a) s
/-- VSHL. -/
def execVshl (ty : ElemTy) (d a b : VReg) (s : State) : Out State := vPlain (.vshl ty d a b) s
/-- VSHR. -/
def execVshr (ty : ElemTy) (d a b : VReg) (s : State) : Out State := vPlain (.vshr ty d a b) s
/-- VSHA. -/
def execVsha (ty : ElemTy) (d a b : VReg) (s : State) : Out State := vPlain (.vsha ty d a b) s

/-! ### Compare, select, move, broadcast, convert (R236 to R240) -/

/-- VCMP. -/
def execVcmp (ty : ElemTy) (d a b : VReg) (c : Fin 5) (s : State) : Out State := vPlain (.vcmp ty d a b c) s
/-- VSEL. -/
def execVsel (d a b c : VReg) (s : State) : Out State := vPlain (.vsel d a b c) s
/-- VMOV of planes. -/
def execVmov (d a : VReg) (s : State) : Out State := vPlain (.vmov d a) s
/-- VMOV to a g register. The check of sp needs the element, so a move to sp waits for the earlier words (entry 9). -/
def execVmovExtract (d : GReg) (a : VReg) (row : Fin 16) (col : Fin 64) (s : State) : Out State :=
  if d.val = 32 then
    vGuard (fun s =>
      if s.core.vectorIdle then setG d ((s.core.elem a (64 * row.val + col.val)).zeroExtend 64) s else ok s) s
  else vPlain (.vmovExtract d a row col) s
/-- VMOV from a g register, read at dispatch. -/
def execVmovInsert (d : VReg) (a : GReg) (row : Fin 16) (col : Fin 64) (s : State) : Out State :=
  vPut (.vmovInsert d a row col) .rne (s.core.rd a) 0 s
/-- VBC: g[A] is read at dispatch. -/
def execVbc (d : VReg) (a : GReg) (s : State) : Out State := vPut (.vbc d a) .rne (s.core.rd a) 0 s
/-- VCVT. -/
def execVcvt (sT dT : ElemTy) (part : Fin 8) (rm : RmSel) (sat : Bool) (d a : VReg) (s : State) : Out State :=
  vRound (.vcvt sT dT part rm sat d a) rm s

/-! ### Loads and stores (R241 to R244) -/

/-- Translate the addresses of elements, ascending: pairs (element, physical address) and the translations taken, or the first address that
fails. -/
def translateAll (acc : Access) : List (Nat × Nat) → State → Except (Nat × NoTrans) (List (Nat × Nat) × List Trans × State)
  | [], s => .ok ([], [], s)
  | (e, va) :: r, s =>
    match translate seqReach acc va s with
    | .error n => .error (va, n)
    | .ok (pa, t) =>
      match translateAll acc r (s.hold t) with
      | .error x => .error x
      | .ok (l, ts, s') => .ok ((e, pa) :: l, if ts.contains t then ts else t :: ts, s')

/-- The pitch of a row form: sint(g[B]), or 64w when B is 0 (R242). -/
def rowPitch (c : Core) (b : GReg) (w : Nat) : Int := if b.val = 0 then 64 * (w : Int) else (c.rd b).toInt

/-- The address of element e of a row form (R242). -/
def rowAddr (base : Nat) (p : Int) (w e : Nat) : Nat := wrapN 56 ((base : Int) + (e / 64 : Nat) * p + (e % 64 * w : Nat))

/-- The addresses of all elements, the mask not consulted (R242). -/
def rowAddrs (base : Nat) (p : Int) (w : Nat) : List (Nat × Nat) := (List.range 1024).map (fun e => (e, rowAddr base p w e))

/-- The checks of a vector access: alignment of the base and pitch, translation of every address, forwarding pairs for a
store, at the first byte in a covered range (R339). `m` gets the translated elements and the translations. -/
def vAccess (acc : Access) (base : Nat) (aligned : Bool) (w : Nat) (vas : List (Nat × Nat))
    (m : List (Nat × Nat) → List Trans → State → Out State) (s : State) : Out State :=
  if !aligned then alignFault base 0 1 s
  else
    match translateAll acc vas s with
    | .error (va, n) => transFault va n 0 1 s
    | .ok (l, ts, s) =>
      match (if acc == .write then (l.zip vas).findSome? (fun x => (s.slabFirst x.1.2 w).map (x.2.2 + ·)) else none) with
      | some a => raise { code := 24, addr := a, engine := 1 } s
      | none => m l ts s

/-- A load of the elements l of a plane, whose data the word `id` asks for when it issues. -/
def Core.pushVLoad (c : Core) (cls : OrdClass) (d : VReg) (sz : MemSize) (l : List (Nat × Nat)) (ts : List Trans) (id : Nat) : Core :=
  { c with num := c.num + 1, loads := c.loads ++ [⟨c.num, cls, .plane d sz, l, vecBytes sz, false, id, 0, 0, none, none, 0, false, ts⟩] }

/-- A store of the elements l of a plane, whose bytes the word `id` supplies when it issues. -/
def Core.pushVStore (c : Core) (cls : OrdClass) (sz : MemSize) (l : List (Nat × Nat)) (ts : List Trans) (id : Nat) : Core :=
  { c with num := c.num + 1, stores := c.stores ++ [⟨c.num, cls, [], some id, l, vecBytes sz, 0, ts, true, none, none⟩] }

/-- Dispatch a load of the elements l. -/
def vLoad (i : Instr) (cls : OrdClass) (sz : MemSize) (d : VReg) (l : List (Nat × Nat)) (ts : List Trans) (f : Core → Core) (s : State) : Out State :=
  let id := s.core.num
  retireWith (fun c => f ((c.vpush i .rne 0 0).pushVLoad cls d sz l ts id)) s

/-- A row load. -/
def rowLoad (i : Instr) (cls : OrdClass) (sz : MemSize) (d : VReg) (base : Nat) (p : Int) (f : Core → Core) (s : State) : Out State :=
  let w := vecBytes sz
  vGuard (vAccess .read base (base % w == 0 && p % (w : Int) == 0) w (rowAddrs base p w) (fun l ts s => vLoad i cls sz d l ts f s)) s

/-- The bytes that a store of the elements l of a plane writes, in ascending element order (Table 9.3). -/
def planeBytes (x : Array Half) (w : Nat) (l : List (Nat × Nat)) : List (Nat × Byte) :=
  l.flatMap (fun e => addressed e.2 (toBytes w (at_ x e.1).toNat))

/-- Does a task's store go to the merge log (R368)? -/
def Core.logs (c : Core) (l : List (Nat × Nat)) : Bool := c.det && l.any (fun e => detRegion c.key e.2)

/-- A store of the active elements among l by a DET task that reaches the merge log: it is made once the earlier vector words have
completed, since its faults are precise at dispatch (R225, R370: the count takes every element; entry 34). The engine is then occupied for
`occ` core cycles. -/
def storeNow (cls : OrdClass) (d : VReg) (w occ : Nat) (l : List (Nat × Nat)) (ts : List Trans) (f : Core → Core) (s : State) : Out State :=
  let logged := fun (p : Nat) => s.core.det && detRegion s.core.key p
  let bs := planeBytes (s.core.plane d) w (l.filter (fun e => s.core.topMask.getLsbD e.1))
  match logShort s.core.log s.core.resv ((l.flatMap (fun e => (List.range w).map (e.2 + ·))).filter logged) with
  | some n => logFault (.full n) 1 s
  | none =>
    match logPlain s.core.log s.core.resv (bs.filter (fun e => logged e.1)) with
    | .error e => logFault e 1 s
    | .ok _ => storeBytes cls bs 0 ts (fun c => ({ f c with vfree := c.tau + 1 + occ } : Core).retire) s true

/-- Dispatch a store of the elements l. -/
def vStore (i : Instr) (cls : OrdClass) (sz : MemSize) (d : VReg) (occ : Nat) (l : List (Nat × Nat)) (ts : List Trans) (f : Core → Core)
    (s : State) : Out State :=
  if s.core.logs l then (if s.core.vectorIdle then storeNow cls d (vecBytes sz) occ l ts f s else ok s)
  else
    let id := s.core.num
    retireWith (fun c => f ((c.vpush i .rne 0 0).pushVStore cls sz l ts id)) s

/-- A row store. -/
def rowStore (i : Instr) (cls : OrdClass) (sz : MemSize) (d : VReg) (base : Nat) (p : Int) (f : Core → Core) (s : State) : Out State :=
  let w := vecBytes sz
  vGuard (vAccess .write base (base % w == 0 && p % (w : Int) == 0) w (rowAddrs base p w) (fun l ts s => vStore i cls sz d 4 l ts f s)) s

/-- VLD. -/
def execVld (cls : OrdClass) (sz : MemSize) (d : VReg) (a b : GReg) (off : BitVec 16) (s : State) : Out State :=
  rowLoad (.vld cls sz d a b off) cls sz d (effAddr s.core a off) (rowPitch s.core b (vecBytes sz)) id s
/-- VST. -/
def execVst (cls : OrdClass) (sz : MemSize) (d : VReg) (a b : GReg) (off : BitVec 16) (s : State) : Out State :=
  rowStore (.vst cls sz d a b off) cls sz d (effAddr s.core a off) (rowPitch s.core b (vecBytes sz)) id s
/-- VLDW: from the walker's current address; the walker then advances once (R243). -/
def execVldw (cls : OrdClass) (sz : MemSize) (d : VReg) (w : WReg) (b : GReg) (s : State) : Out State :=
  rowLoad (.vldw cls sz d w b) cls sz d (s.core.w.get w).addr (rowPitch s.core b (vecBytes sz))
    (fun c => c.setWalker w ((c.w.get w).advance 1)) s
/-- VSTW. -/
def execVstw (cls : OrdClass) (sz : MemSize) (d : VReg) (w : WReg) (b : GReg) (s : State) : Out State :=
  rowStore (.vstw cls sz d w b) cls sz d (s.core.w.get w).addr (rowPitch s.core b (vecBytes sz))
    (fun c => c.setWalker w ((c.w.get w).advance 1)) s

/-- The addresses of the active elements of an indexed form (R244). -/
def indexAddrs (c : Core) (base w : Nat) (b : VReg) : List (Nat × Nat) :=
  let x := c.plane b
  c.active.map (fun e => (e, wrapN 56 ((base : Int) + (at_ x e).toInt * w)))

/-- An indexed form: it waits for every earlier vector word, then translates the active elements (R244). -/
def indexed (acc : Access) (sz : MemSize) (a : GReg) (b : VReg) (off : BitVec 16)
    (m : List (Nat × Nat) → List Trans → State → Out State) (s : State) : Out State :=
  let w := vecBytes sz
  let base := effAddr s.core a off
  vGuard (fun s =>
    if base % w ≠ 0 then alignFault base 0 1 s
    else if s.core.vectorIdle then vAccess acc base true w (indexAddrs s.core base w b) m s
    else ok s) s

/-- VGATH: each active element's address is read. -/
def execVgath (cls : OrdClass) (sz : MemSize) (d : VReg) (a : GReg) (b : VReg) (off : BitVec 16) (s : State) : Out State :=
  indexed .read sz a b off (fun l ts s => vLoad (.vgath cls sz d a b off) cls sz d l ts id s) s
/-- VSCAT: the active elements are written in ascending order. -/
def execVscat (cls : OrdClass) (sz : MemSize) (d : VReg) (a : GReg) (b : VReg) (off : BitVec 16) (s : State) : Out State :=
  indexed .write sz a b off (fun l ts s => vStore (.vscat cls sz d a b off) cls sz d 16 l ts id s) s

/-! ### Along a lane and across a row (R245 to R249) -/

/-- VRROT. -/
def execVrrot (d a : VReg) (n : Fin 64) (s : State) : Out State := vPlain (.vrrot d a n) s
/-- VRBC. -/
def execVrbc (d a : VReg) (n : Fin 64) (s : State) : Out State := vPlain (.vrbc d a n) s
/-- VCROT. -/
def execVcrot (d a : VReg) (n : Fin 16) (s : State) : Out State := vPlain (.vcrot d a n) s
/-- VCBC. -/
def execVcbc (d a : VReg) (n : Fin 16) (s : State) : Out State := vPlain (.vcbc d a n) s
/-- VRRED. -/
def execVrred (ty : ElemTy) (rm : RmSel) (sat : Bool) (op : Fin 3) (d a : VReg) (s : State) : Out State :=
  vRound (.vrred ty rm sat op d a) rm s
/-- VCRED. -/
def execVcred (ty : ElemTy) (rm : RmSel) (sat : Bool) (op : Fin 3) (d a : VReg) (s : State) : Out State :=
  vRound (.vcred ty rm sat op d a) rm s
/-- VRSCAN. -/
def execVrscan (ty : ElemTy) (rm : RmSel) (sat : Bool) (op : Fin 3) (d a : VReg) (s : State) : Out State :=
  vRound (.vrscan ty rm sat op d a) rm s
/-- VCSCAN. -/
def execVcscan (ty : ElemTy) (rm : RmSel) (sat : Bool) (op : Fin 3) (d a : VReg) (s : State) : Out State :=
  vRound (.vcscan ty rm sat op d a) rm s
/-- VTRP. -/
def execVtrp (d a : VReg) (s : State) : Out State := vPlain (.vtrp d a) s
/-- VPERM. -/
def execVperm (d a b : VReg) (s : State) : Out State := vPlain (.vperm d a b) s

/-! ### Masks (R231) -/

/-- The change of the mask stack's depth by a word. -/
def depthStep : Instr → Int
  | .mpush _ => 1
  | .mpop => -1
  | _ => 0

/-- The depth after every word dispatched so far (R231). -/
def Core.maskDepth (c : Core) : Int := c.vq.foldl (fun n v => n + depthStep v.instr) c.masks.length

/-- MPUSH. -/
def execMpush (a : VReg) (s : State) : Out State :=
  if s.core.maskDepth = 16 then vGuard (vFault 18) s else vPlain (.mpush a) s
/-- MINV. -/
def execMinv (s : State) : Out State := if s.core.maskDepth = 0 then vGuard (vFault 19) s else vPlain .minv s
/-- MPOP. -/
def execMpop (s : State) : Out State := if s.core.maskDepth = 0 then vGuard (vFault 19) s else vPlain .mpop s
/-- MAND. -/
def execMand (a : VReg) (s : State) : Out State := if s.core.maskDepth = 0 then vGuard (vFault 19) s else vPlain (.mand a) s

/-! ### Transcendental functions (R250) -/

/-- VEXPF. -/
def execVexpf (d a : VReg) (s : State) : Out State := vPlain (.vexpf d a) s
/-- VEXPX. -/
def execVexpx (d a : VReg) (s : State) : Out State := vPlain (.vexpx d a) s
/-- VLOGF. -/
def execVlogf (d a : VReg) (s : State) : Out State := vPlain (.vlogf d a) s
/-- VLOGX. -/
def execVlogx (d a : VReg) (s : State) : Out State := vPlain (.vlogx d a) s
/-- VRCPF. -/
def execVrcpf (d a : VReg) (s : State) : Out State := vPlain (.vrcpf d a) s
/-- VRCPX. -/
def execVrcpx (d a : VReg) (s : State) : Out State := vPlain (.vrcpx d a) s
/-- VRSQF. -/
def execVrsqf (d a : VReg) (s : State) : Out State := vPlain (.vrsqf d a) s
/-- VRSQX. -/
def execVrsqx (d a : VReg) (s : State) : Out State := vPlain (.vrsqx d a) s
/-- VSINF. -/
def execVsinf (d a : VReg) (s : State) : Out State := vPlain (.vsinf d a) s
/-- VSINX. -/
def execVsinx (d a : VReg) (s : State) : Out State := vPlain (.vsinx d a) s
/-- VCOSF. -/
def execVcosf (d a : VReg) (s : State) : Out State := vPlain (.vcosf d a) s
/-- VCOSX. -/
def execVcosx (d a : VReg) (s : State) : Out State := vPlain (.vcosx d a) s
/-- VTANHF. -/
def execVtanhf (d a : VReg) (s : State) : Out State := vPlain (.vtanhf d a) s
/-- VTANHX. -/
def execVtanhx (d a : VReg) (s : State) : Out State := vPlain (.vtanhx d a) s

/-! ### Dot products, scales, random bits, packing (R251 to R258) -/

/-- VDOT8. -/
def execVdot8 (ta tb : Bool) (h : Fin 4) (d a b c : VReg) (s : State) : Out State := vPlain (.vdot8 ta tb h d a b c) s
/-- VDOTB. -/
def execVdotb (rm : RmSel) (sat : Bool) (h : Fin 4) (d a b c : VReg) (s : State) : Out State :=
  vRound (.vdotb rm sat h d a b c) rm s
/-- VSCL. -/
def execVscl (bf : Bool) (rm : RmSel) (sat : Bool) (n : Fin 4) (d a b : VReg) (s : State) : Out State :=
  vRound (.vscl bf rm sat n d a b) rm s

/-- VRNG: seed, counter and identifier are read and the counter advances at dispatch (R254). -/
def execVrng (d : VReg) (s : State) : Out State :=
  vGuard (fun s => retireWith (fun c =>
    { c.vpush (.vrng d) .rne c.ctl.rngseed c.ctl.rngctr with ctl := { c.ctl with rngctr := c.ctl.rngctr + 1 } }) s) s

/-- A packing word: PACK_CONFIG when GWCFG.G or GWCFG.K is zero (R256); GWCFG is read at dispatch. -/
def packed (i : Instr) (s : State) : Out State :=
  let gw := s.core.ctl.gwcfg
  if gwG gw = 0 || gwK gw = 0 then vGuard (vFault 17) s else vPut i .rne gw 0 s

/-- VPKP. -/
def execVpkp (ty : ElemTy) (sel : Bool) (part : Fin 64) (d a : VReg) (s : State) : Out State := packed (.vpkp ty sel part d a) s
/-- VXTP. -/
def execVxtp (f : Fin 128) (n : Fin 16) (d a : VReg) (s : State) : Out State := packed (.vxtp f n d a) s

end Sys2Proof.Machine
end

