-- ==== Sys2Proof/Machine/VecSteps.lean ====
section
/-! DEFINITION. The vector engine's own steps: issue, completion, the arrival of load data (R226 to R230), and the REP
prefix (R157 to R159). -/

namespace Sys2Proof.Machine

/-! ### Planes that a word reads and writes (R226) -/

/-- The planes that a word reads. -/
def vReads : Instr → List VReg
  | .vadd _ _ _ _ a b | .vsub _ _ _ _ a b | .vmul _ _ _ _ a b | .vmin _ _ a b | .vmax _ _ a b | .vand _ a b | .vor _ a b
  | .vxor _ a b | .vshl _ _ a b | .vshr _ _ a b | .vsha _ _ a b | .vcmp _ _ a b _ | .vperm _ a b | .vscl _ _ _ _ _ a b => [a, b]
  | .vfma _ _ _ _ a b c | .vsel _ a b c | .vdot8 _ _ _ _ a b c | .vdotb _ _ _ _ a b c => [a, b, c]
  | .vabs _ _ _ a | .vneg _ _ _ a | .vnot _ a | .vmov _ a | .vmovExtract _ a _ _ | .vrrot _ a _ | .vrbc _ a _ | .vcrot _ a _
  | .vcbc _ a _ | .vrred _ _ _ _ _ a | .vcred _ _ _ _ _ a | .vrscan _ _ _ _ _ a | .vcscan _ _ _ _ _ a | .vtrp _ a
  | .vexpf _ a | .vexpx _ a | .vlogf _ a | .vlogx _ a | .vrcpf _ a | .vrcpx _ a | .vrsqf _ a | .vrsqx _ a | .vsinf _ a
  | .vsinx _ a | .vcosf _ a | .vcosx _ a | .vtanhf _ a | .vtanhx _ a | .vpkp _ _ _ _ a | .vxtp _ _ _ a | .mpush a | .mand a => [a]
  | .vcvt _ _ _ _ _ d a => [a, d]
  | .vst _ _ d _ _ _ | .vstw _ _ d _ _ | .vscat _ _ d _ _ _ => [d]
  | _ => []

/-- The plane that a word writes, if it writes one. -/
def vWrites : Instr → Option VReg
  | .vadd _ _ _ d _ _ | .vsub _ _ _ d _ _ | .vmul _ _ _ d _ _ | .vmin _ d _ _ | .vmax _ d _ _ | .vand d _ _ | .vor d _ _
  | .vxor d _ _ | .vshl _ d _ _ | .vshr _ d _ _ | .vsha _ d _ _ | .vcmp _ d _ _ _ | .vperm d _ _ | .vscl _ _ _ _ d _ _
  | .vfma _ _ _ d _ _ _ | .vsel d _ _ _ | .vdot8 _ _ _ d _ _ _ | .vdotb _ _ _ d _ _ _
  | .vabs _ _ d _ | .vneg _ _ d _ | .vnot d _ | .vmov d _ | .vrrot d _ _ | .vrbc d _ _ | .vcrot d _ _
  | .vcbc d _ _ | .vrred _ _ _ _ d _ | .vcred _ _ _ _ d _ | .vrscan _ _ _ _ d _ | .vcscan _ _ _ _ d _ | .vtrp d _
  | .vexpf d _ | .vexpx d _ | .vlogf d _ | .vlogx d _ | .vrcpf d _ | .vrcpx d _ | .vrsqf d _ | .vrsqx d _ | .vsinf d _
  | .vsinx d _ | .vcosf d _ | .vcosx d _ | .vtanhf d _ | .vtanhx d _ | .vpkp _ _ _ d _ | .vxtp _ _ d _
  | .vcvt _ _ _ _ _ d _ | .vld _ _ d _ _ _ | .vldw _ _ d _ _ | .vgath _ _ d _ _ _ | .vmovInsert d _ _ _ | .vbc d _ | .vrng d => some d
  | _ => none

/-- Is plane v still to be written by a word in flight or by a load that has issued? -/
def Core.planeBusy (c : Core) (v : VReg) : Bool :=
  c.vfly.any (fun x => vWrites x.instr == some v)
    || c.loads.any (fun l => l.issued && (match l.dst with | .plane p _ => p == v | _ => false))

/-- May the word issue (R226)? -/
def Core.mayIssue (c : Core) (i : Instr) : Bool := (vReads i ++ (vWrites i).toList).all (fun v => !c.planeBusy v)

/-! ### What a word computes at its issue -/

/-- A transcendental function on a plane: an X or an F form (R250). -/
def fnPlane (f : Nat → Nat × Flags) (c : Core) (d a : VReg) : VResult := lane1 c .fp32 f d a

/-- Orris operations have their own exact forms; other types follow `sub`. -/
def vValue (c : Core) (v : VWord) : VResult :=
  match v.instr with
  | .vadd ty _ sat d a b => lane2 c ty (subAdd ty v.rm sat) d a b
  | .vsub ty _ sat d a b => lane2 c ty (subSub ty v.rm sat) d a b
  | .vmul ty _ sat d a b => lane2 c ty (subMul ty v.rm sat) d a b
  | .vfma ty _ sat d a b q => lane3 c ty (subFma ty v.rm sat) d a b q
  | .vmin ty d a b => lane2 c ty (fun x y => (subMinMax ty false x y, Flags.none)) d a b
  | .vmax ty d a b => lane2 c ty (fun x y => (subMinMax ty true x y, Flags.none)) d a b
  | .vabs ty sat d a => lane1 c ty (fun x => (subAbs ty sat x, Flags.none)) d a
  | .vneg ty sat d a => lane1 c ty (fun x => (subNeg ty sat x, Flags.none)) d a
  | .vand d a b => bitwise c (· &&& ·) d a b
  | .vor d a b => bitwise c (· ||| ·) d a b
  | .vxor d a b => bitwise c (· ^^^ ·) d a b
  | .vnot d a => bitwise c (fun x _ => ~~~x) d a a
  | .vshl ty d a b => lane2 c ty (fun x y => (subShift ty 0 x y, Flags.none)) d a b
  | .vshr ty d a b => lane2 c ty (fun x y => (subShift ty 1 x y, Flags.none)) d a b
  | .vsha ty d a b => lane2 c ty (fun x y => (subShift ty 2 x y, Flags.none)) d a b
  | .vcmp ty d a b q => lane2 c ty (fun x y => (if subCmp ty q.val x y then 2 ^ ty.width - 1 else 0, Flags.none)) d a b
  | .vsel d a b q =>
    let x := c.plane a; let y := c.plane b; let z := c.plane q
    mapActive c d (fun e => ((at_ x e &&& at_ z e) ||| (at_ y e &&& ~~~(at_ z e)), Flags.none))
  | .vmov d a => moveFrom c id d a
  | .vmovExtract d a row col => ⟨[], 0, some (d, (c.elem a (64 * row.val + col.val)).zeroExtend 64)⟩
  | .vmovInsert d _ row col => ⟨[(1024 * d.val + 64 * row.val + col.val, v.scalar.truncate 32)], 0, none⟩
  | .vbc d _ => mapActive c d (fun _ => (v.scalar.truncate 32, Flags.none))
  | .vcvt sT dT part _ sat d a =>
    let x := c.plane a; let y := c.plane d
    mapActive c d (fun e => cvtElem sT dT part.val v.rm sat (at_ x e) (at_ y e))
  | .vrrot d a n => moveFrom c (fun e => 64 * (e / 64) + (e % 64 + 64 - n.val) % 64) d a
  | .vrbc d a n => moveFrom c (fun e => 64 * (e / 64) + n.val) d a
  | .vcrot d a n => moveFrom c (fun e => 64 * ((e / 64 + 16 - n.val) % 16) + e % 64) d a
  | .vcbc d a n => moveFrom c (fun e => 64 * n.val + e % 64) d a
  | .vrred ty _ sat op d a => reduceAxis c true ty v.rm sat op.val d a
  | .vcred ty _ sat op d a => reduceAxis c false ty v.rm sat op.val d a
  | .vrscan ty _ sat op d a => scanAxis c true ty v.rm sat op.val d a
  | .vcscan ty _ sat op d a => scanAxis c false ty v.rm sat op.val d a
  | .vtrp d a => moveFrom c (fun e => 64 * (e % 16) + e % 64 / 16 * 16 + e / 64) d a
  | .vperm d a b =>
    let x := c.plane a; let y := c.plane b
    mapActive c d (fun e => (at_ x ((at_ y e).toNat % 1024), Flags.none))
  | .vexpf d a => fnPlane (fnF 0) c d a
  | .vexpx d a => fnPlane (fnX 0) c d a
  | .vlogf d a => fnPlane (fnF 1) c d a
  | .vlogx d a => fnPlane (fnX 1) c d a
  | .vrcpf d a => fnPlane (fnF 2) c d a
  | .vrcpx d a => fnPlane (fnX 2) c d a
  | .vrsqf d a => fnPlane (fnF 3) c d a
  | .vrsqx d a => fnPlane (fnX 3) c d a
  | .vsinf d a => fnPlane (fnF 4) c d a
  | .vsinx d a => fnPlane (fnX 4) c d a
  | .vcosf d a => fnPlane (fnF 5) c d a
  | .vcosx d a => fnPlane (fnX 5) c d a
  | .vtanhf d a => fnPlane (fnF 6) c d a
  | .vtanhx d a => fnPlane (fnX 6) c d a
  | .vdot8 ta tb h d a b q =>
    dotPlane c true .rne false (if ta then .e5m2 else .e4m3) (if tb then .e5m2 else .e4m3) h.val d a b q
  | .vdotb _ sat h d a b q => dotPlane c false v.rm sat .bf16 .bf16 h.val d a b q
  | .vscl bf _ sat n d a b =>
    let t := if bf then ElemTy.bf16 else ElemTy.fp32
    let x := c.plane a; let y := c.plane b
    mapActive c d (fun e => eachSub t (fun i => scaleSub t v.rm sat ((at_ y e).toNat / 256 ^ n.val % 256) (subOf t (at_ x e) i)))
  | .vrng d => mapActive c d (fun e => (vrngMix v.scalar v.tid v.aux e, Flags.none))
  | .vpkp ty sel part d a => packWide c ty sel part.val v.scalar d a
  | .vxtp f n d a => extractWide c f.val (n.val + 1) v.scalar d a
  | _ => VResult.none

/-- The mask stack after a word's issue (R230, R231). -/
def maskStep (c : Core) : Instr → List (BitVec 1024)
  | .mpush a => (c.topMask &&& c.nzMask a) :: c.masks
  | .mand a => (c.topMask &&& c.nzMask a) :: c.masks.tail
  | .minv => (~~~c.topMask &&& c.masks.tail.headD (BitVec.allOnes 1024)) :: c.masks.tail
  | .mpop => c.masks.tail
  | _ => c.masks

/-- Occupancy and latency (Table 9.1); the latency of a word that is no load or store. -/
def vTiming : Instr → Nat × Nat
  | .vfma _ _ _ _ _ _ _ => (4, 10)
  | .vcred _ _ _ _ _ _ | .vcscan _ _ _ _ _ _ => (4, 16)
  | .vrrot _ _ _ | .vrbc _ _ _ | .vdot8 _ _ _ _ _ _ _ | .vdotb _ _ _ _ _ _ _ | .vrng _ => (4, 12)
  | .vrred _ _ _ _ _ _ | .vrscan _ _ _ _ _ _ => (8, 24)
  | .vtrp _ _ | .vpkp _ _ _ _ _ | .vxtp _ _ _ _ => (8, 16)
  | .vperm _ _ _ => (16, 24)
  | .vgath _ _ _ _ _ _ | .vscat _ _ _ _ _ _ => (16, 8)
  | .vexpf _ _ | .vlogf _ _ | .vrcpf _ _ | .vrsqf _ _ | .vsinf _ _ | .vcosf _ _ | .vtanhf _ _ => (8, 20)
  | .vexpx _ _ | .vlogx _ _ | .vrcpx _ _ | .vrsqx _ _ | .vsinx _ _ | .vcosx _ _ | .vtanhx _ _ => (16, 40)
  | .mpush _ | .minv | .mpop | .mand _ => (1, 2)
  | _ => (4, 8)

/-! ### Values packed in planes (R57, R262) -/

/-- Values of b bits in a plane row. -/
def perRow (b : Nat) : Nat := if b = 6 then 320 else 2048 / b

/-- The first element and the sub-element of value p (R262). -/
def elemOf (b : Nat) (p : Nat) : Nat × Nat :=
  let v := perRow b
  let i := p % v
  if b = 6 then (64 * (p / v) + i / 5, i % 5)
  else if 32 ≤ b then (64 * (p / v) + i * (b / 32), 0)
  else (64 * (p / v) + i / (32 / b), i % (32 / b))

/-- A value of b bits from elements read by f. -/
def fromElems (b : Nat) (f : Nat → Half) (p : Nat) : Nat :=
  let (e, sub) := elemOf b p
  if 32 ≤ b then (List.range (b / 32)).foldr (fun j n => (f (e + j)).toNat + 2 ^ 32 * n) 0
  else (f e).toNat / 2 ^ (b * sub) % 2 ^ b

/-- Sub-element bits replaced in an element; LG6's two top bits become zero (R57). -/
def replaceSub (b : Nat) (x : Half) (sub v : Nat) : Half :=
  let n := if b = 6 then x.toNat % 2 ^ 30 else x.toNat
  BitVec.ofNat 32 (n - bits n (b * sub + b - 1) (b * sub) * 2 ^ (b * sub) + v % 2 ^ b * 2 ^ (b * sub))

/-- The elements that writing a value of b bits at p leaves. -/
def toElems (b : Nat) (f : Nat → Half) (p v : Nat) : List (Nat × Half) :=
  let (e, sub) := elemOf b p
  if 32 ≤ b then (List.range (b / 32)).map (fun j => (e + j, BitVec.ofNat 32 (v / 2 ^ (32 * j))))
  else [(e, replaceSub b (f e) sub v)]

/-! ### The row groups of a word's sources (R227) -/

/-- The elements that a product record's writes of cycle t leave in planes (R271). -/
def Core.planeWrites (c : Core) (t : Nat) : Core :=
  ((c.prun.flatMap (·.puts)).filter (fun p => p.at_ == some t)).foldl (fun c p => p.ops.foldl (fun c o => match o with
    | .val _ b (.plane n x) v =>
      c.putElems ((toElems b (fun e => c.elem (Fin.ofNat 32 n) e) x.toNat v).map (fun e => (1024 * (n % 32) + e.1, e.2)))
    | _ => c) c) c

/-- Does a product record write a plane in the next three core cycles? -/
def Core.writesSoon (c : Core) : Bool :=
  c.prun.any (fun r => r.puts.any (fun p => (match p.at_ with | some t => decide (t < c.tau + 3) | none => false)
    && p.ops.any (fun o => match o with | .val _ _ (.plane _ _) _ => true | _ => false)))

/-- The planes as a word that issues in this core cycle reads them: row group j as it stands j core cycles later, with what product
records write until then (R227, R273). -/
def Core.sources (c : Core) : Core :=
  if c.writesSoon then
    let c1 := c.planeWrites c.tau
    let c2 := c1.planeWrites (c.tau + 1)
    let c3 := c2.planeWrites (c.tau + 2)
    { c with planes := Vector.ofFn (fun v => (List.range 1024).foldl (fun m e =>
        sput 0 m e ((match e / 256 with | 0 => c | 1 => c1 | 2 => c2 | _ => c3).elem v e)) []) }
  else c

/-! ### Issue (R226, R230) -/

/-- Items in parts: those of row group j, or of row j in an indexed form, with the number of core cycles after the issue at which they
are accessed (R227, Table 14.2). -/
def rowParts (i : Instr) (l : List (Nat × Nat)) : List (Nat × List (Nat × Nat)) :=
  let n := match i with | .vgath _ _ _ _ _ _ | .vscat _ _ _ _ _ _ => 16 | _ => 4
  ((List.range n).map (fun j => (j, l.filter (fun e => e.1 / (1024 / n) == j)))).filter (fun x => !x.2.isEmpty)

/-- The loads that take the place of one whose word issues: one a row group or row. Its data is ready 8 + L core cycles after the issue, and
no row is read later than that (R226, entry 112). -/
def issueLoad (c : Core) (i : Instr) (l : PLoad) : List PLoad :=
  let items := l.items.filter (fun e => c.topMask.getLsbD e.1)
  let ready := 8 + (c.loadLag items).getD 0
  (rowParts i items).map (fun x => { l with issued := true, items := x.2, at_ := c.tau + min x.1 ready, more := ready - min x.1 ready })

/-- The stores that take the place of one whose word issues: one a row group or row, with the bytes of the plane. -/
def issueStore (c : Core) (i : Instr) (x : Array Half) (p : PStore) : List PStore :=
  (rowParts i (p.addrs.filter (fun e => c.topMask.getLsbD e.1))).map (fun e =>
    { p with word := none, addrs := [], bytes := planeBytes x p.width e.2, at_ := c.pointOf (e.2.map (·.2)) e.1 })

/-- The issue of word v in this core cycle (R226, R230): a load asks for the active elements' data, a store takes its bytes from the plane,
any other word has its result computed from the planes. -/
def issueWord (v : VWord) (c : Core) : Core :=
  let src := c.sources
  let c := { c with vfree := c.tau + (vTiming v.instr).1 }
  match v.instr with
  | .vld _ _ _ _ _ _ | .vldw _ _ _ _ _ | .vgath _ _ _ _ _ _ =>
    { c with loads := c.loads.flatMap (fun l => if l.isPlane && !l.issued && l.word == v.id then issueLoad c v.instr l else [l]) }
  | .vst _ _ d _ _ _ | .vstw _ _ d _ _ | .vscat _ _ d _ _ _ =>
    { c with stores := c.stores.flatMap (fun p => if p.word == some v.id then issueStore c v.instr (src.plane d) p else [p]) }
  | i => { c with masks := maskStep src i, vfly := c.vfly ++ [{ v with result := some (vValue src v), ready := c.tau + (vTiming i).2 }] }

/-- VECTOR_ISSUE: the head of the queue issues in this core cycle, when the word before it lets it and the planes that it reads and
writes are ready (R226). -/
def execVectorIssue (s : State) : Out State :=
  match s.core.vq with
  | [] => idle s
  | v :: r =>
    let c := s.core
    if c.isOpen && c.mayIssue v.instr && decide (v.ready ≤ c.tau ∧ c.vfree ≤ c.tau) then
      ok ({ s with core := issueWord v { c with vq := r } } : State).readsDue
    else idle s

/-- A word in flight completes: its plane, its flags and its register are written. -/
def Core.complete (c : Core) (v : VWord) : Core :=
  let res := v.result.getD VResult.none
  let c := ({ c with vfly := c.vfly.erase v }.putElems res.planes).orFlags 1 res.flags
  match res.greg with | some (d, w) => c.wr d w | none => c

/-- VECTOR_COMPLETE: word `place.n` of those in flight writes its plane, its flags and its register at its ready cycle (R226, R227,
R229, R238). -/
def execVectorComplete (s : State) : Out State :=
  match s.core.vfly[s.place.n]? with
  | none => idle s
  | some v => if s.core.tau < v.ready then idle s else ok { s with core := s.core.complete v }

/-! ### Load data (R291) -/

/-- May the data of a load arrive? It has been read and, where its memory has a nominal latency, that is over in the next core cycle, unless a handler in fixed mode
runs, during which no timetable time passes; or its memory has none, its cycle has come, and every earlier access of the class to the bytes
that it reads has performed (R226, R228, R291, R401). -/
def State.loadReady (s : State) (l : PLoad) : Bool :=
  let c := s.core
  l.issued &&
    match l.got with
    | some _ => c.inStall || (match l.ready with | some t => decide (t ≤ if c.begun then c.tau else c.tau + 1) | none => true)
    | none => !l.atom && decide (l.at_ ≤ c.tau) && (c.loadLag l.items).isNone && l.items.all (fun e => !s.readBlocked l.cls l.num e.2 l.size)

/-- The core after a load's data v has arrived. -/
def loadInto (c : Core) (l : PLoad) (v : List Nat) : Core :=
  let c := { c with loads := c.loads.erase l }
  match l.dst with
  | .reg d sz => c.wr d (extendSize sz (v.headD 0))
  | .pair d b => (c.wr d (BitVec.ofNat 64 (v.getD 0 0))).wr b (BitVec.ofNat 64 (v.getD 1 0))
  | .plane p sz => (l.items.zip v).foldl (fun c e => c.putElem p e.1.1 ((extendSize sz e.2).truncate 32)) c

/-- The data of a load arrives: what it has read, or reads now; an uncorrectable soft error in it is MEMORY_ERROR at the word boundary
(Table 15.2, R397). -/
def State.arrive (s : State) (l : PLoad) : State :=
  let v := l.got.getD (s.itemValues l.items l.size)
  if v.isEmpty && !l.items.isEmpty then
    let pa := ((l.items.find? (fun e => s.spoiled e.2 l.size)).orElse (fun _ => l.items.head?)).elim 0 (·.2)
    ({ s with core := { s.core with loads := s.core.loads.erase l } } : State).atBoundary.raised
      { code := 31, addr := pa, detail := paSpace pa, engine := if l.isPlane then 1 else 0 }
  else ({ s with core := loadInto s.core l v } : State).settlePin

/-- LOAD_DATA_ARRIVAL: the data of load `place.n` of those that may arrive does (R226, R228, R291). -/
def execLoadDataArrival (s : State) : Out State :=
  match (s.core.loads.filter s.loadReady)[s.place.n]? with
  | some l => ok (s.arrive l)
  | none => idle s

/-! ### REP (R157 to R159, R232) -/

/-- The majors whose words can repeat (R158). -/
def repeatable (maj : Nat) : Bool := [0x80, 0x81, 0x82, 0x83, 0x8A, 0x8B, 0x8C, 0x8E, 0x8F, 0x90, 0x92].contains maj

/-- The numbers of registers that the fields D, A, B and C of a repeatable word may name; 0 for a field it does not use. -/
def repRanges : Instr → List Nat
  | .vmovExtract _ _ _ _ => [33, 32, 0, 0]
  | .vmovInsert _ _ _ _ | .vbc _ _ => [32, 33, 0, 0]
  | .vfma _ _ _ _ _ _ _ | .vsel _ _ _ _ | .vdot8 _ _ _ _ _ _ _ | .vdotb _ _ _ _ _ _ _ => [32, 32, 32, 32]
  | .vadd _ _ _ _ _ _ | .vsub _ _ _ _ _ _ | .vmul _ _ _ _ _ _ | .vmin _ _ _ _ | .vmax _ _ _ _ | .vand _ _ _ | .vor _ _ _
  | .vxor _ _ _ | .vshl _ _ _ _ | .vshr _ _ _ _ | .vsha _ _ _ _ | .vcmp _ _ _ _ _ | .vperm _ _ _
  | .vscl _ _ _ _ _ _ _ => [32, 32, 32, 0]
  | _ => [32, 32, 0, 0]

/-- Does a stepped field leave its range on the last repeat, or name a field that the word does not use (R158)? -/
def repBad (w : Word) (i : Instr) (cnt : Nat) (step : BitVec 4) (stride : Nat) : Bool :=
  let f := fun (bit lo k : Nat) =>
    let n := (repRanges i).getD k 0
    step.getLsbD bit && decide (n ≤ bits w.toNat (lo + 5) lo + cnt * 2 ^ stride)
  f 3 42 0 || f 2 36 1 || f 1 30 2 || f 0 24 3

/-- REP: the next word is checked and its guard read once; it is then executed CNT + 1 times, or from REPPOS on after an RTE
(R465), where a guard that read true before the fault is not read again. With a false guard neither word does anything. A next word of a
major that can repeat but that fails R154 is UNDEFINED_INSTRUCTION at the REP, with that check (DESIGN CHOICE, entry 109). -/
def execRep (cnt : Fin 64) (step : BitVec 4) (stride : Fin 4) (s : State) : Out State :=
  let c := s.core
  let w := s.fetch (c.pc + 8)
  if !repeatable (bits w.toNat 63 56) then raise { code := 3 } s
  else
    match decode w with
    | .error n => undefined n s
    | .ok g =>
      if repBad w g.instr cnt.val step stride.val then undefined 5 s
      else if c.guardHolds g || (c.repResume && c.repHeld == some c.pc) then
        let start := if c.repResume then bits c.ctl.reppos.toNat 5 0 else 0
        if cnt.val < start then .next { s with core := { c with wait := none }.goto (c.pc + 16) }
        else .next { s with core := { c with
          rep := some ⟨cnt.val, step, stride, start⟩, repResume := false, repHeld := if c.priv then c.repHeld else none }.markExecuted }
      else
        let (lc, n) := loopEnd c.lc (c.pc + 8)
        .next { s with core := { c with lc := lc, wait := none }.goto n }

end Sys2Proof.Machine
end

