-- ==== Sys2Proof/Machine/Records.lean ====
section
/-! DEFINITION. What all records share: the fields of their words (Tables 7.6, 7.7), the issues of a record (R269), the
translation of an operand's pages (R297), the captures made at enqueue (R214, R380, R382), reads and writes of memory by a
record, its start and its retirement (R270, R307, R308). -/

namespace Sys2Proof.Machine

/-! ### Checks at enqueue: a fault, a wait, or a result -/

/-- What stops a check: a fault; the wait for a resolving record, which is a delay (R267); or the wait for an access of the own agent that
a page walk must follow (R228, R296). -/
inductive Stop where
  | fault (f : FaultInfo)
  | delay
  | wait
  deriving DecidableEq, Repr

/-- The answer of a check. -/
abbrev Chk (α : Type) := Except Stop α

/-- Raise a fault. -/
def chkFault {α : Type} (f : FaultInfo) : Chk α := .error (.fault f)
/-- RECORD_INVALID unless the condition holds. -/
def need (ok : Bool) : Chk Unit := if ok then .ok () else chkFault { code := 13 }
/-- A fault unless the condition holds. -/
def orFault (ok : Bool) (f : FaultInfo) : Chk Unit := if ok then .ok () else chkFault f

/-- The checks of word 0 that every record has (R161, R164, Table 7.6). -/
def wordZeroOk (ws : RWords) : Bool :=
  (decodeRecord (ws.get 0).toNat).isSome && rOp ws != 0x4E && decide (rWbar ws ≤ 96) && decide (rSbar ws ≤ 96)
    && (rTv ws || rStok ws == 0)

/-- BARRIER_DISABLED for WBAR or SBAR (R380). -/
def barriersOn (c : Core) (ws : RWords) : Chk Unit :=
  match [rWbar ws, rSbar ws].find? (fun n => n != 0 && (c.bars.get (Fin.ofNat 96 (n - 1))).ec == 0) with
  | some n => chkFault { code := 25, detail := Scope.core.code * 2 ^ 27 + (n - 1) }
  | none => .ok ()

/-! ### Pages of an operand (R297) -/

/-- Bytes that an operand can touch: first address (before reduction modulo 2⁶⁴) and length. -/
abbrev Span := Int × Nat

/-- Put a chunk into an ascending list (4 KiB chunk, lowest address touched in it). -/
def addChunk : List (Nat × Nat) → Nat → Nat → List (Nat × Nat)
  | [], c, lo => [(c, lo)]
  | (k, a) :: r, c, lo =>
    if c = k then (k, min a lo) :: r
    else if c < k then (c, lo) :: (k, a) :: r
    else (k, a) :: addChunk r c lo

/-- The 4 KiB chunks that spans touch, ascending. -/
def chunksOf (l : List Span) : List (Nat × Nat) :=
  l.foldl (fun m x =>
    let a := wrapN 64 x.1
    if x.2 = 0 then m else
    (List.range ((a + x.2 - 1) / 4096 - a / 4096 + 1)).foldl (fun m i =>
      let c := a / 4096 + i
      addChunk m c (max a (c * 4096))) m) []

/-- The pages taken so far. -/
def addPage (l : List Trans) (t : Trans) : List Trans := if l.contains t then l else t :: l

/-- The spaces that a record's access may reach (Table 11.7, reason 4): code memory only by a transfer record's write (entry 90). -/
def recordSpace (xfer : Bool) (a : Access) (pa : Nat) : Bool := paSpace pa != 3 || (xfer && a != .read)

/-- Translate the chunks of one operand in ascending order; a page in a place that the record may not reach is
RECORD_INVALID (R264, R297, R317). -/
def translateChunks (xfer : Bool) (allowed : Nat → Bool) (a : Access) (slot : Nat) :
    List (Nat × Nat) → State → List Trans → Chk (List Trans)
  | [], _, ps => .ok ps
  | (_, lo) :: r, s, ps =>
    match translate (fun _ => recordSpace xfer a) a lo s with
    | .error (.fault n) => chkFault { code := 5, addr := lo, detail := n, slot := slot }
    | .error (.spoiled pa) => chkFault { code := 31, addr := pa, detail := paSpace pa, slot := slot }
    | .error .wait => .error .wait
    | .ok (pa, t) =>
      if allowed pa then translateChunks xfer allowed a slot r (s.hold t) (addPage ps t) else chkFault { code := 13 }

/-- The physical address that a record's pages give. -/
def pagePA (k : CoreKey) (ps : List Trans) (va : Nat) : Nat :=
  match ps.find? (fun t => t.covers va) with
  | some t => t.pa k va
  | none => va

/-- May an on-core or product record reach the place (R264, R317)? -/
def Core.localPlace (c : Core) (pa : Nat) : Bool :=
  match paSpace pa with
  | 0 => paDieKey pa == c.key.dieKey
  | 1 => c.inArea pa && paPkg pa == c.key.pkg && paDie pa == c.key.die
  | 2 => decide (unitPA c.key ≤ pa ∧ pa < unitPA c.key + 2 ^ 20)
  | _ => false

/-- The largest latency of the memory operands that a record reads (R272). The latency of an operand is known where its page
translates; a page that does not faults later (entry 93). -/
def readLead (s : State) (reads : List (Nat × Nat)) : Nat :=
  reads.foldl (fun m x =>
    match translate (fun _ _ => true) .read x.2 s with
    | .ok (pa, _) => max m (nominal s.core.key pa)
    | .error _ => m) 0

/-- In fixed mode AT is at least the largest read latency (R272, R314). -/
def atReached (s : State) (ws : RWords) (lead : Nat) : Bool := !s.core.fixed || decide (lead ≤ rAt ws)

/-- The bytes that spans name, as (virtual, physical) pairs in order. -/
def spanBytes (k : CoreKey) (ps : List Trans) (l : List Span) : List (Nat × Nat) :=
  l.flatMap (fun x => (List.range x.2).map (fun (i : Nat) => let va := wrapN 64 (x.1 + (i : Int)); (va, pagePA k ps va)))

/-- The first byte of each page that a span touches, as far as pages of 4 KiB can tell them apart. -/
def spanStarts (x : Span) : List Nat := (chunksOf [x]).map (·.2)

/-- SLAB_BUSY for a destination that a pair covers (R339), then the room and the conflicts of the merge log (R370, R371). The
result is the bytes that go to the log. -/
def destChecks (s : State) (ps : List Trans) (logs : Bool) (l : List Span) : Chk (List Nat) :=
  let c := s.core
  let starts := l.flatMap spanStarts
  let watched := starts.any (fun a => !(s.pairsAt (pagePA c.key ps a)).isEmpty)
  let logged := logs && c.det && starts.any (fun a => detRegion c.key (pagePA c.key ps a))
  if !watched && !logged then .ok []
  else
    let bs := spanBytes c.key ps l
    match bs.find? (fun b => s.slabBusy b.2 1) with
    | some b => chkFault { code := 24, addr := b.1, slot := 1 }
    | none =>
      let ds := if logged then (bs.map (·.2)).filter (detRegion c.key) else []
      match logShort c.log c.resv ds with
      | some n => chkFault { code := 21, detail := n, slot := 1 }
      | none =>
        match ds.find? (fun b => c.log.any (fun e => e.isRed && e.touches b)) with
        | some b => chkFault { code := 22, addr := b, detail := c.tid.toNat * 2 ^ 32 + c.tid.toNat, slot := 1 }
        | none => .ok ds

/-! ### What enqueue captures (R214, R362, R380, R382) -/

/-- The result of a record's own checks: the core with its projections, bindings and translations, the pages, the bytes for
the merge log, and a number of the record's own use. -/
structure Plan where
  core : Core
  pages : List Trans
  pend : List Nat
  extra : Nat
  lead : Nat

/-- The phase that WBAR waits for (R380). -/
def waitPhase (b : Barrier) : BitVec 16 := BitVec.ofNat 16 (b.ph.toNat + (b.ac.toNat + b.pc + b.ec.toNat - 1) / b.ec.toNat)

/-- Releases and acquires that a later record of an engine waits for: STRELs and LDACQs on their way whose mask names it (R362,
R363). -/
def Core.releases (c : Core) (product : Bool) : List Nat :=
  let named := fun (o : BitVec 5) => if product then obsP o else obsX o
  (c.stores.filter (fun p => named p.obs)).map (·.num) ++ (c.loads.filter (fun l => l.unread && named l.obs)).map (·.num)

/-- A queue record with its captures. -/
def capture (ws : RWords) (product : Bool) (p : Plan) : QRec :=
  let c := p.core
  { ent := if product then c.pent else c.tent, words := ws, rm := c.ctl.rm, gwcfg := c.ctl.gwcfg
    waitPh := if rWbar ws = 0 then none else some (waitPhase (c.bars.get (Fin.ofNat 96 (rWbar ws - 1))))
    waitTok := c.captureTokens (rWtok ws), waitSt := c.releases product, pages := p.pages, asid := c.ctl.asid.truncate 16
    origin := p.extra, number := c.num, due := if c.fixed then c.origin + rAt ws else 0, lead := p.lead, marker := none, gate := none, start := 0
    seen := 0, tiles := [], work := [], puts := [], sten := none, done := false, row := 0, flags := 0, pend := p.pend, off := false, data := [] }

/-- A core barrier changed; its EC, AC and PH are saved (R407). -/
def Core.setBarrier (c : Core) (n : Nat) (f : Barrier → Barrier) : Core :=
  let b := c.bars.get (Fin.ofNat 96 n)
  let b' := f b
  { c with
    bars := c.bars.set (n % 96) b' (Nat.mod_lt _ (by decide))
    clean := { c.clean with bars := c.clean.bars && b.ec == b'.ec && b.ac == b'.ac && b.ph == b'.ph } }

/-- The record enters its queue: token and barrier counts rise (R214 steps 6 to 8, R380). -/
def enterQueue (ws : RWords) (product : Bool) (p : Plan) : Core :=
  let r := capture ws product p
  let c := { p.core with num := p.core.num + 1 }
  let c := p.pages.foldl Core.hold c
  let c := if rTv ws then c.setTok (rStok ws) (fun t => { t with enq := t.enq + 1 }) else c
  let c := if rSbar ws = 0 then c else c.setBarrier (rSbar ws - 1) (fun b => { b with pc := b.pc + 1 })
  if product then { c with pq := c.pq ++ [r], pent := (c.pent + 1) % 16 } else { c with tq := c.tq ++ [r], tent := (c.tent + 1) % 16 }

/-! ### Memory as a record reads and writes it (R264, R310, R311) -/

/-- n bytes at a virtual address: as the task reads them, or (`logs` false) memory itself (R311). -/
def recRead (logs : Bool) (s : State) (ps : List Trans) (va : Int) (n : Nat) : Nat :=
  let pa := pagePA s.core.key ps (wrapN 64 va)
  if logs then s.taskNum pa n else ofBytes ((List.range n).map (fun i => s.readByte (pa + i)))

/-- The words of its own code memory that a record is about to overwrite stay visible to fetches until the next ICFENCE (R221), and their
lines are dirty (R407). -/
def State.keepCode (pas : List Nat) (s : State) : State :=
  let code := codePA s.core.key
  let words := ((pas.filter (fun pa => decide (code ≤ pa ∧ pa < code + 2 ^ 17))).map (fun pa => (pa - code) / 8 * 8)).eraseDups
  if words.isEmpty then s
  else
    let c := s.core
    let lines := (words.map (· / 256)).eraseDups
    { s with core := { c with
      oldCode := c.oldCode ++ words.map (fun a => (a, s.word (code + a)))
      codeLines := (c.codeLines ++ lines).eraseDups, clean := { c.clean with code := c.clean.code.filter (!lines.contains ·) } } }

/-- Write bytes at a virtual address: into the log under DET, which a task that has failed no more has, else at their home; directly where
the record does not use the log (R311). -/
def recWrite (logs : Bool) (ps : List Trans) (va : Int) (bs : List Byte) (s : State) : State :=
  let pa := pagePA s.core.key ps (wrapN 64 va)
  if logs && s.core.det && detRegion s.core.key pa then
    if s.core.failed then s
    else { s with core := { s.core with log := (addressed pa bs).foldl (fun l e => logPut l e.1 e.2) s.core.log } }
  else if logs then s.write pa bs else s.writeDirect s.core.key pa bs

/-- The first byte that a record reads and that holds an uncorrectable soft error: its physical address (R416). -/
def State.spoiledIn (s : State) (k : CoreKey) (ps : List Trans) (l : List Span) : Option Nat :=
  if s.bad.isEmpty then none else ((spanBytes k ps l).find? (fun b => s.bad.contains b.2)).map (·.2)

/-- A record that reads a byte with such an error ends its task with MEMORY_ERROR at the word boundary, and runs on (R397, R400, Table 15.2). -/
def State.recordRead (s : State) (engine : Nat) (ps : List Trans) (l : List Span) : State :=
  match s.spoiledIn s.core.key ps l with
  | some pa => s.atBoundary.raised { code := 31, addr := pa, detail := paSpace pa, engine := engine }
  | none => s

/-- The log's bytes in memory, brought up to date after a record. -/
def State.syncLog (s : State) : State := if s.core.det then s.setLog s.core.log else s

/-! ### Values in memory, planes and the bypass buffer (R57, R261, R316) -/

/-- Bits of an element type's value. -/
def tyBits (t : ElemTy) : Nat := if t == .fp64 then 64 else t.width
/-- Record type codes (Tables 10.8, 12.3). -/
def recTy? (n : Nat) : Option ElemTy := if n = 11 then some .fp64 else elemTy? n
/-- Value p of packed memory at a base. -/
def packedLoc (b : Nat) (base : Nat) (p : Int) : VLoc :=
  if b = 6 then .mem (base + 4 * (p / 5)) (p % 5).toNat else .mem (base + p * (b / 8 : Nat)) 0

/-- Read the value of b bits at a location. -/
def readLoc (logs : Bool) (b : Nat) (ps : List Trans) (s : State) : VLoc → Nat
  | .mem va sub => if b = 6 then recRead logs s ps va 4 / 2 ^ (6 * sub) % 64 else recRead logs s ps va (b / 8)
  | .plane v p => fromElems b (fun e => s.core.elem (Fin.ofNat 32 v) e) p.toNat
  | .byp p => fromElems b (fun e => sget 0 s.core.bypass e) p.toNat

/-- Write a value of b bits at a location. -/
def writeLoc (logs : Bool) (b : Nat) (ps : List Trans) (v : Nat) (s : State) : VLoc → State
  | .mem va sub =>
    if b = 6 then recWrite logs ps va (toBytes 4 (replaceSub 6 (BitVec.ofNat 32 (recRead logs s ps va 4)) sub v).toNat) s
    else recWrite logs ps va (toBytes (b / 8) v) s
  | .plane n p =>
    let l := toElems b (fun e => s.core.elem (Fin.ofNat 32 n) e) p.toNat v
    { s with core := s.core.putElems (l.map (fun x => (1024 * (n % 32) + x.1, x.2))) }
  | .byp p =>
    let l := toElems b (fun e => sget 0 s.core.bypass e) p.toNat v
    { s with core := { s.core with
      bypass := l.foldl (fun m x => sput 0 m x.1 x.2) s.core.bypass, clean := { s.core.clean with byp := false } } }

/-- The latency of the memory at a virtual address of a record; code memory has none to read (Tables 12.1, 14.2). -/
def QRec.latency (r : QRec) (k : CoreKey) (va : Nat) : Nat := let pa := pagePA k r.pages va; if paSpace pa = 3 then 4 else nominal k pa

/-- The largest latency of the places that some spans of a record name. -/
def QRec.spanLead (r : QRec) (k : CoreKey) (l : List Span) : Nat := (chunksOf l).foldl (fun m x => max m (r.latency k x.2)) 0

/-- The latency after which a record's write to a location performs: none in a plane or the bypass buffer, that of the memory else. Nothing
fixes it where the write is made in flow mode beyond cluster SRAM (R365, R366); a write to the merge log has its memory's (entry 114). -/
def QRec.writeLag (r : QRec) (s : State) (logs : Bool) : VLoc → Option Nat
  | .mem va _ =>
    let k := s.core.key
    let pa := pagePA k r.pages (wrapN 64 va)
    if paSpace pa = 3 then some 4
    else if logs && s.core.det && detRegion k pa then some (nominal k pa)
    else s.core.writeLag pa
  | _ => some 0

/-- Change the pair in force with an OLD base and ASID on the current core's die. -/
def State.withPair (s : State) (old : Nat) (asid : BitVec 16) (f : FwdPair → FwdPair) : State :=
  let d := s.ownDie
  s.setDie { d with pairs := (d.pairs.map (fun p => if p.oldVA = old ∧ p.asid = asid then f p else p)).filter (fun p => !(p.released && p.moved)) }

/-- The span of a memory location. -/
def locSpan (b : Nat) : VLoc → List Span
  | .mem va _ => [(va, if b = 6 then 4 else b / 8)]
  | _ => []

end Sys2Proof.Machine
end

