-- ==== Sys2Proof/Machine/Product.lean ====
section
/-! DEFINITION. Product records: operands (R260 to R266), the checks made at enqueue (R288), what each issue of a record reads and gives
(R274 to R287), and the cycles in which that takes place (R270 to R272). -/

namespace Sys2Proof.Machine

/-! ### Operands (R260 to R263) -/

/-- An operand in memory, a plane or the bypass buffer: kind (Table 10.2), value bits, tile shape, whether the tile is a
matrix tile, descriptor, and for a pitched operand the loop dimensions that move its rows and columns. -/
structure Opnd where
  kind : Nat
  b : Nat
  rows : Nat
  cols : Nat
  mat : Bool
  lo : Nat
  hi : Nat
  d : Desc
  ri : Nat
  rmul : Nat
  ci : Nat
  deriving DecidableEq, Repr

/-- An operand from the descriptor whose lower word is word i. -/
def opnd (ws : RWords) (i : Fin 8) (kind b rows cols : Nat) (mat : Bool) (ri rmul ci : Nat) : Opnd :=
  ⟨kind, b, rows, cols, mat, (ws.get i).toNat, (ws.get (i + 1)).toNat, rDesc ws i, ri, rmul, ci⟩

/-- Fields of a pitched operand (Table 10.3). -/
def Opnd.rowp (o : Opnd) : Nat := bits o.hi 63 44
def Opnd.tp (o : Opnd) : Nat := bits o.hi 43 24
def Opnd.brot (o : Opnd) : Nat := bits o.hi 3 0

/-- The byte unit of a value (R263, R264). -/
def unitOf (b : Nat) : Nat := if b = 6 then 4 else b / 8

/-- The step between tile rows, in values (R261). -/
def Opnd.vt (o : Opnd) : Nat := if o.kind = 0 then o.cols else perRow o.b
/-- The position of an issue's tile. -/
def Opnd.pos (o : Opnd) (ix : Four Nat) : Int :=
  (if o.kind = 0 then 0 else (bits o.lo 18 5 : Int)) + stride o.d.s ix

/-- The offset of a value of a pitched operand (R263). -/
def Opnd.pitchOff (o : Opnd) (row col : Nat) : Nat :=
  let x := row * o.rowp + (if o.b = 6 then 4 * (col / 5) else col * (o.b / 8))
  let turn := (bits x 9 6) ^^^ (row % 2 ^ o.brot)
  x - bits x 9 6 * 64 + turn * 64

/-- Where value κ of tile row ρ lies. -/
def Opnd.loc (o : Opnd) (ix : Four Nat) (row col : Nat) : VLoc :=
  match o.kind with
  | 0 => packedLoc o.b o.d.base (o.pos ix + row * o.cols + col)
  | 1 => .plane (bits o.lo 4 0) (o.pos ix + row * o.vt + col)
  | 2 =>
    let r := ix.at o.ri * o.rmul + row
    let c := ix.at o.ci * o.tp + col
    .mem (o.d.base + o.pitchOff r c) (if o.b = 6 then c % 5 else 0)
  | _ => .byp (o.pos ix + row * o.vt + col)

/-- The spans of memory that the operand touches. -/
def Opnd.spans (o : Opnd) (l : List (Four Nat)) : List Span :=
  match o.kind with
  | 0 => l.flatMap (fun ix => (List.range o.rows).flatMap (fun (r : Nat) =>
      let p := o.pos ix + (r : Int) * o.cols
      if o.b = 6 then
        let first : Int := p / 5
        let last : Int := (p + o.cols - 1) / 5
        [((o.d.base + 4 * first : Int), (4 * (last - first + 1)).toNat)]
      else [((o.d.base + p * (o.b / 8 : Nat) : Int), o.cols * (o.b / 8))]))
  | 2 => l.flatMap (fun ix => (List.range o.rows).flatMap (fun r => (List.range o.cols).flatMap (fun c => locSpan o.b (o.loc ix r c))))
  | _ => []

/-- The form of the operand: reserved fields, pitch, and a plane or bypass operand wholly inside (R262, R263). -/
def Opnd.wellFormed (o : Opnd) (l : List (Four Nat)) : Bool :=
  match o.kind with
  | 0 => true
  | 2 =>
    bits o.lo 63 48 == 0 && bits o.hi 23 4 == 0 && decide (o.brot ≤ 4) && decide (1 ≤ o.rowp) && o.rowp % unitOf o.b == 0
      && decide (1 ≤ o.tp)
  | k =>
    let v := perRow o.b
    bits o.lo 47 19 == 0 && (k == 1 || bits o.lo 4 0 == 0)
      && l.all (fun ix => (List.range o.rows).all (fun r =>
          let p := o.pos ix + r * v
          decide (0 ≤ p) && decide (p + o.cols ≤ 16 * v) && (!o.mat || decide (p.toNat % v + o.cols ≤ v))))

/-- Is the base aligned (R264)? -/
def Opnd.aligned (o : Opnd) : Bool := !(o.kind == 0 || o.kind == 2) || o.d.base % unitOf o.b == 0

/-- The tile of an issue as rows of value codes. -/
def Opnd.tile (o : Opnd) (ps : List Trans) (s : State) (ix : Four Nat) : List (List Nat) :=
  (List.range o.rows).map (fun r => (List.range o.cols).map (fun c => readLoc true o.b ps s (o.loc ix r c)))

/-! ### The shape of a record -/

/-- FLAGS fields (Table 10.5). -/
def rKA (ws : RWords) : Nat := rFlags ws / 16 % 4
def rKB (ws : RWords) : Nat := rFlags ws / 4 % 4
def rHi (ws : RWords) : Bool := rFlags ws / 2 % 2 == 1
def rLow (ws : RWords) : Bool := rFlags ws % 2 == 1

/-- Fields of the drain control word (Table 10.8). -/
def dClaim (ws : RWords) : Bool := rbits ws 6 63 63 == 1
def dHi (ws : RWords) : Nat := rbits ws 6 62 49
def dLo (ws : RWords) : Nat := rbits ws 6 48 35
def dCh (ws : RWords) : Nat := rbits ws 6 34 33
def dMode (ws : RWords) : Nat := rbits ws 6 31 29
def dSat (ws : RWords) : Bool := rbits ws 6 28 28 == 1
def dFmt (ws : RWords) : Nat := rbits ws 6 27 23
def dF (ws : RWords) : Nat := rbits ws 6 22 16
def dN (ws : RWords) : Nat := rbits ws 6 15 12 + 1

/-- A multiplying record on matrix tiles: format, rows of A, depth. -/
inductive MatOp where
  | dot (F : FFmt) (b rows depth : Nat)
  | log (a b : Bool)
  deriving DecidableEq, Repr

/-- The matrix records (Table 10.1); `true` names LG6. -/
def matOp? (op : Nat) : Option MatOp :=
  match op with
  | 0x13 => some (.dot .fp64 64 8 1) | 0x14 => some (.dot .fp32 32 16 2) | 0x15 => some (.dot .bf16 16 16 8)
  | 0x16 => some (.log true true) | 0x17 => some (.log true false) | 0x18 => some (.log false false)
  | _ => none

/-- Bits of the two operands' values, rows of A, depth. -/
def MatOp.shape : MatOp → Nat × Nat × Nat × Nat
  | .dot _ b rows depth => (b, b, rows, depth)
  | .log a b => (if a then 6 else 8, if b then 6 else 8, 16, 16)

/-- The loop dimensions (k, n, m, batch) under KOUT (R269). -/
def roles (kout : Bool) : Nat × Nat × Nat × Nat := if kout then (3, 0, 1, 2) else (0, 1, 2, 3)

/-- Word bits and words of a PMUL or PMULP issue (Table 10.1). -/
def wordShape (ws : RWords) : Nat × Nat :=
  match rFlags ws % 4 with | 0 => (64, 128) | 1 => (128, 32) | 2 => (256, 8) | _ => (512, 2)

/-- Bits of a drained value. -/
def drainBits (ws : RWords) : Nat := match recTy? (dFmt ws) with | some t => if t == .lg6 then 6 else tyBits t | none => 32

/-- The operands that are not accumulator operands: fault slot, use, operand; in the order D, A, B. -/
def productOpnds (ws : RWords) : List (Nat × Access × Opnd) :=
  match rOp ws with
  | 0x10 => let (w, p) := wordShape ws
    [(1, .write, opnd ws 2 1 (2 * w) 1 p false 0 0 0), (2, .read, opnd ws 4 (rKA ws) w 1 p false 0 0 0),
      (3, .read, opnd ws 6 (rKB ws) w 1 p false 0 0 0)]
  | 0x11 => let (w, p) := wordShape ws
    [(2, .read, opnd ws 4 (rKA ws) w 1 p false 0 0 0), (3, .read, opnd ws 6 (rKB ws) w 1 p false 0 0 0)]
  | 0x12 => [(1, .write, opnd ws 2 (rKA ws) 32 1 16 false 0 0 0)]
  | 0x19 => [(3, .read, opnd ws 6 (rKB ws) 8 1 32 false 0 0 0)]
  | 0x1B => [(1, .write, opnd ws 2 (rKA ws) (drainBits ws) 1 16 false 0 0 0)]
  | 0x1D => [(2, .read, opnd ws 4 0 256 1 4 false 0 0 0)]
  | op =>
    match matOp? op with
    | some m =>
      let (ba, bb, rows, depth) := m.shape
      let (k, n, mm, _) := roles (rHi ws)
      [(2, .read, opnd ws 4 (rKA ws) ba rows depth true mm rows k), (3, .read, opnd ws 6 (rKB ws) bb depth 16 true k depth n)]
    | none => []

/-- Entries that an issue names through D and through A, as accumulator operands. -/
def accNames (ws : RWords) : Nat × Nat :=
  match rOp ws with
  | 0x11 => ((wordShape ws).2, 0) | 0x12 => (0, 1) | 0x13 => (128, 0) | 0x10 => (0, 0)
  | 0x19 => (16, 16) | 0x1A | 0x1B | 0x1C => (0, 16) | 0x1D => (4, 0) | _ => (256, 0)

/-- An accumulator operand (Table 10.4): handle and first entry of an issue. -/
def accHandle (ws : RWords) (i : Fin 8) : Nat := rbits ws i 8 0
def accFirst (ws : RWords) (i : Fin 8) (ix : Four Nat) : Int := (rbits ws i 29 16 : Int) + stride (rDesc ws i).s ix
/-- The entries an operand names, in expansion order. -/
def accEntries (ws : RWords) (i : Fin 8) (n : Nat) (l : List (Four Nat)) : List Int :=
  if n = 0 then [] else l.flatMap (fun ix => (List.range n).map (fun (j : Nat) => accFirst ws i ix + (j : Int)))
/-- The key of entry a of an allocation: 1,024 × bank + row. -/
def accKey (handle : Nat) (a : Int) : Nat := handle % 16 * 1024 + a.toNat
/-- The keys a record names through D and A. -/
def namedKeys (ws : RWords) : List Nat :=
  let l := rIssues ws
  let (nd, na) := accNames ws
  (accEntries ws 2 nd l).map (accKey (accHandle ws 2)) ++ (accEntries ws 4 na l).map (accKey (accHandle ws 4))

/-- Does the record clear entries? -/
def clears (ws : RWords) : Bool :=
  match rOp ws with
  | 0x1C => true
  | 0x10 | 0x11 | 0x1A | 0x1D => false
  | _ => rLow ws

/-- A resolving record (R267). -/
def resolving (ws : RWords) : Bool := rOp ws == 0x1A || rOp ws == 0x1D || (clears ws && (rGslot ws).val != 0)

/-- Does the record run on the array path (R270)? -/
def arrayPath (ws : RWords) : Bool := rOp ws != 0x12 && rOp ws != 0x1B

/-! ### Checks without projection or translation (R260 to R263, R272, R284, R286) -/

/-- The accumulator descriptor's must-be-zero fields; FD only for PMULP. -/
def accDescOk (ws : RWords) (i : Fin 8) : Bool :=
  rbits ws i 15 9 == 0 && rbits ws i 39 30 == 0 && (rOp ws == 0x11 || rbits ws i 47 40 == 0)

/-- FLAGS, kinds and unused fields of each record (Table 10.5). -/
def productFieldsOk (ws : RWords) : Bool :=
  let z := fun (l : List (Fin 8)) => l.all (rzero ws)
  match rOp ws with
  | 0x10 | 0x11 => [0, 1, 3].contains (rKA ws) && [0, 1].contains (rKB ws)
  | 0x12 =>
    [0, 1].contains (rKA ws) && rKB ws == 0 && !rHi ws && z [7] && dMode ws == 0 && !dSat ws && dFmt ws == 0
      && rbits ws 6 32 32 == 0 && rbits ws 6 11 0 == 0 && (dClaim ws || (dHi ws == 0 && dLo ws == 0))
  | 0x1B =>
    [0, 1].contains (rKA ws) && rKB ws == 0 && z [7] && (!rHi ws || (rKA ws == 1 && rbits ws 2 4 0 == 0))
      && rbits ws 6 32 32 == 0 && rbits ws 6 22 0 == 0 && (dClaim ws || (dHi ws == 0 && dLo ws == 0))
      && !([1, 2, 3].contains (dMode ws))
      && (match recTy? (dFmt ws) with
          | some t => if t.isFloat || t == .fp64 then true else if t.isOrris then dMode ws == 0 && !dSat ws else !dSat ws
          | none => false)
  | 0x19 => rKA ws == 0 && [0, 1].contains (rKB ws) && !rHi ws
  | 0x1A | 0x1C => rFlags ws == 0 && z [2, 3, 6, 7]
  | 0x1D => rFlags ws == 0 && z [6, 7]
  | _ => decide (rKB ws ≤ 2)

/-- RECORD_INVALID for everything that needs neither a projection nor a translation (R288 step 1). -/
def productFormOk (c : Core) (ws : RWords) : Bool :=
  let l := rIssues ws
  let (nd, na) := accNames ws
  let os := productOpnds ws
  wordZeroOk ws && productFieldsOk ws && (nd == 0 || accDescOk ws 2) && (na == 0 || accDescOk ws 4)
    && os.all (fun o => o.2.2.wellFormed l && (o.2.2.kind != 2 || rTrip ws (roles (rHi ws)).2.2.2 == 0)
        && (o.2.2.kind != 3 || (c.bypNext && arrayPath ws)))

/-! ### Projections (R267, R276, R278) -/

/-- The projection of a key. -/
def Core.projAt (c : Core) (k : Nat) : Proj := sget Proj.zero c.proj k

/-- Count what each key receives: whether it is zeroed at some issue, and the issues from the last such one on. -/
def accCounts (zero : Four Nat → Bool) (key : Four Nat → List Nat) (l : List (Four Nat)) : List (Nat × Bool × Nat) :=
  l.foldl (fun m ix => (key ix).foldl (fun m k =>
    let old := (aget m k).getD (false, 0)
    aput m k (if zero ix then (true, 1) else (old.1, old.2 + 1))) m) []

/-- The counts of a record that accumulates into D. -/
def dCounts (ws : RWords) : List (Nat × Bool × Nat) :=
  let (k, _, _, _) := roles (rHi ws)
  let mat := (matOp? (rOp ws)).isSome
  accCounts (fun ix => mat && rLow ws && ix.at k == 0)
    (fun ix => (List.range (accNames ws).1).map (fun (j : Nat) => accKey (accHandle ws 2) (accFirst ws 2 ix + (j : Int)))) (rIssues ws)

/-- The first digit's weight of a PMULP: g × f (R277). -/
def packExp (ws : RWords) (gw : Word) : BitVec 28 := BitVec.ofNat 28 (gwG gw * rbits ws 2 47 40)

/-- The entry number within the allocation of a key. -/
def entryNo (ws : RWords) (k : Nat) : Nat := k - accHandle ws 2 % 16 * 1024

/-- Set the projections of keys. -/
def Core.project (c : Core) (l : List (Nat × Proj)) : Core := 
  { c with
    proj := l.foldl (fun m x => sput Proj.zero m x.1 x.2) c.proj
    clean := { c.clean with banks := l.foldl (fun m x => unsetBit m (x.1 / 1024)) c.clean.banks } }

/-- R288 steps 7 and 8: tags, exponents and headroom on the projections, and the projections after the record. -/
def productProject (c : Core) (ws : RWords) (gw : Word) : Chk Core := do
  let l := rIssues ws
  let (nd, na) := accNames ws
  let ka := ((accEntries ws 4 na l).map (accKey (accHandle ws 4))).eraseDups
  let tagIn := fun (k : Nat) (ts : List (BitVec 4)) => ts.contains (c.projAt k).tag
  let clear := fun (c : Core) => c.project (ka.map (fun k => (k, Proj.zero)))
  match rOp ws with
  | 0x10 => return c
  | 0x11 =>
    let cs := dCounts ws
    need (cs.all (fun x => tagIn x.1 [0, 3] && ((c.projAt x.1).tag == 0 || (c.projAt x.1).exp == packExp ws gw)))
    let g := gwG gw
    let d' := fun (x : Nat × Bool × Nat) =>
      bitsFor (2 ^ digitBits g (c.projAt x.1).tag (c.projAt x.1).head + digitBound gw * x.2.2)
    match cs.find? (fun x => decide (g - 1 < d' x)) with
    | some x => chkFault { code := 16, slot := 1, addr := entryNo ws x.1, detail := x.2.2 }
    | none => return c.project (cs.map (fun x => (x.1, ⟨3, packExp ws gw, BitVec.ofNat 8 (g - 1 - d' x)⟩)))
  | 0x12 =>
    need (ka.all (fun k => tagIn k [3]))
    return if rLow ws then clear c else c
  | 0x16 | 0x17 | 0x18 =>
    let cs := dCounts ws
    need (cs.all (fun x => tagIn x.1 [0, 2]))
    let b' := fun (x : Nat × Bool × Nat) =>
      lgBits' (if x.2.1 then 0 else lgBits (c.projAt x.1).tag (c.projAt x.1).head) (16 * x.2.2)
    match cs.find? (fun x => decide (127 < b' x)) with
    | some x => chkFault { code := 16, slot := 1, addr := entryNo ws x.1, detail := 16 * x.2.2 }
    | none => return c.project (cs.map (fun x => (x.1, ⟨2, BitVec.ofInt 28 (-28), BitVec.ofNat 8 (127 - b' x)⟩)))
  | 0x19 =>
    let kd := ((accEntries ws 2 nd l).map (accKey (accHandle ws 2))).eraseDups
    need (ka.all (fun k => tagIn k [0, 1, 2, 3]))
    need (kd.all (fun k => tagIn k [0, 1]))
    return l.foldl (fun c ix => (List.range 16).foldl (fun c (j : Nat) =>
      let kt := accKey (accHandle ws 2) (accFirst ws 2 ix + j)
      let c := c.project [(kt, ⟨1, (c.projAt kt).exp, 0⟩)]
      if rLow ws then c.project [(accKey (accHandle ws 4) (accFirst ws 4 ix + j), Proj.zero)] else c) c) c
  | 0x1A =>
    need (ka.all (fun k => tagIn k [0, 1, 2, 3]))
    return c
  | 0x1B =>
    need (ka.all (fun k => tagIn k [0, 1, 2, 3]))
    return if rLow ws then clear c else c
  | 0x1C => return clear c
  | 0x1D => return c
  | _ =>
    let kd := ((accEntries ws 2 nd l).map (accKey (accHandle ws 2))).eraseDups
    need (kd.all (fun k => tagIn k [0, 1]))
    return c.project (kd.map (fun k => (k, ⟨1, (c.projAt k).exp, 0⟩)))

/-! ### The checks in order (R288) -/

/-- ACC_NOT_ALLOCATED (R266). -/
def accAllocated (c : Core) (ws : RWords) (i : Fin 8) (slot n : Nat) : Chk Unit :=
  if n = 0 then .ok ()
  else
    let h := accHandle ws i
    match c.handles.find? (fun x => (mkHandle x.1 x.2).toNat = h) with
    | none => chkFault { code := 14, slot := slot, addr := h }
    | some x =>
      match (accEntries ws i n (rIssues ws)).find? (fun a => decide (a < 0 ∨ ((x.2 * 1024 : Nat) : Int) ≤ a)) with
      | some a => chkFault { code := 14, slot := slot, addr := wrapN 64 a }
      | none => .ok ()

/-- ACC_OWNERSHIP and the channel's binding (R285). -/
def drainBind (c : Core) (ws : RWords) : Chk Core := do
  if arrayPath ws then return c
  else
    let h := accHandle ws 4
    let ch := Fin.ofNat 4 (dCh ws)
    let top := (bits h 7 4 + 1) * 1024
    let bad : FaultInfo := { code := 15, slot := 2, detail := ch.val }
    let others := (List.finRange 4).filter (fun n => n ≠ ch)
    let clash := others.any (fun n => match c.drains.get n with
      | some b => b.1 == h && decide (b.2.1 ≤ dHi ws ∧ dLo ws ≤ b.2.2)
      | none => false)
    if dClaim ws then orFault (decide (dHi ws < top) && decide (dLo ws ≤ dHi ws) && !clash) bad
    let c := if dClaim ws then { c with drains := c.drains.set ch.val (some (h, dLo ws, dHi ws)) } else c
    match c.drains.get ch with
    | none => chkFault bad
    | some b =>
      orFault (b.1 == h && (accEntries ws 4 (accNames ws).2 (rIssues ws)).all (fun a => decide ((b.2.1 : Int) ≤ a ∧ a ≤ b.2.2))) bad
      return c

/-- The translations of the memory operands, in the order D, A, B (R297). -/
def productPages (s : State) (l : List (Four Nat)) : List (Nat × Access × Opnd) → List Trans → Chk (List Trans)
  | [], ps => .ok ps
  | (slot, a, o) :: r, ps =>
    match translateChunks false s.core.localPlace a slot (chunksOf (o.spans l)) s ps with
    | .error e => .error e
    | .ok ps => productPages s l r ps

/-- Every check of a product record at its enqueue (R288), and its effect on projections and bindings. -/
def productCheck (ws : RWords) (s : State) : Chk Plan := do
  let c := s.core
  let gw := c.ctl.gwcfg
  let l := rIssues ws
  let os := productOpnds ws
  let (nd, na) := accNames ws
  need (productFormOk c ws)
  let lead := readLead s ((os.filter (fun o => o.2.1 == .read)).flatMap (fun o => chunksOf (o.2.2.spans l)))
  need (atReached s ws lead)
  barriersOn c ws
  orFault (!(rOp ws == 0x11 || rOp ws == 0x12) || (gwG gw != 0 && gwK gw != 0)) { code := 17 }
  accAllocated c ws 2 1 nd
  accAllocated c ws 4 2 na
  let c ← drainBind c ws
  match os.find? (fun o => !o.2.2.aligned) with
  | some o => chkFault { code := 4, addr := o.2.2.d.base, slot := o.1 }
  | none => pure ()
  let names := namedKeys ws
  if (c.pq ++ c.prun).any (fun r => resolving r.words && (namedKeys r.words).any names.contains) then .error .delay
  let c ← productProject c ws gw
  let ps ← productPages s l os []
  let dst := (os.filter (fun o => o.2.1 == .write)).flatMap (fun o => o.2.2.spans l)
  let pend ← destChecks s ps true dst
  let byp := if arrayPath ws then false else (rOp ws == 0x1B && rHi ws) || c.bypNext
  return ⟨{ c with bypNext := byp }, ps, pend, 0, lead⟩

/-! ### Entries -/

/-- Change the entry of a key. -/
def Core.setAcc (c : Core) (k : Nat) (e : AccEntry) : Core := 
  { c with acc := sput AccEntry.zero c.acc k e, clean := { c.clean with banks := unsetBit c.clean.banks (k / 1024) } }
/-- The entry of a key. -/
def Core.accAt (c : Core) (k : Nat) : AccEntry := sget AccEntry.zero c.acc k

/-- The columns of a tile. -/
def columns (n : Nat) (t : List (List Nat)) : List (List Nat) := (List.range n).map (fun c => t.map (fun r => r.getD c 0))

/-- An entry after the pairs of codes of a record's issues, one list an issue (R274, R275, R277), with the headroom of R276 or R278. -/
def macEntry (ws : RWords) (gw : Word) (zero : Bool) (steps : List (List (Nat × Nat))) (old : AccEntry) : AccEntry :=
  let e := if zero then AccEntry.zero else old
  match matOp? (rOp ws) with
  | some (.dot F _ _ _) => steps.foldl (fun e ps => e.addProducts (ps.map (fun p => (F.val p.1, F.val p.2)))) e
  | some (.log a b) =>
    { steps.foldl (fun e ps => e.addLogs (ps.map (fun p => (lgVal a p.1, lgVal b p.2)))) e with
      head := BitVec.ofNat 8 (127 - lgBits' (lgBits e.tag e.head) (16 * steps.length)) }
  | none =>
    let w := (wordShape ws).1
    { steps.foldl (fun e ps => ps.foldl (fun e p => e.addPacked (gwG gw) (rbits ws 2 47 40) (sintOf w p.1 * sintOf w p.2)) e) e with
      head := BitVec.ofNat 8 (gwG gw - 1 - bitsFor (2 ^ digitBits (gwG gw) old.tag old.head + digitBound gw * steps.length)) }

/-- The entry that a write of a record leaves. -/
def AccOp.apply (op : AccOp) (r : QRec) (old : AccEntry) : AccEntry :=
  match op with
  | .set e => e
  | .mac zero steps => macEntry r.words r.gwcfg zero steps old
  | .scale src c0 c1 => old.scaleInto src c0 c1

/-! ### What an issue reads and gives -/

/-- The tile of issue i: what was read of it ahead, or the planes and the bypass buffer as they stand (R270, Table 10.6). -/
def QRec.tile (r : QRec) (s : State) (slot : Nat) (o : Opnd) (i : Nat) : List (List Nat) :=
  match r.tiles.find? (fun t => t.1 == slot && t.2.1 == i) with
  | some t => t.2.2
  | none => o.tile r.pages s (issueAt r.words i)

/-- The operand in a fault slot of a record: D is 1, A is 2, B is 3. -/
def QRec.opnd (r : QRec) (slot : Nat) : Opnd :=
  (((productOpnds r.words).find? (fun o => o.1 == slot)).map (·.2.2)).getD (Sys2Proof.Machine.opnd r.words 2 0 0 0 0 false 0 0 0)

/-- The tile of an operand in issue i. -/
def QRec.operand (r : QRec) (s : State) (slot i : Nat) : List (List Nat) := r.tile s slot (r.opnd slot) i

/-- The record has still to perform some writes, together, in cycle t. -/
def QRec.put (r : QRec) (t : Option Nat) (ops : List RPut) : QRec := if ops.isEmpty then r else { r with puts := r.puts ++ [⟨t, ops⟩] }

/-- The entries, by number in their allocation, that issue i names through an accumulator operand. -/
def QRec.names (r : QRec) (desc : Fin 8) (n i : Nat) : List Int :=
  (List.range n).map (fun (j : Nat) => accFirst r.words desc (issueAt r.words i) + (j : Int))

/-- Does an issue behind issue i name entry a through D? -/
def QRec.namedLater (r : QRec) (i : Nat) (a : Int) : Bool :=
  let n := (accNames r.words).1
  ((rIssues r.words).drop (i + 1)).any (fun ix => let a0 := accFirst r.words 2 ix; decide (a0 ≤ a ∧ a < a0 + n))

/-- Pairs of codes join what the record has given an entry so far; with `zero` they begin afresh from the zero entry. -/
def QRec.accrue (r : QRec) (key : Nat) (zero : Bool) (ps : List (Nat × Nat)) : QRec :=
  let old := (r.work.find? (fun w => w.1 == key)).map (·.2)
  let new := if zero then (true, [ps]) else ((old.map (·.1)).getD false, (old.map (·.2)).getD [] ++ [ps])
  { r with work := (key, new) :: r.work.filter (fun w => w.1 ≠ key) }

/-- The entries of issue i that no later issue names perform six cycles behind it, whole (Table 10.6). -/
def QRec.settle (r : QRec) (i : Nat) : QRec :=
  let last := ((r.names 2 (accNames r.words).1 i).filter (fun a => !r.namedLater i a)).map (accKey (accHandle r.words 2))
  let out := r.work.filter (fun w => last.contains w.1)
  { r with work := r.work.filter (fun w => !last.contains w.1) }.put (some (r.start + 6 + i)) (out.map (fun (w : Nat × Bool × List (List (Nat × Nat))) => .entry w.1 (.mac w.2.1 w.2.2)))

/-- PDOT and PLOG (R274, R275): every entry of the tile takes a row of A with a column of B. -/
def matrixIssue (r : QRec) (i : Nat) (s : State) : QRec :=
  let ws := r.words
  let ix := issueAt ws i
  let cols := columns 16 (r.operand s 3 i)
  let zero := rLow ws && ix.at (roles (rHi ws)).1 == 0
  (((r.operand s 2 i).zipIdx).foldl (fun r row => (cols.zipIdx).foldl (fun r col =>
    r.accrue (accKey (accHandle ws 2) (accFirst ws 2 ix + 16 * row.2 + col.2)) zero (row.1.zip col.1)) r) r).settle i

/-- PMULP (R277, R278): entry j takes word j of A with word j of B. -/
def pmulpIssue (r : QRec) (i : Nat) (s : State) : QRec :=
  let ws := r.words
  ((((r.operand s 2 i).flatten.zip (r.operand s 3 i).flatten).zipIdx).foldl (fun r x =>
    r.accrue (accKey (accHandle ws 2) (accFirst ws 2 (issueAt ws i) + x.2)) false [x.1]) r).settle i

/-- PMUL (R280). -/
def pmulIssue (r : QRec) (i : Nat) (s : State) : QRec :=
  let w := (wordShape r.words).1
  let D := r.opnd 1
  let num := fun (sg : Bool) (x : Nat) => if sg then sintOf w x else (x : Int)
  r.put (some (r.start + 6 + i)) ((((r.operand s 2 i).flatten.zip (r.operand s 3 i).flatten).zipIdx).map (fun x =>
    .val true (2 * w) (D.loc (issueAt r.words i) 0 x.2) (wrapN (2 * w) (num (gwSA r.gwcfg) x.1.1 * num (gwSB r.gwcfg) x.1.2))))

/-- PSCALE (R281): the sources are read in this cycle, the destinations and the cleared sources are written six later. -/
def pscaleIssue (r : QRec) (i : Nat) (s : State) : QRec :=
  let ws := r.words
  let codes := (r.operand s 3 i).flatten
  r.put (some (r.start + 6 + i)) ((List.range 16).flatMap (fun (j : Nat) =>
    let ks := accKey (accHandle ws 4) (accFirst ws 4 (issueAt ws i) + j)
    let kt := accKey (accHandle ws 2) (accFirst ws 2 (issueAt ws i) + j)
    .entry kt (.scale (s.core.accAt ks) (codes.getD 0 0) (codes.getD (16 + j) 0)) :: if rLow ws then [.entry ks (.set AccEntry.zero)] else []))

/-- The keys of the 16 entries that issue i names through A. -/
def QRec.keysA (r : QRec) (i : Nat) : List Nat := (r.names 4 16 i).map (accKey (accHandle r.words 4))

/-- PNORM (R282). -/
def pnormIssue (r : QRec) (i : Nat) (s : State) : QRec :=
  r.put (some (r.start + 6 + i)) ((r.keysA i).map (fun k => .entry k (.set ((s.core.accAt k).norm r.gwcfg))))

/-- PZERO (R283). -/
def pzeroIssue (r : QRec) (i : Nat) (_s : State) : QRec :=
  r.put (some (r.start + 2 + i)) ((r.keysA i).map (fun k => .entry k (.set AccEntry.zero)))

/-- PLOAD (R283): four images an issue. -/
def ploadIssue (r : QRec) (i : Nat) (s : State) : QRec :=
  r.put (some (r.start + 2 + i)) (((r.operand s 2 i).flatten.zipIdx).map (fun x =>
    .entry (accKey (accHandle r.words 2) (accFirst r.words 2 (issueAt r.words i) + x.2)) (.set (entryOf x.1))))

/-- The rounding mode of a control word: its own, or the one captured (Table 10.8). -/
def recMode (n : Nat) (captured : Rm) : Rm := match n with | 4 => .rne | 5 => .rtz | 6 => .rdn | 7 => .rup | _ => captured

/-- The 16 values of a drain's issue go to their places, and the n entries that it read are cleared with CLR; the flags join the record's
(R284, R286, Table 10.6). -/
def QRec.deliver (r : QRec) (i : Nat) (s : State) (byp : Bool) (n : Nat) (vals : List (Nat × Flags)) : QRec :=
  let D := r.opnd 1
  let loc := fun (j : Nat) => if byp then .byp (D.pos (issueAt r.words i) + j) else D.loc (issueAt r.words i) 0 j
  let lag := longest ((List.range 16).map (fun j => r.writeLag s true (loc j)))
  let at_ := r.start + 4 + i
  let r := { r with flags := vals.foldl (fun (f : Flags) (v : Nat × Flags) => f ||| v.2) r.flags }
  let r := r.put (lag.map (at_ + ·)) ((vals.zipIdx).map (fun (v : (Nat × Flags) × Nat) => .val true D.b (loc v.2) v.1.1))
  r.put (some at_) (if rLow r.words then ((r.keysA i).take n).map (fun k => .entry k (.set AccEntry.zero)) else [])

/-- PDRAIN (R286). A BYP drain replaces the buffer's contents where it writes. -/
def pdrainIssue (r : QRec) (i : Nat) (s : State) : QRec :=
  match recTy? (dFmt r.words) with
  | none => r
  | some t => r.deliver i s (rHi r.words) 16 ((r.keysA i).map (fun k => (s.core.accAt k).drain t (recMode (dMode r.words) r.rm) (dSat r.words)))

/-- PXTP (R287). -/
def pxtpIssue (r : QRec) (i : Nat) (s : State) : QRec :=
  r.deliver i s false 1 ((s.core.accAt ((r.keysA i).headD 0)).extract (gwG r.gwcfg) (dF r.words) (dN r.words))

/-! ### The start of a record (R270, R272) -/

/-- Do two records use the same path: the array, or the same drain channel? -/
def samePath (a b : RWords) : Bool := if arrayPath a then arrayPath b else !arrayPath b && dCh a == dCh b

/-- The key under which the bypass buffer is ordered with the entries. -/
def bypassKey : Nat := 16384

/-- What a record reads of entries and the bypass buffer: keys, with the cycle after its start (Table 10.6). -/
def entryReads (ws : RWords) : List (Nat × Nat) :=
  let n := issueCount ws
  (if [0x12, 0x19, 0x1A, 0x1B].contains (rOp ws) then
    (List.range n).flatMap (fun i => (List.range (accNames ws).2).map (fun (j : Nat) => (accKey (accHandle ws 4) (accFirst ws 4 (issueAt ws i) + (j : Int)), i)))
  else [])
  ++ (if (productOpnds ws).any (fun o => o.2.2.kind == 3) then [(bypassKey, 0), (bypassKey, n - 1)] else [])

/-- What a record writes of them: entries that accumulate are written once, six cycles behind the last issue that names them (Table 10.6). -/
def entryWrites (ws : RWords) : List (Nat × Nat) :=
  let n := issueCount ws
  let named := fun (desc : Fin 8) (m lag : Nat) => (List.range n).flatMap (fun i =>
    (List.range m).map (fun (j : Nat) => (accKey (accHandle ws desc) (accFirst ws desc (issueAt ws i) + (j : Int)), lag + i)))
  match rOp ws with
  | 0x10 => []
  | 0x12 => if rLow ws then named 4 1 4 else []
  | 0x19 => named 2 16 6 ++ (if rLow ws then named 4 16 6 else [])
  | 0x1A => named 4 16 6
  | 0x1B => (if rLow ws then named 4 16 4 else []) ++ (if rHi ws then [(bypassKey, 4), (bypassKey, 3 + n)] else [])
  | 0x1C => named 4 16 2
  | 0x1D => named 2 4 2
  | _ => (named 2 (accNames ws).1 6).foldl (fun m x => aput m x.1 (max x.2 ((aget m x.1).getD 0))) []

/-- The first start at which cycle y of a record comes behind cycle x of one that starts at s, for each key of both lists. -/
def behindAll (s : Nat) (xs ys : List (Nat × Nat)) : Nat :=
  ys.foldl (fun m y => xs.foldl (fun m x => if x.1 = y.1 then max m (s + x.2 + 1 - y.2) else m) m) 0

/-- The first start of a record behind an earlier one: not before it; behind its last issue on the same path; and with the order of R270,
condition 3, on entries. -/
def startBehind (q : QRec) (ws : RWords) : Nat :=
  let w := entryWrites q.words
  max (max q.start (if samePath q.words ws then q.start + issueCount q.words else 0))
    (max (behindAll q.start w (entryReads ws)) (behindAll q.start (w ++ entryReads q.words) (entryWrites ws)))

/-- The first start that the running records allow (R270 conditions 1 to 3). -/
def Core.startBound (c : Core) (ws : RWords) : Nat :=
  c.prun.foldl (fun m q => max m (if q.skips c then q.start else startBehind q ws)) 0

/-- Does the record read memory whose latency is not fixed: die scratchpad, in flow mode? -/
def QRec.readsFar (r : QRec) (c : Core) : Bool := !c.fixed && decide (12 < r.lead)

/-- The start of the record at the head of the queue, where it is settled: its first read is made in this core cycle at the earliest, and in
fixed mode it starts at AT at the earliest. In flow mode it is settled once condition 4 of R270 holds, in fixed mode at once, as far as the
accesses that the record has to follow have perform points. -/
def Core.productStart (c : Core) (r : QRec) : Option Nat :=
  let lead := if r.skips c then 0 else r.lead
  if c.fixed then
    if c.behind r false then none else some (max (max r.due (max c.tau (c.behindPoints r) + lead)) (c.startBound r.words))
  else if r.gate.isNone || c.behind r true || (c.slow && r.readsFar c) then none
  else some (max (c.tau + lead) (c.startBound r.words))

/-! ### The work of a core cycle -/

/-- Is a record of the kind named? -/
def QRec.isA (r : QRec) (i : Instr) : Bool := decodeRecord (r.words.get 0).toNat == some i

/-- Has a running record something to do in this core cycle? -/
def Core.dueNow (c : Core) (r : QRec) : Bool := !r.done && r.gate.isSome && decide (r.seen ≤ c.tau)

/-- The memory operands that a record reads in cycle u: slot, operand, issue (R270). -/
def QRec.readsAt (r : QRec) (k : CoreKey) (u : Nat) : List (Nat × Opnd × Nat) :=
  ((productOpnds r.words).filter (fun o => o.2.1 == .read && (o.2.2.kind == 0 || o.2.2.kind == 2))).filterMap (fun o =>
    let i := u + r.spanLead k (o.2.2.spans (rIssues r.words)) - r.start
    if r.start ≤ u + r.spanLead k (o.2.2.spans (rIssues r.words)) ∧ i < issueCount r.words then some (o.1, o.2.2, i) else none)

/-- The cycle after its start in which the last write of a record performs. -/
def QRec.lastWrite (r : QRec) (s : State) : Nat :=
  let n := issueCount r.words
  match rOp r.words with
  | 0x1C | 0x1D => n + 1
  | 0x12 | 0x1B => n + 3 + (r.writeLag s true ((r.opnd 1).loc (issueAt r.words (n - 1)) 0 0)).getD 0
  | _ => n + 5

/-- A running product record in this core cycle: it reads its memory operands for the issues whose reads are due, and makes the issue of
the cycle. With a false guard it reads and writes nothing; in fixed mode its cycles pass all the same, to that of its last write (R201, R272). -/
def productCycle (body : QRec → Nat → State → QRec) (r : QRec) (s : State) : State :=
  let c := s.core
  let u := c.tau
  let n := issueCount r.words
  let reads := if r.off then [] else r.readsAt c.key u
  let r1 := { r with tiles := r.tiles ++ reads.map (fun x => (x.1, x.2.2, x.2.1.tile r.pages s (issueAt r.words x.2.2))) }
  let r2 := if r.start ≤ u ∧ u < r.start + n ∧ !r.off then body r1 (u - r.start) s else r1
  let done := r.skips c || decide (r.start + n ≤ u + 1)
  let r3 := { r2 with
    tiles := r2.tiles.filter (fun t => decide (u < r.start + t.2.1))
    puts := if r.off && c.fixed && done then [⟨some (r.start + r.lastWrite s), []⟩] else r2.puts
    seen := u + 1, done := done }
  let s := s.recordRead 2 r.pages (reads.flatMap (fun x => x.2.1.spans [issueAt r.words x.2.2]))
  { s with core := { s.core with prun := s.core.prun.map (fun q => if q.number = r.number then r3 else q) } }

/-- A product record of the kind named does what this core cycle has for it: a running one reads and issues, or the head of the queue
gets its start cycle and runs from its first read on (R270 to R272). -/
def stepProduct (i : Instr) (body : QRec → Nat → State → QRec) (s : State) : Out State :=
  let c := s.core
  match (if c.isOpen then c.prun.find? (fun r => r.isA i && c.dueNow r) else none) with
  | some r => ok (productCycle body r s)
  | none =>
    match c.pq with
    | r :: rest =>
      match (if c.isOpen && r.isA i then c.productStart r else none) with
      | some b => ok { s with core := { c with
          pq := rest, prun := c.prun ++ [{ r with start := b, seen := b - (if r.skips c then 0 else r.lead) }] } }
      | none => idle s
    | [] => idle s

/-- PDOT.f64 (R274). -/
def execPdotF64 (s : State) : Out State := stepProduct .pdotF64 matrixIssue s
/-- PDOT.f32. -/
def execPdotF32 (s : State) : Out State := stepProduct .pdotF32 matrixIssue s
/-- PDOT.bf16. -/
def execPdotBf16 (s : State) : Out State := stepProduct .pdotBf16 matrixIssue s
/-- PLOG.66 (R275). -/
def execPlog66 (s : State) : Out State := stepProduct .plog66 matrixIssue s
/-- PLOG.68. -/
def execPlog68 (s : State) : Out State := stepProduct .plog68 matrixIssue s
/-- PLOG.88. -/
def execPlog88 (s : State) : Out State := stepProduct .plog88 matrixIssue s
/-- PMULP. -/
def execPmulp (s : State) : Out State := stepProduct .pmulp pmulpIssue s
/-- PMUL. -/
def execPmul (s : State) : Out State := stepProduct .pmul pmulIssue s
/-- PSCALE. -/
def execPscale (s : State) : Out State := stepProduct .pscale pscaleIssue s
/-- PNORM (R282). -/
def execPnorm (s : State) : Out State := stepProduct .pnorm pnormIssue s
/-- PZERO (R283). -/
def execPzero (s : State) : Out State := stepProduct .pzero pzeroIssue s
/-- PLOAD (R283). -/
def execPload (s : State) : Out State := stepProduct .pload ploadIssue s
/-- PDRAIN. -/
def execPdrain (s : State) : Out State := stepProduct .pdrain pdrainIssue s
/-- PXTP. -/
def execPxtp (s : State) : Out State := stepProduct .pxtp pxtpIssue s

end Sys2Proof.Machine
end

