-- ==== Sys2Proof/Machine/Sync.lean ====
section
/-! DEFINITION. Barriers, tokens, completion signals and MERGE as the sequencer executes them (R372, R378 to R387), and the
updates of signals on their way (R385, R386). -/

namespace Sys2Proof.Machine

/-! ### Barriers -/

/-- DETAIL of BARRIER_DISABLED: the scope and index where the word holds them (Table 15.2). -/
def barDetail (sc : Scope) (i : Nat) : Nat := sc.code * 2 ^ 27 + i

/-- Every class. -/
def allClasses : BitVec 16 := BitVec.allOnes 16

/-- A word that the watchdog counts waits until the accesses of its own agent have performed (R365, R405). -/
def waitAccesses (s : State) : Out State := if s.fenceBusy allClasses (fun _ => true) true then ok s else stayCounted s

/-- An arrival of the current core at a barrier: BARRIER_DISABLED with EC 0; else, once the agent's earlier accesses have
performed, `m` on the phase joined and the state after the arrival (R378). -/
def arriveAt (sc : Scope) (i : BitVec 7) (m : BitVec 16 → State → Out State) (s : State) : Out State :=
  let k := barKey s.core.key sc i.toNat
  let b := s.getBar k
  if b.ec = 0 then raise { code := 25, detail := barDetail sc i.toNat } s
  else if s.accessBusy then waitAccesses s
  else m b.ph (s.setBar k b.arrive)

/-- BARA (Table 14.4). -/
def execBara (d : GReg) (sc : Scope) (i : BitVec 7) (s : State) : Out State :=
  let ph : Word := (s.getBar (barKey s.core.key sc i.toNat)).ph.zeroExtend 64
  if (s.getBar (barKey s.core.key sc i.toNat)).ec ≠ 0 && s.core.stackBad d ph then raise { code := 6, addr := ph.toNat } s
  else arriveAt sc i (fun p s => setG d (p.zeroExtend 64) s) s

/-- BARW (R379). -/
def execBarw (sc : Scope) (i : BitVec 7) (a : GReg) (s : State) : Out State :=
  let b := s.getBar (barKey s.core.key sc i.toNat)
  if phaseDone b.ph ((s.core.rd a).truncate 16) then ok s.retire else stayCounted s

/-- BAR (Table 14.4): the arrival, then the wait on the joined phase from the next core cycle on. -/
def execBar (sc : Scope) (i : BitVec 7) (s : State) : Out State :=
  match s.core.wait with
  | some (.phase t) =>
    let b := s.getBar (barKey s.core.key sc i.toNat)
    if phaseDone b.ph t then ok s.retire else stayCounted s
  | _ => arriveAt sc i (fun p s => ok { s with core := { s.core with wait := some (.phase p) } }) s

/-- BARQ (Table 14.4). -/
def execBarq (d : GReg) (sc : Scope) (i : BitVec 7) (s : State) : Out State :=
  let b := s.getBar (barKey s.core.key sc i.toNat)
  let pc := if sc = .core then b.pc % 2 ^ 16 else 0
  setG d (BitVec.ofNat 64 (pc * 2 ^ 48 + b.ec.toNat * 2 ^ 32 + b.ac.toNat * 2 ^ 16 + b.ph.toNat)) s

/-- BARC (R381): privileged; bits of g[A] outside EC, RESET and PH must be zero. -/
def execBarc (sc : Scope) (i : BitVec 7) (a : GReg) (s : State) : Out State :=
  privileged (fun s =>
    let v := (s.core.rd a).toNat
    if bits v 31 17 ≠ 0 ∨ bits v 63 48 ≠ 0 then raise { code := 1, detail := 3 } s
    else
      let k := barKey s.core.key sc i.toNat
      ok (s.setBar k ((s.getBar k).setCount (BitVec.ofNat 16 v) (BitVec.ofNat 16 (bits v 47 32)) (bitAt v 16))).retire) s

/-- BARRIER_ARRIVAL: an arrival sent by another agent is applied at the barrier's home (R378); with EC 0 it is dropped
(R381). -/
def execBarrierArrival (b : BarKey) (s : State) : Out State := .next (s.setBar b (s.getBar b).arrive)

/-! ### Tokens (R383) -/

/-- TOKW: the counts captured at its first cycle are those of the tokens now, since nothing enqueues while it waits. -/
def execTokw (mask : BitVec 8) (s : State) : Out State :=
  if s.core.tokensDone (s.core.captureTokens mask.toNat) then ok s.retire else stayCounted s

/-! ### Signals (R384 to R387) -/

/-- SIGADD or SIGMAX: an update is sent, which takes effect at its home after the agent's earlier accesses of the class that R359 places
before it (R384, R385); with a mask it is a release and an acquire (R364). -/
def signalWord (isMax : Bool) (cls : OrdClass) (obs : BitVec 5) (b a : GReg) (off : BitVec 16) (s : State) : Out State :=
  withWrite (effAddr s.core a off) 8 (fun pa tr s =>
    let src := sigSource s.core.key 0
    if !s.sigRoom src pa then stay s
    else
      let s := s.sendSig src pa isMax (s.core.rd b) (some (s.core.key, cls, s.core.num)) none none obs [tr] (s.core.storePoint cls [pa])
      retireWith (fun c => { c with num := c.num + 1 }) s) s

/-- SIGADD (R384). -/
def execSigadd (cls : OrdClass) (obs : BitVec 5) (b a : GReg) (off : BitVec 16) (s : State) : Out State :=
  signalWord false cls obs b a off s
/-- SIGMAX (R384). -/
def execSigmax (cls : OrdClass) (obs : BitVec 5) (b a : GReg) (off : BitVec 16) (s : State) : Out State :=
  signalWord true cls obs b a off s

/-- The condition of SIGW (R387), coded as DCMP: 0 ≥, 1 =, 2 ≠, 3 <, on n64. -/
def sigCond (c : Nat) (v x : Nat) : Bool :=
  match c with
  | 0 => decide (x ≤ v) | 1 => v == x | 2 => v != x | _ => decide (v < x)

/-- The value of a signal as an agent of the package reads it: through the forwarding pairs (R337), not through a merge log
(R376). -/
def State.signalAt (s : State) (pa : Nat) : Nat := ofBytes ((List.range 8).map (fun i => s.readByte (pa + i)))

/-- Has a SIGW waited for as long as its limit, in units of 256 core cycles, allows (R387)? -/
def limitOver (lim : BitVec 16) (cycles : Nat) : Bool := decide (lim ≠ 0 ∧ lim.toNat * 256 ≤ cycles)

/-- One reading of a waiting SIGW: it retires with the value where the condition holds or its limit is over, and else goes on waiting; a
read that an earlier access to the signal's bytes holds back is made in a later cycle (R228). -/
def pollSignal (d b : GReg) (cmp : Fin 4) (lim : BitVec 16) (cycles pa num : Nat) (tr : Trans) (last : Nat) (s : State) : Out State :=
  let held := s.readBlocked 0 num pa 8
  if !held && s.spoiled pa 8 then memoryError pa 0 s else
  let v := if held then last else s.signalAt pa
  if (!held && sigCond cmp.val v (s.core.rd b).toNat) || limitOver lim cycles then setG d (BitVec.ofNat 64 v) s
  else stayCounted { s with core := { s.core with wait := some (.signal (cycles + 1) pa num tr v) } }

/-- SIGW (R387): its address is translated once, at its issue (R297); it retires with the value read once the condition holds or its limit
is over, and until then it waits, counting its core cycles. -/
def execSigw (_obs : BitVec 5) (d a b : GReg) (cmp : Fin 4) (lim : BitVec 16) (s : State) : Out State :=
  match s.core.wait with
  | some (.signal n pa k tr v) => pollSignal d b cmp lim n pa k tr v s
  | _ =>
    withRead (s.core.rd a).toNat 8 (fun pa tr s =>
      pollSignal d b cmp lim 0 pa s.core.num tr 0 { s with core := { s.core with num := s.core.num + 1 } }) s

/-- SIGW_LIMIT: a SIGW that has waited lim × 256 core cycles retires with the last value read, before it would read again (R387). -/
def execSigwLimit (s : State) : Out State :=
  match decode s.core.ir, s.core.wait with
  | .ok ⟨_, _, .sigw _ d _ _ _ lim⟩, some (.signal n _ _ _ v) =>
    if limitOver lim n && s.core.phase == .running then setG d (BitVec.ofNat 64 v) s
    else idle s
  | _, _ => idle s

/-- The home's record of a source. -/
def State.sigHome (s : State) (home : Nat) (src : BitVec 19) : SigHome :=
  (s.sigHomes.find? (fun h => h.home = home && h.src = src)).getD ⟨home, src, 0, 0⟩

/-- A home's decision on an identity (R385): apply it or not, and the record it keeps. Map bit i stands for H − i. -/
def SigHome.accept (h : SigHome) (seq : BitVec 32) : Bool × SigHome :=
  let up := (seq - h.h).toNat
  let back := (h.h - seq).toNat
  if 0 < up ∧ up < 2 ^ 31 then (true, { h with h := seq, map := (h.map <<< up) ||| 1 })
  else if back ≤ 255 ∧ !h.map.getLsbD back then (true, { h with map := h.map ||| (1 <<< back) })
  else (false, h)

/-- The new value of a signal (R384). -/
def SigMsg.value (m : SigMsg) (old : Word) : Word := if m.isMax then (if old.ult m.val then m.val else old) else old + m.val

/-- Replace the home's record of a source. -/
def setSigHome (l : List SigHome) (h : SigHome) : List SigHome :=
  h :: l.filter (fun x => !(x.home = h.home && x.src = h.src))

/-- The home takes a message: it applies it unless its identity was applied before (R385). An update reads the signal: one that meets an
uncorrectable soft error there changes nothing, and is MEMORY_ERROR of the task whose word or record it is (R416). The update of an XSIG is a direct
write (R311). -/
def State.takeSig (s : State) (m : SigMsg) : State :=
  let r := (s.sigHome m.home m.src).accept m.seq
  let s := { s with sigHomes := setSigHome s.sigHomes r.2 }
  if !r.1 then s
  else if s.spoiled m.addr 8 then
    match (m.ord.map (fun o => (o.1, 0))).orElse (fun _ => m.owner.map (fun o => (o.1, 3))) with
    | some (k, engine) =>
      if (s.getCore k).task.isSome then
        s.atCore k (fun t => t.atBoundary.raised { code := 31, addr := m.addr, detail := paSpace m.addr, engine := engine })
      else s
    | none => s
  else (match m.owner with | some o => s.veil o.1 m.addr 8 | none => s).writeWord m.addr (m.value (s.word m.addr))

/-- May a message act at its home now: its point has passed, every earlier write of its class has performed, and so has every earlier read
of its class of its bytes and, of a release, in the reach of its mask (R359, R362, R364)? -/
def State.sigReady (s : State) (m : SigMsg) : Bool :=
  match m.ord with
  | some (k, cls, n) =>
    let c := s.getCore k
    c.reached m.at_ && !s.sigBefore k cls n && !c.stores.any (fun p => p.cls == cls && decide (p.num < n)) && !c.loadBefore cls n m.addr 8
      && !c.loads.any (fun l => l.unread && l.cls == cls && decide (l.num < n) && m.obs != 0 && l.items.any (fun i => inReach m.obs k i.2))
  | none => true

/-- SIGNAL_UPDATE: message n of those on their way takes effect at its home (R385). -/
def execSignalUpdate (s : State) : Out State :=
  match s.sigs[s.place.n]? with
  | some m =>
    if m.applied || !s.sigReady m then idle s
    else .next { (s.takeSig m) with sigs := s.sigs.set s.place.n { m with applied := true } }
  | none => idle s

/-- SIGNAL_ACKNOWLEDGE: the acknowledgement of message n reaches its source, which forgets it (R385). -/
def execSignalAcknowledge (s : State) : Out State :=
  match s.sigs[s.place.n]? with
  | some m =>
    if m.applied then .next { s with sigs := s.sigs.eraseIdx s.place.n } else idle s
  | none => idle s

/-- SIGNAL_RESEND: the source of message n, which it has not seen acknowledged, sends it again with the same identity; the
home applies it at most once (R386). -/
def execSignalResend (s : State) : Out State :=
  match s.sigs[s.place.n]? with
  | some m =>
    if s.sigReady m then .next { (s.takeSig m) with sigs := s.sigs.set s.place.n { m with applied := true } }
    else idle s
  | none => idle s

/-! ### MERGE (R372) -/

/-- Does timetable time bring a record or a vector word of the core to its end? Not a record that waits for something else than its
points. -/
def Core.ownWork (c : Core) : Bool :=
  !c.vq.isEmpty || !c.vfly.isEmpty || (c.prun ++ c.trun).any (fun r => !(r.done && r.puts.all (fun p => p.at_.isNone)))
    || (c.pq ++ c.tq).any (fun r => decide (c.tau < r.due))

/-- MERGE: only in a task of a gang launch with DET. It waits for the task's records and accesses, arrives at the next merge
point, and goes on once the launch's logs have been applied; a conflict that names this merge is raised here. -/
def execMerge (s : State) : Out State :=
  let c := s.core
  match c.task with
  | none => raise { code := 23 } s
  | some t =>
    if !(t.gang && t.det) then raise { code := 23 } s
    else
      match c.mergeFault with
      | some (lo, hi, pa) =>
        raise { code := 22, detail := lo * 2 ^ 32 + hi, addr := pa } { s with core := { c with mergeFault := none, wait := none } }
      | none =>
        match c.wait with
        | some (.merged _) => retireWith (fun c => { c with task := some { t with merges := t.merges + 1 } }) s
        | some _ => stayCounted s
        | none =>
          if c.pq.isEmpty && c.prun.isEmpty && c.tq.isEmpty && c.trun.isEmpty && !s.accessBusy && c.vectorIdle then
            ok { s with core := { c with wait := some (.merge (t.merges + 1)) } }
          else if c.ownWork then ok s
          else waitAccesses s

end Sys2Proof.Machine
end

