-- ==== Sys2Proof/Machine/Transfer.lean ====
section
/-! DEFINITION. Transfer records that stay within one core's reach, XPUT, XGET and XSIG: fields (R315, R316), checks at
enqueue (R309, R317), and what each issue does (R318 to R327), with the cycles in which that takes place (R307, R313, R314). -/

namespace Sys2Proof.Machine

/-! ### Fields (Tables 12.2, 12.3) -/

def xEsz (ws : RWords) : Nat := rFlags ws / 8
/-- Element bytes. -/
def xElem (ws : RWords) : Nat := 2 ^ xEsz ws
def xST (ws : RWords) : Option ElemTy := recTy? (rbits ws 6 63 59)
def xDT (ws : RWords) : Option ElemTy := recTy? (rbits ws 6 58 54)
def xMode (ws : RWords) : Nat := rbits ws 6 53 51
def xSat (ws : RWords) : Bool := rbits ws 6 50 50 == 1
def xSlot (ws : RWords) : Fin 8 := Fin.ofNat 8 (rbits ws 6 49 47)
def xAdd (ws : RWords) : Bool := rbits ws 6 46 46 == 1
def xGroup (ws : RWords) : Nat := rbits ws 6 45 40
def xRed (ws : RWords) : Nat := rbits ws 6 39 38
/-- LEN of a table operand (R318). -/
def xLen (ws : RWords) (i : Fin 8) : Nat := bits ((ws.get i).toNat + 2 ^ 64 * (ws.get (i + 1)).toNat) 87 48

/-- Value bits of a type in a record's operand. -/
def xBits (t : ElemTy) : Nat := if t == .lg6 then 6 else tyBits t

/-- A type of a grid transfer (R321). -/
def gridTy (t : ElemTy) : Bool := t == .fp64 || t == .fp32 || t == .fp16 || t == .bf16

/-- MODE and SAT against the destination type (R240, R316). -/
def modeOk (ws : RWords) : Bool :=
  !([1, 2, 3].contains (xMode ws)) && (match xDT ws with | some t => !t.isOrris || xMode ws == 0 | none => false) && (xST ws).isSome

/-! ### The form of each record (R315 to R331) -/

/-- Are the strides of a descriptor zero? -/
def noStrides (ws : RWords) (i : Fin 8) : Bool := rbits ws i 63 48 == 0 && rzero ws (i + 1)

/-- The bytes of a row in the old and the new encoding of a slab (R336). -/
def slabOB (ws : RWords) : Nat := (rTrip ws 0 + 1) * (match xST ws with | some .lg6 => 4 | some t => tyBits t / 8 * 5 | none => 0) / 5
def slabNB (ws : RWords) : Nat := (rTrip ws 0 + 1) * (match xDT ws with | some .lg6 => 4 | some t => tyBits t / 8 * 5 | none => 0) / 5

/-- RECORD_INVALID for everything that needs no translation (R309 step 1). -/
def transferFormOk (ws : RWords) : Bool :=
  let z := fun (l : List (Fin 8)) => l.all (rzero ws)
  let fl := rFlags ws
  let esz := decide (xEsz ws ≤ 6)
  wordZeroOk ws &&
  match rOp ws with
  | 0x40 =>
    if fl % 2 = 1 then fl == 1 && rbits ws 2 47 3 == 0 && noStrides ws 2 && noStrides ws 4 && z [1, 6, 7]
    else esz && fl % 8 == 0 && z [6, 7]
  | 0x41 => fl == 0 && modeOk ws && rbits ws 6 49 0 == 0 && z [7]
  | 0x42 => esz && fl % 8 == 0 && z [5, 6, 7]
  | 0x43 => esz && fl % 8 == 0 && rbits ws 5 63 24 == 0
  | 0x44 => esz && fl % 8 == 0 && rbits ws 3 63 24 == 0
  | 0x45 | 0x46 | 0x47 =>
    fl == 0 && (match xST ws, xDT ws with | some a, some b => gridTy a && gridTy b | _, _ => false)
      && !([1, 2, 3].contains (xMode ws)) && (rOp ws == 0x46 || !xAdd ws) && rbits ws 6 45 0 == 0 && z [7]
  | 0x48 =>
    if fl = 2 then z [1, 2, 3, 6, 7] && noStrides ws 4
    else
      decide (fl ≤ 1) && modeOk ws && rbits ws 6 49 0 == 0 && z [7] && rTrip ws 2 == 0 && rTrip ws 3 == 0
        && [rDesc ws 2, rDesc ws 4].all (fun d => d.s.x0 == 1 && d.s.x1 == ((rTrip ws 0 + 1 : Nat) : Int))
        && (fl == 0 || (slabOB ws % 32 == 0 && slabNB ws % 32 == 0
              && ((xST ws != some .lg6 && xDT ws != some .lg6) || (rTrip ws 0 + 1) % 40 == 0)))
  | 0x49 => esz && fl % 8 == 0 && z [6, 7]
  | 0x4A | 0x4B => esz && fl / 4 % 2 == 0 && z [6, 7]
  | 0x4D => decide (fl ≤ 3) && noStrides ws 2 && z [1, 5, 6, 7]
  | 0x4C =>
    if fl % 2 = 1 then fl == 1 && rbits ws 6 63 46 == 0 && rbits ws 6 39 0 == 0 && z [1, 2, 3] && noStrides ws 4
    else decide (fl ≤ 7) && rbits ws 6 63 46 == 0 && decide (xRed ws ≤ 1) && rbits ws 6 37 0 == 0
  | _ => false

/-! ### Operands -/

/-- Which places an operand may reach (R302, R317, R324, R329). -/
inductive Reach where
  | loc | code | dsp | away | far | pkgDsp | upDie
  deriving DecidableEq, Repr

/-- The die that sends a die its shards (RTRK.UPSRC, R141). -/
def State.upDie (s : State) (k : DieKey) : Option DieKey :=
  let back := fun n => (k.pkg + s.modules - n) % s.modules
  match bits (s.getDie k).rtrk.toNat 11 10 with
  | 0 => let u : DieKey := ⟨back 1, k.die⟩; some (if s.ring.failedDies.contains u then ⟨u.pkg, u.die ^^^ 1⟩ else u)
  | 1 => some ⟨k.pkg, k.die ^^^ 1⟩
  | 2 => some ⟨back 2, k.die⟩
  | _ => none

/-- May an operand reach a physical address? -/
def reachOk (s : State) (r : Reach) (pa : Nat) : Bool :=
  let c := s.core
  match r with
  | .loc => c.localPlace pa
  | .code => c.localPlace pa || (paSpace pa == 3 && decide (codePA c.key ≤ pa ∧ pa < codePA c.key + 2 ^ 17))
  | .dsp => paSpace pa == 0 && paDieKey pa == c.key.dieKey
  | .away | .far => paSpace pa != 3
  | .pkgDsp => paSpace pa == 0 && paPkg pa == c.key.pkg
  | .upDie => paSpace pa == 0 && s.upDie c.key.dieKey == some (paDieKey pa)

/-- An operand of a transfer record: fault slot, use, reach, alignment, base and spans. -/
structure XOpnd where
  slot : Nat
  acc : Access
  reach : Reach
  align : Nat
  base : Nat
  spans : List Span

/-- Element i of an operand: its location (R316). -/
def xLoc (d : Desc) (b : Nat) (ix : Four Nat) : VLoc := packedLoc b d.base (stride d.s ix)
/-- The spans of an operand walked by the issues. -/
def xSpans (ws : RWords) (d : Desc) (b : Nat) : List Span := (rIssues ws).flatMap (fun ix => locSpan b (xLoc d b ix))
/-- An operand of elements of b bits. -/
def xOp (ws : RWords) (i : Fin 8) (slot : Nat) (a : Access) (r : Reach) (b : Nat) : XOpnd :=
  let d := rDesc ws i
  ⟨slot, a, r, unitOf b, d.base, xSpans ws d b⟩

/-- The source extent of a grid transfer (R321): indices 0 to E_d − 1 in every dimension. -/
def gridSpans (ws : RWords) (d : Desc) (b : Nat) : List Span :=
  let e := fun k => List.range (if rOp ws = 0x45 then 2 * rTrip ws k + 1 else rTrip ws k + 1)
  (e 3).flatMap (fun i3 => (e 2).flatMap (fun i2 => (e 1).flatMap (fun i1 => (e 0).flatMap (fun i0 =>
    locSpan b (xLoc d b ⟨i0, i1, i2, i3⟩)))))

/-- Bits of ST and of DT. -/
def xSB (ws : RWords) : Nat := match xST ws with | some t => xBits t | none => 32
def xDB (ws : RWords) : Nat := match xDT ws with | some t => xBits t | none => 32

/-- The status word of an XMLR (R329). -/
def xStatus (ws : RWords) : List XOpnd :=
  let v := (ws.get 7).toNat
  if v = 0 then [] else [⟨0, .write, .dsp, 8, v, [((v : Int), 8)]⟩]

/-- The operands of a record in the order D, A, B, word 7 (R297). -/
def transferOpnds (ws : RWords) : List XOpnd :=
  let b := 8 * xElem ws
  let table := fun (i : Fin 8) (slot : Nat) (a : Access) =>
    let d := rDesc ws i
    (⟨slot, a, .loc, xElem ws, d.base, [((d.base : Int), xLen ws i * xElem ws)]⟩ : XOpnd)
  match rOp ws with
  | 0x40 =>
    if rFlags ws % 2 = 1 then [⟨2, .read, .loc, 128, (rDesc ws 4).base, [(((rDesc ws 4).base : Int), 128)]⟩]
    else [xOp ws 2 1 .write .code b, xOp ws 4 2 .read .loc b]
  | 0x41 => [xOp ws 2 1 .write .loc (xDB ws), xOp ws 4 2 .read .loc (xSB ws)]
  | 0x42 => [xOp ws 2 1 .write .loc b]
  | 0x43 => [xOp ws 2 1 .write .loc b, table 4 2 .read, xOp ws 6 3 .read .loc 32]
  | 0x44 => [table 2 1 .write, xOp ws 4 2 .read .loc b, xOp ws 6 3 .read .loc 32]
  | 0x45 | 0x46 | 0x47 =>
    [xOp ws 2 1 (if xAdd ws then .update else .write) .loc (xDB ws)] ++ [⟨2, .read, .loc, unitOf (xSB ws), (rDesc ws 4).base, gridSpans ws (rDesc ws 4) (xSB ws)⟩]
  | 0x48 => if rFlags ws = 2 then [] else [xOp ws 2 1 .write .dsp (xDB ws), xOp ws 4 2 .read .dsp (xSB ws)]
  | 0x49 => [xOp ws 2 1 .write .upDie b, xOp ws 4 2 .read .loc b]
  | 0x4A => [xOp ws 2 1 .write .away b, xOp ws 4 2 .read .loc b]
  | 0x4B => [xOp ws 2 1 .write .loc b, xOp ws 4 2 .read .far b]
  | 0x4D => [⟨1, .write, .far, 8, (rDesc ws 2).base, [(((rDesc ws 2).base : Int), 8)]⟩]
  | 0x4C =>
    if rFlags ws % 2 = 1 then
      [⟨2, .read, .pkgDsp, 8, (rDesc ws 4).base, [(((rDesc ws 4).base : Int), 128)]⟩] ++ xStatus ws
    else if xRed ws = 0 then [xOp ws 2 1 .write .dsp 32, xOp ws 4 2 .read .dsp 16, xOp ws 6 3 .read .dsp 8].take 2 ++ xStatus ws
    else
      let block := fun (i : Fin 8) (slot n : Nat) (a : Access) =>
        let d := rDesc ws i
        (⟨slot, a, .dsp, 64, d.base, (rIssues ws).map (fun ix => ((d.base : Int) + stride d.s ix * n, n))⟩ : XOpnd)
      [block 2 1 192 .write, block 4 2 64 .read] ++ xStatus ws
  | _ => []

/-! ### Forwarding pairs (R327, R336) -/

/-- The physical pieces of n bytes from a virtual address on: chunk by chunk (start, length, offset). -/
def piecesOf (k : CoreKey) (ps : List Trans) (va n : Nat) : List (Nat × Nat × Nat) :=
  (chunksOf [((va : Int), n)]).map (fun x =>
    let len := min (x.1 * 4096 + 4096) (va + n) - x.2
    (pagePA k ps x.2, len, x.2 - va))

/-- Do two sets of pieces share a byte? -/
def piecesMeet (a b : List (Nat × Nat × Nat)) : Bool :=
  a.any (fun x => b.any (fun y => decide (x.1 < y.1 + y.2.1 ∧ y.1 < x.1 + x.2.1)))

/-- The pair that an XSLAB with FWD brings into force. -/
def slabPair (k : CoreKey) (asid : BitVec 16) (ps : List Trans) (ws : RWords) : FwdPair :=
  let rows := rTrip ws 1 + 1
  let a := (rDesc ws 4).base
  { oldVA := a, asid := asid, old := piecesOf k ps a (rows * slabOB ws), new := piecesOf k ps (rDesc ws 2).base (rows * slabNB ws)
    ob := slabOB ws, nb := slabNB ws, rows := rows, wm := 0, plain := xST ws == xDT ws, released := false, moved := false }

/-- The range checks of R336. -/
def slabRangesOk (s : State) (ps : List Trans) (ws : RWords) : Bool :=
  let p := slabPair s.core.key 0 ps ws
  !piecesMeet p.old p.new && s.ownDie.pairs.all (fun q =>
    !piecesMeet p.old q.old && !piecesMeet p.old q.new && !piecesMeet p.new q.old && !piecesMeet p.new q.new)

/-! ### The checks in order (R309) -/

/-- Does the record's data go through the snapshot and the merge log (R311)? -/
def xLogs (ws : RWords) : Bool := !([0x48, 0x49, 0x4C, 0x4D].contains (rOp ws))

/-- The translations of the operands. -/
def transferPages (s : State) : List XOpnd → List Trans → Chk (List Trans)
  | [], ps => .ok ps
  | o :: r, ps =>
    match translateChunks true (reachOk s o.reach) o.acc o.slot (chunksOf o.spans) s ps with
    | .error e => .error e
    | .ok ps => transferPages s r ps

/-- The group number of a collective must be one that the die's table holds (R329). -/
def groupHeld (s : State) (ws : RWords) : Bool :=
  !(rOp ws == 0x4C && rFlags ws % 2 == 0)
    || s.groups.any (fun g => g.grp == xGroup ws && g.installed.contains s.core.key.dieKey)

/-- Every check of a transfer record at its enqueue. -/
def transferCheck (ws : RWords) (s : State) : Chk Plan := do
  let c := s.core
  need (transferFormOk ws)
  need (groupHeld s ws)
  orFault (!(rOp ws == 0x4C && rFlags ws % 2 == 1 && !c.priv)) { code := 2 }
  barriersOn c ws
  let os := transferOpnds ws
  match os.find? (fun o => o.base % o.align != 0) with
  | some o => chkFault { code := 4, addr := o.base, slot := o.slot }
  | none => pure ()
  let ps ← transferPages s os []
  need (atReached s ws (readLead s ((os.filter (fun o => o.acc == .read)).flatMap (fun o => chunksOf o.spans))))
  if rOp ws == 0x48 && rFlags ws == 1 then need (slabRangesOk s ps ws)
  let pend ← destChecks s ps (xLogs ws) ((os.filter (fun o => o.acc != .read)).flatMap (fun o => o.spans))
  return ⟨c, ps, pend, 0, 0⟩

/-! ### Writes perform -/

/-- The physical byte at which a record's write to memory begins. -/
def QRec.homeOf (r : QRec) (k : CoreKey) : RPut → List Nat
  | .val _ b (.mem va _) _ => let pa := pagePA k r.pages (wrapN 64 va); (List.range (if b = 6 then 4 else b / 8)).map (pa + ·)
  | _ => []

/-- A write of a record performs (R271, R308): a value at its place, an entry, a stencil slot, or the watermark of a slab (R327). -/
def RPut.perform (r : QRec) (s : State) : RPut → State
  | .val logs b l v => writeLoc logs b r.pages v s l
  | .entry k op => { s with core := s.core.setAcc k (op.apply r (s.core.accAt k)) }
  | .slot n t => { s with core := { s.core with stencils := s.core.stencils.set n.val t } }
  | .rows n => s.withPair (rDesc r.words 4).base r.asid (fun p => { p with wm := n })

/-- The writes of one issue perform together: the words of code memory that they replace stay visible (R221), and a queue slot that they
cover is seen whole (R92). -/
def Put.perform (p : Put) (r : QRec) (s : State) : State :=
  let pas := p.ops.flatMap (r.homeOf s.core.key)
  ((p.ops.foldl (RPut.perform r) (s.keepCode pas)).freshSlots pas).syncLog

/-! ### Issues and their cycles (R307, R313) -/

/-- Elements in 64-byte beats of the destination: consecutive ones that lie in one (R313). -/
def beats (line : Four Nat → Nat) : List (Four Nat) → List (List (Four Nat))
  | [] => []
  | ix :: r =>
    match beats line r with
    | (x :: l) :: m => if line x = line ix then (ix :: x :: l) :: m else [ix] :: (x :: l) :: m
    | m => [ix] :: m

/-- The 64-byte line that an issue's destination lies in. -/
def destLine (ws : RWords) (b : Nat) (ix : Four Nat) : Nat :=
  match xLoc (rDesc ws 2) b ix with | .mem va _ => wrapN 64 va / 64 | _ => 0

/-- The issues of a record in order, each with its elements: 64-byte beats of the destination, which in a slab do not reach from one row
into the next; output points of a grid; elements of XSCAT, whose destinations its indices scatter. -/
def beatsOf (ws : RWords) : List (List (Four Nat)) :=
  match rOp ws with
  | 0x41 => beats (destLine ws (xDB ws)) (rIssues ws)
  | 0x48 => beats (fun ix => ix.x1 * 2 ^ 64 + destLine ws (xDB ws) ix) (rIssues ws)
  | 0x40 | 0x42 | 0x43 | 0x49 | 0x4A | 0x4B => beats (destLine ws (8 * xElem ws)) (rIssues ws)
  | _ => (rIssues ws).map ([·])

/-- The core cycles for which a record occupies the engine: one for each issue, or for each beat of an off-core record's requests. -/
def occupies (ws : RWords) : Nat :=
  match decodeRecord (ws.get 0).toNat with
  | some .xcopyTable | some .xmlrSetup => 2
  | some .xslabRelease => 0
  | some .xsig => 1
  | some .xmlr => if xRed ws = 0 then (issueCount ws + 31) / 32 else issueCount ws
  | _ => (beatsOf ws).length

/-- The first cycle in which the next record may start: behind the last issue of the ones before (R307). -/
def Core.engineFree (c : Core) : Nat := c.trun.foldl (fun m q => max m (if q.skips c then q.start else q.start + occupies q.words)) 0

/-- May the record at the head of the transfer queue start in this core cycle (R307, R314)? -/
def Core.startsNow (c : Core) (r : QRec) : Bool :=
  c.isOpen && r.gate.isSome && !c.behind r true && decide (r.due ≤ c.tau) && decide (c.engineFree ≤ c.tau)

/-- The elements of issue i. -/
def QRec.beat (r : QRec) (i : Nat) : List (Four Nat) := (beatsOf r.words).getD i []

/-- The latency of the memory that an on-core record reads (R313). -/
def QRec.readLat (r : QRec) (k : CoreKey) : Nat := r.latency k (rDesc r.words 4).base

/-- The writes of issue i of an on-core record, c cycles an issue, perform at start + Lr + 2 + c (i + 1) − 1 + Lw (R313). -/
def QRec.putBeat (r : QRec) (s : State) (logs : Bool) (lr c i : Nat) (l : List (VLoc × Nat × Nat)) (more : List RPut := []) : QRec :=
  let lag := longest (l.map (fun x => r.writeLag s logs x.1))
  r.put (lag.map (fun lw => r.start + lr + 2 + c * (i + 1) - 1 + lw)) (l.map (fun x => .val logs x.2.1 x.1 x.2.2) ++ more)

/-! ### Copies, conversions, fills (R318, R323) -/

/-- Read an element of b bits (any number of bytes). -/
def xRead (logs : Bool) (b : Nat) (ps : List Trans) (s : State) (l : VLoc) : Nat := readLoc logs b ps s l

/-- The element at issue indices of the source. -/
def QRec.source (r : QRec) (s : State) (ix : Four Nat) : Nat :=
  let b := 8 * xElem r.words
  xRead true b r.pages s (xLoc (rDesc r.words 4) b ix)

/-- Where the element at issue indices goes. -/
def QRec.dest (r : QRec) (ix : Four Nat) : VLoc := xLoc (rDesc r.words 2) (8 * xElem r.words) ix

/-- XCOPY: D(i) := A(i), beat by beat. -/
def xcopyIssue (r : QRec) (i : Nat) (s : State) : QRec :=
  r.putBeat s true (r.readLat s.core.key) 1 i ((r.beat i).map (fun ix => (r.dest ix, 8 * xElem r.words, r.source s ix)))

/-- XCVT: the flags are those of the conversions. -/
def xcvtIssue (r : QRec) (i : Nat) (s : State) : QRec :=
  let ws := r.words
  match xST ws, xDT ws with
  | some a, some b =>
    let vs := (r.beat i).map (fun ix =>
      (ix, convert a b (recMode (xMode ws) r.rm) (xSat ws) (xRead true (xBits a) r.pages s (xLoc (rDesc ws 4) (xBits a) ix))))
    ({ r with flags := vs.foldl (fun f v => f ||| v.2.2) r.flags } : QRec).putBeat s true (r.readLat s.core.key) 1 i
      (vs.map (fun v => (xLoc (rDesc ws 2) (xBits b) v.1, xBits b, v.2.1)))
  | _, _ => r

/-- XFILL: the fill value, zero-extended; it reads nothing. -/
def xfillIssue (r : QRec) (i : Nat) (s : State) : QRec :=
  let b := 8 * xElem r.words
  r.putBeat s true 0 1 i ((r.beat i).map (fun ix => (r.dest ix, b, (r.words.get 4).toNat % 2 ^ b)))

/-- The index of an issue (XGATH, XSCAT), when it lies in the table. -/
def xIndex (r : QRec) (len : Nat) (s : State) (ix : Four Nat) : Option Nat :=
  let i := sintOf 32 (xRead true 32 r.pages s (xLoc (rDesc r.words 6) 32 ix))
  if 0 ≤ i ∧ i < len then some i.toNat else none

/-- XGATH. -/
def xgathIssue (r : QRec) (i : Nat) (s : State) : QRec :=
  let ws := r.words
  let b := 8 * xElem ws
  r.putBeat s true (r.readLat s.core.key) 1 i ((r.beat i).map (fun ix => (r.dest ix, b,
    match xIndex r (xLen ws 4) s ix with
    | some k => xRead true b r.pages s (packedLoc b (rDesc ws 4).base k)
    | none => 0)))

/-- XSCAT. -/
def xscatIssue (r : QRec) (i : Nat) (s : State) : QRec :=
  let ws := r.words
  let b := 8 * xElem ws
  r.putBeat s true (r.readLat s.core.key) 1 i ((r.beat i).filterMap (fun ix =>
    (xIndex r (xLen ws 2) s ix).map (fun k => (packedLoc b (rDesc ws 2).base k, b, r.source s ix))))

/-! ### Stencil tables and grid transfers (R320 to R322) -/

/-- The slot's contents from an image of 128 bytes (Table 12.5); none where the image leaves the slot empty. -/
def stencilOf (bs : List Byte) : Option Stencil :=
  let byte := fun i => (bs.getD i 0).toNat
  let half := fun i => byte i + 256 * byte (i + 1)
  let quad := fun i => half i + 65536 * half (i + 2)
  let zero := fun (lo n : Nat) => (List.range n).all (fun i => byte (lo + i) == 0)
  let par := (List.range 8).map (fun i => quad (64 + 4 * i))
  if zero 54 2 && zero 59 5 && zero 96 32 && decide (byte 56 ≤ 63) && decide (byte 57 ≤ 3) && decide (1 ≤ byte 58 ∧ byte 58 ≤ 3)
      && par.all (fun p => decide (p < 2 ^ 27)) then
    some ⟨(List.range 27).map (fun i => BitVec.ofNat 16 (half (2 * i))), byte 56, byte 57, byte 58, par.map (BitVec.ofNat 32)⟩
  else none

/-- XCOPY with TBL (R320): the two beats of the image are read at the start, and the slot is written behind the second. -/
def tableIssue (r : QRec) (i : Nat) (s : State) : QRec :=
  let a := (rDesc r.words 4).base
  let bs := (List.range 128).map (fun i => BitVec.ofNat 8 (recRead true s r.pages ((a + i : Nat) : Int) 1))
  if i = 0 then r.put (some (r.start + r.readLat s.core.key + 3)) [.slot (Fin.ofNat 8 (rDesc r.words 2).base) (stencilOf bs)] else r

/-- The offset of a weight in dimension d (Table 12.5). -/
def weightOff (idx d : Nat) : Int := if d < 3 then (idx / 3 ^ d % 3 : Nat) - 1 else 0

/-- bound of R321 in one dimension of n points. -/
def boundDim (bmode : Nat) (x n : Int) : Option Int :=
  if 0 ≤ x ∧ x < n then some x
  else match bmode with
    | 0 => none
    | 1 => some (min (max x 0) (n - 1))
    | 2 => some (x % n)
    | _ => if n = 1 then some 0 else some (if x < 0 then -x else 2 * (n - 1) - x)

/-- The source index of a weight in dimension d at output point j (R321); none where the term is absent. -/
def gridDim (op : Nat) (t : Stencil) (idx d j trip : Nat) : Option Int :=
  let N : Int := (trip + 1 : Nat)
  let δ := weightOff idx d
  if t.dims ≤ d then some j
  else match op with
    | 0x45 => boundDim t.bmode (2 * (j : Int) + δ) (2 * N - 1)
    | 0x47 => boundDim t.bmode (j + δ) N
    | _ => if ((j : Int) - δ) % 2 ≠ 0 then none else boundDim t.bmode (((j : Int) - δ) / 2) ((N + 1) / 2)

/-- Is the weight used at output point j: nonzero, no offset outside the grid dimensions, allowed by PAR (R321)? -/
def weightUsed (op : Nat) (t : Stencil) (idx : Nat) (ix : Four Nat) : Bool :=
  (t.w.getD idx 0) != 0 && [0, 1, 2].all (fun d => decide (d < t.dims) || weightOff idx d == 0)
    && (op != 0x46 ||
      (t.par.getD (((List.range t.dims).map (fun d => ix.at d % 2 * 2 ^ d)).foldl (· + ·) 0) 0).getLsbD idx)

/-- The terms of an output point: weight and source value, in idx order. -/
def gridTerms (ws : RWords) (t : Stencil) (src : Four Int → Num) (ix : Four Nat) : List (Int × Num) :=
  (List.range 27).filterMap (fun idx =>
    if weightUsed (rOp ws) t idx ix then
      let g := fun d => gridDim (rOp ws) t idx d (ix.at d) (rTrip ws d)
      match g 0, g 1, g 2 with
      | some a, some b, some c => some ((t.w.getD idx 0).toInt, src ⟨a, b, c, ix.x3⟩)
      | _, _, _ => none
    else none)

/-- The result of an output point (R321, R322): terms with their weights, the denominator 2^shift. -/
def gridResult (dt : FFmt) (mode : Rm) (sat : Bool) (shift : Nat) (ts : List (Int × Num)) : Nat × Flags :=
  match firstNaN dt (ts.map (·.2)) with
  | some n => (n, Flags.none)
  | none =>
    let infs := ts.filterMap (fun t => match t.2 with | .inf neg => some (neg != decide (t.1 < 0)) | _ => none)
    if infs.contains true && infs.contains false then invalid dt
    else match infs with
      | neg :: _ => infResult dt neg
      | [] =>
        let (v, q, st) := alignWindow (ts.map (fun t => let x := t.2.term; (t.1 * x.1, x.2))) 192
        if v = 0 && !st then (dt.withSign (mode == .rdn) 0, Flags.none) else roundInt dt mode sat v (q - shift) st

/-- Core cycles that an output point takes: the nonzero weights by nines, for XPROL those of its largest parity class (R313). -/
def Stencil.pace (t : Stencil) (op : Nat) : Nat :=
  let used := fun (allowed : Nat → Bool) => ((List.range 27).filter (fun i => t.w.getD i 0 != 0 && allowed i)).length
  let n := if op = 0x46 then ((List.range 8).map (fun p => used (fun i => (t.par.getD p 0).getLsbD i))).foldl max 0 else used (fun _ => true)
  max 1 ((n + 8) / 9)

/-- XRESTR, XPROL, XSTEN, with the slot as it was at the start: an empty slot, or an odd T_d of an XPROL, writes nothing and sets NV (R312,
R321). -/
def gridIssue (r : QRec) (i : Nat) (s : State) : QRec :=
  let ws := r.words
  match r.sten, xST ws, xDT ws with
  | some t, some a, some b =>
    if rOp ws = 0x46 ∧ (List.range t.dims).any (fun d => rTrip ws d % 2 == 1) then { r with flags := r.flags ||| Flags.nv }
    else
      let D := rDesc ws 2
      let A := rDesc ws 4
      let src := fun (p : Four Int) =>
        a.val (xRead true (xBits a) r.pages s (packedLoc (xBits a) A.base (p.x0 * A.s.x0 + p.x1 * A.s.x1 + p.x2 * A.s.x2 + p.x3 * A.s.x3)))
      let vs := (r.beat i).map (fun ix =>
        let add : List (Int × Num) :=
          if xAdd ws then [((2 ^ t.shift : Nat), b.val (xRead true (xBits b) r.pages s (xLoc D (xBits b) ix)))] else []
        (ix, gridResult b.ffmt (recMode (xMode ws) r.rm) (xSat ws) t.shift (gridTerms ws t src ix ++ add)))
      ({ r with flags := vs.foldl (fun f v => f ||| v.2.2) r.flags } : QRec).putBeat s true (r.readLat s.core.key) (t.pace (rOp ws)) i
        (vs.map (fun v => (xLoc D (xBits b) v.1, xBits b, v.2.1)))
  | _, _, _ => { r with flags := r.flags ||| Flags.nv }

/-! ### Start (R307) -/

/-- A collective whose guard reads false contributes nothing, and the switch is told so: its number is past (R201, R329). -/
def State.skipCollective (r : QRec) (s : State) : State :=
  if rOp r.words = 0x4C ∧ rFlags r.words % 2 = 0 then
    let k := s.core.key
    let c : Contrib := { die := k.dieKey, num := r.origin, core := k, record := r.number, tick := s.tick, off := true }
    let skip := fun (g : XGroup) => if g.grp ≠ xGroup r.words then g
      else if s.fabricUp k.pkg then { g with contrib := g.contrib ++ [c] }
      else { g with taken := aput g.taken k.dieKey (max (r.origin + 1) ((aget g.taken k.dieKey).getD 0)) }
    { s with groups := s.groups.map skip }
  else s

/-- Is the record one that the engine runs alone (R307)? -/
def onCore (ws : RWords) : Bool := decide (rOp ws ≤ 0x48)

/-- The head of the transfer queue starts, where it is of the kind named: it moves to the running records as `f` leaves it. One whose guard
read false does nothing (R201); in fixed mode the cycles of an on-core record pass all the same (R314, entry 111). -/
def startTransfer (i : Instr) (f : QRec → State → Option (State × QRec)) (s : State) : Out State :=
  match s.core.tq with
  | [] => idle s
  | r :: rest =>
    if r.isA i && s.core.startsNow r then
      let c := s.core
      let s := { s with core := { c with tq := rest } }
      let r := { r with start := c.tau, seen := c.tau }
      let go := if r.off then some (s.skipCollective r, { r with done := !(c.fixed && onCore r.words) }) else f r s
      match go with
      | some (t, r') => ok { t with core := { t.core with trun := t.core.trun ++ [r'] } }
      | none => idle { s with core := c }
    else idle s

/-- What an issue reads: the spans of its elements in the source, for the soft errors that it meets. -/
def QRec.sourceSpans (r : QRec) (i : Nat) : List Span :=
  let ws := r.words
  let all := fun (_ : Unit) => ((transferOpnds ws).filter (fun o => o.acc != .write)).flatMap (·.spans)
  match rOp ws with
  | 0x42 => []
  | 0x41 | 0x48 => (r.beat i).flatMap (fun ix => locSpan (xSB ws) (xLoc (rDesc ws 4) (xSB ws) ix))
  | 0x40 | 0x49 | 0x4A | 0x4B => if rOp ws = 0x40 ∧ rFlags ws % 2 = 1 then all () else (r.beat i).flatMap (fun ix => locSpan (8 * xElem ws) (xLoc (rDesc ws 4) (8 * xElem ws) ix))
  | _ => if i = 0 then all () else []

/-- A running on-core record in this core cycle: its issue reads, and its writes are to perform. With a false guard nothing is read or
written, and the cycles pass to that of the last write. -/
def transferCycle (body : QRec → Nat → State → QRec) (r : QRec) (s : State) : State :=
  let u := s.core.tau
  let i := u - r.start
  let n := occupies r.words
  let done := decide (r.start + n ≤ u + 1)
  let r1 := if r.off then
      let blank := body { r with puts := [] } i s
      { r with puts := if done then blank.puts.map (fun p => { p with ops := [] }) else [] }
    else body r i s
  let r2 := { r1 with seen := u + 1, done := done }
  let s := if r.off then s else s.recordRead 3 r.pages (r.sourceSpans i)
  { s with core := { s.core with trun := s.core.trun.map (fun q => if q.number = r.number then r2 else q) } }

/-- An on-core record of the kind named does what this core cycle has for it: a running one makes its issue, or the head of the queue starts
(R307, R313, R314). -/
def stepTransfer (i : Instr) (body : QRec → Nat → State → QRec) (s : State) : Out State :=
  let c := s.core
  match (if c.isOpen then c.trun.find? (fun r => r.isA i && c.dueNow r) else none) with
  | some r => ok (transferCycle body r s)
  | none => startTransfer i (fun r s => some (s, { r with sten := s.core.stencils.get (xSlot r.words) })) s

/-- XCOPY (R318). -/
def execXcopy (s : State) : Out State := stepTransfer .xcopy xcopyIssue s
/-- XCOPY with TBL. -/
def execXcopyTable (s : State) : Out State := stepTransfer .xcopyTable tableIssue s
/-- XCVT. -/
def execXcvt (s : State) : Out State := stepTransfer .xcvt xcvtIssue s
/-- XFILL. -/
def execXfill (s : State) : Out State := stepTransfer .xfill xfillIssue s
/-- XGATH. -/
def execXgath (s : State) : Out State := stepTransfer .xgath xgathIssue s
/-- XSCAT. -/
def execXscat (s : State) : Out State := stepTransfer .xscat xscatIssue s
/-- XRESTR (R321). -/
def execXrestr (s : State) : Out State := stepTransfer .xrestr gridIssue s
/-- XPROL. -/
def execXprol (s : State) : Out State := stepTransfer .xprol gridIssue s
/-- XSTEN. -/
def execXsten (s : State) : Out State := stepTransfer .xsten gridIssue s

/-! ### XPUT and XGET (R323), whose reads and writes have no fixed points (R314) -/

/-- A beat of a running record moves: its elements are read and written. -/
def moveBeat (r : QRec) (s : State) : State :=
  let b := 8 * xElem r.words
  let p : Put := ⟨none, (r.beat r.row).map (fun ix => .val true b (r.dest ix) (r.source s ix))⟩
  let t := p.perform r (s.recordRead 3 r.pages (r.sourceSpans r.row))
  let r' := { r with row := r.row + 1, done := decide (occupies r.words ≤ r.row + 1) }
  { t with core := { t.core with trun := t.core.trun.map (fun q => if q.number = r.number then r' else q) } }

/-- XPUT or XGET: the head of the queue starts; or the next beat of a running record moves, not before the engine has made its request, one
a core cycle (R307; entry 11). -/
def stepRemote (i : Instr) (s : State) : Out State :=
  let c := s.core
  match c.tq.head? with
  | some h => if h.isA i && c.startsNow h then startTransfer i (fun r s => some (s, r)) s else move c
  | none => move c
where move (c : Core) : Out State :=
  match c.trun.find? (fun r => r.isA i && !r.done && decide (r.start + r.row ≤ c.tau)) with
  | some r => ok (moveBeat r s)
  | none => idle s

/-- XPUT (R323). -/
def execXput (s : State) : Out State := stepRemote .xput s
/-- XGET (R323). -/
def execXget (s : State) : Out State := stepRemote .xget s

/-! ### Slab relocation (R326, R327) -/

/-- An issue of XSLAB: elements of a row, and behind the row's last with FWD the watermark (R327). Its data passes beside the merge log
(R311). -/
def xslabIssue (r : QRec) (i : Nat) (s : State) : QRec :=
  let ws := r.words
  match xST ws, xDT ws with
  | some a, some b =>
    let row := fun (l : List (Four Nat)) => l.head?.map (·.x1)
    let vs := (r.beat i).map (fun ix =>
      (ix, convert a b (recMode (xMode ws) r.rm) (xSat ws) (xRead false (xBits a) r.pages s (xLoc (rDesc ws 4) (xBits a) ix))))
    let last := row (r.beat i) != row (r.beat (i + 1))
    ({ r with flags := vs.foldl (fun f v => f ||| v.2.2) r.flags } : QRec).putBeat s false (r.readLat s.core.key) 1 i
      (vs.map (fun v => (xLoc (rDesc ws 2) (xBits b) v.1, xBits b, v.2.1)))
      (if rFlags ws % 2 = 1 && last then [.rows ((row (r.beat i)).getD 0 + 1)] else [])
  | _, _ => r

/-- Does one of the die's 64 pairs stand free for an XSLAB with FWD, and no pair hold its old slab (R327)? -/
def State.pairFree (s : State) (r : QRec) : Bool :=
  rFlags r.words % 2 == 0 || (decide (s.ownDie.pairs.length < 64) && !s.ownDie.pairs.any (fun p => p.oldVA == (rDesc r.words 4).base))

/-- XSLAB (R326): with FWD it takes one of the die's 64 pairs at its start; then it copies its rows in order. -/
def execXslab (s : State) : Out State :=
  let c := s.core
  match (if c.isOpen then c.trun.find? (fun r => r.isA .xslab && c.dueNow r) else none) with
  | some r => ok (transferCycle xslabIssue r s)
  | none =>
    startTransfer .xslab (fun r s =>
      if !s.pairFree r then none
      else if rFlags r.words % 2 = 1 then
        let d := s.ownDie
        some (s.setDie { d with pairs := d.pairs ++ [slabPair s.core.key r.asid r.pages r.words] }, r)
      else some (s, r)) s

/-- XSLAB with RELEASE (R327, R341): copies nothing; the pair is released when the record retires. -/
def execXslabRelease (s : State) : Out State := startTransfer .xslabRelease (fun r s => some (s, { r with done := true })) s

/-! ### XSIG (R325) -/

/-- Send the update of a running XSIG. -/
def sendXsig (r : QRec) (s : State) : State :=
  let ws := r.words
  let pa := pagePA s.core.key r.pages (rDesc ws 2).base
  s.sendSig (sigSource s.core.key 1) pa (rFlags ws % 2 == 1) (ws.get 4) none (some (s.core.key, r.number)) none

/-- XSIG: its update is sent once, with REL after every earlier record of the queue has retired. -/
def execXsig (s : State) : Out State :=
  let mayGo := fun (r : QRec) (s : State) =>
    (rFlags r.words / 2 % 2 == 0 || !s.core.trun.any (fun q => decide (q.number < r.number)))
      && s.sigRoom (sigSource s.core.key 1) (pagePA s.core.key r.pages (rDesc r.words 2).base)
  match (if s.core.isOpen then s.core.trun.find? (fun r => !r.done && r.isA .xsig && mayGo r s) else none) with
  | some r =>
    let t := sendXsig r s
    .next { t with core := { t.core with trun := t.core.trun.map (fun q => if q.number = r.number then { q with done := true } else q) } }
  | none => startTransfer .xsig (fun r s => some (s, r)) s

/-! ### XTMARK (R300) -/

/-- XTMARK: a marker at the head of the queue retires at once. -/
def execXtmark (s : State) : Out State :=
  match s.core.tq with
  | r :: rest =>
    if rOp r.words = 0x4E && s.core.isOpen && decide (s.core.engineFree ≤ s.core.tau) then ok { s with core := { s.core with tq := rest } } else idle s
  | [] => idle s

end Sys2Proof.Machine
end

