-- ==== Sys2Proof/Machine/Enqueue.lean ====
section
/-! DEFINITION. ENQ and ENQR (R214, R215), the retirement of records (R271, R308), TMARK (R300). -/

namespace Sys2Proof.Machine

/-! ### ENQ, ENQR -/

/-- The number that a collective takes in its group on its die (R329), counted there. -/
def State.numberCollective (s : State) (ws : RWords) : State × Nat :=
  if rOp ws = 0x4C ∧ rFlags ws % 2 = 0 then
    let d := s.core.key.dieKey
    match s.groups.find? (fun g => g.grp = xGroup ws) with
    | some g =>
      let n := (aget g.counts d).getD 0
      ({ s with groups := s.groups.map (fun x => if x.grp = xGroup ws then { x with counts := aput x.counts d (n + 1) } else x) }, n)
    | none => (s, 0)
  else (s, 0)

/-- Is an update of this core's sequencer that names the engine still on its way? A record enqueued after it starts after it
(R362, R364). With `soon`, only one whose perform point is still to come. -/
def State.updateAhead (s : State) (product soon : Bool) : Bool :=
  s.sigs.any (fun m => !m.applied && (if product then obsP m.obs else obsX m.obs)
    && (!soon || (match m.at_ with | some t => decide (s.core.tau ≤ t) | none => false))
    && (match m.ord with | some o => o.1 == s.core.key | none => false))

/-- The records of an engine's queue that have not started (R443). -/
def Core.queued (c : Core) (product : Bool) : Nat :=
  if product then c.pq.length + (c.prun.filter (fun r => decide (c.tau < r.start))).length else c.tq.length

/-- ENQ from step 2 on (R214): the wait for an entry, the checks, the captures. A fault changes nothing. `keep` is what the word
leaves where it waits; the sequencer is held for `held` core cycles (Table 8.1). -/
def enqueue (keep : State → State) (held : Nat) (ws : RWords) (s : State) : Out State :=
  let c := s.core
  let op := rOp ws
  let product := decide (0x10 ≤ op ∧ op ≤ 0x2F)
  if !product && !decide (0x40 ≤ op ∧ op ≤ 0x6F) then raise { code := 13, detail := op } s
  else if 16 ≤ c.queued product then stay (keep s)
  else if s.updateAhead product false then (if s.updateAhead product true then ok (keep s) else stay (keep s))
  else
    match (if product then productCheck ws s else transferCheck ws s) with
    | .error .delay => stay (keep s)
    | .error .wait => ok (keep s)
    | .error (.fault f) =>
      raise { f with
        engine := if product then 2 else 3, qidx := if product then c.pent else c.tent
        detail := if f.code = 13 then op else f.detail } s
    | .ok p =>
      let x := s.numberCollective ws
      .next { x.1 with core := ((enterQueue ws product { p with extra := x.2 }).retire).nextIn held }

/-- HANDLER_ENGINE for ENQ and ENQR in a fixed-mode handler (R401). -/
def enqGuard (m : State → Out State) (s : State) : Out State :=
  if s.core.priv && s.core.fixed then raise { code := 30 } s else m s

/-- The word keeps the record that it has read, while it waits. -/
def State.keepRecord (ws : RWords) (s : State) : State := { s with core := { s.core with wait := some (.record ws) } }

/-- ENQ (R214): the record is read once, as a class-0 load, when the sequencer's own stores to it have performed. It is enqueued in the core
cycle of its issue, and the sequencer then held (Table 8.1, entry 113). -/
def execEnq (a : GReg) (s : State) : Out State :=
  enqGuard (fun s =>
    let va := (s.core.rd a).toNat
    match s.core.wait with
    | some (.record ws) => enqueue (State.keepRecord ws) 4 ws s
    | _ =>
      if va % 64 ≠ 0 then alignFault va 5 0 s
      else
        match translate seqReach .read va s with
        | .error n => transFault va n 5 0 s
        | .ok (pa, t) =>
          if s.core.storePending pa 64 || s.readBlocked 0 s.core.num pa 64 then waitOwn allClasses (fun _ => true) s
          else unlessSpoiled pa 64 (fun s =>
            let ws : RWords := Vector.ofFn (fun i => BitVec.ofNat 64 (s.taskNum (pa + 8 * i.val) 8))
            enqueue (State.keepRecord ws) (4 + nominal s.core.key pa) ws (s.hold t)) s) s

/-- ENQR (R215): the record stands in eight registers from g8, g16 or g24 on, which nothing changes while it waits. -/
def execEnqr (base : Fin 3) (s : State) : Out State :=
  enqGuard (fun s => enqueue id 2 (Vector.ofFn (fun i => s.core.rd (Fin.ofNat 33 (8 * (base.val + 1) + i.val)))) s) s

/-! ### Retirement of records -/

/-- What the retirement of a record signals (R201, R271, R308): its token, its barrier, its flags. -/
def Core.signalRecord (c : Core) (product : Bool) (r : QRec) : Core :=
  let ws := r.words
  let c := if rTv ws then c.setTok (rStok ws) (fun t => { t with ret := t.ret + 1 }) else c
  let c := if rSbar ws = 0 then c else c.setBarrier (rSbar ws - 1) (fun b => ({ b with pc := b.pc - 1 } : Barrier).arrive)
  c.orFlags (if product then 2 else 3) r.flags

/-- The projections of a resolving record's entries, taken from the entries as they stand (R267). -/
def Core.resolve (c : Core) (r : QRec) : Core :=
  if resolving r.words then
    c.project ((namedKeys r.words).eraseDups.map (fun k => let e := c.accAt k; (k, ⟨e.tag, e.exp, e.head⟩)))
  else c

/-- The retirement of a relocation or of a release (R341). -/
def State.retireSlab (s : State) (r : QRec) : State :=
  if rOp r.words = 0x48 ∧ rFlags r.words ≠ 0 then
    s.withPair (rDesc r.words 4).base r.asid (fun p => if rFlags r.words = 2 then { p with released := true } else { p with moved := true })
  else s

/-- May the record retire: its last write has performed, an XSIG's update has been applied? -/
def State.recordDone (s : State) (r : QRec) : Bool :=
  r.done && r.puts.isEmpty && !s.sigs.any (fun m => m.owner == some (s.core.key, r.number) && !m.applied)

/-- A record of the product engine, or of the transfer engine, retires. An XSLAB whose guard slot read false releases and moves nothing
(R201). -/
def State.retireRecord (s : State) (xfer : Bool) (r : QRec) : State :=
  let s := if xfer && !r.off then s.retireSlab r else s
  let c := s.core
  let c := if xfer then { c with trun := c.trun.filter (fun q => q.number ≠ r.number) }
    else { c with prun := c.prun.filter (fun q => q.number ≠ r.number) }
  let c := if xfer then c else c.resolve r
  ({ s with core := c.signalRecord (!xfer) r } : State).settlePin

/-- RECORD_RETIRE: record `place.n` of those running retires (R271, R308). -/
def execRecordRetire (xfer : Bool) (s : State) : Out State :=
  match (if xfer then s.core.trun else s.core.prun)[s.place.n]? with
  | none => idle s
  | some r => if s.recordDone r then ok (s.retireRecord xfer r) else idle s

/-! ### TMARK (R300) -/

/-- The cores in the scope of a TMARK that hold anything: 0 this core, 1 the die, 2 the package. -/
def State.scopeCores (s : State) (scope : Nat) : List CoreKey :=
  (s.allCores.map (·.key)).eraseDups.filter (fun k => match scope with
    | 0 => k == s.core.key
    | 1 => k.dieKey == s.core.key.dieKey
    | _ => k.pkg == s.core.key.pkg)

/-- Does a translation fall in the range: 0 the page of an address of an ASID, 1 an ASID, 2 all? -/
def inRange (range : Nat) (asid : BitVec 16) (va : Nat) (t : Trans) : Bool :=
  match range with
  | 0 => t.asid == asid && t.inPage va
  | 1 => t.asid == asid
  | _ => true

/-- A marker record. -/
def markerRecord (c : Core) : QRec :=
  { ent := c.tent, words := Vector.ofFn (fun i => if i.val = 0 then 0x4E00000000000000 else 0), rm := .rne, gwcfg := 0, waitPh := none
    waitTok := [], waitSt := [], pages := [], asid := 0, origin := 0, number := c.num, due := 0, lead := 0, marker := some c.num, gate := none
    start := 0, seen := 0, tiles := [], work := [], puts := [], sten := none, done := false, row := 0, flags := 0, pend := [], off := false, data := [] }

/-- TMARK at one core: translations in the range are discarded and a marker enters the transfer queue. -/
def markCore (range : Nat) (asid : BitVec 16) (va : Nat) (c : Core) : Core :=
  { c with
    held := c.held.filter (fun t => !inRange range asid va t)
    tq := c.tq ++ [markerRecord c], tent := (c.tent + 1) % 16, num := c.num + 1 }

/-- Does a record, or an access, made before number n still hold a translation in the range (R299)? -/
def holdsOld (range : Nat) (asid : BitVec 16) (va n : Nat) (c : Core) : Bool :=
  let old := fun (k : Nat) (ts : List Trans) => decide (k < n) && ts.any (inRange range asid va)
  (c.pq ++ c.prun ++ c.tq ++ c.trun).any (fun r => old r.number r.pages) || c.stores.any (fun p => old p.num p.trans)
    || c.loads.any (fun l => old l.num l.trans) || (match c.wait with | some (.signal _ _ k t _) => old k [t] | _ => false)

/-- Does an update of core k's sequencer, made before number n and not yet performed, hold such a translation (R299)? -/
def State.sigHoldsOld (s : State) (range : Nat) (asid : BitVec 16) (va : Nat) (k : CoreKey) (n : Nat) : Bool :=
  s.sigs.any (fun m => !m.applied && m.trans.any (inRange range asid va)
    && (match m.ord with | some o => o.1 == k && decide (o.2.2 < n) | none => false))

/-- TMARK: its own stores perform first; then every core in scope is marked, and from the next core cycle on it waits until none holds an
old translation. -/
def execTmark (a b : GReg) (range scope : Fin 3) (s : State) : Out State :=
  privileged (fun s =>
    let asid := (s.core.rd b).truncate 16
    let va := (s.core.rd a).toNat
    let ks := s.scopeCores scope.val
    match s.core.wait with
    | some (.marks l) =>
      let busy := l.any (fun e => holdsOld range.val asid va e.2 (s.getCore e.1) || s.sigHoldsOld range.val asid va e.1 e.2)
      if busy then stay s else ok s.retire
    | _ =>
      if !s.core.stores.isEmpty then waitOwn allClasses (fun _ => true) s
      else if ks.any (fun k => decide (16 ≤ (s.getCore k).tq.length)) then stay s
      else
        let l := ks.map (fun k => (k, (s.getCore k).num))
        let t := ks.foldl (fun s k => s.setCore (markCore range.val asid va (s.getCore k))) s
        ok { t with core := { t.core with wait := some (.marks l) } }) s

end Sys2Proof.Machine
end

