-- ==== Sys2Proof/Machine/Reduce.lean ====
section
/-! DEFINITION. Multicast load-and-reduce (R328 to R332): the set-up of a group, a collective, its timeouts. -/

namespace Sys2Proof.Machine

/-! ### Group set-up (R328) -/

/-- The fields of a group descriptor (Table 12.7). -/
def grpTmo (d : Nat → Nat) : Nat := bits (d 0) 47 16
def grpN (d : Nat → Nat) : Nat := bits (d 0) 12 8 + 1
def grpMember (d : Nat → Nat) (i : Nat) : Nat := bits (d (8 + i / 4)) (16 * (i % 4) + 15) (16 * (i % 4))
def grpMembers (d : Nat → Nat) : List DieKey := (List.range (grpN d)).map (fun i => let m := grpMember d i; ⟨bits m 9 3, bits m 2 0⟩)

/-- The descriptor's own fields are in order: reserved fields zero, counts in range, the group number that of the record. -/
def grpFieldsOk (d : Nat → Nat) (group : Nat) : Bool :=
  bits (d 0) 63 48 == 0 && bits (d 0) 15 13 == 0 && bits (d 0) 7 6 == 0 && decide (1 ≤ grpTmo d) && decide (2 ≤ grpN d)
    && bits (d 0) 5 0 == group && (List.range 7).all (fun i => d (i + 1) == 0)
    && (List.range 32).all (fun i => if i < grpN d then bits (grpMember d i) 15 10 == 0 else grpMember d i == 0)

/-- The lowest rank whose member is a duplicate, absent from the pod or unreachable. -/
def badRank (s : State) (ms : List DieKey) : Option Nat :=
  (List.range ms.length).find? (fun i => match ms[i]? with
    | some m => decide (2 ≤ ms.count m) || !s.present m.pkg || !s.fabricUp m.pkg
    | none => false)

/-- A status word (Table 12.8). -/
def statusWord (code rank : Nat) : Word := BitVec.ofNat 64 (code + rank % 256 * 2 ^ 16)

/-- A record writes its status, when it names a place for it (R329), directly (R311). -/
def writeStatus (k : CoreKey) (r : QRec) (code rank : Nat) (s : State) : State :=
  let v := (r.words.get 7).toNat
  if v = 0 then s else s.writeDirect k (pagePA k r.pages v) (toBytes 8 (statusWord code rank).toNat)

/-- Change running transfer record n of core k. -/
def State.updRun (s : State) (k : CoreKey) (n : Nat) (f : QRec → QRec) : State :=
  let c := s.getCore k
  s.setCore { c with trun := c.trun.map (fun r => if r.number = n then f r else r) }

/-- The end of a running record with its status. -/
def finishRecord (k : CoreKey) (r : QRec) (code rank : Nat) (s : State) : State :=
  (writeStatus k r code rank s).updRun k r.number (fun q => { q with done := true })

/-- The sixteen words of the descriptor, as a set-up reads them at its start. -/
def readDesc (s : State) (r : QRec) : List Word :=
  (List.range 16).map (fun i => BitVec.ofNat 64 (recRead false s r.pages (((rDesc r.words 4).base + 8 * i : Nat) : Int) 8))
/-- The descriptor that a set-up has read. -/
def setupDesc (r : QRec) : Nat → Nat := fun i => (r.data.getD i 0).toNat

/-- Is it a collective of a group? -/
def QRec.isCollective (r : QRec) (group : Nat) : Bool := r.isA .xmlr && xGroup r.words == group

/-- Has a started collective of a group not yet retired on some core? -/
def State.groupBusy (s : State) (group : Nat) : Bool := s.allCores.any (fun c => c.trun.any (·.isCollective group))

/-- The numbers of a group's collectives that a die's cores hold in their queues. -/
def State.queuedNumbers (s : State) (group : Nat) (k : DieKey) : List Nat :=
  s.allCores.flatMap (fun c => if c.key.dieKey = k then (c.tq.filter (·.isCollective group)).map (·.origin) else [])

/-- A group is installed on its member dies and in the switch. The collectives that its members have queued are numbered afresh, in
enqueue order (R328, R329). -/
def State.install (s : State) (g : XGroup) : State :=
  let rank := fun (k : DieKey) (n : Nat) => ((s.queuedNumbers g.grp k).filter (fun m => decide (m < n))).length
  let fresh := fun (c : Core) => { c with tq := c.tq.map (fun r => if r.isCollective g.grp then { r with origin := rank c.key.dieKey r.origin } else r) }
  { s with
    core := fresh s.core
    parked := s.parked.map (fun e => (e.1, fresh e.2))
    groups := { g with counts := g.members.map (fun k => (k, (s.queuedNumbers g.grp k).length)) } :: s.groups.filter (fun x => x.grp ≠ g.grp) }

/-- XMLR with SETUP: at its start it reads and checks the descriptor; then it installs the group on every member die and in the switch
once the earlier group's started collectives have retired, every member being within reach. `row` holds the tick of its start. -/
def execXmlrSetup (s : State) : Out State :=
  match s.core.trun.find? (fun r => !r.done && r.isA .xmlrSetup) with
  | some r =>
    let d := setupDesc r
    let g := xGroup r.words
    if s.groupBusy g || (badRank s (grpMembers d)).isSome then idle s
    else
      let new : XGroup := { grp := g, members := grpMembers d, tmo := grpTmo d, installed := grpMembers d, contrib := [], counts := [], taken := [] }
      .next (finishRecord s.core.key r 0 0 (s.install new))
  | none =>
    startTransfer .xmlrSetup (fun r s =>
      let r := { r with row := s.tick, data := readDesc s r }
      let s := s.recordRead 3 r.pages (r.sourceSpans 0)
      let d := setupDesc r
      let fail := fun rank => some (writeStatus s.core.key r 4 rank s, { r with done := true })
      if !grpFieldsOk d (xGroup r.words) then fail 0
      else match badRank s (grpMembers d) with
        | some n => fail n
        | none => some (s, r)) s

/-- XMLR_SETUP_TIMEOUT: a set-up that has waited TMO × 1,024 ticks fails; no member keeps the new group. -/
def execXmlrSetupTimeout (s : State) : Out State :=
  match s.core.trun.find? (fun r => !r.done && r.isA .xmlrSetup
      && decide (r.row + grpTmo (setupDesc r) * 1024 ≤ s.tick)) with
  | some r =>
    let ms := grpMembers (setupDesc r)
    let late := fun (m : DieKey) => !s.fabricUp m.pkg
      || s.allCores.any (fun c => c.key.dieKey == m && c.trun.any (·.isCollective (xGroup r.words)))
    .next (finishRecord s.core.key r 4 ((List.range ms.length).find? (fun i => (ms[i]?.map late).getD false) |>.getD 0) s)
  | none => idle s

/-! ### Collectives (R329 to R332) -/

/-- XMLR: its contribution goes to the switch; a member whose package cannot reach the switch sends none. `row` holds the
tick of its start. -/
def execXmlr (s : State) : Out State :=
  startTransfer .xmlr (fun r s =>
    let k := s.core.key
    let c : Contrib := { die := k.dieKey, num := r.origin, core := k, record := r.number, tick := s.tick, off := false }
    let add := fun (g : XGroup) => if g.grp = xGroup r.words then { g with contrib := g.contrib ++ [c] } else g
    let s := s.recordRead 3 r.pages (r.sourceSpans 0)
    some ((if s.fabricUp k.pkg then { s with groups := s.groups.map add } else s), { r with row := s.tick })) s

/-- The contribution of a member to the switch's next collective: its next record in number. -/
def XGroup.next (g : XGroup) (m : DieKey) : Option Contrib :=
  let n := (aget g.taken m).getD 0
  g.contrib.find? (fun c => c.die == m && c.num == n)

/-- The running record of a contribution. -/
def Contrib.rec? (c : Contrib) (s : State) : Option QRec := (s.getCore c.core).trun.find? (fun r => r.number = c.record)

/-- The switch is past the contributions used; each member's count follows. -/
def XGroup.consume (g : XGroup) (l : List Contrib) : XGroup :=
  { g with
    contrib := g.contrib.filter (fun c => !l.contains c)
    taken := l.foldl (fun t c => aput t c.die (c.num + 1)) g.taken }

/-- Replace a group. -/
def State.setGroup (s : State) (g : XGroup) : State := { s with groups := s.groups.map (fun x => if x.grp = g.grp then g else x) }

/-- Write at a member's D, directly to memory. -/
def memberWrite (c : Contrib) (r : QRec) (va : Int) (bs : List Byte) (s : State) : State :=
  s.writeDirect c.core (pagePA c.core r.pages (wrapN 64 va)) bs
/-- Read at a member's A. -/
def memberRead (c : Contrib) (r : QRec) (va : Int) (n : Nat) (s : State) : Nat :=
  let pa := pagePA c.core r.pages (wrapN 64 va)
  ofBytes ((List.range n).map (fun i => s.readByte (pa + i)))

/-- RED 0 (R330): the sum over ranks in ascending order, in FP32 under RNE. -/
def reduceBf16 (xs : List Nat) : Nat × Flags :=
  match xs with
  | [] => (0, 0)
  | x :: r =>
    r.foldl (fun a y => let v := fpAdd .fp32 .rne false (FFmt.fp32.val a.1) (FFmt.bf16.val y); (v.1, a.2 ||| v.2))
      ((FFmt.bf16.val x).toFloat .fp32 .rne false)

/-- RED 1 (R331): the agreed code and the 32 sums of blocks given as byte lists. -/
def reduceBlocks (blocks : List (List Nat)) : Nat × List Int :=
  let top := blocks.foldl (fun m b => max m (b.getD 32 0)) 0
  (top, (List.range 32).map (fun k =>
    if top = 255 then 0
    else blocks.foldl (fun s b => s + sintOf 8 (b.getD k 0) * 2 ^ 16 / (2 ^ (top - b.getD 32 0) : Nat)) 0))

/-- The members' results for issue number i of each record. -/
def reduceIssue (red : Nat) (ms : List (Contrib × QRec)) (i : Nat) (x : State × Flags) : State × Flags :=
  let ix := fun (r : QRec) => ((rIssues r.words)[i]?).getD ⟨0, 0, 0, 0⟩
  let at_ := fun (d : Desc) (r : QRec) (n : Nat) => ((d.base : Int) + stride d.s (ix r) * n)
  if red = 0 then
    let v := reduceBf16 (ms.map (fun m => memberRead m.1 m.2 (at_ (rDesc m.2.words 4) m.2 2) 2 x.1))
    (ms.foldl (fun s m => memberWrite m.1 m.2 (at_ (rDesc m.2.words 2) m.2 4) (toBytes 4 v.1) s) x.1, x.2 ||| v.2)
  else
    let block := fun (m : Contrib × QRec) => (List.range 33).map (fun (j : Nat) => memberRead m.1 m.2 (at_ (rDesc m.2.words 4) m.2 64 + (j : Int)) 1 x.1)
    let v := reduceBlocks (ms.map block)
    let bs := v.2.flatMap (fun s => toBytes 4 (wrapN 32 s)) ++ [BitVec.ofNat 8 v.1] ++ List.replicate 63 0
    (ms.foldl (fun s m => memberWrite m.1 m.2 (at_ (rDesc m.2.words 2) m.2 192) bs s) x.1, x.2)

/-- The collective with every member's record (R329, R332): a count that differs from rank 0's writes nothing but CODE 2. -/
def combineAll (g : XGroup) (ms : List (Contrib × QRec)) (s : State) : State :=
  let s := s.setGroup (g.consume (ms.map (·.1)))
  match ms with
  | [] => s
  | m0 :: _ =>
    let same := fun (r : QRec) => issueCount r.words == issueCount m0.2.words && xRed r.words == xRed m0.2.words
    match (List.range ms.length).find? (fun i => (ms[i]?.map (fun m => !same m.2)).getD false) with
    | some rank => ms.foldl (fun s m => finishRecord m.1.core m.2 2 rank s) s
    | none =>
      let x := (List.range (issueCount m0.2.words)).foldl (fun x i => reduceIssue (xRed m0.2.words) ms i x) (s, 0)
      ms.foldl (fun s m => (finishRecord m.1.core m.2 0 0 s).updRun m.1.core m.2.number (fun r => { r with flags := x.2 })) x.1

/-- XMLR_COMBINE: group `place.n` has its next record from every member. Where the guards of all of them were off, they are past
(R201). -/
def execXmlrCombine (s : State) : Out State :=
  match s.groups.find? (fun g => g.grp = s.place.n) with
  | none => idle s
  | some g =>
    let ms := g.members.filterMap (fun m => ((g.next m).bind (fun c => if c.off then none else some c)).bind (fun c => (c.rec? s).map (fun r => (c, r))))
    let offs := (g.members.filterMap g.next).filter (·.off)
    if offs.length = g.members.length then .next (s.setGroup (g.consume offs))
    else if ms.length = g.members.length ∧ g.members.all (fun m => s.fabricUp m.pkg && g.installed.contains m) = true then
      .next (combineAll g ms s)
    else idle s

/-- The contribution proper of a member to the next collective: not that of a record whose guard was off. -/
def XGroup.gives (g : XGroup) (m : DieKey) : Option Contrib := (g.next m).bind (fun c => if c.off then none else some c)

/-- The earliest arrival of the contributions to the next collective. -/
def XGroup.firstTick (g : XGroup) : Option Nat :=
  (g.members.filterMap g.gives).foldl (fun m c => some (min c.tick (m.getD c.tick))) none

/-- Is a member absent from the next collective (R332)? -/
def State.memberAbsent (s : State) (g : XGroup) (m : DieKey) : Bool :=
  !s.fabricUp m.pkg || !g.installed.contains m
    || ((g.gives m).isNone && (match g.firstTick with | some t => decide (t + g.tmo * 1024 ≤ s.tick) | none => false))

/-- XMLR_TIMEOUT: the next collective of group `place.n` has a contribution and every other member is absent: the records of the members
that hear from the switch end with CODE 1. Or: a record of this core whose package cannot reach the switch has waited TMO × 1,024
ticks. -/
def execXmlrTimeout (s : State) : Out State :=
  match s.groups.find? (fun g => g.grp = s.place.n) with
  | none => idle s
  | some g =>
    let own := s.core.trun.find? (fun r => !r.done && r.isA .xmlr && xGroup r.words == g.grp
      && (!s.fabricUp s.core.key.pkg || !g.contrib.any (fun c => c.core == s.core.key && c.record == r.number)) && decide (r.row + g.tmo * 1024 ≤ s.tick))
    match own with
    | some r =>
      let s := s.setGroup { g with taken := aput g.taken s.core.key.dieKey (max (r.origin + 1) ((aget g.taken s.core.key.dieKey).getD 0)) }
      .next (finishRecord s.core.key r 1 (g.members.findIdx (fun m => m == s.core.key.dieKey)) s)
    | none =>
      let here := g.members.filterMap g.gives
      let gone := g.members.filter (s.memberAbsent g)
      if here.isEmpty || gone.isEmpty || !g.members.all (fun m => (g.gives m).isSome || s.memberAbsent g m) then idle s
      else
        let rank := g.members.findIdx (s.memberAbsent g)
        let s := s.setGroup (g.consume (g.members.filterMap g.next))
        .next ((here.filter (fun c => s.fabricUp c.core.pkg)).foldl (fun s c =>
          match c.rec? s with | some r => finishRecord c.core r 1 rank s | none => s) s)

end Sys2Proof.Machine
end

