-- ==== Sys2Proof/Machine/Cycle.lean ====
section
/-! DEFINITION. The core cycle: what performs and arrives as one ends, which delays make the next a stall cycle of its domain, the work of the
engines in it, and which agent moves in a step (R19, R180, R364 to R366, R391 to R395). -/

namespace Sys2Proof.Machine

/-! ### The end of a core cycle (R226, R271, R313, R365, R366) -/

/-- A write of a running record performs. -/
def State.performPut (s : State) (xfer : Bool) (r : QRec) (p : Put) : State :=
  let t := p.perform r s
  let drop := fun (q : QRec) => if q.number = r.number then { q with puts := q.puts.erase p } else q
  { t with core := if xfer then { t.core with trun := t.core.trun.map drop } else { t.core with prun := t.core.prun.map drop } }

/-- STORE_PERFORM: with `place.n` 0 the oldest store of the class performs; else a write of a running record of the class that nothing
gives a cycle: of product record k (2k + 1) or transfer record k (2k + 2) (R355, R366). -/
def execStorePerform (cls : OrdClass) (s : State) : Out State :=
  match s.place.n with
  | 0 => match performOldest cls s with | some t => ok t | none => idle s
  | n + 1 =>
    let xfer := n % 2 == 1
    match (if xfer then s.core.trun else s.core.prun)[n / 2]? with
    | some r =>
      match (if rCls r.words = cls then r.puts.find? (·.at_.isNone) else none) with
      | some p => ok (s.performPut xfer r p)
      | none => idle s
    | none => idle s

/-- The stores to unit scratchpad and cluster SRAM whose points have passed perform. -/
def State.settleStores (s : State) : State := (List.finRange 16).foldl (fun s c => settleClass c s.core.stores.length s) s

/-- Is this an update of core k's sequencer, to its unit scratchpad or cluster SRAM? -/
def SigMsg.near (m : SigMsg) (k : CoreKey) : Bool :=
  m.at_.isSome && isNear k m.addr && (match m.ord with | some o => o.1 == k | none => false)

/-- The first update of the core to those memories that may take effect does, and what stores wait for it. -/
def State.settleSig (s : State) : State :=
  match s.sigs.zipIdx.find? (fun x => !x.1.applied && x.1.near s.core.key && s.sigReady x.1) with
  | some (m, n) => ({ (s.takeSig m) with sigs := s.sigs.set n { m with applied := true } } : State).settleStores
  | none => s

/-- The accesses of the sequencer and the vector engine whose points have passed perform. -/
def State.settleAccesses (s : State) : State :=
  (s.sigs.filter (·.near s.core.key)).foldl (fun s _ => s.settleSig) s.settleStores

/-- The writes of an engine's records whose cycle this is perform. -/
def State.settlePuts (s : State) (xfer : Bool) : State :=
  let due := fun (p : Put) => match p.at_ with | some t => decide (t ≤ s.core.tau) | none => false
  ((if xfer then s.core.trun else s.core.prun).flatMap (fun r => (r.puts.filter due).map (fun p => (r, p)))).foldl
    (fun s x => s.performPut xfer x.1 x.2) s

/-- Do the record's actions follow the core's cycles: is it no XPUT, XGET, XSEND or XMLR (R314)? -/
def ticking (ws : RWords) : Bool := onCore ws || rOp ws == 0x4D

/-- The records whose last write has performed retire (R271, R313). -/
def State.settleRecords (s : State) : State :=
  let s := (s.core.prun.filter s.recordDone).foldl (fun s r => s.retireRecord false r) s
  (s.core.trun.filter (fun r => ticking r.words && s.recordDone r)).foldl (fun s r => s.retireRecord true r) s

/-- The vector words whose ready cycle has come complete (R226). -/
def Core.completions (c : Core) : Core := c.vfly.foldl (fun c v => if v.ready ≤ c.tau then c.complete v else c) c

/-- Has the load read unit scratchpad or cluster SRAM, its data ready by now? -/
def Core.nearReady (c : Core) (l : PLoad) : Bool :=
  l.got.isSome && (match l.ready with | some t => decide (t ≤ c.tau) | none => false) && l.items.all (fun e => isNear c.key e.2)

/-- The current core's cycle ends, its reads made before its writes perform; the next one begins with the words that complete then and the
data that is ready. -/
def State.endCycle (s : State) : State :=
  let s := ((s.settleAccesses.settlePuts false).settlePuts true).settleRecords
  let s : State := { s with core := ({ s.core with newFlags := 0, tau := s.core.tau + 1, begun := true } : Core).completions }
  (s.core.loads.filter s.core.nearReady).foldl (fun s l => s.arrive l) s

/-! ### Delays (Table 15.1) -/

/-- Product records of the queue that can be given their start cycle have it. -/
def Core.launchAll (c : Core) : List QRec → Core
  | [] => c
  | r :: rest =>
    match c.productStart r with
    | some b => ({ c with pq := rest, prun := c.prun ++ [{ r with start := b, seen := b - (if r.skips c then 0 else r.lead) }] } : Core).launchAll rest
    | none => c

/-- Is a product record's first read due and its guard slot, wait barrier or wait tokens not satisfied, or an access that it must follow not
performed (R272, R362)? -/
def Core.productLate (c : Core) : Bool :=
  let c' := c.launchAll c.pq
  c'.prun.any (fun r => !r.done && (c'.gateOf r).isNone && decide (r.seen ≤ c.tau))
    || (match c'.pq with | r :: _ => decide (r.due ≤ c.tau + r.lead) | [] => false)

/-- Is the next transfer record due and kept from its start by those, or by the wait for a forwarding pair (R314, R327)? -/
def State.transferLate (s : State) : Bool :=
  let c := s.core
  let passes := fun (r : QRec) => r.marker.isSome || (occupies r.words == 0 && (c.gateOf r).isSome && !c.behind r true && decide (r.due ≤ c.tau))
  match c.tq.dropWhile passes with
  | r :: _ => decide (r.due ≤ c.tau ∧ c.engineFree ≤ c.tau)
      && ((c.gateOf r).isNone || c.behind r true || (decodeRecord (r.words.get 0).toNat == some .xslab && !s.pairFree r))
  | [] => false

/-- The core with only those loads that no nominal latency times: of host memory. -/
def Core.untimed (c : Core) : Core := { c with loads := c.loads.filter (fun l => l.issued && (c.loadLag l.items).isNone) }

/-- Is an earlier write of the class pending that nothing gives a cycle? -/
def Core.untimedBefore (c : Core) (cls : OrdClass) (n : Nat) : Bool :=
  c.stores.any (fun p => p.cls == cls && decide (p.num < n) && p.at_.isNone && p.word.isNone)

/-- Has an access passed its point without performing, but for the order behind timed accesses (R365)? -/
def State.accessLate (s : State) : Bool :=
  let c := s.core
  c.stores.any (fun p => p.at_.isSome && c.reached p.at_
      && ((c.performable p && !c.stores.any (fun q => q.cls == p.cls && decide (q.num < p.num))) || !c.untimed.performable p || c.untimedBefore p.cls p.num))
    || s.sigs.any (fun m => !m.applied && m.at_.isSome && (match m.ord with
      | some (k, cls, n) => k == c.key && c.reached m.at_ && (s.sigReady m || c.untimedBefore cls n || c.untimed.loadBefore cls n m.addr 8)
      | none => false))

/-- Would the data of a load now be late, if it were used: it has been read and its cycle has passed, it is to come from host memory, or its
read is held by such an access (R226, R291)? -/
def Core.dataLate (c : Core) (l : PLoad) : Bool :=
  l.issued && match l.got, l.ready with
    | some _, some t => decide (t ≤ c.tau)
    | some _, none => true
    | none, _ => !l.atom && decide (l.at_ ≤ c.tau) && ((c.loadLag l.items).isNone
        || l.items.any (fun e => c.stores.any (fun p => p.at_.isNone && p.word.isNone && p.cls == l.cls && decide (p.num < l.num) && c.touches p e.2 l.size)))

/-- Does late data alone keep the next word of the sequencer from its issue (R291)? -/
def State.wordStarved (s : State) : Bool :=
  let l := s.core.loads.filter (s.core.needs s.nextWord)
  !l.isEmpty && l.all s.core.dataLate && !({ s with core := { s.core with loads := [] } } : State).interlocked

/-- Does late data alone keep the head of the vector queue from its issue (R226)? -/
def Core.vectorStarved (c : Core) : Bool :=
  match c.vq with
  | v :: _ =>
    let vs := vReads v.instr ++ (vWrites v.instr).toList
    let l := c.loads.filter (fun l => l.issued && (match l.dst with | .plane p _ => vs.contains p | _ => false))
    decide (v.ready ≤ c.tau ∧ c.vfree ≤ c.tau) && !l.isEmpty && l.all c.dataLate && ({ c with loads := [] } : Core).mayIssue v.instr
  | [] => false

/-- Is a record of the core, or one of its vector words, not done? -/
def Core.oldWork (c : Core) : Bool :=
  !c.vectorIdle || (c.pq ++ c.prun ++ c.tq ++ c.trun).any (fun r => r.marker.isNone)

/-- Has a section entry reached its new origin with work of the old section not done (R392)? -/
def State.sectionLate (s : State) : Bool :=
  s.core.entering && !s.core.inStall && !s.core.beforeSection && !s.interlocked && s.core.oldWork

/-- Is the task's image being written (R406)? -/
def Core.saving (c : Core) : Bool := match c.phase with | .stopped _ _ _ => c.quiet | _ => false

/-- What a core cycle leaves of a word that waits, or that takes a fault to its handler: the state after it, where that is so. -/
def State.stallStep (run : Instr → State → Out State) (s : State) : Option State :=
  match sequence run s with
  | .next t => if s.core.inStall || s.core.trap.isSome || t.core.stalled || t.core.inStall || t.core.failed != s.core.failed then some t else none
  | _ => none

/-- Has the current core a delay of Table 15.1 due in the core cycle that begins? -/
def State.delayDue (run : Instr → State → Out State) (s : State) : Bool :=
  let c := s.core
  c.slow || c.inStall || c.saving || c.productLate || s.transferLate || s.accessLate || c.vectorStarved
    || (c.phase == .running && (s.wordStarved || s.sectionLate || (match sequence run s with | .next t => t.core.stalled || t.core.inStall | _ => false)))

/-! ### Core cycles (R9, R394, R395) -/

/-- Has the core work, on a package that runs? -/
def State.working (s : State) (c : Core) : Bool := c.phase != .free && (let p := s.getPkg c.key.pkg; p.power && !p.inReset)

/-- A core's place in the order of R365. -/
def keyRank (k : CoreKey) : Nat := (k.pkg * 8 + k.die) * 96 + k.core

/-- A key put into an ascending list. -/
def insertKey (k : CoreKey) : List CoreKey → List CoreKey
  | [] => [k]
  | x :: r => if keyRank k ≤ keyRank x then k :: x :: r else x :: insertKey k r

/-- The cores at work whose next core cycle begins when the current core's does, in ascending order, as far as it is not judged. -/
def State.tied (s : State) : List CoreKey :=
  (s.allCores.filter (fun c => s.working c && c.clock == s.core.clock && c.verdict.isNone)).foldl (fun l c => insertKey c.key l) []

/-- A core cycle begins on every core that it begins on: the one before it ends, and each domain's delays decide whether it is a stall cycle
(R394). -/
def State.boundary (run : Instr → State → Out State) (s : State) : State :=
  let ks := s.tied
  let s := ks.foldl (fun s k => s.atCore k (fun s => if s.core.begun then s else s.endCycle)) s
  let late := ks.filter (fun k => let t := s.select k; t.core.fixed && t.delayDue run)
  let stalls := fun (c : Core) => late.any (fun k => k == c.key || sameDomain c (s.getCore k))
  ks.foldl (fun s k => s.atCore k (fun s => { s with core := { s.core with verdict := some (stalls s.core) } })) s

/-- Core cycles for which a fixed-mode core has not taken its die's clock step, after one more (R395). -/
def Core.nextAge (c : Core) (step : Nat) : Nat := if c.fixed && c.clk != step then c.stepAge + 1 else 0

/-- The time of one core cycle passes on the current core's clock. -/
def State.passTime (s : State) : State :=
  let t := cycleEndAfter s.coreStep s.core.clock
  { s with now := max s.now t, core := { s.core with clock := t, verdict := none, stalled := false, stepAge := s.core.nextAge s.ownDie.localStep } }

/-- A stall cycle: the timetable time stands. The domain takes its die's clock step (R395); a word that waits does so, and a handler runs
(R401). -/
def State.stallCycle (run : Instr → State → Out State) (s : State) : State :=
  let s := { s with core := { s.core with clk := s.ownDie.localStep, slow := false } }.passTime
  (s.stallStep run).getD s

/-- The events of the records that have something to do in this core cycle. -/
def recordEvents (c : Core) : List Event :=
  atPlace (placeOf c.key) ((c.prun.filter c.dueNow ++ c.pq.head?.toList ++ c.trun.filter (fun r => !r.done && ticking r.words)
    ++ c.tq.head?.toList.filter (fun r => r.marker.isSome || c.startsNow r)).filterMap (fun r => decodeRecord (r.words.get 0).toNat))

/-- The first event of a list that takes place. -/
def firstEvent (run : Instr → State → Out State) (s : State) : List Event → Option State
  | [] => none
  | e :: r =>
    match run e.2 { s with place := e.1 } with
    | .next t => if t.skipped then firstEvent run s r else some t
    | _ => firstEvent run s r

/-- The records do what this core cycle has for them, one after the other. -/
def State.runRecords (run : Instr → State → Out State) : Nat → State → State
  | 0, s => s
  | n + 1, s =>
    match firstEvent run s (recordEvents s.core) with
    | some t => State.runRecords run n t
    | none => s

/-- The work of the current core in a core cycle that is no stall cycle, before its sequencer's word: guard slots are read, loads read,
records start, read and issue, a vector word issues; and the cycle passes, which the watchdog counts (R405). -/
def State.work (run : Instr → State → Out State) (s : State) : State :=
  let s := ({ s with core := s.core.latchGates } : State).readsDue
  let c := s.core
  let s := s.runRecords run (2 * (c.pq ++ c.prun ++ c.tq ++ c.trun).length)
  let s := (firstEvent run s (if s.core.vq.isEmpty then [] else [(placeOf s.core.key, .vectorIssue)])).getD s
  let c := s.core
  let watch := if c.phase = .running then c.watch + 1 else c.watch
  { s with core := { c with begun := false, slow := c.slow && c.fixed, watch := watch } }.passTime

/-- One move of the current core's sequencer and engines: a core cycle begins, or passes as a stall cycle, or with the next word; a core with
an earlier one to finish goes first (entry 4). A core without work passes time where no core has any. -/
def seqCycle (run : Instr → State → Out State) (s : State) : Out State :=
  let p := s.getPkg s.core.key.pkg
  if !p.power || p.inReset then .fault .noPower
  else if s.core.phase = .free then
    if s.allCores.any s.working then idle s
    else let t := cycleEndAfter s.podStep (max s.now s.core.clock); .next { s with now := t, core := { s.core with clock := t } }
  else if s.allCores.any (fun c => s.working c && decide (c.clock < s.core.clock)) then idle s
  else
    match s.core.verdict with
    | none => .next (s.boundary run)
    | some true => .next (s.stallCycle run)
    | some false => sequence run (s.work run)

/-! ### The agent that moves -/

/-- The events of the current core's engines, of its accesses and of its signals, in the order in which the model takes
them when nothing names the next agent (entry 3). Each is taken only where its condition holds. -/
def candidates (s : State) : List Event :=
  let c := s.core
  let p := placeOf c.key
  let puts := fun (l : List QRec) (b : Nat) =>
    l.zipIdx.flatMap (fun x => if x.1.puts.any (·.at_.isNone) then [(atNum p (2 * x.2 + b), Instr.storePerform (rCls x.1.words))] else [])
  let moves := (c.trun.filter (fun r => !r.done && !ticking r.words)).filterMap (fun r => decodeRecord (r.words.get 0).toNat)
  atPlace p ((List.finRange 16).map .storePerform)
    ++ puts c.prun 1 ++ puts c.trun 2
    ++ atPlace p [.loadDataArrival, .forcedStallCycle]
    ++ (List.range c.prun.length).map (fun n => (atNum p n, .recordRetire false))
    ++ (List.range c.trun.length).map (fun n => (atNum p n, .recordRetire true))
    ++ atPlace p moves
    ++ (List.range s.sigs.length).flatMap (fun n => [(atNum p n, .signalUpdate), (atNum p n, .signalAcknowledge)])
    ++ s.groups.flatMap (fun g => atPlace (atNum p g.grp) [.xmlrCombine, .xmlrTimeout])
    ++ atPlace p [.xmlrSetupTimeout]
    ++ atPlace p [.contextSaveDone, .taskRetire, .streamLogApply, .taskLogApply, .heartbeat, .takeover]
    ++ s.launches.flatMap (fun l => [(atNum p l.lid, .mergeApply), (atNum p l.lid, .finalMerge)])

/-- The events of the command processors, the launch units and the ring that the model takes between the core cycles of the current core. -/
def dieCandidates (s : State) : List Event :=
  let base := placeOf s.core.key
  s.queues.flatMap (fun q =>
      let p : Place := { base with q := q.1 }
      atPlace p [.packetFetch, .queuePoll, .destroyTick, .waitTimeout, .launch, .gangLaunch, .bindKernel, .registerRequest, .registerNeed,
        .removeNeed, .setRequestState, .unbind, .signalWait, .signalSet, .fetchFence, .barrierPacket, .destroy]
      ++ q.2.packets.map (fun k => (atNum p k.idx, .packetRetire)))
    ++ s.launches.flatMap (fun l =>
        l.shares.flatMap (fun d =>
          let k : DieKey := ⟨l.q.pkg, d.die⟩
          let p := atNum (placeOfDie k) l.lid
          (p, .dieLaunchReport) :: (p, .gangReadyCheck) :: (dieCores k).map (fun c => (atNum (placeOf c) l.lid, .placementChoice)))
        ++ [(atNum base l.lid, .gangDefer), (atNum base l.lid, .gangStart)])
    ++ s.dies.flatMap (fun d =>
        atPlace (placeOfDie d.1) [.ringStallBegin, .ringStallEnd, .batchFormation, .streamStart, .departureDeadline])
    ++ (atNum base 1, .ringRestart) :: atPlace base [.repairTick, .eventPost, .overflow]

/-- The core at work whose next core cycle begins first: the current one, where none begins before it. -/
def State.nextCore (s : State) : Option CoreKey :=
  (s.allCores.filter s.working).foldl (fun m c => match m with
    | some (k, t) => if c.clock < t then some (c.key, c.clock) else some (k, t)
    | none => some (c.key, c.clock)) (none : Option (CoreKey × Nat)) |>.map (·.1)

/-- The step when nothing names the next agent: the first event of the current core that can take place, between core cycles one of the dies,
else a move of the core whose turn it is. -/
def defaultStep (run : Instr → State → Out State) (s : State) : Out State :=
  match firstEvent run s (candidates s) with
  | some t => .next t
  | none =>
    match (if s.core.begun then none else firstEvent run s (dieCandidates s)) with
    | some t => .next t
    | none =>
      match s.nextCore with
      | some k => if k = s.core.key then seqCycle run s else .next (s.select k)
      | none => seqCycle run s

/-- The step that the head of the list of turns names. -/
def stepWith (run : Instr → State → Out State) (s : State) : Out State :=
  let s := { s with skipped := false }
  match s.turns with
  | [] => defaultStep run s
  | .core k :: r => .next ({ s with turns := r }.select k)
  | .seq :: r => seqCycle run { s with turns := r }
  | .ev p i :: r => run i { s with turns := r, place := p }
  | .spoil a :: r => .next { s with turns := r, bad := a :: s.bad }
  | .late :: r => .next { s with turns := r, core := { s.core with slow := true } }

end Sys2Proof.Machine
end

