-- ==== Sys2Proof/Machine/ControlRegs.lean ====
section
/-! DEFINITION. The control-register space (R167, R168, R219): which registers are privileged, what a read returns, which
fields a write changes; ICFENCE, TICK. -/

namespace Sys2Proof.Machine

/-- Is a write to the register privileged (Table 7.10)? -/
def ctlWritePriv (n : Nat) : Bool := decide (0x010 ≤ n)
/-- Does a user-mode read of the register return zero (Table 7.10: marked P)? -/
def ctlReadPriv (n : Nat) : Bool := decide (0x100 ≤ n)

/-- The register's value (Table 7.10). The write-only QCREATE and QKILL read as zero. -/
def State.ctlValue (s : State) (n : Nat) : Word :=
  let c := s.core.ctl
  let d := s.ownDie
  match n with
  | 0x000 => c.fpcs | 0x001 => c.rngseed | 0x002 => c.rngctr | 0x003 => c.gwcfg | 0x004 => c.coreid
  | 0x010 => c.lbase | 0x011 => c.llim | 0x012 => c.slim
  | 0x100 => c.mode | 0x101 => c.tvec | 0x102 => c.epc | 0x103 => c.reppos
  | 0x120 => c.asid | 0x121 => c.ptbase
  | 0x202 => d.rcmaskl | 0x203 => d.rcmaskh
  | 0x300 => d.carva | 0x301 => d.carcfg | 0x302 => putBits d.rpace 50 48 (s.stepRead d) | 0x303 => d.rslot | 0x304 => d.rstall | 0x305 => d.rstat
  | 0x306 => d.misslog | 0x307 => d.rtrk
  | _ =>
    if 0x110 ≤ n ∧ n < 0x118 then c.frec.get (Fin.ofNat 8 n)
    else if 0x130 ≤ n ∧ n < 0x134 then c.kscr.get (Fin.ofNat 4 n)
    else if 0x310 ≤ n ∧ n < 0x318 then d.occd.get (Fin.ofNat 8 n)
    else if 0x318 ≤ n ∧ n < 0x320 then d.occu.get (Fin.ofNat 8 n)
    else 0

/-- The RW bits of a register (R12; the field maps that Table 7.10 names). -/
def ctlRW (n : Nat) : Word :=
  match n with
  | 0x000 => 0x3_0000_0000
  | 0x001 | 0x002 => -1
  | 0x003 => 0xFFFF_FFF0
  | 0x010 | 0x011 | 0x012 => 0x00FF_FFFF_FFFF_FFF8
  | 0x101 => 0x1_FFF9
  | 0x102 => 0x1_FFF8
  | 0x103 => 0x3F
  | 0x120 => 0xFFFF
  | 0x121 => 0x00FF_FFFF_FFFF_FF80
  | 0x130 | 0x131 | 0x132 | 0x133 => -1
  | 0x202 => -1
  | 0x203 => 0xFFFF_FFFF
  | 0x300 => 0x00FF_FFFF_FFFF_0000
  | 0x301 => 0x8000_0FFF_0FFF_0FFF
  | 0x302 => 0x0000_FFFF_FFFF_FFFF
  | 0x303 => 0x0000_FFFF_001F_FFFF
  | 0x304 => 0x0000_FFFF_FFFF_FFFF
  | 0x306 => 0xF0FF_FFFF_FFFF_FFF0
  | 0x307 => 0xF06
  | _ => 0

/-- The W1C bits of a register: the flags of FPCS, and RTRK.LFAIL. -/
def ctlW1C (n : Nat) : Word :=
  match n with
  | 0x000 => 0xF_FFFF
  | 0x307 => 1
  | _ => 0

/-- The RW bits that a write may change now: SIZE and NOM only while CARCFG.EN is 0 (Table 6.6). -/
def State.ctlRWNow (s : State) (n : Nat) : Word :=
  if n = 0x301 && s.ownDie.carcfg.getLsbD 63 then 0x8000_0FFF_0000_0000 else ctlRW n

/-- Replace a register's value. A core that a write removes from the masks takes no stream before the next batch formation (R114). -/
def State.setCtl (s : State) (n : Nat) (v : Word) : State :=
  let c := s.core
  let up := fun (x : Ctl) => { s with core := { c with ctl := x } }
  let d := s.ownDie
  match n with
  | 0x000 => up { c.ctl with fpcs := v } | 0x001 => up { c.ctl with rngseed := v } | 0x002 => up { c.ctl with rngctr := v }
  | 0x003 => up { c.ctl with gwcfg := v }
  | 0x010 => up { c.ctl with lbase := v } | 0x011 => up { c.ctl with llim := v } | 0x012 => up { c.ctl with slim := v }
  | 0x101 => up { c.ctl with tvec := v } | 0x102 => up { c.ctl with epc := v } | 0x103 => up { c.ctl with reppos := v }
  | 0x120 => up { c.ctl with asid := v } | 0x121 => up { c.ctl with ptbase := v }
  | 0x202 => s.setDie { d with rcmaskl := v, ringl := d.ringl &&& v } | 0x203 => s.setDie { d with rcmaskh := v, ringh := d.ringh &&& v }
  | 0x300 => s.setDie { d with carva := v } | 0x301 => s.setDie { d with carcfg := v } | 0x302 => s.setDie { d with rpace := v }
  | 0x303 => s.setDie { d with rslot := v } | 0x304 => s.setDie { d with rstall := v }
  | 0x306 => s.setDie { d with misslog := v } | 0x307 => s.setDie { d with rtrk := v }
  | _ => if 0x130 ≤ n ∧ n < 0x134 then up { c.ctl with kscr := c.ctl.kscr.set (n % 4) v (Nat.mod_lt _ (by decide)) } else s

/-- The routing fields of RTRK changed outside a repair tick: the die's shard traffic stops with RING_DOWN (Table 6.16). -/
def State.routeCheck (s : State) (n : Nat) (old new : Word) : State :=
  if n = 0x307 && (old ^^^ new) &&& 0xF06 != 0 && !(match s.ring.repair with | some r => r.tick == s.tick | none => false) then
    let s := s.setDie { s.ownDie with stopped := true }
    s.post 5 s.core.key [BitVec.ofNat 64 s.ring.failedPkgs.length, BitVec.ofNat 64 (s.ring.failedPkgs.foldl min 127)]
  else s

/-- Write a register field by field (R12, R219): RW fields take the operand, W1C flags clear where it has a one, the rest
keep their value; a flag that was set in this core cycle stays (R64). -/
def State.writeCtl (s : State) (n : Nat) (v : Word) : State :=
  let old := s.ctlValue n
  let m := s.ctlRWNow n
  let kept := if n = 0 then s.core.newFlags else 0
  let new := (old &&& ~~~m ||| v &&& m) &&& ~~~(v &&& ctlW1C n &&& ~~~kept)
  (s.setCtl n new).routeCheck n old new

/-- The privilege rule of a write (R156). -/
def ctlPrivileged (n : Nat) (m : State → Out State) (s : State) : Out State :=
  if ctlWritePriv n then privileged m s else m s

/-- CTLRD (R219): a user-mode read of a privileged register returns zero; FPCS waits for the vector words issued before
(R64). -/
def execCtlrd (d : GReg) (n : BitVec 12) (s : State) : Out State :=
  if n = 0 && !s.core.vectorIdle then ok s
  else setG d (if ctlReadPriv n.toNat && !s.core.priv then 0 else s.ctlValue n.toNat) s

/-- CTLWR (R219). -/
def execCtlwr (n : BitVec 12) (a : GReg) (s : State) : Out State :=
  ctlPrivileged n.toNat (fun s => ok (s.writeCtl n.toNat (s.core.rd a)).retire) s

/-- CTLSET (R219): old OR g[A] in the RW fields; every other field keeps its value. -/
def execCtlset (n : BitVec 12) (a : GReg) (s : State) : Out State :=
  ctlPrivileged n.toNat (fun s =>
    ok (s.writeCtl n.toNat ((s.ctlValue n.toNat ||| s.core.rd a) &&& ~~~(ctlW1C n.toNat))).retire) s

/-- CTLCLR (R219): old AND NOT g[A] in the RW fields. -/
def execCtlclr (n : BitVec 12) (a : GReg) (s : State) : Out State :=
  ctlPrivileged n.toNat (fun s =>
    ok (s.writeCtl n.toNat ((s.ctlValue n.toNat &&& ~~~(s.core.rd a)) &&& ~~~(ctlW1C n.toNat))).retire) s

/-- TICK (R220): the pod tick of its retirement. -/
def execTick (d : GReg) (s : State) : Out State := setG d (BitVec.ofNat 64 s.coreTick) s

/-- ICFENCE (R221): waits until every transfer record enqueued before it has retired; later words are fetched afresh. -/
def execIcfence (s : State) : Out State :=
  if s.core.tq.isEmpty && s.core.trun.isEmpty then retireWith (fun c => { c with oldCode := [] }) s else ok s

end Sys2Proof.Machine
end

