-- ==== Sys2Proof/Machine/Queues.lean ====
section
/-! DEFINITION. Queues and the command processor: creation and destruction (R80, R94 to R96), fetching (R81, R89, R91),
the checks of packets (R84), dispatch (R89, R90), and retirement (R88, R93). -/

namespace Sys2Proof.Machine

/-! ### Creation (R80, Table 4.1) -/

/-- Does PTBASE name die scratchpad of a die of the package? -/
def ptbaseOk (pkg pt : Nat) : Bool := validPA pt && paSpace pt == 0 && paPkg pt == pkg

/-- The physical slots lie in die scratchpad or in host memory, all of one kind (entry 96); the base is aligned (R80, R81). -/
def State.slotsOk (s : State) (k : DieKey) (asid : BitVec 16) (pt : Word) (base n : Nat) : Bool :=
  let pages := (List.range ((n + 4095) / 4096)).map (fun i => s.agentPA k asid pt (base + 4096 * i))
  base % n == 0 && pages.all (·.isSome)
    && decide ((pages.map (fun p => p.map paSpace)).eraseDups.length ≤ 1)

/-- The details of a descriptor's offending fields (R80). Where LOG2S is outside its limits BASE is held to the alignment that it names, and
slot 0 alone to lie in memory that may hold slots (entry 106). `w` gives the words; `pa` is the descriptor's place. -/
def State.queueFaults (s : State) (k : CoreKey) (pa : Nat) (w : Nat → Nat) : List Nat :=
  let on := fun (b : Bool) (d : Nat) => if b then [d] else []
  let logs := bits (w 3) 4 0
  let logOk := decide (4 ≤ logs ∧ logs ≤ 16)
  let pt := bits (w 6) 55 7 * 128
  let base := bits (w 0) 55 0
  let asid := BitVec.ofNat 16 (bits (w 3) 31 16)
  let slots := s.slotsOk k.dieKey asid (BitVec.ofNat 64 pt) base (if logOk then 64 * 2 ^ logs else 64)
  let host := (s.agentPA k.dieKey asid (BitVec.ofNat 64 pt) base).elim false (fun a => paSpace a == 4)
  on (bits (w 0) 63 56 != 0) (detailOf 0 56) ++ on (base % (64 * 2 ^ logs) != 0 || (ptbaseOk k.pkg pt && !slots)) (detailOf 0 0)
    ++ on (bits (w 3) 63 38 != 0) (detailOf 3 38) ++ on (aget s.queues ⟨k.pkg, bits (w 3) 37 32⟩).isSome (detailOf 3 32)
    ++ on (bits (w 3) 15 13 != 0) (detailOf 3 13)
    ++ on (!(paSpace pa == 0 && paPkg pa == k.pkg && paDie pa == bits (w 3) 12 10)) (detailOf 3 10)
    ++ on (bits (w 3) 7 5 != 0) (detailOf 3 5) ++ on (!logOk) (detailOf 3 0) ++ on (bits (w 4) 15 2 != 0) (detailOf 4 2)
    ++ on (bits (w 5) 63 60 != 0) (detailOf 5 60) ++ on (host && !decide (64 ≤ bits (w 5) 15 0)) (detailOf 5 0)
    ++ on (bits (w 6) 63 56 != 0) (detailOf 6 56) ++ on (!ptbaseOk k.pkg pt) (detailOf 6 7) ++ on (bits (w 6) 6 0 != 0) (detailOf 6 0)
    ++ on (bits (w 7) 63 44 != 0) (detailOf 7 44)

/-- The queue that a descriptor describes. -/
def queueOf (pa : Nat) (w : Nat → Nat) : Queue :=
  { descPA := pa, base := bits (w 0) 55 0, asid := BitVec.ofNat 16 (bits (w 3) 31 16), home := bits (w 3) 12 10, prio := bits (w 3) 9 8
    log2s := bits (w 3) 4 0, poll := bits (w 5) 15 0, ptbase := BitVec.ofNat 64 (bits (w 6) 55 7 * 128), unitva := bits (w 7) 43 0
    cluva := bits (w 5) 59 16, rd := w 2, fetch := w 2, part := [], state := 0, packets := [], destroyAt := none, launches := 0, pollAt := 0 }

/-- Word 4 of a descriptor. -/
def queueWord4 (state code idx : Nat) : Word := BitVec.ofNat 64 (idx % 2 ^ 32 * 2 ^ 32 + code * 2 ^ 16 + state)

/-- QCREATE (R80): the outcome stands in W4 before the word retires. Of the descriptor's page it asks that it may be written
(entry 96). -/
def execQcreate (a : GReg) (s : State) : Out State :=
  privileged (fun s =>
    let va := (s.core.rd a).toNat
    match translate seqReach .write va s with
    | .error n => transFault va n 1 0 s
    | .ok (pa, t) =>
      let s := s.hold t
      let w := fun i => s.readNum (pa + 8 * i) 8
      let k := s.core.key
      match lowest (s.queueFaults k pa w) with
      | some d => ok (s.writeWord (pa + 32) (queueWord4 3 10 d)).retire
      | none =>
        let q := queueOf pa w
        ok ({ s with queues := aput s.queues ⟨k.pkg, bits (w 3) 37 32⟩ q }.writeWord (pa + 32) 0).retire) s

/-! ### Destruction (R94) -/

/-- The STATE field in memory takes a value. -/
def Queue.setState (q : Queue) (v : Nat) (s : State) : State := s.writeWord (q.descPA + 32) (putBits (s.word (q.descPA + 32)) 1 0 v)

/-- A live queue is to be destroyed at the current tick plus 512 (R94). -/
def State.destroyQueue (s : State) (k : QKey) : State :=
  match aget s.queues k with
  | some q =>
    if q.destroyAt.isSome then s
    else q.setState 2 { s with queues := aput s.queues k { q with state := 2, destroyAt := some (s.tick + 512) } }
  | none => s

/-- QKILL (R80, R94): a number that names no live queue has no effect (entry 20). -/
def execQkill (a : GReg) (s : State) : Out State :=
  privileged (fun s =>
    let n := (s.core.rd a).toNat
    ok (if n < 64 then s.destroyQueue ⟨s.core.key.pkg, n⟩ else s).retire) s

/-- DESTROY_NOTICE: the die of `place.core` receives the agreed tick t of queue `place.q`. -/
def execDestroyNotice (t : Nat) (s : State) : Out State :=
  let d := s.getDie s.place.core.dieKey
  match aget s.queues s.place.q with
  | some q =>
    if q.destroyAt = some t ∧ (s.place.q, t) ∉ d.notices then ok (s.setDie { d with notices := d.notices ++ [(s.place.q, t)] })
    else idle s
  | none => idle s

/-! ### Fetching (R81, R89, R91) -/

/-- The die of a queue's command processor. -/
def Queue.homeDie (q : Queue) (k : QKey) : DieKey := ⟨k.pkg, q.home⟩
/-- The source identifier of its command processor's updates. -/
def Queue.source (q : Queue) (k : QKey) : BitVec 19 := sigSource ⟨k.pkg, q.home, 0⟩ 2
/-- A queue's address as its command processor translates it. -/
def State.queuePA (s : State) (k : QKey) (q : Queue) (va : Nat) (a : Access := .read) (sig : Bool := false) : Option Nat :=
  s.agentPA (q.homeDie k) q.asid q.ptbase va a sig
/-- The physical address of the slot of index i. -/
def State.slotPA (s : State) (k : QKey) (q : Queue) (i : Nat) : Option Nat := s.queuePA k q (q.base + 64 * (i % 2 ^ q.log2s))
/-- The lap code of index i, an n64 (R81). -/
def lapCode (log2s i : Nat) : Nat := i % 2 ^ 64 / 2 ^ log2s % 255 + 1
/-- Is the queue active: neither in ERR nor destroying? Software leaves ERR by writing STATE 0 (R93). -/
def State.queueActive (s : State) (q : Queue) : Bool :=
  q.destroyAt.isNone && (q.state == 0 || (q.state == 1 && bits (s.num (q.descPA + 32) 8) 1 0 == 0))

/-- TYPE of a packet. -/
def Packet.ty (p : Packet) : Nat := bits (p.words.get 0).toNat 15 8
/-- Bits of a packet's word. -/
def Packet.bits (p : Packet) (i : Fin 8) (hi lo : Nat) : Nat := Sys2Proof.bits (p.words.get i).toNat hi lo
/-- SER, treated as 1 for types 5 and 7. -/
def Packet.ser (p : Packet) : Bool := p.bits 0 16 16 == 1 || p.ty == 5 || p.ty == 7

/-- The bits of W1 to W5 that carry a field, by type and, for type 3, by OP (Tables 4.3 to 4.5). -/
def packetMask (ty op : Nat) (i : Nat) : Nat :=
  let a := 2 ^ 56 - 1
  match ty, i with
  | 1, 1 | 2, 1 | 1, 2 | 2, 2 => a
  | 1, 3 | 2, 3 => 2 ^ 64 - 1
  | 1, 4 | 2, 4 => 3
  | 3, 1 => 0xFF0F
  | 3, 2 => if op ≤ 1 then a else 0
  | 3, 3 => if op = 0 then a else 0
  | 3, 4 => if op = 0 then 3 else if op = 2 ∨ op = 3 then 0xFF00_FFFF_FFFF_FFFF else 0
  | 3, 5 => if op = 4 then 0xFFFF_0000_0003 else 0
  | 4, 1 | 5, 1 => a
  | 4, 2 | 5, 2 => 2 ^ 64 - 1
  | 4, 3 => 3
  | 5, 3 => 1
  | 4, 4 => 2 ^ 32 - 1
  | 7, 1 => 0x73F
  | 8, 1 => 0x3F
  | _, _ => 0

/-- The low bit of the lowest reserved run of a word in which a bit is set. -/
def reservedLow (mask w : Nat) : Option Nat :=
  match (List.range 64).find? (fun b => bitAt w b && !bitAt mask b) with
  | some b => some (((List.range (b + 1)).reverse.takeWhile (fun j => !bitAt mask j)).getLast?.getD b)
  | none => none

/-- The details of a packet's offending fields (R84). A required address of zero that does not translate is one of them (entry 104); inside
NEEDW and RSTATE the field named is the sub-field or the reserved run (entry 105). The addresses aligned to 8 bytes are those of signals. -/
def State.packetFaults (s : State) (k : QKey) (q : Queue) (p : Packet) : List Nat :=
  let on := fun (b : Bool) (d : Nat) => if b then [d] else []
  let ty := p.ty
  let op := p.bits 1 3 0
  let bad := fun (i : Fin 8) (al : Nat) (a : Access) =>
    let va := p.bits i 55 0
    va % al != 0 || (s.queuePA k q va a (al == 8)).isNone
  let some_ := fun (i : Fin 8) => p.bits i 55 0 != 0
  on (p.bits 0 31 17 != 0) (detailOf 0 17) ++ on (!decide (1 ≤ ty ∧ ty ≤ 8)) (detailOf 0 8)
    ++ (if 1 ≤ ty ∧ ty ≤ 8 then
          [1, 2, 3, 4, 5].filterMap (fun (i : Fin 8) => (reservedLow (packetMask ty op i.val) (p.words.get i).toNat).map (detailOf i.val ·))
        else [])
    ++ on ((ty == 1 || ty == 2) && bad 1 64 .read) (detailOf 1 0) ++ on ((ty == 1 || ty == 2) && some_ 2 && bad 2 8 .read) (detailOf 2 0)
    ++ on (ty == 3 && p.bits 1 15 8 == 0) (detailOf 1 8) ++ on (ty == 3 && decide (5 < op)) (detailOf 1 0)
    ++ on (ty == 3 && decide (op ≤ 1) && bad 2 64 .read) (detailOf 2 0) ++ on (ty == 3 && op == 0 && bad 3 64 .read) (detailOf 3 0)
    ++ on (ty == 3 && op == 0 && p.bits 4 1 0 == 3) (detailOf 4 0) ++ on (ty == 3 && (op == 2 || op == 3) && p.bits 4 63 63 == 0) (detailOf 4 63)
    ++ on (ty == 3 && (op == 2 || op == 3) && p.bits 4 61 61 != 0) (detailOf 4 61)
    ++ on (ty == 3 && (op == 2 || op == 3) && p.bits 4 60 56 != 0) (detailOf 4 56)
    ++ on (ty == 3 && op == 4 && p.bits 5 1 0 != 1 && p.bits 5 1 0 != 3) (detailOf 5 0)
    ++ on ((ty == 4 || ty == 5) && bad 1 8 (if ty = 5 then .write else .read)) (detailOf 1 0)
    ++ on (ty == 7 && !decide (3 ≤ p.bits 1 10 8 ∧ p.bits 1 10 8 ≤ 5)) (detailOf 1 8)
    ++ on (ty == 7 && decide (3 ≤ p.bits 1 10 8 ∧ p.bits 1 10 8 ≤ 5) && decide (2 ^ (9 - p.bits 1 10 8) ≤ p.bits 1 5 0)) (detailOf 1 0)
    ++ on (ty == 8 && (match aget s.queues ⟨k.pkg, p.bits 1 5 0⟩ with | some t => t.asid != q.asid | none => false)) (detailOf 1 0)
    ++ on (p.bits 6 63 56 != 0) (detailOf 6 56) ++ on (some_ 6 && bad 6 16 .write) (detailOf 6 0)
    ++ on (p.bits 7 63 56 != 0) (detailOf 7 56) ++ on (some_ 7 && bad 7 8 .write) (detailOf 7 0)

/-- Is the slot at the fetch index valid, and where does it lie (R81)? -/
def State.validSlot (s : State) (k : QKey) (q : Queue) : Option Nat :=
  match s.slotPA k q q.fetch with
  | some pa => if (s.readByte pa).toNat = lapCode q.log2s q.fetch then some pa else none
  | none => none

/-- May the command processor fetch (R89, R91): the queue is active, fewer than 16 packets are fetched and not retired, and no
fence waits? -/
def State.mayFetch (s : State) (q : Queue) : Bool :=
  s.queueActive q && decide (q.fetch < q.rd + 16) && !q.packets.any (fun p => !p.retired && p.ty == 6)

/-- Does the queue's next slot lie in host memory? -/
def State.hostQueue (s : State) (k : QKey) (q : Queue) : Bool := (s.slotPA k q q.fetch).elim false (fun a => paSpace a == 4)

/-- Work on a queue that exists. -/
def withQueue (m : QKey → Queue → State → Out State) (s : State) : Out State :=
  match aget s.queues s.place.q with
  | some q => m s.place.q q s
  | none => idle s

/-- Replace a queue. -/
def State.setQueue (s : State) (k : QKey) (q : Queue) : State := { s with queues := aput s.queues k q }

/-- The first index from i on that no packet of the queue holds. -/
def Queue.freeIndex (q : Queue) (i : Nat) : Nat :=
  (((List.range 17).map (i + ·)).find? (fun n => !q.packets.any (fun p => p.idx = n))).getD (i + 17)

/-- A packet joins those of its queue, in index order. -/
def Queue.addPacket (q : Queue) (p : Packet) : Queue :=
  let q := { q with packets := q.packets.filter (fun (x : Packet) => decide (x.idx < p.idx)) ++ p :: q.packets.filter (fun (x : Packet) => decide (p.idx < x.idx)), part := [] }
  { q with fetch := q.freeIndex (p.idx + 1) }

/-- The packet at the fetch index is decoded from its words. A packet that breaks R84 ends with PACKET_INVALID in its turn. -/
def State.decodePacket (s : State) (k : QKey) (q : Queue) (ws : Vector Word 8) : Packet :=
  let p : Packet := { idx := q.fetch, words := ws, phase := .fetched, since := 0, ph := none, lid := none, destroys := none, retired := false }
  match lowest (s.packetFaults k q p) with | some d => { p with phase := .invalid d } | none => p

/-- Word i of the slot at pa: as it was read, or as it stands. -/
def State.slotWord (s : State) (q : Queue) (pa i : Nat) : Word := (aget q.part (pa + 8 * i)).getD (s.readWord (pa + 8 * i))

/-- PACKET_FETCH: the slot at the fetch index is valid, and its words are read (R81). With `place.n` from 1 to 8 word n − 1 alone is
read, in any order, so that a packet whose words are written one by one is seen with each of them old or new (R83, R92); else
every word that is left is read, and the packet is decoded, unless its first word has lost its lap code. -/
def execPacketFetch (s : State) : Out State :=
  withQueue (fun k q s =>
    match (if q.part.isEmpty then s.validSlot k q else s.slotPA k q q.fetch) with
    | some pa =>
      if s.mayFetch q && (!s.hostQueue k q || decide (q.pollAt ≤ s.tick)) then
        let n := s.place.n
        if 1 ≤ n ∧ n ≤ 8 then
          if (aget q.part (pa + 8 * (n - 1))).isSome then idle s
          else ok (s.setQueue k { q with part := q.part ++ [(pa + 8 * (n - 1), s.readWord (pa + 8 * (n - 1)))] })
        else if bits (s.slotWord q pa 0).toNat 7 0 ≠ lapCode q.log2s q.fetch then ok (s.setQueue k { q with part := [] })
        else ok (s.setQueue k (q.addPacket (s.decodePacket k q (Vector.ofFn (fun i => s.slotWord q pa i.val)))))
      else idle s
    | none => idle s) s

/-- QUEUE_POLL: the slot at the fetch index, in host memory, was read and is empty: it is read again POLL ticks later. -/
def execQueuePoll (s : State) : Out State :=
  withQueue (fun k q s =>
    if s.hostQueue k q && s.mayFetch q && (s.validSlot k q).isNone && decide (q.pollAt ≤ s.tick) then
      ok (s.setQueue k { q with pollAt := s.tick + q.poll })
    else idle s) s

/-! ### Dispatch (R89, R90) -/

/-- The packet of a queue that is next to dispatch: the first that has neither been dispatched nor retired. -/
def Queue.nextPacket (q : Queue) : Option Packet :=
  q.packets.find? (fun p => !p.retired && (match p.phase with | .fetched | .invalid _ => true | _ => false))

/-- The dispatch condition on DSIG (Table 4.3). -/
def State.dependenceHolds (s : State) (k : QKey) (q : Queue) (p : Packet) : Bool :=
  if (p.ty == 1 || p.ty == 2) && p.bits 2 55 0 != 0 then
    match s.queuePA k q (p.bits 2 55 0) .read true with
    | some pa => sigCond (p.bits 4 1 0) (s.readNum pa 8) (p.words.get 3).toNat
    | none => false
  else true

/-- The packet that a queue has ready to dispatch. -/
def State.readyPacket (s : State) (k : QKey) (q : Queue) : Option Packet :=
  match q.nextPacket with
  | some p =>
    if s.queueActive q && p.phase == .fetched && p.ty != 8 && (!p.ser || q.rd == p.idx) && s.dependenceHolds k q p
      && (s.getPkg k.pkg).updating.isNone then some p else none
  | none => none

/-- Is this queue the one that its command processor serves next: lowest PRIO, then round-robin by number (R90)? A command processor that
has served none begins with queue 0: the spec names no beginning (DESIGN CHOICE, entry 106). -/
def State.wins (s : State) (k : QKey) (q : Queue) : Bool :=
  let last := (aget s.served (q.homeDie k)).getD 63
  let rank := fun (x : QKey × Queue) => x.2.prio * 64 + (x.1.q + 64 - (last + 1) % 64) % 64
  s.queues.all (fun x => !(x.1.pkg == k.pkg && x.2.home == q.home && (s.readyPacket x.1 x.2).isSome) || decide (rank (k, q) ≤ rank x))

/-- A packet of a queue changed. -/
def Queue.setPacket (q : Queue) (i : Nat) (f : Packet → Packet) : Queue :=
  { q with packets := q.packets.map (fun p => if p.idx = i then f p else p) }

/-- Dispatch the ready packet of the queue at `place.q`, if it is of the kind and may go now: the packet is dispatched, and `m` gives its
effect. -/
def dispatch (kind : Packet → Bool) (m : QKey → Queue → Packet → State → Out State) (s : State)
    (may : QKey → Queue → Packet → Bool := fun _ _ _ => true) : Out State :=
  withQueue (fun k q s =>
    match s.readyPacket k q with
    | some p =>
      if kind p && may k q p && s.wins k q then
        let q := q.setPacket p.idx (fun p => { p with phase := .dispatched, since := s.tick })
        m k q p { (s.setQueue k q) with served := aput s.served (q.homeDie k) k.q }
      else idle s
    | none => idle s) s

/-- The launch that a packet starts; `none` where a die has no embedding (R103). -/
def State.newLaunch (s : State) (k : QKey) (q : Queue) (p : Packet) (l : Lpb) (i : Image) : Option Launch :=
  let ds := diesOf l.dies
  let e := s.eligible k.pkg ds
  let m := if l.cores = 0 then e else l.cores
  let binds := ds.map (fun d => s.bindCores l m ⟨k.pkg, d⟩)
  if binds.any (·.isNone) then none
  else
    let shares := (ds.zip binds).zipIdx.map (fun x =>
      ({ die := x.1.1, pending := dieGroups l m ds.length x.2, bind := x.1.2.getD [], ran := 0, stopped := 0, live := 0
         check := .unchecked, reported := false } : DieShare))
    some { lid := s.nextLid, q := k, pidx := p.idx, seq := BitVec.ofNat 32 q.launches, prio := q.prio, lpb := l, image := i, shares := shares
           start := l.start, notReady := false, begun := false, destroyed := none, faults := [], done := [], logs := [] }

/-- The dispatch of a launch: its checks, then the copy to every die (R45, R89). -/
def dispatchLaunch (gang : Bool) (k : QKey) (q : Queue) (p : Packet) (s : State) : Out State :=
  match s.checkLaunch (q.homeDie k) q.asid q.ptbase (p.bits 1 55 0) gang with
  | .error e => ok (s.endPacket k p.idx e.1 e.2 0 0)
  | .ok (l, i) =>
    match s.newLaunch k q p l i with
    | none => ok (s.endPacket k p.idx 3 0 0 0)
    | some x =>
      let q := (q.setPacket p.idx (fun p => { p with lid := some x.lid }))
      let s := State.makeCopy l { (s.setQueue k { q with launches := q.launches + 1 }) with launches := s.launches ++ [x] }
      ok (if gang then s.reserve x else s.preempt x)

/-- LAUNCH (R89). -/
def execLaunch (s : State) : Out State := dispatch (fun p => p.ty == 1) (dispatchLaunch false) s
/-- GANG_LAUNCH (R89, R111). -/
def execGangLaunch (s : State) : Out State := dispatch (fun p => p.ty == 2) (dispatchLaunch true) s

/-! ### Stream-table updates (R86) -/

/-- Is it a stream-table update with this OP? -/
def isUpdate (op : Nat) (p : Packet) : Bool := p.ty == 3 && p.bits 1 3 0 == op
/-- The dies that a packet names. -/
def Packet.updateDies (p : Packet) (k : QKey) : List DieKey := (diesOf (p.bits 1 15 8)).map (fun d => ⟨k.pkg, d⟩)

/-- Apply f to each die named. -/
def State.onDies (s : State) (ds : List DieKey) (f : Die → Die) : State := ds.foldl (fun s d => s.setDie (f (s.getDie d))) s

/-- BIND_KERNEL: OP 0, checked as in R36 (R86). An image without RING is PACKET_INVALID naming W2 (entry 21). -/
def execBindKernel (s : State) : Out State :=
  dispatch (isUpdate 0) (fun k q p s =>
    let stop := fun (e : Refused) => ok (s.endPacket k p.idx e.1 e.2 0 0)
    let die := q.homeDie k
    match s.readImage die q.asid q.ptbase (p.bits 2 55 0) with
    | .error e => stop e
    | .ok i =>
      if !i.ring then stop (5, detailOf 2 0)
      else
        match s.readLpb die q.asid q.ptbase (p.bits 3 55 0) with
        | .error e => stop e
        | .ok (bs, short) =>
          let l := s.copyLpb die q.asid q.ptbase (p.bits 3 55 0) bs
          if short then stop (1, detailOf 6 0)
          else
            if !imageFits i l.det then stop (2, 7)
            else
              let b : Binding := { image := i, lpb := l, dom := p.bits 4 1 0, q := k, asid := q.asid, ptbase := q.ptbase, unitva := q.unitva
                                   cluva := q.cluva }
              let s := (s.makeCopy l).onDies (p.updateDies k) (fun d => { d with binding := some b, arrivals := 0 })
              ok (s.endPacket k p.idx 0 0 0 0)) s

/-- REGISTER_REQUEST: OP 1 (R50, R86). Where the descriptor's page translates no more it is PACKET_INVALID (entry 102). -/
def execRegisterRequest (s : State) : Out State :=
  dispatch (isUpdate 1) (fun k q p s =>
    match s.queuePA k q (p.bits 2 55 0) with
    | none => ok (s.endPacket k p.idx 5 (detailOf 2 0) 0 0)
    | some pa =>
      let w := fun i => s.readNum (pa + 8 * i) 8
      let r : ReqCopy := { req := bits (w 0) 15 0, asid := BitVec.ofNat 16 (bits (w 0) 31 16), state := bits (w 0) 57 56, slabdir := bits (w 1) 55 0
                           pos := bits (w 2) 31 0, rowb := bits (w 2) 63 32, addr := pa }
      match (p.updateDies k).find? (fun d => (s.getDie d).reqs.any (fun x => x.req = r.req)) with
      | some d => ok (s.endPacket k p.idx 11 d.die 0 0)
      | none => ok ((s.onDies (p.updateDies k) (fun d => { d with reqs := d.reqs ++ [r] })).endPacket k p.idx 0 0 0 0)) s

/-- The request and tag of NEEDW. -/
def Packet.needReq (p : Packet) : Nat := p.bits 4 47 32
def Packet.needTag (p : Packet) : Nat := p.bits 4 31 0

/-- REGISTER_NEED: OP 2 (R51, R86). A die whose table is full does not keep the other dies from registering (entry 101). -/
def execRegisterNeed (s : State) : Out State :=
  dispatch (isUpdate 2) (fun k q p s =>
    let ds := p.updateDies k
    let reg := fun (d : Die) => d.register q.asid (p.bits 4 62 62 == 1) p.needReq p.needTag s.now
    match ds.find? (fun d => (reg (s.getDie d)).2 = 3) with
    | some d => ok (s.endPacket k p.idx 12 d.die 0 0)
    | none =>
      let full := ds.find? (fun d => (reg (s.getDie d)).2 = 2)
      let s := s.onDies ds (fun d => (reg d).1)
      ok (match full with | some d => s.endPacket k p.idx 7 d.die 0 0 | none => s.endPacket k p.idx 0 0 0 0)) s

/-- REMOVE_NEED: OP 3 (R86). A die that holds no such need does not keep the other dies from removing theirs (entry 101). -/
def execRemoveNeed (s : State) : Out State :=
  dispatch (isUpdate 3) (fun k _ p s =>
    let ds := p.updateDies k
    let slot := fun (d : Die) => d.needSlot p.needReq p.needTag
    let absent := ds.find? (fun d => (slot (s.getDie d)).isNone)
    let s := s.onDies ds (fun d => match slot d with | some i => d.clearNeed i | none => d)
    ok (match absent with | some d => s.endPacket k p.idx 8 d.die 0 0 | none => s.endPacket k p.idx 0 0 0 0)) s

/-- SET_REQUEST_STATE: OP 4 (R86); STATE is written back to the descriptor (R50). -/
def execSetRequestState (s : State) : Out State :=
  dispatch (isUpdate 4) (fun k _ p s =>
    let ds := p.updateDies k
    let req := p.bits 5 47 32
    let st := p.bits 5 1 0
    let live := fun (d : Die) => d.reqs.any (fun r => r.req == req && decide (r.state < 2))
    match ds.find? (fun d => !live (s.getDie d)) with
    | some d => ok (s.endPacket k p.idx 12 d.die 0 0)
    | none =>
      let back := fun (s : State) (d : DieKey) =>
        match (s.getDie d).reqs.find? (fun r => r.req = req) with
        | some r => s.writeWord r.addr (putBits (s.word r.addr) 57 56 st)
        | none => s
      let s := ds.foldl back s
      let s := s.onDies ds (fun d => { d with reqs := d.reqs.map (fun r => if r.req = req then { r with state := st } else r) })
      ok (s.endPacket k p.idx 0 0 0 0)) s

/-- UNBIND: OP 5 (R86): shards that arrive from now on start nothing. -/
def execUnbind (s : State) : Out State :=
  dispatch (isUpdate 5) (fun k _ p s =>
    ok ((s.onDies (p.updateDies k) (fun d => { d with binding := none })).endPacket k p.idx 0 0 0 0)) s

/-! ### Waits, signals, fences, barriers (R87, R91) -/

/-- The value of a packet's signal; 0 where its page translates no more (entry 102). -/
def State.packetSignal (s : State) (k : QKey) (q : Queue) (p : Packet) : Nat :=
  match s.queuePA k q (p.bits 1 55 0) .read true with | some pa => s.readNum pa 8 | none => 0

/-- Does the condition of a signal wait hold? -/
def State.waitHolds (s : State) (k : QKey) (q : Queue) (p : Packet) : Bool :=
  sigCond (p.bits 3 1 0) (s.packetSignal k q p) (p.words.get 2).toNat

/-- A dispatched packet of a type that still waits. -/
def Queue.waiting (q : Queue) (ty : Nat) : Option Packet := q.packets.find? (fun p => p.phase == .dispatched && p.ty == ty)

/-- SIGNAL_WAIT: a wait is dispatched, or its condition holds and it ends. -/
def execSignalWait (s : State) : Out State :=
  withQueue (fun k q s =>
    match q.packets.find? (fun p => p.phase == .dispatched && p.ty == 4 && s.waitHolds k q p) with
    | some p => ok (s.endPacket k p.idx 0 0 0 0)
    | none =>
      dispatch (fun p => p.ty == 4) (fun k q p s => ok (if s.waitHolds k q p then s.endPacket k p.idx 0 0 0 0 else s)) s) s

/-- WAIT_TIMEOUT: a wait has lasted TIMEOUT × 1,024 ticks without its condition. -/
def execWaitTimeout (s : State) : Out State :=
  withQueue (fun k q s =>
    match q.packets.find? (fun p => p.phase == .dispatched && p.ty == 4 && p.bits 4 31 0 != 0
        && decide (p.since + p.bits 4 31 0 * 1024 ≤ s.tick) && !s.waitHolds k q p) with
    | some p => ok (s.endPacket k p.idx 6 (s.packetSignal k q p % 2 ^ 32) 0 0)
    | none => idle s) s

/-- SIGNAL_SET: the update is sent with the home die as its source, once fewer than 256 of its updates to that home are unacknowledged
(R87, R385). Where its page translates no more the packet ends with
PACKET_INVALID (entry 102). -/
def execSignalSet (s : State) : Out State :=
  dispatch (fun p => p.ty == 5) (fun k q p s =>
    match s.queuePA k q (p.bits 1 55 0) .write true with
    | none => ok (s.endPacket k p.idx 5 (detailOf 1 0) 0 0)
    | some pa =>
      ok (s.sendSig (q.source k) pa (p.bits 3 0 0 == 1) (p.words.get 2) none none (some (k, p.idx)))) s
    (fun k q p => match s.queuePA k q (p.bits 1 55 0) .write true with | some pa => s.sigRoom (q.source k) pa | none => true)

/-- Has a packet begun dispatch? -/
def Packet.begun (p : Packet) : Bool := match p.phase with | .fetched | .invalid _ => false | _ => true

/-- Copies behind index i that have not begun dispatch are discarded, and fetching goes back to them. -/
def Queue.dropBehind (q : Queue) (i : Nat) : Queue :=
  let q := { q with packets := q.packets.filter (fun x => decide (x.idx ≤ i) || x.begun), part := [] }
  { q with fetch := q.freeIndex (max (i + 1) q.rd) }

/-- FETCH_FENCE: the fence is dispatched, and copies of the packets behind it are discarded; it ends once every packet before it has
retired (R91). -/
def execFetchFence (s : State) : Out State :=
  dispatch (fun p => p.ty == 6) (fun k q p s => ok (s.setQueue k (q.dropBehind p.idx))) s

/-- The barrier that a packet names (Table 4.5). -/
def Packet.barrier (p : Packet) (k : QKey) (q : Queue) : BarKey :=
  barKey ⟨k.pkg, q.home, 0⟩ (match p.bits 1 10 8 with | 3 => .die | 4 => .pkg | _ => .pod) (p.bits 1 5 0)

/-- BARRIER_PACKET: the packet arrives once for the command processor, when its own signals sent before have been applied (R378), and
ends when the phase that it joined has completed. An
arrival with EC 0 is PACKET_INVALID naming BID (entry 22). -/
def execBarrierPacket (s : State) : Out State :=
  withQueue (fun k q s =>
    match q.packets.find? (fun p => p.phase == .dispatched && p.ty == 7
        && (match p.ph with | some t => phaseDone (s.getBar (p.barrier k q)).ph t | none => false)) with
    | some p => ok (s.endPacket k p.idx 0 0 0 0)
    | none =>
      dispatch (fun p => p.ty == 7) (fun k q p s =>
        let b := s.getBar (p.barrier k q)
        if b.ec = 0 then ok (s.endPacket k p.idx 5 (detailOf 1 0) 0 0)
        else
          ok ((s.setQueue k (q.setPacket p.idx (fun p => { p with ph := some b.ph }))).setBar (p.barrier k q) b.arrive)) s
        (fun k q _ => !s.sigs.any (fun m => m.src == q.source k && !m.applied))) s

/-! ### Destroy packets and the destroy tick (R94, R95) -/

/-- DESTROY: a destroy packet acts when it is decoded. -/
def execDestroy (s : State) : Out State :=
  withQueue (fun k q s =>
    match q.packets.find? (fun p => p.phase == .fetched && p.ty == 8) with
    | some p =>
      let t : QKey := ⟨k.pkg, p.bits 1 5 0⟩
      match aget s.queues t with
      | some x =>
        if x.destroyAt.isSome then ok (s.endPacket k p.idx 0 0 0 0)
        else
          ok ((s.setQueue k (q.setPacket p.idx (fun p => { p with phase := .dispatched, destroys := some t.q }))).destroyQueue t)
      | none => ok (s.endPacket k p.idx 0 0 0 0)
    | none => idle s) s

/-- A launch at the destroy tick (R95): its groups that are not placed are dropped. -/
def Launch.cut (l : Launch) (t : Nat) : Launch :=
  let dropped := l.shares.flatMap (fun x => x.pending.map (·.2))
  { l with destroyed := some t, done := dropped ++ l.done, shares := l.shares.map (fun x => { x with pending := [] }) }

/-- A core at the destroy tick of a launch with ABORT: its task is asked to stop, ends where it has stopped at a SAFE (R406), or is
removed where it has executed nothing. -/
def State.abortCore (s : State) (l : Launch) (k : CoreKey) : State :=
  let c := s.getCore k
  match c.task with
  | some t =>
    if t.lid ≠ l.lid ∨ t.stream = true then s
    else match c.phase with
    | .stopped _ _ _ => s.setCore { c with phase := .ending .destroy, stop := some .destroy }
    | .running =>
      if t.executed then s.setCore { c with stop := some .destroy }
      else
        let l := (s.launch l.lid).getD l
        let l := match l.share k.die with | some x => l.setShare { x with live := x.live - 1 } | none => l
        (s.setLaunch { l with done := t.tid.toNat :: l.done }).setCore c.vacate
    | _ => s
  | none => s

/-- A launch of a destroyed queue at T. The groups of a gang count as placed from its dispatch on (R95, step 3), so that without ABORT they
all run. -/
def State.cutLaunch (s : State) (t : Nat) (l : Launch) : State :=
  if l.lpb.gang && !l.lpb.abort then s.setLaunch { l with destroyed := some t } else
  let s := s.unreserve l
  let s := s.setLaunch (l.cut t)
  if l.lpb.abort then
    let s := (s.allCores.map (·.key)).foldl (fun s k => s.abortCore (l.cut t) k) s
    let mark := fun (m : Saved) => if m.lid = l.lid then { m with core := { m.core with stop := some .destroy } } else m
    { s with dies := s.dies.map (fun e => (e.1, { e.2 with saved := e.2.saved.map mark })) }
  else s

/-- A packet of queue `own` at the destroy tick: one that had not begun dispatch, or waits, retires with DESTROYED; a launch runs
out; the packet that destroys the queue stays. -/
def Packet.cut (own t : Nat) (p : Packet) : Packet :=
  match p.phase with
  | .ended _ _ _ _ => p
  | .fetched | .invalid _ => { p with phase := .ended 4 (t % 2 ^ 32) 0 0 }
  | .dispatched => if p.lid.isSome || p.destroys == some own then p else { p with phase := .ended 4 (t % 2 ^ 32) 0 0 }

/-! ### Retirement of packets (R88, R93) -/

/-- The status record and the completion signal of a packet (R88). Each of W6 and W7 is judged by itself: of a packet that one of them makes
invalid the other is still used (DESIGN CHOICE, entry 106). -/
def State.report (s : State) (k : QKey) (q : Queue) (p : Packet) (status detail ran stopped : Nat) : State :=
  let at_ := fun (i : Fin 8) (al : Nat) =>
    let va := p.bits i 55 0
    if va = 0 ∨ va % al ≠ 0 ∨ p.bits i 63 56 ≠ 0 then none else s.queuePA k q va .write (al == 8)
  let s := match at_ 6 16 with
    | some pa => s.write pa (toBytes 8 (detail % 2 ^ 32 * 2 ^ 32 + status) ++ toBytes 8 (stopped % 2 ^ 32 * 2 ^ 32 + ran % 2 ^ 32))
    | none => s
  match at_ 7 8 with
  | some pa => s.sendSig (q.source k) pa false (BitVec.ofNat 64 (p.bits 0 63 32)) none none none
  | none => s

/-- RDIDX advances past packets that have all retired (R89). -/
def advance : Nat → List Packet → Nat × List Packet
  | rd, [] => (rd, [])
  | rd, p :: r => if p.retired && p.idx == rd then advance (rd + 1) r else (rd, p :: r)

/-- How a packet ended, if it has: an invalid one ends in its turn, while the queue is active. -/
def State.packetEnd (s : State) (k : QKey) (q : Queue) (p : Packet) : Option (Nat × Nat × Nat × Nat) :=
  match p.phase with
  | .ended a b c d => some (a, b, c, d)
  | .invalid d => if (q.nextPacket.map (·.idx)) == some p.idx && s.queueActive q then some (5, d, 0, 0) else none
  | .dispatched =>
    if (p.ty == 5 && !s.sigs.any (fun m => m.pkt == some (k, p.idx) && !m.applied)) || (p.ty == 6 && q.rd == p.idx) then some (0, 0, 0, 0) else none
  | .fetched => none

/-- May the command processor send the packet's completion signal (R385)? -/
def State.signalRoom (s : State) (k : QKey) (q : Queue) (p : Packet) : Bool :=
  match (if p.bits 7 55 0 = 0 then none else s.queuePA k q (p.bits 7 55 0) .write true) with
  | some pa => s.sigRoom (q.source k) pa
  | none => true

/-- PACKET_RETIRE: packet `place.n` of the queue retires: the status record, then the signal, then RDIDX; PACKET_INVALID and
WAIT_TIMEOUT set ERR, and what was fetched behind the packet and has not begun dispatch is fetched again later (R88, R93; entry 97). -/
def execPacketRetire (s : State) : Out State :=
  withQueue (fun k q s =>
    match q.packets.find? (fun p => p.idx = s.place.n && !p.retired) with
    | none => idle s
    | some p =>
      match s.packetEnd k q p with
      | none => idle s
      | some (a, b, c, d) =>
        if s.signalRoom k q p then
          let s := s.report k q p a b c d
          let x := advance q.rd ((q.setPacket p.idx (fun p => { p with retired := true })).packets)
          let err := (a == 5 || a == 6) && s.queueActive q
          let q := { q with rd := x.1, packets := x.2, state := if err then 1 else q.state }
          let q := if err then q.dropBehind p.idx else q
          let s := (s.setQueue k q).writeWord (q.descPA + 16) (BitVec.ofNat 64 q.rd)
          ok (if err then s.writeWord (q.descPA + 32) (queueWord4 1 a p.idx) else s)
        else idle s) s

/-- Has everything of a destroyed queue retired, but for the packet that destroys it? -/
def State.queueEmpty (s : State) (k : QKey) (q : Queue) : Bool :=
  q.packets.all (fun p => p.retired || p.destroys == some k.q) && !s.launches.any (fun l => l.q == k)

/-- DESTROY_TICK: at T the queue's groups and packets end as R95 says; and once all of them have retired, STATE becomes destroyed,
the number is free, and the destroy packet retires. RDIDX does not move past a destroy packet that lies in its own queue (DESIGN CHOICE,
entry 106). -/
def execDestroyTick (s : State) : Out State :=
  withQueue (fun k q s =>
    match q.destroyAt with
    | none => idle s
    | some t =>
      if q.state = 2 ∧ t ≤ s.tick then
        let s := s.setQueue k { q with state := 3, packets := q.packets.map (Packet.cut k.q t), part := [] }
        ok ((s.launches.filter (fun l => l.q = k)).foldl (fun s l => s.cutLaunch t l) s)
      else if q.state = 3 ∧ s.queueEmpty k q ∧ q.packets.all (fun p => p.retired || s.signalRoom k q p) = true then
        let s := q.setState 3 s
        let own := q.packets.find? (fun p => p.destroys == some k.q && !p.retired)
        let s := match own with | some p => s.report k q p 0 0 0 0 | none => s
        let s := { s with queues := adel s.queues k }
        let fin := fun (x : QKey × Queue) =>
          if x.1.pkg = k.pkg then
            (x.1, { x.2 with packets := x.2.packets.map (fun p => if p.destroys = some k.q ∧ p.phase = .dispatched then { p with phase := .ended 0 0 0 0 } else p) })
          else x
        ok { s with queues := s.queues.map fin }
      else idle s) s

end Sys2Proof.Machine
end

