-- ==== Sys2Proof/Machine/HostPort.lean ====
section
/-! DEFINITION. The host: the event queue in host memory (R414, R415), host requests (R417), the fabric ports of a package
(R332), and the test access port (R426). -/

namespace Sys2Proof.Machine

/-! ### The event queue (R414, R415) -/

/-- LOG2S of the event queue's descriptor at pa (Table 16.1); a value that is not listed acts as zero (R15). -/
def State.eqLog2s (s : State) (pa : Nat) : Nat := let n := bits (s.num (pa + 24) 8) 4 0; if 6 ≤ n ∧ n ≤ 16 then n else 0
/-- WRIDX and the room left. -/
def State.eqIndex (s : State) (pa : Nat) : Nat := s.num (pa + 16) 8
def State.eqRoom (s : State) (pa : Nat) : Bool := decide ((s.eqIndex pa + 2 ^ 64 - s.num (pa + 8) 8) % 2 ^ 64 < 2 ^ s.eqLog2s pa)

/-- Write one event record: W1 to W7, then W0 with its lap code, then WRIDX; then LOST, and the interrupt (R415). -/
def State.writeEvent (s : State) (pa : Nat) (e : Vector Word 8) : State :=
  let n := s.eqLog2s pa
  let i := s.eqIndex pa
  let slot := bits (s.num pa 8) 55 0 + 64 * (i % 2 ^ n)
  let w3 := s.num (pa + 24) 8
  let s := [1, 2, 3, 4, 5, 6, 7].foldl (fun s (j : Fin 8) => s.writeWord (slot + 8 * j.val) (e.get j)) s
  let s := s.writeWord slot (putBits (e.get 0) 7 0 (lapCode n i))
  let s := s.writeWord (pa + 16) (BitVec.ofNat 64 (i + 1))
  let s := s.writeWord (pa + 24) (putBits (BitVec.ofNat 64 w3) 63 32 s.eventq.lost)
  if bitAt w3 8 then { s with eventq := { s.eventq with msix := s.eventq.msix ++ [BitVec.ofNat 16 (bits w3 31 16)] } } else s

/-- EVENT_POST: the bridge module's active complex writes the oldest event in the buffer to the queue, once it has room; an OVERFLOW event
comes first. -/
def execEventPost (s : State) : Out State :=
  match s.eventq.desc, s.eventq.buffer with
  | some pa, e :: r =>
    if s.managed s.bridge && s.eqRoom pa && !s.eventq.overflow then ok ({ s with eventq := { s.eventq with buffer := r } }.writeEvent pa e)
    else idle s
  | _, _ => idle s

/-- OVERFLOW: events were dropped; when room returns, an OVERFLOW event goes ahead of those in the buffer. -/
def execOverflow (s : State) : Out State :=
  match s.eventq.desc with
  | some pa =>
    if s.managed s.bridge && s.eqRoom pa && s.eventq.overflow then
      let e := eventRecord 10 ⟨s.bridge, 0, 0⟩ s.tick [BitVec.ofNat 64 s.eventq.lost]
      ok ({ s with eventq := { s.eventq with overflow := false } }.writeEvent pa e)
    else idle s
  | none => idle s

/-! ### Host requests (R417) -/

/-- Does the device serve a host request for n bytes at pa: die scratchpad of a package present, which the host reaches through port 0
of the bridge module, and beyond that module through the fabric? -/
def State.hostServes (s : State) (pa n : Nat) : Bool :=
  let p := paPkg pa
  validPA pa && paSpace pa == 0 && decide (1 ≤ n) && decide (paOff pa + n ≤ spaceSize 0) && s.present p && s.hostUp
    && (p == s.bridge || (s.fabricUp s.bridge && s.fabricUp p))

/-- A host request: served with a reply, or refused without effect and completed as a completer abort. -/
def hostRequest (pa n : Nat) (m : State → State × HostReply) (s : State) : Out State :=
  if s.hostServes pa n then
    let r := m s
    ok { r.1 with hostReply := r.2 }
  else ok { s with hostReply := .abort }

/-- HOST_READ (R417), through the forwarding pairs (R337). -/
def execHostRead (pa : BitVec 56) (n : Nat) (s : State) : Out State :=
  hostRequest pa.toNat n (fun s => (s, .data ((List.range n).map (fun i => s.readByte (pa.toNat + i))))) s

/-- A posted write of 64 aligned bytes is one write (R92). -/
def freshSlotsOf (pa n : Nat) (s : State) : State := if pa % 64 = 0 ∧ n = 64 then s.freshSlots ((List.range 64).map (pa + ·)) else s

/-- HOST_POSTED_WRITE (R417): performed in arrival order. -/
def execHostPostedWrite (pa : BitVec 56) (bs : List Byte) (s : State) : Out State :=
  hostRequest pa.toNat bs.length (fun s =>
    (freshSlotsOf pa.toNat bs.length (s.write pa.toNat bs), .done)) s

/-- An 8-byte atomic of the host: aligned, and answered with the old value. -/
def hostAtomic (pa : Nat) (f : Word → Word) (s : State) : Out State :=
  hostRequest pa (if pa % 8 = 0 then 8 else 0) (fun s =>
    let old := s.word pa
    (s.writeWord pa (f old), .data (toBytes 8 old.toNat))) s

/-- HOST_FETCHADD: performed as AADD (R417). -/
def execHostFetchadd (pa : BitVec 56) (v : Word) (s : State) : Out State := hostAtomic pa.toNat (· + v) s

/-- HOST_COMPARE_AND_SWAP: performed as ACAS (R417). -/
def execHostCompareAndSwap (pa : BitVec 56) (cmp new : Word) (s : State) : Out State :=
  hostAtomic pa.toNat (fun old => if old = cmp then new else old) s

/-! ### Fabric ports (R332) -/

/-- Set the fabric ports of the package at `place.core`: with `place.n` 1 port 0, with 2 port 1, else both (R25). -/
def setPorts (on : Bool) (s : State) : State :=
  let p := s.getPkg s.place.core.pkg
  s.setPkg { p with port0 := if s.place.n = 2 then p.port0 else on, port1 := if s.place.n = 1 then p.port1 else on }

/-- FABRIC_PORT_LOSS: the package at `place.core` loses a fabric port, or both: without a port it is unreachable. -/
def execFabricPortLoss (s : State) : Out State := ok (setPorts false s)
/-- FABRIC_PORT_RETURN: they work again. -/
def execFabricPortReturn (s : State) : Out State := ok (setPorts true s)

/-! ### Test access (R426) -/

/-- TEST_ENABLE_STRAP: the module's strap, which attestation reports as TAPEN. -/
def execTestEnableStrap (on : Bool) (s : State) : Out State := ok (s.setPkg { s.getPkg s.place.core.pkg with tapen := on })

/-- A test access instruction: the port responds only while the strap is set. -/
def testAccess (m : Package → Package) (s : State) : Out State :=
  let p := s.getPkg s.place.core.pkg
  ok (if p.tapen then s.setPkg (m p) else s)

/-- BYPASS: the one-bit bypass register, which captures 0. -/
def execBypass (s : State) : Out State := testAccess (fun p => { p with tapIr := .bypass, tapDr := 0 }) s

/-- The boundary register takes a sample of the pins: a free value (entry 24). -/
def Package.sample (p : Package) (ir : TapIr) : Package :=
  { p with tapIr := ir, tapDr := Config.pins p.pkg p.samples, samples := p.samples + 1 }

/-- SAMPLE/PRELOAD: the boundary register takes a sample; the package runs on undisturbed. -/
def execSamplePreload (s : State) : Out State := testAccess (·.sample .samplePreload) s

/-- EXTEST: accepted only while the package is held in reset. -/
def execExtest (s : State) : Out State := testAccess (fun p => if p.inReset then p.sample .extest else p) s

/-- IDCODE (R426). -/
def idcodeValue : Half := BitVec.ofNat 32 (0xA530 * 2 ^ 12 + Config.jedec.toNat * 2 + 1)

/-- IDCODE: the identification register. -/
def execIdcode (s : State) : Out State := testAccess (fun p => { p with tapIr := .idcode, tapDr := idcodeValue }) s

end Sys2Proof.Machine
end

