-- ==== Sys2Proof/Machine/Integer.lean ====
section
/-! DEFINITION. Integer, bitfield, compare and predicate words (R183 to R189). Each computes its result from the registers
it names and writes it under R181. -/

namespace Sys2Proof.Machine

/-- A word that writes a value of the core's registers to g[d]. -/
def alu (d : GReg) (f : Core → Word) (s : State) : Out State := setG d (f s.core) s

/-- A word that writes a truth value to p[d]. -/
def setP (d : PReg) (f : Core → Bool) (s : State) : Out State := retireWith (fun c => c.wp d (f c)) s

/-- NOP: the advance of the pc (R153). -/
def execNop  (s : State) : Out State :=
  ok s.retire

/-- ADD (Table 8.2). -/
def execAdd (d a b : GReg) (s : State) : Out State :=
  alu d (fun c => c.rd a + c.rd b) s

/-- SUB (Table 8.2). -/
def execSub (d a b : GReg) (s : State) : Out State :=
  alu d (fun c => c.rd a - c.rd b) s

/-- MUL (Table 8.2). -/
def execMul (d a b : GReg) (s : State) : Out State :=
  alu d (fun c => c.rd a * c.rd b) s

/-- MULHS (Table 8.2). -/
def execMulhs (d a b : GReg) (s : State) : Out State :=
  alu d (fun c => mulHighS (c.rd a) (c.rd b)) s

/-- MULHN (Table 8.2). -/
def execMulhn (d a b : GReg) (s : State) : Out State :=
  alu d (fun c => mulHighN (c.rd a) (c.rd b)) s

/-- DIVS (R184) (Table 8.2). -/
def execDivs (d a b : GReg) (s : State) : Out State :=
  alu d (fun c => divS (c.rd a) (c.rd b)) s

/-- DIVN (R184) (Table 8.2). -/
def execDivn (d a b : GReg) (s : State) : Out State :=
  alu d (fun c => divN (c.rd a) (c.rd b)) s

/-- REMS (R184) (Table 8.2). -/
def execRems (d a b : GReg) (s : State) : Out State :=
  alu d (fun c => remOf (divS (c.rd a) (c.rd b)) (c.rd a) (c.rd b)) s

/-- REMN (R184) (Table 8.2). -/
def execRemn (d a b : GReg) (s : State) : Out State :=
  alu d (fun c => remOf (divN (c.rd a) (c.rd b)) (c.rd a) (c.rd b)) s

/-- AND (Table 8.2). -/
def execAnd (d a b : GReg) (s : State) : Out State :=
  alu d (fun c => c.rd a &&& c.rd b) s

/-- OR (Table 8.2). -/
def execOr (d a b : GReg) (s : State) : Out State :=
  alu d (fun c => c.rd a ||| c.rd b) s

/-- XOR (Table 8.2). -/
def execXor (d a b : GReg) (s : State) : Out State :=
  alu d (fun c => c.rd a ^^^ c.rd b) s

/-- ANDN (Table 8.2). -/
def execAndn (d a b : GReg) (s : State) : Out State :=
  alu d (fun c => c.rd a &&& ~~~(c.rd b)) s

/-- SHL (Table 8.2). -/
def execShl (d a b : GReg) (s : State) : Out State :=
  alu d (fun c => c.rd a <<< shiftCount (c.rd b)) s

/-- SHRL (Table 8.2). -/
def execShrl (d a b : GReg) (s : State) : Out State :=
  alu d (fun c => c.rd a >>> shiftCount (c.rd b)) s

/-- SHRA (Table 8.2). -/
def execShra (d a b : GReg) (s : State) : Out State :=
  alu d (fun c => (c.rd a).sshiftRight (shiftCount (c.rd b))) s

/-- ROTL (Table 8.2). -/
def execRotl (d a b : GReg) (s : State) : Out State :=
  alu d (fun c => (c.rd a).rotateLeft (shiftCount (c.rd b))) s

/-- MINS (Table 8.2). -/
def execMins (d a b : GReg) (s : State) : Out State :=
  alu d (fun c => if (c.rd a).slt (c.rd b) then c.rd a else c.rd b) s

/-- MINN (Table 8.2). -/
def execMinn (d a b : GReg) (s : State) : Out State :=
  alu d (fun c => if (c.rd a).ult (c.rd b) then c.rd a else c.rd b) s

/-- MAXS (Table 8.2). -/
def execMaxs (d a b : GReg) (s : State) : Out State :=
  alu d (fun c => if (c.rd a).slt (c.rd b) then c.rd b else c.rd a) s

/-- MAXN (Table 8.2). -/
def execMaxn (d a b : GReg) (s : State) : Out State :=
  alu d (fun c => if (c.rd a).ult (c.rd b) then c.rd b else c.rd a) s

/-- CLZ (Table 8.2). -/
def execClz (d a : GReg) (s : State) : Out State :=
  alu d (fun c => BitVec.ofNat 64 (clz64 (c.rd a))) s

/-- CTZ (Table 8.2). -/
def execCtz (d a : GReg) (s : State) : Out State :=
  alu d (fun c => BitVec.ofNat 64 (ctz64 (c.rd a))) s

/-- POPC (Table 8.2). -/
def execPopc (d a : GReg) (s : State) : Out State :=
  alu d (fun c => BitVec.ofNat 64 (popc64 (c.rd a))) s

/-- SEXT (Table 8.2). -/
def execSext (d a : GReg) (n : Fin 64) (s : State) : Out State :=
  alu d (fun c => sextLow (n.val + 1) (c.rd a)) s

/-- SEL (Table 8.2). -/
def execSel (d a b : GReg) (q : PReg) (s : State) : Out State :=
  alu d (fun c => if c.rp q then c.rd a else c.rd b) s

/-- BFXS (R186). -/
def execBfxs (d a : GReg) (lo w : Fin 64) (s : State) : Out State :=
  alu d (fun c => sextLow (w.val + 1) (BitVec.ofNat 64 (field (c.rd a) lo.val w.val))) s

/-- BFXN (R186). -/
def execBfxn (d a : GReg) (lo w : Fin 64) (s : State) : Out State :=
  alu d (fun c => BitVec.ofNat 64 (field (c.rd a) lo.val w.val)) s

/-- BFI (R186). -/
def execBfi (d a : GReg) (lo w : Fin 64) (s : State) : Out State :=
  alu d (fun c => putBits (c.rd d) (lo.val + w.val) lo.val (c.rd a).toNat) s

/-- CMPEQ (R188). -/
def execCmpeq (d : PReg) (a b : GReg) (s : State) : Out State :=
  setP d (fun c => c.rd a == c.rd b) s

/-- CMPNE (R188). -/
def execCmpne (d : PReg) (a b : GReg) (s : State) : Out State :=
  setP d (fun c => c.rd a != c.rd b) s

/-- CMPLTS (R188). -/
def execCmplts (d : PReg) (a b : GReg) (s : State) : Out State :=
  setP d (fun c => (c.rd a).slt (c.rd b)) s

/-- CMPLES (R188). -/
def execCmples (d : PReg) (a b : GReg) (s : State) : Out State :=
  setP d (fun c => (c.rd a).sle (c.rd b)) s

/-- CMPLTN (R188). -/
def execCmpltn (d : PReg) (a b : GReg) (s : State) : Out State :=
  setP d (fun c => (c.rd a).ult (c.rd b)) s

/-- CMPLEN (R188). -/
def execCmplen (d : PReg) (a b : GReg) (s : State) : Out State :=
  setP d (fun c => (c.rd a).ule (c.rd b)) s

/-- ADDI (Table 8.3). -/
def execAddi (d a : GReg) (i : BitVec 32) (s : State) : Out State :=
  alu d (fun c => c.rd a + sext32 i) s

/-- ANDI (Table 8.3). -/
def execAndi (d a : GReg) (i : BitVec 32) (s : State) : Out State :=
  alu d (fun c => c.rd a &&& sext32 i) s

/-- ORI (Table 8.3). -/
def execOri (d a : GReg) (i : BitVec 32) (s : State) : Out State :=
  alu d (fun c => c.rd a ||| i.zeroExtend 64) s

/-- XORI (Table 8.3). -/
def execXori (d a : GReg) (i : BitVec 32) (s : State) : Out State :=
  alu d (fun c => c.rd a ^^^ i.zeroExtend 64) s

/-- SHLI (Table 8.3). -/
def execShli (d a : GReg) (n : Fin 64) (s : State) : Out State :=
  alu d (fun c => c.rd a <<< n.val) s

/-- MOVI (Table 8.3). -/
def execMovi (d : GReg) (i : BitVec 32) (s : State) : Out State :=
  alu d (fun _ => sext32 i) s

/-- MOVH (Table 8.3). -/
def execMovh (d : GReg) (i : BitVec 32) (s : State) : Out State :=
  alu d (fun c => (i.zeroExtend 64 <<< 32) ||| ((c.rd d).truncate 32).zeroExtend 64) s

/-- LEA (R187). -/
def execLea (d a b : GReg) (k : Fin 8) (off : BitVec 16) (s : State) : Out State :=
  alu d (fun c => c.rd a + (c.rd b <<< k.val) + sext16 off) s

/-- PAND (R189). -/
def execPand (d a b : PReg) (s : State) : Out State :=
  setP d (fun c => c.rp a && c.rp b) s

/-- POR (R189). -/
def execPor (d a b : PReg) (s : State) : Out State :=
  setP d (fun c => c.rp a || c.rp b) s

/-- PXOR (R189). -/
def execPxor (d a b : PReg) (s : State) : Out State :=
  setP d (fun c => c.rp a != c.rp b) s

/-- PNOT (R189). -/
def execPnot (d a : PReg) (s : State) : Out State :=
  setP d (fun c => !c.rp a) s

/-- PRSAVE (R189). -/
def execPrsave (d : GReg) (s : State) : Out State :=
  alu d (fun c => (c.p ||| 1).zeroExtend 64) s

/-- PRLOAD (R189). -/
def execPrload (a : GReg) (s : State) : Out State :=
  retireWith (fun c => { c with p := (c.rd a).truncate 8 ||| 1 }) s

end Sys2Proof.Machine
end

