-- ==== Sys2Proof/Machine/Track.lean ====
section
/-! DEFINITION. Track ports: flits and their CRC (R120, R121), receiving, replay and link failure (R122, R123), sending and
the occupancy counters (R126, R140), XSEND (R324). -/

namespace Sys2Proof

/-! ### Flits (Table 6.2) -/

/-- A flit with every flag clear and no payload. -/
def Flit.blank : Flit :=
  { seq := 0, tag := 0, first := false, last := false, idle := false, ctrl := false, hole := false, reinj := false, replay := false
    len := 0, offset := 0, late := 0, shbytes := 0, crc := 0, ticklo := 0, payload := [] }

/-- Header word 1. -/
def Flit.w1 (f : Flit) : Nat :=
  let b := fun (x : Bool) (i : Nat) => if x then 2 ^ i else 0
  b f.first 63 + b f.last 62 + b f.idle 61 + b f.ctrl 60 + b f.hole 59 + b f.reinj 58 + b f.replay 57 + f.len.toNat * 2 ^ 40
    + f.offset.toNat

/-- Header bytes 0 to 27. -/
def Flit.header (f : Flit) : List Byte :=
  toBytes 8 (f.seq.toNat * 2 ^ 32 + f.tag.toNat) ++ toBytes 8 f.w1 ++ toBytes 8 (f.late.toNat * 2 ^ 40 + f.shbytes.toNat)
    ++ toBytes 4 f.ticklo.toNat

/-- The 480 payload bytes: those beyond the payload are zero. -/
def Flit.body (f : Flit) : List Byte := (f.payload ++ List.replicate 480 0).take 480

/-- The CRC that the flit should carry (R121). -/
def Flit.goodCrc (f : Flit) : BitVec 32 := BitVec.ofNat 32 (crc32c (f.header ++ f.body))

/-- The flit as it leaves: TICKLO and CRC set. -/
def Flit.stamp (f : Flit) (tick : Nat) : Flit :=
  let f := { f with ticklo := BitVec.ofNat 32 tick }
  { f with crc := f.goodCrc }

/-- An IDLE flit. -/
def Flit.idleOne : Flit := { Flit.blank with idle := true }
/-- A HOLE flit. -/
def Flit.holeOne : Flit := { Flit.blank with hole := true }
/-- A CTRL flit (R123): its code, and the sequence number in payload bytes 8 to 11. Table 6.2 gives LEN for payloads only: the model sends 12
here and 0 in IDLE and HOLE flits (DESIGN CHOICE, entry 108). -/
def Flit.ctrlOne (code : Nat) (seq : BitVec 32) : Flit :=
  { Flit.blank with ctrl := true, len := 12, payload := BitVec.ofNat 8 code :: List.replicate 7 0 ++ toBytes 4 seq.toNat }
/-- Does a flit carry a shard's bytes? -/
def Flit.isShard (f : Flit) : Bool := f.tag != 0

end Sys2Proof

namespace Sys2Proof.Machine

/-! ### Ports -/

/-- The port of a die: upstream or downstream. -/
def Die.port (d : Die) (up : Bool) : Port := if up then d.up else d.down
/-- Replace a port. -/
def Die.setPort (d : Die) (up : Bool) (p : Port) : Die := if up then { d with up := p } else { d with down := p }
/-- A flit waits in a port. -/
def Port.push (p : Port) (f : Flit) : Port := { p with queue := p.queue ++ [(f, none)] }

/-- A port declares its link failed (R122, R141): LFAIL is set, and the die requests a ring stall. -/
def State.failLink (s : State) (k : DieKey) (up : Bool) : State :=
  let d := s.getDie k
  let d := { (d.setPort up { d.port up with failed := true }) with rtrk := d.rtrk ||| 1 }
  (s.setDie d).requestStall k

/-! ### Receiving -/

/-- The die whose upstream port is joined to the downstream port of a die (R324). -/
def State.downDie (s : State) (k : DieKey) : Option DieKey := (s.dies.find? (fun e => s.upDie e.1 == some k)).map (·.1)

/-- The XSEND record that ends with the flit numbered seq, sent by die k upstream, is done (R324). -/
def State.endXsend (s : State) (k : DieKey) (seq : BitVec 32) : State :=
  let d := s.getDie k
  match d.up.owners.find? (fun o => o.1 = seq) with
  | some o =>
    let s := s.setDie { d with up := { d.up with owners := d.up.owners.filter (fun x => x.1 ≠ seq) } }
    s.updRun o.2.1 o.2.2 (fun r => { r with done := true })
  | none => s

/-- The core whose XSEND sends the data that arrives next from die k: of the records whose flits are on their way, the first. -/
def Die.sender (d : Die) : Option CoreKey := ((d.up.owners.map (·.2.1)) ++ d.up.queue.filterMap (fun x => x.2.map (·.1))).head?

/-- XSEND data arrives at its destination: the payload is written at W2[39:0] of the die's scratchpad (R324), directly (R311). -/
def receiveData (k : DieKey) (f : Flit) (s : State) : State :=
  let pa := mkPA k.pkg k.die 0 (f.shbytes.toNat % spaceSize 0)
  let bs := f.body.take (min f.len.toNat 480)
  let s := (match (s.downDie k).bind (fun n => (s.getDie n).sender) with | some c => s.veil c pa bs.length | none => s).write pa bs
  if f.last then match s.downDie k with | some n => s.endXsend n f.seq | none => s else s

/-- The dwell of a shard with scheduled arrival t on a die: 4,096 in transit (R143); else RPACE.DWELL, or, for an arrival scheduled
before the last repair tick, the dwell in force then (R125, R147). -/
def Die.dwellAt (d : Die) (t : Nat) : Nat :=
  if d.transit then 4096 else match d.dwellWas with | some (c, n) => if t < c then n else d.dwell | none => d.dwell

/-- A shard whose first flit has arrived takes its place at the head (R126, R128). -/
def State.newShard (s : State) (d : Die) (tag : Half) (bytes late : Nat) (reinj : Bool) : Die × Shard :=
  let base := (d.head + 63) / 64 * 64
  let t := s.pacedNow - late
  let x : Shard := { id := base, tag := tag, base := base, bytes := bytes, region := s.diePA d d.carva.toNat, got := [], sent := []
                     arrival := t, deadline := t + d.dwellAt t, late := 0, pins := 0, resv := false, formed := false, batches := []
                     arrNo := d.arrivals, bound := d.binding, reinj := reinj }
  ({ d with head := base, arrivals := d.arrivals + 1, shards := dropPassed d.shards ++ [x] }, x)

/-- The arriving shard takes flit i (R122, R128): the head advances by 480 bytes, at its end to the end of the footprint. -/
def Shard.take (x : Shard) (i : Nat) : Shard := if x.got.contains i then x else { x with got := x.got ++ [i] }

/-- Does the partner of a failed die carry its track (R143)? -/
def State.carried (s : State) (k : DieKey) : Bool :=
  s.ring.failedDies.contains k && (s.getDie ⟨k.pkg, k.die ^^^ 1⟩).carries

/-- A shard flit arrives at the upstream port (R122, R126, R128). A flit that is passed on is no resend of this die's. A die without a carousel passes it through; on the track of a
failed die, which its partner carries, it passes after the fixed dwell (R143). -/
def receiveShard (k : DieKey) (f : Flit) (s : State) : State :=
  let d := s.getDie k
  if s.carried k then s.setDie { d with through := d.through ++ [(s.pacedNow + 4096, { f with replay := false })] }
  else if d.upsrc = 3 || s.ring.failedDies.contains k then s
  else if !d.enabled then s.setDie { d with through := d.through ++ [(0, { f with replay := false })] }
  else
    let (d, x) := match d.shards.find? (fun x => x.tag == f.tag && !x.complete) with
      | some x => (d, x)
      | none => s.newShard d f.tag f.shbytes.toNat f.late.toNat f.reinj
    let y := x.take (f.offset.toNat / 480)
    let bs := (f.body.take (min f.len.toNat 480)).zipIdx.map (fun e => (y.pa d.size (f.offset.toNat + e.2), e.1))
    let head := max d.head (if y.complete then y.base + y.footprint else y.base + 480 * y.got.length)
    let d := { d with head := head, shards := d.shards.map (fun z => if z.id = x.id then y else z)
                      lastRecv := if y.complete then y.tag else d.lastRecv }
    ((s.setDie d).perform bs).checkSpace k

/-- A HOLE flit arrives at paced count t: the first of its slot opens the slot for an injection (R149). -/
def Die.takeHole (d : Die) (t : Nat) : Die :=
  match d.holeFrom with
  | some h => if t < h + d.fps + d.svc then d else { d with holeFrom := some t, holeAt := some t }
  | none => { d with holeFrom := some t, holeAt := some t }

/-- What an accepted flit does: one with a good CRC and the successor's SEQ, which alone counts as valid against the silence of 1,024 link
cycles (R122; DESIGN CHOICE, entry 108). -/
def acceptFlit (k : DieKey) (up : Bool) (f : Flit) (s : State) : State :=
  let d := s.getDie k
  let d := d.setPort up { d.port up with rxSeq := f.seq, lastRx := s.linkCycle }
  let s := s.setDie d
  if f.ctrl then
    let code := (f.body.getD 0 0).toNat
    let arg := BitVec.ofNat 32 (ofBytes ((f.body.drop 8).take 4))
    if 1 ≤ code ∧ code ≤ 3 then s.setDie (d.setPort up { d.port up with ctrl := (d.port up).ctrl ++ [(code, arg)] })
    else s.setDie d.countReplay
  else if f.idle then s
  else if f.hole then (if up then s.setDie (d.takeHole s.pacedNow) else s)
  else if f.isShard then (if up then receiveShard k f s else s)
  else if up then s else receiveData k f s

/-- FLIT_RECEIVE: a port of the die takes flit f. A bad CRC or an unexpected SEQ discards it and asks for a replay (R122). -/
def execFlitReceive (up : Bool) (f : Flit) (s : State) : Out State :=
  let k := s.place.core.dieKey
  let d := s.getDie k
  let p := d.port up
  if f.crc == f.goodCrc && f.seq == p.rxSeq + 1 then ok (acceptFlit k up f s)
  else ok (s.setDie (d.setPort up (p.push (Flit.ctrlOne 1 (p.rxSeq + 1)))))

/-- Take a control request of a code out of a port. -/
def takeCtrl (up : Bool) (q : Nat × BitVec 32 → Bool) (m : Die → Port → Out State) (s : State) : Out State :=
  let d := s.getDie s.place.core.dieKey
  let p := d.port up
  match p.ctrl.find? q with
  | some e => m d { p with ctrl := p.ctrl.erase e }
  | none => idle s

/-- FLIT_REPLAY: a replay request naming seq has been received: every flit from it on, of those kept, is sent again; those
before it have been accepted (R122). -/
def execFlitReplay (up : Bool) (seq : BitVec 32) (s : State) : Out State :=
  takeCtrl up (fun e => e == (1, seq)) (fun d p =>
    let again := (p.sent.filter (fun f => decide ((f.seq - seq).toNat < 2 ^ 31))).map (·.seq)
    ok (s.setDie (d.setPort up { p with
      resend := again, tries := p.tries.filter (fun t => decide ((t.1 - seq).toNat < 2 ^ 31)) }))) s

/-- Modules that carry the ring in transit. -/
def State.transits (s : State) : List Nat := (s.ring.failedDies.map (·.pkg)).eraseDups

/-- The dwells of a ring with failed and transit modules (R125, R147): floor(ROT′/N′) less the latency of the hop; the remainder
goes to the bridge module. -/
def State.dwellsFor (s : State) (failed transit : List Nat) : List (DieKey × BitVec 32) :=
  let d0 := s.getDie ⟨s.bridge, 0⟩
  let n := s.modules - failed.length - transit.length
  let hop := fun (k : DieKey) => (s.getDie k).down.latency
  let rot := d0.seg * (d0.fps + d0.svc) - transit.foldl (fun t p => t + 4096 + hop ⟨p, 0⟩) 0
  if n = 0 then []
  else
    let live := (List.range s.modules).filter (fun p => !failed.contains p && !transit.contains p)
    live.flatMap (fun p => (List.range 8).map (fun d =>
      let k : DieKey := ⟨p, d⟩
      (k, BitVec.ofNat 32 (rot / n - hop k + (if p = s.bridge then rot - n * (rot / n) else 0)))))

/-- The dies take their dwells, for shards scheduled to arrive from paced count c on (R147). -/
def State.setDwells (s : State) (c : Nat) (l : List (DieKey × BitVec 32)) : State :=
  l.foldl (fun s e =>
    let d := s.getDie e.1
    s.setDie { d with rpace := putBits d.rpace 31 0 e.2.toNat, dwellWas := some (c, d.dwell) }) s

/-- LATENCY_PROBE: a probe is answered with an echo on the opposite direction of the same link (R123). -/
def execLatencyProbe (up : Bool) (s : State) : Out State :=
  takeCtrl up (fun e => e.1 == 2) (fun d p => ok (s.setDie (d.setPort up (p.push (Flit.ctrlOne 3 0))))) s

/-- The time between a probe and its echo gives the hop latency, half of it (entry 16); the one to the next module gives the die its
dwell (R125). -/
def State.measured (s : State) (d : Die) (up : Bool) (p : Port) (t : Nat) : State :=
  let s := s.setDie (d.setPort up { p with probeAt := none, latency := (s.linkCycle - t) / 2 })
  if up then s
  else s.setDwells s.pacedNow ((s.dwellsFor s.ring.failedPkgs s.transits).filter (fun e => e.1 == d.key))

/-- PROBE_ECHO: an echo arrives (R123, R125). -/
def execProbeEcho (up : Bool) (s : State) : Out State :=
  takeCtrl up (fun e => e.1 == 3) (fun d p =>
    ok (match p.probeAt with
      | some t => s.measured d up p t
      | none => s.setDie (d.setPort up p))) s

/-- LINK_FAIL_RESENDS: some flit has been resent 16 times without acceptance (R122). -/
def execLinkFailResends (up : Bool) (s : State) : Out State :=
  let p := (s.getDie s.place.core.dieKey).port up
  if !p.failed && p.tries.any (fun t => decide (16 ≤ t.2)) then ok (s.failLink s.place.core.dieKey up)
  else idle s

/-- LINK_FAIL_SILENCE: 1,024 link cycles have passed without a valid flit (R122). -/
def execLinkFailSilence (up : Bool) (s : State) : Out State :=
  let p := (s.getDie s.place.core.dieKey).port up
  if !p.failed && decide (p.lastRx + 1024 ≤ s.linkCycle) then ok (s.failLink s.place.core.dieKey up)
  else idle s

/-! ### Sending (R126, R140) -/

/-- Link cycles that a port has sent in since the die's reset. -/
def Die.occSum (d : Die) (up : Bool) : Nat := (if up then d.occu else d.occd).toList.foldl (fun n w => n + w.toNat) 0
/-- The link cycle in which a port sends next. -/
def Die.sendCycle (d : Die) (up : Bool) : Nat := d.since + d.occSum up

/-- Count a link cycle (Table 6.14): 0 SHARD, 1 XDATA, 2 CTRL, 3 REPLAY, 4 HOLE, 5 IDLE, 6 STALL, 7 STEP. -/
def Die.count (d : Die) (up : Bool) (n : Fin 8) : Die :=
  if up then { d with occu := d.occu.set n.val (d.occu.get n + 1) } else { d with occd := d.occd.set n.val (d.occd.get n + 1) }

/-- Send a new flit: it takes the port's next SEQ; the port keeps its last 1,024 (R120, R122). -/
def Die.sendNew (d : Die) (up : Bool) (f : Flit) (owner : Option (CoreKey × Nat)) (tick : Nat) : Die :=
  let p := d.port up
  let f := { f with seq := p.txSeq }.stamp tick
  let all := p.sent ++ [f]
  d.setPort up { p with
    txSeq := p.txSeq + 1, sent := all.drop (all.length - 1024)
    owners := match owner with | some o => p.owners ++ [(f.seq, o)] | none => p.owners }

/-- Resend a kept flit, marked REPLAY. -/
def Die.sendAgain (d : Die) (up : Bool) (seq : BitVec 32) (f : Flit) (tick : Nat) : Die :=
  let p := d.port up
  let g := { f with replay := true }.stamp tick
  d.countReplay.setPort up { p with
    resend := p.resend.filter (· ≠ seq), sent := p.sent.map (fun x => if x.seq = seq then g else x)
    tries := aput p.tries seq (((aget p.tries seq).getD 0) + 1) }

/-- The flit that carries flit i of a shard (R120). -/
def State.shardFlit (s : State) (d : Die) (x : Shard) (i : Nat) : Flit :=
  let len := min 480 (x.bytes - 480 * i)
  { Flit.blank with
    tag := x.tag, first := i == 0, last := i + 1 == x.flits, reinj := x.reinj, len := BitVec.ofNat 16 len, offset := BitVec.ofNat 40 (480 * i)
    late := BitVec.ofNat 24 x.late, shbytes := BitVec.ofNat 40 x.bytes
    payload := (List.range len).map (fun j => s.byte (x.pa d.size (480 * i + j))) }

/-- The next flit of a shard that is held and has not been sent, in OFFSET order (R126). -/
def Shard.nextFlit (x : Shard) : Option Nat := (List.range x.flits).find? (fun i => x.got.contains i && !x.sent.contains i)

/-- May the downstream port of a die, or the partner's for the track that it carries, send shard flits now (R141, R143)? -/
def State.shardsMove (s : State) (d : Die) : Bool :=
  !d.down.failed && !s.ring.downNow && (s.carried d.key || (!d.stopped && !d.halted && d.dndst != 3))

/-- Has the tick of a stall been reached in link cycle c, the stall not yet having begun (R137)? -/
def Die.stallDue (d : Die) (c : Nat) : Bool := d.stallReq.any (fun t => decide (8 * t ≤ c))

/-- The flit that is passed through next: none of another shard once a stall is due. -/
def Die.throughDue (d : Die) (c paced : Nat) : Option (Flit × List (Nat × Flit)) :=
  match d.through with
  | t :: r => if t.1 ≤ paced && !(t.2.first && d.stallDue c) then some (t.2, r) else none
  | [] => none

/-- Is the current slot one that holds no shard (R145, R149)? From the departure of a shard its slot lasts FPS + SVC paced
link cycles; of each later slot the first FPS carry HOLE flits. -/
def Die.holeSlot (d : Die) (paced : Nat) : Bool :=
  d.enabled && decide (0 < d.fps) &&
    match d.slotFrom with
    | some t => decide (t + d.fps + d.svc ≤ paced) && decide ((paced - t) % (d.fps + d.svc) < d.fps)
    | none => decide (paced % (d.fps + d.svc) < d.fps)

/-- Does a slot begin at a paced count (R124, R143, R145)? -/
def Die.slotStart (d : Die) (paced : Nat) : Bool :=
  let n := d.fps + d.svc
  match d.slotFrom with
  | some t => decide (t + n ≤ paced) && (paced - t) % n == 0
  | none => paced % n == 0

/-- The sending of flit i of a shard on a die. -/
def State.sendShard (s : State) (d : Die) (x : Shard) (i : Nat) : Die :=
  let y := { x with sent := x.sent ++ [i] }
  let d := d.sendNew false (s.shardFlit d x i) none (d.sendCycle false / 8)
  { d with shards := dropPassed (d.shards.map (fun z => if z.id = x.id then y else z)), lastSent := if y.gone then y.tag else d.lastSent }

/-- The shard flit that a downstream port has to send: of the shard that is leaving, or one that is passed through. -/
def Die.shardDue (d : Die) : Option (Shard × Nat) :=
  d.shards.findSome? (fun x => if x.leaving then x.nextFlit.map (fun i => (x, i)) else none)

/-- The kept flit that a port sends again first (R122); no shard flit, where the port sends none (R141). -/
def State.resendDue (s : State) (d : Die) (up : Bool) : Option Flit :=
  let p := d.port up
  p.resend.findSome? (fun q => p.sent.find? (fun f => f.seq = q && (!f.isShard || s.shardsMove d)))

/-- Send the flit that waits longest in a port; a latency probe is timed from here (R125). -/
def Die.sendQueued (d : Die) (up : Bool) (f : Flit) (o : Option (CoreKey × Nat)) (r : List (Flit × Option (CoreKey × Nat))) : Die :=
  let c := d.sendCycle up
  let p := { d.port up with queue := r, probeAt := if f.ctrl && f.payload.head? == some 2 then some c else (d.port up).probeAt }
  (d.setPort up p).sendNew up f o (c / 8)

/-- The shard whose turn it is to leave: of those not sent, the first with the earliest deadline. -/
def Die.nextToLeave (d : Die) : Option Shard :=
  d.shards.foldl (fun m x =>
    if x.gone then m else match m with | some y => if x.deadline < y.deadline then some x else m | none => some x) none

/-- The departure due in the next link cycle of a downstream port: a shard with its first flit. Its deadline has been reached, no flit
of an earlier slot remains, and no stall is due (R126, R137); a die in transit sends at the first free slot (R143). -/
def State.departureDue (s : State) (d : Die) : Option (Shard × Nat) :=
  let c := d.sendCycle false
  let free := s.ring.pace.isPaced c && d.stallUntil.isNone && !d.stallDue c && (s.resendDue d false).isNone && s.shardsMove d && d.enabled
  match d.nextToLeave with
  | some x => if free && x.sent.isEmpty && decide (x.deadline ≤ s.ring.pace.paced c) && (!d.transit || d.slotStart (s.ring.pace.paced c)) then x.nextFlit.map (fun i => (x, i)) else none
  | none => none

/-- What a port sends in its next link cycle, and the category it counts in (R122, R137, R138, R140); IDLE flits only while the
ring is down (R148). -/
def State.sendOne (s : State) (d : Die) (up : Bool) : Die :=
  let c := d.sendCycle up
  let p := d.port up
  let paced := s.ring.pace.paced c
  let idle := fun (n : Fin 8) => (d.sendNew up Flit.idleOne none (c / 8)).count up n
  if !s.ring.pace.isPaced c then idle 7
  else if s.ring.downNow then idle (if up then 5 else 6)
  else if !up && d.stallUntil.isSome then
    match s.resendDue d up, p.queue with
    | some f, _ => (d.sendAgain up f.seq f (c / 8)).count up 6
    | none, (f, o) :: r => if f.ctrl then (d.sendQueued up f o r).count up 6 else idle 6
    | none, [] => idle 6
  else
    match s.resendDue d up with
    | some f => (d.sendAgain up f.seq f (c / 8)).count up (if f.isShard then 0 else 3)
    | none =>
      match (if !up && s.shardsMove d then d.shardDue else none) with
      | some (x, i) => (s.sendShard d x i).count up 0
      | none =>
        match (if !up && s.shardsMove d then d.throughDue c paced else none) with
        | some (f, r) =>
          ({ d with through := r, slotFrom := if f.first then some paced else d.slotFrom }.sendNew up f none (c / 8)).count up 0
        | none =>
          match p.queue with
          | (f, o) :: r => (d.sendQueued up f o r).count up (if f.ctrl then 2 else 1)
          | [] =>
            if !up && s.shardsMove d && d.holeSlot paced then (d.sendNew up Flit.holeOne none (c / 8)).count up 4 else idle 5

/-- FLIT_SEND: a port of the die sends in its next link cycle, once that cycle has begun (R140); a downstream port yields to a
departure that is due (R126). -/
def execFlitSend (up : Bool) (s : State) : Out State :=
  let d := s.getDie s.place.core.dieKey
  if s.linkCycle < d.sendCycle up || (!up && (s.departureDue d).isSome) then idle s else ok (s.setDie (s.sendOne d up))

/-- SHARD_DEPARTURE: the downstream port sends the first flit of the shard that is due, with the lateness in LATE (R126). -/
def execShardDeparture (s : State) : Out State :=
  let d := s.getDie s.place.core.dieKey
  let c := d.sendCycle false
  match s.departureDue d with
  | some (x, i) =>
    if c ≤ s.linkCycle then
      let paced := s.ring.pace.paced c
      let x := { x with late := min (paced - x.deadline) (2 ^ 24 - 1) }
      ok (s.setDie ({ (s.sendShard d x i) with slotFrom := some paced }.count false 0))
    else idle s
  | none => idle s

/-! ### XSEND (R324) -/

/-- Runs of consecutive destination addresses of at most 480 bytes: first address and bytes. The run in hand starts at `a` and
holds the n bytes of `acc`, last first. -/
def sendRuns (a n : Nat) (acc : List Byte) : List (Nat × Byte) → List (Nat × List Byte)
  | [] => if n = 0 then [] else [(a, acc.reverse)]
  | (x, b) :: r =>
    if n = 0 then sendRuns x 1 [b] r
    else if x = a + n ∧ n < 480 then sendRuns a (n + 1) (b :: acc) r
    else (a, acc.reverse) :: sendRuns x 1 [b] r

/-- The flits of an XSEND record, from the bytes at their destinations, with what the record's bytes count from. -/
def sendFlits : Nat → List (Nat × List Byte) → List Flit
  | _, [] => []
  | off, (a, bs) :: r =>
    { Flit.blank with first := off == 0, last := r.isEmpty, len := BitVec.ofNat 16 bs.length, offset := BitVec.ofNat 40 off
                      shbytes := BitVec.ofNat 40 (paOff a), payload := bs } :: sendFlits (off + bs.length) r

/-- The bytes of an XSEND's elements: the destinations and what stands at the sources (R324: beside the merge log). -/
def sendBytes (r : QRec) (l : List (Four Nat)) (s : State) : List Nat × List Byte :=
  let ws := r.words
  let n := xElem ws
  let each := fun (f : Four Nat → Nat → Nat) => l.flatMap (fun ix => (List.range n).map (f ix))
  (each (fun ix j => pagePA s.core.key r.pages (wrapN 64 (((rDesc ws 2).base : Int) + stride (rDesc ws 2).s ix * n + (j : Int)))),
    (each (fun ix j => recRead false s r.pages (((rDesc ws 4).base : Int) + stride (rDesc ws 4).s ix * n + (j : Int)) 1)).map (BitVec.ofNat 8))

/-- A running XSEND record has read all its beats: its bytes wait, in flits, in the upstream port of the core's own die; the record is done
when the last has been written at its destination. Where the die that it names is upstream no more, a repair having lost it, they are
discarded (R354). -/
def queueSend (r : QRec) (s : State) : State × QRec :=
  let dests := (sendBytes r (beatsOf r.words).flatten s).1
  let bytes := dests.zip (r.data.map (fun w => w.truncate 8))
  let own := some (s.core.key, r.number)
  let d := s.ownDie
  if dests.all (fun a => s.upDie d.key == some (paDieKey a)) then
    let q := (sendFlits 0 (sendRuns 0 0 [] bytes)).map (fun f => (f, if f.last then own else none))
    (s.setDie { d with up := { d.up with queue := d.up.queue ++ q } }, r)
  else (s, { r with done := true })

/-- XSEND: the head of the queue starts; or a running record reads its next beat, not before the engine has made its request, one a core
cycle (R307), and with the last one sends its bytes. `row` counts the beats read, `data` holds their bytes. -/
def execXsend (s : State) : Out State :=
  let c := s.core
  match c.tq.head? with
  | some h => if h.isA .xsend && c.startsNow h then startTransfer .xsend (fun r s => some (s, r)) s else move c
  | none => move c
where move (c : Core) : Out State :=
  match c.trun.find? (fun r => r.isA .xsend && decide (r.row < occupies r.words) && decide (r.start + r.row ≤ c.tau) && !r.done) with
  | some r =>
    let s := s.recordRead 3 r.pages (r.sourceSpans r.row)
    let r := { r with row := r.row + 1, data := r.data ++ (sendBytes r (r.beat r.row) s).2.map (fun b => b.zeroExtend 64) }
    let x := if r.row = occupies r.words then queueSend r s else (s, r)
    ok { x.1 with core := { x.1.core with trun := x.1.core.trun.map (fun q => if q.number = r.number then x.2 else q) } }
  | none => idle s

end Sys2Proof.Machine
end

