-- ==== Sys2Proof/Machine/Ring.lean ====
section
/-! DEFINITION. The ring: batches and streams (R131 to R135), ring stalls (R137), pod steps (R138), repair (R141 to R148) and
injection (R149). -/

namespace Sys2Proof

/-- Kind code of a ring event: 0 detour, 1 bypass. -/
def FailKind.code : FailKind → Nat
  | .dieFail _ _ => 0
  | .moduleFail _ => 1
/-- The package of a failure. -/
def FailKind.pkg : FailKind → Nat
  | .dieFail p _ => p
  | .moduleFail p => p

end Sys2Proof

namespace Sys2Proof.Machine

/-! ### Batch formation (R51, R131) -/

/-- A list in ascending order of a key. -/
def sortBy {α : Type} (key : α → Nat) (l : List α) : List α :=
  l.foldr (fun x acc => (acc.takeWhile (fun y => key y < key x)) ++ x :: acc.dropWhile (fun y => key y < key x)) []

/-- The needs of a tag whose requests are active: slot and request, in ascending order of request. One registered in the core cycle of time
`now`, at clock step k, is not among them (R52, R395). -/
def Die.matching (d : Die) (tag : Half) (k now : Nat) : List (Nat × ReqCopy) :=
  let l := d.need.filterMap (fun e =>
    if needValid e.2 && needTag e.2 == tag.toNat && ((aget d.regs e.1).isNone || decide (cycleAt k (d.regOf e.1).2 < cycleAt k now)) then (d.reqs.find? (fun r => r.req = needReq e.2 ∧ r.state = 0)).map (fun r => (e.1, r)) else none)
  sortBy (fun x => x.2.req) l

/-- Cut a list into runs of at most n. -/
def chunks {α : Type} (n : Nat) : Nat → List α → List (List α)
  | 0, _ => []
  | fuel + 1, l => if l.isEmpty then [] else l.take n :: chunks n fuel (l.drop n)

/-- The batch entry of a request (Table 6.8). -/
def Die.batchEntry (d : Die) (x : Nat × ReqCopy) : Word × Word :=
  (BitVec.ofNat 64 x.2.slabdir, BitVec.ofNat 64 (bits (sget 0 d.need x.1).toNat 60 56 * 2 ^ 16 + x.2.req))

/-- The stream identifier of batch b of a shard (R48). -/
def streamId (x : Shard) (b : Nat) : BitVec 32 := BitVec.ofNat 32 (x.arrNo * 32 + b)

/-- Does a batch's need still stand in its slot: the registration that joined the batch (R51)? -/
def Die.stillNeeds (d : Die) (i : Nat × Nat) : Bool := needValid (sget 0 d.need i.1) && (d.regOf i.1).1 == i.2

/-- A need is missed (R135), unless it has been removed since (entry 98): MISSED and MISSES, RSTAT, and a miss record where the log is on (Table 6.10). -/
def missNeed (k : DieKey) (reason : Nat) (tag : Half) (tick : Nat) (s : State) (i : Nat × Nat) : State :=
  let d := s.getDie k
  let slot := i.1
  let w := sget 0 d.need slot
  let w' := putBits (w ||| BitVec.ofNat 64 (2 ^ 61)) 60 56 (min (bits w.toNat 60 56 + 1) 31)
  let n := bits d.misslog.toNat 63 60
  let count := bits d.rstat.toNat 31 0
  if !d.stillNeeds i then s
  else
  let s := s.setDie { d.countMiss with need := sput 0 d.need slot w' }
  if 4 ≤ n then
    let va := bits d.misslog.toNat 55 4 * 16 + 16 * (count % 2 ^ n)
    s.write (s.diePA d va) (toBytes 8 (reason * 2 ^ 48 + needReq w * 2 ^ 32 + tag.toNat) ++ toBytes 8 tick)
  else s

/-- Replace a shard. -/
def Die.setShard (d : Die) (x : Shard) : Die := { d with shards := d.shards.map (fun y => if y.id = x.id then x else y) }

/-- BATCH_FORMATION: the oldest complete shard that has not been handled (R131). It is the binding at its arrival that counts (R86), unless
the kernel has been unbound since. -/
def execBatchFormation (s : State) : Out State :=
  let k := s.place.core.dieKey
  let d := s.getDie k
  match d.shards.find? (fun x => x.complete && !x.formed) with
  | none => idle s
  | some x =>
    if s.ring.restarting then idle s
    else
      let d := { d with ringl := d.rcmaskl, ringh := d.rcmaskh }
      let y := { x with formed := true }
      match d.binding.bind (fun _ => x.bound) with
      | none => ok (s.setDie (d.setShard y))
      | some b =>
        let needs := d.matching x.tag (max s.podStep d.localStep) s.now
        let depart := s.tickOfPaced x.deadline
        match b.image.tags.find? (fun t => x.tag &&& t.mask = t.value) with
        | none => ok ((needs.map (fun z => (z.1, (d.regOf z.1).1))).foldl (missNeed k 3 x.tag depart) (s.setDie (d.setShard y)))
        | some t =>
          let n := if t.batch = 0 then b.image.maxbatch else t.batch
          let bs := (chunks (max n 1) needs.length needs).zipIdx.map (fun l =>
            ({ num := l.2, needs := l.1.map (fun y => (y.1, (d.regOf y.1).1)), entries := l.1.map d.batchEntry, tag := t, depart := depart, refused := false, no := d.formNo + l.2 } : Batch))
          let ids := if b.lpb.det then bs.map (fun c => (c.no, streamId x c.num)) else []
          ok (s.setDie { (d.setShard { y with batches := bs }) with streams := d.streams ++ ids, formNo := d.formNo + bs.length })

/-! ### Stream start (R115, R130, R133) -/

/-- The shard record of a batch (Table 6.7). -/
def shardRecord (d : Die) (x : Shard) (b : Batch) : List Word :=
  [BitVec.ofNat 64 (b.entries.length * 2 ^ 32 + x.tag.toNat), BitVec.ofNat 64 ((d.carva.toNat + x.base % max d.size 1) % 2 ^ 56),
    BitVec.ofNat 64 x.bytes, BitVec.ofNat 64 b.depart]

/-- What a stream runs. -/
def streamSource (d : Die) (bd : Binding) (x : Shard) (b : Batch) : Source :=
  let own := (bd.image.ttab.find? (fun e => e.1 = b.tag.entry)).elim 0 (·.2.1)
  { lpb := bd.lpb, image := bd.image, q := bd.q, asid := bd.asid, ptbase := bd.ptbase, unitva := bd.unitva, cluva := bd.cluva, lid := 0, seq := 0
    tid := streamId x b.num, group := (0, 0, 0), entry := b.tag.entry, fixed := b.tag.fixed, dom := if b.tag.dom then bd.dom else own
    stream := some (shardRecord d x b, b.entries, x.id), level := 0, formNo := b.no }

/-- Start a batch on a core: its reservation, the pin, the needs that are met once (R51, R129, R130). -/
def State.startStream (s : State) (k : CoreKey) (bd : Binding) (x : Shard) (b : Batch) : State :=
  let d := s.getDie k.dieKey
  let reserve := s.needsRoom d bd x b.tag
  let w := streamSource d bd x b
  let y := { x with pins := x.pins + 1, resv := x.resv || reserve, batches := x.batches.filter (fun c => c.num ≠ b.num) }
  let d := b.needs.foldl (fun d i => if d.stillNeeds i && needOnce (sget 0 d.need i.1) then d.clearNeed i.1 else d) d
  let d := { (d.setShard y) with lives := d.lives + 1, resv := d.resv + (if reserve then x.footprint else 0) }
  (s.setDie d).startWork k w

/-- The lowest-numbered core that takes streams and holds no task (R115). -/
def State.idleRingCore (s : State) (k : DieKey) : Option CoreKey :=
  (dieCores k).find? (fun c => s.takesStream c && (s.getCore c).phase == .free)

/-- The flow tasks on cores that take streams: their cores, the highest effective level first, and of equals the highest core number
(R115). -/
def State.flowTasks (s : State) (k : DieKey) : List CoreKey :=
  let level := fun (c : CoreKey) => ((s.getCore c).task.map (·.level)).getD 0
  sortBy (fun c => (3 - min 3 (level c)) * 96 + (95 - c.core))
    ((dieCores k).filter (fun c => s.takesStream c && (match (s.getCore c).task with | some t => !t.fixed | none => false)))

/-- The next flow task to be displaced: each batch that waits for a core takes the next of the flow tasks; one that has been asked to stop
is not asked again (R115). -/
def State.displaceable (s : State) (k : DieKey) (waiting : Nat) : Option CoreKey :=
  ((s.flowTasks k).take waiting).find? (fun c => (askStop .displace (s.getCore c)).stop != (s.getCore c).stop)

/-- The batches of a die, each marked with whether the last attempt to start it was refused a reservation: an attempt is made where a
core is free for it, or where there is room (R130, R134). -/
def State.refusals (s : State) (d : Die) : Die :=
  let idle := (s.idleRingCore d.key).isSome
  let mark := fun (x : Shard) (b : Batch) =>
    match x.bound with
    | some bd => if s.needsRoom d bd x b.tag && !d.room x then b.refused || idle else false
    | none => b.refused
  { d with shards := d.shards.map (fun x => { x with batches := x.batches.map (fun b => { b with refused := mark x b }) }) }

/-- STREAM_START: the first queued batch that may start takes an idle ring core; without one, a flow task is asked to make room. The
batches refused a reservation are marked (R115, R130, R131). -/
def execStreamStart (s : State) : Out State :=
  let k := s.place.core.dieKey
  let was := s.getDie k
  let d := s.refusals was
  let t := s.setDie d
  let marked := if d = was then idle s else ok t
  match d.queued.find? (t.batchReady d), t.idleRingCore k with
  | some (x, b), some c => match x.bound with | some bd => ok (t.startStream c bd x b) | none => marked
  | some _, none =>
    match t.displaceable k (d.queued.filter (t.batchReady d)).length with
    | some c => ok (t.setCore (askStop .displace (t.getCore c)))
    | none => marked
  | none, _ => marked

/-- DEPARTURE_DEADLINE: a shard's deadline is reached: the needs of its batches that have not started are missed (R134). -/
def execDepartureDeadline (s : State) : Out State :=
  let k := s.place.core.dieKey
  let d := s.refusals (s.getDie k)
  match d.shards.find? (fun x => decide (x.deadline ≤ s.pacedNow) && !x.batches.isEmpty) with
  | none => idle s
  | some x =>
    let nos := x.batches.map (·.no)
    let d := { (d.setShard { x with batches := [] }) with streams := d.streams.filter (fun i => !nos.contains i.1) }
    ok (x.batches.foldl (fun s b => b.needs.foldl (missNeed k (if b.refused then 2 else 1) x.tag (s.tickOfPaced x.deadline)) s) (s.setDie d))

/-! ### Ring stalls (R136, R137) -/

/-- RING_STALL: the die receives a message naming the stall tick ts. Of messages that name one tick the die takes the first: the stalls that
they ask for are one (DESIGN CHOICE, entry 108). -/
def execRingStall (ts : Nat) (s : State) : Out State :=
  let d := s.getDie s.place.core.dieKey
  if ts ∈ s.ring.stalls ∧ ts ∉ d.stallReq ∧ s.tick < ts then ok (s.setDie { d with stallReq := d.stallReq ++ [ts] })
  else idle s

/-- Is a shard that is passed through, or carried for a failed die, under way on a downstream port (R137)? -/
def State.passing (s : State) (d : Die) : Bool :=
  (!d.enabled || s.carried d.key) && !d.up.failed && (match d.down.sent.reverse.find? (·.isShard) with | some f => !f.last | none => false)

/-- Is a departure under way that holds back a stall: one whose remaining flits the downstream port sends (R137, R141)? -/
def State.departing (s : State) (d : Die) : Bool := s.shardsMove d && (d.shards.any (·.leaving) || s.passing d)

/-- RING_STALL_BEGIN: at Ts, or once the departure under way is complete, where its port still sends, the downstream port stops sending shard flits for STALLQ
paced link cycles; deadlines not yet reached at Ts move by as much. -/
def execRingStallBegin (s : State) : Out State :=
  let d := s.getDie s.place.core.dieKey
  match d.stallReq.find? (fun t => t ≤ s.tick) with
  | some t =>
    if d.stallUntil.isNone && !s.departing d then
      let now := s.pacedNow
      let move := fun (x : Shard) => if s.ring.pace.paced (8 * t) ≤ x.deadline then { x with deadline := x.deadline + d.stallq } else x
      ok (s.setDie { d.countStall with
        stallReq := d.stallReq.erase t, stallUntil := some (now + d.stallq), shards := d.shards.map move
        ownStall := if d.ownStall = some t then none else d.ownStall })
    else idle s
  | none => idle s

/-- RING_STALL_END: the stall's paced link cycles have passed. A die with a failed link requests the next stall, until the repair
tick (R141). While the ring is down it stays stalled (R148). -/
def execRingStallEnd (s : State) : Out State :=
  let k := s.place.core.dieKey
  let d := s.getDie k
  match d.stallUntil with
  | some u =>
    if u ≤ s.pacedNow ∧ s.ring.downNow = false then
      let s := s.setDie { d with stallUntil := none }
      ok (if d.up.failed || d.down.failed then s.requestStall k else s)
    else idle s
  | none => idle s

/-! ### Pod steps (R138) -/

/-- POD_STEP: at the agreed tick, or now where none is agreed, the pod step becomes k, from the first group of eight link cycles on that
begins no earlier; the change is reported. -/
def execPodStep (k : Fin 5) (s : State) : Out State :=
  let due := match s.ring.stepAt with | some (t, n) => decide (t ≤ s.tick) && n == k.val | none => true
  if due then
    let c := s.place.core
    let from_ := match s.ring.stepAt with | some (t, _) => 8 * t | none => s.linkCycle
    let t : State := { s with ring := { s.ring with pace := s.ring.pace.change k.val from_, stepAt := none } }
    ok (t.post 8 ⟨c.pkg, c.die, 0⟩ [BitVec.ofNat 64 k.val, BitVec.ofNat 64 (s.getDie c.dieKey).centi])
  else idle s

/-! ### The ring image (R149) -/

/-- Segment entry i of the ring image: tag, shard bytes, host address of the track-0 shard. -/
def State.segment (s : State) (i : Nat) : Half × Nat × Nat :=
  let a := s.ring.imageAt + 16 * i
  (BitVec.ofNat 32 (s.num a 4), s.num (a + 4) 4, bits (s.num (a + 8) 8) 55 0)

/-- The dies of the bridge module. -/
def State.bridgeDies (s : State) : List DieKey := (List.range 8).map (fun d => ⟨s.bridge, d⟩)
/-- Segments on the ring, as the bridge module's die 0 is set. -/
def State.segments (s : State) : Nat := (s.getDie ⟨s.bridge, 0⟩).seg

/-- A shard of a segment, scheduled to arrive at paced count t, is put whole into the carousel of the bridge module's die k, from host
memory, behind the footprint of a shard that is still arriving. `formed` and `wait` say whether it is past batch formation, and how long it
stays. -/
def State.putShard (s : State) (k : DieKey) (e : Half × Nat × Nat) (reinj formed : Bool) (t wait : Nat) : State :=
  let d := s.getDie k
  let head := d.shards.foldl (fun n x => max n (x.base + x.footprint)) d.head
  let (d, x) := s.newShard { d with head := head } e.1 e.2.1 (s.pacedNow - t) reinj
  let x := { x with got := List.range x.flits, formed := formed, deadline := t + wait }
  let from_ := e.2.2 + k.die * ((e.2.1 + 63) / 64 * 64)
  let d := { (d.setShard x) with head := x.base + x.footprint, holeAt := none, lastRecv := x.tag }
  ((s.setDie d).perform ((List.range x.bytes).map (fun i => (x.pa d.size i, s.byte (from_ + i))))).checkSpace k

/-- The paced count at which the HOLE slot that is now arriving at a die began, where nothing has filled it. -/
def State.openHole (s : State) (d : Die) : Option Nat :=
  match d.holeAt with
  | some t => if s.pacedNow < t + d.fps + d.svc then some t else none
  | none => none

/-- RING_INJECT: the next segment of the image enters the hole slots that are arriving at all eight dies of the bridge module. -/
def execRingInject (s : State) : Out State :=
  let e := s.segment s.ring.next
  let ready := s.bridgeDies.all (fun k => let d := s.getDie k; d.enabled && (s.openHole d).isSome)
  if s.ring.next < s.segments ∧ e.1 ≠ 0 ∧ ready = true ∧ s.ring.restarting = false then
    let t := s.bridgeDies.foldl (fun s k =>
      let d := s.getDie k
      let at_ := (s.openHole d).getD s.pacedNow
      s.putShard k e false false at_ (d.dwellAt at_)) s
    ok { t with ring := { t.ring with next := t.ring.next + 1 } }
  else idle s

/-- REINJECTION: a lost segment fills hole slots that are about to depart from all eight dies of the bridge module (R145). -/
def execReinjection (s : State) : Out State :=
  let free := fun (k : DieKey) =>
    let d := s.getDie k
    let p := s.ring.pace.paced (d.sendCycle false)
    d.enabled && d.slotStart p && d.shards.all (fun x => x.gone || (x.sent.isEmpty && decide (p < x.deadline)))
  match s.ring.lost with
  | e :: r =>
    if s.bridgeDies.all free then
      let t := s.bridgeDies.foldl (fun s k => s.putShard k e true true s.pacedNow 0) s
      ok { t with ring := { t.ring with lost := r } }
    else idle s
  | [] => idle s

/-! ### Repair (R141 to R148) -/

/-- The module before and the module after in the ring, but for those that are bypassed (R144). -/
def State.before (s : State) (p : Nat) : Nat :=
  let l := (List.range s.modules).map (fun i => (p + s.modules - 1 - i) % s.modules)
  (l.find? (fun q => !s.ring.failedPkgs.contains q)).getD p
def State.after (s : State) (p : Nat) : Nat :=
  let l := (List.range s.modules).map (fun i => (p + 1 + i) % s.modules)
  (l.find? (fun q => !s.ring.failedPkgs.contains q)).getD p

/-- The new dwells after a failure (R147). -/
def State.newDwells (s : State) (f : FailKind) : List (DieKey × BitVec 32) :=
  let failed := s.ring.failedPkgs ++ (match f with | .moduleFail p => [p] | _ => [])
  let transit := (s.transits ++ (match f with | .dieFail p _ => [p] | _ => [])).eraseDups.filter (fun p => !failed.contains p)
  s.dwellsFor failed transit

/-- Can the ring not be repaired (R148)? -/
def State.beyondRepair (s : State) : FailKind → Bool
  | .moduleFail p => p == s.bridge || s.ring.failedPkgs.contains ((p + s.modules - 1) % s.modules) || s.ring.failedPkgs.contains ((p + 1) % s.modules)
  | .dieFail p d => s.ring.failedDies.contains ⟨p, d ^^^ 1⟩

/-- Have both track ports of a die failed: each by its own declaration, or by that of the port at the other end? -/
def State.portsFailed (s : State) (p d : Nat) : Bool :=
  let x := s.getDie ⟨p, d⟩
  (x.up.failed || (s.getDie ⟨s.before p, d⟩).down.failed) && (x.down.failed || (s.getDie ⟨s.after p, d⟩).up.failed)

/-- Is the failure as the coordinator classifies it (R142)? That a package's Flabino reports a die dead is `place.n` = 1. -/
def State.classified (s : State) : FailKind → Bool
  | .moduleFail p => s.present p && !s.fabricUp p
  | .dieFail p d => s.present p && decide (d < 8) && s.fabricUp p && (s.place.n == 1 || s.portsFailed p d)

/-- The failure is known. -/
def Ring.fail (r : Ring) : FailKind → Ring
  | .moduleFail p => { r with failedPkgs := r.failedPkgs ++ [p] }
  | .dieFail p d => { r with failedDies := r.failedDies ++ [⟨p, d⟩] }

/-- The ring is down: every track sends IDLE flits only, and the host is told (R148). -/
def State.tellDown (s : State) : State :=
  let r := { s.ring with downNow := true, repair := none }
  let s := { s with ring := r, dies := s.dies.map (fun (e : DieKey × Die) => (e.1, { e.2 with stallUntil := some (e.2.stallUntil.getD 0) })) }
  s.post 5 ⟨s.bridge, 0, 0⟩ [BitVec.ofNat 64 r.failedPkgs.length, BitVec.ofNat 64 ((lowest r.failedPkgs).getD 0)]

/-- REPAIR_ANNOUNCEMENT: the dies of the package at `place.core` receive the announcement. -/
def execRepairAnnouncement (r : Repair) (s : State) : Out State :=
  let ks : List DieKey := (List.range 8).map (fun d => ⟨s.place.core.pkg, d⟩)
  if s.ring.repair = some r ∧ (ks.all (fun k => (s.getDie k).repair == some r)) = false then
    ok (ks.foldl (fun s k => s.setDie { s.getDie k with repair := some r }) s)
  else idle s

/-- Bits [hi:lo] of RTRK of a die. -/
def State.route (s : State) (k : DieKey) (hi lo v : Nat) : State := let d := s.getDie k; s.setDie { d with rtrk := putBits d.rtrk hi lo v }

/-- The live dies of a package. -/
def State.liveDies (s : State) (p : Nat) : List DieKey :=
  ((List.range 8).map (fun d => (⟨p, d⟩ : DieKey))).filter (fun k => !s.ring.failedDies.contains k)

/-- Every live die of the module takes the transit dwell (R143). -/
def Die.toTransit (d : Die) : Die :=
  { d with rtrk := d.rtrk ||| 2, shards := d.shards.map (fun x => if x.sent.isEmpty then { x with deadline := x.arrival + 4096 } else x) }

/-- The links of a die work again after the switch. The ports keep their sequence numbers: the spec does not say how SEQ goes on over the
skip fibre (DESIGN CHOICE, entry 108). -/
def State.mendLink (s : State) (k : DieKey) (up : Bool) : State :=
  let d := s.getDie k
  s.setDie (d.setPort up { d.port up with failed := false, tries := [], lastRx := s.linkCycle })

/-- The requests of a package are lost (R146): STATE 2 in their descriptors (on a bypass, of those in host memory), and their
needs are cleared. -/
def State.loseRequests (s : State) (p : Nat) (hostOnly : Bool) : State × List Nat :=
  let ks := (List.range 8).map (fun d => (⟨p, d⟩ : DieKey))
  let rs := (ks.flatMap (fun k => (s.getDie k).reqs)).eraseDups
  let put := fun (s : State) (r : ReqCopy) =>
    if hostOnly && paSpace r.addr != 4 then s else s.writeWord r.addr (putBits (s.word r.addr) 57 56 2)
  let s := rs.foldl put s
  let s := ks.foldl (fun s k =>
    let d := s.getDie k
    s.setDie { d with need := d.need.filter (fun e => !rs.any (fun r => r.req == needReq e.2)), reqs := d.reqs.map (fun r => { r with state := 2 }) }) s
  (s, (sortBy id (rs.map (·.req))).eraseDups)

/-- The ring events that name lost requests, twelve to an event (Table 16.3). -/
def State.postLost (s : State) (k : FailKind) (tick : Nat) (reqs : List Nat) : State :=
  let pack := fun (l : List Nat) => BitVec.ofNat 64 (l.getD 0 0 + l.getD 1 0 * 2 ^ 16 + l.getD 2 0 * 2 ^ 32 + l.getD 3 0 * 2 ^ 48)
  let groups := if reqs.isEmpty then [[]] else chunks 12 reqs.length reqs
  groups.foldl (fun s g => s.post 4 ⟨k.pkg, 0, 0⟩
    [BitVec.ofNat 64 k.code, BitVec.ofNat 64 tick, BitVec.ofNat 64 reqs.length, pack g, pack (g.drop 4), pack (g.drop 8)]) s

/-- A failure that cannot be repaired: the ring is down, and the requests of the failed module are lost (R146, R148, R429). -/
def State.ringDown (s : State) (f : FailKind) : State :=
  let t := ({ s with ring := s.ring.fail f } : State).tellDown
  let x := t.loseRequests f.pkg (f.code == 1)
  x.1.postLost f s.tick x.2

/-- REPAIR_REPORT: the coordinator classifies a failure and announces the repair tick, the kind and the new dwells; or the ring is
down (R142, R148). -/
def execRepairReport (f : FailKind) (s : State) : Out State :=
  if s.ring.repair.isSome || s.ring.downNow || !s.classified f then idle s
  else if s.beyondRepair f then ok (s.ringDown f)
  else
    let r : Repair := { kind := f, tick := s.tick + 262144, dwells := s.newDwells f }
    ok (({ s with ring := { s.ring with repair := some r } } : State).post 4 ⟨f.pkg, 0, 0⟩ [BitVec.ofNat 64 f.code, BitVec.ofNat 64 r.tick, 0])

/-- The run of the ring image behind the segment with tag `a` up to that with tag `b` (R145). -/
def State.lostRun (s : State) (a b : Half) : List (Half × Nat × Nat) :=
  let n := s.segments
  let all := (List.range n).map s.segment
  let i := all.findIdx (fun e => e.1 = a)
  let j := all.findIdx (fun e => e.1 = b)
  if a = b ∨ n ≤ i ∨ n ≤ j then [] else (List.range ((j + n - i) % n)).map (fun m => s.segment ((i + 1 + m) % n))

/-- Lost segments of a failure, in ring-image order: those of each track that it breaks, the run between the last tag received below it
and the last tag sent above it (R145). -/
def State.lostSegments (s : State) (f : FailKind) : List (Half × Nat × Nat) :=
  let tracks := match f with | .dieFail _ d => [d] | .moduleFail _ => List.range 8
  let lost := tracks.flatMap (fun t =>
    s.lostRun (s.getDie ⟨s.after f.pkg, t⟩).lastRecv (s.getDie ⟨s.before f.pkg, t⟩).lastSent)
  ((List.range s.segments).map s.segment).filter (lost.contains ·)

/-- XSEND records to a lost die end: their unsent flits are discarded, and the ring event names the sending core (R324). -/
def State.dropSends (s : State) (k : DieKey) (f : FailKind) (tick : Nat) : State :=
  let d := s.getDie k
  let own := d.up.owners.map (·.2) ++ d.up.queue.filterMap (·.2)
  let s := s.setDie { d with up := { d.up with owners := [], queue := d.up.queue.filter (fun x => x.1.ctrl) } }
  own.foldl (fun s o => (s.updRun o.1 o.2 (fun r => { r with done := true })).post 4 o.1 [BitVec.ofNat 64 f.code, BitVec.ofNat 64 tick, 0]) s

/-- The detour or the bypass (R143, R144). What a failed die held is lost. -/
def State.switchRing (s : State) (f : FailKind) : State :=
  match f with
  | .dieFail p d =>
    let s := s.setDie { s.getDie ⟨p, d⟩ with shards := [], through := [] }
    let s := (s.route ⟨p, d⟩ 11 8 15).route ⟨p, d ^^^ 1⟩ 2 2 1
    let s := (s.liveDies p).foldl (fun s k => s.setDie (s.getDie k).toTransit) s
    (((s.mendLink ⟨s.before p, d⟩ false).mendLink ⟨s.after p, d⟩ true).mendLink ⟨p, d⟩ true).mendLink ⟨p, d⟩ false
  | .moduleFail p =>
    (List.range 8).foldl (fun s d =>
      let s := (s.route ⟨s.before p, d⟩ 9 8 2).route ⟨s.after p, d⟩ 11 10 2
      (s.mendLink ⟨s.before p, d⟩ false).mendLink ⟨s.after p, d⟩ true) s

/-- A die immediately below a failure drops the part that it holds of a shard that was on its way: the shard is lost (R145). -/
def Die.dropPart (d : Die) : Die := { d with shards := d.shards.filter (·.complete) }

/-- The nominal residency of a ring with N′ computing modules, in MiB (R147). -/
def State.newNom (s : State) : Nat :=
  let d := s.getDie ⟨s.bridge, 0⟩
  let n := s.modules - s.ring.failedPkgs.length - s.transits.length
  d.seg * d.fps * 480 / (max n 1) / 2 ^ 20

/-- REPAIR_TICK: at T_r the repair announced takes effect on every die (R143 to R147). -/
def execRepairTick (s : State) : Out State :=
  match s.ring.repair with
  | some r =>
    if s.tick < r.tick then idle s
    else
      let f := r.kind
      let below := match f with | .dieFail p d => [(⟨s.after p, d⟩ : DieKey)] | .moduleFail p => (List.range 8).map (fun d => ⟨s.after p, d⟩)
      let s := below.foldl (fun s k => s.dropSends k f r.tick) s
      let lost := s.lostSegments f
      let s := { s with ring := { s.ring.fail f with repair := none, lost := s.ring.lost ++ lost } }
      let s := s.switchRing f
      let s := below.foldl (fun s k => s.setDie (s.getDie k).dropPart) s
      let s := s.setDwells (s.ring.pace.paced (8 * r.tick)) r.dwells
      let nom := s.newNom
      let s := { s with dies := s.dies.map (fun (e : DieKey × Die) => (e.1, { e.2 with repair := none, carcfg := putBits e.2.carcfg 11 0 nom })) }
      let x := s.loseRequests f.pkg (f.code == 1)
      ok (x.1.postLost f r.tick x.2)
  | none => idle s

end Sys2Proof.Machine
end

