-- ==== Sys2Proof/Machine/Interrupt.lean ====
section
/-! DEFINITION. Interruptions from outside the task: the watchdog and the domain (R400, R405), clock steps (R395), the thermal
shutdown (R396), the power limit (R427), corrected soft errors (R416). -/

namespace Sys2Proof.Machine

/-- SAFE_GAP: at the word boundary at which the watchdog has passed SAFEGAP the task ends; a word that waits is abandoned
(R405). -/
def execSafeGap (s : State) : Out State :=
  match s.core.task with
  | some t =>
    if s.core.phase = .running ∧ t.safegap < s.core.watch then
      .next (s.atBoundary.raised { code := 27, engine := 4, detail := t.safegap })
    else idle s
  | none => idle s

/-- DOMAIN_ABORT: the fatal end of the member with task `tid` reaches this member's word boundary (R400). -/
def execDomainAbort (tid : BitVec 32) (s : State) : Out State :=
  if s.core.phase = .running ∧ s.core.abortTid = some tid then
    .next (s.atBoundary.raised { code := 29, engine := 4, detail := tid.toNat })
  else idle s

/-! ### Clock steps (R138, R395) -/

/-- LOCAL_CLOCK_STEP: a local limit steps the flow-mode cores of the die at once; its fixed-mode domains take the step at a stall
cycle. It is a thermal limit, from a junction temperature of 95 °C on (R427), or with `place.n` 1 a power limit. The change is reported
with the junction temperature, in 0.01 °C (Table 16.3). -/
def execLocalClockStep (k : Fin 5) (centi : Nat) (s : State) : Out State :=
  let c := s.place.core
  let d := s.getDie c.dieKey
  if d.localStep < k.val ∧ centi < 9500 ∧ s.place.n ≠ 1 then idle s
  else
  let s := s.setDie { d with localStep := k.val, centi := centi }
  ok (s.post 8 ⟨c.pkg, c.die, 0⟩ [BitVec.ofNat 64 k.val, BitVec.ofNat 64 centi, 0])

/-- FORCED_STALL_CYCLE: the domain of the current core has had no stall cycle in the 4,096 core cycles since its die's local step:
the die inserts one as its next, at which the step takes effect for every member. -/
def execForcedStallCycle (s : State) : Out State :=
  let d := s.ownDie
  if s.core.phase = .running ∧ s.core.fixed = true ∧ s.core.clk ≠ d.localStep ∧ 4096 ≤ s.core.stepAge ∧ s.core.slow = false then
    ok { s with core := { s.core with slow := true } }
  else idle s

/-- POWER_LIMIT_EXCEEDED: the power of the module of `place.core`, averaged over 1 ms, is `place.n` W. Where that exceeds its limit, the power
policy raises the pod step by one, at the next tick (R138, R427). -/
def execPowerLimitExceeded (s : State) : Out State :=
  let k := match s.ring.stepAt with | some x => x.2 | none => s.podStep
  if s.place.n ≤ (s.getPkg s.place.core.pkg).limit then idle s
  else ok { s with ring := { s.ring with stepAt := some (s.tick + 1, min 4 (k + 1)) } }

/-! ### Thermal shutdown (R396) -/

/-- The task of the current core ends with MEMORY_ERROR's fatal handling, unless it has ended. -/
def State.shutTask (s : State) : State :=
  match s.core.phase with
  | .running | .stopped _ _ _ => s.atBoundary.raised { code := 31, engine := 4 }
  | _ => s

/-- THERMAL_SHUTDOWN: a die at step 4 whose junction reaches 110 °C is stopped. Its tasks end, those that are saved too. -/
def execThermalShutdown (centi : Nat) (s : State) : Out State :=
  let c := s.place.core
  let d := s.getDie c.dieKey
  if 11000 ≤ centi ∧ max d.localStep s.podStep = 4 ∧ d.halted = false then
    let s := d.saved.foldl (State.loseSaved 31) (s.setDie { d with halted := true, centi := centi, saved := [] })
    let busy := (dieCores c.dieKey).filter (fun k => (s.getCore k).task.isSome)
    let s := busy.foldl (fun s k => s.atCore k State.shutTask) s
    ok (s.post 8 ⟨c.pkg, c.die, 0⟩ [4, BitVec.ofNat 64 centi, 1])
  else idle s

/-! ### Soft errors (R416) -/

/-- SOFT_ERROR: a memory of the die has corrected a soft error in a space. Each is counted; an event carries the count at most
once in 2^30 ticks. -/
def execSoftError (space : Fin 5) (s : State) : Out State :=
  let c := s.place.core
  let d := s.getDie c.dieKey
  let x := d.soft.find? (fun e => e.1 = space.val)
  let n := (x.map (·.2.1)).getD 0 + 1
  let rest := d.soft.filter (fun e => e.1 ≠ space.val)
  let due := match x with | some e => decide (e.2.2 + 2 ^ 30 ≤ s.tick) | none => true
  if due then
    let s := s.setDie { d with soft := (space.val, 0, s.tick) :: rest }
    ok (s.post 7 ⟨c.pkg, c.die, 0⟩ [BitVec.ofNat 64 space.val, BitVec.ofNat 64 n])
  else ok (s.setDie { d with soft := (space.val, n, (x.map (·.2.2)).getD 0) :: rest })

end Sys2Proof.Machine
end

