-- ==== Sys2Proof/Machine/Keccak.lean ====
section
/-! DEFINITION. SHAKE256 (FIPS 202) with 32 bytes of output, the digest of R421. The 1,600-bit state is one number: the bytes of a
block are its low digits, and its digits to the base 2^64 are the lanes, lane (x, y) at place x + 5y. -/

namespace Sys2Proof

/-- Digit i of the state. -/
def spongeLane (a i : Nat) : Nat := a / 2 ^ (64 * i) % 2 ^ 64

/-- The state with the digits that f gives. -/
def spongeOf (f : Nat → Nat) : Nat := (List.range 25).foldr (fun i n => f i + 2 ^ 64 * n) 0

/-- A 64-bit digit turned left by n places. -/
def turn64 (n w : Nat) : Nat := (w * 2 ^ (n % 64)) % 2 ^ 64 + w / 2 ^ (64 - n % 64)

/-- The exclusive or of a sheet: the five digits at places x modulo 5. -/
def sheetSum (a x : Nat) : Nat := (List.range 5).foldl (fun n y => n ^^^ spongeLane a (x % 5 + 5 * y)) 0

/-- Where the digits move and how far they turn (steps ρ and π): from (1, 0) on, (x, y) goes to (y, 2x + 3y), and the t-th of these
24 moves turns by t (t + 1) / 2. Each entry holds the place that receives, the place that gives, and the turn. -/
def spongeMoves : Nat → Nat → Nat → Nat → List (Nat × Nat × Nat)
  | 0, _, _, _ => [(0, 0, 0)]
  | n + 1, t, x, y =>
    let y' := (2 * x + 3 * y) % 5
    (y + 5 * y', x + 5 * y, t * (t + 1) / 2) :: spongeMoves n (t + 1) y y'

/-- The constant of a round (step ι): the register r runs seven steps of x^8 + x^6 + x^5 + x^4 + 1, its low bit before step j going to
bit 2^j − 1. The second result is the register afterwards. -/
def roundBits (r : Nat) : Nat × Nat :=
  (List.range 7).foldl (fun (c : Nat × Nat) j =>
    (c.1 + c.2 % 2 * 2 ^ (2 ^ j - 1), if c.2 < 128 then 2 * c.2 else (2 * c.2) ^^^ 0x171)) (0, r)

/-- One round: the sheets are mixed in, the digits move, each row is combined, the constant is added. -/
def spongeRound (moves : List (Nat × Nat × Nat)) (a c : Nat) : Nat :=
  let s := (List.range 5).map (sheetSum a)
  let b := spongeOf (fun i => spongeLane a i ^^^ s.getD ((i + 4) % 5) 0 ^^^ turn64 1 (s.getD ((i % 5 + 1) % 5) 0))
  let m := spongeOf (fun i => match moves.find? (·.1 == i) with | some e => turn64 e.2.2 (spongeLane b e.2.1) | none => 0)
  let along := fun (i k : Nat) => spongeLane m (i / 5 * 5 + (i % 5 + k) % 5)
  spongeOf (fun i => along i 0 ^^^ ((2 ^ 64 - 1 - along i 1) &&& along i 2)) ^^^ c

/-- The permutation: 24 rounds. -/
def spongeMix (a : Nat) : Nat :=
  let moves := spongeMoves 24 1 1 0
  ((List.range 24).foldl (fun (x : Nat × Nat) _ => let c := roundBits x.2; (spongeRound moves x.1 c.1, c.2)) (a, 1)).1

/-- The message as a number, with the suffix 1111 of SHAKE and the padding 10…01 up to a whole block of `rate` bytes. -/
def shakeNumber (rate : Nat) (m : List Byte) : Nat :=
  ofBytes m + 0x1F * 256 ^ m.length + 0x80 * 256 ^ (m.length / rate * rate + rate - 1)

/-- 32 bytes of output of the SHAKE function whose blocks have `rate` bytes. -/
def shake (rate : Nat) (m : List Byte) : List Byte :=
  let n := shakeNumber rate m
  toBytes 32 ((List.range (m.length / rate + 1)).foldl (fun a i => spongeMix (a ^^^ (n / 2 ^ (8 * rate * i) % 2 ^ (8 * rate)))) 0)

/-- SHAKE256 with 32 bytes of output. -/
def shake256 (m : List Byte) : List Byte := shake 136 m

/-- SHAKE128 with 32 bytes of output. -/
def shake128 (m : List Byte) : List Byte := shake 168 m

end Sys2Proof
end

