-- ==== Sys2Proof/Machine/Xmss.lean ====
section
/-! DEFINITION. XMSS with the parameter set XMSS-SHAKE_20_256 (R421): one tree, n = 32, h = 20, w = 16, its hash functions over SHAKE128. The
spec names RFC 8391 and gives none of its text, so the functions are PRESUMED (entry 116). -/

namespace Sys2Proof

/-- A number as n bytes, the most significant first. -/
def bigBytes (n x : Nat) : List Byte := (toBytes n x).reverse

/-- The four keyed functions: 0 F, 1 H, 2 of a message, 3 pseudo-random. -/
def xmssHash (kind : Nat) (key m : List Byte) : List Byte := shake128 (bigBytes 32 kind ++ key ++ m)

/-- A hash address: layer and tree 0; the type (0 chain, 1 key tree, 2 hash tree), and four words of its own. -/
def xmssAddr (ty a b c d : Nat) : List Byte := bigBytes 12 0 ++ bigBytes 4 ty ++ bigBytes 4 a ++ bigBytes 4 b ++ bigBytes 4 c ++ bigBytes 4 d

/-- Two byte strings, each byte with the other's. -/
def xorBytes (x y : List Byte) : List Byte := (x.zip y).map (fun e => e.1 ^^^ e.2)

/-- Steps lo to lo + n − 1 of chain i of leaf l. -/
def xmssChain (seed : List Byte) (l i : Nat) : Nat → Nat → List Byte → List Byte
  | _, 0, x => x
  | lo, n + 1, x =>
    let at_ := fun k => xmssHash 3 seed (xmssAddr 0 l i lo k)
    xmssChain seed l i (lo + 1) n (xmssHash 0 (at_ 0) (xorBytes x (at_ 1)))

/-- A node above two: at a height and index of a tree of the type. -/
def xmssNode (seed : List Byte) (ty a height idx : Nat) (x y : List Byte) : List Byte :=
  let at_ := fun k => xmssHash 3 seed (xmssAddr ty a height idx k)
  xmssHash 1 (at_ 0) (xorBytes x (at_ 1) ++ xorBytes y (at_ 2))

/-- The 67 digits of base 16 that a digest gives: its own 64 and the three of their checksum. -/
def xmssDigits (m : List Byte) : List Nat :=
  let d := m.flatMap (fun b => [b.toNat / 16, b.toNat % 16])
  let c := d.foldl (fun n x => n + (15 - x)) 0
  d ++ [c / 256 % 16, c / 16 % 16, c % 16]

/-- One level of the tree over a one-time key: pairs join, an odd last node stays. -/
def xmssLevel (seed : List Byte) (l height : Nat) : Nat → List (List Byte) → List (List Byte)
  | i, x :: y :: r => xmssNode seed 1 l height i x y :: xmssLevel seed l height (i + 1) r
  | _, r => r

/-- The leaf of a one-time public key: 67 strings joined in seven levels. -/
def xmssLeaf (seed : List Byte) (l : Nat) (pk : List (List Byte)) : List Byte :=
  ((List.range 7).foldl (fun x h => xmssLevel seed l h 0 x) pk).headD []

/-- 32 bytes at a place. -/
def slice32 (m : List Byte) (i : Nat) : List Byte := (m.drop i).take 32

/-- The digest that is signed: under the randomizer, the root and the index. -/
def xmssDigest (r root : List Byte) (l : Nat) (m : List Byte) : List Byte := xmssHash 2 (r ++ root ++ bigBytes 32 l) m

/-- Does a signature of 2,820 bytes over m verify under a public key of 68: type 9, root, seed? -/
def xmssVerify (pk m sig : List Byte) : Bool :=
  let root := slice32 pk 4
  let seed := slice32 pk 36
  let l := ofBytes (sig.take 4).reverse
  let ds := xmssDigits (xmssDigest (slice32 sig 4) root l m)
  let leaf := xmssLeaf seed l (ds.zipIdx.map (fun d => xmssChain seed l d.2 d.1 (15 - d.1) (slice32 sig (36 + 32 * d.2))))
  let top := (List.range 20).foldl (fun x k =>
    let other := slice32 sig (2180 + 32 * k)
    if l / 2 ^ k % 2 = 0 then xmssNode seed 2 0 k (l / 2 ^ (k + 1)) x other else xmssNode seed 2 0 k (l / 2 ^ (k + 1)) other x) leaf
  pk.length == 68 && pk.take 4 == bigBytes 4 9 && sig.length == 2820 && decide (l < 2 ^ 20) && top == root

/-- The secret of a signing key: its seeds, the public one and the one of the randomizers, and chain i of leaf l. -/
structure XmssSecret where
  seed : List Byte
  prf : List Byte
  chain : Nat → Nat → List Byte

/-- The node at a height and index of the tree of a secret. -/
def XmssSecret.node (k : XmssSecret) : Nat → Nat → List Byte
  | 0, l => xmssLeaf k.seed l ((List.range 67).map (fun i => xmssChain k.seed l i 0 15 (k.chain l i)))
  | h + 1, i => xmssNode k.seed 2 0 h i (k.node h (2 * i)) (k.node h (2 * i + 1))

/-- The public key of a secret. -/
def XmssSecret.publicKey (k : XmssSecret) : List Byte := bigBytes 4 9 ++ k.node 20 0 ++ k.seed

/-- The signature with index l: index, randomizer, one-time signature, the 20 nodes beside the path to the root. -/
def XmssSecret.sign (k : XmssSecret) (l : Nat) (m : List Byte) : List Byte :=
  let r := xmssHash 3 k.prf (bigBytes 32 l)
  let ds := xmssDigits (xmssDigest r (k.node 20 0) l m)
  bigBytes 4 l ++ r ++ ds.zipIdx.flatMap (fun d => xmssChain k.seed l d.2 0 d.1 (k.chain l d.2))
    ++ (List.range 20).flatMap (fun h => let i := l / 2 ^ h; k.node h (if i % 2 = 0 then i + 1 else i - 1))

end Sys2Proof
end

