-- ==== Sys2Proof/Machine/Manage.lean ====
section
/-! DEFINITION. The management complexes: heartbeat and takeover (R419), live update (R420, R422), attestation (R423, R424),
management commands (R425), resets and bring-up (R14, R428), the restart of the ring (R429). -/

namespace Sys2Proof.Machine

/-! ### Complexes -/

/-- The active complex. -/
def Package.active (p : Package) : Complex := if p.activeB then p.b else p.a
/-- Change the active complex. -/
def Package.setActive (p : Package) (c : Complex) : Package := if p.activeB then { p with b := c } else { p with a := c }

/-- The complete digits of the management complexes in an event: 0 A, 1 B. -/
def complexCode (b : Bool) : Word := if b then 1 else 0

/-- A TAKEOVER event (Table 16.3). -/
def State.postTakeover (s : State) (p cause : Nat) : State :=
  let k := s.getPkg p
  s.post 9 ⟨p, 0, 0⟩ [complexCode k.activeB, BitVec.ofNat 64 k.active.stateVer, BitVec.ofNat 64 cause]

/-- HEARTBEAT: every 2^20 ticks the active complex writes its state table to the standby complex (R419). -/
def execHeartbeat (s : State) : Out State :=
  let n := s.place.core.pkg
  let p := s.getPkg n
  if p.beatAt + 2 ^ 20 ≤ s.tick ∧ s.managed n = true then
    let v := p.active.stateVer
    ok (s.setPkg { p with a := { p.a with stateVer := v }, b := { p.b with stateVer := v }, beatAt := s.tick })
  else idle s

/-- Events held on the dies of a package go to the bridge module, in the order in which they occurred (R415, R419). -/
def State.flushEvents (s : State) (p : Nat) : State :=
  let ks := (List.range 8).map (fun d => (⟨p, d⟩ : DieKey))
  let es := sortBy (fun (e : Vector Word 8) => (e.get 1).toNat) (ks.flatMap (fun k => (s.getDie k).events))
  let s := ks.foldl (fun s k => let d := s.getDie k; if d.events.isEmpty then s else s.setDie { d with events := [] }) s
  { s with eventq := es.foldl EventQ.push s.eventq }

/-- The failure of the active complex: the standby takes over at once (R419). Of an update under way the standby has booted the new image
(R420, step 1); the former active complex keeps its own. -/
def State.failOver (s : State) (n : Nat) : State :=
  let p := s.getPkg n
  let boot := fun (c : Complex) => match p.updating with | some fw => { c with firmware := some fw } | none => c
  let p := { p with a := if p.activeB then boot p.a else p.a, b := if p.activeB then p.b else boot p.b }
  ((s.setPkg { p with activeB := !p.activeB, updating := none, beatAt := s.tick }).flushEvents n).postTakeover n 1

/-- TAKEOVER: the standby takes over because four heartbeats were missed (R419); or, at a quiescent packet boundary with no repair pending,
for an update, both complexes then running the new image (R420). -/
def execTakeover (s : State) : Out State :=
  let n := s.place.core.pkg
  let p := s.getPkg n
  if !p.up then idle s
  else if 4 ≤ s.beatsMissed n then ok (s.failOver n)
  else
  match p.updating with
  | some fw =>
    if s.ring.repair.isNone then
      let v := p.active.stateVer
      let p := { p with
        activeB := !p.activeB, updating := none, beatAt := s.tick
        a := { p.a with firmware := some fw, stateVer := v }, b := { p.b with firmware := some fw, stateVer := v } }
      ok (((s.setPkg p).flushEvents n).postTakeover n 0)
    else idle s
  | none => idle s

/-! ### Management commands (Table 16.5) -/

/-- A command at the package of `place.core` completes with a status. -/
def complete (st : CmdStatus) (s : State) : State := s.setPkg { s.getPkg s.place.core.pkg with status := st }

/-- A command is served by the active complex of the package at `place.core` (R425). -/
def served (m : State → Out State) (s : State) : Out State :=
  if s.managed s.place.core.pkg then m s else idle s

/-- A command refused by its own rules completes with a status and changes nothing (R425). -/
def command (allowed : Bool) (m : State → State) : State → Out State :=
  served (fun s => ok (if allowed then complete .done (m s) else complete .refused s))

/-- SET_EVENTQ: the address of the event queue's descriptor, in host memory; on the bridge module only (R414). LOST counts from here on; an OVERFLOW event that is due stays due (R415). -/
def execSetEventq (addr : BitVec 56) (s : State) : Out State :=
  command (s.place.core.pkg == s.bridge && validPA addr.toNat && paSpace addr.toNat == 4)
    (fun s => { s with eventq := { s.eventq with desc := some addr.toNat, lost := 0 } }) s

/-- POWER_LIMIT: from 1,600 W to 3,200 W in steps of 100 W (R427). -/
def execPowerLimit (watts : Nat) (s : State) : Out State :=
  command (decide (1600 ≤ watts ∧ watts ≤ 3200) && watts % 100 == 0)
    (fun s => s.setPkg { s.getPkg s.place.core.pkg with limit := watts }) s

/-! ### Firmware (R420, R422) -/

/-- The image that a complex was made with, with its signature (entry 24). -/
def factoryFirmware (p : Nat) (isB : Bool) : Firmware :=
  let f := Config.factoryImage p isB
  { image := f.1, sig := f.2.1, key := f.2.2.1, rollback := f.2.2.2, stateLo := 0, stateHi := 0 }

/-- Does a complex accept an image: signed under a key that is not revoked, and not below the fused rollback version? -/
def Package.accepts (p : Package) (f : Firmware) : Bool :=
  !p.revoked.contains f.key && decide (p.minRollback ≤ f.rollback) && xmssVerify (Config.firmwareKey f.key) f.image f.sig

/-- UPDATE: the standby complex verifies and boots the image, and imports the state table. Outside the versions that the image
accepts the update is refused with an event; otherwise dispatch is held until the takeover (R420). -/
def execUpdate (fw : Firmware) : State → Out State :=
  served (fun s =>
    let n := s.place.core.pkg
    let p := s.getPkg n
    if !p.accepts fw || p.updating.isSome then ok (complete .refused s)
    else if p.active.stateVer < fw.stateLo ∨ fw.stateHi < p.active.stateVer then ok ((complete .refused s).postTakeover n 2)
    else ok (s.setPkg { p with updating := some fw, status := .done }))

/-! ### Attestation (R423, R424) -/

/-- The fuse map of a package as its bytes are digested: for each die, cores 0 to 63 and 64 to 95. -/
def State.fuseBytes (s : State) (p : Nat) : List Byte :=
  (List.range 8).flatMap (fun d => (s.fuseWords ⟨p, d⟩).flatMap (fun w => toBytes 8 w.toNat))

/-- The image that a complex runs. -/
def Package.running (p : Package) : List Byte := (p.active.firmware.getD (factoryFirmware p.pkg p.activeB)).image

/-- The report of Table 16.4 with a signature index. -/
def State.attestation (s : State) (n : Nat) (nonce : List Byte) (index : Nat) : List Byte :=
  let p := s.getPkg n
  let w0 := 2 ^ 48 + (if p.activeB then 2 ^ 40 else 0) + n % 128 * 2 ^ 33 + (if p.tapen then 2 ^ 32 else 0) + index % 2 ^ 32
  toBytes 8 w0 ++ toBytes 8 (Config.serial n).toNat ++ nonce ++ shake256 p.running
    ++ shake256 (((s.getDie ⟨n, 0⟩).handler.map (·.2)).getD []) ++ shake256 (s.fuseBytes n)
    ++ toBytes 8 (p.active.stateVer % 2 ^ 32 * 2 ^ 32 + p.minRollback % 2 ^ 32) ++ toBytes 8 0

/-- The active complex takes its next signature index and makes it persistent (R423). -/
def Package.nextIndex (p : Package) : Package := p.setActive { p.active with index := p.active.index + 1 }

/-- The identity key of a complex (R423). -/
def identityKey (n : Nat) (isB : Bool) : XmssSecret :=
  let str := fun (k : Nat) => (List.range 32).map (Config.identity n isB k)
  ⟨str 0, str 1, fun l i => str (2 + 67 * l + i)⟩

/-- ATTEST: the index is made persistent before the signature leaves; after 2^20 signatures the key is exhausted. -/
def execAttest (nonce : List Byte) : State → Out State :=
  served (fun s =>
    let n := s.place.core.pkg
    let p := s.getPkg n
    let c := p.active
    if nonce.length ≠ 32 then ok (complete .refused s)
    else if 2 ^ 20 ≤ c.index then ok (complete .keyExhausted s)
    else
      let r := s.attestation n nonce c.index
      let sig := (identityKey n p.activeB).sign c.index r
      ok (s.setPkg { p.nextIndex with status := .done, reply := r ++ sig }))

/-! ### Reset and bring-up (R14, R428) -/

/-- A die as its reset leaves it in link cycle c, from which its ports count (R122, R140). -/
def Die.from_ (d : Die) (c : Nat) : Die :=
  { d with since := c, up := { d.up with lastRx := c }, down := { d.down with lastRx := c } }

/-- A die and its cores at reset, with the barriers whose home it is (R377); the queues of its command processor, their launches, and updates on their way from it are
gone. -/
def State.clearDie (s : State) (k : DieKey) : State :=
  let mine := fun (c : CoreKey) => c.dieKey == k
  let gone := (s.queues.filter (fun q => q.2.homeDie q.1 == k)).map (·.1)
  { s with
    core := if mine s.core.key then Core.reset s.core.key else s.core
    parked := s.parked.filter (fun e => !mine e.1)
    dies := aput s.dies k ((Die.reset k).from_ s.linkCycle)
    queues := s.queues.filter (fun q => !gone.contains q.1)
    served := s.served.filter (fun e => e.1 ≠ k)
    launches := s.launches.filter (fun l => !gone.contains l.q)
    sigs := s.sigs.filter (fun m => bits m.src.toNat 18 9 ≠ k.pkg % 128 * 8 + k.die % 8)
    sigSeq := s.sigSeq.filter (fun e => bits e.1.toNat 18 9 ≠ k.pkg % 128 * 8 + k.die % 8)
    sigHomes := s.sigHomes.filter (fun h => paDieKey h.home ≠ k && bits h.src.toNat 18 9 ≠ k.pkg % 128 * 8 + k.die % 8)
    pkgs := if k.die = 0 then (let p := s.getPkg k.pkg; aput s.pkgs k.pkg { p with pkgBars := [] }) else s.pkgs
    podBars := if k.die = 0 ∧ k.pkg = s.bridge then [] else s.podBars
    groups := s.groups.map (fun g => { g with contrib := g.contrib.filter (fun x => !mine x.core), installed := g.installed.filter (· ≠ k) }) }

/-- Memory of a package reads zero. -/
def State.zeroPackage (s : State) (p : Nat) : State :=
  { s with mem := s.mem.filter (fun e => paPkg e.1 ≠ p), bad := s.bad.filter (fun a => paPkg a ≠ p) }

/-- Step 1 of R428: every die at power-on reset, memory zeroed. What the package keeps in fuses and persistent stores stays. -/
def State.resetDies (s : State) (n : Nat) (held : Bool) : State :=
  let s := ((List.range 8).foldl (fun s d => s.clearDie ⟨n, d⟩) s).zeroPackage n
  let p := s.getPkg n
  s.setPkg { p with
    power := true, inReset := held, updating := none, limit := 3200, reply := [], status := .none, tapIr := .idcode, tapDr := 0, pkgBars := []
    beatAt := s.tick }

/-- A complex's image verifies at boot: the one of its last update, or the one it was made with (R422). -/
def Package.boots (p : Package) (isB : Bool) : Bool :=
  p.accepts ((if isB then p.b else p.a).firmware.getD (factoryFirmware p.pkg isB))

/-- The carousel and pacing registers as Flabino writes them at bring-up (R125, R149). The routing fields of RTRK it writes through the
repair procedure only (Table 6.16). What it writes is free (entry 73). -/
def Die.setRing (d : Die) : Die :=
  let w := fun (n : Nat) (old : Word) => old &&& ~~~(ctlRW n) ||| Config.ringReg d.key.pkg d.key.die n &&& ctlRW n
  { d with
    carva := w 0x300 d.carva, carcfg := putBits (w 0x301 d.carcfg) 63 63 1, rpace := w 0x302 d.rpace, rslot := w 0x303 d.rslot
    rstall := w 0x304 d.rstall }

/-- Steps 5 and 6 of R428 on a die: Flabino writes the ring registers and enables the carousel, the die sends a latency probe down its
track, whose echo gives DWELL (R125), and takes its handler configuration (R398). -/
def Die.setUp (d : Die) : Die :=
  { d.setRing with handler := some (Config.handler d.key.pkg d.key.die), down := d.down.push (Flit.ctrlOne 2 0) }

/-- Steps 2 to 7 of R428: complex A is active unless its image fails, then B (R419), and sets its dies up. Where both images fail, or with
`place.n` 1 another step does (the self-test, the training of the links, a probe), the package is unreachable and a RING_DOWN event tells
the host. -/
def State.bringUp (s : State) (n : Nat) : State :=
  let p := s.getPkg n
  if (p.boots false || p.boots true) && s.place.n != 1 then
    let s := s.setPkg { p with activeB := !p.boots false, inReset := false, reachable := true, beatAt := s.tick }
    (List.range 8).foldl (fun s i => s.setDie (s.getDie ⟨n, i⟩).setUp) s
  else
    let s := s.setPkg { p with inReset := false, reachable := false, beatAt := s.tick }
    s.post 5 ⟨s.bridge, 0, 0⟩ [BitVec.ofNat 64 (s.ring.failedPkgs.length + 1), BitVec.ofNat 64 (s.ring.failedPkgs.foldl min n)]

/-- RESET_PACKAGE: power-on reset of every die of the package, then bring-up. -/
def execResetPackage : State → Out State :=
  served (fun s =>
    let n := s.place.core.pkg
    ok (complete .done ((s.resetDies n false).bringUp n)))

/-- POWER_ON_RESET: power good puts every die at power-on reset and holds the package in reset; the next such event ends the reset
with the rest of bring-up. -/
def execPowerOnReset (s : State) : Out State :=
  let n := s.place.core.pkg
  let p := s.getPkg n
  ok (if p.power && p.inReset then s.bringUp n else s.resetDies n true)

/-- WARM_RESET: every field of the die and its cores takes its reset value, since no description keeps one; memory stands (R14). -/
def execWarmReset (s : State) : Out State := ok (s.clearDie s.place.core.dieKey)

/-- POWER_LOSS: the package loses its power and all that it does not keep in fuses or persistent stores: the signature indices stay,
and a reply that has not been taken is gone. With `place.n` 1 an attestation had advanced its index and not yet answered, so that the
index is skipped (R423, entry 60). -/
def execPowerLoss (s : State) : Out State :=
  let n := s.place.core.pkg
  let s := s.resetDies n false
  let p := s.getPkg n
  ok (s.setPkg { (if s.place.n = 1 then p.nextIndex else p) with power := false })

/-! ### The restart of the ring (R429) -/

/-- Does no stream run, and none end, on any die? -/
def State.streamsRetired (s : State) : Bool := s.allCores.all (fun c => match c.task with | some t => !t.stream | none => true)

/-- A die's part: its carousel is discarded, its links are trained again and probed, its registers are set again, its stalls and failures are
forgotten, and it carries its own track only. -/
def Die.restart (d : Die) (link : Nat) : Die :=
  let d := d.setRing
  let fresh := fun (p : Port) => { Port.reset with latency := p.latency, lastRx := link, queue := [(Flit.ctrlOne 2 0, none)] }
  { d with
    shards := [], head := 0, resv := 0, streams := [], up := fresh d.up, down := fresh d.down, stallReq := [], ownStall := none
    stallUntil := none, slotFrom := none, holeAt := none, holeFrom := none, dwellWas := none, through := [], repair := none, stopped := false
    rtrk := putBits (putBits d.rtrk 11 8 0) 3 0 0 }

/-- The ring starts again: modules that are still unreachable are passed by (R144); the dwells are set afresh (R125); the bridge
module injects the image from its start (R149). -/
def State.restartRing (s : State) : State :=
  let failed := s.ring.failedPkgs.filter (fun p => !s.fabricUp p)
  let link := s.linkCycle
  let s := { s with
    dies := s.dies.map (fun (e : DieKey × Die) => (e.1, e.2.restart link))
    ring := { s.ring with
      stalls := [], repair := none, lost := [], next := 0, failedPkgs := failed, failedDies := [], downNow := false, restarting := false } }
  let s := failed.foldl (fun s p => s.switchRing (.moduleFail p)) s
  s.setDwells s.pacedNow (s.dwellsFor failed [])

/-- RING_RESTART: after RING_DOWN, batch formation stops at once; with `place.n` 1 the ring starts again, once the running streams have
retired. While a restart is under way the command is refused. -/
def execRingRestart (s : State) : Out State :=
  if s.place.n = 1 then (if s.ring.restarting && s.streamsRetired then ok s.restartRing else idle s)
  else command (s.ring.downNow && !s.ring.restarting) (fun s => { s with ring := { s.ring with restarting := true } }) s

end Sys2Proof.Machine
end

