-- ==== Sys2Proof/Machine/ScalarFp.lean ====
section
/-! DEFINITION. Scalar floating-point words (R190 to R192): the result under R181, the flags to FPCS.SFL at retirement. -/

namespace Sys2Proof.Machine

/-- A scalar word that writes a result code to g[d] and its flags to FPCS.SFL (R190, R64). -/
def fpResult (d : GReg) (f : Core → Nat × Flags) (s : State) : Out State :=
  let r := f s.core
  writeRetire d (BitVec.ofNat 64 r.1) (fun c => c.orFlags 0 r.2) s

/-- FADD (Table 8.4, R62). -/
def execFadd (dbl : Bool) (rm : RmSel) (d a b : GReg) (s : State) : Out State :=
  fpResult d (fun c => fpAdd (scalarFmt dbl) (c.mode rm) false (c.fp dbl a) (c.fp dbl b)) s

/-- FSUB (Table 8.4, R62). -/
def execFsub (dbl : Bool) (rm : RmSel) (d a b : GReg) (s : State) : Out State :=
  fpResult d (fun c => fpSub (scalarFmt dbl) (c.mode rm) false (c.fp dbl a) (c.fp dbl b)) s

/-- FMUL (Table 8.4, R62). -/
def execFmul (dbl : Bool) (rm : RmSel) (d a b : GReg) (s : State) : Out State :=
  fpResult d (fun c => fpMul (scalarFmt dbl) (c.mode rm) false (c.fp dbl a) (c.fp dbl b)) s

/-- FDIV (Table 8.4, R62). -/
def execFdiv (dbl : Bool) (rm : RmSel) (d a b : GReg) (s : State) : Out State :=
  fpResult d (fun c => fpDiv (scalarFmt dbl) (c.mode rm) false (c.fp dbl a) (c.fp dbl b)) s

/-- FFMA (Table 8.4): rounded once. -/
def execFfma (dbl : Bool) (rm : RmSel) (d a b q : GReg) (s : State) : Out State :=
  fpResult d (fun c => fpFma (scalarFmt dbl) (c.mode rm) false (c.fp dbl a) (c.fp dbl b) (c.fp dbl q)) s

/-- FSQRT (Table 8.4). -/
def execFsqrt (dbl : Bool) (rm : RmSel) (d a : GReg) (s : State) : Out State :=
  fpResult d (fun c => fpSqrt (scalarFmt dbl) (c.mode rm) (c.fp dbl a)) s

/-- FMIN (R62). -/
def execFmin (dbl : Bool) (d a b : GReg) (s : State) : Out State :=
  fpResult d (fun c => (fpMinMax (scalarFmt dbl) false (fpCode dbl (c.rd a)) (fpCode dbl (c.rd b)), Flags.none)) s

/-- FMAX (R62). -/
def execFmax (dbl : Bool) (d a b : GReg) (s : State) : Out State :=
  fpResult d (fun c => (fpMinMax (scalarFmt dbl) true (fpCode dbl (c.rd a)) (fpCode dbl (c.rd b)), Flags.none)) s

/-- FCMP (R191). -/
def execFcmp (dbl : Bool) (d : PReg) (a b : GReg) (q : Fin 5) (s : State) : Out State :=
  retireWith (fun c => c.wp d (condHolds q.val (c.fp dbl a) (c.fp dbl b))) s

/-- FCLS (R191). -/
def execFcls (dbl : Bool) (d a : GReg) (s : State) : Out State :=
  setG d (BitVec.ofNat 64 (2 ^ fpClass (scalarFmt dbl) (fpCode dbl (s.core.rd a)))) s

/-- FSGN (R191). -/
def execFsgn (dbl : Bool) (d a b : GReg) (o : Fin 3) (s : State) : Out State :=
  setG d (BitVec.ofNat 64 (fpSign (scalarFmt dbl) o.val (fpCode dbl (s.core.rd a)) (fpCode dbl (s.core.rd b)))) s

/-- FCVT (R192). -/
def execFcvt (k : Fin 8) (dbl : Bool) (rm : RmSel) (d a : GReg) (s : State) : Out State :=
  fpResult d (fun c => let r := fpConvert k.val dbl (c.mode rm) (c.rd a); (r.1.toNat, r.2)) s

end Sys2Proof.Machine
end

