-- ==== Sys2Proof/Machine/Walkers.lean ====
section
/-! DEFINITION. Walkers and the stack pointer (R205 to R209). -/

namespace Sys2Proof.Machine

/-- WBIND (R207): alignment, translation, the read of 32 bytes as a class-0 load, the check of the reserved field. -/
def execWbind (w : WReg) (a : GReg) (s : State) : Out State :=
  let va := (s.core.rd a).toNat
  if va % 32 ≠ 0 then alignFault va 6 0 s
  else
    match translate seqReach .read va s with
    | .error r => transFault va r 6 0 s
    | .ok (pa, tr) =>
      if s.readBlocked 0 s.core.num pa 32 then ok s
      else unlessSpoiled pa 32 (fun s =>
        let word := fun i => BitVec.ofNat 64 (s.taskNum (pa + 8 * i) 8)
        match walkerOf (word 0) (word 1) (word 2) (word 3) with
        | none => raise { code := 9, addr := va, slot := 6 } s
        | some k => retireWith (fun c => (c.hold tr).setWalker w k) s) s

/-- WSTEP (R207): n + 1 advances. -/
def execWstep (w : WReg) (n : BitVec 16) (s : State) : Out State :=
  retireWith (fun c => c.setWalker w ((c.w.get w).advance (n.toNat + 1))) s

/-- WPOS (Table 8.8): the current address, the linear index, or the flags. -/
def execWpos (d : GReg) (w : WReg) (k : Fin 3) (s : State) : Out State :=
  let x := s.core.w.get w
  setG d (match k with
    | 0 => BitVec.ofNat 64 x.addr
    | 1 => BitVec.ofNat 64 x.linear
    | 2 => x.flags.zeroExtend 64) s

/-- WRST (Table 8.8). -/
def execWrst (w : WReg) (s : State) : Out State := retireWith (fun c => c.setWalker w (c.w.get w).home) s

/-- SPADJ (R209). -/
def execSpadj (i : BitVec 32) (s : State) : Out State := setG 32 (s.core.rd 32 + sext32 i) s
/-- SPMOV into g[D] (R209). -/
def execSpmov (d : GReg) (i : BitVec 32) (s : State) : Out State := setG d (s.core.rd 32 + sext32 i) s
/-- SPMOV into sp (R209). -/
def execSpmovSp (a : GReg) (i : BitVec 32) (s : State) : Out State := setG 32 (s.core.rd a + sext32 i) s

end Sys2Proof.Machine
end

