-- ==== Sys2Proof/Machine/Dispatch.lean ====
section
/-! DEFINITION. One arm for each row of the opcode table: the meaning it calls. -/

namespace Sys2Proof.Machine

/-- What one step of the device does to the state. -/
def exec (i : Instr) (s : State) : Host.Outcome State Fault Refusal :=
  match i with
  | .nop => Sys2Proof.Machine.execNop s
  | .add x0 x1 x2 => Sys2Proof.Machine.execAdd x0 x1 x2 s
  | .sub x0 x1 x2 => Sys2Proof.Machine.execSub x0 x1 x2 s
  | .mul x0 x1 x2 => Sys2Proof.Machine.execMul x0 x1 x2 s
  | .mulhs x0 x1 x2 => Sys2Proof.Machine.execMulhs x0 x1 x2 s
  | .mulhn x0 x1 x2 => Sys2Proof.Machine.execMulhn x0 x1 x2 s
  | .divs x0 x1 x2 => Sys2Proof.Machine.execDivs x0 x1 x2 s
  | .divn x0 x1 x2 => Sys2Proof.Machine.execDivn x0 x1 x2 s
  | .rems x0 x1 x2 => Sys2Proof.Machine.execRems x0 x1 x2 s
  | .remn x0 x1 x2 => Sys2Proof.Machine.execRemn x0 x1 x2 s
  | .and x0 x1 x2 => Sys2Proof.Machine.execAnd x0 x1 x2 s
  | .or x0 x1 x2 => Sys2Proof.Machine.execOr x0 x1 x2 s
  | .xor x0 x1 x2 => Sys2Proof.Machine.execXor x0 x1 x2 s
  | .andn x0 x1 x2 => Sys2Proof.Machine.execAndn x0 x1 x2 s
  | .shl x0 x1 x2 => Sys2Proof.Machine.execShl x0 x1 x2 s
  | .shrl x0 x1 x2 => Sys2Proof.Machine.execShrl x0 x1 x2 s
  | .shra x0 x1 x2 => Sys2Proof.Machine.execShra x0 x1 x2 s
  | .rotl x0 x1 x2 => Sys2Proof.Machine.execRotl x0 x1 x2 s
  | .clz x0 x1 => Sys2Proof.Machine.execClz x0 x1 s
  | .ctz x0 x1 => Sys2Proof.Machine.execCtz x0 x1 s
  | .popc x0 x1 => Sys2Proof.Machine.execPopc x0 x1 s
  | .sext x0 x1 x2 => Sys2Proof.Machine.execSext x0 x1 x2 s
  | .mins x0 x1 x2 => Sys2Proof.Machine.execMins x0 x1 x2 s
  | .minn x0 x1 x2 => Sys2Proof.Machine.execMinn x0 x1 x2 s
  | .maxs x0 x1 x2 => Sys2Proof.Machine.execMaxs x0 x1 x2 s
  | .maxn x0 x1 x2 => Sys2Proof.Machine.execMaxn x0 x1 x2 s
  | .sel x0 x1 x2 x3 => Sys2Proof.Machine.execSel x0 x1 x2 x3 s
  | .bfxs x0 x1 x2 x3 => Sys2Proof.Machine.execBfxs x0 x1 x2 x3 s
  | .bfxn x0 x1 x2 x3 => Sys2Proof.Machine.execBfxn x0 x1 x2 x3 s
  | .bfi x0 x1 x2 x3 => Sys2Proof.Machine.execBfi x0 x1 x2 x3 s
  | .cmpeq x0 x1 x2 => Sys2Proof.Machine.execCmpeq x0 x1 x2 s
  | .cmpne x0 x1 x2 => Sys2Proof.Machine.execCmpne x0 x1 x2 s
  | .cmplts x0 x1 x2 => Sys2Proof.Machine.execCmplts x0 x1 x2 s
  | .cmples x0 x1 x2 => Sys2Proof.Machine.execCmples x0 x1 x2 s
  | .cmpltn x0 x1 x2 => Sys2Proof.Machine.execCmpltn x0 x1 x2 s
  | .cmplen x0 x1 x2 => Sys2Proof.Machine.execCmplen x0 x1 x2 s
  | .addi x0 x1 x2 => Sys2Proof.Machine.execAddi x0 x1 x2 s
  | .andi x0 x1 x2 => Sys2Proof.Machine.execAndi x0 x1 x2 s
  | .ori x0 x1 x2 => Sys2Proof.Machine.execOri x0 x1 x2 s
  | .xori x0 x1 x2 => Sys2Proof.Machine.execXori x0 x1 x2 s
  | .shli x0 x1 x2 => Sys2Proof.Machine.execShli x0 x1 x2 s
  | .movi x0 x1 => Sys2Proof.Machine.execMovi x0 x1 s
  | .movh x0 x1 => Sys2Proof.Machine.execMovh x0 x1 s
  | .lea x0 x1 x2 x3 x4 => Sys2Proof.Machine.execLea x0 x1 x2 x3 x4 s
  | .pand x0 x1 x2 => Sys2Proof.Machine.execPand x0 x1 x2 s
  | .por x0 x1 x2 => Sys2Proof.Machine.execPor x0 x1 x2 s
  | .pxor x0 x1 x2 => Sys2Proof.Machine.execPxor x0 x1 x2 s
  | .pnot x0 x1 => Sys2Proof.Machine.execPnot x0 x1 s
  | .prsave x0 => Sys2Proof.Machine.execPrsave x0 s
  | .prload x0 => Sys2Proof.Machine.execPrload x0 s
  | .fadd x0 x1 x2 x3 x4 => Sys2Proof.Machine.execFadd x0 x1 x2 x3 x4 s
  | .fsub x0 x1 x2 x3 x4 => Sys2Proof.Machine.execFsub x0 x1 x2 x3 x4 s
  | .fmul x0 x1 x2 x3 x4 => Sys2Proof.Machine.execFmul x0 x1 x2 x3 x4 s
  | .ffma x0 x1 x2 x3 x4 x5 => Sys2Proof.Machine.execFfma x0 x1 x2 x3 x4 x5 s
  | .fdiv x0 x1 x2 x3 x4 => Sys2Proof.Machine.execFdiv x0 x1 x2 x3 x4 s
  | .fsqrt x0 x1 x2 x3 => Sys2Proof.Machine.execFsqrt x0 x1 x2 x3 s
  | .fmin x0 x1 x2 x3 => Sys2Proof.Machine.execFmin x0 x1 x2 x3 s
  | .fmax x0 x1 x2 x3 => Sys2Proof.Machine.execFmax x0 x1 x2 x3 s
  | .fcmp x0 x1 x2 x3 x4 => Sys2Proof.Machine.execFcmp x0 x1 x2 x3 x4 s
  | .fcls x0 x1 x2 => Sys2Proof.Machine.execFcls x0 x1 x2 s
  | .fsgn x0 x1 x2 x3 x4 => Sys2Proof.Machine.execFsgn x0 x1 x2 x3 x4 s
  | .fcvt x0 x1 x2 x3 x4 => Sys2Proof.Machine.execFcvt x0 x1 x2 x3 x4 s
  | .br x0 => Sys2Proof.Machine.execBr x0 s
  | .bc x0 x1 x2 => Sys2Proof.Machine.execBc x0 x1 x2 s
  | .bwe x0 x1 x2 => Sys2Proof.Machine.execBwe x0 x1 x2 s
  | .bmz x0 => Sys2Proof.Machine.execBmz x0 s
  | .brl x0 x1 => Sys2Proof.Machine.execBrl x0 x1 s
  | .call x0 => Sys2Proof.Machine.execCall x0 s
  | .callr x0 => Sys2Proof.Machine.execCallr x0 s
  | .ret => Sys2Proof.Machine.execRet s
  | .loop x0 x1 x2 => Sys2Proof.Machine.execLoop x0 x1 x2 s
  | .loopr x0 x1 x2 => Sys2Proof.Machine.execLoopr x0 x1 x2 s
  | .lbrk x0 x1 => Sys2Proof.Machine.execLbrk x0 x1 s
  | .gset x0 x1 => Sys2Proof.Machine.execGset x0 x1 s
  | .gclr x0 => Sys2Proof.Machine.execGclr x0 s
  | .safe x0 x1 => Sys2Proof.Machine.execSafe x0 x1 s
  | .exit => Sys2Proof.Machine.execExit s
  | .trap x0 => Sys2Proof.Machine.execTrap x0 s
  | .rte => Sys2Proof.Machine.execRte s
  | .wbind x0 x1 => Sys2Proof.Machine.execWbind x0 x1 s
  | .wstep x0 x1 => Sys2Proof.Machine.execWstep x0 x1 s
  | .wpos x0 x1 x2 => Sys2Proof.Machine.execWpos x0 x1 x2 s
  | .wrst x0 => Sys2Proof.Machine.execWrst x0 s
  | .spadj x0 => Sys2Proof.Machine.execSpadj x0 s
  | .spmov x0 x1 => Sys2Proof.Machine.execSpmov x0 x1 s
  | .spmovSp x0 x1 => Sys2Proof.Machine.execSpmovSp x0 x1 s
  | .shard x0 x1 => Sys2Proof.Machine.execShard x0 x1 s
  | .batch x0 x1 x2 => Sys2Proof.Machine.execBatch x0 x1 x2 s
  | .need x0 x1 x2 x3 => Sys2Proof.Machine.execNeed x0 x1 x2 x3 s
  | .unpin => Sys2Proof.Machine.execUnpin s
  | .kva x0 x1 x2 => Sys2Proof.Machine.execKva x0 x1 x2 s
  | .enq x0 => Sys2Proof.Machine.execEnq x0 s
  | .enqr x0 => Sys2Proof.Machine.execEnqr x0 s
  | .acalloc x0 x1 => Sys2Proof.Machine.execAcalloc x0 x1 s
  | .acfree x0 => Sys2Proof.Machine.execAcfree x0 s
  | .gwset x0 => Sys2Proof.Machine.execGwset x0 s
  | .ld x0 x1 x2 x3 x4 => Sys2Proof.Machine.execLd x0 x1 x2 x3 x4 s
  | .st x0 x1 x2 x3 x4 => Sys2Proof.Machine.execSt x0 x1 x2 x3 x4 s
  | .ldw x0 x1 x2 x3 => Sys2Proof.Machine.execLdw x0 x1 x2 x3 s
  | .stw x0 x1 x2 x3 => Sys2Proof.Machine.execStw x0 x1 x2 x3 s
  | .ldp x0 x1 x2 x3 x4 => Sys2Proof.Machine.execLdp x0 x1 x2 x3 x4 s
  | .stp x0 x1 x2 x3 x4 => Sys2Proof.Machine.execStp x0 x1 x2 x3 x4 s
  | .ldacq x0 x1 x2 x3 x4 x5 => Sys2Proof.Machine.execLdacq x0 x1 x2 x3 x4 x5 s
  | .strel x0 x1 x2 x3 x4 x5 => Sys2Proof.Machine.execStrel x0 x1 x2 x3 x4 x5 s
  | .fence x0 => Sys2Proof.Machine.execFence x0 s
  | .fenceo x0 x1 => Sys2Proof.Machine.execFenceo x0 x1 s
  | .aadd x0 x1 x2 x3 x4 x5 x6 => Sys2Proof.Machine.execAadd x0 x1 x2 x3 x4 x5 x6 s
  | .aand x0 x1 x2 x3 x4 x5 x6 => Sys2Proof.Machine.execAand x0 x1 x2 x3 x4 x5 x6 s
  | .aor x0 x1 x2 x3 x4 x5 x6 => Sys2Proof.Machine.execAor x0 x1 x2 x3 x4 x5 x6 s
  | .axor x0 x1 x2 x3 x4 x5 x6 => Sys2Proof.Machine.execAxor x0 x1 x2 x3 x4 x5 x6 s
  | .amins x0 x1 x2 x3 x4 x5 x6 => Sys2Proof.Machine.execAmins x0 x1 x2 x3 x4 x5 x6 s
  | .aminn x0 x1 x2 x3 x4 x5 x6 => Sys2Proof.Machine.execAminn x0 x1 x2 x3 x4 x5 x6 s
  | .amaxs x0 x1 x2 x3 x4 x5 x6 => Sys2Proof.Machine.execAmaxs x0 x1 x2 x3 x4 x5 x6 s
  | .amaxn x0 x1 x2 x3 x4 x5 x6 => Sys2Proof.Machine.execAmaxn x0 x1 x2 x3 x4 x5 x6 s
  | .axch x0 x1 x2 x3 x4 x5 x6 => Sys2Proof.Machine.execAxch x0 x1 x2 x3 x4 x5 x6 s
  | .acas x0 x1 x2 x3 x4 x5 x6 => Sys2Proof.Machine.execAcas x0 x1 x2 x3 x4 x5 x6 s
  | .afadd x0 x1 x2 x3 x4 x5 x6 => Sys2Proof.Machine.execAfadd x0 x1 x2 x3 x4 x5 x6 s
  | .bara x0 x1 x2 => Sys2Proof.Machine.execBara x0 x1 x2 s
  | .barw x0 x1 x2 => Sys2Proof.Machine.execBarw x0 x1 x2 s
  | .bar x0 x1 => Sys2Proof.Machine.execBar x0 x1 s
  | .barq x0 x1 x2 => Sys2Proof.Machine.execBarq x0 x1 x2 s
  | .barc x0 x1 x2 => Sys2Proof.Machine.execBarc x0 x1 x2 s
  | .tokw x0 => Sys2Proof.Machine.execTokw x0 s
  | .sigadd x0 x1 x2 x3 x4 => Sys2Proof.Machine.execSigadd x0 x1 x2 x3 x4 s
  | .sigmax x0 x1 x2 x3 x4 => Sys2Proof.Machine.execSigmax x0 x1 x2 x3 x4 s
  | .sigw x0 x1 x2 x3 x4 x5 => Sys2Proof.Machine.execSigw x0 x1 x2 x3 x4 x5 s
  | .merge => Sys2Proof.Machine.execMerge s
  | .ctlrd x0 x1 => Sys2Proof.Machine.execCtlrd x0 x1 s
  | .ctlwr x0 x1 => Sys2Proof.Machine.execCtlwr x0 x1 s
  | .ctlset x0 x1 => Sys2Proof.Machine.execCtlset x0 x1 s
  | .ctlclr x0 x1 => Sys2Proof.Machine.execCtlclr x0 x1 s
  | .qcreate x0 => Sys2Proof.Machine.execQcreate x0 s
  | .qkill x0 => Sys2Proof.Machine.execQkill x0 s
  | .tmark x0 x1 x2 x3 => Sys2Proof.Machine.execTmark x0 x1 x2 x3 s
  | .icfence => Sys2Proof.Machine.execIcfence s
  | .tick x0 => Sys2Proof.Machine.execTick x0 s
  | .rep x0 x1 x2 => Sys2Proof.Machine.execRep x0 x1 x2 s
  | .vadd x0 x1 x2 x3 x4 x5 => Sys2Proof.Machine.execVadd x0 x1 x2 x3 x4 x5 s
  | .vsub x0 x1 x2 x3 x4 x5 => Sys2Proof.Machine.execVsub x0 x1 x2 x3 x4 x5 s
  | .vmul x0 x1 x2 x3 x4 x5 => Sys2Proof.Machine.execVmul x0 x1 x2 x3 x4 x5 s
  | .vfma x0 x1 x2 x3 x4 x5 x6 => Sys2Proof.Machine.execVfma x0 x1 x2 x3 x4 x5 x6 s
  | .vmin x0 x1 x2 x3 => Sys2Proof.Machine.execVmin x0 x1 x2 x3 s
  | .vmax x0 x1 x2 x3 => Sys2Proof.Machine.execVmax x0 x1 x2 x3 s
  | .vabs x0 x1 x2 x3 => Sys2Proof.Machine.execVabs x0 x1 x2 x3 s
  | .vneg x0 x1 x2 x3 => Sys2Proof.Machine.execVneg x0 x1 x2 x3 s
  | .vand x0 x1 x2 => Sys2Proof.Machine.execVand x0 x1 x2 s
  | .vor x0 x1 x2 => Sys2Proof.Machine.execVor x0 x1 x2 s
  | .vxor x0 x1 x2 => Sys2Proof.Machine.execVxor x0 x1 x2 s
  | .vnot x0 x1 => Sys2Proof.Machine.execVnot x0 x1 s
  | .vshl x0 x1 x2 x3 => Sys2Proof.Machine.execVshl x0 x1 x2 x3 s
  | .vshr x0 x1 x2 x3 => Sys2Proof.Machine.execVshr x0 x1 x2 x3 s
  | .vsha x0 x1 x2 x3 => Sys2Proof.Machine.execVsha x0 x1 x2 x3 s
  | .vcmp x0 x1 x2 x3 x4 => Sys2Proof.Machine.execVcmp x0 x1 x2 x3 x4 s
  | .vsel x0 x1 x2 x3 => Sys2Proof.Machine.execVsel x0 x1 x2 x3 s
  | .vmov x0 x1 => Sys2Proof.Machine.execVmov x0 x1 s
  | .vmovExtract x0 x1 x2 x3 => Sys2Proof.Machine.execVmovExtract x0 x1 x2 x3 s
  | .vmovInsert x0 x1 x2 x3 => Sys2Proof.Machine.execVmovInsert x0 x1 x2 x3 s
  | .vbc x0 x1 => Sys2Proof.Machine.execVbc x0 x1 s
  | .vcvt x0 x1 x2 x3 x4 x5 x6 => Sys2Proof.Machine.execVcvt x0 x1 x2 x3 x4 x5 x6 s
  | .vld x0 x1 x2 x3 x4 x5 => Sys2Proof.Machine.execVld x0 x1 x2 x3 x4 x5 s
  | .vst x0 x1 x2 x3 x4 x5 => Sys2Proof.Machine.execVst x0 x1 x2 x3 x4 x5 s
  | .vldw x0 x1 x2 x3 x4 => Sys2Proof.Machine.execVldw x0 x1 x2 x3 x4 s
  | .vstw x0 x1 x2 x3 x4 => Sys2Proof.Machine.execVstw x0 x1 x2 x3 x4 s
  | .vgath x0 x1 x2 x3 x4 x5 => Sys2Proof.Machine.execVgath x0 x1 x2 x3 x4 x5 s
  | .vscat x0 x1 x2 x3 x4 x5 => Sys2Proof.Machine.execVscat x0 x1 x2 x3 x4 x5 s
  | .vrrot x0 x1 x2 => Sys2Proof.Machine.execVrrot x0 x1 x2 s
  | .vrbc x0 x1 x2 => Sys2Proof.Machine.execVrbc x0 x1 x2 s
  | .vcrot x0 x1 x2 => Sys2Proof.Machine.execVcrot x0 x1 x2 s
  | .vcbc x0 x1 x2 => Sys2Proof.Machine.execVcbc x0 x1 x2 s
  | .vrred x0 x1 x2 x3 x4 x5 => Sys2Proof.Machine.execVrred x0 x1 x2 x3 x4 x5 s
  | .vcred x0 x1 x2 x3 x4 x5 => Sys2Proof.Machine.execVcred x0 x1 x2 x3 x4 x5 s
  | .vrscan x0 x1 x2 x3 x4 x5 => Sys2Proof.Machine.execVrscan x0 x1 x2 x3 x4 x5 s
  | .vcscan x0 x1 x2 x3 x4 x5 => Sys2Proof.Machine.execVcscan x0 x1 x2 x3 x4 x5 s
  | .vtrp x0 x1 => Sys2Proof.Machine.execVtrp x0 x1 s
  | .vperm x0 x1 x2 => Sys2Proof.Machine.execVperm x0 x1 x2 s
  | .mpush x0 => Sys2Proof.Machine.execMpush x0 s
  | .minv => Sys2Proof.Machine.execMinv s
  | .mpop => Sys2Proof.Machine.execMpop s
  | .mand x0 => Sys2Proof.Machine.execMand x0 s
  | .vexpf x0 x1 => Sys2Proof.Machine.execVexpf x0 x1 s
  | .vexpx x0 x1 => Sys2Proof.Machine.execVexpx x0 x1 s
  | .vlogf x0 x1 => Sys2Proof.Machine.execVlogf x0 x1 s
  | .vlogx x0 x1 => Sys2Proof.Machine.execVlogx x0 x1 s
  | .vrcpf x0 x1 => Sys2Proof.Machine.execVrcpf x0 x1 s
  | .vrcpx x0 x1 => Sys2Proof.Machine.execVrcpx x0 x1 s
  | .vrsqf x0 x1 => Sys2Proof.Machine.execVrsqf x0 x1 s
  | .vrsqx x0 x1 => Sys2Proof.Machine.execVrsqx x0 x1 s
  | .vsinf x0 x1 => Sys2Proof.Machine.execVsinf x0 x1 s
  | .vsinx x0 x1 => Sys2Proof.Machine.execVsinx x0 x1 s
  | .vcosf x0 x1 => Sys2Proof.Machine.execVcosf x0 x1 s
  | .vcosx x0 x1 => Sys2Proof.Machine.execVcosx x0 x1 s
  | .vtanhf x0 x1 => Sys2Proof.Machine.execVtanhf x0 x1 s
  | .vtanhx x0 x1 => Sys2Proof.Machine.execVtanhx x0 x1 s
  | .vdot8 x0 x1 x2 x3 x4 x5 x6 => Sys2Proof.Machine.execVdot8 x0 x1 x2 x3 x4 x5 x6 s
  | .vdotb x0 x1 x2 x3 x4 x5 x6 => Sys2Proof.Machine.execVdotb x0 x1 x2 x3 x4 x5 x6 s
  | .vscl x0 x1 x2 x3 x4 x5 x6 => Sys2Proof.Machine.execVscl x0 x1 x2 x3 x4 x5 x6 s
  | .vrng x0 => Sys2Proof.Machine.execVrng x0 s
  | .vpkp x0 x1 x2 x3 x4 => Sys2Proof.Machine.execVpkp x0 x1 x2 x3 x4 s
  | .vxtp x0 x1 x2 x3 => Sys2Proof.Machine.execVxtp x0 x1 x2 x3 s
  | .storePerform x0 => Sys2Proof.Machine.execStorePerform x0 s
  | .recordRetire x0 => Sys2Proof.Machine.execRecordRetire x0 s
  | .barrierArrival x0 => Sys2Proof.Machine.execBarrierArrival x0 s
  | .destroyNotice x0 => Sys2Proof.Machine.execDestroyNotice x0 s
  | .flitReceive x0 x1 => Sys2Proof.Machine.execFlitReceive x0 x1 s
  | .flitReplay x0 x1 => Sys2Proof.Machine.execFlitReplay x0 x1 s
  | .flitSend x0 => Sys2Proof.Machine.execFlitSend x0 s
  | .latencyProbe x0 => Sys2Proof.Machine.execLatencyProbe x0 s
  | .probeEcho x0 => Sys2Proof.Machine.execProbeEcho x0 s
  | .linkFailResends x0 => Sys2Proof.Machine.execLinkFailResends x0 s
  | .linkFailSilence x0 => Sys2Proof.Machine.execLinkFailSilence x0 s
  | .ringStall x0 => Sys2Proof.Machine.execRingStall x0 s
  | .podStep x0 => Sys2Proof.Machine.execPodStep x0 s
  | .repairReport x0 => Sys2Proof.Machine.execRepairReport x0 s
  | .repairAnnouncement x0 => Sys2Proof.Machine.execRepairAnnouncement x0 s
  | .domainAbort x0 => Sys2Proof.Machine.execDomainAbort x0 s
  | .localClockStep x0 x1 => Sys2Proof.Machine.execLocalClockStep x0 x1 s
  | .thermalShutdown x0 => Sys2Proof.Machine.execThermalShutdown x0 s
  | .softError x0 => Sys2Proof.Machine.execSoftError x0 s
  | .setEventq x0 => Sys2Proof.Machine.execSetEventq x0 s
  | .attest x0 => Sys2Proof.Machine.execAttest x0 s
  | .update x0 => Sys2Proof.Machine.execUpdate x0 s
  | .powerLimit x0 => Sys2Proof.Machine.execPowerLimit x0 s
  | .hostRead x0 x1 => Sys2Proof.Machine.execHostRead x0 x1 s
  | .hostPostedWrite x0 x1 => Sys2Proof.Machine.execHostPostedWrite x0 x1 s
  | .hostFetchadd x0 x1 => Sys2Proof.Machine.execHostFetchadd x0 x1 s
  | .hostCompareAndSwap x0 x1 x2 => Sys2Proof.Machine.execHostCompareAndSwap x0 x1 x2 s
  | .testEnableStrap x0 => Sys2Proof.Machine.execTestEnableStrap x0 s
  | .vectorIssue => Sys2Proof.Machine.execVectorIssue s
  | .vectorComplete => Sys2Proof.Machine.execVectorComplete s
  | .loadDataArrival => Sys2Proof.Machine.execLoadDataArrival s
  | .pdotF64 => Sys2Proof.Machine.execPdotF64 s
  | .pdotF32 => Sys2Proof.Machine.execPdotF32 s
  | .pdotBf16 => Sys2Proof.Machine.execPdotBf16 s
  | .plog66 => Sys2Proof.Machine.execPlog66 s
  | .plog68 => Sys2Proof.Machine.execPlog68 s
  | .plog88 => Sys2Proof.Machine.execPlog88 s
  | .pmulp => Sys2Proof.Machine.execPmulp s
  | .pmul => Sys2Proof.Machine.execPmul s
  | .pscale => Sys2Proof.Machine.execPscale s
  | .pnorm => Sys2Proof.Machine.execPnorm s
  | .pzero => Sys2Proof.Machine.execPzero s
  | .pload => Sys2Proof.Machine.execPload s
  | .pdrain => Sys2Proof.Machine.execPdrain s
  | .pxtp => Sys2Proof.Machine.execPxtp s
  | .xcopy => Sys2Proof.Machine.execXcopy s
  | .xcopyTable => Sys2Proof.Machine.execXcopyTable s
  | .xcvt => Sys2Proof.Machine.execXcvt s
  | .xfill => Sys2Proof.Machine.execXfill s
  | .xgath => Sys2Proof.Machine.execXgath s
  | .xscat => Sys2Proof.Machine.execXscat s
  | .xrestr => Sys2Proof.Machine.execXrestr s
  | .xprol => Sys2Proof.Machine.execXprol s
  | .xsten => Sys2Proof.Machine.execXsten s
  | .xslab => Sys2Proof.Machine.execXslab s
  | .xslabRelease => Sys2Proof.Machine.execXslabRelease s
  | .xput => Sys2Proof.Machine.execXput s
  | .xget => Sys2Proof.Machine.execXget s
  | .xsend => Sys2Proof.Machine.execXsend s
  | .xsig => Sys2Proof.Machine.execXsig s
  | .xmlrSetup => Sys2Proof.Machine.execXmlrSetup s
  | .xmlr => Sys2Proof.Machine.execXmlr s
  | .xtmark => Sys2Proof.Machine.execXtmark s
  | .xmlrCombine => Sys2Proof.Machine.execXmlrCombine s
  | .xmlrTimeout => Sys2Proof.Machine.execXmlrTimeout s
  | .xmlrSetupTimeout => Sys2Proof.Machine.execXmlrSetupTimeout s
  | .signalUpdate => Sys2Proof.Machine.execSignalUpdate s
  | .signalResend => Sys2Proof.Machine.execSignalResend s
  | .sigwLimit => Sys2Proof.Machine.execSigwLimit s
  | .mergeApply => Sys2Proof.Machine.execMergeApply s
  | .finalMerge => Sys2Proof.Machine.execFinalMerge s
  | .taskLogApply => Sys2Proof.Machine.execTaskLogApply s
  | .streamLogApply => Sys2Proof.Machine.execStreamLogApply s
  | .packetFetch => Sys2Proof.Machine.execPacketFetch s
  | .queuePoll => Sys2Proof.Machine.execQueuePoll s
  | .launch => Sys2Proof.Machine.execLaunch s
  | .gangLaunch => Sys2Proof.Machine.execGangLaunch s
  | .bindKernel => Sys2Proof.Machine.execBindKernel s
  | .registerRequest => Sys2Proof.Machine.execRegisterRequest s
  | .registerNeed => Sys2Proof.Machine.execRegisterNeed s
  | .removeNeed => Sys2Proof.Machine.execRemoveNeed s
  | .setRequestState => Sys2Proof.Machine.execSetRequestState s
  | .unbind => Sys2Proof.Machine.execUnbind s
  | .signalWait => Sys2Proof.Machine.execSignalWait s
  | .waitTimeout => Sys2Proof.Machine.execWaitTimeout s
  | .signalSet => Sys2Proof.Machine.execSignalSet s
  | .fetchFence => Sys2Proof.Machine.execFetchFence s
  | .barrierPacket => Sys2Proof.Machine.execBarrierPacket s
  | .destroy => Sys2Proof.Machine.execDestroy s
  | .destroyTick => Sys2Proof.Machine.execDestroyTick s
  | .packetRetire => Sys2Proof.Machine.execPacketRetire s
  | .placementChoice => Sys2Proof.Machine.execPlacementChoice s
  | .contextSaveDone => Sys2Proof.Machine.execContextSaveDone s
  | .gangReadyCheck => Sys2Proof.Machine.execGangReadyCheck s
  | .gangNotReady => Sys2Proof.Machine.execGangNotReady s
  | .gangDefer => Sys2Proof.Machine.execGangDefer s
  | .gangStart => Sys2Proof.Machine.execGangStart s
  | .dieLaunchReport => Sys2Proof.Machine.execDieLaunchReport s
  | .taskRetire => Sys2Proof.Machine.execTaskRetire s
  | .coreFuse => Sys2Proof.Machine.execCoreFuse s
  | .batchFormation => Sys2Proof.Machine.execBatchFormation s
  | .streamStart => Sys2Proof.Machine.execStreamStart s
  | .shardDeparture => Sys2Proof.Machine.execShardDeparture s
  | .departureDeadline => Sys2Proof.Machine.execDepartureDeadline s
  | .ringStallBegin => Sys2Proof.Machine.execRingStallBegin s
  | .ringStallEnd => Sys2Proof.Machine.execRingStallEnd s
  | .repairTick => Sys2Proof.Machine.execRepairTick s
  | .reinjection => Sys2Proof.Machine.execReinjection s
  | .ringInject => Sys2Proof.Machine.execRingInject s
  | .safeGap => Sys2Proof.Machine.execSafeGap s
  | .powerLimitExceeded => Sys2Proof.Machine.execPowerLimitExceeded s
  | .eventPost => Sys2Proof.Machine.execEventPost s
  | .overflow => Sys2Proof.Machine.execOverflow s
  | .heartbeat => Sys2Proof.Machine.execHeartbeat s
  | .takeover => Sys2Proof.Machine.execTakeover s
  | .ringRestart => Sys2Proof.Machine.execRingRestart s
  | .resetPackage => Sys2Proof.Machine.execResetPackage s
  | .powerOnReset => Sys2Proof.Machine.execPowerOnReset s
  | .bypass => Sys2Proof.Machine.execBypass s
  | .samplePreload => Sys2Proof.Machine.execSamplePreload s
  | .extest => Sys2Proof.Machine.execExtest s
  | .idcode => Sys2Proof.Machine.execIdcode s
  | .warmReset => Sys2Proof.Machine.execWarmReset s
  | .powerLoss => Sys2Proof.Machine.execPowerLoss s
  | .forcedStallCycle => Sys2Proof.Machine.execForcedStallCycle s
  | .signalAcknowledge => Sys2Proof.Machine.execSignalAcknowledge s
  | .fabricPortLoss => Sys2Proof.Machine.execFabricPortLoss s
  | .fabricPortReturn => Sys2Proof.Machine.execFabricPortReturn s

end Sys2Proof.Machine
end

