-- ==== Sys2Proof/Machine/Step.lean ====
section
/-! DEFINITION. One step of the device, and the placing of an instruction for the next step. -/

namespace Sys2Proof.Machine

/-- One step (R19, R180): the agent whose turn it is moves once. -/
def step (s : State) : Host.Outcome State Fault Refusal := stepWith exec s

/-- The state in which the next step runs the instruction whose bits are w: a 64-bit word at the pc, or a record at the
head of its queue. -/
def State.withFetchWord (s : State) (nbits w : Nat) : State :=
  if 64 < nbits then s.withRecord (recordWords w) else s.withWord (BitVec.ofNat 64 w)

end Sys2Proof.Machine
end

