-- ==== Sys2Proof/Safety.lean ====
section
/-! DEFINITION. The terms that statements about the device use: when a state is sound and when a step keeps it so, when the
sequencer issues a word, when a result fits its register, and what the frame of a word leaves unchanged. -/

namespace Sys2Proof.Machine

/-! ### Sound states and safe steps -/

/-- A sound state: memory stands in its canonical form, so that equal memories are equal data. -/
def State.Sound (s : State) : Prop := Memory.wf s.mem = true

/-- Every core, die and package is held under its own key, and the current core is not parked. -/
def State.Keyed (s : State) : Prop :=
  (∀ e ∈ s.parked, e.2.key = e.1 ∧ e.1 ≠ s.core.key) ∧ (∀ e ∈ s.dies, e.2.key = e.1) ∧ ∀ e ∈ s.pkgs, e.2.pkg = e.1

/-- A step from s is safe: where it answers a next state, that state is sound. -/
def State.SafeStep (s : State) : Prop := ∀ t, step s = .next t → t.Sound

/-- t follows s in some number of steps. -/
inductive Reaches : State → State → Prop where
  | refl (s : State) : Reaches s s
  | step {s t u : State} (h : Reaches s t) (k : Sys2Proof.Machine.step t = .next u) : Reaches s u

/-! ### When the sequencer issues a word -/

/-- The sequencer's turn is in a core cycle that has begun, is no stall cycle, and before which no other core has one to finish; the package
runs and the task runs (R180, R394). -/
def State.turnOpen (s : State) : Prop :=
  (s.getPkg s.core.key.pkg).power = true ∧ (s.getPkg s.core.key.pkg).inReset = false ∧ s.core.phase = .running
    ∧ s.allCores.any (fun c => s.working c && decide (c.clock < s.core.clock)) = false ∧ s.core.verdict = some false

/-- The word at the pc may issue: no fault is due at the boundary or waits to be taken, the word waits for no data, result or cycle, a section
entry has reached its origin, and no byte of the word holds a soft error (R180, R291, R392, R397). -/
def State.wordFree (s : State) : Prop :=
  s.core.phase = .running ∧ s.core.trap = none ∧ s.core.boundaryFault = none ∧ s.interlocked = false ∧ s.core.beforeSection = false
    ∧ s.spoiled (codePA s.core.key + s.core.wordAddr.toNat) 8 = false

/-- The word at the pc issues in this core cycle, after the cycle's work of the engines. -/
def State.issues (s : State) : Prop := s.turnOpen ∧ (s.work exec).wordFree

/-- The state in which the meaning of the word w runs: the engines have done the cycle's work, the cycle has passed and the word is in the
instruction register. -/
def State.issuing (s : State) (w : Word) : State := (s.work exec).issued w

/-- A fault is taken at once: the vector words before it have completed, and no fault has ended the task (R225, R397, R400). -/
abbrev Core.precise (c : Core) : Prop := c.vectorIdle = true ∧ c.phase ≠ .ending .fault

/-- The core of a word that goes on waiting for a delay of Table 15.1: in fixed mode it asks for a stall cycle (R394). -/
def Core.delayed (c : Core) : Core := { c with stalled := c.stalled || c.fixed }

/-- The same in a word through whose wait the watchdog counts (R405). -/
def Core.delayedCounted (c : Core) : Core :=
  { c with stalled := c.stalled || c.fixed, watch := if c.fixed = true then c.watch + 1 else c.watch }

/-! ### Results in registers -/

/-- v may be written to g[d]: a value for sp is a multiple of 8 and not below SLIM (R181). -/
def Core.fits (c : Core) (d : GReg) (v : Word) : Prop := d.val = 32 → c.ctl.slim.toNat ≤ v.toNat ∧ v.toNat % 8 = 0

/-- The word i writes to g[d] the value that `P` singles out, and retires; it changes nothing else (R183). -/
def writesReg (i : Instr) (d : GReg) (P : Core → Word → Prop) : Prop :=
  ∀ (s : State) (v : Word), P s.core v → s.core.fits d v → exec i s = .next { s with core := (s.core.wr d v).retire }

/-- The word i writes to p[d] whether `P` holds, and retires; it changes nothing else (R188, R189). -/
def writesPred (i : Instr) (d : PReg) (P : Core → Prop) : Prop :=
  ∀ (s : State) (b : Bool), (b = true ↔ P s.core) → exec i s = .next { s with core := (s.core.wp d b).retire }

/-! ### Frames -/

/-- s with another current core. -/
abbrev State.withCore (s : State) (c : Core) : State := { s with core := c }

/-- c' differs from c at most in what moving the pc and retiring a word change: the pc, loop counters, the progress of a REP
sequence, a wait, the coming to a section entry, the number of the next free fetch, the cycle of the next word, and the mark that the task
has executed a word. -/
def Core.moved (c c' : Core) : Prop :=
  c' = { c with pc := c'.pc, lc := c'.lc, rep := c'.rep, repResume := c'.repResume, repHeld := c'.repHeld, wait := c'.wait
                entering := c'.entering, nextAt := c'.nextAt, fetches := c'.fetches, task := c'.task }
    ∧ c'.task.map (fun t => { t with executed := true }) = c.task.map (fun t => { t with executed := true })

/-- The marks of what the task's image holds as it stands, where general registers have been written (R407). -/
def Core.cleanG (c d : Core) : Clean := { c.clean with g := d.clean.g }

/-- t differs from s in the current core alone. -/
def State.coreOnly (s t : State) : Prop := t = { s with core := t.core }

/-- t differs from s in the current core and in memory alone: in its bytes, in which of them hold soft errors, in the marks of lines that
context images hold as they stand, and in what snapshots keep (R311, R407, R416). -/
def State.coreAndMemory (s t : State) : Prop :=
  t = { s with core := t.core, mem := t.mem, bad := t.bad, cleanLines := t.cleanLines, veils := t.veils }

/-- Every byte of memory reads as before. -/
def State.sameMemory (s t : State) : Prop := ∀ a, t.byte a = s.byte a

/-- The frame of a word whose destination is g[d]: every other register, every flag, control register, engine and byte of
memory is unchanged. -/
def frameReg (d : GReg) (s t : State) : Prop :=
  s.coreOnly t ∧ s.sameMemory t ∧ (∀ r, r ≠ d → t.core.rd r = s.core.rd r)
    ∧ { s.core with g := t.core.g, clean := s.core.cleanG t.core }.moved t.core

/-- The frame of a word whose destination is p[d]. -/
def framePred (d : PReg) (s t : State) : Prop :=
  s.coreOnly t ∧ s.sameMemory t ∧ (∀ r, r ≠ d → t.core.rp r = s.core.rp r)
    ∧ { s.core with p := t.core.p }.moved t.core

/-- The frame of a word that only moves the pc. -/
def framePc (s t : State) : Prop := s.coreOnly t ∧ s.sameMemory t ∧ s.core.moved t.core

/-- Every byte of memory but n bytes at a reads as before. -/
def State.sameMemoryBut (s t : State) (a n : Nat) : Prop := ∀ x, (x < a ∨ a + n ≤ x) → t.byte x = s.byte x

end Sys2Proof.Machine
end

