-- ==== Sys2Proof/Certificates/Slice0/Obligations.lean ====
section
/-! DEFINITION. The statements about the device that the provers are asked to settle. Each cites the rules of spec/ that it
formalises; where a clause is the model's own choice, the docstring names the entry of the assumption log. -/

open Sys2Proof Sys2Proof.Machine

/-! ### Encoding (Tables 7.1 to 7.5, R150 to R154) -/

/-- Every well-formed instruction word, with every guard that it may carry (a REP prefix carries none, Table 7.5) and every operand
value, decodes from its encoding to itself. -/
def Obligations.EncodedWordDecodesBack : Prop :=
  ∀ g : Guarded, g.instr.isWord = true → g.wellFormed = true → ∃ w, encode g = some w ∧ decode w = .ok g

/-- A word that the decoder accepts is the encoding of the instruction it was read as: no bit of it is ignored (R154), and the
instruction passes checks 3 and 4. -/
def Obligations.AcceptedWordIsItsEncoding : Prop :=
  ∀ (w : Word) (g : Guarded), decode w = .ok g → encode g = some w ∧ g.wellFormed = true

/-- The major opcodes that Table 7.4 lists with a mnemonic. -/
def Sys2Proof.Machine.listedMajor (m : Nat) : Prop :=
  (0x01 ≤ m ∧ m ≤ 0x0E) ∨ (0x30 ≤ m ∧ m ≤ 0x32) ∨ (0x40 ≤ m ∧ m ≤ 0x46) ∨ (0x50 ≤ m ∧ m ≤ 0x54) ∨ m = 0x5C ∨ (0x60 ≤ m ∧ m ≤ 0x6C)
    ∨ (0x70 ≤ m ∧ m ≤ 0x75) ∨ m = 0x78 ∨ m = 0x79 ∨ (0x80 ≤ m ∧ m ≤ 0x92) ∨ m = 0xFC

/-- The worked encodings of Tables 8.11 and of R209 and R218 decode to the instructions that they stand for.
Every word whose major opcode Table 7.4 does not list is refused by check 1 of R154, whatever its other bits. -/
def Obligations.WordsDecodeAsTheTablesSay : Prop :=
  (decode 0x0920_0841_4000_0000 = .ok ⟨false, 0, .cmplts 2 4 5⟩
    ∧ decode 0x3030_0C41_46C0_0000 = .ok ⟨false, 0, .ffma true (some .rne) 3 4 5 6⟩
    ∧ decode 0x0810_1C80_0000_070C = .ok ⟨false, 0, .bfxn 7 8 12 7⟩
    ∧ decode 0x4020_0032_FFFF_FFE8 = .ok ⟨false, 0, .bwe 3 2 (BitVec.ofInt 32 (-24))⟩
    ∧ decode 0x4200_0000_FFFF_FFC0 = .ok ⟨false, 0, .call (BitVec.ofInt 32 (-64))⟩
    ∧ decode 0x5100_0000_FFFF_FFD0 = .ok ⟨false, 0, .spadj (BitVec.ofInt 32 (-48))⟩
    ∧ decode 0x5310_0100_0000_0000 = .ok ⟨false, 0, .enqr 1⟩
    ∧ decode 0x7800_0400_0000_0000 = .ok ⟨false, 0, .ctlrd 1 0⟩)
  ∧ ∀ w : Word, ¬ listedMajor (w.toNat / 2 ^ 56) → decode w = .error 1

/-! ### Steps (R19, R154, R155, R180) -/

/-- A step runs the decoded instruction: where the sequencer has the turn in a core cycle that is no stall cycle, and its word may issue, and
the word (at the pc, with the overlay of R40; the next repeat inside a REP sequence) decodes to g with a guard that holds, the step is the
meaning of g's instruction on the state in which the engines have done the cycle's work, the cycle has passed, the word stands in the
instruction register and its result's latency is noted (Table 8.1). The turn is the model's own input (entry 3), and a core cycle's records
and vector words come before its sequencer's word (entry 3).
A word whose guard is false changes nothing but what its retirement changes, loop-end processing included (R155).
A word that fails check n of R154 raises UNDEFINED_INSTRUCTION with DETAIL n, whatever its guard; the fault is taken once
every vector word dispatched earlier has completed (R397).
A device event that has the turn takes place by its own meaning, at the place that the turn names (entry 3).
A word that names a register whose load data has not arrived does not issue: the core cycle passes without it (R180, R291; that a register
which the word only writes is waited for too is entry 85).
In a turn in which no core cycle has begun, a cycle begins on every core on which it does; in a stall cycle the timetable time stands (R394). -/
def Obligations.StepRunsTheDecodedInstruction : Prop :=
  (∀ (s : State) (r : List Turn), s.turns = .seq :: r →
    let s' : State := { s with turns := r, skipped := false }
    let u := s'.work exec
    let w := u.nextWord
    (State.issues s' → ∀ g : Guarded, decode w = .ok g → (u.core.rep.isSome = true ∨ u.core.rp g.gp ≠ g.neg) →
      step s = exec g.instr ((s'.issuing w).withCore ((s'.issuing w).core.noteResult g.instr)))
    ∧ (State.issues s' → ∀ g : Guarded, decode w = .ok g → u.core.rep = none → u.core.rp g.gp = g.neg →
      step s = .next (s'.issuing w).retire)
    ∧ (State.issues s' → ∀ n, decode w = .error n → u.core.precise →
      step s = .next (takeFault { code := 1, detail := n } (s'.issuing w)))
    ∧ (State.turnOpen s' → u.core.phase = .running → u.core.trap = none → u.core.boundaryFault = none →
      (∃ l ∈ u.core.loads, ∃ g d sz, decode w = .ok g ∧ u.core.rep = none ∧ u.core.rp g.gp ≠ g.neg ∧ l.dst = .reg d sz ∧ d ≠ 0
        ∧ d ∈ gNames g.instr) →
      step s = .next u)
    ∧ ((s.getPkg s.core.key.pkg).power = true → (s.getPkg s.core.key.pkg).inReset = false → s.core.phase ≠ .free →
      s.allCores.any (fun c => s.working c && decide (c.clock < s.core.clock)) = false →
      (s.core.verdict = none → step s = .next (s'.boundary exec))
      ∧ (s.core.verdict = some true → step s = .next (s'.stallCycle exec))))
  ∧ ∀ (s : State) (r : List Turn) (p : Place) (i : Instr), s.turns = .ev p i :: r →
    step s = exec i { s with turns := r, skipped := false, place := p }

/-- No instruction and no event stops the machine, and every one of them has a meaning.
The machine stops only where the current core's package is without power or held in reset (R428). -/
def Obligations.NothingStopsTheMachineButPower : Prop :=
  (∀ (i : Instr) (s : State), (∀ f, exec i s ≠ .fault f) ∧ (∀ m, exec i s ≠ .refused (.notModelled m)))
  ∧ (∀ (s : State) (f : Fault), step s = .fault f →
    (s.getPkg s.core.key.pkg).power = false ∨ (s.getPkg s.core.key.pkg).inReset = true)

/-! ### Invariants -/

/-- Every step keeps memory in canonical form: instruction words, records, packets, events and resets alike. -/
def Obligations.StepKeepsMemoryCanonical : Prop := ∀ s : State, s.Sound → s.SafeStep

/-- Every core, die and package stays under its own key, and the current core stays out of the parked ones, at every step. -/
def Obligations.StepKeepsKeys : Prop := ∀ s t : State, s.Keyed → step s = .next t → t.Keyed

/-- Memory is in canonical form at reset, and every core, die and package is held under its own key.
At power-on: no task, every general register zero, p0 one, pc zero, no predicate set, tokens idle, guard slots unresolved
but gs0, every page unmapped, memory zero (R165, R356, R428). COREID names core 0 of die 0 of package 0 (entry 1). -/
def Obligations.ResetState : Prop :=
  (State.reset.Sound ∧ State.reset.Keyed)
  ∧ (let s := State.reset
  s.core.phase = .free ∧ s.core.task = none ∧ (∀ r, s.core.rd r = 0) ∧ (∀ q, s.core.rp q = decide (q = 0)) ∧ s.core.pc = 0
    ∧ (∀ k, s.core.tok.get k = ⟨0, 0⟩) ∧ (∀ k, s.core.slot k = if k = 0 then .resolved true else .unresolved)
    ∧ s.core.ctl.mode = 0 ∧ s.core.ctl.fpcs = 0 ∧ s.core.ctl.coreid = 0 ∧ (∀ a, s.byte a = 0)
    ∧ (∀ i, (s.core.bars.get i).ec = 0) ∧ s.queues = [])

/-! ### Registers and the pc (R165, R181, R198) -/

/-- A register reads what was last written to it; g0 and p0 discard writes, g0 reads zero and p0 reads one (R181, Table 7.9). -/
def Obligations.RegistersReadBack : Prop :=
  ∀ (c : Core) (v : Word) (b : Bool),
    (∀ d r : GReg, (c.wr d v).rd r = if r = d ∧ d ≠ 0 then v else c.rd r) ∧ c.rd 0 = 0 ∧ c.wr 0 v = c
      ∧ (∀ d q : PReg, (c.wp d b).rp q = if q = d ∧ d ≠ 0 then b else c.rp q) ∧ c.rp 0 = true ∧ c.wp 0 b = c

/-- Loop-end processing at the retirement of a word at address a outside a REP sequence: counters are visited innermost first;
an active one that ends at a counts one pass; where passes remain the pc goes to its start and the visit ends there, else the
counter becomes inactive and the visit goes on; with none left the pc is a + 8 (R198). -/
def Obligations.LoopEndVisitsCountersInnermostFirst : Prop :=
  ∀ c : Core, c.rep = none →
    (∀ n : Fin 4, (∀ m : Fin 4, m < n → (c.lc.get m).active = true → (c.lc.get m).fin = c.pc → (c.lc.get m).count = 1) →
        (c.lc.get n).active = true → (c.lc.get n).fin = c.pc → (c.lc.get n).count ≠ 1 →
      c.retire.pc = (c.lc.get n).start ∧ c.retire.lc.get n = { c.lc.get n with count := (c.lc.get n).count - 1 }
        ∧ (∀ m : Fin 4, m < n → c.retire.lc.get m =
            if (c.lc.get m).active = true ∧ (c.lc.get m).fin = c.pc then { c.lc.get m with count := 0, active := false } else c.lc.get m)
        ∧ (∀ m : Fin 4, n < m → c.retire.lc.get m = c.lc.get m))
      ∧ ((∀ n : Fin 4, (c.lc.get n).active = true → (c.lc.get n).fin = c.pc → (c.lc.get n).count = 1) →
        c.retire.pc = c.pc + 8
          ∧ ∀ m : Fin 4, c.retire.lc.get m =
              if (c.lc.get m).active = true ∧ (c.lc.get m).fin = c.pc then { c.lc.get m with count := 0, active := false } else c.lc.get m)

/-! ### Integer words (R153, R183 to R189) -/

/-- q and r are the quotient truncated towards zero and the remainder of x by y ≠ 0. -/
def Sys2Proof.Machine.truncDiv (x y q r : Int) : Prop := x = y * q + r ∧ r.natAbs < y.natAbs ∧ (r = 0 ∨ (r < 0 ↔ x < 0))

/-- NOP only retires. The three-register words of Table 8.2 write the sum, the difference, the low or high half of the product
and the bitwise combinations of their operands, modulo 2⁶⁴.
Division truncates towards zero and never faults: a zero divisor gives −1 (2⁶⁴ − 1 unsigned) with the dividend as the
remainder, and −2⁶³ by −1 wraps to −2⁶³ with remainder 0 (R184). -/
def Obligations.ArithmeticResults : Prop :=
  ((∀ s, exec .nop s = .next { s with core := s.core.retire }) ∧
  ∀ d a b : GReg,
    writesReg (.add d a b) d (fun c v => v = BitVec.ofInt 64 ((c.rd a).toInt + (c.rd b).toInt))
    ∧ writesReg (.sub d a b) d (fun c v => v = BitVec.ofInt 64 ((c.rd a).toInt - (c.rd b).toInt))
    ∧ writesReg (.mul d a b) d (fun c v => v = BitVec.ofNat 64 ((c.rd a).toNat * (c.rd b).toNat))
    ∧ writesReg (.mulhs d a b) d (fun c v => v.toInt = (c.rd a).toInt * (c.rd b).toInt / 2 ^ 64)
    ∧ writesReg (.mulhn d a b) d (fun c v => v.toNat = (c.rd a).toNat * (c.rd b).toNat / 2 ^ 64)
    ∧ writesReg (.and d a b) d (fun c v => ∀ i, v.getLsbD i = ((c.rd a).getLsbD i && (c.rd b).getLsbD i))
    ∧ writesReg (.or d a b) d (fun c v => ∀ i, v.getLsbD i = ((c.rd a).getLsbD i || (c.rd b).getLsbD i))
    ∧ writesReg (.xor d a b) d (fun c v => ∀ i, v.getLsbD i = ((c.rd a).getLsbD i != (c.rd b).getLsbD i))
    ∧ writesReg (.andn d a b) d (fun c v => ∀ i < 64, v.getLsbD i = ((c.rd a).getLsbD i && !(c.rd b).getLsbD i)))
  ∧ (∀ d a b : GReg,
    writesReg (.divs d a b) d (fun c v => if c.rd b = 0 then v = BitVec.ofInt 64 (-1)
      else ∃ q r, truncDiv (c.rd a).toInt (c.rd b).toInt q r ∧ v = BitVec.ofInt 64 q)
    ∧ writesReg (.rems d a b) d (fun c v => if c.rd b = 0 then v = c.rd a
      else ∃ q r, truncDiv (c.rd a).toInt (c.rd b).toInt q r ∧ v = BitVec.ofInt 64 r)
    ∧ writesReg (.divn d a b) d (fun c v => if c.rd b = 0 then v.toNat = 2 ^ 64 - 1
      else ∃ r < (c.rd b).toNat, (c.rd a).toNat = (c.rd b).toNat * v.toNat + r)
    ∧ writesReg (.remn d a b) d (fun c v => if c.rd b = 0 then v = c.rd a
      else v.toNat < (c.rd b).toNat ∧ (c.rd b).toNat ∣ (c.rd a).toNat - v.toNat ∧ v.toNat ≤ (c.rd a).toNat))

/-- Shifts and rotates take the low six bits of g[B]; counts of zeros and ones; sign extension from n bits; minimum, maximum and
select (Table 8.2).
The immediate words of Table 8.3, the bitfield words (R186) and LEA (R187). -/
def Obligations.ShiftImmediateFieldResults : Prop :=
  (∀ (d a b : GReg) (q : PReg) (n : Fin 64),
    writesReg (.shl d a b) d (fun c v => v = BitVec.ofNat 64 ((c.rd a).toNat * 2 ^ ((c.rd b).toNat % 64)))
    ∧ writesReg (.shrl d a b) d (fun c v => v.toNat = (c.rd a).toNat / 2 ^ ((c.rd b).toNat % 64))
    ∧ writesReg (.shra d a b) d (fun c v => v.toInt = (c.rd a).toInt / 2 ^ ((c.rd b).toNat % 64))
    ∧ writesReg (.rotl d a b) d (fun c v => ∀ i < 64, v.getLsbD ((i + (c.rd b).toNat) % 64) = (c.rd a).getLsbD i)
    ∧ writesReg (.clz d a) d (fun c v => v.toNat ≤ 64 ∧ (c.rd a).toNat < 2 ^ (64 - v.toNat)
        ∧ (v.toNat < 64 → 2 ^ (63 - v.toNat) ≤ (c.rd a).toNat))
    ∧ writesReg (.ctz d a) d (fun c v => v.toNat ≤ 64 ∧ (∀ i < v.toNat, (c.rd a).getLsbD i = false)
        ∧ (v.toNat < 64 → (c.rd a).getLsbD v.toNat = true))
    ∧ writesReg (.popc d a) d (fun c v => v.toNat = ((List.range 64).map (fun i => (c.rd a).toNat / 2 ^ i % 2)).sum)
    ∧ writesReg (.sext d a n) d (fun c v => v = ((c.rd a).truncate (n.val + 1)).signExtend 64)
    ∧ writesReg (.mins d a b) d (fun c v => v.toInt = min (c.rd a).toInt (c.rd b).toInt)
    ∧ writesReg (.minn d a b) d (fun c v => v.toNat = min (c.rd a).toNat (c.rd b).toNat)
    ∧ writesReg (.maxs d a b) d (fun c v => v.toInt = max (c.rd a).toInt (c.rd b).toInt)
    ∧ writesReg (.maxn d a b) d (fun c v => v.toNat = max (c.rd a).toNat (c.rd b).toNat)
    ∧ writesReg (.sel d a b q) d (fun c v => v = if c.rp q = true then c.rd a else c.rd b))
  ∧ (∀ (d a b : GReg) (i : BitVec 32) (n lo w : Fin 64) (k : Fin 8) (off : BitVec 16), lo.val + w.val + 1 ≤ 64 →
    writesReg (.addi d a i) d (fun c v => v = BitVec.ofInt 64 ((c.rd a).toInt + i.toInt))
    ∧ writesReg (.andi d a i) d (fun c v => v = c.rd a &&& BitVec.ofInt 64 i.toInt)
    ∧ writesReg (.ori d a i) d (fun c v => v = c.rd a ||| BitVec.ofNat 64 i.toNat)
    ∧ writesReg (.xori d a i) d (fun c v => v = c.rd a ^^^ BitVec.ofNat 64 i.toNat)
    ∧ writesReg (.shli d a n) d (fun c v => v = BitVec.ofNat 64 ((c.rd a).toNat * 2 ^ n.val))
    ∧ writesReg (.movi d i) d (fun _ v => v.toInt = i.toInt)
    ∧ writesReg (.movh d i) d (fun c v => v.toNat = i.toNat * 2 ^ 32 + (c.rd d).toNat % 2 ^ 32)
    ∧ writesReg (.lea d a b k off) d
        (fun c v => v = BitVec.ofInt 64 ((c.rd a).toInt + (c.rd b).toInt * 2 ^ k.val + off.toInt))
    ∧ writesReg (.bfxs d a lo w) d (fun c v => v = ((c.rd a >>> lo.val).truncate (w.val + 1)).signExtend 64)
    ∧ writesReg (.bfxn d a lo w) d (fun c v => v.toNat = (c.rd a).toNat / 2 ^ lo.val % 2 ^ (w.val + 1))
    ∧ writesReg (.bfi d a lo w) d (fun c v => ∀ j < 64, v.getLsbD j =
        if lo.val ≤ j ∧ j ≤ lo.val + w.val then (c.rd a).getLsbD (j - lo.val) else (c.rd d).getLsbD j))

/-- The compares (R188) and the predicate words (R189). -/
def Obligations.CompareAndPredicateResults : Prop :=
  (∀ (d : PReg) (a b : GReg),
    writesPred (.cmpeq d a b) d (fun c => c.rd a = c.rd b)
    ∧ writesPred (.cmpne d a b) d (fun c => c.rd a ≠ c.rd b)
    ∧ writesPred (.cmplts d a b) d (fun c => (c.rd a).toInt < (c.rd b).toInt)
    ∧ writesPred (.cmples d a b) d (fun c => (c.rd a).toInt ≤ (c.rd b).toInt)
    ∧ writesPred (.cmpltn d a b) d (fun c => (c.rd a).toNat < (c.rd b).toNat)
    ∧ writesPred (.cmplen d a b) d (fun c => (c.rd a).toNat ≤ (c.rd b).toNat)) ∧
  (∀ d a b : PReg,
    writesPred (.pand d a b) d (fun c => c.rp a = true ∧ c.rp b = true)
    ∧ writesPred (.por d a b) d (fun c => c.rp a = true ∨ c.rp b = true)
    ∧ writesPred (.pxor d a b) d (fun c => c.rp a ≠ c.rp b)
    ∧ writesPred (.pnot d a) d (fun c => c.rp a = false)) ∧
  (∀ d : GReg, writesReg (.prsave d) d (fun c v => ∀ i, v.getLsbD i = if h : i < 8 then c.rp ⟨i, h⟩ else false)) ∧
  (∀ (a : GReg) (s : State), ∃ t c', exec (.prload a) s = .next t ∧ t = { s with core := Core.retire c' }
    ∧ c' = { s.core with p := c'.p } ∧ ∀ q : PReg, c'.rp q = if q = 0 then true else (s.core.rd a).getLsbD q.val)

/-- A result for sp below SLIM, or not a multiple of 8, raises STACK_FAULT with the value in ADDR and leaves sp as it was
(R181, R182): shown for ADD, MOVI, LEA, SPADJ, SPMOV and CTLRD. -/
def Obligations.UnfitStackPointerFaults : Prop :=
  ∀ (s : State) (a b : GReg) (k : Fin 8) (off : BitVec 16) (i : BitVec 32) (n : BitVec 12), s.core.precise →
    (¬ s.core.fits 32 (s.core.rd a + s.core.rd b) →
      exec (.add 32 a b) s = .next (takeFault { code := 6, addr := (s.core.rd a + s.core.rd b).toNat } s))
    ∧ (¬ s.core.fits 32 (i.signExtend 64) → exec (.movi 32 i) s = .next (takeFault { code := 6, addr := (i.signExtend 64).toNat } s))
    ∧ (¬ s.core.fits 32 (s.core.rd a + s.core.rd b * BitVec.ofNat 64 (2 ^ k.val) + off.signExtend 64) →
      exec (.lea 32 a b k off) s =
        .next (takeFault { code := 6, addr := (s.core.rd a + s.core.rd b * BitVec.ofNat 64 (2 ^ k.val) + off.signExtend 64).toNat } s))
    ∧ (¬ s.core.fits 32 (s.core.rd 32 + i.signExtend 64) →
      exec (.spadj i) s = .next (takeFault { code := 6, addr := (s.core.rd 32 + i.signExtend 64).toNat } s))
    ∧ (¬ s.core.fits 32 (s.core.rd a + i.signExtend 64) →
      exec (.spmovSp a i) s = .next (takeFault { code := 6, addr := (s.core.rd a + i.signExtend 64).toNat } s))
    ∧ (n.toNat < 0x100 → ¬ s.core.fits 32 (s.ctlValue n.toNat) →
      exec (.ctlrd 32 n) s = .next (takeFault { code := 6, addr := (s.ctlValue n.toNat).toNat } s))

/-! ### Scalar floating point (R61 to R63, R190 to R192) -/

/-- The exact value of a finite code. -/
def Sys2Proof.Machine.dyadic (neg : Bool) (m : Nat) (e : Int) : ℚ := (if neg then -1 else 1) * (m : ℚ) * (2 : ℚ) ^ e

/-- The code c of format F stands for the finite value y. -/
def Sys2Proof.Machine.codeValue (F : FFmt) (c : Nat) (y : ℚ) : Prop :=
  c < 2 * F.signBit ∧ ∃ neg m e, F.val c = .dy neg m e ∧ y = dyadic neg m e

/-- y, the value of code c, is x rounded to format F in a mode (R61): no value of the format lies between on the side that the
mode takes, or, to nearest, none is nearer, and on a tie the significand is even. -/
def Sys2Proof.Machine.roundsTo (F : FFmt) (mode : Rm) (x : ℚ) (c : Nat) : Prop :=
  ∃ y, codeValue F c y ∧
    match mode with
    | .rdn => y ≤ x ∧ ∀ k z, codeValue F k z → z ≤ x → z ≤ y
    | .rup => x ≤ y ∧ ∀ k z, codeValue F k z → x ≤ z → y ≤ z
    | .rtz => |y| ≤ |x| ∧ 0 ≤ x * y ∧ ∀ k z, codeValue F k z → |z| ≤ |x| → 0 ≤ x * z → |z| ≤ |y|
    | .rne => ∀ k z, codeValue F k z → |y - x| ≤ |z - x| ∧ (|y - x| = |z - x| → z ≠ y → c % 2 = 0)

/-- Rounding an exact nonzero value whose magnitude is within the format's finite range gives the value that R61 names, in every
format and mode, and sets NX exactly when the result differs from it.
FADD, FSUB, FMUL and FFMA of finite operands whose exact result x is nonzero and within the format's range write the code of
x rounded once (R61, R62). -/
def Obligations.RoundingIsCorrect : Prop :=
  (∀ (F : FFmt) (mode : Rm) (neg : Bool) (m : Nat) (e : Int), F ∈ [FFmt.fp64, .fp32, .fp16, .bf16, .e4m3, .e5m2] → m ≠ 0 →
    (∃ top, codeValue F F.maxCode top ∧ |dyadic neg m e| ≤ top) →
    roundsTo F mode (dyadic neg m e) (roundMag F mode false neg m e false).1
      ∧ ((roundMag F mode false neg m e false).2.getLsbD 0 = true ↔ ¬ codeValue F (roundMag F mode false neg m e false).1 (dyadic neg m e)))
  ∧ (∀ (dbl : Bool) (rm : RmSel) (a b q : GReg) (c : Core) (x y z : ℚ),
    codeValue (scalarFmt dbl) (fpCode dbl (c.rd a)) x → codeValue (scalarFmt dbl) (fpCode dbl (c.rd b)) y →
    codeValue (scalarFmt dbl) (fpCode dbl (c.rd q)) z →
    let inRange := fun (v : ℚ) => v ≠ 0 ∧ ∃ top, codeValue (scalarFmt dbl) (scalarFmt dbl).maxCode top ∧ |v| ≤ top
    let mode := rm.getD c.ctl.rm
    (inRange (x + y) → roundsTo (scalarFmt dbl) mode (x + y) (fpAdd (scalarFmt dbl) mode false (c.fp dbl a) (c.fp dbl b)).1)
    ∧ (inRange (x - y) → roundsTo (scalarFmt dbl) mode (x - y) (fpSub (scalarFmt dbl) mode false (c.fp dbl a) (c.fp dbl b)).1)
    ∧ (inRange (x * y) → roundsTo (scalarFmt dbl) mode (x * y) (fpMul (scalarFmt dbl) mode false (c.fp dbl a) (c.fp dbl b)).1)
    ∧ (inRange (x * y + z) →
        roundsTo (scalarFmt dbl) mode (x * y + z) (fpFma (scalarFmt dbl) mode false (c.fp dbl a) (c.fp dbl b) (c.fp dbl q)).1))

/-- The word i writes the code r of a floating-point result to g[d], the bits above it zero, ORs f into FPCS.SFL, and retires
(R181, R190, R64). -/
def Sys2Proof.Machine.writesFloat (i : Instr) (d : GReg) (r : Core → Nat × Flags) : Prop :=
  ∀ s : State, s.core.fits d (BitVec.ofNat 64 (r s.core).1) →
    exec i s = .next { s with core := ((s.core.orFlags 0 (r s.core).2).wr d (BitVec.ofNat 64 (r s.core).1)).retire }


/-- The value is NaN. -/
def Sys2Proof.Machine.isNaNValue : Sys2Proof.Num → Prop
  | .nan _ _ _ => True
  | _ => False

/-- The scalar arithmetic words complete for every operand, in either width and every mode: FADD, FSUB, FMUL and FFMA write the
rounded sum, difference, product and fused sum, and so on (Table 8.4, Table 8.5); the mode is the word's own or FPCS.RM (R62).
FCMP, FCLS, FSGN, FMIN and FMAX (R191, R62): they set no flag. On finite operands FCMP compares values, so −0 equals +0;
with a NaN conditions 0 to 2 are false and 3 and 4 true. FCLS sets exactly one bit. FSGN keeps the magnitude bits. -/
def Obligations.ScalarFloatWordResults : Prop :=
  (∀ (dbl : Bool) (rm : RmSel) (d a b q : GReg) (k : Fin 8),
    writesFloat (.fadd dbl rm d a b) d (fun c => fpAdd (scalarFmt dbl) (rm.getD c.ctl.rm) false (c.fp dbl a) (c.fp dbl b))
    ∧ writesFloat (.fsub dbl rm d a b) d (fun c => fpSub (scalarFmt dbl) (rm.getD c.ctl.rm) false (c.fp dbl a) (c.fp dbl b))
    ∧ writesFloat (.fmul dbl rm d a b) d (fun c => fpMul (scalarFmt dbl) (rm.getD c.ctl.rm) false (c.fp dbl a) (c.fp dbl b))
    ∧ writesFloat (.ffma dbl rm d a b q) d
        (fun c => fpFma (scalarFmt dbl) (rm.getD c.ctl.rm) false (c.fp dbl a) (c.fp dbl b) (c.fp dbl q))
    ∧ writesFloat (.fdiv dbl rm d a b) d (fun c => fpDiv (scalarFmt dbl) (rm.getD c.ctl.rm) false (c.fp dbl a) (c.fp dbl b))
    ∧ writesFloat (.fsqrt dbl rm d a) d (fun c => fpSqrt (scalarFmt dbl) (rm.getD c.ctl.rm) (c.fp dbl a))
    ∧ writesFloat (.fcvt k dbl rm d a) d
        (fun c => ((fpConvert k.val dbl (rm.getD c.ctl.rm) (c.rd a)).1.toNat, (fpConvert k.val dbl (rm.getD c.ctl.rm) (c.rd a)).2)))
  ∧ (∀ (dbl : Bool) (a b d : GReg) (p : PReg) (k : Fin 5) (o : Fin 3),
    (∀ (s : State) (x y : ℚ), codeValue (scalarFmt dbl) (fpCode dbl (s.core.rd a)) x →
      codeValue (scalarFmt dbl) (fpCode dbl (s.core.rd b)) y →
      ∀ r : Bool, (r = true ↔ match k.val with | 0 => x = y | 1 => x < y | 2 => x ≤ y | 3 => False | _ => x ≠ y) →
      exec (.fcmp dbl p a b k) s = .next { s with core := (s.core.wp p r).retire })
    ∧ (∀ s : State, isNaNValue (s.core.fp dbl a) ∨ isNaNValue (s.core.fp dbl b) →
      exec (.fcmp dbl p a b k) s = .next { s with core := (s.core.wp p (decide (3 ≤ k.val))).retire })
    ∧ writesReg (.fcls dbl d a) d (fun c v => ∃ n ≤ 8, v = BitVec.ofNat 64 (2 ^ n) ∧ n = fpClass (scalarFmt dbl) (fpCode dbl (c.rd a)))
    ∧ writesReg (.fsgn dbl d a b o) d (fun c v =>
        let n := if dbl then 63 else 31
        let sa := (c.rd a).getLsbD n
        let sb := (c.rd b).getLsbD n
        ∀ i, v.getLsbD i = if i < n then (c.rd a).getLsbD i
          else if i = n then (match o.val with | 0 => sb | 1 => !sb | _ => sa != sb) else false)
    ∧ writesFloat (.fmin dbl d a b) d (fun c => (fpMinMax (scalarFmt dbl) false (fpCode dbl (c.rd a)) (fpCode dbl (c.rd b)), 0))
    ∧ writesFloat (.fmax dbl d a b) d (fun c => (fpMinMax (scalarFmt dbl) true (fpCode dbl (c.rd a)) (fpCode dbl (c.rd b)), 0)))

/-! ### Control flow (R193 to R204, R402, R403) -/

/-- t is s with the pc at a and nothing else changed but what a transfer of control changes; counters keep their values. -/
def Sys2Proof.Machine.jumpsTo (s t : State) (a : BitVec 17) : Prop := t.core.pc = a ∧ t.core.lc = s.core.lc ∧ framePc s t

/-- pc + sext(I32) modulo 131,072 (R193). -/
def Sys2Proof.Machine.branchTarget (s : State) (i : BitVec 32) : BitVec 17 := BitVec.ofInt 17 (s.core.pc.toNat + i.toInt)

/-- When a BC with field m is taken (Table 8.6). -/
def Sys2Proof.Machine.bcTaken (m : Fin 4) (v : Word) : Prop :=
  match m with | 0 => v ≠ 0 | 1 => v = 0 | 2 => v.toInt < 0 | 3 => 0 ≤ v.toInt

/-- Branches (Table 8.6): a taken one moves the pc to its target, one that is not taken retires as an ordinary word. BRL reads its
target before it writes the link. BMZ waits for the words that change the mask stack (R194).
A register target with a bit of [63:17] or [2:0] set raises BRANCH_TARGET with the value in ADDR, and nothing is pushed
(R193). -/
def Obligations.BranchesMoveThePcOrFault : Prop :=
  (∀ (s : State) (i : BitVec 32) (m j : Fin 4) (w : WReg) (a d : GReg),
    (∃ t, exec (.br i) s = .next t ∧ jumpsTo s t (branchTarget s i))
    ∧ (bcTaken m (s.core.rd a) → ∃ t, exec (.bc m a i) s = .next t ∧ jumpsTo s t (branchTarget s i))
    ∧ (¬ bcTaken m (s.core.rd a) → exec (.bc m a i) s = .next { s with core := s.core.retire })
    ∧ ((s.core.w.get w).flags.getLsbD j.val = true → ∃ t, exec (.bwe w j i) s = .next t ∧ jumpsTo s t (branchTarget s i))
    ∧ ((s.core.w.get w).flags.getLsbD j.val = false → exec (.bwe w j i) s = .next { s with core := s.core.retire })
    ∧ (s.core.masksSettled = true → s.core.topMask = 0 → ∃ t, exec (.bmz i) s = .next t ∧ jumpsTo s t (branchTarget s i))
    ∧ (s.core.masksSettled = true → s.core.topMask ≠ 0 → exec (.bmz i) s = .next { s with core := s.core.retire })
    ∧ (s.core.masksSettled = false → exec (.bmz i) s = .next s)
    ∧ ((s.core.rd a).toNat < 2 ^ 17 → (s.core.rd a).toNat % 8 = 0 → s.core.fits d (BitVec.ofNat 64 (s.core.pc + 8).toNat) →
        ∃ t, exec (.brl d a) s = .next t ∧ t.core.pc.toNat = (s.core.rd a).toNat ∧ t.core.lc = s.core.lc ∧ frameReg d s t
          ∧ (d ≠ 0 → t.core.rd d = BitVec.ofNat 64 (s.core.pc + 8).toNat)))
  ∧ (∀ (s : State) (a d : GReg), s.core.precise → ¬ ((s.core.rd a).toNat < 2 ^ 17 ∧ (s.core.rd a).toNat % 8 = 0) →
    exec (.brl d a) s = .next (takeFault { code := 8, addr := (s.core.rd a).toNat } s)
      ∧ exec (.callr a) s = .next (takeFault { code := 8, addr := (s.core.rd a).toNat } s))

/-- None of the n bytes at pa is one that the current task's merge log takes: the task is not DET, or they lie outside the DET region
(R368). -/
def Sys2Proof.Machine.outsideLog (s : State) (pa n : Nat) : Prop := s.core.det = false ∨ ∀ i < n, detRegion s.core.key (pa + i) = false

/-- The merge log of the current DET task takes all of the n bytes at pa (R368). -/
def Sys2Proof.Machine.insideLog (s : State) (pa n : Nat) : Prop := s.core.det = true ∧ ∀ i < n, detRegion s.core.key (pa + i) = true

/-- The frame of a word that changes the return store. -/
def Sys2Proof.Machine.frameReturn (s t : State) : Prop :=
  s.coreOnly t ∧ s.sameMemory t
    ∧ { s.core with retStore := t.core.retStore, lcnt := t.core.lcnt, held := t.core.held, num := t.core.num
                    stores := t.core.stores }.moved t.core

/-- CALL and CALLR push pc + 8 and go to their target; with eight entries on chip the oldest is stored at LBASE + 8·LCNT first, or
STACK_FAULT is raised where that passes LLIM. RET goes to the newest entry, or to the one that the link stack holds, or raises
RETURN_UNDERFLOW (R195, R196). A link stack in the DET region is stored to by a DET task's merge log (R368). -/
def Obligations.CallsPushAndReturnsPop : Prop :=
  ∀ (s : State) (i : BitVec 32) (a : GReg),
    let spill := s.core.ctl.lbase.toNat + 8 * s.core.lcnt
    let refill := s.core.ctl.lbase.toNat + 8 * (s.core.lcnt - 1)
    (s.core.retStore.length < 8 → ∃ t, exec (.call i) s = .next t ∧ t.core.pc = branchTarget s i
        ∧ t.core.retStore = (s.core.pc + 8) :: s.core.retStore ∧ t.core.stores = s.core.stores ∧ t.core.lcnt = s.core.lcnt ∧ frameReturn s t)
    ∧ (s.core.retStore.length < 8 → (s.core.rd a).toNat < 2 ^ 17 → (s.core.rd a).toNat % 8 = 0 →
        ∃ t, exec (.callr a) s = .next t ∧ t.core.pc.toNat = (s.core.rd a).toNat
        ∧ t.core.retStore = (s.core.pc + 8) :: s.core.retStore ∧ t.core.stores = s.core.stores ∧ t.core.lcnt = s.core.lcnt ∧ frameReturn s t)
    ∧ (∀ pa tr old, s.core.retStore.length = 8 → spill + 8 ≤ s.core.ctl.llim.toNat → s.core.retStore.getLast? = some old →
        translate seqReach .write spill s = .ok (pa, tr) → s.slabBusy pa 8 = false →
        let bytes := addressed pa (toBytes 8 old.toNat)
        (outsideLog s pa 8 →
          ∃ t, exec (.call i) s = .next t ∧ t.core.pc = branchTarget s i
            ∧ t.core.retStore = (s.core.pc + 8) :: s.core.retStore.dropLast ∧ t.core.lcnt = s.core.lcnt + 1
            ∧ t.core.stores = s.core.stores ++ [⟨s.core.num, 0, bytes, none, [], 0, 0, [tr], false, s.core.storePoint 0 (bytes.map (·.1)), none⟩]
            ∧ frameReturn s t)
        ∧ (∀ log, insideLog s pa 8 → (∀ e ∈ bytes, s.core.loadBefore 0 s.core.num e.1 1 = false) →
          logPlain s.core.log s.core.resv bytes = .ok log →
          ∃ t, exec (.call i) s = .next t ∧ t.core.pc = branchTarget s i
            ∧ t.core.retStore = (s.core.pc + 8) :: s.core.retStore.dropLast ∧ t.core.lcnt = s.core.lcnt + 1
            ∧ t.core.log = log ∧ t.core.stores = s.core.stores ∧ s.sameMemoryBut t s.core.logPA (16 * log.length) ∧ s.coreAndMemory t
            ∧ { s.core with retStore := t.core.retStore, lcnt := t.core.lcnt, held := t.core.held, log := log }.moved t.core))
    ∧ (s.core.retStore.length = 8 → s.core.ctl.llim.toNat < spill + 8 → s.core.precise →
        exec (.call i) s = .next (takeFault { code := 6, slot := 7, addr := spill, detail := 1 } s))
    ∧ (∀ v r, s.core.retStore = v :: r → ∃ t, exec .ret s = .next t ∧ jumpsTo { s with core := { s.core with retStore := r } } t v)
    ∧ (s.core.retStore = [] → 0 < s.core.lcnt → ∀ pa tr, translate seqReach .read refill s = .ok (pa, tr) →
        s.readBlocked 0 s.core.num pa 8 = false → s.spoiled pa 8 = false →
        ∃ t, exec .ret s = .next t ∧ t.core.pc.toNat = s.taskNum pa 8 % 2 ^ 17 / 8 * 8 ∧ t.core.lcnt = s.core.lcnt - 1
          ∧ t.core.lc = s.core.lc ∧ frameReturn s t)
    ∧ (s.core.retStore = [] → s.core.lcnt = 0 → s.core.precise → exec .ret s = .next (takeFault { code := 7 } s))

/-- Guard slots (R200): GSET resolves its slot to a predicate, GCLR leaves it unresolved, gs0 stays resolved true. SAFE restarts
the watchdog outside the handler, where the task keeps its address (R106), has no effect inside it, and takes a pending stop
(R202, R406). EXIT ends the task's
sequencer (R204). -/
def Obligations.SlotsSafePointsAndExit : Prop :=
  ∀ (s : State) (n : SReg) (a : PReg) (groups : BitVec 8) (live : BitVec 32),
    let here : Core := { s.core with task := s.core.task.map (fun (t : Task) => { t with safeAt := some s.core.pc }) }
    (∃ c', exec (.gset n a) s = .next { s with core := Core.retire c' } ∧ c' = { s.core with gs := c'.gs }
      ∧ ∀ k, c'.slot k = if k = n ∧ n ≠ 0 then .resolved (s.core.rp a) else s.core.slot k)
    ∧ (∃ c', exec (.gclr n) s = .next { s with core := Core.retire c' } ∧ c' = { s.core with gs := c'.gs }
      ∧ ∀ k, c'.slot k = if k = n ∧ n ≠ 0 then .unresolved else s.core.slot k)
    ∧ (s.core.priv = true → exec (.safe groups live) s = .next { s with core := s.core.retire })
    ∧ (s.core.priv = false → s.core.stop = none →
        exec (.safe groups live) s = .next { s with core := Core.retire { here with watch := 0 } })
    ∧ (s.core.priv = false → s.core.stop = some .destroy →
        exec (.safe groups live) s = .next { s with core := { here.retire with watch := 0, phase := .ending .destroy } })
    ∧ (∀ x, s.core.priv = false → s.core.stop = some x → x ≠ .destroy →
        exec (.safe groups live) s = .next { s with core := { here.retire with watch := 0, phase := .stopped groups live s.core.pc } })
    ∧ (∃ t, exec .exit s = .next t ∧ t.core.phase = .ending .exit ∧ t.core.pc = s.core.pc
        ∧ framePc { s with core := { s.core with phase := .ending .exit } } t)

/-! ### Faults, the handler and RTE (R397 to R403) -/

/-- Taking a handleable fault with TVEC.EN = 1 in user mode (R397, R399): the record (Table 15.3) holds the code, the engine and
slot, the pc, ADDR, DETAIL, the task and launch, the tick (that of the core's own clock: entry 4) and the word; EPC takes the pc (for TRAP the pc + 8), MODE.PRIV becomes 1,
the pc goes to TVEC.BASE × 8, and registers, memory, engines and every other field of MODE stay.
A fatal fault, or a handleable one with TVEC.EN = 0, ends the task: its fault record stands, its log is discarded, its
sequencer issues nothing more, and memory and the pc stay (R400). A handleable fault inside the handler becomes DOUBLE_FAULT
with its code in DETAIL (R399). -/
def Obligations.FaultsEnterHandlerOrEndTask : Prop :=
  (∀ (f : FaultInfo) (s : State), fatalCode f.code = false → s.core.priv = false → s.core.ctl.tvec.getLsbD 0 = true →
    let t := takeFault f s
    let c := t.core.ctl
    t.core.pc.toNat = s.core.ctl.tvec.toNat % 2 ^ 17 / 8 * 8
      ∧ c.epc.toNat = (if f.code = 26 then (s.core.pc + 8).toNat else s.core.pc.toNat)
      ∧ (∀ i, c.mode.getLsbD i = if i = 0 then true else s.core.ctl.mode.getLsbD i)
      ∧ c.frec = faultRecord f s
      ∧ (c.frec.get 1).toNat % 2 ^ 32 = s.core.pc.toNat ∧ (f.addr < 2 ^ 64 → (c.frec.get 2).toNat = f.addr)
      ∧ (f.detail < 2 ^ 64 → (c.frec.get 3).toNat = f.detail) ∧ (f.code < 64 → f.engine < 16 → f.slot < 16 → (c.frec.get 0).toNat / 2 ^ 48 = f.code)
      ∧ (c.frec.get 5).toNat = s.coreTick % 2 ^ 64 ∧ c.frec.get 6 = s.core.ir
      ∧ s.coreOnly t ∧ t.core.ctl = { s.core.ctl with frec := c.frec, epc := c.epc, mode := c.mode, reppos := c.reppos }
      ∧ t.core = { s.core with ctl := c, pc := t.core.pc, rep := none, repResume := false, wait := none, trap := none
                               repHeld := if s.core.rep.isSome then some s.core.pc else none })
  ∧ (∀ (f : FaultInfo) (s : State), fatalCode f.code = true ∨ s.core.priv = true ∨ s.core.ctl.tvec.getLsbD 0 = false →
    let t := takeFault f s
    let g : FaultInfo := if fatalCode f.code = false ∧ s.core.priv = true then { f with code := 28, detail := f.code } else f
    t.core.phase = .ending .fault ∧ (∀ k, s.core.task = some k → k.det = true → t.core.log = []) ∧ t.core.ctl.frec = faultRecord g s ∧ t.core.pc = s.core.pc ∧ s.sameMemory t
      ∧ (∀ r, t.core.rd r = s.core.rd r) ∧ t.core.ctl.epc = s.core.ctl.epc ∧ t.core.ctl.mode = s.core.ctl.mode)

/-- TRAP raises the fault TRAP with its number in DETAIL once the vector words before it have completed; RTE in the handler clears
MODE.PRIV and goes to EPC; a TRAP and the RTE that answers it leave the pc at the word after the TRAP and MODE as it was
(R402, R403).
In user mode RTE, BARC, QCREATE, QKILL, TMARK and writes to control registers 0x010 and above raise PRIVILEGE_VIOLATION and do
nothing else (R13, R156). -/
def Obligations.TrapReturnAndPrivilege : Prop :=
  (∀ (s : State) (n : BitVec 16),
    (s.core.precise → exec (.trap n) s = .next (takeFault { code := 26, detail := n.toNat } s))
    ∧ (s.core.priv = true → ∃ t, exec .rte s = .next t ∧ t.core.pc.toNat = s.core.ctl.epc.toNat % 2 ^ 17 / 8 * 8
        ∧ (∀ i, t.core.ctl.mode.getLsbD i = if i = 0 then false else s.core.ctl.mode.getLsbD i) ∧ t.core.lc = s.core.lc
        ∧ framePc { s with core := { s.core with ctl := { s.core.ctl with mode := t.core.ctl.mode } } } t)
    ∧ (s.core.precise → s.core.priv = false → s.core.ctl.tvec.getLsbD 0 = true → s.core.pc.toNat % 8 = 0 →
        ∃ t u, exec (.trap n) s = .next t ∧ exec .rte t = .next u ∧ u.core.pc = s.core.pc + 8 ∧ u.core.ctl.mode = s.core.ctl.mode))
  ∧ (∀ (s : State) (i : Instr), s.core.priv = false → s.core.precise →
    (i = .rte ∨ (∃ sc k a, i = .barc sc k a) ∨ (∃ a, i = .qcreate a) ∨ (∃ a, i = .qkill a) ∨ (∃ a b r k, i = .tmark a b r k)
      ∨ (∃ n a, 0x010 ≤ n.toNat ∧ (i = .ctlwr n a ∨ i = .ctlset n a ∨ i = .ctlclr n a))) →
    exec i s = .next (takeFault { code := 2 } s))

/-! ### Walkers, the stack pointer, streams (R205 to R213) -/

/-- Elements of the first k dimensions of a walker's pattern. -/
def Sys2Proof.Machine.walkerSpan (w : Walker) (k : Nat) : Nat :=
  ((List.finRange 4).take k).foldl (fun p (j : Fin 4) => p * ((w.trips.get j).toNat + 1)) 1

/-- A walker whose indices are within its trips. -/
def Sys2Proof.Machine.walkerInside (w : Walker) : Prop := ∀ k : Fin 4, (w.idx.get k).toNat ≤ (w.trips.get k).toNat

/-- WSTEP advances its walker n + 1 times: the linear index moves on by n + 1 modulo the pattern's length, and flag e_k is set
exactly when dimension k wrapped on the way, whatever the flags were before (R206, R207). WRST goes back to the first element;
WPOS reads the address (BASE + Σ i_k × S_k) mod 2⁵⁶, the linear index or the flags.
WBIND reads the 32 bytes of a descriptor at g[A] and binds the walker at the first element with flags zero; a reserved field
raises WALKER_INVALID and a misaligned address ALIGNMENT_FAULT (R207).
SPADJ adds to sp; SPMOV writes sp + n to a register, or g[A] + n to sp (R209). -/
def Obligations.WalkerAndStackPointerWords : Prop :=
  (∀ (s : State) (w : WReg) (n : BitVec 16) (d : GReg),
    let x := s.core.w.get w
    (∃ c' y, exec (.wstep w n) s = .next { s with core := Core.retire c' } ∧ c' = { s.core with w := s.core.w.set w.val y }
      ∧ y = { x with idx := y.idx, flags := y.flags }
      ∧ (walkerInside x → walkerInside y ∧ y.linear = (x.linear + (n.toNat + 1)) % walkerSpan x 4
        ∧ ∀ k : Fin 4, y.flags.getLsbD k.val = decide (x.linear / walkerSpan x (k.val + 1) < (x.linear + n.toNat + 1) / walkerSpan x (k.val + 1))))
    ∧ exec (.wrst w) s = .next (s.withCore (Core.retire
        { s.core with w := s.core.w.set w.val { x with idx := Vector.replicate 4 0, flags := 0 } }))
    ∧ writesReg (.wpos d w 0) d (fun c v => ((v.toNat : Int) = ((c.w.get w).base.toNat
        + ((List.finRange 4).map (fun (k : Fin 4) => ((c.w.get w).idx.get k).toNat * ((c.w.get w).strides.get k).toInt)).sum) % 2 ^ 56))
    ∧ writesReg (.wpos d w 1) d (fun c v => v = BitVec.ofNat 64 (c.w.get w).linear)
    ∧ writesReg (.wpos d w 2) d (fun c v => ∀ i, v.getLsbD i = (c.w.get w).flags.getLsbD i))
  ∧ (∀ (s : State) (w : WReg) (a : GReg),
    let va := (s.core.rd a).toNat
    (∀ pa tr, va % 32 = 0 → translate seqReach .read va s = .ok (pa, tr) → s.readBlocked 0 s.core.num pa 32 = false → s.spoiled pa 32 = false →
      let word := fun i => s.taskNum (pa + 8 * i) 8
      (word 0 < 2 ^ 56 → ∃ c' y, exec (.wbind w a) s = .next { s with core := Core.retire c' }
        ∧ c' = { s.core.hold tr with w := s.core.w.set w.val y } ∧ y.base.toNat = word 0 ∧ y.flags = 0 ∧ y.idx = Vector.replicate 4 0
        ∧ (∀ k : Fin 4, (y.trips.get k).toNat = word 1 / 2 ^ (16 * k.val) % 2 ^ 16)
        ∧ (y.strides.get 0).toNat = word 2 % 2 ^ 32 ∧ (y.strides.get 1).toNat = word 2 / 2 ^ 32 % 2 ^ 32
        ∧ (y.strides.get 2).toNat = word 3 % 2 ^ 32 ∧ (y.strides.get 3).toNat = word 3 / 2 ^ 32 % 2 ^ 32)
      ∧ (2 ^ 56 ≤ word 0 → s.core.precise →
        exec (.wbind w a) s = .next (takeFault { code := 9, addr := va, slot := 6 } s)))
    ∧ (va % 32 ≠ 0 → s.core.precise → exec (.wbind w a) s = .next (takeFault { code := 4, addr := va, slot := 6 } s)))
  ∧ (∀ (d a : GReg) (i : BitVec 32),
    writesReg (.spadj i) 32 (fun c v => v = BitVec.ofInt 64 ((c.rd 32).toInt + i.toInt))
    ∧ writesReg (.spmov d i) d (fun c v => v = BitVec.ofInt 64 ((c.rd 32).toInt + i.toInt))
    ∧ writesReg (.spmovSp a i) 32 (fun c v => v = BitVec.ofInt 64 ((c.rd a).toInt + i.toInt)))

/-- In a stream SHARD and BATCH read the shard record and the batch entries, and BATCH_INDEX is raised from COUNT on; in any other
task both raise NOT_STREAM, as does UNPIN (R210, R212). KVA adds position × row bytes, and raises KVA_RANGE for a position above
20 bits (R213). -/
def Obligations.StreamWordsAndKva : Prop :=
  ∀ (s : State) (d a : GReg) (w : Fin 4) (x : Fin 2) (b : BitVec 32),
    (∀ k, s.core.isStream = true → s.core.task = some k →
      (∀ v, k.shardRec[w.val]? = some v → s.core.fits d v → exec (.shard d w) s = .next { s with core := (s.core.wr d v).retire })
      ∧ (∀ e, k.batch[(s.core.rd a).toNat]? = some e → s.core.fits d (if x = 0 then e.1 else e.2) →
          exec (.batch d a x) s = .next { s with core := (s.core.wr d (if x = 0 then e.1 else e.2)).retire })
      ∧ (k.batch.length ≤ (s.core.rd a).toNat → s.core.precise →
          exec (.batch d a x) s = .next (takeFault { code := 11, addr := (s.core.rd a).toNat, detail := k.batch.length } s)))
    ∧ (s.core.isStream = false → s.core.precise →
        exec (.shard d w) s = .next (takeFault { code := 10 } s) ∧ exec (.batch d a x) s = .next (takeFault { code := 10 } s)
          ∧ exec .unpin s = .next (takeFault { code := 10 } s))
    ∧ ((s.core.rd a).toNat < 2 ^ 20 → s.core.fits d (s.core.rd d + BitVec.ofNat 64 ((s.core.rd a).toNat * b.toNat)) →
        exec (.kva d a b) s =
          .next { s with core := (s.core.wr d (s.core.rd d + BitVec.ofNat 64 ((s.core.rd a).toNat * b.toNat))).retire })
    ∧ (2 ^ 20 ≤ (s.core.rd a).toNat → s.core.precise →
        exec (.kva d a b) s = .next (takeFault { code := 12, addr := (s.core.rd a).toNat } s))

/-- NEED registers a need in the executing die's table and writes a status (R211): 3 without an active request of the task's ASID, 1
where the pair is present, 0 where it takes a free slot, 2 where the table is full; only status 0 changes the table. That the conditions are tried
in this order, and that the slot is the lowest free one, is the model's choice (entry 30).
UNPIN drops the pin at once where the stream has no record and no load under way, and else leaves it pending (R212). -/
def Obligations.NeedAndUnpin : Prop :=
  ∀ (s : State) (d a b : GReg) (once : Bool),
    let die := s.ownDie
    let req := (s.core.rd a).toNat % 2 ^ 16
    let tag := (s.core.rd b).toNat % 2 ^ 32
    let active := ∃ r ∈ die.reqs, r.req = req ∧ r.asid.toNat = s.core.ctl.asid.toNat % 2 ^ 16 ∧ r.state = 0
    let status := fun (v : Word) => s.core.fits d v → exec (.need d a b once) s = .next { s.setDie die with core := (s.core.wr d v).retire }
    (¬ active → status 3)
    ∧ (active → (die.needSlot req tag).isSome = true → status 1)
    ∧ (active → die.needSlot req tag = none → die.needFree = none → status 2)
    ∧ (∀ i, active → die.needSlot req tag = none → die.needFree = some i → s.core.fits d 0 →
        ∃ e : Word, needValid e = true ∧ needOnce e = once ∧ needReq e = req ∧ needTag e = tag ∧
          ∃ x : Die, x = { die with need := sput 0 die.need i e, regs := x.regs, regNo := x.regNo }
            ∧ exec (.need d a b once) s = .next { s.setDie x with core := (s.core.wr d 0).retire })
    ∧ (∀ k, s.core.isStream = true → s.core.task = some k → k.stream = true → s.core.pq = [] → s.core.prun = [] → s.core.tq = [] →
        s.core.trun = [] → s.core.loads = [] →
        ∃ t, exec .unpin s = .next t ∧ t.core.unpin = none ∧ t.core.task.map (·.pinned) = some false ∧ s.sameMemory t)
    ∧ (∀ k r, s.core.isStream = true → s.core.task = some k → r ∈ s.core.trun → r.marker = none → r.number < s.core.unpin.getD s.core.num →
        ∃ t, exec .unpin s = .next t ∧ t.core.unpin = some (s.core.unpin.getD s.core.num)
          ∧ t.core.task.map (·.pinned) = some k.pinned ∧ s.sameMemory t)

/-! ### Engine work (R214 to R218) -/

/-- ENQR takes the record of its eight registers; ENQ the 64 bytes at g[A], read once, when the address is a multiple of 64 and
translates and no earlier store or class-0 access to them is under way; while it waits it keeps what it has read (R214, R215).
With the record at hand either word puts it, unstarted, at the end of its engine's queue where its checks pass and the queue has
room, counts its token and the barrier that it names in SBAR, changes no byte of memory, and retires. It waits while the queue holds
16 records that have not started (R443), while an update whose mask names the engine is on its way (R364 bars the record's start; that ENQ
waits is entry 86), or while its checks wait. An operation of no engine is RECORD_INVALID (ADDR 0: entry 32), a record that fails a check
raises that fault with the engine and the entry, a misaligned address is ALIGNMENT_FAULT, and a fixed-mode handler raises HANDLER_ENGINE
(R401). -/
def Obligations.EnqueueEntersQueue : Prop :=
  ∀ (s u : State) (i : Instr) (a : GReg) (base : Fin 3) (ws : RWords) (pa : Nat) (tr : Trans),
    let regs := Vector.ofFn (fun (i : Fin 8) => s.core.rd (Fin.ofNat 33 (8 * (base.val + 1) + i.val)))
    let mem := Vector.ofFn (fun (i : Fin 8) => BitVec.ofNat 64 (s.taskNum (pa + 8 * i.val) 8))
    let va := (s.core.rd a).toNat
    let fresh := ∀ w, s.core.wait ≠ some (.record w)
    let atHand := (i = .enqr base ∧ ws = regs ∧ u = s)
      ∨ (i = .enq a ∧ s.core.wait = some (.record ws) ∧ u = s)
      ∨ (i = .enq a ∧ fresh ∧ va % 64 = 0 ∧ translate seqReach .read va s = .ok (pa, tr) ∧ s.core.storePending pa 64 = false
          ∧ s.readBlocked 0 s.core.num pa 64 = false ∧ s.spoiled pa 64 = false ∧ ws = mem ∧ u = s.hold tr)
    let op := (ws.get 0).toNat / 2 ^ 56
    let product : Bool := decide (0x10 ≤ op ∧ op ≤ 0x2F)
    let transfer : Bool := decide (0x40 ≤ op ∧ op ≤ 0x6F)
    let unstarted := if product = true then s.core.pq.length + (s.core.prun.filter (fun r => decide (s.core.tau < r.start))).length
      else s.core.tq.length
    let check := if product = true then productCheck ws u else transferCheck ws u
    let waits := ∃ t, exec i s = .next t ∧ t.core.pc = s.core.pc ∧ t.core.pq = s.core.pq ∧ t.core.tq = s.core.tq ∧ t.core.tok = s.core.tok
      ∧ s.sameMemory t ∧ (i = .enq a → t.core.wait = some (.record ws))
    (atHand → ¬ (s.core.priv = true ∧ s.core.fixed = true) → product = true ∨ transfer = true →
      (∀ p, unstarted < 16 → u.updateAhead product false = false → check = .ok p →
        ∃ t r, exec i s = .next t ∧ r.words = ws ∧ r.number = p.core.num ∧ r.gate = none ∧ r.puts = [] ∧ r.done = false
          ∧ t.core.pq = s.core.pq ++ (if product = true then [r] else []) ∧ t.core.tq = s.core.tq ++ (if product = true then [] else [r])
          ∧ (∀ k : Fin 8, (t.core.tok.get k).enq = (s.core.tok.get k).enq + (if rTv ws = true ∧ rStok ws = k.val then 1 else 0)
              ∧ (t.core.tok.get k).ret = (s.core.tok.get k).ret)
          ∧ (∀ b : Fin 96, t.core.bars.get b = if rSbar ws = b.val + 1 then { s.core.bars.get b with pc := (s.core.bars.get b).pc + 1 }
              else s.core.bars.get b)
          ∧ t = { u with core := t.core, groups := t.groups }
          ∧ { p.core with num := p.core.num + 1, held := t.core.held, tok := t.core.tok, bars := t.core.bars, pq := t.core.pq
                          tq := t.core.tq, pent := t.core.pent, tent := t.core.tent, clean := t.core.clean }.moved t.core)
      ∧ (16 ≤ unstarted → waits)
      ∧ (unstarted < 16 → u.updateAhead product false = true → waits)
      ∧ (unstarted < 16 → u.updateAhead product false = false → check = .error .delay ∨ check = .error .wait → waits)
      ∧ (∀ f, unstarted < 16 → u.updateAhead product false = false → check = .error (.fault f) → s.core.precise →
        exec i s = .next (takeFault { f with
          engine := if product = true then 2 else 3, qidx := if product = true then s.core.pent else s.core.tent
          detail := if f.code = 13 then op else f.detail } u)))
    ∧ (atHand → ¬ (s.core.priv = true ∧ s.core.fixed = true) → product = false → transfer = false → s.core.precise →
      exec i s = .next (takeFault { code := 13, detail := op } u))
    ∧ (¬ (s.core.priv = true ∧ s.core.fixed = true) → fresh → va % 64 ≠ 0 → s.core.precise →
      exec (.enq a) s = .next (takeFault { code := 4, addr := va, slot := 5 } s))
    ∧ (s.core.priv = true → s.core.fixed = true → s.core.precise →
      exec (.enq a) s = .next (takeFault { code := 30 } s) ∧ exec (.enqr base) s = .next (takeFault { code := 30 } s))

/-- Is bank k one of n banks from f on? -/
def Sys2Proof.Machine.inRun (f n k : Nat) : Prop := f ≤ k ∧ k < f + n

/-- ACALLOC of n banks, 1 to 16, gives the lowest run of n free banks where the task then holds no more than NBANK, sets every entry of
them to zero and leaves every other entry, and writes the handle of Table 8.9 to g[D]; where there is none, or the task would hold
more, it writes 0 and allocates nothing (R216). ACFREE frees the banks of a handle that is live, once no product record is queued or
running, and waits till then; for a value that is no live handle it raises ACC_NOT_ALLOCATED (R217). GWSET writes GWCFG (R218). -/
def Obligations.BanksAreAllocatedAndFreed : Prop :=
  ∀ (s : State) (k : Task) (d a : GReg) (n : BitVec 32) (f : Nat), s.core.task = some k →
    let held := fun (b : Nat) => ∃ h ∈ s.core.handles, inRun h.1 h.2 b
    let free := fun (f : Nat) => f + n.toNat ≤ 16 ∧ ∀ b, inRun f n.toNat b → ¬ held b
    let used := (s.core.handles.map (·.2)).sum
    let handle := BitVec.ofNat 64 (2 ^ 8 + (n.toNat - 1) * 2 ^ 4 + f)
    (1 ≤ n.toNat → n.toNat ≤ 16 → used + n.toNat ≤ k.nbank → free f → (∀ e < f, ¬ free e) → s.core.fits d handle →
      ∃ t, exec (.acalloc d n) s = .next t ∧ t.core.handles = s.core.handles ++ [(f, n.toNat)]
        ∧ (∀ r, t.core.rd r = if r = d ∧ d ≠ 0 then handle else s.core.rd r)
        ∧ (∀ b e, inRun f n.toNat b → e < 1024 → sget AccEntry.zero t.core.acc (1024 * b + e) = AccEntry.zero)
        ∧ (∀ b e, ¬ inRun f n.toNat b → e < 1024 →
            sget AccEntry.zero t.core.acc (1024 * b + e) = sget AccEntry.zero s.core.acc (1024 * b + e))
        ∧ s.coreOnly t ∧ { s.core with handles := t.core.handles, g := t.core.g, acc := t.core.acc, proj := t.core.proj,
                                          clean := t.core.clean }.moved t.core)
    ∧ (1 ≤ n.toNat → n.toNat ≤ 16 → k.nbank < used + n.toNat ∨ (∀ e, ¬ free e) → s.core.fits d 0 →
        exec (.acalloc d n) s = .next { s with core := (s.core.wr d 0).retire })
    ∧ (∀ h, s.core.handles.find? (fun x => mkHandle x.1 x.2 = s.core.rd a) = some h →
        (s.core.pq = [] → s.core.prun = [] →
          ∃ c', exec (.acfree a) s = .next { s with core := Core.retire c' } ∧ c'.handles = s.core.handles.filter (· ≠ h)
            ∧ c' = { s.core with handles := c'.handles, drains := c'.drains })
        ∧ (s.core.pq ≠ [] ∨ s.core.prun ≠ [] → exec (.acfree a) s = .next s))
    ∧ ((∀ h ∈ s.core.handles, mkHandle h.1 h.2 ≠ s.core.rd a) → s.core.precise →
        exec (.acfree a) s = .next (takeFault { code := 14, addr := (s.core.rd a).toNat } s))
    ∧ exec (.gwset n) s = .next (s.withCore (Core.retire
        { s.core with ctl := { s.core.ctl with gwcfg := BitVec.ofNat 64 n.toNat } }))

/-! ### Loads, stores, fences (R291, R303 to R306, R355 to R364) -/

/-- The addresses of n bytes, ascending, with their values. -/
def Sys2Proof.Machine.bytesAt (pa : Nat) (n : Nat) (x : Nat) : List (Nat × Byte) :=
  (List.range n).map (fun i => (pa + i, BitVec.ofNat 8 (x / 256 ^ i)))

/-- A load of an aligned, mapped address into a register other than sp is sent on its way, may read at once, and the word retires; LDW then
advances its walker once; LDP loads two words; LDACQ's load keeps its observer mask (R363). A walk that has to wait for an access of its own
to a table entry is made again in the next core cycle (R228, R296).
A load into sp, of LDACQ, LDW and LDP too, reads at once, since the check of sp is made at the load (R181, entry 9). -/
def Obligations.LoadsGoOnTheirWay : Prop :=
  (∀ (s : State) (cls : OrdClass) (obs : BitVec 5) (sz : MemSize) (d b a : GReg) (w : WReg) (off : BitVec 16) (pa p1 : Nat) (tr t1 : Trans),
    let ea := (BitVec.ofInt 64 ((s.core.rd a).toInt + off.toInt)).toNat
    let wa := (s.core.w.get w).addr
    let n := sizeBytes sz
    let next := (s.core.w.get w).advance 1
    let going := fun (acq : BitVec 5) (c : Core) (dst : LoadDst) (items : List (Nat × Nat)) (n : Nat) (ts : List Trans) =>
      State.readsDue (s.withCore (Core.retire { c with
        num := c.num + 1
        loads := c.loads ++ [⟨c.num, cls, dst, items, n, true, 0, c.tau, (c.loadLag items).getD 0, none, none, acq, false, ts⟩] }))
    (d ≠ 32 → ea % n = 0 → translate seqReach .read ea s = .ok (pa, tr) →
      exec (.ld cls sz d a off) s = .next (going 0 (s.core.hold tr) (.reg d sz) [(0, pa)] n [tr])
      ∧ exec (.ldacq cls obs sz d a off) s = .next (going obs (s.core.hold tr) (.reg d sz) [(0, pa)] n [tr]))
    ∧ (d ≠ 32 → wa % n = 0 → translate seqReach .read wa s = .ok (pa, tr) →
      exec (.ldw cls sz d w) s = .next (going 0 ((s.core.hold tr).setWalker w next) (.reg d sz) [(0, pa)] n [tr]))
    ∧ (d ≠ 32 → b ≠ 32 → ea % 8 = 0 → translate seqReach .read ea s = .ok (pa, tr) →
      translate seqReach .read ((ea + 8) % 2 ^ 64) (s.hold tr) = .ok (p1, t1) →
      exec (.ldp cls d b a off) s = .next (going 0 ((s.core.hold tr).hold t1) (.pair d b) [(0, pa), (1, p1)] 8 [tr, t1]))
    ∧ (ea % n ≠ 0 → s.core.precise → exec (.ld cls sz d a off) s = .next (takeFault { code := 4, addr := ea } s))
    ∧ (∀ r, ea % n = 0 → translate seqReach .read ea s = .error (.fault r) → s.core.precise →
      exec (.ld cls sz d a off) s = .next (takeFault { code := 5, addr := ea, detail := r } s))
    ∧ (∀ x, ea % n = 0 → translate seqReach .read ea s = .error (.spoiled x) → s.core.precise →
      exec (.ld cls sz d a off) s = .next (takeFault { code := 31, addr := x, detail := paSpace x } s))
    ∧ (ea % n = 0 → translate seqReach .read ea s = .error .wait → exec (.ld cls sz d a off) s = .next s))
  ∧ (∀ (s : State) (cls : OrdClass) (obs : BitVec 5) (sz : MemSize) (d b a : GReg) (w : WReg) (off : BitVec 16) (pa p1 : Nat) (tr t1 : Trans),
    let ea := (BitVec.ofInt 64 ((s.core.rd a).toInt + off.toInt)).toNat
    let wa := (s.core.w.get w).addr
    let n := sizeBytes sz
    let v := extendSize sz (s.taskNum pa n)
    let open_ := s.readBlocked cls s.core.num pa n = false ∧ s.spoiled pa n = false
    let one := fun (i : Instr) (c : Core) =>
      (s.core.fits 32 v → exec i s = .next (s.withCore (c.wr 32 v).retire))
      ∧ (¬ s.core.fits 32 v → s.core.precise → exec i s = .next (takeFault { code := 6, addr := v.toNat } (s.hold tr)))
    (ea % n = 0 → translate seqReach .read ea s = .ok (pa, tr) → open_ →
      one (.ld cls sz 32 a off) (s.core.hold tr) ∧ one (.ldacq cls obs sz 32 a off) (s.core.hold tr))
    ∧ (wa % n = 0 → translate seqReach .read wa s = .ok (pa, tr) → open_ →
      one (.ldw cls sz 32 w) ((s.core.hold tr).setWalker w ((s.core.w.get w).advance 1)))
    ∧ (d = 32 ∨ b = 32 → ea % 8 = 0 → translate seqReach .read ea s = .ok (pa, tr) →
      translate seqReach .read ((ea + 8) % 2 ^ 64) (s.hold tr) = .ok (p1, t1) →
      s.readBlocked cls s.core.num pa 8 = false → s.readBlocked cls s.core.num p1 8 = false → s.spoiled pa 8 = false → s.spoiled p1 8 = false →
      let v0 := BitVec.ofNat 64 (s.taskNum pa 8)
      let v1 := BitVec.ofNat 64 (s.taskNum p1 8)
      let c := (s.core.hold tr).hold t1
      (d = b ∨ s.core.fits d v0 → s.core.fits b v1 → exec (.ldp cls d b a off) s = .next (s.withCore ((c.wr d v0).wr b v1).retire))
      ∧ (d ≠ b → ¬ s.core.fits d v0 → s.core.precise →
        exec (.ldp cls d b a off) s = .next (takeFault { code := 6, addr := v0.toNat } (s.withCore c)))
      ∧ (d = b ∨ s.core.fits d v0 → ¬ s.core.fits b v1 → s.core.precise →
        exec (.ldp cls d b a off) s = .next (takeFault { code := 6, addr := v1.toNat } (s.withCore c)))))

/-- A load that is on its way reads in the core cycle whose cycle it is, once no earlier access of its class holds one of its bytes, where its
memory has a nominal latency: the task's bytes, little-endian; its data is ready its latency later (R226, R291, R365).
The data of load `place.n` of those that may arrive does so in its registers: what it read, or else what it reads
now, sign-extended for the s sizes and zero-extended otherwise; nothing else in the registers and nothing in
memory changes (R6, R291, R303). Planes are taken to stand in their canonical form. Where a byte holds a soft error, MEMORY_ERROR
is raised in place of the data (Table 15.2).
STORE_PERFORM makes the oldest store of its class take effect once its perform point, if it has one, has passed, the accesses and
updates of its class before it have performed, and no store of a lower-numbered core of the die to its bytes is due: its bytes read as
stored, every other byte of memory and every register reads as before, and the store is no longer pending (R228, R355, R365).
It does not perform while an earlier load of its class has yet to read one of its bytes, nor, being a release, one in the reach of its
mask, nor while such a load is an acquire in whose reach it lies (R228, R362, R363). -/
def Obligations.AccessesPerform : Prop :=
  (∀ (s : State) (l : PLoad) (n : Nat), l ∈ s.core.loads → l.got = none → l.atom = false → l.issued = true → l.at_ ≤ s.core.tau →
    s.core.loadLag l.items = some n → (∀ e ∈ l.items, s.readBlocked l.cls l.num e.2 l.size = false ∧ s.spoiled e.2 l.size = false) →
    { l with got := some (l.items.map (fun e => s.taskNum e.2 l.size)), ready := some (s.core.tau + l.more) } ∈ s.readsDue.core.loads
      ∧ s.readsDue = s.withCore { s.core with loads := s.readsDue.core.loads })
  ∧ ((∀ x, (extendSize .n8 x).toNat = x % 2 ^ 8 ∧ (extendSize .s8 x).toInt = sintOf 8 x ∧ (extendSize .n16 x).toNat = x % 2 ^ 16
      ∧ (extendSize .s16 x).toInt = sintOf 16 x ∧ (extendSize .n32 x).toNat = x % 2 ^ 32 ∧ (extendSize .s32 x).toInt = sintOf 32 x
      ∧ (extendSize .n64 x).toNat = x % 2 ^ 64) ∧
  ∀ (s : State) (l : PLoad), (s.core.loads.filter s.loadReady)[s.place.n]? = some l →
    let val := l.got.getD (l.items.map (fun e => s.taskNum e.2 l.size))
    let left := s.core.loads.erase l
    ((∀ v, swf 0 (s.core.planes.get v) = true) → val ≠ [] → (l.got = none → ∀ e ∈ l.items, s.spoiled e.2 l.size = false) →
      ∃ t, exec .loadDataArrival s = .next t ∧ s.sameMemory t ∧ t.core.pc = s.core.pc ∧ t.core.loads = left
        ∧ (∀ d sz pa, l.dst = .reg d sz → l.items = [(0, pa)] → t.core.planes = s.core.planes ∧
            ∀ r, t.core.rd r = if r = d ∧ d ≠ 0 then extendSize sz (val.headD 0) else s.core.rd r)
        ∧ (∀ d b p0 p1, l.dst = .pair d b → l.items = [(0, p0), (1, p1)] → t.core.planes = s.core.planes ∧
            ∀ r, t.core.rd r = if r = b ∧ b ≠ 0 then BitVec.ofNat 64 (val.getD 1 0)
              else if r = d ∧ d ≠ 0 then BitVec.ofNat 64 (val.getD 0 0) else s.core.rd r)
        ∧ (∀ v sz, l.dst = .plane v sz → (∀ r, t.core.rd r = s.core.rd r)
            ∧ (∀ (u : VReg) e, e < 1024 → u ≠ v ∨ (∀ i ∈ l.items, i.1 ≠ e) → t.core.elem u e = s.core.elem u e)
            ∧ ((l.items.map (·.1)).Nodup → (∀ i ∈ l.items, i.1 < 1024) → ∀ x ∈ l.items.zip val,
                t.core.elem v x.1.1 = (extendSize sz x.2).truncate 32)))
    ∧ (∀ e, l.got = none → l.items.find? (fun e => s.spoiled e.2 l.size) = some e → l.isPlane = false → s.core.precise →
      exec .loadDataArrival s =
        .next (takeFault { code := 31, addr := e.2, detail := paSpace e.2 } (s.withCore { s.core with loads := left }).atBoundary)))
  ∧ (∀ (s : State) (cls : OrdClass) (p : PStore), s.place.n = 0 → s.core.stores.find? (fun q => q.cls == cls) = some p → p.rmw = none →
    s.core.reached p.at_ = true → s.core.performable p = true → s.sigBefore s.core.key cls p.num = false → s.outranked p = false → s.Sound →
    ∃ t, exec (.storePerform cls) s = .next t
      ∧ (∀ x, (∀ e ∈ p.bytes, e.1 ≠ x) → t.byte x = s.byte x)
      ∧ (∀ e ∈ p.bytes, (∀ f ∈ p.bytes, f.1 = e.1 → f = e) → t.byte e.1 = e.2)
      ∧ t.core = { s.core with stores := s.core.stores.erase p } ∧ s.coreAndMemory t)
  ∧ (∀ (s : State) (cls : OrdClass) (p : PStore) (l : PLoad), s.place.n = 0 → s.core.stores.find? (fun q => q.cls == cls) = some p →
    l ∈ s.core.loads → l.got = none → l.atom = false → l.cls = cls → l.num < p.num →
    (p.obs ≠ 0 ∧ (∃ i ∈ l.items, inReach p.obs s.core.key i.2 = true))
      ∨ (l.obs ≠ 0 ∧ ∃ e ∈ p.bytes, inReach l.obs s.core.key e.1 = true)
      ∨ (∃ i ∈ l.items, ∃ e ∈ p.bytes, i.2 ≤ e.1 ∧ e.1 < i.2 + l.size) →
    exec (.storePerform cls) s = .next { s with skipped := true })

/-- A store of an aligned, mapped address whose bytes the merge log does not take (the task is not DET, or they lie outside the DET region)
goes on its way with the low bytes of g[D], lowest address first;
STW then advances its walker; STREL carries its observers; STP stores two words, as one access
where the address is a multiple of 16. Memory itself is unchanged until the store performs (R303, R304, R355, R362).
A store of a DET task to the DET region, by ST, STW, STP or STREL, enters the task's merge log and performs nowhere: the log and its image in
memory change, and every byte outside that image reads as before (R368, R370). A release there first waits for the earlier accesses of its
class (R362). -/
def Obligations.StoresGoOnTheirWay : Prop :=
  (∀ (s : State) (cls : OrdClass) (obs : BitVec 5) (sz : MemSize) (d b a : GReg) (w : WReg) (off : BitVec 16) (pa p1 : Nat) (tr t1 : Trans),
    let ea := (BitVec.ofInt 64 ((s.core.rd a).toInt + off.toInt)).toNat
    let wa := (s.core.w.get w).addr
    let n := sizeBytes sz
    let bytes := bytesAt pa n (s.core.rd d).toNat
    let pair := bytesAt pa 8 (s.core.rd d).toNat
    let pair1 := bytesAt p1 8 (s.core.rd b).toNat
    let going := fun (c : Core) (l : List (List (Nat × Byte))) (o : BitVec 5) (ts : List Trans) =>
      l.foldl (fun (c : Core) x => { c with
        num := c.num + 1
        stores := c.stores ++ [⟨c.num, cls, x, none, [], 0, o, ts, false, c.storePoint cls (x.map (·.1)), none⟩] }) c
    (outsideLog s pa n → ea % n = 0 → translate seqReach .write ea s = .ok (pa, tr) → s.slabBusy pa n = false →
      exec (.st cls sz d a off) s = .next (s.withCore (going (s.core.hold tr) [bytes] 0 [tr]).retire)
      ∧ exec (.strel cls obs sz d a off) s = .next (s.withCore (going (s.core.hold tr) [bytes] obs [tr]).retire))
    ∧ (outsideLog s pa n → wa % n = 0 → translate seqReach .write wa s = .ok (pa, tr) → s.slabBusy pa n = false →
      exec (.stw cls sz d w) s =
        .next (s.withCore (Core.retire ((going (s.core.hold tr) [bytes] 0 [tr]).setWalker w ((s.core.w.get w).advance 1)))))
    ∧ (outsideLog s pa 8 → outsideLog s p1 8 → ea % 8 = 0 → translate seqReach .write ea s = .ok (pa, tr) → s.slabBusy pa 8 = false →
      translate seqReach .write ((ea + 8) % 2 ^ 64) (s.hold tr) = .ok (p1, t1) → s.slabBusy p1 8 = false →
      exec (.stp cls d b a off) s =
        .next (s.withCore (going ((s.core.hold tr).hold t1) (if ea % 16 = 0 then [pair ++ pair1] else [pair, pair1]) 0 [tr, t1]).retire))
    ∧ (ea % n ≠ 0 → s.core.precise → exec (.st cls sz d a off) s = .next (takeFault { code := 4, addr := ea } s))
    ∧ (∀ tr' i, ea % n = 0 → translate seqReach .write ea s = .ok (pa, tr') → s.slabFirst pa n = some i → s.core.precise →
      exec (.st cls sz d a off) s = .next (takeFault { code := 24, addr := ea + i } (s.hold tr'))))
  ∧ (∀ (s : State) (cls : OrdClass) (obs : BitVec 5) (sz : MemSize) (d b a : GReg) (w : WReg) (off : BitVec 16) (pa p1 : Nat) (tr t1 : Trans)
      (log : List LogEntry),
    let ea := (BitVec.ofInt 64 ((s.core.rd a).toInt + off.toInt)).toNat
    let wa := (s.core.w.get w).addr
    let n := sizeBytes sz
    let bytes := bytesAt pa n (s.core.rd d).toNat
    let pairs := bytesAt pa 8 (s.core.rd d).toNat ++ bytesAt p1 8 (s.core.rd b).toNat
    let unread := fun (l : List (Nat × Byte)) => ∀ e ∈ l, s.core.loadBefore cls s.core.num e.1 1 = false
    let logged := fun (i : Instr) (w : Vector Walker 8) => ∃ t, exec i s = .next t ∧ t.core.log = log ∧ t.core.stores = s.core.stores
      ∧ s.sameMemoryBut t s.core.logPA (16 * log.length) ∧ s.coreAndMemory t
      ∧ { s.core with log := log, w := w, held := t.core.held }.moved t.core
    (insideLog s pa n → ea % n = 0 → translate seqReach .write ea s = .ok (pa, tr) → s.slabBusy pa n = false → unread bytes →
      logPlain s.core.log s.core.resv bytes = .ok log →
      logged (.st cls sz d a off) s.core.w
        ∧ (obs = 0 ∨ s.classBusy cls = false → logged (.strel cls obs sz d a off) s.core.w))
    ∧ (insideLog s pa n → ea % n = 0 → translate seqReach .write ea s = .ok (pa, tr) → s.slabBusy pa n = false → obs ≠ 0 → s.classBusy cls = true →
      ∃ t, exec (.strel cls obs sz d a off) s = .next t ∧ t = s.withCore { s.core.hold tr with stalled := t.core.stalled })
    ∧ (insideLog s pa n → wa % n = 0 → translate seqReach .write wa s = .ok (pa, tr) → s.slabBusy pa n = false → unread bytes →
      logPlain s.core.log s.core.resv bytes = .ok log →
      logged (.stw cls sz d w) (s.core.w.set w.val ((s.core.w.get w).advance 1)))
    ∧ (insideLog s pa 8 → insideLog s p1 8 → ea % 8 = 0 → translate seqReach .write ea s = .ok (pa, tr) → s.slabBusy pa 8 = false →
      translate seqReach .write ((ea + 8) % 2 ^ 64) (s.hold tr) = .ok (p1, t1) → s.slabBusy p1 8 = false → unread pairs →
      logPlain s.core.log s.core.resv pairs = .ok log →
      logged (.stp cls d b a off) s.core.w))

/-- FENCE retires when no earlier access of a class in its mask is still to perform (a store's byte, a load that has not read, a signal update
of this sequencer), and waits while there is one (R360, entry 10). FENCEO does the same for the accesses whose homes lie within the reach of
the kinds that it names (R364). ICFENCE retires when no transfer record is queued or running, and waits while there is one (R221);
no word that a record replaced is fetched after it. TOKW retires when the retired count of every token of its mask has come up to the
count enqueued (R382), and waits until then; a mask of zero waits for nothing (R383). A word that waits changes nothing, but that in fixed
mode it may ask for a stall cycle of its domain (R394). -/
def Obligations.FencesAndTokensWait : Prop :=
  ∀ (s : State) (mask : BitVec 16) (obs : BitVec 5) (m : BitVec 8),
    let busy := fun (reach : Nat → Bool) =>
      (∃ p ∈ s.core.stores, mask.getLsbD p.cls.val = true ∧ ((∃ e ∈ p.bytes, reach e.1 = true) ∨ ∃ e ∈ p.addrs, reach e.2 = true))
      ∨ (∃ l ∈ s.core.loads, l.got = none ∧ l.atom = false ∧ mask.getLsbD l.cls.val = true ∧ ∃ e ∈ l.items, reach e.2 = true)
      ∨ ∃ x ∈ s.sigs, x.applied = false ∧ reach x.addr = true ∧ ∃ c n, x.ord = some (s.core.key, c, n) ∧ mask.getLsbD c.val = true
    let waits := fun (i : Instr) => exec i s = .next s ∨ exec i s = .next (s.withCore s.core.delayed)
    let caughtUp := ∀ k : Fin 8, m.getLsbD k.val = true → ((s.core.tok.get k).ret - (s.core.tok.get k).enq).toNat < 2 ^ 31
    (¬ busy (fun _ => true) → exec (.fence mask) s = .next s.retire)
    ∧ (busy (fun _ => true) → waits (.fence mask))
    ∧ (¬ busy (inReach obs s.core.key) → exec (.fenceo mask obs) s = .next s.retire)
    ∧ (busy (inReach obs s.core.key) → waits (.fenceo mask obs))
    ∧ (s.core.tq = [] → s.core.trun = [] → exec .icfence s = .next (s.withCore (Core.retire { s.core with oldCode := [] })))
    ∧ (s.core.tq ≠ [] ∨ s.core.trun ≠ [] → exec .icfence s = .next s)
    ∧ (caughtUp → exec (.tokw m) s = .next s.retire)
    ∧ (¬ caughtUp → exec (.tokw m) s = .next (s.withCore s.core.delayedCounted))

/-! ### Atomics (R305, R306, R371) -/

/-- What an atomic stores for an old value, and the flags that it leaves (R305): addition modulo 2ⁿ, the bitwise operations, minimum and
maximum of signed or unsigned values, exchange; 9 adds under RNE, 10 stores its operand where the old value is the one wanted. -/
def Sys2Proof.Machine.rmwStores (m : Rmw) (old new : Nat) (f : Flags) : Prop :=
  let n := 8 * sizeBytes m.sz
  (m.op ≠ 9 → f = 0) ∧
  match m.op with
  | 0 => new = (old + m.x) % 2 ^ n
  | 1 => new = old &&& m.x
  | 2 => new = old ||| m.x
  | 3 => new = old ^^^ m.x
  | 4 => new < 2 ^ n ∧ sintOf n new = min (sintOf n old) (sintOf n m.x)
  | 5 => new = min old m.x
  | 6 => new < 2 ^ n ∧ sintOf n new = max (sintOf n old) (sintOf n m.x)
  | 7 => new = max old m.x
  | 8 => new = m.x
  | 9 => (new, f) = (let F := if m.sz = .n64 then FFmt.fp64 else FFmt.fp32; fpAdd F .rne false (F.val old) (F.val m.x))
  | 10 => new = if old = m.want then m.x else old
  | _ => False

/-- The atomic words of R305 and what each sends to its home: its operation and size, its operand g[B], and for ACAS the value of g[D] that
it compares with. -/
def Sys2Proof.Machine.atomicWord (i : Instr) (c : Core) (cls : OrdClass) (obs : BitVec 5) (d b a : GReg) (off : BitVec 16) (m : Rmw) : Prop :=
  let x := (c.rd b).toNat % 2 ^ (8 * sizeBytes m.sz)
  (∃ sz, m = ⟨m.op, sz, x, 0⟩
      ∧ ((i = .aadd cls obs sz d b a off ∧ m.op = 0) ∨ (i = .aand cls obs sz d b a off ∧ m.op = 1) ∨ (i = .aor cls obs sz d b a off ∧ m.op = 2)
        ∨ (i = .axor cls obs sz d b a off ∧ m.op = 3) ∨ (i = .amins cls obs sz d b a off ∧ m.op = 4)
        ∨ (i = .aminn cls obs sz d b a off ∧ m.op = 5) ∨ (i = .amaxs cls obs sz d b a off ∧ m.op = 6)
        ∨ (i = .amaxn cls obs sz d b a off ∧ m.op = 7) ∨ (i = .axch cls obs sz d b a off ∧ m.op = 8)))
    ∨ (∃ sz, i = .acas cls obs sz d b a off ∧ m = ⟨10, sz, x, (c.rd d).toNat % 2 ^ (8 * sizeBytes sz)⟩)
    ∨ (∃ dbl, i = .afadd cls obs dbl d b a off ∧ m = ⟨9, if dbl = true then .n64 else .n32, x, 0⟩)

/-- Atomics (R305, R306, R371). One whose bytes the merge log does not take and whose result does not go to sp is sent on its way: an access of
its class of the bytes, which g[D] waits for, and the word retires. At its home, once its perform point has passed and the accesses of its
class before it have performed (R365), it reads and writes at once: memory holds the new value there and every other byte as before, the old
value is ready for g[D] its memory's latency later, and AFADD's flags join SFL.
Into sp it performs at once, after the accesses of its class, since the check of sp is made at the word (R181, entry 9).
In a DET task on the DET region AXCH and ACAS, and any atomic whose result is not discarded, AFADD too, raise DET_ATOMIC; with d = 0 the others
enter the merge log as reductions, and a reduction of the same operation, size and place is combined with (R306, R371). -/
def Obligations.AtomicWords : Prop :=
  (∀ (s : State) (i : Instr) (cls : OrdClass) (obs : BitVec 5) (d b a : GReg) (off : BitVec 16) (pa : Nat) (tr : Trans) (m : Rmw),
    let ea := (BitVec.ofInt 64 ((s.core.rd a).toInt + off.toInt)).toNat
    let n := sizeBytes m.sz
    let zeros := addressed pa (List.replicate n 0)
    let c := s.core.hold tr
    let outside := s.core.det = false ∨ detRegion s.core.key pa = false
    let inside := s.core.det = true ∧ detRegion s.core.key pa = true
    atomicWord i s.core cls obs d b a off m → ea % n = 0 → translate seqReach .write ea s = .ok (pa, tr) → s.slabBusy pa n = false →
    (outside → d ≠ 32 →
      exec i s = .next (s.withCore (Core.retire { c with
        num := c.num + 1
        stores := c.stores ++ [⟨c.num, cls, zeros, none, [], 0, obs, [tr], false, c.storePoint cls (zeros.map (·.1)), some m⟩]
        loads := c.loads ++ [⟨c.num, cls, .reg d m.sz, [(0, pa)], n, true, 0, c.tau, (c.loadLag [(0, pa)]).getD 0, none, none, 0, true, [tr]⟩] })))
    ∧ (outside → d = 32 → s.Sound → s.classBusy cls = false → s.spoiled pa n = false →
      let old := s.num pa n
      let v := extendSize m.sz old
      (s.core.fits 32 v → ∃ t new f, exec i s = .next t ∧ rmwStores m old new f ∧ s.sameMemoryBut t pa n
        ∧ (∀ j < n, t.byte (pa + j) = BitVec.ofNat 8 (new / 256 ^ j)) ∧ (∀ r, t.core.rd r = if r = 32 then v else s.core.rd r)
        ∧ s.coreAndMemory t ∧ { c.orFlags 0 f with g := t.core.g, clean := s.core.cleanG t.core }.moved t.core)
      ∧ (¬ s.core.fits 32 v → s.core.precise → exec i s = .next (takeFault { code := 6, addr := v.toNat } (s.hold tr))))
    ∧ (outside → d = 32 → s.classBusy cls = true →
      exec i s = .next (s.hold tr) ∨ exec i s = .next (s.withCore c.delayed))
    ∧ (inside → m.op = 8 ∨ m.op = 10 ∨ d ≠ 0 → s.core.precise → exec i s = .next (takeFault { code := 20, addr := ea } (s.hold tr)))
    ∧ (inside → m.op < 8 ∨ m.op = 9 → d = 0 → obs = 0 ∨ s.classBusy cls = false →
      let same := fun (e : LogEntry) => e.isRed = true ∧ e.loc = pa ∧ e.op = m.op ∧ e.size = m.sz.code
      let clear := ∀ j < n, (∀ e ∈ s.core.log, e.touches (pa + j) = true → same e) ∧ pa + j ∉ s.core.resv
      let logged := fun (log : List LogEntry) (f : Flags) => ∃ t, exec i s = .next t ∧ t.core.log = log
        ∧ s.sameMemoryBut t s.core.logPA (16 * log.length) ∧ s.coreAndMemory t ∧ { c.orFlags 0 f with log := log }.moved t.core
      (clear → (∀ e ∈ s.core.log, ¬ same e) → s.core.log.length + (logFresh s.core.log s.core.resv).length < 16384 →
        logged (s.core.log ++ [redEntry m.op m.sz.code pa m.x]) 0)
      ∧ (∀ l₁ e l₂, s.core.log = l₁ ++ e :: l₂ → same e → (∀ x ∈ l₁ ++ l₂, ¬ same x) → e.data.toNat < 2 ^ (8 * n) → clear →
        ∃ new f, rmwStores m e.data.toNat new f ∧ logged (l₁ ++ { e with data := BitVec.ofNat 64 new } :: l₂) f)))
  ∧ (∀ (s : State) (cls : OrdClass) (p : PStore) (m : Rmw) (pa : Nat), s.Sound → s.place.n = 0 →
    s.core.stores.find? (fun q => q.cls == cls) = some p → p.rmw = some m → p.bytes = addressed pa (List.replicate (sizeBytes m.sz) 0) →
    m.op ≤ 10 → m.x < 2 ^ (8 * sizeBytes m.sz) →
    s.core.reached p.at_ = true → s.core.performable p = true → s.sigBefore s.core.key cls p.num = false → s.outranked p = false →
    s.spoiled pa (sizeBytes m.sz) = false →
    let n := sizeBytes m.sz
    let old := s.num pa n
    let given := fun (l : PLoad) => { l with got := some [old], ready := (s.core.loadLag l.items).map (fun _ => s.core.tau + l.more) }
    ∃ t new f, exec (.storePerform cls) s = .next t ∧ rmwStores m old new f ∧ s.sameMemoryBut t pa n
      ∧ (∀ j < n, t.byte (pa + j) = BitVec.ofNat 8 (new / 256 ^ j)) ∧ s.coreAndMemory t
      ∧ t.core = { s.core.orFlags 0 f with
          stores := s.core.stores.erase p
          loads := s.core.loads.map (fun l => if l.atom = true ∧ l.num = p.num then given l else l) })

/-! ### Barriers and signals (R377 to R387), MERGE (R372) -/

/-- An arrival at a barrier (R378): the last of EC arrivals completes the phase, and an expected count set meanwhile takes effect;
any other is counted; with EC 0 it is dropped.
The barrier at a home reads what was written there, and every barrier of another scope, and every other of the same owner, as
before (R377). Shown in states whose cores, dies and packages are held under their own keys (StepKeepsKeys).
The barrier words (Table 14.4). BARA arrives and writes the phase joined; BAR arrives, then waits for that phase; both
wait for the earlier accesses of their agent first; BARW waits for
the phase in g[A]; BARQ reads the counts; BARC, in the handler, sets them. An arrival that another agent sent is applied at the
barrier's home. A disabled barrier makes an arrival raise BARRIER_DISABLED. -/
def Obligations.BarrierWordsAndHomes : Prop :=
  ((∀ b : Barrier,
    (b.ec = 0 → b.arrive = b)
    ∧ (b.ec ≠ 0 → b.ac.toNat + 1 < b.ec.toNat → b.arrive = { b with ac := b.ac + 1 })
    ∧ (b.ec ≠ 0 → b.ec.toNat ≤ b.ac.toNat + 1 → b.arrive.ph = b.ph + 1 ∧ b.arrive.ac = 0 ∧ b.arrive.pc = b.pc
        ∧ b.arrive.ec = b.nextEc.getD b.ec ∧ b.arrive.nextEc = none))
  ∧ (∀ (s : State) (k : BarKey) (b : Barrier), s.Keyed → (k.scope = .core → k.idx < 96) → (s.setBar k b).getBar k = b
    ∧ ∀ j : BarKey, j.scope ≠ k.scope ∨ (j.scope = k.scope ∧ j.owner = k.owner ∧ j.idx ≠ k.idx ∧ j.idx < 96 ∧ k.idx < 96
        ∧ (j.scope = .quad → j.idx < 32 ∧ k.idx < 32)) → (s.setBar k b).getBar j = s.getBar j))
  ∧ (∀ (s : State) (sc : Scope) (i : BitVec 7) (d a : GReg) (home : BarKey),
    let k := barKey s.core.key sc i.toNat
    let b := s.getBar k
    let u := s.setBar k b.arrive
    let joined : Word := BitVec.ofNat 64 b.ph.toNat
    (b.ec ≠ 0 → s.accessBusy = false → s.core.fits d joined →
      exec (.bara d sc i) s = .next (u.withCore (u.core.wr d joined).retire))
    ∧ (b.ec ≠ 0 → s.accessBusy = false → s.core.wait = none →
      exec (.bar sc i) s = .next (u.withCore { u.core with wait := some (.phase b.ph) }))
    ∧ (b.ec ≠ 0 → s.accessBusy = true → s.core.wait = none →
      exec (.bar sc i) s = .next s ∨ exec (.bar sc i) s = .next (s.withCore s.core.delayedCounted))
    ∧ (∀ p, s.core.wait = some (.phase p) →
      (1 ≤ (b.ph - p).toNat ∧ (b.ph - p).toNat ≤ 32767 → exec (.bar sc i) s = .next s.retire)
      ∧ (¬ (1 ≤ (b.ph - p).toNat ∧ (b.ph - p).toNat ≤ 32767) → exec (.bar sc i) s = .next (s.withCore s.core.delayedCounted)))
    ∧ (1 ≤ (b.ph - BitVec.ofNat 16 (s.core.rd a).toNat).toNat → (b.ph - BitVec.ofNat 16 (s.core.rd a).toNat).toNat ≤ 32767 →
      exec (.barw sc i a) s = .next s.retire)
    ∧ (¬ (1 ≤ (b.ph - BitVec.ofNat 16 (s.core.rd a).toNat).toNat ∧ (b.ph - BitVec.ofNat 16 (s.core.rd a).toNat).toNat ≤ 32767) →
      exec (.barw sc i a) s = .next (s.withCore s.core.delayedCounted))
    ∧ (let v := BitVec.ofNat 64 ((if sc = .core then b.pc % 2 ^ 16 else 0) * 2 ^ 48 + b.ec.toNat * 2 ^ 32 + b.ac.toNat * 2 ^ 16 + b.ph.toNat)
       s.core.fits d v → exec (.barq d sc i) s = .next (s.withCore (s.core.wr d v).retire))
    ∧ (let v := (s.core.rd a).toNat
       s.core.priv = true → v / 2 ^ 17 % 2 ^ 15 = 0 → v / 2 ^ 48 = 0 →
        exec (.barc sc i a) s = .next (s.setBar k (if v / 2 ^ 16 % 2 = 1
          then { b with ec := BitVec.ofNat 16 v, ac := 0, ph := BitVec.ofNat 16 (v / 2 ^ 32), nextEc := none }
          else if b.ac = 0 then { b with ec := BitVec.ofNat 16 v, nextEc := none }
          else { b with nextEc := some (BitVec.ofNat 16 v) })).retire)
    ∧ exec (.barrierArrival home) s = .next (s.setBar home (s.getBar home).arrive)
    ∧ (b.ec = 0 → s.core.wait = none → s.core.precise →
      exec (.bar sc i) s = .next (takeFault { code := 25, detail := sc.code * 2 ^ 27 + i.toNat } s)))

/-! ### Control registers, time, translations (R12, R167, R168, R219, R220, R300) -/

/-- A write of a control register changes its RW fields to the operand (SET: sets, CLR: clears), clears its W1C flags where CTLWR's
operand has a one, and leaves every other bit (R12, R219), but a
flag of FPCS that was set in this core cycle stays (R64); the register then reads back so. Registers below 0x010 are open to user
mode.
CTLRD writes the register's value (zero for a privileged register in user mode; FPCS once the vector words are done), TICK the
tick of its core's clock (entry 4; R13, R64, R219, R220). -/
def Obligations.ControlRegistersAndTime : Prop :=
  (∀ (s : State) (n : BitVec 12) (a : GReg), s.Keyed → ctlAssigned n = true → n ≠ 0x200 → n ≠ 0x201 → (n.toNat < 0x010 ∨ s.core.priv = true) →
    let rw := fun (i : Nat) => (s.ctlRWNow n.toNat).getLsbD i
    let w1c := fun (i : Nat) => (ctlW1C n.toNat).getLsbD i
    let old := fun (i : Nat) => (s.ctlValue n.toNat).getLsbD i
    let x := fun (i : Nat) => (s.core.rd a).getLsbD i
    (∃ t, exec (.ctlwr n a) s = .next t ∧ s.sameMemory t ∧ (∀ r, t.core.rd r = s.core.rd r)
      ∧ ∀ i < 64, (t.ctlValue n.toNat).getLsbD i = if rw i then x i
          else if w1c i && x i && !(decide (n = 0) && s.core.newFlags.getLsbD i) then false else old i)
    ∧ (∃ t, exec (.ctlset n a) s = .next t ∧ s.sameMemory t ∧ (∀ r, t.core.rd r = s.core.rd r)
      ∧ ∀ i < 64, (t.ctlValue n.toNat).getLsbD i = if rw i then old i || x i else old i)
    ∧ (∃ t, exec (.ctlclr n a) s = .next t ∧ s.sameMemory t ∧ (∀ r, t.core.rd r = s.core.rd r)
      ∧ ∀ i < 64, (t.ctlValue n.toNat).getLsbD i = if rw i then old i && !x i else old i))
  ∧ (∀ (s : State) (n : BitVec 12) (d : GReg),
    (n.toNat < 0x100 ∨ s.core.priv = true → (n ≠ 0 ∨ s.core.vectorIdle = true) → s.core.fits d (s.ctlValue n.toNat) →
      exec (.ctlrd d n) s = .next (s.withCore (s.core.wr d (s.ctlValue n.toNat)).retire))
    ∧ (0x100 ≤ n.toNat → s.core.priv = false → s.core.fits d 0 → exec (.ctlrd d n) s = .next (s.withCore (s.core.wr d 0).retire))
    ∧ (s.core.vectorIdle = false → exec (.ctlrd d 0) s = .next s)
    ∧ (s.core.fits d (BitVec.ofNat 64 s.coreTick) → exec (.tick d) s = .next (s.withCore (s.core.wr d (BitVec.ofNat 64 s.coreTick)).retire)))

/-- TMARK in the handler (R300): with its own stores performed and no transfer queue in its scope full, every core in the scope (this
core, the die's, or the package's, as far as they hold state) discards its held translations in the range and takes a marker at the
end of its transfer queue, every other core stays as it was, and the word waits. While a store of its own has not performed, or a queue
is full, it waits without marking. It retires once no core that it marked has a record, an access or a signal update from before the
marker that holds such a translation, and waits till then (which accesses count is entry 14). -/
def Obligations.TmarkDiscardsAndWaits : Prop :=
  ∀ (s : State) (a b : GReg) (range scope : Fin 3), s.core.priv = true → s.Keyed →
    let asid : BitVec 16 := (s.core.rd b).truncate 16
    let inScope := fun (k : CoreKey) => match scope with
      | 0 => k = s.core.key
      | 1 => k.dieKey = s.core.key.dieKey
      | 2 => k.pkg = s.core.key.pkg
    let covered := inRange range.val asid (s.core.rd a).toNat
    let present := fun (k : CoreKey) => ∃ c ∈ s.allCores, c.key = k
    (s.core.wait = none → s.core.stores = [] → (∀ k, present k → inScope k → (s.getCore k).tq.length < 16) →
      ∃ t l, exec (.tmark a b range scope) s = .next t ∧ t.core.pc = s.core.pc ∧ t.core.wait = some (.marks l) ∧ s.sameMemory t
        ∧ (∀ k n, (k, n) ∈ l ↔ present k ∧ inScope k ∧ n = (s.getCore k).num)
        ∧ (∀ k, present k → inScope k → (∀ x, x ∈ (t.getCore k).held ↔ x ∈ (s.getCore k).held ∧ covered x = false)
            ∧ ∃ r, (t.getCore k).tq = (s.getCore k).tq ++ [r] ∧ r.marker = some (s.getCore k).num)
        ∧ (∀ k, k ≠ s.core.key → ¬ (present k ∧ inScope k) → t.getCore k = s.getCore k))
    ∧ (s.core.wait = none → s.core.stores ≠ [] ∨ (∃ k, present k ∧ inScope k ∧ 16 ≤ (s.getCore k).tq.length) →
      exec (.tmark a b range scope) s = .next s ∨ exec (.tmark a b range scope) s = .next (s.withCore s.core.delayed))
    ∧ (∀ l, s.core.wait = some (.marks l) →
      let old := fun (e : CoreKey × Nat) => holdsOld range.val asid (s.core.rd a).toNat e.2 (s.getCore e.1) = true
        ∨ ∃ x ∈ s.sigs, x.applied = false ∧ (∃ t ∈ x.trans, covered t = true) ∧ ∃ c n, x.ord = some (e.1, c, n) ∧ n < e.2
      ((∀ e ∈ l, ¬ old e) → exec (.tmark a b range scope) s = .next s.retire)
      ∧ ((∃ e ∈ l, old e) → exec (.tmark a b range scope) s = .next (s.withCore s.core.delayed)))

/-- LOOP and LOOPR start their counter on a body that begins behind the word and ends at pc + e; a count of zero makes the counter
inactive and goes to pc + e + 8 (R197; that this is a transfer of control is entry 8). LBRK makes its counter and those below it
inactive and goes to its target (R199).
REP (R157 to R159, R465): before a word of a major that can repeat, which decodes and whose stepped registers stay in range, with a
guard that holds, or that held before the fault which RTE comes back from, the sequence begins at repeat 0, or at REPPOS after an RTE to
the REP; the pc stays at the REP while its word repeats (entry 5). A REPPOS above CNT goes on behind the repeated word. With a false guard both words are skipped, with loop-end
processing for the second alone (entry 5). Before a word of another major REPEAT_INVALID is raised; where the word does not decode, or a stepped field
leaves its range or is not used, UNDEFINED_INSTRUCTION (the first: entry 109). -/
def Obligations.LoopAndRepeatWords : Prop :=
  (∀ (s : State) (l : LReg) (n e : BitVec 16) (a : GReg) (i : BitVec 32),
    let start := fun (k : BitVec 32) => { s.core with lc := s.core.lc.set l.val ⟨k, s.core.pc + 8, s.core.pc + BitVec.ofNat 17 e.toNat, true⟩ }
    let skipped := { s.core with lc := s.core.lc.set l.val { s.core.lc.get l with active := false } }
    let past := s.core.pc + BitVec.ofNat 17 e.toNat + 8
    (n ≠ 0 → exec (.loop l n e) s = .next { s with core := (start (BitVec.ofNat 32 n.toNat)).retire })
    ∧ ((s.core.rd a).toNat % 2 ^ 32 ≠ 0 → exec (.loopr l a e) s = .next { s with core := (start (BitVec.ofNat 32 (s.core.rd a).toNat)).retire })
    ∧ (n = 0 → ∃ t, exec (.loop l n e) s = .next t ∧ jumpsTo { s with core := skipped } t past)
    ∧ ((s.core.rd a).toNat % 2 ^ 32 = 0 → ∃ t, exec (.loopr l a e) s = .next t ∧ jumpsTo { s with core := skipped } t past)
    ∧ (∃ t, exec (.lbrk l i) s = .next t ∧ t.core.pc = branchTarget s i
        ∧ (∀ k : Fin 4, t.core.lc.get k = if k ≤ l then { s.core.lc.get k with active := false } else s.core.lc.get k)
        ∧ framePc { s with core := { s.core with lc := t.core.lc } } t))
  ∧ (∀ (s : State) (cnt : Fin 64) (step : BitVec 4) (stride : Fin 4) (g : Guarded), s.core.rep = none →
    let w := s.fetch (s.core.pc + 8)
    let can := w.toNat / 2 ^ 56 ∈ [0x80, 0x81, 0x82, 0x83, 0x8A, 0x8B, 0x8C, 0x8E, 0x8F, 0x90, 0x92]
    let first := if s.core.repResume = true then s.core.ctl.reppos.toNat % 64 else 0
    let goes := s.core.rp g.gp ≠ g.neg ∨ (s.core.repResume = true ∧ s.core.repHeld = some s.core.pc)
    (can → decode w = .ok g → repBad w g.instr cnt.val step stride.val = false →
      (goes → first ≤ cnt.val →
        ∃ t, exec (.rep cnt step stride) s = .next t ∧ t.core.rep = some ⟨cnt.val, step, stride, first⟩ ∧ t.core.pc = s.core.pc ∧ framePc s t)
      ∧ (goes → cnt.val < first → ∃ t, exec (.rep cnt step stride) s = .next t ∧ t.core.pc = s.core.pc + 16 ∧ t.core.rep = none ∧ framePc s t)
      ∧ (¬ goes → exec (.rep cnt step stride) s = .next { s with core := Core.retire { s.core with pc := s.core.pc + 8 } }))
    ∧ (can → decode w = .ok g → repBad w g.instr cnt.val step stride.val = true → s.core.precise →
      exec (.rep cnt step stride) s = .next (takeFault { code := 1, detail := 5 } s))
    ∧ (∀ n, can → decode w = .error n → s.core.precise →
      exec (.rep cnt step stride) s = .next (takeFault { code := 1, detail := n } s))
    ∧ (¬ can → s.core.precise → exec (.rep cnt step stride) s = .next (takeFault { code := 3 } s)))

/-! ### Vector words (R222 to R258) -/

/-- The word i enters the vector engine's issue queue with the rounding mode, scalar and second operand that the sequencer captures
for it, and retires: a queue with room, no fixed-mode handler, and C. Behind a full queue it waits; in a fixed-mode handler it raises
HANDLER_ENGINE (R225, R401). -/
def Sys2Proof.Machine.dispatches (i : Instr) (rm : Core → Rm) (scalar aux : Core → Word) (C : Core → Prop) (f : Core → Core) : Prop :=
  ∀ s : State,
    (¬ (s.core.priv = true ∧ s.core.fixed = true) → s.core.vq.length < 16 → C s.core →
      exec i s = .next (s.withCore (f { s.core with
        num := s.core.num + 1
        vq := s.core.vq ++ [⟨s.core.num, i, rm s.core, scalar s.core, aux s.core, s.core.tid, none, s.core.tau + 1⟩] }).retire))
    ∧ (¬ (s.core.priv = true ∧ s.core.fixed = true) → 16 ≤ s.core.vq.length → exec i s = .next (s.withCore s.core.delayed))
    ∧ (s.core.priv = true → s.core.fixed = true → s.core.precise →
      exec i s = .next (takeFault { code := 30, engine := 1 } s))

/-- The same for a word that captures nothing. -/
def Sys2Proof.Machine.dispatchesPlain (i : Instr) : Prop := dispatches i (fun _ => .rne) (fun _ => 0) (fun _ => 0) (fun _ => True) id

/-- The same for a word with a rounding-mode field: its own mode, or FPCS.RM (R62). -/
def Sys2Proof.Machine.dispatchesRounded (i : Instr) (rm : RmSel) : Prop :=
  dispatches i (fun c => rm.getD c.ctl.rm) (fun _ => 0) (fun _ => 0) (fun _ => True) id

/-- Every vector word that is no load or store, with the rounding mode, scalar and second operand that the sequencer captures for it,
enters a queue with room and retires; behind a full queue it waits; in a fixed-mode handler it raises HANDLER_ENGINE (R225, R401).
A word with a rounding-mode field captures its own mode or FPCS.RM (R62); a VMOV into a plane and a VBC capture their g register
(R239); VRNG captures seed and counter and advances the counter (R254); packing words capture GWCFG (R256).
MPUSH needs a stack with room and else raises MASK_OVERFLOW; MINV, MPOP and MAND need an entry and else raise MASK_UNDERFLOW, the depth
being that after the words before them (R231); a packing word with GWCFG.G or GWCFG.K zero raises PACK_CONFIG (R256). A VMOV into sp
writes it at once when the vector words before it have completed, and waits till then (entry 9). -/
def Obligations.VectorWordsDispatchOrFault : Prop :=
  ((∀ (ty t2 : ElemTy) (rm : RmSel) (sat : Bool) (d a b q : VReg) (g : GReg) (c : Fin 5) (row : Fin 16) (col : Fin 64) (part : Fin 8),
    dispatchesRounded (.vadd ty rm sat d a b) rm ∧ dispatchesRounded (.vsub ty rm sat d a b) rm
    ∧ dispatchesRounded (.vmul ty rm sat d a b) rm ∧ dispatchesRounded (.vfma ty rm sat d a b q) rm
    ∧ dispatchesRounded (.vcvt ty t2 part rm sat d a) rm
    ∧ dispatchesPlain (.vmin ty d a b) ∧ dispatchesPlain (.vmax ty d a b) ∧ dispatchesPlain (.vabs ty sat d a)
    ∧ dispatchesPlain (.vneg ty sat d a) ∧ dispatchesPlain (.vand d a b) ∧ dispatchesPlain (.vor d a b) ∧ dispatchesPlain (.vxor d a b)
    ∧ dispatchesPlain (.vnot d a) ∧ dispatchesPlain (.vshl ty d a b) ∧ dispatchesPlain (.vshr ty d a b)
    ∧ dispatchesPlain (.vsha ty d a b) ∧ dispatchesPlain (.vcmp ty d a b c) ∧ dispatchesPlain (.vsel d a b q)
    ∧ dispatchesPlain (.vmov d a)
    ∧ (g ≠ 32 → dispatchesPlain (.vmovExtract g a row col))
    ∧ dispatches (.vmovInsert d g row col) (fun _ => .rne) (fun c => c.rd g) (fun _ => 0) (fun _ => True) id
    ∧ dispatches (.vbc d g) (fun _ => .rne) (fun c => c.rd g) (fun _ => 0) (fun _ => True) id
    ∧ ∀ s : State, ¬ (s.core.priv = true ∧ s.core.fixed = true) → s.core.vq.length < 16 →
        (s.core.precise → s.core.fits 32 (BitVec.ofNat 64 (s.core.elem a (64 * row.val + col.val)).toNat) →
          exec (.vmovExtract 32 a row col) s =
            .next (s.withCore (s.core.wr 32 (BitVec.ofNat 64 (s.core.elem a (64 * row.val + col.val)).toNat)).retire))
        ∧ (s.core.vectorIdle = false → exec (.vmovExtract 32 a row col) s = .next s))
  ∧ (∀ (ty : ElemTy) (rm : RmSel) (sat ta tb bf sel : Bool) (d a b q : VReg) (n : Fin 64) (m f16 : Fin 16) (op : Fin 3) (h : Fin 4) (fd : Fin 128),
    dispatchesPlain (.vrrot d a n) ∧ dispatchesPlain (.vrbc d a n) ∧ dispatchesPlain (.vcrot d a m) ∧ dispatchesPlain (.vcbc d a m)
    ∧ dispatchesRounded (.vrred ty rm sat op d a) rm ∧ dispatchesRounded (.vcred ty rm sat op d a) rm
    ∧ dispatchesRounded (.vrscan ty rm sat op d a) rm ∧ dispatchesRounded (.vcscan ty rm sat op d a) rm
    ∧ dispatchesPlain (.vtrp d a) ∧ dispatchesPlain (.vperm d a b)
    ∧ dispatches (.mpush a) (fun _ => .rne) (fun _ => 0) (fun _ => 0) (fun c => c.maskDepth ≠ 16) id
    ∧ dispatches .minv (fun _ => .rne) (fun _ => 0) (fun _ => 0) (fun c => c.maskDepth ≠ 0) id
    ∧ dispatches .mpop (fun _ => .rne) (fun _ => 0) (fun _ => 0) (fun c => c.maskDepth ≠ 0) id
    ∧ dispatches (.mand a) (fun _ => .rne) (fun _ => 0) (fun _ => 0) (fun c => c.maskDepth ≠ 0) id
    ∧ dispatchesPlain (.vexpf d a) ∧ dispatchesPlain (.vexpx d a) ∧ dispatchesPlain (.vlogf d a) ∧ dispatchesPlain (.vlogx d a)
    ∧ dispatchesPlain (.vrcpf d a) ∧ dispatchesPlain (.vrcpx d a) ∧ dispatchesPlain (.vrsqf d a) ∧ dispatchesPlain (.vrsqx d a)
    ∧ dispatchesPlain (.vsinf d a) ∧ dispatchesPlain (.vsinx d a) ∧ dispatchesPlain (.vcosf d a) ∧ dispatchesPlain (.vcosx d a)
    ∧ dispatchesPlain (.vtanhf d a) ∧ dispatchesPlain (.vtanhx d a)
    ∧ dispatchesPlain (.vdot8 ta tb h d a b q) ∧ dispatchesRounded (.vdotb rm sat h d a b q) rm
    ∧ dispatchesRounded (.vscl bf rm sat h d a b) rm
    ∧ dispatches (.vrng d) (fun _ => .rne) (fun c => c.ctl.rngseed) (fun c => c.ctl.rngctr) (fun _ => True)
        (fun c => { c with ctl := { c.ctl with rngctr := c.ctl.rngctr + 1 } })
    ∧ dispatches (.vpkp ty sel n d a) (fun _ => .rne) (fun c => c.ctl.gwcfg) (fun _ => 0)
        (fun c => gwG c.ctl.gwcfg ≠ 0 ∧ gwK c.ctl.gwcfg ≠ 0) id
    ∧ dispatches (.vxtp fd f16 d a) (fun _ => .rne) (fun c => c.ctl.gwcfg) (fun _ => 0)
        (fun c => gwG c.ctl.gwcfg ≠ 0 ∧ gwK c.ctl.gwcfg ≠ 0) id))
  ∧ (∀ (s : State) (ty : ElemTy) (sat : Bool) (d a : VReg) (n : Fin 64) (fd : Fin 128) (m : Fin 16),
    ¬ (s.core.priv = true ∧ s.core.fixed = true) → s.core.precise →
    let fault := fun (k : Nat) => Host.Outcome.next (takeFault { code := k, engine := 1 } s)
    (s.core.maskDepth = 16 → exec (.mpush a) s = fault 18)
    ∧ (s.core.maskDepth = 0 → exec .minv s = fault 19 ∧ exec .mpop s = fault 19 ∧ exec (.mand a) s = fault 19)
    ∧ (gwG s.core.ctl.gwcfg = 0 ∨ gwK s.core.ctl.gwcfg = 0 → exec (.vpkp ty sat n d a) s = fault 17 ∧ exec (.vxtp fd m d a) s = fault 17))

/-- Is element e active under the top mask (R230)? -/
def Sys2Proof.Machine.activeElem (c : Core) (e : Nat) : Prop := e < 1024 ∧ c.topMask.getLsbD e = true

/-- The elements that a word computes for plane d: exactly the active ones, each with the value that P gives. -/
def Sys2Proof.Machine.writesElems (c : Core) (r : VResult) (d : VReg) (P : Nat → Half → Prop) : Prop :=
  (∀ x ∈ r.planes, ∃ e, activeElem c e ∧ x.1 = 1024 * d.val + e ∧ P e x.2)
    ∧ ∀ e, activeElem c e → ∃ v, (1024 * d.val + e, v) ∈ r.planes

/-- The conditions of VCMP on integers (R236): equal, less, less or equal, not equal. -/
def Sys2Proof.Machine.lessLike (k : Fin 5) (x y : Int) : Prop :=
  (k = 0 ∧ x = y) ∨ (k = 1 ∧ x < y) ∨ (k = 2 ∧ x ≤ y) ∨ (k = 4 ∧ x ≠ y)

/-- What these words compute at their issue, for exactly the active elements and from the source planes as they stand: VAND, VOR, VXOR,
VNOT (R233, R235), VSEL, VMOV of planes, VBC, VPERM, VTRP, VRROT, VCROT, VRBC, VCBC (R237 to R239, R245, R248), VRNG (R79, R254); VADD, VSUB and VMUL on n32,
saturating VADD on s32, VMIN on s32, VMAX on n32, and every condition of VCMP on s32 but the one for unordered values (R233, R236). A VMOV
into a plane writes its one element, and one out of a plane its g register (R239). The
planes are taken to stand in their canonical form. -/
def Obligations.VectorElementResults : Prop :=
  ∀ (c : Core) (v : VWord) (d a b q : VReg) (n : Fin 64) (m : Fin 16) (g : GReg) (k : Fin 5) (rm : RmSel) (row : Fin 16) (col : Fin 64),
    let x := fun e => c.elem a e
    let y := fun e => c.elem b e
    let z := fun e => c.elem q e
    let res := fun i => vValue c { v with instr := i }
    (∀ u, swf 0 (c.planes.get u) = true) →
    writesElems c (res (.vand d a b)) d (fun e w => w = x e &&& y e)
    ∧ writesElems c (res (.vor d a b)) d (fun e w => w = x e ||| y e)
    ∧ writesElems c (res (.vxor d a b)) d (fun e w => w = x e ^^^ y e)
    ∧ writesElems c (res (.vnot d a)) d (fun e w => w = ~~~ x e)
    ∧ writesElems c (res (.vsel d a b q)) d (fun e w => ∀ i, w.getLsbD i = if (z e).getLsbD i then (x e).getLsbD i else (y e).getLsbD i)
    ∧ writesElems c (res (.vmov d a)) d (fun e w => w = x e)
    ∧ writesElems c (res (.vbc d g)) d (fun _ w => w = v.scalar.truncate 32)
    ∧ writesElems c (res (.vperm d a b)) d (fun e w => w = x ((y e).toNat % 1024))
    ∧ writesElems c (res (.vtrp d a)) d
        (fun e w => ∃ f, w = x f ∧ f < 1024 ∧ f / 64 = e % 16 ∧ f % 64 / 16 = e % 64 / 16 ∧ f % 16 = e / 64)
    ∧ writesElems c (res (.vrng d)) d (fun e w => w = vrngMix v.scalar v.tid v.aux e)
    ∧ res (.vmovInsert d g row col) = ⟨[(1024 * d.val + 64 * row.val + col.val, v.scalar.truncate 32)], 0, none⟩
    ∧ res (.vmovExtract g a row col) = ⟨[], 0, some (g, BitVec.ofNat 64 (x (64 * row.val + col.val)).toNat)⟩
    ∧ writesElems c (res (.vrrot d a n)) d (fun e w => ∃ f, w = x f ∧ f / 64 = e / 64 ∧ f < 1024 ∧ (f % 64 + n.val) % 64 = e % 64)
    ∧ writesElems c (res (.vcrot d a m)) d (fun e w => ∃ f, w = x f ∧ f % 64 = e % 64 ∧ f < 1024 ∧ (f / 64 + m.val) % 16 = e / 64)
    ∧ writesElems c (res (.vrbc d a n)) d (fun e w => w = x (64 * (e / 64) + n.val))
    ∧ writesElems c (res (.vcbc d a m)) d (fun e w => w = x (64 * m.val + e % 64))
    ∧ writesElems c (res (.vadd .n32 rm false d a b)) d (fun e w => w = x e + y e)
    ∧ writesElems c (res (.vadd .s32 rm true d a b)) d
        (fun e w => w.toInt = max (-2 ^ 31) (min (2 ^ 31 - 1) ((x e).toInt + (y e).toInt)))
    ∧ writesElems c (res (.vsub .n32 rm false d a b)) d (fun e w => w = x e - y e)
    ∧ writesElems c (res (.vmul .n32 rm false d a b)) d (fun e w => w = x e * y e)
    ∧ writesElems c (res (.vmin .s32 d a b)) d (fun e w => w.toInt = min (x e).toInt (y e).toInt)
    ∧ writesElems c (res (.vmax .n32 d a b)) d (fun e w => w.toNat = max (x e).toNat (y e).toNat)
    ∧ (k ≠ 3 → writesElems c (res (.vcmp .s32 d a b k)) d (fun e w => ∀ i < 32, (w.getLsbD i = true ↔ lessLike k (x e).toInt (y e).toInt)))

/-- The word computes, for each active element e of plane d and each sub-element i of type t, a code that P relates to e and i. -/
def Sys2Proof.Machine.lanesOf (c : Core) (r : VResult) (d : VReg) (t : ElemTy) (P : Nat → Nat → Nat → Prop) : Prop :=
  writesElems c r d (fun e w => ∀ i < t.count, P e i (subOf t w i))

/-- v is not zero and within the finite range of format F. -/
def Sys2Proof.Machine.finiteIn (F : FFmt) (v : ℚ) : Prop := v ≠ 0 ∧ ∃ top, codeValue F F.maxCode top ∧ |v| ≤ top

/-- The code w of integer type t is z clamped to the type's range, or wrapped (R54). -/
def Sys2Proof.Machine.fitsInt (t : ElemTy) (sat : Bool) (z : Int) (w : Nat) : Prop :=
  if sat = true then t.int w = max (intMin t.width t.signed) (min (intMax t.width t.signed) z) else (t.int w - z) % 2 ^ t.width = 0

/-- y is the rational x rounded to an integer in a mode (R61, R68). -/
def Sys2Proof.Machine.roundsToInt (mode : Rm) (x : ℚ) (y : Int) : Prop :=
  match mode with
  | .rdn => y = ⌊x⌋
  | .rup => y = ⌈x⌉
  | .rtz => y = if 0 ≤ x then ⌊x⌋ else ⌈x⌉
  | .rne => |x - y| ≤ 1 / 2 ∧ (|x - y| = 1 / 2 → y % 2 = 0)

/-- What the arithmetic words of R233 to R236 compute for the types with sub-elements, at their issue and from the source planes as they stand.
Floats: finite operands with a result in range give the exact result of VADD, VSUB, VMUL and VFMA rounded once in the word's mode; VMIN and VMAX
a code of the smaller and larger value, and the other operand for one NaN; VCMP compares values, and a NaN is unordered; VABS and VNEG clear and
invert the sign bit (R62, R234, R236). Integers: the exact result, wrapped or saturated (R54); shifts take the count modulo the width (R235).
Orris types: NaV propagates and is unordered, a product adds logarithms (R224).
VCVT writes the sub-elements that R240 names and keeps the others; between floats and integers it rounds once, and integers wrap or saturate
(R65, R68). -/
def Obligations.VectorTypedResults : Prop :=
  ∀ (c : Core) (v : VWord) (d a b q : VReg) (ty st : ElemTy) (rm : RmSel) (sat : Bool) (k : Fin 5) (part : Fin 8),
    (∀ u, swf 0 (c.planes.get u) = true) →
    let F := ty.ffmt
    let x := fun e i => subOf ty (c.elem a e) i
    let y := fun e i => subOf ty (c.elem b e) i
    let z := fun e i => subOf ty (c.elem q e) i
    let lanes := fun i => lanesOf c (vValue c { v with instr := i }) d ty
    let ones := 2 ^ ty.width - 1
    (ty ∈ [ElemTy.fp32, .bf16, .fp16, .e4m3, .e5m2] →
      let two := fun (f : ℚ → ℚ → ℚ) (e i w : Nat) => ∀ m n, codeValue F (x e i) m → codeValue F (y e i) n → finiteIn F (f m n) → roundsTo F v.rm (f m n) w
      lanes (.vadd ty rm sat d a b) (two (· + ·)) ∧ lanes (.vsub ty rm sat d a b) (two (· - ·)) ∧ lanes (.vmul ty rm sat d a b) (two (· * ·))
      ∧ lanes (.vfma ty rm sat d a b q) (fun e i w => ∀ m n o, codeValue F (x e i) m → codeValue F (y e i) n → codeValue F (z e i) o →
          finiteIn F (m * n + o) → roundsTo F v.rm (m * n + o) w)
      ∧ lanes (.vmin ty d a b) (fun e i w => (∀ m n, codeValue F (x e i) m → codeValue F (y e i) n → codeValue F w (min m n))
          ∧ (∀ n, isNaNValue (F.val (x e i)) → codeValue F (y e i) n → w = y e i) ∧ (∀ m, codeValue F (x e i) m → isNaNValue (F.val (y e i)) → w = x e i))
      ∧ lanes (.vmax ty d a b) (fun e i w => ∀ m n, codeValue F (x e i) m → codeValue F (y e i) n → codeValue F w (max m n))
      ∧ lanes (.vcmp ty d a b k) (fun e i w =>
          (∀ m n, codeValue F (x e i) m → codeValue F (y e i) n →
            ∀ r : Prop, (r ↔ match k.val with | 0 => m = n | 1 => m < n | 2 => m ≤ n | 3 => False | _ => m ≠ n) → (r → w = ones) ∧ (¬ r → w = 0))
          ∧ (isNaNValue (F.val (x e i)) ∨ isNaNValue (F.val (y e i)) → w = if 3 ≤ k.val then ones else 0))
      ∧ lanes (.vabs ty sat d a) (fun e i w => w = x e i % F.signBit)
      ∧ lanes (.vneg ty sat d a) (fun e i w => w % F.signBit = x e i % F.signBit ∧ w / F.signBit = 1 - x e i / F.signBit))
    ∧ (ty ∈ [ElemTy.s32, .n32, .s8, .n8] →
      let n := ty.width
      let m := fun e i => ty.int (x e i)
      let o := fun e i => ty.int (y e i)
      lanes (.vadd ty rm sat d a b) (fun e i w => fitsInt ty sat (m e i + o e i) w)
      ∧ lanes (.vsub ty rm sat d a b) (fun e i w => fitsInt ty sat (m e i - o e i) w)
      ∧ lanes (.vmul ty rm sat d a b) (fun e i w => fitsInt ty sat (m e i * o e i) w)
      ∧ lanes (.vfma ty rm sat d a b q) (fun e i w => fitsInt ty sat (m e i * o e i + ty.int (z e i)) w)
      ∧ lanes (.vmin ty d a b) (fun e i w => ty.int w = min (m e i) (o e i)) ∧ lanes (.vmax ty d a b) (fun e i w => ty.int w = max (m e i) (o e i))
      ∧ lanes (.vabs ty sat d a) (fun e i w => fitsInt ty sat |m e i| w) ∧ lanes (.vneg ty sat d a) (fun e i w => fitsInt ty sat (-(m e i)) w)
      ∧ (k ≠ 3 → lanes (.vcmp ty d a b k) (fun e i w => (lessLike k (m e i) (o e i) → w = ones) ∧ (¬ lessLike k (m e i) (o e i) → w = 0)))
      ∧ lanes (.vshl ty d a b) (fun e i w => w = x e i * 2 ^ (y e i % n) % 2 ^ n)
      ∧ lanes (.vshr ty d a b) (fun e i w => w = x e i / 2 ^ (y e i % n))
      ∧ lanes (.vsha ty d a b) (fun e i w => sintOf n w = sintOf n (x e i) / 2 ^ (y e i % n)))
    ∧ (∀ six : Bool, ty = (if six = true then ElemTy.lg6 else .lg8) →
      let nav := fun (e i : Nat) => x e i = navCode six ∨ y e i = navCode six
      lanes (.vadd ty rm sat d a b) (fun e i w => (nav e i → w = navCode six) ∧ (x e i = 0 → ¬ nav e i → w = y e i) ∧ (y e i = 0 → ¬ nav e i → w = x e i))
      ∧ lanes (.vmul ty rm sat d a b) (fun e i w => (nav e i → w = navCode six)
          ∧ ∀ s₁ s₂ m n, lgVal six (x e i) = .lg s₁ m → lgVal six (y e i) = .lg s₂ n → w = (toLgLog six (s₁ != s₂) (m + n)).1)
      ∧ lanes (.vcmp ty d a b k) (fun e i w => nav e i → w = if 3 ≤ k.val then ones else 0)
      ∧ lanes (.vneg ty sat d a) (fun e i w => if x e i % navCode six = 0 then w = x e i else w % navCode six = x e i % navCode six ∧ w ≠ x e i))
    ∧ (ty ≠ .fp64 → st ≠ .fp64 → let m := min st.count ty.count
       let from_ := fun (j : Nat) => if ty.count < st.count then part.val * m + j else if st.count < ty.count then j - part.val * m else j
       let named := fun (j : Nat) => (st.count < ty.count → part.val * m ≤ j ∧ j < part.val * m + m) ∧ (ty.count < st.count → part.val * m + j < st.count)
       let s := fun e i => subOf st (c.elem a e) i
       lanes (.vcvt st ty part rm sat d a) (fun e j w =>
        (¬ named j → w = subOf ty (c.elem d e) j)
        ∧ (named j →
          (ty.isFloat = true → st.isFloat = true → ∀ p, codeValue st.ffmt (s e (from_ j)) p → finiteIn F p → roundsTo F v.rm p w)
          ∧ (ty.isFloat = true → st.isInt = true → finiteIn F (st.int (s e (from_ j))) → roundsTo F v.rm (st.int (s e (from_ j))) w)
          ∧ (ty.isInt = true → st.isInt = true → fitsInt ty sat (st.int (s e (from_ j))) w)
          ∧ (ty.isInt = true → st.isFloat = true → ∀ p, codeValue st.ffmt (s e (from_ j)) p →
              ∃ r : Int, roundsToInt v.rm p r ∧ fitsInt ty true r w))))

/-- What the words across a plane compute at their issue. Reductions combine the active elements of a line (a row of 64, a lane of 16) in the tree
of R246 and give every active element of the line its result; scans give each active element the combination of those up to it (R247).
VDOT8 and VDOTB, for the active elements of row group h alone: with finite operands and a result in range, VDOTB rounds the exact sum of the
8 products and the addend once, VDOT8 the sum of the 16 products cut to a window of 25 bits (R70) with the addend (R251, R252).
VSCL multiplies by 2^(κ − 127), κ a byte of its second plane; κ = 255 gives the default NaN (R253). The function words write their function of
each active element; VRCPX the reciprocal rounded to nearest (R250, R78).
VPKP packs K clamped source values of g bits into each wide word, VXTP takes digits f to f + n − 1 apart again (R257, R258). -/
def Obligations.VectorPlaneResults : Prop :=
  ∀ (c : Core) (v : VWord) (d a b q : VReg) (ty : ElemTy) (rm : RmSel) (sat : Bool) (op : Fin 3) (h n : Fin 4),
    (∀ u, swf 0 (c.planes.get u) = true) →
    let res := fun i => vValue c { v with instr := i }
    let given := fun e => if c.topMask.getLsbD e = true then some ((c.elem a e).toNat, (0 : Flags)) else none
    let f := combine ty v.rm sat op.val
    let reduces := fun (i : Instr) (size : Nat) (at_ : Nat → Nat → Nat) (line : Nat → Nat) => writesElems c (res i) d (fun e w =>
      ∃ (t : Nat → Nat → Option (Nat × Flags)) (fl : Flags), (∀ j < 2 ^ size, t 0 j = given (at_ (line e) j))
        ∧ (∀ k < size, ∀ j < 2 ^ (size - 1 - k), t (k + 1) j = f (t k (2 * j)) (t k (2 * j + 1))) ∧ t size 0 = some (w.toNat, fl))
    let scans := fun (i : Instr) (size : Nat) (at_ : Nat → Nat → Nat) (line pos : Nat → Nat) => writesElems c (res i) d (fun e w =>
      ∃ (S : Nat → Option (Nat × Flags)) (fl : Flags), S 0 = none
        ∧ (∀ j < 2 ^ size, S (j + 1) = if (given (at_ (line e) j)).isSome = true then f (S j) (given (at_ (line e) j)) else S j)
        ∧ S (pos e + 1) = some (w.toNat, fl))
    let row := fun (r j : Nat) => 64 * r + j
    let lane := fun (l j : Nat) => 64 * j + l
    (ty ∈ [ElemTy.fp32, .s32, .n32] →
      reduces (.vrred ty rm sat op d a) 6 row (· / 64) ∧ reduces (.vcred ty rm sat op d a) 4 lane (· % 64)
      ∧ scans (.vrscan ty rm sat op d a) 6 row (· / 64) (· % 64) ∧ scans (.vcscan ty rm sat op d a) 4 lane (· % 64) (· / 64))
    ∧ (let inGroup := fun (r : VResult) (P : Nat → Half → Prop) =>
        (∀ x ∈ r.planes, ∃ e, activeElem c e ∧ e / 256 = h.val ∧ x.1 = 1024 * d.val + e ∧ P e x.2)
          ∧ ∀ e, activeElem c e → e / 256 = h.val → ∃ w, (1024 * d.val + e, w) ∈ r.planes
       let src := fun (t : ElemTy) (u : VReg) (e j : Nat) => subOf t (c.elem u (64 * (4 * (e / 64 % 4) + j / t.count) + e % 64)) (j % t.count)
       let F := FFmt.fp32
       (∀ (ta tb : Bool), let A := if ta = true then ElemTy.e5m2 else .e4m3
          let B := if tb = true then ElemTy.e5m2 else .e4m3
          inGroup (res (.vdot8 ta tb h d a b q)) (fun e w => ∀ (m o : Nat → ℚ) (z : ℚ) (g : Int),
            (∀ j < 16, codeValue A.ffmt (src A a e j) (m j) ∧ codeValue B.ffmt (src B b e j) (o j)) → codeValue F (c.elem q e).toNat z →
            (∃ j < 16, (2 : ℚ) ^ (g + 23) ≤ |m j * o j|) → (∀ j < 16, |m j * o j| < (2 : ℚ) ^ (g + 24)) →
            let S : ℚ := ((List.range 16).map (fun j => (⌊m j * o j / (2 : ℚ) ^ g⌋ : ℚ) * (2 : ℚ) ^ g)).sum + z
            finiteIn F S → roundsTo F .rne S w.toNat))
       ∧ inGroup (res (.vdotb rm sat h d a b q)) (fun e w => ∀ (m o : Nat → ℚ) (z : ℚ),
            (∀ j < 8, codeValue .bf16 (src .bf16 a e j) (m j) ∧ codeValue .bf16 (src .bf16 b e j) (o j)) → codeValue F (c.elem q e).toNat z →
            let S : ℚ := ((List.range 8).map (fun j => m j * o j)).sum + z
            finiteIn F S → roundsTo F v.rm S w.toNat))
    ∧ (∀ bf : Bool, let t := if bf = true then ElemTy.bf16 else .fp32
       lanesOf c (res (.vscl bf rm sat n d a b)) d t (fun e i w =>
        let κ := (c.elem b e).toNat / 256 ^ n.val % 256
        (κ = 255 → w = t.ffmt.defaultNaN)
        ∧ (κ ≠ 255 → ∀ p, codeValue t.ffmt (subOf t (c.elem a e) i) p → finiteIn t.ffmt (p * (2 : ℚ) ^ ((κ : Int) - 127)) →
            roundsTo t.ffmt v.rm (p * (2 : ℚ) ^ ((κ : Int) - 127)) w)))
    ∧ (let fn := fun (i : Instr) (g : Nat → Nat × Flags) => writesElems c (res i) d (fun e w => w.toNat = (g (c.elem a e).toNat).1)
       fn (.vexpx d a) (fnX 0) ∧ fn (.vlogx d a) (fnX 1) ∧ fn (.vrcpx d a) (fnX 2) ∧ fn (.vrsqx d a) (fnX 3) ∧ fn (.vsinx d a) (fnX 4)
        ∧ fn (.vcosx d a) (fnX 5) ∧ fn (.vtanhx d a) (fnX 6) ∧ fn (.vexpf d a) (fnF 0) ∧ fn (.vlogf d a) (fnF 1) ∧ fn (.vrcpf d a) (fnF 2)
        ∧ fn (.vrsqf d a) (fnF 3) ∧ fn (.vsinf d a) (fnF 4) ∧ fn (.vcosf d a) (fnF 5) ∧ fn (.vtanhf d a) (fnF 6)
        ∧ writesElems c (res (.vrcpx d a)) d (fun e w => ∀ p, codeValue .fp32 (c.elem a e).toNat p → p ≠ 0 → finiteIn .fp32 (1 / p) →
            roundsTo .fp32 .rne (1 / p) w.toNat))
    ∧ (let gw := v.scalar
       let wide := fun (r : VResult) (P : Nat → Nat → Half → Prop) =>
        (∀ x ∈ r.planes, ∃ w j, w < 64 ∧ j < 16 ∧ c.topMask.getLsbD (16 * w) = true ∧ x.1 = 1024 * d.val + 16 * w + j ∧ P w j x.2)
          ∧ ∀ w j, w < 64 → j < 16 → c.topMask.getLsbD (16 * w) = true → ∃ y, (1024 * d.val + 16 * w + j, y) ∈ r.planes
       gwG gw ≠ 0 → gwK gw ≠ 0 →
       (∀ (sel : Bool) (part : Fin 64), ty ∈ [ElemTy.s32, .n32, .s8, .n8] →
          let W := if sel = true then gwWB gw else gwWA gw
          let sg := if sel = true then gwSB gw else gwSA gw
          let value := fun (t : Nat) => if t < 1024 * ty.count then ty.int (subOf ty (c.elem a (t / ty.count)) (t % ty.count)) else 0
          wide (res (.vpkp ty sel part d a)) (fun w j x =>
            let Z : Int := ((List.range (gwK gw)).map (fun i => max (intMin W sg) (min (intMax W sg) (value ((64 * part.val + w) * gwK gw + i))) * 2 ^ (gwG gw * i))).sum
            (x.toNat : Int) = Z / 2 ^ (32 * j) % 2 ^ 32))
       ∧ (∀ (fd : Fin 128) (m : Fin 16),
          wide (res (.vxtp fd m d a)) (fun w j x =>
            let word : Nat := ((List.range 16).map (fun i => (c.elem a (16 * w + i)).toNat * 2 ^ (32 * i))).sum
            (j ≤ m.val → ∃ X D : Nat → Int, X 0 = sintOf 512 word
              ∧ (∀ i, -2 ^ (gwG gw - 1) ≤ D i ∧ D i < 2 ^ (gwG gw - 1) ∧ X i = D i + 2 ^ gwG gw * X (i + 1))
              ∧ x.toInt = max (-2 ^ 31) (min (2 ^ 31 - 1) (D (fd.val + j))))
            ∧ (m.val < j → x = 0))))

/-- The head of the issue queue issues in a core cycle that has begun and is no stall cycle, once the occupancy of the word before it is over
and the planes that it reads and writes are settled (R226, R394): it leaves the queue, the mask stack takes its change
(R230), planes, g registers and all else stay. Its sources are read row group j in cycle j (R227). A load then asks for its active elements,
row group j (row j of VGATH) j cycles later, its data ready 8 + L cycles after the issue (which cycles the rows of VGATH take is entry 112); a
store takes its active elements' bytes from the plane, in one access for each row group (row of VSCAT) with its own perform point; any other
word goes into flight with its result computed and ready after its latency (Table 9.1). Loads whose cycle it is then read.
A word in flight completes at its ready cycle: its elements go to their plane, its flags to VFL, its g register takes its value, and
nothing in memory changes (R226, R227, R229). -/
def Obligations.VectorIssueAndComplete : Prop :=
  ∀ (s : State) (v : VWord),
    (∀ r, s.core.vq = v :: r → s.core.begun = true → s.core.verdict = some false → s.core.mayIssue v.instr = true → v.ready ≤ s.core.tau →
      s.core.vfree ≤ s.core.tau →
      let src := Core.sources { s.core with vq := r }
      let indexed := ∃ cls sz d a b off, v.instr = .vgath cls sz d a b off ∨ v.instr = .vscat cls sz d a b off
      let isLoad := ∃ cls sz d a b off w q, v.instr = .vld cls sz d a b off ∨ v.instr = .vldw cls sz d w b ∨ v.instr = .vgath cls sz d a q off
      let isStore := fun (d : VReg) => ∃ cls sz a b off w q, v.instr = .vst cls sz d a b off ∨ v.instr = .vstw cls sz d w b ∨ v.instr = .vscat cls sz d a q off
      let live := fun (e : Nat × Nat) => s.core.topMask.getLsbD e.1 = true
      ∃ u, exec .vectorIssue s = .next u.readsDue ∧ s.coreOnly u ∧ u.core.masks = maskStep src v.instr
        ∧ u.core = { s.core with
            vq := r, vfree := s.core.tau + (vTiming v.instr).1, masks := u.core.masks, vfly := u.core.vfly, loads := u.core.loads, stores := u.core.stores }
        ∧ (¬ isLoad → (∀ d, ¬ isStore d) → u.core.loads = s.core.loads ∧ u.core.stores = s.core.stores
            ∧ u.core.vfly = s.core.vfly ++ [{ v with result := some (vValue src v), ready := s.core.tau + (vTiming v.instr).2 }])
        ∧ (isLoad → u.core.vfly = s.core.vfly ∧ u.core.stores = s.core.stores ∧ ∃ f : PLoad → List PLoad, u.core.loads = s.core.loads.flatMap f
            ∧ ∀ l, if l.isPlane = true ∧ l.issued = false ∧ l.word = v.id
                then (∀ e, (∃ x ∈ f l, e ∈ x.items) ↔ e ∈ l.items ∧ live e ∧ e.1 < 1024)
                  ∧ ∀ x ∈ f l, x.issued = true ∧ x.dst = l.dst ∧ x.num = l.num ∧ x.cls = l.cls ∧ x.size = l.size
                    ∧ (let all := 8 + (s.core.loadLag (l.items.filter (fun e => s.core.topMask.getLsbD e.1))).getD 0
                       x.at_ + x.more = s.core.tau + all
                        ∧ ∀ e ∈ x.items, ∀ rows, ((indexed → rows = 64) ∧ (¬ indexed → rows = 256)) → x.at_ = s.core.tau + min (e.1 / rows) all)
                else f l = [l])
        ∧ (∀ d, isStore d → u.core.vfly = s.core.vfly ∧ u.core.loads = s.core.loads ∧ ∃ f : PStore → List PStore,
            u.core.stores = s.core.stores.flatMap f
            ∧ ∀ p, if p.word = some v.id
                then (∀ b, (∃ x ∈ f p, b ∈ x.bytes) ↔ ∃ e ∈ p.addrs, live e ∧ e.1 < 1024 ∧ b ∈ addressed e.2 (toBytes p.width (src.elem d e.1).toNat))
                  ∧ ∀ x ∈ f p, x.word = none ∧ x.num = p.num ∧ x.cls = p.cls ∧ x.vec = p.vec
                else f p = [p]))
    ∧ (∀ res, s.core.vfly[s.place.n]? = some v → v.result = some res → v.ready ≤ s.core.tau →
      ∃ t, exec .vectorComplete s = .next t ∧ t.core.vfly = s.core.vfly.erase v ∧ s.coreOnly t
        ∧ t.core = { s.core with
            vfly := t.core.vfly, planes := t.core.planes, g := t.core.g, ctl := { s.core.ctl with fpcs := t.core.ctl.fpcs }
            newFlags := t.core.newFlags, clean := { s.core.clean with planes := t.core.clean.planes, g := t.core.clean.g } }
        ∧ (∀ u e, e < 1024 → (∀ x ∈ res.planes, x.1 / 1024 % 32 ≠ u.val ∨ x.1 % 1024 ≠ e) → t.core.elem u e = s.core.elem u e)
        ∧ ((∀ u, swf 0 (s.core.planes.get u) = true) → (res.planes.map (·.1)).Nodup → (∀ x ∈ res.planes, x.1 < 32 * 1024) →
            ∀ x ∈ res.planes, ∀ u : VReg, u.val = x.1 / 1024 → t.core.elem u (x.1 % 1024) = x.2)
        ∧ (∀ k, res.greg.map (·.1) ≠ some k → t.core.rd k = s.core.rd k)
        ∧ (∀ k w, res.greg = some (k, w) → k ≠ 0 → t.core.rd k = w)
        ∧ (∀ i, t.core.ctl.fpcs.getLsbD i = (s.core.ctl.fpcs.getLsbD i || (decide (5 ≤ i ∧ i < 10) && res.flags.getLsbD (i - 5)))))

/-- Row loads and stores (R241 to R243): with the base and the pitch aligned, every element's address translates at dispatch, the mask
not consulted; the word enters the issue queue with its access behind it, and VLDW and VSTW advance their walker. A base or pitch that
is not aligned is ALIGNMENT_FAULT, the first address that does not translate TRANSLATION_FAULT, a store to a covered row SLAB_BUSY at the
first byte in the row, each at dispatch (R225, R339).
Indexed forms (R244) wait for every earlier vector word; they then translate the addresses of the active elements alone, and enter the queue
likewise, also where no element is active.
A store that reaches a task's merge log, of VSCAT too, goes there once every earlier vector word is done (R225, R368; that it enters the log in
one step at its dispatch, the engine then occupied as for its issue, is entry 34); the other clauses are of stores
that do not. The planes are taken to stand in their canonical form. -/
def Obligations.VectorMemoryDispatch : Prop :=
  ∀ (s : State) (cls : OrdClass) (sz : MemSize) (d b : VReg) (a p : GReg) (k : WReg) (off : BitVec 16) (l : List (Nat × Nat)) (ts : List Trans)
      (u : State),
    ¬ (s.core.priv = true ∧ s.core.fixed = true) → s.core.vq.length < 16 → (∀ v, swf 0 (s.core.planes.get v) = true) →
    let w := min (sizeBytes sz) 4
    let ea := (BitVec.ofInt 64 ((s.core.rd a).toInt + off.toInt)).toNat
    let wa := (s.core.w.get k).addr
    let pitch : Int := if p = 0 then 64 * (w : Int) else (s.core.rd p).toInt
    let rows := fun (base : Nat) => (List.range 1024).map (fun e => (e, (((base : Int) + (e / 64 : Nat) * pitch + (e % 64 * w : Nat)) % 2 ^ 56).toNat))
    let picked := s.core.active.map (fun e => (e, (((ea : Int) + (s.core.elem b e).toInt * w) % 2 ^ 56).toNat))
    let clear := ∀ x ∈ l, u.slabBusy x.2 w = false
    let direct := s.core.det = false ∨ ∀ x ∈ l, ∀ i < w, detRegion s.core.key (x.2 + i) = false
    let logged := s.core.det = true ∧ l ≠ [] ∧ ∀ x ∈ l, ∀ i < w, detRegion s.core.key (x.2 + i) = true
    let bs := (l.filter (fun e => s.core.topMask.getLsbD e.1)).flatMap (fun e => bytesAt e.2 w (s.core.elem d e.1).toNat)
    let queued := fun (i : Instr) (t : State) => ∃ e, t.core.vq = s.core.vq ++ [e] ∧ e.instr = i ∧ e.id = s.core.num
      ∧ e.ready = s.core.tau + 1 ∧ t = { u with core := t.core }
    let load := fun (t : State) => ∃ x, t.core.loads = s.core.loads ++ [x] ∧ x.items = l ∧ x.size = w ∧ x.dst = .plane d sz
      ∧ x.cls = cls ∧ x.issued = false ∧ x.word = s.core.num ∧ x.trans = ts ∧ t.core.stores = s.core.stores
    let store := fun (t : State) => ∃ x, t.core.stores = s.core.stores ++ [x] ∧ x.addrs = l ∧ x.width = w ∧ x.word = some s.core.num ∧ x.cls = cls
      ∧ x.trans = ts ∧ t.core.loads = s.core.loads
    let stepped := fun (t : State) => t.core.w.get k = (s.core.w.get k).advance 1
    let aligned := fun (base : Nat) => base % w = 0 ∧ pitch % w = 0
    let fails := fun (i : Instr) (acc : Access) (vas : List (Nat × Nat)) => ∀ va,
      (∀ n, translateAll acc vas s = .error (va, .fault n) → s.core.precise →
        exec i s = .next (takeFault { code := 5, addr := va, detail := n, engine := 1 } s))
      ∧ (∀ x, translateAll acc vas s = .error (va, .spoiled x) → s.core.precise →
        exec i s = .next (takeFault { code := 31, addr := x, detail := paSpace x, engine := 1 } s))
      ∧ (translateAll acc vas s = .error (va, .wait) → exec i s = .next s)
    let stores := fun (i : Instr) (vas : List (Nat × Nat)) (occ : Nat) =>
      fails i .write vas
      ∧ (translateAll .write vas s = .ok (l, ts, u) →
        (clear → direct → ∃ t, exec i s = .next t ∧ queued i t ∧ store t ∧ (i = .vstw cls sz d k p → stepped t))
        ∧ (∀ y, (l.zip vas).findSome? (fun x => (u.slabFirst x.1.2 w).map (x.2.2 + ·)) = some y → s.core.precise →
          exec i s = .next (takeFault { code := 24, addr := y, engine := 1 } u))
        ∧ (clear → logged → s.core.vectorIdle = false → exec i s = .next u)
        ∧ (∀ log, clear → logged → s.core.vectorIdle = true → (∀ e ∈ bs, u.core.loadBefore cls u.core.num e.1 1 = false) →
          logShort s.core.log s.core.resv (l.flatMap (fun e => (List.range w).map (e.2 + ·))) = none → logPlain s.core.log s.core.resv bs = .ok log →
          ∃ t, exec i s = .next t ∧ (bs ≠ [] → t.core.log = log ∧ u.sameMemoryBut t u.core.logPA (16 * log.length))
            ∧ t.core.stores = s.core.stores ∧ t.core.vq = s.core.vq ∧ t.core.vfree = s.core.tau + 1 + occ ∧ u.coreAndMemory t))
    (∀ (i : Instr) (base : Nat), (i = .vld cls sz d a p off ∧ base = ea) ∨ (i = .vldw cls sz d k p ∧ base = wa) →
      (aligned base → fails i .read (rows base)
        ∧ (translateAll .read (rows base) s = .ok (l, ts, u) →
          ∃ t, exec i s = .next t ∧ queued i t ∧ load t ∧ (i = .vldw cls sz d k p → stepped t)))
      ∧ (¬ aligned base → s.core.precise → exec i s = .next (takeFault { code := 4, addr := base, engine := 1 } s)))
    ∧ (∀ (i : Instr) (base : Nat), (i = .vst cls sz d a p off ∧ base = ea) ∨ (i = .vstw cls sz d k p ∧ base = wa) →
      (aligned base → stores i (rows base) 4)
      ∧ (¬ aligned base → s.core.precise → exec i s = .next (takeFault { code := 4, addr := base, engine := 1 } s)))
    ∧ (ea % w = 0 → s.core.vectorIdle = true →
      fails (.vgath cls sz d a b off) .read picked
      ∧ (translateAll .read picked s = .ok (l, ts, u) → ∃ t, exec (.vgath cls sz d a b off) s = .next t ∧ queued (.vgath cls sz d a b off) t ∧ load t)
      ∧ stores (.vscat cls sz d a b off) picked 16)
    ∧ (ea % w = 0 → s.core.vectorIdle = false →
      exec (.vgath cls sz d a b off) s = .next s ∧ exec (.vscat cls sz d a b off) s = .next s)
    ∧ (ea % w ≠ 0 → s.core.precise → exec (.vgath cls sz d a b off) s = .next (takeFault { code := 4, addr := ea, engine := 1 } s)
      ∧ exec (.vscat cls sz d a b off) s = .next (takeFault { code := 4, addr := ea, engine := 1 } s))

/-! ### Engine events: records (R201, R267 to R287, R307 to R332, R341) -/

/-- The same record in its run: its words and what it captured. -/
def Sys2Proof.Machine.sameRecord (q r : QRec) : Prop :=
  q.words = r.words ∧ q.gwcfg = r.gwcfg ∧ q.pages = r.pages ∧ q.number = r.number ∧ q.start = r.start ∧ q.off = r.off

/-- A product record of kind i completes what it has to do in a core cycle that is no stall cycle (R270). At the head of the queue, once its
start cycle is settled, it leaves the queue and runs from the cycle of its first read on. A running one makes its reads of memory that are due,
and the issue of the cycle, whose work `gives` is; with a false guard it gives no write (R201). It is done behind its last issue. A soft error in
what it reads ends its task with MEMORY_ERROR, and it runs on (Table 15.2). -/
def Sys2Proof.Machine.productSteps (i : Instr) (gives : QRec → Nat → State → QRec) : Prop :=
  ∀ (s : State) (r : QRec), s.core.isOpen = true → decodeRecord (r.words.get 0).toNat = some i →
    let mine := fun (q : QRec) => decodeRecord (q.words.get 0).toNat = some i ∧ s.core.dueNow q = true
    let skips := r.off = true ∧ s.core.fixed = false
    (∀ rest b, (∀ q ∈ s.core.prun, ¬ mine q) → s.core.pq = r :: rest → s.core.productStart r = some b →
      exec i s = .next (s.withCore { s.core with
        pq := rest, prun := s.core.prun ++ [{ r with start := b, seen := b - (if skips then 0 else r.lead) }] }))
    ∧ (∀ before after, s.core.prun = before ++ r :: after → (∀ q ∈ before, ¬ mine q) → s.core.dueNow r = true →
      let j := s.core.tau - r.start
      let reads := if r.off then [] else r.readsAt s.core.key s.core.tau
      let x := { r with tiles := r.tiles ++ reads.map (fun o => (o.1, o.2.2, o.2.1.tile r.pages s (issueAt r.words o.2.2))) }
      let u := s.recordRead 2 r.pages (reads.flatMap (fun o => o.2.1.spans [issueAt r.words o.2.2]))
      ∃ q, exec i s = .next (u.withCore { u.core with prun := u.core.prun.map (fun p => if p.number = r.number then q else p) })
        ∧ sameRecord q r ∧ q.seen = s.core.tau + 1 ∧ (q.done = true ↔ skips ∨ r.start + issueCount r.words ≤ s.core.tau + 1)
        ∧ (r.off = true → q.work = r.work ∧ ∀ p ∈ q.puts, p ∈ r.puts ∨ p.ops = [])
        ∧ (r.off = false →
          let y := if r.start ≤ s.core.tau ∧ j < issueCount r.words then gives x j s else x
          q.puts = y.puts ∧ q.work = y.work ∧ q.flags = y.flags))

/-- The start cycle that a product record is given (R270, R272): its reads are made in this core cycle at the earliest, and in fixed mode it
starts at AT at the earliest; no record starts before an earlier one, nor before the cycle behind the last issue of an earlier one on the same
path; what it reads of entries and the bypass buffer comes behind the earlier records' writes of them, and what it writes behind their reads and
writes. One is given in flow mode once its guard slot, barrier, tokens and releases are settled, in fixed mode at once, as far as the releases
have cycles. A record with a false guard holds no later one in flow mode. -/
def Sys2Proof.Machine.startsInOrder : Prop :=
  ∀ (c : Core) (r : QRec),
    (∀ b, c.productStart r = some b →
      c.tau + (if r.off = true ∧ c.fixed = false then 0 else r.lead) ≤ b ∧ (c.fixed = true → r.due ≤ b)
      ∧ ∀ q ∈ c.prun, q.start ≤ b ∧ (q.off = false ∨ c.fixed = true →
        (samePath q.words r.words = true → q.start + issueCount q.words ≤ b)
        ∧ (∀ x ∈ entryWrites q.words, ∀ y ∈ entryReads r.words, x.1 = y.1 → q.start + x.2 < b + y.2)
        ∧ (∀ x ∈ entryWrites q.words ++ entryReads q.words, ∀ y ∈ entryWrites r.words, x.1 = y.1 → q.start + x.2 < b + y.2)))
    ∧ (c.fixed = false → c.slow = false → r.gate.isSome = true → c.behind r true = false → ∃ b, c.productStart r = some b)
    ∧ (c.fixed = true → c.behind r false = false → ∃ b, c.productStart r = some b)

/-- The entries that a change of one key leaves. -/
def Sys2Proof.Machine.entrySet (f : Nat → AccEntry) (k : Nat) (e : AccEntry) : Nat → AccEntry := fun n => if n = k then e else f n

/-- x is r with the writes of one issue more, of entries alone, in cycle n: when they perform, the entries become what `f` makes of them. -/
def Sys2Proof.Machine.givesEntries (r x : QRec) (n : Nat) (f : (Nat → AccEntry) → Nat → AccEntry) : Prop :=
  ∃ p, x = { r with puts := r.puts ++ [p] } ∧ p.at_ = some n ∧ ∀ (q : QRec) (t : State), sameRecord q r → swf AccEntry.zero t.core.acc = true →
    let u := t.withCore { t.core with acc := (p.perform q t).core.acc, clean := (p.perform q t).core.clean }
    p.perform q t = u.syncLog ∧ ∀ k, u.core.accAt k = f t.core.accAt k

/-- Issue i accumulates into the n entries that it names through D, entry j taking the pairs `ps j` of codes: they join what earlier issues gave
the entry, or with `zero` begin afresh from the zero entry. An entry that a later issue names is written by that one's last (R271, Table 10.6);
else it performs six cycles behind this issue: it becomes the sum of all that it was given, in the order of the issues. No other entry changes. -/
def Sys2Proof.Machine.accumulates (r x : QRec) (i n : Nat) (zero : Bool) (ps : Nat → List (Nat × Nat)) : Prop :=
  let a0 := accFirst r.words 2 (issueAt r.words i)
  let key := fun (j : Nat) => accKey (accHandle r.words 2) (a0 + (j : Int))
  let held := fun (q : QRec) (k : Nat) => (q.work.find? (fun w => w.1 == k)).map (·.2)
  let out := fun (p : Put) => x.puts = r.puts ++ [p] ∧ p.at_ = some (r.start + 6 + i)
  0 ≤ a0 → n = (accNames r.words).1 →
    (∀ j < n,
      let given := if zero then (true, [ps j]) else (((held r (key j)).map (·.1)).getD false, ((held r (key j)).map (·.2)).getD [] ++ [ps j])
      (r.namedLater i (a0 + (j : Int)) = true → held x (key j) = some given)
      ∧ (r.namedLater i (a0 + (j : Int)) = false → held x (key j) = none ∧ ∃ p, out p ∧ ∀ (q : QRec) (t : State), sameRecord q r →
          swf AccEntry.zero t.core.acc = true → (p.perform q t).core.accAt (key j) = macEntry r.words r.gwcfg given.1 given.2 (t.core.accAt (key j))))
    ∧ (∀ k, (∀ j < n, k ≠ key j) → held x k = held r k)
    ∧ (x.puts = r.puts ∨ ∃ p, out p ∧ ∀ (q : QRec) (t : State), sameRecord q r → swf AccEntry.zero t.core.acc = true →
        (∀ k, (∀ j < n, k ≠ key j) → (p.perform q t).core.accAt k = t.core.accAt k)
        ∧ p.perform q t = (t.withCore { t.core with acc := (p.perform q t).core.acc, clean := (p.perform q t).core.clean }).syncLog)

/-- What one write of a record changes when it performs (R57, R261, R271, R308, R369), and nothing else: the bytes of a value in memory, lowest
address first, and for an LG6 value the six bits of its word, whose two top bits become zero; in the merge log of a DET task the bytes that it holds
there; where a DET task's record acts on memory directly, the task itself reads the old bytes until a later merge (R311; that the launch keeps
them until then is entry 118); a value of a plane or of the bypass buffer; an entry; a stencil slot. The writes of one issue perform together, one after the other.
Memory, planes and entries are taken to stand in their canonical forms. -/
def Sys2Proof.Machine.writesPerform : Prop :=
  ∀ (r : QRec) (s : State) (logs : Bool) (b v : Nat),
    (∀ (va : Int) (sub : Nat), s.Sound →
      let t := RPut.perform r s (.val logs b (.mem va sub) v)
      let pa := pagePA s.core.key r.pages (wrapN 64 va)
      let logged := logs = true ∧ s.core.det = true ∧ detRegion s.core.key pa = true
      (¬ logged → s.coreAndMemory t ∧ t.core = s.core)
      ∧ (¬ logged → b ≠ 6 → s.sameMemoryBut t pa (b / 8) ∧ ∀ j < b / 8, (t.byte (pa + j)).toNat = v / 256 ^ j % 256)
      ∧ (¬ logged → b = 6 → sub < 5 → s.sameMemoryBut t pa 4 ∧ t.num pa 4 < 2 ^ 30
          ∧ ∀ j < 5, t.num pa 4 / 2 ^ (6 * j) % 64 = if j = sub then v % 64 else recRead logs s r.pages va 4 / 2 ^ (6 * j) % 64)
      ∧ (logs = false → s.core.det = true → (∃ k, s.core.task = some k ∧ k.stream = false) →
          ∀ j < (if b = 6 then 4 else b / 8), detRegion s.core.key (pa + j) = true → t.taskByte (pa + j) = s.taskByte (pa + j))
      ∧ (logged → s.core.failed = true → t = s)
      ∧ (logged → s.core.failed = false → b ≠ 6 → pa + b / 8 ≤ 2 ^ 56 → t = s.withCore { s.core with log := t.core.log }
          ∧ ∀ a, logByte t.core.log a = if pa ≤ a ∧ a < pa + b / 8 then some (BitVec.ofNat 8 (v / 256 ^ (a - pa))) else logByte s.core.log a))
    ∧ (∀ n p : Nat, n < 32 → b ∈ [6, 8, 16, 32, 64, 128, 256, 512, 1024] → p < 16 * perRow b →
      let t := RPut.perform r s (.val logs b (.plane n p) v)
      let u := RPut.perform r s (.val logs b (.byp p) v)
      (swf 0 (s.core.planes.get (Fin.ofNat 32 n)) = true →
        t = s.withCore { s.core with planes := t.core.planes, clean := t.core.clean }
        ∧ (∀ m : VReg, m ≠ Fin.ofNat 32 n → t.core.planes.get m = s.core.planes.get m)
        ∧ ∀ j < 16 * perRow b, fromElems b (fun e => t.core.elem (Fin.ofNat 32 n) e) j
            = if j = p then v % 2 ^ b else fromElems b (fun e => s.core.elem (Fin.ofNat 32 n) e) j)
      ∧ (swf 0 s.core.bypass = true →
        u = s.withCore { s.core with bypass := u.core.bypass, clean := u.core.clean }
        ∧ ∀ j < 16 * perRow b, fromElems b (fun e => sget 0 u.core.bypass e) j = if j = p then v % 2 ^ b else fromElems b (fun e => sget 0 s.core.bypass e) j))
    ∧ (∀ l : List (Int × Nat × Nat), s.Sound → logs = false ∨ s.core.det = false →
      let pa := fun (x : Int × Nat × Nat) => pagePA s.core.key r.pages (wrapN 64 x.1)
      l.Pairwise (fun x y => pa x + x.2.1 ≤ pa y ∨ pa y + y.2.1 ≤ pa x) →
      let t := (l.map (fun x => RPut.val logs (8 * x.2.1) (.mem x.1 0) x.2.2)).foldl (RPut.perform r) s
      (∀ x ∈ l, ∀ j < x.2.1, (t.byte (pa x + j)).toNat = x.2.2 / 256 ^ j % 256)
        ∧ ∀ a, (∀ x ∈ l, a < pa x ∨ pa x + x.2.1 ≤ a) → t.byte a = s.byte a)
    ∧ (∀ (n : Fin 8) (x : Option Stencil), RPut.perform r s (.slot n x) = s.withCore { s.core with stencils := s.core.stencils.set n.val x })
    ∧ ∀ p : Put,
      let u := p.ops.foldl (RPut.perform r) s
      let t := p.perform r s
      t.core = { u.core with oldCode := t.core.oldCode, codeLines := t.core.codeLines, clean := t.core.clean }
        ∧ (s.core.det = false → t.mem = u.mem) ∧ (s.core.det = true → u.sameMemoryBut t u.core.logPA (16 * u.core.log.length))

/-- The writes of an engine's records whose cycle is this one perform as the cycle ends: none that was due by then is left. -/
def Sys2Proof.Machine.dueWritesPerform : Prop :=
  ∀ (s : State) (xfer : Bool),
    let runs := fun (t : State) => if xfer then t.core.trun else t.core.prun
    ((runs s).map (·.number)).Nodup →
      (∀ r ∈ runs (s.settlePuts xfer), ∀ p ∈ r.puts, ∀ n, p.at_ = some n → s.core.tau < n)
      ∧ (∀ r ∈ runs s, ∃ q ∈ runs (s.settlePuts xfer), sameRecord q r
          ∧ q.puts = r.puts.filter (fun p => match p.at_ with | some n => decide (s.core.tau < n) | none => true))

/-- Every product record runs through its core cycles: it is given a start behind the records before it, makes an issue a cycle, and each issue
gives writes that perform in the cycles of Table 10.6 (R270 to R272). PDOT and PLOG give entry 16 × row + column of the tile the pairs of a row of
A and a column of B, with CLR from zero on where k is 0; PMULP gives entry j the pair of words j (R274, R275, R277). PMUL writes the
2w-bit products of its words, signed as GWCFG says (R280). PSCALE scales each source into its destination, and with CLR zeroes the
source behind it (R281); PNORM normalises, PZERO zeroes the entries that A names; PLOAD puts its images into entries (R282, R283).
PDRAIN and PXTP write 16 values to a plane, the bypass buffer or memory, join their flags, and with CLR zero the entries that they read (R284, R286, R287).
A write changes its place and nothing else, and is made by the end of its cycle. -/
def Obligations.ProductRecordsStart : Prop :=
  (productSteps .pdotF64 matrixIssue ∧ productSteps .pdotF32 matrixIssue ∧ productSteps .pdotBf16 matrixIssue
    ∧ productSteps .plog66 matrixIssue ∧ productSteps .plog68 matrixIssue ∧ productSteps .plog88 matrixIssue
    ∧ productSteps .pmulp pmulpIssue ∧ productSteps .pmul pmulIssue ∧ productSteps .pscale pscaleIssue ∧ productSteps .pnorm pnormIssue
    ∧ productSteps .pzero pzeroIssue ∧ productSteps .pload ploadIssue ∧ productSteps .pdrain pdrainIssue ∧ productSteps .pxtp pxtpIssue)
  ∧ startsInOrder ∧ writesPerform ∧ dueWritesPerform
  ∧ ∀ (r : QRec) (i : Nat) (s : State),
    let ws := r.words
    let ix := issueAt ws i
    let A := r.operand s 2 i
    let B := r.operand s 3 i
    let keysA := (List.range 16).map (fun (j : Nat) => accKey (accHandle ws 4) (accFirst ws 4 ix + (j : Int)))
    let keyD := fun (j : Nat) => accKey (accHandle ws 2) (accFirst ws 2 ix + (j : Int))
    let w := (wordShape ws).1
    let word := fun (sg : Bool) (x : Nat) => if sg then sintOf w x else (x : Int)
    let delivers := fun (x : QRec) (byp : Bool) (clr : Nat) (vs : List (Nat × Flags)) =>
      let D := r.opnd 1
      let place := fun (j : Nat) => if byp then .byp (D.pos ix + j) else D.loc ix 0 j
      ∃ p l, x.puts = r.puts ++ p :: l ∧ (∀ n, (∀ j < 16, r.writeLag s true (place j) = some n) → p.at_ = some (r.start + 4 + i + n))
        ∧ p.ops = (List.range 16).map (fun j => .val true D.b (place j) (vs.getD j (0, 0)).1) ∧ x.work = r.work
        ∧ x.flags = vs.foldl (fun f v => f ||| v.2) r.flags
        ∧ (rLow ws = false → l = [])
        ∧ (rLow ws = true → 0 < clr → ∃ y, l = [y] ∧ givesEntries r { r with puts := r.puts ++ [y] } (r.start + 4 + i)
            (fun f k => if k ∈ keysA.take clr then AccEntry.zero else f k))
    (accumulates r (matrixIssue r i s) i (16 * A.length) (rLow ws && ix.at (roles (rHi ws)).1 == 0)
      (fun j => (A.getD (j / 16) []).zip (B.map (fun row => row.getD (j % 16) 0))))
    ∧ (A.flatten.length = B.flatten.length → accumulates r (pmulpIssue r i s) i A.flatten.length false
      (fun j => [(A.flatten.getD j 0, B.flatten.getD j 0)]))
    ∧ (A.flatten ≠ [] → A.flatten.length = B.flatten.length → ∃ ops, pmulIssue r i s = { r with puts := r.puts ++ [⟨some (r.start + 6 + i), ops⟩] }
      ∧ ops.length = A.flatten.length ∧ ∀ j < ops.length, ∃ v, ops[j]? = some (.val true (2 * w) ((r.opnd 1).loc ix 0 j) v) ∧ v < 2 ^ (2 * w)
        ∧ (v : Int) % 2 ^ (2 * w) = word (gwSA r.gwcfg) (A.flatten.getD j 0) * word (gwSB r.gwcfg) (B.flatten.getD j 0) % 2 ^ (2 * w))
    ∧ givesEntries r (pscaleIssue r i s) (r.start + 6 + i) (fun f => (List.range 16).foldl (fun f j =>
        let src := keysA.getD j 0
        let f := entrySet f (keyD j) ((f (keyD j)).scaleInto (s.core.accAt src) (B.flatten.getD j 0) (B.flatten.getD (16 + j) 0))
        if rLow ws then entrySet f src AccEntry.zero else f) f)
    ∧ givesEntries r (pnormIssue r i s) (r.start + 6 + i) (fun f k => if k ∈ keysA then (s.core.accAt k).norm r.gwcfg else f k)
    ∧ givesEntries r (pzeroIssue r i s) (r.start + 2 + i) (fun f k => if k ∈ keysA then AccEntry.zero else f k)
    ∧ (A.flatten ≠ [] → givesEntries r (ploadIssue r i s) (r.start + 2 + i)
        (fun f => A.flatten.zipIdx.foldl (fun f x => entrySet f (keyD x.2) (entryOf x.1)) f))
    ∧ (∀ ty, recTy? (dFmt ws) = some ty → delivers (pdrainIssue r i s) (rHi ws) 16
        (keysA.map (fun k => (s.core.accAt k).drain ty (recMode (dMode ws) r.rm) (dSat ws))))
    ∧ ((s.core.accAt (keysA.getD 0 0)).extract (gwG r.gwcfg) (dF ws) (dN ws)).length = 16
    ∧ delivers (pxtpIssue r i s) false 1 ((s.core.accAt (keysA.getD 0 0)).extract (gwG r.gwcfg) (dF ws) (dN ws))

/-- The operands of a log product: numbers, no NaV. -/
def Sys2Proof.Machine.isLog : Sys2Proof.Num → Prop
  | .nav _ => False
  | _ => True

/-- Fixed-point accumulation is exact (R73, R76, R275): where no operand is NaV, the entry holds none, and no partial sum leaves s128,
M grows by exactly the sum of the terms, OVF stays clear, and the entry is one of TAG 2 with EXP −28. Where a partial sum leaves
s128, OVF is set and M is the sum modulo 2¹²⁸. -/
def Obligations.FixedPointAccumulationIsExact : Prop :=
  ∀ (e : AccEntry) (ps : List (Sys2Proof.Num × Sys2Proof.Num)), (∀ p ∈ ps, isLog p.1 ∧ isLog p.2) → e.nv = false → e.ovf = false →
    let x := e.addLogs ps
    let sum := fun (n : Nat) => e.m.toInt + ((ps.take n).map lgTerm).sum
    let inside := fun (v : Int) => -(2 ^ 127 : Int) ≤ v ∧ v < (2 ^ 127 : Int)
    x.m = BitVec.ofInt 128 (sum ps.length) ∧ x.nv = false ∧ x.tag = 2 ∧ x.exp.toInt = -28
      ∧ ((∀ n ≤ ps.length, inside (sum n)) → x.m.toInt = sum ps.length ∧ x.ovf = false)
      ∧ (∀ n ≤ ps.length, (∀ m < n, inside (sum m)) → ¬ inside (sum n) → x.ovf = true)

/-- The record at the head of the transfer queue starts where it may (R307) and C holds: it leaves the queue, its start cycle is this one, and it
runs as `f` leaves it; with a false guard it does nothing but pass, in fixed mode, its cycles (R201; of a collective the switch is told). -/
def Sys2Proof.Machine.startsTransfer (i : Instr) (C : State → QRec → Prop) (f : QRec → State → State × QRec) : Prop :=
  ∀ (s : State) (r : QRec) (rest : List QRec), C s r → s.core.tq = r :: rest → decodeRecord (r.words.get 0).toNat = some i → s.core.startsNow r = true →
    let u := s.withCore { s.core with tq := rest }
    let r' := { r with start := s.core.tau, seen := s.core.tau }
    let x := if r.off then (u.skipCollective r', { r' with done := !(s.core.fixed && onCore r.words) }) else f r' u
    exec i s = .next (x.1.withCore { x.1.core with trun := x.1.core.trun ++ [x.2] })

/-- Has no running record of kind i something to do in this core cycle? -/
def Sys2Proof.Machine.noneDue (i : Instr) (s : State) : Prop :=
  ∀ q ∈ s.core.trun, ¬ (decodeRecord (q.words.get 0).toNat = some i ∧ s.core.dueNow q = true)

/-- Is no record of kind i running that is not done? -/
def Sys2Proof.Machine.noneRunning (i : Instr) (s : State) : Prop :=
  ∀ q ∈ s.core.trun, ¬ (q.done = false ∧ decodeRecord (q.words.get 0).toNat = some i)

/-- A running on-core record of kind i makes the issue of the core cycle: `gives` is what it is to write, nothing where its guard is false (R201);
it is done behind its last issue (R307). A soft error in what it reads ends its task with MEMORY_ERROR, and it runs on. -/
def Sys2Proof.Machine.transferSteps (i : Instr) (gives : QRec → Nat → State → QRec) : Prop :=
  ∀ (s : State) (r : QRec) (before after : List QRec), s.core.isOpen = true → s.core.trun = before ++ r :: after →
    (∀ q ∈ before, ¬ (decodeRecord (q.words.get 0).toNat = some i ∧ s.core.dueNow q = true)) → decodeRecord (r.words.get 0).toNat = some i →
    s.core.dueNow r = true →
    let j := s.core.tau - r.start
    let u := if r.off then s else s.recordRead 3 r.pages (r.sourceSpans j)
    ∃ q, exec i s = .next (u.withCore { u.core with trun := u.core.trun.map (fun p => if p.number = r.number then q else p) })
      ∧ sameRecord q r ∧ q.seen = s.core.tau + 1 ∧ (q.done = true ↔ r.start + occupies r.words ≤ s.core.tau + 1)
      ∧ (r.off = true → ∀ p ∈ q.puts, p.ops = []) ∧ (r.off = false → q.puts = (gives r j s).puts ∧ q.flags = (gives r j s).flags)

/-- A record of kind i that runs an issue in each core cycle: its start and its issues complete. -/
def Sys2Proof.Machine.runsOnCore (i : Instr) (gives : QRec → Nat → State → QRec) : Prop :=
  startsTransfer i (fun s _ => noneDue i s) (fun r u => (u, { r with sten := u.core.stencils.get (xSlot r.words) })) ∧ transferSteps i gives

/-- x is r with the writes of issue i more, c cycles an issue: the values of l, which perform together at start + Lr + 2 + c (i + 1) − 1 + Lw
(R313), and `more` with them. -/
def Sys2Proof.Machine.givesValues (r x : QRec) (s : State) (logs : Bool) (lr c i : Nat) (l : List (VLoc × Nat × Nat)) (more : List RPut) : Prop :=
  ∃ p, x.puts = r.puts ++ [p] ∧ p.ops = l.map (fun y => .val logs y.2.1 y.1 y.2.2) ++ more
    ∧ ∀ n, l ≠ [] → (∀ y ∈ l, r.writeLag s logs y.1 = some n) → p.at_ = some (r.start + lr + 1 + c * (i + 1) + n)

/-- What the issues of the on-core records give (R313, R318, R320 to R322, R326). The issues are the record's elements in order, those of a 64-byte
line of the destination together. -/
def Sys2Proof.Machine.transferValues : Prop :=
  ∀ (r : QRec) (i : Nat) (s : State),
    let ws := r.words
    let n : Nat := 2 ^ xEsz ws
    let D := rDesc ws 2
    let A := rDesc ws 4
    let B := rDesc ws 6
    let lr := r.readLat s.core.key
    let home := fun (va : Int) => pagePA s.core.key r.pages (wrapN 64 va)
    let at_ := fun (d : Desc) (ix : Four Nat) => (d.base : Int) + stride d.s ix * (n : Int)
    let read := fun (va : Int) (n : Nat) => s.taskNum (home va) n
    let index := fun (ix : Four Nat) => sintOf 32 (read ((B.base : Int) + stride B.s ix * 4) 4)
    let mode := recMode (xMode ws) r.rm
    (beatsOf ws).flatten = rIssues ws ∧ (rOp ws = 0x40 → ∀ l ∈ beatsOf ws, ∀ x ∈ l, ∀ y ∈ l, wrapN 64 (at_ D x) / 64 = wrapN 64 (at_ D y) / 64)
    ∧ (r.beat i ≠ [] →
      givesValues r (xcopyIssue r i s) s true lr 1 i ((r.beat i).map (fun ix => (.mem (at_ D ix) 0, 8 * n, read (at_ A ix) n))) []
      ∧ givesValues r (xfillIssue r i s) s true 0 1 i ((r.beat i).map (fun ix => (.mem (at_ D ix) 0, 8 * n, (ws.get 4).toNat % 2 ^ (8 * n)))) []
      ∧ givesValues r (xgathIssue r i s) s true lr 1 i ((r.beat i).map (fun ix => (.mem (at_ D ix) 0, 8 * n,
          if 0 ≤ index ix ∧ index ix < xLen ws 4 then read ((A.base : Int) + index ix * (n : Int)) n else 0))) []
      ∧ ((∃ ix ∈ r.beat i, 0 ≤ index ix ∧ index ix < xLen ws 2) →
        givesValues r (xscatIssue r i s) s true lr 1 i
          (((r.beat i).filter (fun ix => decide (0 ≤ index ix ∧ index ix < xLen ws 2))).map (fun ix =>
            (.mem ((D.base : Int) + index ix * (n : Int)) 0, 8 * n, read (at_ A ix) n))) [])
      ∧ ((∀ ix ∈ r.beat i, ¬ (0 ≤ index ix ∧ index ix < xLen ws 2)) → xscatIssue r i s = r)
      ∧ ∀ a b, xST ws = some a → xDT ws = some b →
        let vs := fun (logs : Bool) => (r.beat i).map (fun ix => convert a b mode (xSat ws) (readLoc logs (xBits a) r.pages s (xLoc A (xBits a) ix)))
        let placed := fun (logs : Bool) => ((r.beat i).zip (vs logs)).map (fun v => (xLoc D (xBits b) v.1, xBits b, v.2.1))
        let row := fun (j : Nat) => (r.beat j).head?.map (·.x1)
        givesValues r (xcvtIssue r i s) s true lr 1 i (placed true) []
        ∧ (xcvtIssue r i s).flags = (vs true).foldl (fun f v => f ||| v.2) r.flags
        ∧ givesValues r (xslabIssue r i s) s false lr 1 i (placed false)
          (if rFlags ws % 2 = 1 ∧ row i ≠ row (i + 1) then [.rows ((row i).getD 0 + 1)] else [])
        ∧ (xslabIssue r i s).flags = (vs false).foldl (fun f v => f ||| v.2) r.flags
        ∧ ∀ t, r.sten = some t → (rOp ws = 0x46 → ∀ d < t.dims, rTrip ws d % 2 = 0) →
          let point := fun (p : Four Int) =>
            a.val (readLoc true (xBits a) r.pages s (packedLoc (xBits a) A.base (p.x0 * A.s.x0 + p.x1 * A.s.x1 + p.x2 * A.s.x2 + p.x3 * A.s.x3)))
          let own := fun (ix : Four Nat) => if xAdd ws then
            [(((2 ^ t.shift : Nat) : Int), b.val (readLoc true (xBits b) r.pages s (xLoc D (xBits b) ix)))] else []
          let ps := (r.beat i).map (fun ix => gridResult b.ffmt mode (xSat ws) t.shift (gridTerms ws t point ix ++ own ix))
          givesValues r (gridIssue r i s) s true lr (t.pace (rOp ws)) i
            (((r.beat i).zip ps).map (fun v => (xLoc D (xBits b) v.1, xBits b, v.2.1))) []
          ∧ (gridIssue r i s).flags = ps.foldl (fun f v => f ||| v.2) r.flags)
    ∧ (r.sten = none ∨ (∃ t, r.sten = some t ∧ rOp ws = 0x46 ∧ ∃ d < t.dims, rTrip ws d % 2 = 1) →
      gridIssue r i s = { r with flags := r.flags ||| Flags.nv })
    ∧ tableIssue r 0 s = { r with puts := r.puts ++ [⟨some (r.start + lr + 3),
        [.slot (Fin.ofNat 8 D.base) (stencilOf ((List.range 128).map (fun j => s.taskByte (home ((A.base + j : Nat) : Int)))))]⟩] }
    ∧ tableIssue r (i + 1) s = r

/-- A running XPUT or XGET moves its next beat, not before the engine has asked for it (R307): each element of the destination takes what the
task reads at its source. -/
def Sys2Proof.Machine.movesBeat (i : Instr) : Prop :=
  ∀ (s : State) (r : QRec) (before after : List QRec), s.core.trun = before ++ r :: after →
    let mine := fun (q : QRec) => decodeRecord (q.words.get 0).toNat = some i ∧ q.done = false ∧ q.start + q.row ≤ s.core.tau
    (∀ q ∈ before, ¬ mine q) → mine r → (∀ h, s.core.tq.head? = some h → decodeRecord (h.words.get 0).toNat = some i → s.core.startsNow h = false) →
    let n : Nat := 2 ^ xEsz r.words
    let at_ := fun (d : Desc) (ix : Four Nat) => (d.base : Int) + stride d.s ix * (n : Int)
    let vals := (r.beat r.row).map (fun ix => RPut.val true (8 * n) (.mem (at_ (rDesc r.words 2) ix) 0)
      (s.taskNum (pagePA s.core.key r.pages (wrapN 64 (at_ (rDesc r.words 4) ix))) n))
    let t := (⟨none, vals⟩ : Put).perform r (s.recordRead 3 r.pages (r.sourceSpans r.row))
    exec i s = .next (t.withCore { t.core with trun := t.core.trun.map (fun q => if q.number = r.number
      then { r with row := r.row + 1, done := decide (occupies r.words ≤ r.row + 1) } else q) })

/-- A running XSEND reads the bytes of its next beat, not before the engine has asked for it (R307), as they stand in memory (R311). With the last
beat its bytes go, in order, in flits of at most 480 bytes of consecutive destinations, behind those that wait in its die's upstream port: each
flit carries its bytes, their number, their offset in the record's bytes and the address of the first (R324). Where a destination's die is upstream no
more, nothing is sent (R354). -/
def Sys2Proof.Machine.sendsBytes : Prop :=
  ∀ (s : State) (r : QRec) (before after : List QRec), s.core.trun = before ++ r :: after → s.Keyed →
    let mine := fun (q : QRec) => decodeRecord (q.words.get 0).toNat = some .xsend ∧ q.row < occupies q.words ∧ q.start + q.row ≤ s.core.tau ∧ q.done = false
    (∀ q ∈ before, ¬ mine q) → mine r → (∀ h, s.core.tq.head? = some h → decodeRecord (h.words.get 0).toNat = some .xsend → s.core.startsNow h = false) →
    s.bad = [] →
    let ws := r.words
    let n : Nat := 2 ^ xEsz ws
    let home := fun (va : Int) => pagePA s.core.key r.pages (wrapN 64 va)
    let bytesOf := fun (d : Desc) (l : List (Four Nat)) =>
      l.flatMap (fun ix => (List.range n).map (fun (j : Nat) => home ((d.base : Int) + stride d.s ix * (n : Int) + (j : Int))))
    let read := (bytesOf (rDesc ws 4) (r.beat r.row)).map s.readByte
    let dests := bytesOf (rDesc ws 2) (rIssues ws)
    let all := r.data.map (fun w => w.truncate 8) ++ read
    let goes := ∀ a ∈ dests, s.upDie s.core.key.dieKey = some (paDieKey a)
    ∃ t q, exec .xsend s = .next t ∧ t.core = { s.core with trun := s.core.trun.map (fun p => if p.number = r.number then q else p) }
      ∧ t.mem = s.mem ∧ sameRecord q r ∧ q.row = r.row + 1 ∧ q.data = r.data ++ read.map (fun b => b.zeroExtend 64)
      ∧ (r.row + 1 < occupies ws → q.done = false ∧ t.ownDie = s.ownDie)
      ∧ (r.row + 1 = occupies ws → ¬ goes → q.done = true ∧ t.ownDie = s.ownDie)
      ∧ (r.row + 1 = occupies ws → goes → all.length = dests.length → q.done = false ∧ ∃ fs : List Flit,
          t.ownDie.up.queue.map (·.1) = s.ownDie.up.queue.map (·.1) ++ fs ∧ fs.flatMap (·.payload) = all
          ∧ ∀ (k : Nat) (f : Flit), fs[k]? = some f →
            let off := ((fs.take k).map (fun g => g.payload.length)).sum
            f.payload.length ≤ 480 ∧ f.len = BitVec.ofNat 16 f.payload.length ∧ f.offset = BitVec.ofNat 40 off
              ∧ f.shbytes = BitVec.ofNat 40 (paOff (dests.getD off 0)) ∧ (f.first = true ↔ k = 0) ∧ (f.last = true ↔ k + 1 = fs.length)
              ∧ ∀ j < f.payload.length, dests.getD (off + j) 0 = dests.getD off 0 + j)

/-- Every transfer record completes its start when it stands at the head of the queue, its waits over, its AT reached and the issues of the
records before it made (R307, R314), and each of its issues in its core cycle: copies, conversions, fills, gathers, scatters, tables and grid
transfers give the values of R318 to R322, XPUT and XGET move beat by beat (R323), XSEND sends its bytes (R324). An XSLAB with FWD needs room
among the die's 64 pairs and no pair with its OLD, and puts its pair in force; behind a row's last write its watermark follows (R326, R327).
A started XSIG sends its update once the window of its source has room and, with REL, no earlier record of the queue runs (R325). An XTMARK
at the head retires (R300). An XMLR sends its contribution to a switch within reach (R329). A set-up reads its descriptor, and ends
with status 4 where that breaks its rules (R328). That XPUT, XGET and XSEND make a beat in one step, each beat's reads before its writes, is entry 11,
that XSLAB's rows follow one another as its issues do entry 33, that an XMLR contributes in the step of its start entry 36. -/
def Obligations.TransferRecordsRunAndCopy : Prop :=
  (runsOnCore .xcopy xcopyIssue ∧ runsOnCore .xcopyTable tableIssue ∧ runsOnCore .xcvt xcvtIssue ∧ runsOnCore .xfill xfillIssue
    ∧ runsOnCore .xgath xgathIssue ∧ runsOnCore .xscat xscatIssue ∧ runsOnCore .xrestr gridIssue ∧ runsOnCore .xprol gridIssue
    ∧ runsOnCore .xsten gridIssue ∧ transferSteps .xslab xslabIssue)
  ∧ transferValues ∧ movesBeat .xput ∧ movesBeat .xget ∧ sendsBytes
  ∧ (∀ (c : Core) (r : QRec), c.startsNow r = true ↔ c.isOpen = true ∧ r.gate.isSome = true ∧ c.behind r true = false ∧ r.due ≤ c.tau
      ∧ ∀ q ∈ c.trun, q.start ≤ c.tau ∧ (q.off = false ∨ c.fixed = true → q.start + occupies q.words ≤ c.tau))
  ∧ startsTransfer .xput (fun _ _ => True) (fun r u => (u, r)) ∧ startsTransfer .xget (fun _ _ => True) (fun r u => (u, r))
  ∧ startsTransfer .xsend (fun _ _ => True) (fun r u => (u, r)) ∧ startsTransfer .xslabRelease (fun _ _ => True) (fun r u => (u, { r with done := true }))
  ∧ startsTransfer .xslab (fun s r => noneDue .xslab s ∧ (r.off = false → rFlags r.words % 2 = 1 →
        s.ownDie.pairs.length < 64 ∧ ∀ p ∈ s.ownDie.pairs, p.oldVA ≠ (rDesc r.words 4).base))
      (fun r u => (if rFlags r.words % 2 = 1 then
        u.setDie { u.ownDie with pairs := u.ownDie.pairs ++ [slabPair u.core.key r.asid r.pages r.words] } else u, r))
  ∧ (∀ (r : QRec) (s : State) (n : Nat), s.Keyed → (RPut.perform r s (.rows n)).ownDie.pairs = (s.ownDie.pairs.map (fun p =>
      if p.oldVA = (rDesc r.words 4).base ∧ p.asid = r.asid then { p with wm := n } else p)).filter (fun p => !(p.released && p.moved)))
  ∧ (let goes := fun (s : State) (r : QRec) => s.core.isOpen = true ∧ r.done = false ∧ decodeRecord (r.words.get 0).toNat = some .xsig
        ∧ (rFlags r.words / 2 % 2 = 1 → ∀ q ∈ s.core.trun, r.number ≤ q.number)
        ∧ s.sigRoom (sigSource s.core.key 1) (pagePA s.core.key r.pages (rDesc r.words 2).base) = true
     startsTransfer .xsig (fun s _ => ∀ q ∈ s.core.trun, ¬ goes s q) (fun r u => (u, r))
     ∧ ∀ (s : State) (r : QRec) (before after : List QRec), s.core.trun = before ++ r :: after → (∀ q ∈ before, ¬ goes s q) → goes s r →
        ∃ t m, exec .xsig s = .next t ∧ t.core = { s.core with trun := s.core.trun.map (fun q => if q.number = r.number then { q with done := true } else q) }
          ∧ t.sigs = s.sigs ++ [m] ∧ m.src = sigSource s.core.key 1 ∧ m.addr = pagePA s.core.key r.pages (rDesc r.words 2).base
          ∧ m.isMax = (rFlags r.words % 2 == 1) ∧ m.val = r.words.get 4 ∧ m.applied = false ∧ m.owner = some (s.core.key, r.number)
          ∧ s.sameMemory t)
  ∧ (∀ (s : State) (r : QRec) (rest : List QRec), s.core.tq = r :: rest → rOp r.words = 0x4E → s.core.isOpen = true →
      (∀ q ∈ s.core.trun, q.start ≤ s.core.tau ∧ q.start + occupies q.words ≤ s.core.tau) →
      exec .xtmark s = .next (s.withCore { s.core with tq := rest }))
  ∧ startsTransfer .xmlr (fun _ _ => True) (fun r u =>
      let c : Contrib := { die := u.core.key.dieKey, num := r.origin, core := u.core.key, record := r.number, tick := u.tick, off := false }
      let v := u.recordRead 3 r.pages (r.sourceSpans 0)
      ((if v.fabricUp u.core.key.pkg then
          { v with groups := v.groups.map (fun g => if g.grp = xGroup r.words then { g with contrib := g.contrib ++ [c] } else g) } else v),
        { r with row := v.tick }))
  ∧ startsTransfer .xmlrSetup (fun s _ => noneRunning .xmlrSetup s) (fun r u =>
      let x := { r with row := u.tick, data := readDesc u r }
      let v := u.recordRead 3 r.pages (r.sourceSpans 0)
      let d := setupDesc x
      if grpFieldsOk d (xGroup x.words) = false then (writeStatus u.core.key x 4 0 v, { x with done := true })
      else match badRank v (grpMembers d) with
        | some n => (writeStatus u.core.key x 4 n v, { x with done := true })
        | none => (v, x))

/-- A record that is done, its last write performed and its signal update applied where it has sent one, retires (R201, R271, R308): it leaves the
running records,
its token counts one more retired, its barrier one arrival and one posted record less, its flags join its engine's, and no register, no
pc and no byte of memory changes. -/
def Obligations.RecordRetires : Prop :=
  ∀ (s : State) (xfer : Bool) (r : QRec), (if xfer then s.core.trun else s.core.prun)[s.place.n]? = some r → r.done = true → r.puts = [] →
    (∀ m ∈ s.sigs, m.owner = some (s.core.key, r.number) → m.applied = true) → rSbar r.words ≤ 96 →
    ∃ t, exec (.recordRetire xfer) s = .next t ∧ s.sameMemory t
      ∧ t.core.trun = (if xfer then s.core.trun.filter (fun q => q.number ≠ r.number) else s.core.trun)
      ∧ t.core.prun = (if xfer then s.core.prun else s.core.prun.filter (fun q => q.number ≠ r.number))
      ∧ (∀ k : Fin 8, t.core.tok.get k = if rTv r.words = true ∧ rStok r.words = k.val then { s.core.tok.get k with ret := (s.core.tok.get k).ret + 1 }
          else s.core.tok.get k)
      ∧ (∀ b : Fin 96, t.core.bars.get b = if rSbar r.words = b.val + 1 then ({ s.core.bars.get b with pc := (s.core.bars.get b).pc - 1 } : Barrier).arrive
          else s.core.bars.get b)
      ∧ (∀ i, t.core.ctl.fpcs.getLsbD i = (s.core.ctl.fpcs.getLsbD i
          || (let lo := if xfer then 15 else 10; decide (lo ≤ i ∧ i < lo + 5) && r.flags.getLsbD (i - lo))))
      ∧ (∀ g, t.core.rd g = s.core.rd g) ∧ t.core.pc = s.core.pc

/-- A collective (R328, R329, R332). With a started record of every member, all within the switch's reach and holding the group,
XMLR_COMBINE ends every member's record: where a count or the operation differs from rank 0's, with status 2 and the lowest rank that
differs, and no data is written; otherwise with the sums of every issue at each member's D, status 0 and the flags. Where every
member's record had a false guard, their numbers are past. That one step combines, writes every member and ends all their records is entry 36.
XMLR_TIMEOUT ends a record of this core with status 1 and its own rank where its package cannot reach the switch, or its contribution
has not got there, TMO × 1,024 ticks after its start; and, where every member has contributed or is absent, and both kinds are there,
the records of those that contributed and can hear the switch, with status 1 and the lowest absent rank. No member's D is written.
A set-up whose members are within reach installs its group once no started collective of the earlier one runs, ends with status 0,
and nothing of the earlier group is left; one that has waited TMO × 1,024 ticks ends with status 4, and the groups stay. -/
def Obligations.CollectivesCombineAndTimeOut : Prop :=
  ∀ (s : State) (g : XGroup) (r : QRec),
    let named := s.groups.find? (fun x => x.grp = s.place.n) = some g
    let gives := fun (m : DieKey) => (g.next m).bind (fun c => if c.off then none else some c)
    let ms := g.members.filterMap (fun m => (gives m).bind (fun c => (c.rec? s).map (fun r => (c, r))))
    (named → ms.length = g.members.length → (∀ m ∈ g.members, s.fabricUp m.pkg = true ∧ m ∈ g.installed) → ∀ m0 rest, ms = m0 :: rest →
      let u := s.setGroup (g.consume (ms.map (·.1)))
      let differs := fun (m : Contrib × QRec) => issueCount m.2.words ≠ issueCount m0.2.words ∨ xRed m.2.words ≠ xRed m0.2.words
      (∀ i m, ms[i]? = some m → differs m → (∀ j < i, ∀ x, ms[j]? = some x → ¬ differs x) →
        exec .xmlrCombine s = .next (ms.foldl (fun s m => finishRecord m.1.core m.2 2 i s) u))
      ∧ ((∀ m ∈ ms, ¬ differs m) →
        let x := (List.range (issueCount m0.2.words)).foldl (fun x i => reduceIssue (xRed m0.2.words) ms i x) (u, 0)
        exec .xmlrCombine s = .next (ms.foldl (fun s m =>
          (finishRecord m.1.core m.2 0 0 s).updRun m.1.core m.2.number (fun r => { r with flags := x.2 })) x.1)))
    ∧ (named → (∀ m ∈ g.members, ∃ c, g.next m = some c ∧ c.off = true) →
      exec .xmlrCombine s = .next (s.setGroup (g.consume (g.members.filterMap g.next))))
    ∧ (let mine := fun (q : QRec) => q.done = false ∧ decodeRecord (q.words.get 0).toNat = some .xmlr ∧ xGroup q.words = g.grp
         ∧ (s.fabricUp s.core.key.pkg = false ∨ ∀ c ∈ g.contrib, ¬ (c.core = s.core.key ∧ c.record = q.number)) ∧ q.row + g.tmo * 1024 ≤ s.tick
       let absent := fun (m : DieKey) => s.memberAbsent g m = true
       (∀ before after, named → s.core.trun = before ++ r :: after → (∀ q ∈ before, ¬ mine q) → mine r →
        ∃ t n, exec .xmlrTimeout s = .next t ∧ (∀ i, g.members[i]? = some s.core.key.dieKey → (∀ j < i, g.members[j]? ≠ some s.core.key.dieKey) → n = i)
          ∧ t.core.trun = s.core.trun.map (fun q => if q.number = r.number then { q with done := true } else q)
          ∧ t.mem = (writeStatus s.core.key r 1 n s).mem)
       ∧ (∀ i, named → (∀ q ∈ s.core.trun, ¬ mine q) → (∃ m ∈ g.members, (gives m).isSome = true) →
        (∀ m ∈ g.members, (gives m).isSome = true ∨ absent m) → (∃ m, g.members[i]? = some m ∧ absent m) →
        (∀ j < i, ∀ m, g.members[j]? = some m → ¬ absent m) →
        exec .xmlrTimeout s = .next (((g.members.filterMap gives).filter (fun c => s.fabricUp c.core.pkg)).foldl (fun s c =>
          match c.rec? s with | some r => finishRecord c.core r 1 i s | none => s) (s.setGroup (g.consume (g.members.filterMap g.next))))))
    ∧ (s.core.trun.find? (fun q => !q.done && decodeRecord (q.words.get 0).toNat == some .xmlrSetup) = some r →
      s.groupBusy (xGroup r.words) = false → badRank s (grpMembers (setupDesc r)) = none →
      ∃ t x, exec .xmlrSetup s = .next t ∧ t.mem = (writeStatus s.core.key r 0 0 s).mem
        ∧ (∀ q ∈ s.core.trun, q.number = r.number → ∃ p ∈ t.core.trun, p.number = r.number ∧ p.done = true)
        ∧ t.groups = x :: s.groups.filter (fun y => y.grp ≠ xGroup r.words) ∧ x.grp = xGroup r.words
        ∧ x.members = grpMembers (setupDesc r) ∧ x.installed = x.members ∧ x.tmo = grpTmo (setupDesc r) ∧ x.contrib = [] ∧ x.taken = [])
    ∧ (s.core.trun.find? (fun q => !q.done && decodeRecord (q.words.get 0).toNat == some .xmlrSetup
        && decide (q.row + grpTmo (setupDesc q) * 1024 ≤ s.tick)) = some r →
      ∃ t n, exec .xmlrSetupTimeout s = .next t ∧ t.groups = s.groups ∧ t.mem = (writeStatus s.core.key r 4 n s).mem
        ∧ (∀ q ∈ s.core.trun, q.number = r.number → ∃ p ∈ t.core.trun, p.number = r.number ∧ p.done = true))

/-! ### Events of signals, merges and queues (R80 to R96, R372 to R375, R384 to R387, R466) -/

/-- SIGADD and SIGMAX send an update with the next sequence number of their source, its point that of a store made then, where the window of
the source has room, and wait till then (R384, R385). SIGW reads the signal, translated once at its issue; it retires with
the value read once its condition holds or its limit is over, and till then it waits, counting its cycles; a reading that an earlier access of its
class to these bytes holds is made later (R228, R297, R387). SIGW_LIMIT retires one past its limit with the last value read (R387).
SIGNAL_UPDATE and SIGNAL_RESEND apply a message at its home at most once, and not before the accesses that R359 places before it have performed: a
new identity adds its value modulo 2⁶⁴, or raises the signal to it (unsigned maximum); one applied before changes nothing; an identity once taken is
not taken again (R384 to R386). The acknowledgement of an applied message ends it (R385). That an update waits for every earlier write of its class,
overlapping or not, is entry 86; that SIGW keeps one translation and reads beside the merge log is entry 87. -/
def Obligations.SignalsUpdateOnce : Prop :=
  (∀ (s : State) (cls : OrdClass) (obs : BitVec 5) (d b a : GReg) (off : BitVec 16) (lim : BitVec 16) (cmp : Fin 4) (pa : Nat) (tr : Trans),
    let ea := (BitVec.ofInt 64 ((s.core.rd a).toInt + off.toInt)).toNat
    let src := sigSource s.core.key 0
    let sent := fun (mx : Bool) (t : State) => ∃ m, t = { s with core := t.core, sigs := s.sigs ++ [m], sigSeq := t.sigSeq }
      ∧ m = ⟨src, ((aget s.sigSeq src).getD 0) + 1, homeOf pa, pa, mx, s.core.rd b, false, some (s.core.key, cls, s.core.num), none, none, obs, [tr],
          s.core.storePoint cls [pa]⟩
      ∧ aget t.sigSeq src = some m.seq ∧ { s.core.hold tr with num := s.core.num + 1 }.moved t.core
    (ea % 8 = 0 → translate seqReach .write ea s = .ok (pa, tr) → s.slabBusy pa 8 = false →
      (s.sigRoom src pa = true →
        (∃ t, exec (.sigadd cls obs b a off) s = .next t ∧ sent false t) ∧ ∃ t, exec (.sigmax cls obs b a off) s = .next t ∧ sent true t)
      ∧ (s.sigRoom src pa = false → exec (.sigadd cls obs b a off) s = .next (s.withCore (s.core.hold tr).delayed)
        ∧ exec (.sigmax cls obs b a off) s = .next (s.withCore (s.core.hold tr).delayed)))
    ∧ (let holds := fun (v : Nat) => let x := (s.core.rd b).toNat
         (cmp = 0 ∧ x ≤ v) ∨ (cmp = 1 ∧ v = x) ∨ (cmp = 2 ∧ v ≠ x) ∨ (cmp = 3 ∧ v < x)
       let polls := fun (c : Core) (n k : Nat) (tr : Trans) (last : Nat) =>
         let blocked := (s.withCore c).readBlocked 0 k pa 8
         let late := lim ≠ 0 ∧ lim.toNat * 256 ≤ n
         let v := s.signalAt pa
         let waits := fun (v : Nat) => exec (.sigw obs d a b cmp lim) s = .next (s.withCore { c.delayedCounted with
           wait := some (.signal (n + 1) pa k tr v) })
         let ends := fun (v : Nat) => s.core.fits d (BitVec.ofNat 64 v) →
           exec (.sigw obs d a b cmp lim) s = .next (s.withCore (c.wr d (BitVec.ofNat 64 v)).retire)
         (blocked = true → (late → ends last) ∧ (¬ late → waits last))
         ∧ (blocked = false → s.spoiled pa 8 = false → (holds v ∨ late → ends v) ∧ (¬ holds v → ¬ late → waits v))
         ∧ (blocked = false → s.spoiled pa 8 = true → s.core.precise →
           exec (.sigw obs d a b cmp lim) s = .next (takeFault { code := 31, addr := pa, detail := paSpace pa } (s.withCore c)))
       let va := (s.core.rd a).toNat
       (s.core.wait = none → va % 8 = 0 → translate seqReach .read va s = .ok (pa, tr) →
         polls { s.core.hold tr with num := s.core.num + 1 } 0 s.core.num tr 0)
       ∧ (∀ n k tr last, s.core.wait = some (.signal n pa k tr last) → polls s.core n k tr last)))
  ∧ (∀ (s : State) (g : Guarded) (cls : BitVec 5) (d a b : GReg) (cmp : Fin 4) (lim : BitVec 16) (tr : Trans) (n pa k v : Nat),
      decode s.core.ir = .ok g → g.instr = .sigw cls d a b cmp lim → s.core.wait = some (.signal n pa k tr v) → lim ≠ 0 →
      lim.toNat * 256 ≤ n → s.core.phase = .running → s.core.fits d (BitVec.ofNat 64 v) →
      exec .sigwLimit s = .next (s.withCore (s.core.wr d (BitVec.ofNat 64 v)).retire))
  ∧ ((∀ (h : SigHome) (seq : BitVec 32), ((h.accept seq).2.accept seq).1 = false) ∧
  ∀ (s : State) (m : SigMsg), s.sigs[s.place.n]? = some m →
    let new := ((s.sigHome m.home m.src).accept m.seq).1
    let old := s.num m.addr 8
    let taken := fun (t : State) => s.sameMemoryBut t m.addr 8 ∧ t.core = s.core ∧ t.sigs = s.sigs.set s.place.n { m with applied := true }
      ∧ t.num m.addr 8 = (if new = true then (if m.isMax then max old m.val.toNat else (old + m.val.toNat) % 2 ^ 64) else old)
    (s.Sound → (new = true → s.spoiled m.addr 8 = false) → m.applied = false → s.sigReady m = true → ∃ t, exec .signalUpdate s = .next t ∧ taken t)
    ∧ (s.Sound → (new = true → s.spoiled m.addr 8 = false) → s.sigReady m = true → ∃ t, exec .signalResend s = .next t ∧ taken t)
    ∧ (m.applied = true → exec .signalAcknowledge s = .next { s with sigs := s.sigs.eraseIdx s.place.n }))

/-- MERGE in a task of a gang launch with DET (R372): it waits for the task's vector words, accesses and records, then arrives at the next
merge point, waits there, and retires once the point's merge has been applied; where the merge found a conflict it raises
MERGE_CONFLICT with the pair and the lowest byte (R373). In any other task it raises MERGE_INVALID. At a merge point that every
task has reached or finished before, the logs are applied where no two conflict, and the waiting tasks go on; from there on they read
direct writes of the launch too (R311; entry 118); in conflict memory stays, every running task is given the first pair, and a finished task
in a pair loses its log and counts as faulted (R373). At the final merge the logs are applied, or in conflict all discarded, and the higher task of each pair counts as faulted (R466). A task's log in a launch without
a gang is applied in the order of identifiers, a stream's once the streams before it are settled; a log in conflict with one applied earlier
is discarded, and its task counts as faulted (R374), its stream ends by a fault (R375). -/
def Obligations.MergesApplyLogs : Prop :=
  (∀ (s : State) (k : Task), s.core.task = some k →
    let waits := exec .merge s = .next (s.withCore s.core.delayedCounted)
    let idle := s.core.pq = [] ∧ s.core.prun = [] ∧ s.core.tq = [] ∧ s.core.trun = [] ∧ s.accessBusy = false ∧ s.core.vectorIdle = true
    (k.gang = true → k.det = true →
      (s.core.mergeFault = none →
        (∀ m, s.core.wait = some (.merged m) →
          exec .merge s = .next (s.withCore (Core.retire { s.core with task := some { k with merges := k.merges + 1 } })))
        ∧ (∀ m, s.core.wait = some (.merge m) → waits)
        ∧ (s.core.wait = none → idle → exec .merge s = .next (s.withCore { s.core with wait := some (.merge (k.merges + 1)) }))
        ∧ (s.core.wait = none → ¬ idle → s.core.ownWork = false → s.fenceBusy allClasses (fun _ => true) true = false → waits)
        ∧ (s.core.wait = none → ¬ idle → s.core.ownWork = true ∨ s.fenceBusy allClasses (fun _ => true) true = true → exec .merge s = .next s))
      ∧ (∀ lo hi pa, s.core.mergeFault = some (lo, hi, pa) → s.core.precise →
        exec .merge s = .next (takeFault { code := 22, detail := lo * 2 ^ 32 + hi, addr := pa }
          (s.withCore { s.core with mergeFault := none, wait := none }))))
    ∧ (k.gang = false ∨ k.det = false → s.core.precise → exec .merge s = .next (takeFault { code := 23 } s)))
  ∧ (∀ (s : State) (l : Launch), s.launch s.place.n = some l → l.lpb.gang = true → l.lpb.det = true → l.begun = true → s.Keyed →
    let ts := s.openTasks l
    let at_ := fun (c : Core) => c.atMerge.isSome = true ∧ c.mergeFault = none
    let cs := conflicts (ts.map (fun x => (x.1, x.2.log)))
    let applied := s.applyCores (ts.map (fun x => (x.1, x.2.key)))
    let named := fun (n : Nat) => ∃ p ∈ cs, p.1 = n ∨ p.2.1 = n
    (∀ x ∈ ts, ∀ y ∈ ts, x.2.key = y.2.key → x = y) →
    ((∃ x ∈ ts, at_ x.2) → (∀ x ∈ ts, at_ x.2 ∨ x.2.finished = true) →
      ∃ t u, exec .mergeApply s = .next t ∧ t.launch l.lid = some u
        ∧ (cs = [] → (∀ a, t.byte a = applied.byte a) ∧ aget t.veils l.lid = none
            ∧ (∀ x ∈ ts, ∀ m, x.2.atMerge = some m → (t.getCore x.2.key).wait = some (.merged m) ∧ (t.getCore x.2.key).log = [])
            ∧ u.faults = l.faults ∧ ∀ n, n ∈ u.done ↔ n ∈ l.done ∨ ∃ x ∈ ts, x.1 = n ∧ x.2.finished = true)
        ∧ (cs ≠ [] → s.sameMemory t
            ∧ (∀ x ∈ ts, x.2.finished = false → (t.getCore x.2.key).mergeFault = some (cs.headD (0, 0, 0)))
            ∧ (∀ x ∈ ts, (t.getCore x.2.key).log = if x.2.finished = true ∧ named x.1 then [] else x.2.log)
            ∧ (∀ n, n ∈ u.faults ↔ n ∈ l.faults ∨ (named n ∧ ∃ x ∈ ts, x.1 = n ∧ x.2.finished = true))
            ∧ ∀ n, n ∈ u.done ↔ n ∈ l.done ∨ (named n ∧ ∃ x ∈ ts, x.1 = n ∧ x.2.finished = true)))
    ∧ (ts ≠ [] → (∀ x ∈ ts, x.2.finished = true) →
      ∃ t u, exec .finalMerge s = .next t ∧ t.launch l.lid = some u
        ∧ (cs ≠ [] → s.sameMemory t) ∧ (cs = [] → ∀ a, t.byte a = applied.byte a)
        ∧ (∀ x ∈ ts, (t.getCore x.2.key).log = [])
        ∧ (∀ n, n ∈ u.done ↔ n ∈ l.done ∨ ∃ x ∈ ts, x.1 = n)
        ∧ ∀ n, n ∈ u.faults ↔ n ∈ l.faults ∨ ∃ p ∈ cs, p.2.1 = n))
  ∧ (∀ (s : State) (k : Task), s.core.task = some k → k.det = true → s.core.finished = true → s.Keyed →
    (∀ l, k.stream = false → k.gang = false → s.launch k.lid = some l → k.tid.toNat ∉ l.done → (∀ i < k.tid.toNat, i ∈ l.done) →
      let clash := ∃ x ∈ l.logs, logConflict x.2 s.core.log ≠ none
      ∃ t u, exec .taskLogApply s = .next t ∧ t.core.log = [] ∧ t.launch k.lid = some u ∧ u.done = k.tid.toNat :: l.done
        ∧ (¬ clash → (∀ a, t.byte a = (applyLog s s.core.log).1.byte a) ∧ u.faults = l.faults ∧ u.logs = l.logs ++ [(k.tid.toNat, s.core.log)])
        ∧ (clash → s.sameMemory t ∧ u.faults = k.tid.toNat :: l.faults ∧ u.logs = l.logs))
    ∧ (k.stream = true → (k.formNo, k.tid) ∈ s.ownDie.streams → (∀ x ∈ s.ownDie.streams, k.formNo ≤ x.1) →
      ∃ t, exec .streamLogApply s = .next t ∧ t.core.log = [] ∧ (∀ x, x ∈ t.ownDie.streams ↔ x ∈ s.ownDie.streams ∧ x.1 ≠ k.formNo)
        ∧ (streamConflict s.ownDie.streamLogs k.started s.core.log = none → (∀ a, t.byte a = (applyLog s s.core.log).1.byte a)
            ∧ ∃ x, t.ownDie.streamLogs = s.ownDie.streamLogs ++ [x] ∧ x.log = s.core.log ∧ x.fromT = k.started)
        ∧ (∀ b i, streamConflict s.ownDie.streamLogs k.started s.core.log = some (b, i) → s.sameMemory t ∧ t.core.phase = .ending .fault
            ∧ t.core.ctl.frec = faultRecord { code := 22, addr := b, detail := i.toNat * 2 ^ 32 + k.tid.toNat } s)))

/-- A command processor fetches the valid slot at its fetch index while its queue is active, fewer than 16 packets are fetched and not
retired, and no fence waits (R81, R89, R91). It reads the eight words in any order, one by one or all that are left at once, so that words
written meanwhile are seen old or new each on its own (R83, R92); where W0 then has its lap code no more it reads them again; a packet that breaks
R84 is invalid, with the lowest detail. An empty
slot of a queue in host memory is read again POLL ticks later (R81).
A packet that has ended retires: a valid one as it ended, an invalid one in its turn with PACKET_INVALID (noted at its fetch, and not before
every packet before it has begun dispatch: entry 38), a signal set when its update has
been applied, a fence once every packet before it has retired. The status record is written, then the signal is sent, then RDIDX goes past
the packets that have all retired and stands in the descriptor (R88); with PACKET_INVALID or WAIT_TIMEOUT the queue goes to ERR with the
index and the code, and copies behind the packet that have not begun dispatch are dropped, to be fetched again (R93, entry 97). -/
def Obligations.PacketsAreFetchedAndRetired : Prop :=
  ∀ (s : State) (q : Queue), aget s.queues s.place.q = some q →
    let k := s.place.q
    (∀ pa, (if q.part.isEmpty then s.validSlot k q else s.slotPA k q q.fetch) = some pa → s.queueActive q = true → q.fetch < q.rd + 16 →
      (∀ p ∈ q.packets, p.ty = 6 → p.retired = true) → (s.hostQueue k q = true → q.pollAt ≤ s.tick) →
      let first := ((aget q.part pa).getD (s.readWord pa)).toNat % 256
      (s.place.n = 0 ∨ 8 < s.place.n → first = lapCode q.log2s q.fetch →
        let p : Packet := ⟨q.fetch, Vector.ofFn (fun (i : Fin 8) => (aget q.part (pa + 8 * i.val)).getD (s.readWord (pa + 8 * i.val))), .fetched, 0,
          none, none, none, false⟩
        ∃ x, exec .packetFetch s = .next (s.setQueue k (q.addPacket x)) ∧ x = { p with phase := x.phase }
          ∧ (s.packetFaults k q p = [] → x.phase = .fetched) ∧ (∀ d, lowest (s.packetFaults k q p) = some d → x.phase = .invalid d))
      ∧ (s.place.n = 0 ∨ 8 < s.place.n → first ≠ lapCode q.log2s q.fetch → exec .packetFetch s = .next (s.setQueue k { q with part := [] }))
      ∧ (1 ≤ s.place.n → s.place.n ≤ 8 → aget q.part (pa + 8 * (s.place.n - 1)) = none →
        exec .packetFetch s = .next (s.setQueue k
          { q with part := q.part ++ [(pa + 8 * (s.place.n - 1), s.readWord (pa + 8 * (s.place.n - 1)))] })))
    ∧ (s.hostQueue k q = true → s.mayFetch q = true → s.validSlot k q = none → q.pollAt ≤ s.tick →
      exec .queuePoll s = .next (s.setQueue k { q with pollAt := s.tick + q.poll }))
    ∧ (∀ p a b c d, q.packets.find? (fun p => p.idx = s.place.n && !p.retired) = some p →
      (p.phase = .ended a b c d
        ∨ (p.phase = .invalid b ∧ q.nextPacket.map (·.idx) = some p.idx ∧ s.queueActive q = true ∧ a = 5 ∧ c = 0 ∧ d = 0)
        ∨ (p.phase = .dispatched ∧ a = 0 ∧ b = 0 ∧ c = 0 ∧ d = 0
          ∧ ((p.ty = 5 ∧ ∀ m ∈ s.sigs, m.pkt = some (k, p.idx) → m.applied = true) ∨ (p.ty = 6 ∧ q.rd = p.idx)))) →
      s.signalRoom k q p = true → s.Sound →
      let done := advance q.rd (q.packets.map (fun x => if x.idx = p.idx then { x with retired := true } else x))
      let record := fun (i : Fin 8) => if p.bits i 55 0 ≠ 0 ∧ p.bits i 63 56 = 0 then s.queuePA k q (p.bits i 55 0) .write (i == 7) else none
      ∃ t q', exec .packetRetire s = .next t ∧ aget t.queues k = some q' ∧ q'.rd = done.1 ∧ t.num (q.descPA + 16) 8 = q'.rd % 2 ^ 64
        ∧ (a ≠ 5 → a ≠ 6 → q'.state = q.state ∧ q'.packets = done.2)
        ∧ (a = 5 ∨ a = 6 → q.state = 0 → q.destroyAt = none → q'.state = 1
          ∧ t.num (q.descPA + 32) 8 = p.idx % 2 ^ 32 * 2 ^ 32 + a * 2 ^ 16 + 1
          ∧ ∀ x, x ∈ q'.packets ↔ x ∈ done.2 ∧ (x.idx ≤ p.idx ∨ x.begun = true))
        ∧ (∀ pa, p.bits 6 55 0 % 16 = 0 → record 6 = some pa → (pa + 16 ≤ q.descPA ∨ q.descPA + 64 ≤ pa) → a < 2 ^ 32 →
          t.num pa 8 = b % 2 ^ 32 * 2 ^ 32 + a ∧ t.num (pa + 8) 8 = d % 2 ^ 32 * 2 ^ 32 + c % 2 ^ 32)
        ∧ (∀ pa, p.bits 7 55 0 % 8 = 0 → record 7 = some pa → ∃ m, t.sigs = s.sigs ++ [m] ∧ m.addr = pa ∧ m.isMax = false
          ∧ m.val = BitVec.ofNat 64 (p.bits 0 63 32) ∧ m.src = q.source k ∧ m.applied = false)
        ∧ ∀ j, j ≠ k → aget t.queues j = aget s.queues j)

/-- The dispatch of a ready packet of the kind that event i takes, at the queue that its command processor serves next, has the effect
`m` on the state in which the packet is dispatched (R89, R90). -/
def Sys2Proof.Machine.dispatched (i : Instr) (kind : Packet → Prop) (m : QKey → Queue → Packet → State → State → Prop) : Prop :=
  ∀ (s : State) (q : Queue) (p : Packet), aget s.queues s.place.q = some q → s.readyPacket s.place.q q = some p → s.wins s.place.q q = true →
    kind p →
    let q1 := q.setPacket p.idx (fun p => { p with phase := .dispatched, since := s.tick })
    let u := { (s.setQueue s.place.q q1) with served := aput s.served (q.homeDie s.place.q) s.place.q.q }
    ∀ t, m s.place.q q1 p u t → exec i s = .next t

/-- A stream-table update with an OP. -/
def Sys2Proof.Machine.updateOp (op : Nat) (p : Packet) : Prop := p.ty = 3 ∧ p.bits 1 3 0 = op

/-- Stream-table updates complete at their dispatch (R86): REGISTER_REQUEST adds the request to every die named, or ends with status 11 where
one holds that number; REGISTER_NEED registers the need, with status 12 where a die holds no such active request and 7 where a table
is full; REMOVE_NEED clears it, with status 8 where it is absent; SET_REQUEST_STATE sets it and writes it back, with status 12 where a die
holds no such request that is active or paused; UNBIND ends the binding; BIND_KERNEL binds an image and a block that pass the checks
of R36, and ends with their status where they do not. The die that a status names is the lowest, and the other dies apply (entry 101);
an image that is no ring image is PACKET_INVALID naming W2 (entry 21), and so is an address that no longer translates (entry 102). That an update
takes effect on every die in the step that dispatches it is entry 41; that the image's checks come before the block's, and reason 7 last, entry 17. -/
def Obligations.StreamTableUpdatesComplete : Prop :=
  dispatched .registerRequest (updateOp 1) (fun k q p u t =>
    (u.queuePA k q (p.bits 2 55 0) = none ∧ t = u.endPacket k p.idx 5 (2 * 2 ^ 16) 0 0)
    ∨ ∃ pa, u.queuePA k q (p.bits 2 55 0) = some pa ∧
    let w := fun i => u.readNum (pa + 8 * i) 8
    let r : ReqCopy := ⟨bits (w 0) 15 0, BitVec.ofNat 16 (bits (w 0) 31 16), bits (w 0) 57 56, bits (w 1) 55 0, bits (w 2) 31 0, bits (w 2) 63 32, pa⟩
    ((∀ d ∈ p.updateDies k, ∀ x ∈ (u.getDie d).reqs, x.req ≠ r.req) ∧
        t = (u.onDies (p.updateDies k) (fun d => { d with reqs := d.reqs ++ [r] })).endPacket k p.idx 0 0 0 0)
      ∨ ∃ d, (p.updateDies k).find? (fun d => (u.getDie d).reqs.any (fun x => x.req = r.req)) = some d ∧ t = u.endPacket k p.idx 11 d.die 0 0)
  ∧ dispatched .registerNeed (updateOp 2) (fun k q p u t =>
    let reg := fun (d : Die) => d.register q.asid (p.bits 4 62 62 == 1) p.needReq p.needTag u.now
    let ds := p.updateDies k
    (∃ d, ds.find? (fun d => (reg (u.getDie d)).2 = 3) = some d ∧ t = u.endPacket k p.idx 12 d.die 0 0)
      ∨ ((∀ d ∈ ds, (reg (u.getDie d)).2 ≠ 3) ∧ ∃ d, ds.find? (fun d => (reg (u.getDie d)).2 = 2) = some d
          ∧ t = (u.onDies ds (fun d => (reg d).1)).endPacket k p.idx 7 d.die 0 0)
      ∨ ((∀ d ∈ ds, (reg (u.getDie d)).2 ≠ 3 ∧ (reg (u.getDie d)).2 ≠ 2) ∧ t = (u.onDies ds (fun d => (reg d).1)).endPacket k p.idx 0 0 0 0))
  ∧ dispatched .removeNeed (updateOp 3) (fun k _ p u t =>
    let cleared := u.onDies (p.updateDies k) (fun d => match d.needSlot p.needReq p.needTag with | some i => d.clearNeed i | none => d)
    (∃ d, (p.updateDies k).find? (fun d => ((u.getDie d).needSlot p.needReq p.needTag).isNone) = some d ∧ t = cleared.endPacket k p.idx 8 d.die 0 0)
      ∨ ((∀ d ∈ p.updateDies k, ((u.getDie d).needSlot p.needReq p.needTag).isSome = true) ∧ t = cleared.endPacket k p.idx 0 0 0 0))
  ∧ dispatched .setRequestState (updateOp 4) (fun k _ p u t =>
    let req := p.bits 5 47 32
    let st := p.bits 5 1 0
    let ds := p.updateDies k
    let live := fun (d : Die) => d.reqs.any (fun r => r.req == req && decide (r.state < 2))
    let back := fun (s : State) (d : DieKey) => match (s.getDie d).reqs.find? (fun r => r.req = req) with
      | some r => s.writeWord r.addr (putBits (s.word r.addr) 57 56 st) | none => s
    (∃ d, ds.find? (fun d => !live (u.getDie d)) = some d ∧ t = u.endPacket k p.idx 12 d.die 0 0)
      ∨ ((∀ d ∈ ds, live (u.getDie d) = true) ∧ t = ((ds.foldl back u).onDies ds (fun d =>
          { d with reqs := d.reqs.map (fun r => if r.req = req then { r with state := st } else r) })).endPacket k p.idx 0 0 0 0))
  ∧ dispatched .unbind (updateOp 5) (fun k _ p u t => t = (u.onDies (p.updateDies k) (fun d => { d with binding := none })).endPacket k p.idx 0 0 0 0)
  ∧ dispatched .bindKernel (updateOp 0) (fun k q p u t =>
    let die := q.homeDie k
    let image := u.readImage die q.asid q.ptbase (p.bits 2 55 0)
    let block := u.readLpb die q.asid q.ptbase (p.bits 3 55 0)
    let stops := fun (a b : Nat) => t = u.endPacket k p.idx a b 0 0
    (∃ e, image = .error e ∧ stops e.1 e.2)
      ∨ (∃ i, image = .ok i ∧ i.ring = false ∧ stops 5 (2 * 2 ^ 16))
      ∨ (∃ i e, image = .ok i ∧ i.ring = true ∧ block = .error e ∧ stops e.1 e.2)
      ∨ (∃ i bs, image = .ok i ∧ i.ring = true ∧ block = .ok (bs, true) ∧ stops 1 (6 * 2 ^ 16))
      ∨ (∃ i bs, image = .ok i ∧ i.ring = true ∧ block = .ok (bs, false)
          ∧ let l := u.copyLpb die q.asid q.ptbase (p.bits 3 55 0) bs
            (imageFits i l.det = false ∧ stops 2 7)
            ∨ (imageFits i l.det = true ∧ ∃ b : Binding, b = ⟨i, l, p.bits 4 1 0, k, q.asid, q.ptbase, q.unitva, q.cluva⟩
              ∧ t = ((u.makeCopy l).onDies (p.updateDies k) (fun d => { d with binding := some b, arrivals := 0 })).endPacket k p.idx 0 0 0 0)))

/-- Launches, waits, signals, fences and barriers dispatch (R87, R89, R91): a launch that passes its checks and has its embeddings joins the
launches under the next number, with its core bindings and the device's copy of its parameters; one that does not ends with its status; a wait ends where its condition
holds; SIGNAL_SET sends one update, or ends with PACKET_INVALID where its page no longer translates (entry 102); a fence drops the copies
behind it that have not begun dispatch; a barrier packet, once the command processor's own signals have been applied, arrives once
(R378), with EC 0 it is PACKET_INVALID naming BID (entry 22), and it ends when the phase it joined has completed. A wait past its timeout
ends with status 6 and the low half of the signal (R87). -/
def Obligations.QueuePacketsDispatch : Prop :=
  (∀ gang : Bool, dispatched (if gang then .gangLaunch else .launch) (fun p => p.ty = if gang then 2 else 1) (fun k q p u t =>
    (∃ e, u.checkLaunch (q.homeDie k) q.asid q.ptbase (p.bits 1 55 0) gang = .error e ∧ t = u.endPacket k p.idx e.1 e.2 0 0)
      ∨ ∃ l i, u.checkLaunch (q.homeDie k) q.asid q.ptbase (p.bits 1 55 0) gang = .ok (l, i) ∧
        ((u.newLaunch k q p l i = none ∧ t = u.endPacket k p.idx 3 0 0 0)
          ∨ ∃ x, u.newLaunch k q p l i = some x ∧
            let v := State.makeCopy l { (u.setQueue k { (q.setPacket p.idx (fun p => { p with lid := some x.lid })) with
              launches := q.launches + 1 }) with launches := u.launches ++ [x] }
            t = if gang then v.reserve x else v.preempt x)))
  ∧ dispatched .signalSet (fun p => p.ty = 5) (fun k q p u t =>
      (u.queuePA k q (p.bits 1 55 0) .write true = none ∧ t = u.endPacket k p.idx 5 (2 ^ 16) 0 0)
      ∨ ∃ pa, u.queuePA k q (p.bits 1 55 0) .write true = some pa ∧ u.sigRoom (q.source k) pa = true ∧
        t = u.sendSig (q.source k) pa (p.bits 3 0 0 == 1) (p.words.get 2) none none (some (k, p.idx)))
  ∧ dispatched .fetchFence (fun p => p.ty = 6) (fun k q p u t => t = u.setQueue k (q.dropBehind p.idx))
  ∧ (∀ (q : Queue) (i : Nat) (x : Packet), x ∈ (q.dropBehind i).packets ↔ x ∈ q.packets ∧ (x.idx ≤ i ∨ x.begun = true))
  ∧ (∀ (s : State) (q : Queue) (p : Packet), aget s.queues s.place.q = some q → (∀ x ∈ q.packets, x.phase = .dispatched → x.ty ≠ p.ty) →
      s.readyPacket s.place.q q = some p → s.wins s.place.q q = true →
      let k := s.place.q
      let q1 := q.setPacket p.idx (fun p => { p with phase := .dispatched, since := s.tick })
      let u := { (s.setQueue k q1) with served := aput s.served (q.homeDie k) k.q }
      let b := u.getBar (p.barrier k q1)
      let quiet := ∀ m ∈ s.sigs, m.src = q.source k → m.applied = true
      (p.ty = 4 → u.waitHolds k q1 p = true → exec .signalWait s = .next (u.endPacket k p.idx 0 0 0 0))
      ∧ (p.ty = 4 → u.waitHolds k q1 p = false → exec .signalWait s = .next u)
      ∧ (p.ty = 7 → quiet → b.ec = 0 → exec .barrierPacket s = .next (u.endPacket k p.idx 5 (2 ^ 16) 0 0))
      ∧ (p.ty = 7 → quiet → b.ec ≠ 0 → exec .barrierPacket s =
          .next ((u.setQueue k (q1.setPacket p.idx (fun p => { p with ph := some b.ph }))).setBar (p.barrier k q1) b.arrive)))
  ∧ (∀ (s : State) (q : Queue) (p : Packet), aget s.queues s.place.q = some q →
      let k := s.place.q
      let out := fun (x : Packet) => x.phase == .dispatched && x.ty == 4 && x.bits 4 31 0 != 0
        && decide (x.since + x.bits 4 31 0 * 1024 ≤ s.tick) && !s.waitHolds k q x
      let passed := fun (x : Packet) => x.phase == .dispatched && x.ty == 7 && x.ph.any (fun h => phaseDone (s.getBar (x.barrier k q)).ph h)
      (q.packets.find? (fun x => x.phase == .dispatched && x.ty == 4 && s.waitHolds k q x) = some p →
          exec .signalWait s = .next (s.endPacket k p.idx 0 0 0 0))
      ∧ (q.packets.find? out = some p → exec .waitTimeout s = .next (s.endPacket k p.idx 6 (s.packetSignal k q p % 2 ^ 32) 0 0))
      ∧ (q.packets.find? passed = some p → exec .barrierPacket s = .next (s.endPacket k p.idx 0 0 0 0)))

/-- In the handler QCREATE makes a live queue of a descriptor without an offending field and writes W4 = 0, or writes STATE 3 with
PACKET_INVALID and the first offending field and makes none (R80); QKILL puts a live queue into destruction at the current tick plus
512 (R94), and does nothing for a number that names none, or one already in destruction (entry 20).
Destruction (R94 to R96): a destroy packet puts a live queue into destruction at the current tick plus 512; at that tick packets that
have not begun dispatch or wait end with DESTROYED (of one that waits, entry 42), and no group of the queue's launches that is not placed will be,
but those of a gang without ABORT, which count as placed; once nothing of it is
left its STATE is 3, its number is free, and the packet that destroyed it, on whichever queue, ends. A die notes the destroy tick that it is
sent. -/
def Obligations.QueuesAreCreatedAndDestroyed : Prop :=
  (∀ (s : State) (a : GReg) (pa : Nat) (tr : Trans), s.core.priv = true → s.Sound →
    let w := fun i => s.readNum (pa + 8 * i) 8
    let key : QKey := ⟨s.core.key.pkg, w 3 / 2 ^ 32 % 64⟩
    let n := (s.core.rd a).toNat
    let k : QKey := ⟨s.core.key.pkg, n⟩
    (translate seqReach .write n s = .ok (pa, tr) → (s.hold tr).queueFaults s.core.key pa w = [] →
      ∃ t, exec (.qcreate a) s = .next t ∧ t.num (pa + 32) 8 = 0 ∧ s.sameMemoryBut t (pa + 32) 8
        ∧ aget t.queues key = some (queueOf pa w) ∧ ∀ k, k ≠ key → aget t.queues k = aget s.queues k)
    ∧ (∀ e, translate seqReach .write n s = .ok (pa, tr) → lowest ((s.hold tr).queueFaults s.core.key pa w) = some e →
      ∃ t, exec (.qcreate a) s = .next t ∧ t.num (pa + 32) 8 = e % 2 ^ 32 * 2 ^ 32 + 10 * 2 ^ 16 + 3 ∧ s.sameMemoryBut t (pa + 32) 8
        ∧ t.queues = s.queues)
    ∧ (∀ q, n < 64 → aget s.queues k = some q → q.destroyAt = none →
      ∃ t, exec (.qkill a) s = .next t ∧ aget t.queues k = some { q with state := 2, destroyAt := some (s.tick + 512) }
        ∧ t.num (q.descPA + 32) 8 % 4 = 2 ∧ s.sameMemoryBut t (q.descPA + 32) 8)
    ∧ ((64 ≤ n ∨ aget s.queues k = none ∨ ∃ q, aget s.queues k = some q ∧ q.destroyAt.isSome = true) → exec (.qkill a) s = .next s.retire))
  ∧ (∀ (s : State) (q : Queue), aget s.queues s.place.q = some q → s.Sound →
    let k := s.place.q
    (∀ p, q.packets.find? (fun p => p.phase == .fetched && p.ty == 8) = some p →
      let t : QKey := ⟨k.pkg, p.bits 1 5 0⟩
      (aget s.queues t = none → exec .destroy s = .next (s.endPacket k p.idx 0 0 0 0))
      ∧ (∀ x, aget s.queues t = some x → x.destroyAt.isSome = true → exec .destroy s = .next (s.endPacket k p.idx 0 0 0 0))
      ∧ (∀ x, aget s.queues t = some x → x.destroyAt = none → ∃ u y, exec .destroy s = .next u ∧ aget u.queues t = some y ∧ y.state = 2
          ∧ y.destroyAt = some (s.tick + 512)))
    ∧ (∀ t, q.destroyAt = some t → q.state = 2 → t ≤ s.tick →
      ∃ u y, exec .destroyTick s = .next u ∧ aget u.queues k = some y ∧ y.state = 3 ∧ y.packets = q.packets.map (Packet.cut k.q t)
        ∧ ∀ l ∈ u.launches, l.q = k → l.destroyed = some t ∧ ((l.lpb.gang = true → l.lpb.abort = true) → ∀ x ∈ l.shares, x.pending = []))
    ∧ (∀ (t : Nat) (p : Packet), p.phase = .fetched ∨ (∃ d, p.phase = .invalid d) ∨ (p.phase = .dispatched ∧ p.lid = none ∧ p.destroys ≠ some k.q) →
      (p.cut k.q t).phase = .ended 4 (t % 2 ^ 32) 0 0)
    ∧ (∀ t, q.destroyAt = some t → q.state = 3 → (∀ p ∈ q.packets, p.retired = true ∨ p.destroys = some k.q) → (∀ l ∈ s.launches, l.q ≠ k) →
      (∀ p ∈ q.packets, p.retired = true ∨ s.signalRoom k q p = true) →
      ∃ u, exec .destroyTick s = .next u ∧ aget u.queues k = none
        ∧ ((∀ p ∈ q.packets, p.retired = true) → u.num (q.descPA + 32) 8 % 4 = 3)
        ∧ ∀ j x, j ≠ k → j.pkg = k.pkg → aget s.queues j = some x → ∃ y, aget u.queues j = some y
          ∧ y.packets = x.packets.map (fun p => if p.destroys = some k.q ∧ p.phase = .dispatched then { p with phase := .ended 0 0 0 0 } else p))
    ∧ (∀ t, q.destroyAt = some t → (k, t) ∉ (s.getDie s.place.core.dieKey).notices →
      ∃ d, exec (.destroyNotice t) s = .next (s.setDie d) ∧ d = { s.getDie s.place.core.dieKey with notices := (s.getDie s.place.core.dieKey).notices ++ [(k, t)] }))

/-! ### Placement and the life of a task (R98, R106 to R113, R406, R407, R411, R412) -/

/-- A free core that no gang reserves and no stream waits for takes the candidate of R108. The next group starts at the image's entry with
its task block, its constants, and every register zero but r31 and sp, which hold the base of its unit-scratchpad area and the top of
its stack (R49, R104); a saved task goes on where it stopped, with the registers and planes that its SAFE named, the others zero, and
translates afresh (R408, R409). A stopped task with nothing under way leaves its image and its core (R406, R407); an ended one, its log
settled, frees its core, which keeps the translations that it holds (R411; entry 18). A die's last report ends the launch with its status and the counts of its dies (R412). -/
def Obligations.TasksArePlacedAndRetire : Prop :=
  (∀ (s : State) (l : Launch) (c : Candidate), s.Keyed → s.Sound →
    let k := s.place.core
    let sl := (s.getDie k.dieKey).slot k.core
    s.coreFree k = true → sl.gangs = [] → s.streamWants k = false → chooseCandidate sl.last (s.candidatesOf k) = some c → s.launch c.lid = some l →
    (∀ j, c = .group l.lid j →
      let src := s.source l j (sl.level l).1
      ∃ t w, exec .placementChoice s = .next t ∧ (t.getCore k).phase = .running ∧ (t.getCore k).pc = BitVec.ofNat 17 l.image.entry
        ∧ (t.getCore k).task = some w ∧ w.tid = BitVec.ofNat 32 j ∧ w.lid = l.lid ∧ w.level = (sl.level l).1 ∧ w.executed = false
        ∧ (∀ r : GReg, (t.getCore k).rd r = if r = 31 then BitVec.ofNat 64 src.unit
            else if r = 32 then BitVec.ofNat 64 (src.unit + l.image.unitsz) else 0)
        ∧ (∀ i < 64, t.byte (unitPA k + i) = (taskBlock src k).getD i 0)
        ∧ ∀ i < l.image.consts.length, t.byte (unitPA k + 64 + i) = l.image.consts.getD i 0)
    ∧ (∀ m w, c = .saved l.lid m → m.core.task = some w →
      ∃ t, exec .placementChoice s = .next t ∧ (t.getCore k).phase = .running ∧ (t.getCore k).pc = m.core.pc ∧ (t.getCore k).held = []
        ∧ (∀ r : GReg, (t.getCore k).rd r = if m.live.getLsbD (if r = 32 then 0 else r.val) = true then m.core.rd r else 0)
        ∧ ∀ (v : VReg) e, (t.getCore k).elem v e = if m.groups.getLsbD (v.val / 4) = true then m.core.elem v e else 0))
  ∧ (∀ (s : State) (k : Task) (groups : BitVec 8) (live : BitVec 32) (at_ : BitVec 17), s.core.task = some k → s.Keyed → s.core.quiet = true →
      s.signalsDone s.core.key = true →
    (s.core.phase = .stopped groups live at_ → s.core.trap = none →
      ∃ t, exec .contextSaveDone s = .next t ∧ t.core.phase = .free ∧ t.core.task = none ∧ s.sameMemory t
        ∧ t.ownDie.saved = s.ownDie.saved ++ [s.image s.core k groups live at_])
    ∧ (∀ e, s.core.phase = .ending e → s.logSettled s.core.key k = true →
      ∃ t, exec .taskRetire s = .next t ∧ t.core.phase = .free ∧ t.core.task = none ∧ t.core.held = s.core.held ∧ s.sameMemory t))
  ∧ (∀ (s : State) (l : Launch) (x : DieShare), s.launch s.place.n = some l → l.share s.place.core.die = some x → x.reported = false →
      s.shareOver l x = true →
      ∃ t, exec .dieLaunchReport s = .next t ∧ s.sameMemory t
        ∧ ((∀ y ∈ l.shares, y.die ≠ x.die → y.reported = true) → t.launches = s.launches.filter (fun y => y.lid ≠ l.lid)
          ∧ ((∀ y ∈ l.shares, y.die = x.die → y = x) → ∀ q p, aget s.queues l.q = some q → p ∈ q.packets → p.idx = l.pidx →
            ∃ q' p', aget t.queues l.q = some q' ∧ p' ∈ q'.packets ∧ p'.idx = p.idx
              ∧ p'.phase = .ended l.status.1 l.status.2 (l.shares.map (·.ran)).sum (l.shares.map (·.stopped)).sum)))

/-- A gang starts together (R111 to R113): 256 ticks before START a die checks that its reserved cores, one for each of its groups, are free
and loads the kernel's code on them; a die that is not ready says so; with such a message, or a die that has not become ready, 128
ticks before START every die takes START + 4,096 and checks again (entry 100); with every die ready the gang begins, unless its
queue is destroyed first and ABORT is set (R95): each group is placed on its core, and its first core cycle, in which its first word may issue, is
the first that ends in the tick START or, where a clock step suppresses cycles, behind it. A core is fused off where it is free; a flow task running there is first asked to stop;
of a failed core the task ends with CORE_LOST, once its earlier vector words are done (R98, R106). -/
def Obligations.GangsStartAndCoresAreFused : Prop :=
  (∀ (s : State) (l : Launch) (x : DieShare), s.launch s.place.n = some l → l.lpb.gang = true → l.begun = false →
    (l.share s.place.core.die = some x → x.check = .unchecked → l.start ≤ s.tick + 256 →
      let free := (∀ k ∈ x.cores l.q.pkg, s.coreFree k = true ∧ ((s.getDie k.dieKey).slot k.core).gangs.head? = some l.lid)
        ∧ (x.cores l.q.pkg).length = x.pending.length
      (¬ free → exec .gangReadyCheck s = .next (s.setLaunch (l.setShare { x with check := .sent })))
      ∧ (free → ∃ t, exec .gangReadyCheck s = .next t ∧ t.launches = (s.setLaunch (l.setShare { x with check := .ready })).launches
          ∧ (s.Sound → (x.cores l.q.pkg).Pairwise (fun a b => codePA a + 2 ^ 17 ≤ codePA b ∨ codePA b + 2 ^ 17 ≤ codePA a) →
            l.image.code.length ≤ 2 ^ 17 →
            ∀ k ∈ x.cores l.q.pkg, (s.getDie k.dieKey).handler = none → ∀ i < l.image.code.length, t.byte (codePA k + i) = l.image.code.getD i 0)))
    ∧ (l.share s.place.core.die = some x → x.check = .sent →
      exec .gangNotReady s = .next (s.setLaunch { (l.setShare { x with check := .told }) with notReady := true }))
    ∧ (((l.notReady = true ∨ ∃ y ∈ l.shares, y.check ≠ .ready) ∧ l.start ≤ s.tick + 128) ∨ l.start < s.tick →
      exec .gangDefer s = .next (s.setLaunch { l with
        start := l.start + 4096, notReady := false, shares := l.shares.map (fun x => { x with check := .unchecked }) }))
    ∧ (l.notReady = false → l.start ≤ s.tick + 128 → s.tick ≤ l.start → (∀ y ∈ l.shares, y.check = .ready) →
      ¬ (l.lpb.abort = true ∧ s.queueOver l.q = true) →
      ∃ t, exec .gangStart s = .next t ∧ (∃ u, t.launch l.lid = some u ∧ u.begun = true)
        ∧ (let keys := fun (y : DieShare) => y.pending.filterMap (fun p => y.bind[p.1]?.map (fun c => (⟨l.q.pkg, y.die, c⟩ : CoreKey)))
          s.Keyed → (l.shares.flatMap keys).Nodup → ∀ y ∈ l.shares, ∀ p ∈ y.pending, ∀ c, y.bind[p.1]? = some c →
          let k : CoreKey := ⟨l.q.pkg, y.die, c⟩
          let u := t.select k
          let first := cycleEndAfter u.coreStep u.core.clock
          u.core.phase = .running ∧ u.core.pc = BitVec.ofNat 17 l.image.entry
            ∧ (∃ w, u.core.task = some w ∧ w.tid = BitVec.ofNat 32 p.2 ∧ w.lid = l.lid ∧ w.gang = true)
            ∧ l.start * 504 ≤ first
            ∧ (s.ring.pace.step = 0 → s.ring.pace.old = 0 → (∀ e, (s.getDie e).localStep = 0) → (∀ e, (s.getCore e).clk = 0) →
              first / 504 = l.start))))
  ∧ (∀ s : State, s.Keyed → s.fusedOff s.place.core = false →
    let k := s.place.core
    ((s.getCore k).phase = .free → ∃ t, exec .coreFuse s = .next t ∧ t.fusedOff k = true ∧ s.sameMemory t)
    ∧ ((s.getCore k).phase = .running → s.place.n ≠ 1 → (askStop .fuse (s.getCore k)).stop ≠ (s.getCore k).stop →
      exec .coreFuse s = .next (s.setCore { s.getCore k with stop := some .fuse }))
    ∧ ((s.getCore k).phase = .running → s.place.n = 1 → s.core.key = k →
      (s.core.precise → exec .coreFuse s = .next ((takeFault { code := 32, engine := 4 } s.atBoundary).select k))
      ∧ (s.core.vectorIdle = false → ∃ t, exec .coreFuse s = .next t ∧ t.core.trap = some { code := 32, engine := 4 })))

/-! ### The track and the ring (R115, R120 to R149, R429) -/

/-- A track port (R120 to R126, R140): a flit with a good CRC and the next sequence number is accepted and the port expects the one after;
any other is dropped and its replay asked for. The payload of an accepted shard flit stands in the carousel at the shard's base plus OFFSET, and no
other byte changes (R122, R128); a shard's first flit takes its place at the head. Replay requests, probes and echoes are acted on: half the time
between a probe and its echo is the hop's latency (entry 16), which sets the die's dwell (R125); a link fails after 16 resends of a
flit or 1,024 link cycles of silence, and the die then requests a ring stall, unless it has one of its own pending (R136, R141). In its next
link cycle a port sends one flit, in the next sequence number unless it resends; a downstream port yields to a departure that is due. The
shard whose turn it is, with its deadline reached, no stall due and nothing to resend, begins to leave, with its lateness in LATE; from a die in
transit at the start of a slot (R143). -/
def Obligations.TrackPortsCarryFlits : Prop :=
  ∀ (s : State) (up : Bool) (f : Flit) (q : BitVec 32), s.Keyed →
    let k := s.place.core.dieKey
    let d := s.getDie k
    let p := d.port up
    let after := fun (t : State) => (t.getDie k).port up
    let fails := fun (t : State) => (after t).failed = true ∧ (d.ownStall = none → (s.tick + d.stlead) ∈ (t.getDie k).stallReq)
    ((f.crc = f.goodCrc ∧ f.seq = p.rxSeq + 1) → ∃ t, exec (.flitReceive up f) s = .next t ∧ (after t).rxSeq = f.seq ∧ (after t).lastRx = s.linkCycle)
    ∧ (up = true → f.crc = f.goodCrc → f.seq = p.rxSeq + 1 → f.isShard = true → f.ctrl = false → f.idle = false → f.hole = false → s.Sound →
      s.carried k = false → d.upsrc ≠ 3 → k ∉ s.ring.failedDies → d.enabled = true → 480 ≤ d.size →
      let x := match d.shards.find? (fun x => x.tag == f.tag && !x.complete) with
        | some x => x
        | none => (s.newShard d f.tag f.shbytes.toNat f.late.toNat f.reinj).2
      let n := min f.len.toNat 480
      ∃ t, exec (.flitReceive true f) s = .next t ∧ (∀ j < n, t.byte (x.pa d.size (f.offset.toNat + j)) = f.body.getD j 0)
        ∧ ∀ a, (∀ j < n, a ≠ x.pa d.size (f.offset.toNat + j)) → t.byte a = s.byte a)
    ∧ (¬ (f.crc = f.goodCrc ∧ f.seq = p.rxSeq + 1) →
      exec (.flitReceive up f) s = .next (s.setDie (d.setPort up { p with queue := p.queue ++ [(Flit.ctrlOne 1 (p.rxSeq + 1), none)] })))
    ∧ ((1, q) ∈ p.ctrl → ∃ t, exec (.flitReplay up q) s = .next t ∧ (after t).resend = (p.sent.filter (fun f => decide ((f.seq - q).toNat < 2 ^ 31))).map (·.seq)
      ∧ s.sameMemory t)
    ∧ ((∃ e ∈ p.ctrl, e.1 = 2) → ∃ t, exec (.latencyProbe up) s = .next t ∧ (after t).queue = p.queue ++ [(Flit.ctrlOne 3 0, none)] ∧ s.sameMemory t)
    ∧ ((∃ e ∈ p.ctrl, e.1 = 3) → ∃ t, exec (.probeEcho up) s = .next t ∧ (after t).probeAt = none ∧ s.sameMemory t
        ∧ ∀ n, p.probeAt = some n → (after t).latency = (s.linkCycle - n) / 2
          ∧ (up = false → s.ring.failedPkgs = [] → s.ring.failedDies = [] → d.key.pkg < s.modules → d.key.die < 8 →
            let first := s.getDie ⟨s.bridge, 0⟩
            let rot := first.seg * (first.fps + first.svc)
            (t.getDie d.key).dwell = (rot / s.modules - (s.linkCycle - n) / 2
              + (if d.key.pkg = s.bridge then rot % s.modules else 0)) % 2 ^ 32))
    ∧ (p.failed = false → (∃ e ∈ p.tries, 16 ≤ e.2) → ∃ t, exec (.linkFailResends up) s = .next t ∧ fails t)
    ∧ (p.failed = false → p.lastRx + 1024 ≤ s.linkCycle → ∃ t, exec (.linkFailSilence up) s = .next t ∧ fails t)
    ∧ (d.sendCycle up ≤ s.linkCycle → (up = true ∨ s.departureDue d = none) →
      ∃ e, exec (.flitSend up) s = .next (s.setDie e) ∧ e.key = d.key ∧ (e.port up).rxSeq = p.rxSeq
        ∧ ((e.port up).txSeq = p.txSeq + 1 ∨ (p.resend ≠ [] ∧ (e.port up).txSeq = p.txSeq)))
    ∧ (let c := d.sendCycle false
       let n := s.ring.pace.paced c
       ∀ x i, d.nextToLeave = some x → x.nextFlit = some i → x.sent = [] → c ≤ s.linkCycle → x.deadline ≤ n → s.ring.pace.isPaced c = true →
        d.stallUntil = none → d.stallDue c = false → s.resendDue d false = none → s.shardsMove d = true → d.enabled = true →
        (d.transit = true → d.slotStart n = true) → ∃ e g, exec .shardDeparture s = .next (s.setDie e) ∧ e.slotFrom = some n ∧ e.down.txSeq = d.down.txSeq + 1
          ∧ e.down.sent.getLast? = some g ∧ g.seq = d.down.txSeq ∧ g.tag = x.tag ∧ g.first = (i == 0) ∧ g.crc = g.goodCrc
          ∧ g.late = BitVec.ofNat 24 (min (n - x.deadline) (2 ^ 24 - 1)))

/-- The needs `ms` (slot and registration) are missed on a die that was d and is e (R135): of each MISSED is set and MISSES counts one more, at most
to 31; no other slot changes; RSTAT.MISSES counts them all. -/
def Sys2Proof.Machine.needsMissed (d e : Die) (ms : List (Nat × Nat)) : Prop :=
  (∀ i ∈ ms, let w := sget 0 d.need i.1
    sget 0 e.need i.1 = putBits (w ||| BitVec.ofNat 64 (2 ^ 61)) 60 56 (min (bits w.toNat 60 56 + 1) 31))
  ∧ (∀ n, n ∉ ms.map (·.1) → sget 0 e.need n = sget 0 d.need n)
  ∧ bits e.rstat.toNat 31 0 = (bits d.rstat.toNat 31 0 + ms.length) % 2 ^ 32

/-- Batches and streams (R51, R115, R129 to R135): a complete shard forms its batches once: the valid needs of its tag whose requests are active, but
for those registered in the same core cycle (R52), in ascending order of request, cut into runs of BATCH, of which only the last may be shorter;
without a bound kernel nothing starts and nothing is missed, and without a matching tag-table entry every need is missed. A queued batch that may
start takes the lowest idle ring core, at the tag's entry point, in a stream that pins the shard and clears the needs to be met once; without
an idle core a flow task is asked to make room. At its deadline a shard's batches that have not started are dropped and their needs are missed,
with a miss record where the log is on. -/
def Obligations.BatchesFormAndStreamsStart : Prop :=
  ∀ s : State, s.Keyed →
    let k := s.place.core.dieKey
    let d := s.getDie k
    (∀ x, d.shards.find? (fun x => x.complete && !x.formed) = some x → s.ring.restarting = false →
      let step := max s.podStep d.localStep
      let needs := d.matching x.tag step s.now
      (needs.map (·.2.req)).Pairwise (· ≤ ·)
      ∧ (∀ i r, (i, r) ∈ needs ↔ ∃ w, (i, w) ∈ d.need ∧ needValid w = true ∧ needTag w = x.tag.toNat
          ∧ d.reqs.find? (fun r => r.req = needReq w ∧ r.state = 0) = some r
          ∧ (aget d.regs i = none ∨ cycleAt step (d.regOf i).2 < cycleAt step s.now))
      ∧ ∃ t, exec .batchFormation s = .next t ∧ (∃ y ∈ (t.getDie k).shards, y.id = x.id)
        ∧ (∀ y ∈ (t.getDie k).shards, y.id = x.id → y.formed = true)
        ∧ (d.binding.bind (fun _ => x.bound) = none → s.sameMemory t ∧ needsMissed d (t.getDie k) []
          ∧ ∀ y ∈ (t.getDie k).shards, y.id = x.id → y.batches = x.batches)
        ∧ ∀ b, d.binding.bind (fun _ => x.bound) = some b →
          (b.image.tags.find? (fun t => x.tag &&& t.mask = t.value) = none → swf 0 d.need = true →
            needsMissed d (t.getDie k) (needs.map (fun z => (z.1, (d.regOf z.1).1))))
          ∧ ∀ e, b.image.tags.find? (fun t => x.tag &&& t.mask = t.value) = some e →
            let n := max (if e.batch = 0 then b.image.maxbatch else e.batch) 1
            needsMissed d (t.getDie k) []
            ∧ ∀ y ∈ (t.getDie k).shards, y.id = x.id → y.batches.flatMap (·.entries) = needs.map d.batchEntry
              ∧ y.batches.map (·.num) = List.range y.batches.length
              ∧ (∀ z ∈ y.batches, z.tag = e ∧ z.entries ≠ [] ∧ z.entries.length ≤ n)
              ∧ ∀ z ∈ y.batches.dropLast, z.entries.length = n)
    ∧ (let r := s.refusals d
       let u := s.setDie r
       (∀ x b c bd, r.queued.find? (u.batchReady r) = some (x, b) → u.idleRingCore k = some c → x.bound = some bd →
        ∃ t, exec .streamStart s = .next t ∧ (t.getCore c).phase = .running ∧ (t.getCore c).pc = BitVec.ofNat 17 b.tag.entry
          ∧ (∃ w, (t.getCore c).task = some w ∧ w.stream = true ∧ w.shard = x.id ∧ w.batch = b.entries ∧ w.pinned = true ∧ w.tid = streamId x b.num)
          ∧ (∃ y ∈ (t.getDie k).shards, y.id = x.id ∧ y.pins = x.pins + 1)
          ∧ (swf 0 d.need = true → ∀ i ∈ b.needs, d.stillNeeds i = true →
            sget 0 (t.getDie k).need i.1 = if needOnce (sget 0 d.need i.1) = true then 0 else sget 0 d.need i.1))
       ∧ (∀ e c, r.queued.find? (u.batchReady r) = some e → u.idleRingCore k = none →
          u.displaceable k (r.queued.filter (u.batchReady r)).length = some c →
          exec .streamStart s = .next (u.setCore { u.getCore c with stop := some .displace }))
       ∧ (r.queued.find? (u.batchReady r) = none → r ≠ d → exec .streamStart s = .next u))
    ∧ (let r := s.refusals d
       ∀ x, r.shards.find? (fun x => decide (x.deadline ≤ s.pacedNow) && !x.batches.isEmpty) = some x →
        let ms := (x.batches.flatMap (·.needs)).filter d.stillNeeds
        ∃ t, exec .departureDeadline s = .next t ∧ (∀ y ∈ (t.getDie k).shards, y.id = x.id → y.batches = [])
          ∧ (swf 0 d.need = true → (ms.map (·.1)).Nodup → needsMissed d (t.getDie k) ms)
          ∧ (bits d.misslog.toNat 63 60 < 4 → s.sameMemory t)
          ∧ ∀ b i, x.batches = [b] → b.needs = [i] → d.stillNeeds i = true → 4 ≤ bits d.misslog.toNat 63 60 → s.Sound →
            let va := bits d.misslog.toNat 55 4 * 16 + 16 * (bits d.rstat.toNat 31 0 % 2 ^ bits d.misslog.toNat 63 60)
            t.num (s.diePA d va) 8 = (if b.refused = true then 2 else 1) * 2 ^ 48 + needReq (sget 0 d.need i.1) * 2 ^ 32 + x.tag.toNat
              ∧ t.num (s.diePA d va + 8) 8 = s.tickOfPaced x.deadline % 2 ^ 64)

/-- Stalls, steps, repair, injection and restart of the ring (R136 to R149, R429). A die notes the stall ticks announced, each once (entry 108); at
Ts, with no departure under way that its port can still send, its stall begins, and deadlines not yet reached at Ts move by STALLQ; a request
is pending until then (entry 64); it ends STALLQ paced link cycles later, and a die with a failed link then requests the next one. A pod step takes
effect from the next group of eight link cycles. The coordinator announces a classified failure for the tick 2^18 ahead, the earliest that R142
allows (entry 117), or the ring is down; at that tick the dead die's track is carried by its partner, or the dead module is passed by at
its neighbours, the dies take the new dwells and the new nominal residency, and the module's requests are lost. A segment enters the hole slots that
are arriving at all eight dies of the bridge module, and counts from their beginning; a lost one fills slots that are about to leave it.
A restart waits for the streams to retire; a second command meanwhile is refused. -/
def Obligations.RingStallsStepsAndRepairs : Prop :=
  ∀ s : State, s.Keyed →
    let k := s.place.core.dieKey
    let d := s.getDie k
    (∀ ts, ts ∈ s.ring.stalls → ts ∉ d.stallReq → s.tick < ts →
      exec (.ringStall ts) s = .next (s.setDie { d with stallReq := d.stallReq ++ [ts] }))
    ∧ (∀ ts, d.stallReq.find? (fun t => t ≤ s.tick) = some ts → d.stallUntil = none → s.departing d = false →
      ∃ e, exec .ringStallBegin s = .next (s.setDie e) ∧ e.stallUntil = some (s.pacedNow + d.stallq) ∧ e.stallReq = d.stallReq.erase ts
        ∧ e.shards = d.shards.map (fun x => if s.ring.pace.paced (8 * ts) ≤ x.deadline then { x with deadline := x.deadline + d.stallq } else x)
        ∧ (d.ownStall = some ts → e.ownStall = none) ∧ bits e.rstat.toNat 63 32 = (bits d.rstat.toNat 63 32 + 1) % 2 ^ 32)
    ∧ (∀ u, d.stallUntil = some u → u ≤ s.pacedNow → s.ring.downNow = false →
      (d.up.failed = false → d.down.failed = false → exec .ringStallEnd s = .next (s.setDie { d with stallUntil := none }))
      ∧ (d.up.failed = true ∨ d.down.failed = true →
        exec .ringStallEnd s = .next ((s.setDie { d with stallUntil := none }).requestStall k)))
    ∧ (∀ n : Fin 5, s.ring.stepAt = none ∨ (∃ t, s.ring.stepAt = some (t, n.val) ∧ t ≤ s.tick) →
      ∃ t, exec (.podStep n) s = .next t ∧ t.ring.stepAt = none ∧ s.sameMemory t
        ∧ t.ring.pace = s.ring.pace.change n.val (match s.ring.stepAt with | some (a, _) => 8 * a | none => s.linkCycle))
    ∧ (∀ f, s.ring.repair = none → s.ring.downNow = false → s.classified f = true →
      (s.beyondRepair f = false → ∃ t r, exec (.repairReport f) s = .next t ∧ t.ring.repair = some r ∧ r.kind = f ∧ r.tick = s.tick + 262144
          ∧ r.dwells = s.newDwells f)
      ∧ (s.beyondRepair f = true → ∃ t, exec (.repairReport f) s = .next t ∧ t.ring.downNow = true ∧ t.ring.repair = none))
    ∧ (∀ r, s.ring.repair = some r → (∃ n < 8, (s.getDie ⟨s.place.core.pkg, n⟩).repair ≠ some r) →
      ∃ t, exec (.repairAnnouncement r) s = .next t ∧ ∀ n < 8, (t.getDie ⟨s.place.core.pkg, n⟩).repair = some r)
    ∧ (∀ r, s.ring.repair = some r → r.tick ≤ s.tick →
      let u : State := { s with ring := s.ring.fail r.kind }
      ∃ t, exec .repairTick s = .next t ∧ t.ring.repair = none
        ∧ (∀ p e, r.kind = .dieFail p e → ⟨p, e⟩ ∈ t.ring.failedDies ∧ (t.getDie ⟨p, e⟩).upsrc = 3 ∧ (t.getDie ⟨p, e⟩).dndst = 3
            ∧ (t.getDie ⟨p, e ^^^ 1⟩).carries = true)
        ∧ (∀ p, r.kind = .moduleFail p → p ∈ t.ring.failedPkgs
            ∧ ∀ e < 8, (t.getDie ⟨u.before p, e⟩).dndst = 2 ∧ (t.getDie ⟨u.after p, e⟩).upsrc = 2)
        ∧ ((r.dwells.map (·.1)).Nodup → ∀ x ∈ r.dwells, (t.getDie x.1).dwell = x.2.toNat)
        ∧ (∀ e x, aget s.dies e = some x → (t.getDie e).nom = t.newNom % 2 ^ 12)
        ∧ ∀ e < 8, (t.getDie ⟨r.kind.pkg, e⟩).reqs = (s.getDie ⟨r.kind.pkg, e⟩).reqs.map (fun q => { q with state := 2 }))
    ∧ (s.ring.next < s.segments → (s.segment s.ring.next).1 ≠ 0 →
      (∀ e ∈ s.bridgeDies, (s.getDie e).enabled = true ∧ (s.openHole (s.getDie e)).isSome = true) → s.ring.restarting = false →
      ∃ t, exec .ringInject s = .next t ∧ t.ring.next = s.ring.next + 1
        ∧ ∀ e ∈ s.bridgeDies, ∀ n, s.openHole (s.getDie e) = some n → n ≤ s.pacedNow →
          (t.getDie e).holeAt = none ∧ ∃ x ∈ (t.getDie e).shards, x.tag = (s.segment s.ring.next).1 ∧ x.bytes = (s.segment s.ring.next).2.1
            ∧ x.complete = true ∧ x.formed = false ∧ x.arrival = n ∧ x.deadline = n + (s.getDie e).dwellAt n)
    ∧ (∀ e r, s.ring.lost = e :: r → (∀ b ∈ s.bridgeDies, let x := s.getDie b
          let n := s.ring.pace.paced (x.sendCycle false)
          x.enabled = true ∧ x.slotStart n = true ∧ ∀ y ∈ x.shards, y.gone = true ∨ (y.sent = [] ∧ n < y.deadline)) →
      ∃ t, exec .reinjection s = .next t ∧ t.ring.lost = r
        ∧ ∀ b ∈ s.bridgeDies, ∃ x ∈ (t.getDie b).shards, x.tag = e.1 ∧ x.bytes = e.2.1 ∧ x.complete = true ∧ x.formed = true ∧ x.reinj = true
          ∧ x.deadline = s.pacedNow)
    ∧ (s.place.n ≠ 1 → s.managed s.place.core.pkg = true →
      (s.ring.restarting = false → s.ring.downNow = true → ∃ t, exec .ringRestart s = .next t ∧ t.ring.restarting = true
        ∧ (t.getPkg s.place.core.pkg).status = .done)
      ∧ (s.ring.restarting = true ∨ s.ring.downNow = false →
        exec .ringRestart s = .next (s.setPkg { s.getPkg s.place.core.pkg with status := .refused })))
    ∧ (s.place.n = 1 → s.ring.restarting = true → s.streamsRetired = true →
      ∃ t, exec .ringRestart s = .next t ∧ t.ring.restarting = false ∧ t.ring.downNow = false ∧ t.ring.next = 0 ∧ t.ring.lost = []
        ∧ t.ring.failedDies = [] ∧ t.ring.failedPkgs = s.ring.failedPkgs.filter (fun p => !s.fabricUp p) ∧ ∀ e, (t.getDie e).shards = [])

/-! ### Interruptions, the host and management (R332, R395, R396, R400, R405, R414 to R428) -/

/-- The watchdog's fault and the abort of a domain's member are taken at the word boundary, once the earlier vector words are done (R397, R400,
R405). A local clock step is set on the die: a slower clock for a junction temperature of 95 °C or a power limit (R427); a fixed-mode core that has
not taken it for 4,096 core cycles asks for a stall cycle of its domain, in which the timetable time stands and it takes the step (R395, entry 49).
Where a module's power exceeds its limit, the power policy raises the pod step by one at the next tick (R138, R427, entry 50). A die at step 4
that reaches 110 °C is stopped: its running tasks end, and its saved tasks are lost (R396, entry 51). A corrected soft error is counted, and reported
at most once in 2^30 ticks (R416). -/
def Obligations.InterruptionsTakeEffect : Prop :=
  ∀ s : State,
    let c := s.place.core
    let d := s.getDie c.dieKey
    let taken := fun (i : Instr) (f : FaultInfo) => (s.core.precise → exec i s = .next (takeFault f s.atBoundary))
      ∧ (s.core.vectorIdle = false → exec i s = .next (s.atBoundary.withCore { s.atBoundary.core with trap := some f }))
    (∀ k, s.core.task = some k → s.core.phase = .running → k.safegap < s.core.watch → taken .safeGap { code := 27, engine := 4, detail := k.safegap })
    ∧ (∀ t, s.core.phase = .running → s.core.abortTid = some t → taken (.domainAbort t) { code := 29, engine := 4, detail := t.toNat })
    ∧ (∀ (k : Fin 5) (n : Nat), d.localStep < k.val → n < 9500 → s.place.n ≠ 1 → exec (.localClockStep k n) s = .next { s with skipped := true })
    ∧ (∀ (k : Fin 5) (n : Nat), s.Keyed → k.val ≤ d.localStep ∨ 9500 ≤ n ∨ s.place.n = 1 → ∃ t, exec (.localClockStep k n) s = .next t ∧ (t.getDie c.dieKey).localStep = k.val
        ∧ (t.getDie c.dieKey).centi = n ∧ t.core = s.core ∧ s.sameMemory t)
    ∧ (s.core.phase = .running → s.core.fixed = true → s.core.clk ≠ s.ownDie.localStep → 4096 ≤ s.core.stepAge → s.core.slow = false →
      exec .forcedStallCycle s = .next (s.withCore { s.core with slow := true })
        ∧ (s.withCore { s.core with slow := true }).delayDue exec = true)
    ∧ (let u := (s.withCore { s.core with clk := s.ownDie.localStep, slow := false }).passTime
       u.core.tau = s.core.tau ∧ u.core.clk = s.ownDie.localStep ∧ s.core.clock < u.core.clock ∧ (u.stallStep exec = none → s.stallCycle exec = u))
    ∧ (let p := s.getPkg c.pkg
       (s.place.n ≤ p.limit → exec .powerLimitExceeded s = .next { s with skipped := true })
       ∧ (p.limit < s.place.n → exec .powerLimitExceeded s = .next { s with ring := { s.ring with
          stepAt := some (s.tick + 1, min 4 ((match s.ring.stepAt with | some x => x.2 | none => s.podStep) + 1)) } }))
    ∧ (∀ n, 11000 ≤ n → max d.localStep s.podStep = 4 → d.halted = false → s.Keyed →
      ∃ t, exec (.thermalShutdown n) s = .next t ∧ (t.getDie c.dieKey).halted = true ∧ (t.getDie c.dieKey).saved = [] ∧ s.sameMemory t
        ∧ ∀ j : CoreKey, j.dieKey = c.dieKey → j.core < 96 → (s.getCore j).task.isSome = true → (s.getCore j).phase = .running →
          (s.getCore j).vectorIdle = true → (t.getCore j).phase = .ending .fault)
    ∧ (∀ m : Fin 5, ∃ t, exec (.softError m) s = .next t ∧ s.sameMemory t ∧ t.core = s.core
        ∧ (s.Keyed → d.soft = [] → (t.getDie c.dieKey).soft = [(m.val, 0, s.tick)])
        ∧ (∀ n a, s.Keyed → d.soft = [(m.val, n, a)] → s.tick < a + 2 ^ 30 → (t.getDie c.dieKey).soft = [(m.val, n + 1, a)]))

/-- The host (R414 to R417, R426): the bridge module's active complex puts an event into the queue once it has room, W1 to W7 and then W0 with its lap code, and WRIDX counts it; an
OVERFLOW event goes first. Reads, posted writes, additions and compare-and-swaps reach die scratchpad of a package present, through port 0 of
the bridge module and beyond it through the fabric, and are aborted without effect elsewhere; an atomic that is not aligned is aborted (entry 67). The
fabric ports of a package go and return, one or both (R25, R332, entry 60). The test port answers only while its strap is set; EXTEST only in reset. -/
def Obligations.HostReachesTheDevice : Prop :=
  ∀ s : State,
    let n := s.place.core.pkg
    let p := s.getPkg n
    (∀ pa e r, s.managed s.bridge = true → s.eventq.desc = some pa → s.eventq.buffer = e :: r → s.eqRoom pa = true → s.eventq.overflow = false →
      s.Sound →
      let i := s.eqIndex pa
      let slot := bits (s.num pa 8) 55 0 + 64 * (i % 2 ^ s.eqLog2s pa)
      ∃ t, exec .eventPost s = .next t ∧ t.eventq.buffer = r ∧ t.eventq.desc = some pa ∧ t.num (pa + 16) 8 = (i + 1) % 2 ^ 64
        ∧ (slot + 64 ≤ pa ∨ pa + 32 ≤ slot → t.num slot 8 = (putBits (e.get 0) 7 0 (lapCode (s.eqLog2s pa) i)).toNat
            ∧ ∀ j : Fin 8, j ≠ 0 → t.num (slot + 8 * j.val) 8 = (e.get j).toNat))
    ∧ (∀ pa, s.managed s.bridge = true → s.eventq.desc = some pa → s.eqRoom pa = true → s.eventq.overflow = true →
      ∃ t, exec .overflow s = .next t ∧ t.eventq.overflow = false ∧ t.eventq.buffer = s.eventq.buffer)
    ∧ (∀ pa m, s.hostServes pa m = true ↔ validPA pa = true ∧ paSpace pa = 0 ∧ 1 ≤ m ∧ paOff pa + m ≤ 2560 * 2 ^ 20 ∧ s.present (paPkg pa) = true
        ∧ s.hostUp = true ∧ (paPkg pa = s.bridge ∨ (s.fabricUp s.bridge = true ∧ s.fabricUp (paPkg pa) = true)))
    ∧ (∀ (a : BitVec 56) (m : Nat), s.hostServes a.toNat m = true →
      exec (.hostRead a m) s = .next { s with hostReply := .data ((List.range m).map (fun i => s.readByte (a.toNat + i))) })
    ∧ (∀ (a : BitVec 56) (bs : List Byte), s.hostServes a.toNat bs.length = true →
      ∃ t, exec (.hostPostedWrite a bs) s = .next t ∧ t = { s.write a.toNat bs with queues := t.queues, hostReply := .done }
        ∧ ((∀ e ∈ s.queues, e.2.part = []) → t.queues = s.queues))
    ∧ (∀ (a : BitVec 56) (v w : Word),
      (a.toNat % 8 = 0 → s.hostServes a.toNat 8 = true →
        exec (.hostFetchadd a v) s = .next { s.writeWord a.toNat (s.word a.toNat + v) with hostReply := .data (toBytes 8 (s.word a.toNat).toNat) }
        ∧ exec (.hostCompareAndSwap a v w) s = .next { s.writeWord a.toNat (if s.word a.toNat = v then w else s.word a.toNat) with
          hostReply := .data (toBytes 8 (s.word a.toNat).toNat) })
      ∧ (a.toNat % 8 ≠ 0 ∨ s.hostServes a.toNat 8 = false → exec (.hostFetchadd a v) s = .next { s with hostReply := .abort }
        ∧ exec (.hostCompareAndSwap a v w) s = .next { s with hostReply := .abort }))
    ∧ (∀ (a : BitVec 56) (m : Nat), s.hostServes a.toNat m = false → exec (.hostRead a m) s = .next { s with hostReply := .abort })
    ∧ (∀ (a : BitVec 56) (bs : List Byte), s.hostServes a.toNat bs.length = false →
      exec (.hostPostedWrite a bs) s = .next { s with hostReply := .abort })
    ∧ (let ports := fun (on : Bool) => s.setPkg { p with
         port0 := if s.place.n = 2 then p.port0 else on, port1 := if s.place.n = 1 then p.port1 else on }
       exec .fabricPortLoss s = .next (ports false) ∧ exec .fabricPortReturn s = .next (ports true))
    ∧ (∀ b, exec (.testEnableStrap b) s = .next (s.setPkg { p with tapen := b }))
    ∧ (p.tapen = true → exec .bypass s = .next (s.setPkg { p with tapIr := .bypass, tapDr := 0 })
      ∧ (∃ v, exec .samplePreload s = .next (s.setPkg { p with tapIr := .samplePreload, tapDr := v, samples := p.samples + 1 }))
      ∧ (p.inReset = true → ∃ v, exec .extest s = .next (s.setPkg { p with tapIr := .extest, tapDr := v, samples := p.samples + 1 }))
      ∧ (p.inReset = false → exec .extest s = .next (s.setPkg p))
      ∧ (∃ v, exec .idcode s = .next (s.setPkg { p with tapIr := .idcode, tapDr := v }) ∧ v.getLsbD 0 = true))
    ∧ (p.tapen = false → ∀ i ∈ [Instr.bypass, .samplePreload, .extest, .idcode], exec i s = .next s)

/-- Management (R414, R419 to R428), on a package that is up: a heartbeat copies the state table's version; the standby takes over after four
missed ones, with cause 1, of an update under way in its new image; or for an update, where no repair is pending; while the active complex is at work,
commands complete, or are refused by their rules and change nothing else (SET_EVENTQ elsewhere than on the bridge module: entry 66; an update
answers once its image is accepted: entry 69); attestation answers with the report of Table 16.4 and its XMSS signature (entry 116), and counts
its index. RESET_PACKAGE clears the package's memory, cores and dies, and leaves its fuses and indices; bring-up then leaves it reachable,
with its carousels enabled and its handlers set, where an image boots and no other step fails (entry 60). A power-on reset holds the package in
reset until the next one ends it; a loss of power may skip a signature index (entry 60) and never goes back; a warm reset of a die leaves
memory (R14). -/
def Obligations.ManagementCommandsComplete : Prop :=
  ∀ s : State, s.Keyed →
    let n := s.place.core.pkg
    let p := s.getPkg n
    let refused := s.setPkg { p with status := .refused }
    (p.up = true →
      (4 ≤ s.beatsMissed n → ∃ t, exec .takeover s = .next t ∧ (t.getPkg n).activeB = !p.activeB ∧ (t.getPkg n).beatAt = s.tick
        ∧ (t.getPkg n).updating = none ∧ (∀ f, p.updating = some f → (t.getPkg n).active.firmware = some f)
        ∧ ((∀ i < 8, (s.getDie ⟨n, i⟩).events = []) → s.eventq.buffer.length < 4096 →
          t.eventq.buffer = s.eventq.buffer ++ [eventRecord 9 ⟨n, 0, 0⟩ s.tick
            [if p.activeB = true then 0 else 1, BitVec.ofNat 64 (t.getPkg n).active.stateVer, 1]]))
      ∧ (∀ f, p.updating = some f → s.beatsMissed n < 4 → s.ring.repair = none → ∃ t, exec .takeover s = .next t ∧ (t.getPkg n).activeB = !p.activeB
        ∧ (t.getPkg n).active.firmware = some f ∧ (t.getPkg n).active.stateVer = p.active.stateVer ∧ (t.getPkg n).updating = none))
    ∧ (p.up = true → s.beatsMissed n < 4 → (p.beatAt + 2 ^ 20 ≤ s.tick → exec .heartbeat s = .next (s.setPkg { p with
        a := { p.a with stateVer := p.active.stateVer }, b := { p.b with stateVer := p.active.stateVer }, beatAt := s.tick }))
    ∧ (∀ a : BitVec 56, n = s.bridge → validPA a.toNat = true → paSpace a.toNat = 4 →
        ∃ t, exec (.setEventq a) s = .next t ∧ t.eventq = { s.eventq with desc := some a.toNat, lost := 0 } ∧ (t.getPkg n).status = .done)
    ∧ (∀ a : BitVec 56, n ≠ s.bridge ∨ validPA a.toNat = false ∨ paSpace a.toNat ≠ 4 → exec (.setEventq a) s = .next refused)
    ∧ (∀ w, 1600 ≤ w → w ≤ 3200 → w % 100 = 0 → exec (.powerLimit w) s = .next (s.setPkg { p with limit := w, status := .done }))
    ∧ (∀ w, w < 1600 ∨ 3200 < w ∨ w % 100 ≠ 0 → exec (.powerLimit w) s = .next refused)
    ∧ (∀ f, p.updating = none → f.stateLo ≤ p.active.stateVer → p.active.stateVer ≤ f.stateHi →
        exec (.update f) s = .next (if p.accepts f = true then s.setPkg { p with updating := some f, status := .done } else refused))
    ∧ (∀ f, p.accepts f = false ∨ p.updating.isSome = true → exec (.update f) s = .next refused)
    ∧ (∀ f, p.updating = none → p.active.stateVer < f.stateLo ∨ f.stateHi < p.active.stateVer →
        ∃ t, exec (.update f) s = .next t ∧ (t.getPkg n).status = .refused ∧ (t.getPkg n).updating = none)
    ∧ (∀ nonce, nonce.length = 32 → p.active.index < 2 ^ 20 →
        ∃ t, exec (.attest nonce) s = .next t ∧ (t.getPkg n).active.index = p.active.index + 1 ∧ (t.getPkg n).status = .done
          ∧ (t.getPkg n).reply.length = 2980 ∧ ((t.getPkg n).reply.drop 16).take 32 = nonce
          ∧ ofBytes ((t.getPkg n).reply.take 8) = 2 ^ 48 + (if p.activeB = true then 2 ^ 40 else 0) + n % 128 * 2 ^ 33
              + (if p.tapen = true then 2 ^ 32 else 0) + p.active.index
          ∧ ((t.getPkg n).reply.drop 48).take 32 = shake256 p.running
          ∧ ofBytes (((t.getPkg n).reply.drop 144).take 8) = p.active.stateVer % 2 ^ 32 * 2 ^ 32 + p.minRollback % 2 ^ 32
          ∧ (t.getPkg n).reply.drop 160 = (identityKey n p.activeB).sign p.active.index ((t.getPkg n).reply.take 160))
    ∧ (∀ nonce, nonce.length = 32 → 2 ^ 20 ≤ p.active.index → exec (.attest nonce) s = .next (s.setPkg { p with status := .keyExhausted }))
    ∧ (∀ nonce, nonce.length ≠ 32 → exec (.attest nonce) s = .next refused)
    ∧ (∃ t, exec .resetPackage s = .next t ∧ (∀ a, paPkg a = n → t.byte a = 0) ∧ (∀ a, paPkg a ≠ n → t.byte a = s.byte a)
        ∧ (∀ i < 8, ∀ j, t.getCore ⟨n, i, j⟩ = Core.reset ⟨n, i, j⟩) ∧ (t.getPkg n).fused = p.fused ∧ (t.getPkg n).a.index = p.a.index
        ∧ (t.getPkg n).inReset = false ∧ ((t.getPkg n).reachable = true ↔ (p.boots false = true ∨ p.boots true = true) ∧ s.place.n ≠ 1)
        ∧ ((t.getPkg n).reachable = true → ∀ i < 8, (t.getDie ⟨n, i⟩).enabled = true ∧ (t.getDie ⟨n, i⟩).handler = some (Config.handler n i))))
    ∧ (∃ t, exec .powerOnReset s = .next t ∧ (p.inReset = false → (t.getPkg n).inReset = true ∧ ∀ a, paPkg a = n → t.byte a = 0)
        ∧ (p.power = true → p.inReset = true → (t.getPkg n).inReset = false ∧ s.sameMemory t))
    ∧ (∃ t, exec .warmReset s = .next t ∧ s.sameMemory t
        ∧ t.getDie s.place.core.dieKey = (Die.reset s.place.core.dieKey).from_ s.linkCycle
        ∧ ∀ j, t.getCore ⟨n, s.place.core.die, j⟩ = Core.reset ⟨n, s.place.core.die, j⟩)
    ∧ (∃ t, exec .powerLoss s = .next t ∧ (t.getPkg n).power = false ∧ (t.getPkg n).fused = p.fused
        ∧ (∀ b : Bool, let index := fun (q : Package) => if b = true then q.b.index else q.a.index
          index (t.getPkg n) = index p + (if s.place.n = 1 ∧ b = p.activeB then 1 else 0)))
end

