-- ==== Sys2Proof/Laws/Sparse.lean ====
section
/-! SUPPORT. Laws of sparse storage and of finite maps: reading after writing, and the canonical form. -/

namespace Sys2Proof

variable {α : Type} [DecidableEq α] {z : α}

/-- The canonical form holds from any lower key on. -/
theorem swfFrom_mono {l : List (Nat × α)} {a b : Nat} (h : a ≤ b) (w : swfFrom z b l = true) : swfFrom z a l = true := by
  cases l with
  | nil => rfl
  | cons e r =>
    simp only [swfFrom, Bool.and_eq_true, decide_eq_true_eq] at w ⊢
    exact ⟨⟨by omega, w.1.2⟩, w.2⟩

/-- A key below every entry reads as unlisted. -/
theorem sget_of_lt {l : List (Nat × α)} {a i : Nat} (w : swfFrom z a l = true) (h : i < a) : sget z l i = z := by
  induction l generalizing a with
  | nil => rfl
  | cons e r ih =>
    simp only [swfFrom, Bool.and_eq_true, decide_eq_true_eq] at w
    simp only [sget]
    rw [if_neg (by omega)]
    exact ih w.2 (by omega)

/-- Setting a key keeps the canonical form. -/
theorem swfFrom_sput {l : List (Nat × α)} {a i : Nat} (x : α) (w : swfFrom z a l = true) (h : a ≤ i) :
    swfFrom z a (sput z l i x) = true := by
  induction l generalizing a with
  | nil =>
    simp only [sput]
    split <;> simp_all [swfFrom]
  | cons e r ih =>
    obtain ⟨k, v⟩ := e
    simp only [swfFrom, Bool.and_eq_true, decide_eq_true_eq] at w
    simp only [sput]
    split
    · split
      · exact swfFrom_mono (by omega) w.2
      · simp_all [swfFrom]
    · split
      · split
        · simp_all [swfFrom]
        · rename_i h1 h2 h3
          simp only [swfFrom, Bool.and_eq_true, decide_eq_true_eq]
          exact ⟨⟨h, h3⟩, ⟨by omega, w.1.2⟩, w.2⟩
      · simp only [swfFrom, Bool.and_eq_true, decide_eq_true_eq]
        exact ⟨w.1, ih w.2 (by omega)⟩

/-- Setting a key keeps the canonical form of a whole list. -/
theorem swf_sput {l : List (Nat × α)} (i : Nat) (x : α) (w : swf z l = true) : swf z (sput z l i x) = true :=
  swfFrom_sput x w (Nat.zero_le i)

/-- A key that was set reads as set. -/
theorem sget_sput_self {l : List (Nat × α)} {a : Nat} (i : Nat) (x : α) (w : swfFrom z a l = true) : sget z (sput z l i x) i = x := by
  induction l generalizing a with
  | nil =>
    simp only [sput]
    split <;> simp_all [sget]
  | cons e r ih =>
    obtain ⟨k, v⟩ := e
    simp only [swfFrom, Bool.and_eq_true, decide_eq_true_eq] at w
    simp only [sput]
    split
    · rename_i h
      subst h
      split
      · rename_i hx
        rw [hx]
        exact sget_of_lt w.2 (by omega)
      · simp [sget]
    · rename_i hne
      split
      · split
        · rename_i hlt hx
          simp only [sget]
          rw [if_neg hne, hx]
          exact sget_of_lt w.2 (by omega)
        · simp [sget]
      · simp only [sget]
        rw [if_neg hne]
        exact ih w.2

/-- Every other key reads as before. -/
theorem sget_sput_ne {l : List (Nat × α)} {i j : Nat} (x : α) (h : j ≠ i) : sget z (sput z l i x) j = sget z l j := by
  induction l with
  | nil =>
    simp only [sput]
    split <;> simp [sget, h]
  | cons e r ih =>
    obtain ⟨k, v⟩ := e
    simp only [sput]
    split
    · rename_i hk
      split <;> simp [sget, ← hk, h]
    · split
      · split
        · rfl
        · simp [sget, h]
      · simp only [sget, ih]

/-- Reading after writing one key of a canonical list. -/
theorem sget_sput {l : List (Nat × α)} (i j : Nat) (x : α) (w : swf z l = true) :
    sget z (sput z l i x) j = if j = i then x else sget z l j := by
  split
  · rename_i h
    subst h
    exact sget_sput_self _ x w
  · rename_i h
    exact sget_sput_ne x h

/-- Removing entries by key keeps the canonical form. -/
theorem swfFrom_filter {l : List (Nat × α)} {a : Nat} (p : Nat × α → Bool) (w : swfFrom z a l = true) : swfFrom z a (l.filter p) = true := by
  induction l generalizing a with
  | nil => rfl
  | cons e r ih =>
    simp only [swfFrom, Bool.and_eq_true, decide_eq_true_eq] at w
    simp only [List.filter_cons]
    split
    · simp only [swfFrom, Bool.and_eq_true, decide_eq_true_eq]
      exact ⟨w.1, ih w.2⟩
    · exact swfFrom_mono (by omega) (ih w.2)

omit [DecidableEq α] in
/-- A filter on keys keeps the keys that it takes, and every other reads as unlisted. -/
theorem sget_filter (l : List (Nat × α)) (p : Nat → Bool) (i : Nat) :
    sget z (l.filter (fun e => p e.1)) i = if p i then sget z l i else z := by
  induction l with
  | nil => simp [sget]
  | cons e r ih =>
    obtain ⟨k, v⟩ := e
    simp only [List.filter_cons]
    by_cases hk : i = k
    · subst hk
      by_cases hp : p i = true <;> simp_all [sget]
    · by_cases hp : p k = true <;> simp_all [sget]

omit [DecidableEq α] in
/-- Reading n consecutive keys, one by one. -/
theorem sgetList_eq (l : List (Nat × α)) (i n : Nat) : sgetList z l i n = (List.range n).map (fun j => sget z l (i + j)) := by
  induction n generalizing i with
  | zero => rfl
  | succ n ih =>
    simp only [sgetList, ih, List.range_succ_eq_map, List.map_cons, List.map_map, Nat.add_zero, List.cons.injEq, true_and]
    apply List.map_congr_left
    intro j _
    simp only [Function.comp]
    congr 1
    omega

/-! ### Finite maps -/

variable {κ β : Type} [DecidableEq κ]

/-- A finite map reads what was last put. -/
theorem aget_aput (l : List (κ × β)) (k j : κ) (v : β) : aget (aput l k v) j = if j = k then some v else aget l j := by
  induction l with
  | nil => by_cases h : j = k <;> simp [aput, aget, h, eq_comm]
  | cons e r ih =>
    simp only [aget] at ih
    simp only [aput]
    split
    · rename_i h
      by_cases hj : j = k
      · simp [aget, hj]
      · have : e.1 ≠ j := fun x => hj (x ▸ h)
        simp [aget, hj, this, Ne.symm hj]
    · rename_i h
      by_cases he : e.1 = j
      · have : j ≠ k := fun x => h (he.trans x)
        simp [aget, he, this]
      · simp [aget, he, ih]

/-- The key that was put. -/
@[simp] theorem aget_aput_self (l : List (κ × β)) (k : κ) (v : β) : aget (aput l k v) k = some v := by simp [aget_aput]

/-- Putting one key twice keeps the second value. -/
@[simp] theorem aput_aput (l : List (κ × β)) (k : κ) (v w : β) : aput (aput l k v) k w = aput l k w := by
  induction l with
  | nil => simp [aput]
  | cons e r ih =>
    by_cases h : e.1 = k <;> simp [aput, h, ih]

/-- Removing a key. -/
theorem aget_adel (l : List (κ × β)) (k j : κ) : aget (adel l k) j = if j = k then none else aget l j := by
  induction l with
  | nil => simp [adel, aget]
  | cons e r ih =>
    simp only [adel, aget] at ih ⊢
    by_cases h : e.1 = k
    · by_cases hj : j = k
      · simp_all
      · have : e.1 ≠ j := fun x => hj (x ▸ h)
        simp_all
    · by_cases hj : e.1 = j
      · have : j ≠ k := fun x => h (hj.trans x)
        simp_all
      · simp_all

/-- An entry of a changed map is the one put, or was there. -/
theorem mem_aput {l : List (κ × β)} {k : κ} {v : β} {e : κ × β} (h : e ∈ aput l k v) : e = (k, v) ∨ e ∈ l := by
  induction l with
  | nil => simp_all [aput]
  | cons x r ih =>
    simp only [aput] at h
    split at h
    · rcases List.mem_cons.1 h with h | h
      · exact .inl h
      · exact .inr (List.mem_cons_of_mem _ h)
    · rcases List.mem_cons.1 h with h | h
      · exact .inr (h ▸ List.mem_cons_self)
      · exact (ih h).imp_right (List.mem_cons_of_mem _)

/-- What a map answers is one of its entries. -/
theorem mem_of_aget {l : List (κ × β)} {k : κ} {v : β} (h : aget l k = some v) : (k, v) ∈ l := by
  simp only [aget, Option.map_eq_some_iff] at h
  obtain ⟨e, he, rfl⟩ := h
  have := List.find?_some he
  simp only [decide_eq_true_eq] at this
  subst this
  exact List.mem_of_find?_eq_some he

end Sys2Proof
end

