-- ==== Sys2Proof/Laws/State.lean ====
section
/-! SUPPORT. One law for each field of the state after each named update, so that no later proof unfolds a record update. -/

namespace Sys2Proof.Machine

/-! `State.setDie` -/

@[simp] theorem State.setDie_core (s : State) (d : Die) : (s.setDie d).core = s.core := rfl
@[simp] theorem State.setDie_parked (s : State) (d : Die) : (s.setDie d).parked = s.parked := rfl
@[simp] theorem State.setDie_pkgs (s : State) (d : Die) : (s.setDie d).pkgs = s.pkgs := rfl
@[simp] theorem State.setDie_mem (s : State) (d : Die) : (s.setDie d).mem = s.mem := rfl
@[simp] theorem State.setDie_bad (s : State) (d : Die) : (s.setDie d).bad = s.bad := rfl
@[simp] theorem State.setDie_cleanLines (s : State) (d : Die) : (s.setDie d).cleanLines = s.cleanLines := rfl
@[simp] theorem State.setDie_veils (s : State) (d : Die) : (s.setDie d).veils = s.veils := rfl
@[simp] theorem State.setDie_queues (s : State) (d : Die) : (s.setDie d).queues = s.queues := rfl
@[simp] theorem State.setDie_served (s : State) (d : Die) : (s.setDie d).served = s.served := rfl
@[simp] theorem State.setDie_launches (s : State) (d : Die) : (s.setDie d).launches = s.launches := rfl
@[simp] theorem State.setDie_nextLid (s : State) (d : Die) : (s.setDie d).nextLid = s.nextLid := rfl
@[simp] theorem State.setDie_podBars (s : State) (d : Die) : (s.setDie d).podBars = s.podBars := rfl
@[simp] theorem State.setDie_sigs (s : State) (d : Die) : (s.setDie d).sigs = s.sigs := rfl
@[simp] theorem State.setDie_sigHomes (s : State) (d : Die) : (s.setDie d).sigHomes = s.sigHomes := rfl
@[simp] theorem State.setDie_sigSeq (s : State) (d : Die) : (s.setDie d).sigSeq = s.sigSeq := rfl
@[simp] theorem State.setDie_groups (s : State) (d : Die) : (s.setDie d).groups = s.groups := rfl
@[simp] theorem State.setDie_eventq (s : State) (d : Die) : (s.setDie d).eventq = s.eventq := rfl
@[simp] theorem State.setDie_hostReply (s : State) (d : Die) : (s.setDie d).hostReply = s.hostReply := rfl
@[simp] theorem State.setDie_ring (s : State) (d : Die) : (s.setDie d).ring = s.ring := rfl
@[simp] theorem State.setDie_modules (s : State) (d : Die) : (s.setDie d).modules = s.modules := rfl
@[simp] theorem State.setDie_bridge (s : State) (d : Die) : (s.setDie d).bridge = s.bridge := rfl
@[simp] theorem State.setDie_now (s : State) (d : Die) : (s.setDie d).now = s.now := rfl
@[simp] theorem State.setDie_turns (s : State) (d : Die) : (s.setDie d).turns = s.turns := rfl
@[simp] theorem State.setDie_place (s : State) (d : Die) : (s.setDie d).place = s.place := rfl
@[simp] theorem State.setDie_skipped (s : State) (d : Die) : (s.setDie d).skipped = s.skipped := rfl

/-! `State.setPkg` -/

@[simp] theorem State.setPkg_core (s : State) (p : Package) : (s.setPkg p).core = s.core := rfl
@[simp] theorem State.setPkg_parked (s : State) (p : Package) : (s.setPkg p).parked = s.parked := rfl
@[simp] theorem State.setPkg_dies (s : State) (p : Package) : (s.setPkg p).dies = s.dies := rfl
@[simp] theorem State.setPkg_mem (s : State) (p : Package) : (s.setPkg p).mem = s.mem := rfl
@[simp] theorem State.setPkg_bad (s : State) (p : Package) : (s.setPkg p).bad = s.bad := rfl
@[simp] theorem State.setPkg_cleanLines (s : State) (p : Package) : (s.setPkg p).cleanLines = s.cleanLines := rfl
@[simp] theorem State.setPkg_veils (s : State) (p : Package) : (s.setPkg p).veils = s.veils := rfl
@[simp] theorem State.setPkg_queues (s : State) (p : Package) : (s.setPkg p).queues = s.queues := rfl
@[simp] theorem State.setPkg_served (s : State) (p : Package) : (s.setPkg p).served = s.served := rfl
@[simp] theorem State.setPkg_launches (s : State) (p : Package) : (s.setPkg p).launches = s.launches := rfl
@[simp] theorem State.setPkg_nextLid (s : State) (p : Package) : (s.setPkg p).nextLid = s.nextLid := rfl
@[simp] theorem State.setPkg_podBars (s : State) (p : Package) : (s.setPkg p).podBars = s.podBars := rfl
@[simp] theorem State.setPkg_sigs (s : State) (p : Package) : (s.setPkg p).sigs = s.sigs := rfl
@[simp] theorem State.setPkg_sigHomes (s : State) (p : Package) : (s.setPkg p).sigHomes = s.sigHomes := rfl
@[simp] theorem State.setPkg_sigSeq (s : State) (p : Package) : (s.setPkg p).sigSeq = s.sigSeq := rfl
@[simp] theorem State.setPkg_groups (s : State) (p : Package) : (s.setPkg p).groups = s.groups := rfl
@[simp] theorem State.setPkg_eventq (s : State) (p : Package) : (s.setPkg p).eventq = s.eventq := rfl
@[simp] theorem State.setPkg_hostReply (s : State) (p : Package) : (s.setPkg p).hostReply = s.hostReply := rfl
@[simp] theorem State.setPkg_ring (s : State) (p : Package) : (s.setPkg p).ring = s.ring := rfl
@[simp] theorem State.setPkg_modules (s : State) (p : Package) : (s.setPkg p).modules = s.modules := rfl
@[simp] theorem State.setPkg_bridge (s : State) (p : Package) : (s.setPkg p).bridge = s.bridge := rfl
@[simp] theorem State.setPkg_now (s : State) (p : Package) : (s.setPkg p).now = s.now := rfl
@[simp] theorem State.setPkg_turns (s : State) (p : Package) : (s.setPkg p).turns = s.turns := rfl
@[simp] theorem State.setPkg_place (s : State) (p : Package) : (s.setPkg p).place = s.place := rfl
@[simp] theorem State.setPkg_skipped (s : State) (p : Package) : (s.setPkg p).skipped = s.skipped := rfl

/-! `State.perform` -/

@[simp] theorem State.perform_core (s : State) (l : List (Nat × Byte)) : (s.perform l).core = s.core := rfl
@[simp] theorem State.perform_parked (s : State) (l : List (Nat × Byte)) : (s.perform l).parked = s.parked := rfl
@[simp] theorem State.perform_dies (s : State) (l : List (Nat × Byte)) : (s.perform l).dies = s.dies := rfl
@[simp] theorem State.perform_pkgs (s : State) (l : List (Nat × Byte)) : (s.perform l).pkgs = s.pkgs := rfl
@[simp] theorem State.perform_veils (s : State) (l : List (Nat × Byte)) : (s.perform l).veils = s.veils := rfl
@[simp] theorem State.perform_queues (s : State) (l : List (Nat × Byte)) : (s.perform l).queues = s.queues := rfl
@[simp] theorem State.perform_served (s : State) (l : List (Nat × Byte)) : (s.perform l).served = s.served := rfl
@[simp] theorem State.perform_launches (s : State) (l : List (Nat × Byte)) : (s.perform l).launches = s.launches := rfl
@[simp] theorem State.perform_nextLid (s : State) (l : List (Nat × Byte)) : (s.perform l).nextLid = s.nextLid := rfl
@[simp] theorem State.perform_podBars (s : State) (l : List (Nat × Byte)) : (s.perform l).podBars = s.podBars := rfl
@[simp] theorem State.perform_sigs (s : State) (l : List (Nat × Byte)) : (s.perform l).sigs = s.sigs := rfl
@[simp] theorem State.perform_sigHomes (s : State) (l : List (Nat × Byte)) : (s.perform l).sigHomes = s.sigHomes := rfl
@[simp] theorem State.perform_sigSeq (s : State) (l : List (Nat × Byte)) : (s.perform l).sigSeq = s.sigSeq := rfl
@[simp] theorem State.perform_groups (s : State) (l : List (Nat × Byte)) : (s.perform l).groups = s.groups := rfl
@[simp] theorem State.perform_eventq (s : State) (l : List (Nat × Byte)) : (s.perform l).eventq = s.eventq := rfl
@[simp] theorem State.perform_hostReply (s : State) (l : List (Nat × Byte)) : (s.perform l).hostReply = s.hostReply := rfl
@[simp] theorem State.perform_ring (s : State) (l : List (Nat × Byte)) : (s.perform l).ring = s.ring := rfl
@[simp] theorem State.perform_modules (s : State) (l : List (Nat × Byte)) : (s.perform l).modules = s.modules := rfl
@[simp] theorem State.perform_bridge (s : State) (l : List (Nat × Byte)) : (s.perform l).bridge = s.bridge := rfl
@[simp] theorem State.perform_now (s : State) (l : List (Nat × Byte)) : (s.perform l).now = s.now := rfl
@[simp] theorem State.perform_turns (s : State) (l : List (Nat × Byte)) : (s.perform l).turns = s.turns := rfl
@[simp] theorem State.perform_place (s : State) (l : List (Nat × Byte)) : (s.perform l).place = s.place := rfl
@[simp] theorem State.perform_skipped (s : State) (l : List (Nat × Byte)) : (s.perform l).skipped = s.skipped := rfl

/-! `State.write` -/

@[simp] theorem State.write_core (s : State) (a : Nat) (l : List Byte) : (s.write a l).core = s.core := rfl
@[simp] theorem State.write_parked (s : State) (a : Nat) (l : List Byte) : (s.write a l).parked = s.parked := rfl
@[simp] theorem State.write_dies (s : State) (a : Nat) (l : List Byte) : (s.write a l).dies = s.dies := rfl
@[simp] theorem State.write_pkgs (s : State) (a : Nat) (l : List Byte) : (s.write a l).pkgs = s.pkgs := rfl
@[simp] theorem State.write_veils (s : State) (a : Nat) (l : List Byte) : (s.write a l).veils = s.veils := rfl
@[simp] theorem State.write_queues (s : State) (a : Nat) (l : List Byte) : (s.write a l).queues = s.queues := rfl
@[simp] theorem State.write_served (s : State) (a : Nat) (l : List Byte) : (s.write a l).served = s.served := rfl
@[simp] theorem State.write_launches (s : State) (a : Nat) (l : List Byte) : (s.write a l).launches = s.launches := rfl
@[simp] theorem State.write_nextLid (s : State) (a : Nat) (l : List Byte) : (s.write a l).nextLid = s.nextLid := rfl
@[simp] theorem State.write_podBars (s : State) (a : Nat) (l : List Byte) : (s.write a l).podBars = s.podBars := rfl
@[simp] theorem State.write_sigs (s : State) (a : Nat) (l : List Byte) : (s.write a l).sigs = s.sigs := rfl
@[simp] theorem State.write_sigHomes (s : State) (a : Nat) (l : List Byte) : (s.write a l).sigHomes = s.sigHomes := rfl
@[simp] theorem State.write_sigSeq (s : State) (a : Nat) (l : List Byte) : (s.write a l).sigSeq = s.sigSeq := rfl
@[simp] theorem State.write_groups (s : State) (a : Nat) (l : List Byte) : (s.write a l).groups = s.groups := rfl
@[simp] theorem State.write_eventq (s : State) (a : Nat) (l : List Byte) : (s.write a l).eventq = s.eventq := rfl
@[simp] theorem State.write_hostReply (s : State) (a : Nat) (l : List Byte) : (s.write a l).hostReply = s.hostReply := rfl
@[simp] theorem State.write_ring (s : State) (a : Nat) (l : List Byte) : (s.write a l).ring = s.ring := rfl
@[simp] theorem State.write_modules (s : State) (a : Nat) (l : List Byte) : (s.write a l).modules = s.modules := rfl
@[simp] theorem State.write_bridge (s : State) (a : Nat) (l : List Byte) : (s.write a l).bridge = s.bridge := rfl
@[simp] theorem State.write_now (s : State) (a : Nat) (l : List Byte) : (s.write a l).now = s.now := rfl
@[simp] theorem State.write_turns (s : State) (a : Nat) (l : List Byte) : (s.write a l).turns = s.turns := rfl
@[simp] theorem State.write_place (s : State) (a : Nat) (l : List Byte) : (s.write a l).place = s.place := rfl
@[simp] theorem State.write_skipped (s : State) (a : Nat) (l : List Byte) : (s.write a l).skipped = s.skipped := rfl

/-! `State.writeWord` -/

@[simp] theorem State.writeWord_core (s : State) (a : Nat) (w : Word) : (s.writeWord a w).core = s.core := rfl
@[simp] theorem State.writeWord_parked (s : State) (a : Nat) (w : Word) : (s.writeWord a w).parked = s.parked := rfl
@[simp] theorem State.writeWord_dies (s : State) (a : Nat) (w : Word) : (s.writeWord a w).dies = s.dies := rfl
@[simp] theorem State.writeWord_pkgs (s : State) (a : Nat) (w : Word) : (s.writeWord a w).pkgs = s.pkgs := rfl
@[simp] theorem State.writeWord_veils (s : State) (a : Nat) (w : Word) : (s.writeWord a w).veils = s.veils := rfl
@[simp] theorem State.writeWord_queues (s : State) (a : Nat) (w : Word) : (s.writeWord a w).queues = s.queues := rfl
@[simp] theorem State.writeWord_served (s : State) (a : Nat) (w : Word) : (s.writeWord a w).served = s.served := rfl
@[simp] theorem State.writeWord_launches (s : State) (a : Nat) (w : Word) : (s.writeWord a w).launches = s.launches := rfl
@[simp] theorem State.writeWord_nextLid (s : State) (a : Nat) (w : Word) : (s.writeWord a w).nextLid = s.nextLid := rfl
@[simp] theorem State.writeWord_podBars (s : State) (a : Nat) (w : Word) : (s.writeWord a w).podBars = s.podBars := rfl
@[simp] theorem State.writeWord_sigs (s : State) (a : Nat) (w : Word) : (s.writeWord a w).sigs = s.sigs := rfl
@[simp] theorem State.writeWord_sigHomes (s : State) (a : Nat) (w : Word) : (s.writeWord a w).sigHomes = s.sigHomes := rfl
@[simp] theorem State.writeWord_sigSeq (s : State) (a : Nat) (w : Word) : (s.writeWord a w).sigSeq = s.sigSeq := rfl
@[simp] theorem State.writeWord_groups (s : State) (a : Nat) (w : Word) : (s.writeWord a w).groups = s.groups := rfl
@[simp] theorem State.writeWord_eventq (s : State) (a : Nat) (w : Word) : (s.writeWord a w).eventq = s.eventq := rfl
@[simp] theorem State.writeWord_hostReply (s : State) (a : Nat) (w : Word) : (s.writeWord a w).hostReply = s.hostReply := rfl
@[simp] theorem State.writeWord_ring (s : State) (a : Nat) (w : Word) : (s.writeWord a w).ring = s.ring := rfl
@[simp] theorem State.writeWord_modules (s : State) (a : Nat) (w : Word) : (s.writeWord a w).modules = s.modules := rfl
@[simp] theorem State.writeWord_bridge (s : State) (a : Nat) (w : Word) : (s.writeWord a w).bridge = s.bridge := rfl
@[simp] theorem State.writeWord_now (s : State) (a : Nat) (w : Word) : (s.writeWord a w).now = s.now := rfl
@[simp] theorem State.writeWord_turns (s : State) (a : Nat) (w : Word) : (s.writeWord a w).turns = s.turns := rfl
@[simp] theorem State.writeWord_place (s : State) (a : Nat) (w : Word) : (s.writeWord a w).place = s.place := rfl
@[simp] theorem State.writeWord_skipped (s : State) (a : Nat) (w : Word) : (s.writeWord a w).skipped = s.skipped := rfl

/-! `State.restore` -/

@[simp] theorem State.restore_core (s : State) (a n : Nat) (l : List (Nat × Byte)) : (s.restore a n l).core = s.core := rfl
@[simp] theorem State.restore_parked (s : State) (a n : Nat) (l : List (Nat × Byte)) : (s.restore a n l).parked = s.parked := rfl
@[simp] theorem State.restore_dies (s : State) (a n : Nat) (l : List (Nat × Byte)) : (s.restore a n l).dies = s.dies := rfl
@[simp] theorem State.restore_pkgs (s : State) (a n : Nat) (l : List (Nat × Byte)) : (s.restore a n l).pkgs = s.pkgs := rfl
@[simp] theorem State.restore_bad (s : State) (a n : Nat) (l : List (Nat × Byte)) : (s.restore a n l).bad = s.bad := rfl
@[simp] theorem State.restore_cleanLines (s : State) (a n : Nat) (l : List (Nat × Byte)) : (s.restore a n l).cleanLines = s.cleanLines := rfl
@[simp] theorem State.restore_veils (s : State) (a n : Nat) (l : List (Nat × Byte)) : (s.restore a n l).veils = s.veils := rfl
@[simp] theorem State.restore_queues (s : State) (a n : Nat) (l : List (Nat × Byte)) : (s.restore a n l).queues = s.queues := rfl
@[simp] theorem State.restore_served (s : State) (a n : Nat) (l : List (Nat × Byte)) : (s.restore a n l).served = s.served := rfl
@[simp] theorem State.restore_launches (s : State) (a n : Nat) (l : List (Nat × Byte)) : (s.restore a n l).launches = s.launches := rfl
@[simp] theorem State.restore_nextLid (s : State) (a n : Nat) (l : List (Nat × Byte)) : (s.restore a n l).nextLid = s.nextLid := rfl
@[simp] theorem State.restore_podBars (s : State) (a n : Nat) (l : List (Nat × Byte)) : (s.restore a n l).podBars = s.podBars := rfl
@[simp] theorem State.restore_sigs (s : State) (a n : Nat) (l : List (Nat × Byte)) : (s.restore a n l).sigs = s.sigs := rfl
@[simp] theorem State.restore_sigHomes (s : State) (a n : Nat) (l : List (Nat × Byte)) : (s.restore a n l).sigHomes = s.sigHomes := rfl
@[simp] theorem State.restore_sigSeq (s : State) (a n : Nat) (l : List (Nat × Byte)) : (s.restore a n l).sigSeq = s.sigSeq := rfl
@[simp] theorem State.restore_groups (s : State) (a n : Nat) (l : List (Nat × Byte)) : (s.restore a n l).groups = s.groups := rfl
@[simp] theorem State.restore_eventq (s : State) (a n : Nat) (l : List (Nat × Byte)) : (s.restore a n l).eventq = s.eventq := rfl
@[simp] theorem State.restore_hostReply (s : State) (a n : Nat) (l : List (Nat × Byte)) : (s.restore a n l).hostReply = s.hostReply := rfl
@[simp] theorem State.restore_ring (s : State) (a n : Nat) (l : List (Nat × Byte)) : (s.restore a n l).ring = s.ring := rfl
@[simp] theorem State.restore_modules (s : State) (a n : Nat) (l : List (Nat × Byte)) : (s.restore a n l).modules = s.modules := rfl
@[simp] theorem State.restore_bridge (s : State) (a n : Nat) (l : List (Nat × Byte)) : (s.restore a n l).bridge = s.bridge := rfl
@[simp] theorem State.restore_now (s : State) (a n : Nat) (l : List (Nat × Byte)) : (s.restore a n l).now = s.now := rfl
@[simp] theorem State.restore_turns (s : State) (a n : Nat) (l : List (Nat × Byte)) : (s.restore a n l).turns = s.turns := rfl
@[simp] theorem State.restore_place (s : State) (a n : Nat) (l : List (Nat × Byte)) : (s.restore a n l).place = s.place := rfl
@[simp] theorem State.restore_skipped (s : State) (a n : Nat) (l : List (Nat × Byte)) : (s.restore a n l).skipped = s.skipped := rfl

/-! `State.zeroPackage` -/

@[simp] theorem State.zeroPackage_core (s : State) (n : Nat) : (s.zeroPackage n).core = s.core := rfl
@[simp] theorem State.zeroPackage_parked (s : State) (n : Nat) : (s.zeroPackage n).parked = s.parked := rfl
@[simp] theorem State.zeroPackage_dies (s : State) (n : Nat) : (s.zeroPackage n).dies = s.dies := rfl
@[simp] theorem State.zeroPackage_pkgs (s : State) (n : Nat) : (s.zeroPackage n).pkgs = s.pkgs := rfl
@[simp] theorem State.zeroPackage_cleanLines (s : State) (n : Nat) : (s.zeroPackage n).cleanLines = s.cleanLines := rfl
@[simp] theorem State.zeroPackage_veils (s : State) (n : Nat) : (s.zeroPackage n).veils = s.veils := rfl
@[simp] theorem State.zeroPackage_queues (s : State) (n : Nat) : (s.zeroPackage n).queues = s.queues := rfl
@[simp] theorem State.zeroPackage_served (s : State) (n : Nat) : (s.zeroPackage n).served = s.served := rfl
@[simp] theorem State.zeroPackage_launches (s : State) (n : Nat) : (s.zeroPackage n).launches = s.launches := rfl
@[simp] theorem State.zeroPackage_nextLid (s : State) (n : Nat) : (s.zeroPackage n).nextLid = s.nextLid := rfl
@[simp] theorem State.zeroPackage_podBars (s : State) (n : Nat) : (s.zeroPackage n).podBars = s.podBars := rfl
@[simp] theorem State.zeroPackage_sigs (s : State) (n : Nat) : (s.zeroPackage n).sigs = s.sigs := rfl
@[simp] theorem State.zeroPackage_sigHomes (s : State) (n : Nat) : (s.zeroPackage n).sigHomes = s.sigHomes := rfl
@[simp] theorem State.zeroPackage_sigSeq (s : State) (n : Nat) : (s.zeroPackage n).sigSeq = s.sigSeq := rfl
@[simp] theorem State.zeroPackage_groups (s : State) (n : Nat) : (s.zeroPackage n).groups = s.groups := rfl
@[simp] theorem State.zeroPackage_eventq (s : State) (n : Nat) : (s.zeroPackage n).eventq = s.eventq := rfl
@[simp] theorem State.zeroPackage_hostReply (s : State) (n : Nat) : (s.zeroPackage n).hostReply = s.hostReply := rfl
@[simp] theorem State.zeroPackage_ring (s : State) (n : Nat) : (s.zeroPackage n).ring = s.ring := rfl
@[simp] theorem State.zeroPackage_modules (s : State) (n : Nat) : (s.zeroPackage n).modules = s.modules := rfl
@[simp] theorem State.zeroPackage_bridge (s : State) (n : Nat) : (s.zeroPackage n).bridge = s.bridge := rfl
@[simp] theorem State.zeroPackage_now (s : State) (n : Nat) : (s.zeroPackage n).now = s.now := rfl
@[simp] theorem State.zeroPackage_turns (s : State) (n : Nat) : (s.zeroPackage n).turns = s.turns := rfl
@[simp] theorem State.zeroPackage_place (s : State) (n : Nat) : (s.zeroPackage n).place = s.place := rfl
@[simp] theorem State.zeroPackage_skipped (s : State) (n : Nat) : (s.zeroPackage n).skipped = s.skipped := rfl

/-! `State.setQueue` -/

@[simp] theorem State.setQueue_core (s : State) (k : QKey) (q : Queue) : (s.setQueue k q).core = s.core := rfl
@[simp] theorem State.setQueue_parked (s : State) (k : QKey) (q : Queue) : (s.setQueue k q).parked = s.parked := rfl
@[simp] theorem State.setQueue_dies (s : State) (k : QKey) (q : Queue) : (s.setQueue k q).dies = s.dies := rfl
@[simp] theorem State.setQueue_pkgs (s : State) (k : QKey) (q : Queue) : (s.setQueue k q).pkgs = s.pkgs := rfl
@[simp] theorem State.setQueue_mem (s : State) (k : QKey) (q : Queue) : (s.setQueue k q).mem = s.mem := rfl
@[simp] theorem State.setQueue_bad (s : State) (k : QKey) (q : Queue) : (s.setQueue k q).bad = s.bad := rfl
@[simp] theorem State.setQueue_cleanLines (s : State) (k : QKey) (q : Queue) : (s.setQueue k q).cleanLines = s.cleanLines := rfl
@[simp] theorem State.setQueue_veils (s : State) (k : QKey) (q : Queue) : (s.setQueue k q).veils = s.veils := rfl
@[simp] theorem State.setQueue_served (s : State) (k : QKey) (q : Queue) : (s.setQueue k q).served = s.served := rfl
@[simp] theorem State.setQueue_launches (s : State) (k : QKey) (q : Queue) : (s.setQueue k q).launches = s.launches := rfl
@[simp] theorem State.setQueue_nextLid (s : State) (k : QKey) (q : Queue) : (s.setQueue k q).nextLid = s.nextLid := rfl
@[simp] theorem State.setQueue_podBars (s : State) (k : QKey) (q : Queue) : (s.setQueue k q).podBars = s.podBars := rfl
@[simp] theorem State.setQueue_sigs (s : State) (k : QKey) (q : Queue) : (s.setQueue k q).sigs = s.sigs := rfl
@[simp] theorem State.setQueue_sigHomes (s : State) (k : QKey) (q : Queue) : (s.setQueue k q).sigHomes = s.sigHomes := rfl
@[simp] theorem State.setQueue_sigSeq (s : State) (k : QKey) (q : Queue) : (s.setQueue k q).sigSeq = s.sigSeq := rfl
@[simp] theorem State.setQueue_groups (s : State) (k : QKey) (q : Queue) : (s.setQueue k q).groups = s.groups := rfl
@[simp] theorem State.setQueue_eventq (s : State) (k : QKey) (q : Queue) : (s.setQueue k q).eventq = s.eventq := rfl
@[simp] theorem State.setQueue_hostReply (s : State) (k : QKey) (q : Queue) : (s.setQueue k q).hostReply = s.hostReply := rfl
@[simp] theorem State.setQueue_ring (s : State) (k : QKey) (q : Queue) : (s.setQueue k q).ring = s.ring := rfl
@[simp] theorem State.setQueue_modules (s : State) (k : QKey) (q : Queue) : (s.setQueue k q).modules = s.modules := rfl
@[simp] theorem State.setQueue_bridge (s : State) (k : QKey) (q : Queue) : (s.setQueue k q).bridge = s.bridge := rfl
@[simp] theorem State.setQueue_now (s : State) (k : QKey) (q : Queue) : (s.setQueue k q).now = s.now := rfl
@[simp] theorem State.setQueue_turns (s : State) (k : QKey) (q : Queue) : (s.setQueue k q).turns = s.turns := rfl
@[simp] theorem State.setQueue_place (s : State) (k : QKey) (q : Queue) : (s.setQueue k q).place = s.place := rfl
@[simp] theorem State.setQueue_skipped (s : State) (k : QKey) (q : Queue) : (s.setQueue k q).skipped = s.skipped := rfl

/-! `State.setLaunch` -/

@[simp] theorem State.setLaunch_core (s : State) (l : Launch) : (s.setLaunch l).core = s.core := rfl
@[simp] theorem State.setLaunch_parked (s : State) (l : Launch) : (s.setLaunch l).parked = s.parked := rfl
@[simp] theorem State.setLaunch_dies (s : State) (l : Launch) : (s.setLaunch l).dies = s.dies := rfl
@[simp] theorem State.setLaunch_pkgs (s : State) (l : Launch) : (s.setLaunch l).pkgs = s.pkgs := rfl
@[simp] theorem State.setLaunch_mem (s : State) (l : Launch) : (s.setLaunch l).mem = s.mem := rfl
@[simp] theorem State.setLaunch_bad (s : State) (l : Launch) : (s.setLaunch l).bad = s.bad := rfl
@[simp] theorem State.setLaunch_cleanLines (s : State) (l : Launch) : (s.setLaunch l).cleanLines = s.cleanLines := rfl
@[simp] theorem State.setLaunch_veils (s : State) (l : Launch) : (s.setLaunch l).veils = s.veils := rfl
@[simp] theorem State.setLaunch_queues (s : State) (l : Launch) : (s.setLaunch l).queues = s.queues := rfl
@[simp] theorem State.setLaunch_served (s : State) (l : Launch) : (s.setLaunch l).served = s.served := rfl
@[simp] theorem State.setLaunch_nextLid (s : State) (l : Launch) : (s.setLaunch l).nextLid = s.nextLid := rfl
@[simp] theorem State.setLaunch_podBars (s : State) (l : Launch) : (s.setLaunch l).podBars = s.podBars := rfl
@[simp] theorem State.setLaunch_sigs (s : State) (l : Launch) : (s.setLaunch l).sigs = s.sigs := rfl
@[simp] theorem State.setLaunch_sigHomes (s : State) (l : Launch) : (s.setLaunch l).sigHomes = s.sigHomes := rfl
@[simp] theorem State.setLaunch_sigSeq (s : State) (l : Launch) : (s.setLaunch l).sigSeq = s.sigSeq := rfl
@[simp] theorem State.setLaunch_groups (s : State) (l : Launch) : (s.setLaunch l).groups = s.groups := rfl
@[simp] theorem State.setLaunch_eventq (s : State) (l : Launch) : (s.setLaunch l).eventq = s.eventq := rfl
@[simp] theorem State.setLaunch_hostReply (s : State) (l : Launch) : (s.setLaunch l).hostReply = s.hostReply := rfl
@[simp] theorem State.setLaunch_ring (s : State) (l : Launch) : (s.setLaunch l).ring = s.ring := rfl
@[simp] theorem State.setLaunch_modules (s : State) (l : Launch) : (s.setLaunch l).modules = s.modules := rfl
@[simp] theorem State.setLaunch_bridge (s : State) (l : Launch) : (s.setLaunch l).bridge = s.bridge := rfl
@[simp] theorem State.setLaunch_now (s : State) (l : Launch) : (s.setLaunch l).now = s.now := rfl
@[simp] theorem State.setLaunch_turns (s : State) (l : Launch) : (s.setLaunch l).turns = s.turns := rfl
@[simp] theorem State.setLaunch_place (s : State) (l : Launch) : (s.setLaunch l).place = s.place := rfl
@[simp] theorem State.setLaunch_skipped (s : State) (l : Launch) : (s.setLaunch l).skipped = s.skipped := rfl

/-! `State.setGroup` -/

@[simp] theorem State.setGroup_core (s : State) (g : XGroup) : (s.setGroup g).core = s.core := rfl
@[simp] theorem State.setGroup_parked (s : State) (g : XGroup) : (s.setGroup g).parked = s.parked := rfl
@[simp] theorem State.setGroup_dies (s : State) (g : XGroup) : (s.setGroup g).dies = s.dies := rfl
@[simp] theorem State.setGroup_pkgs (s : State) (g : XGroup) : (s.setGroup g).pkgs = s.pkgs := rfl
@[simp] theorem State.setGroup_mem (s : State) (g : XGroup) : (s.setGroup g).mem = s.mem := rfl
@[simp] theorem State.setGroup_bad (s : State) (g : XGroup) : (s.setGroup g).bad = s.bad := rfl
@[simp] theorem State.setGroup_cleanLines (s : State) (g : XGroup) : (s.setGroup g).cleanLines = s.cleanLines := rfl
@[simp] theorem State.setGroup_veils (s : State) (g : XGroup) : (s.setGroup g).veils = s.veils := rfl
@[simp] theorem State.setGroup_queues (s : State) (g : XGroup) : (s.setGroup g).queues = s.queues := rfl
@[simp] theorem State.setGroup_served (s : State) (g : XGroup) : (s.setGroup g).served = s.served := rfl
@[simp] theorem State.setGroup_launches (s : State) (g : XGroup) : (s.setGroup g).launches = s.launches := rfl
@[simp] theorem State.setGroup_nextLid (s : State) (g : XGroup) : (s.setGroup g).nextLid = s.nextLid := rfl
@[simp] theorem State.setGroup_podBars (s : State) (g : XGroup) : (s.setGroup g).podBars = s.podBars := rfl
@[simp] theorem State.setGroup_sigs (s : State) (g : XGroup) : (s.setGroup g).sigs = s.sigs := rfl
@[simp] theorem State.setGroup_sigHomes (s : State) (g : XGroup) : (s.setGroup g).sigHomes = s.sigHomes := rfl
@[simp] theorem State.setGroup_sigSeq (s : State) (g : XGroup) : (s.setGroup g).sigSeq = s.sigSeq := rfl
@[simp] theorem State.setGroup_eventq (s : State) (g : XGroup) : (s.setGroup g).eventq = s.eventq := rfl
@[simp] theorem State.setGroup_hostReply (s : State) (g : XGroup) : (s.setGroup g).hostReply = s.hostReply := rfl
@[simp] theorem State.setGroup_ring (s : State) (g : XGroup) : (s.setGroup g).ring = s.ring := rfl
@[simp] theorem State.setGroup_modules (s : State) (g : XGroup) : (s.setGroup g).modules = s.modules := rfl
@[simp] theorem State.setGroup_bridge (s : State) (g : XGroup) : (s.setGroup g).bridge = s.bridge := rfl
@[simp] theorem State.setGroup_now (s : State) (g : XGroup) : (s.setGroup g).now = s.now := rfl
@[simp] theorem State.setGroup_turns (s : State) (g : XGroup) : (s.setGroup g).turns = s.turns := rfl
@[simp] theorem State.setGroup_place (s : State) (g : XGroup) : (s.setGroup g).place = s.place := rfl
@[simp] theorem State.setGroup_skipped (s : State) (g : XGroup) : (s.setGroup g).skipped = s.skipped := rfl

/-! `State.sendSig` -/

@[simp] theorem State.sendSig_core (s : State) (a : BitVec 19) (pa : Nat) (x : Bool) (v : Word) (o : Option (CoreKey × OrdClass × Nat)) (w : Option (CoreKey × Nat)) (p : Option (QKey × Nat)) (b : BitVec 5) (t : List Trans) (n : Option Nat) : (s.sendSig a pa x v o w p b t n).core = s.core := rfl
@[simp] theorem State.sendSig_parked (s : State) (a : BitVec 19) (pa : Nat) (x : Bool) (v : Word) (o : Option (CoreKey × OrdClass × Nat)) (w : Option (CoreKey × Nat)) (p : Option (QKey × Nat)) (b : BitVec 5) (t : List Trans) (n : Option Nat) : (s.sendSig a pa x v o w p b t n).parked = s.parked := rfl
@[simp] theorem State.sendSig_dies (s : State) (a : BitVec 19) (pa : Nat) (x : Bool) (v : Word) (o : Option (CoreKey × OrdClass × Nat)) (w : Option (CoreKey × Nat)) (p : Option (QKey × Nat)) (b : BitVec 5) (t : List Trans) (n : Option Nat) : (s.sendSig a pa x v o w p b t n).dies = s.dies := rfl
@[simp] theorem State.sendSig_pkgs (s : State) (a : BitVec 19) (pa : Nat) (x : Bool) (v : Word) (o : Option (CoreKey × OrdClass × Nat)) (w : Option (CoreKey × Nat)) (p : Option (QKey × Nat)) (b : BitVec 5) (t : List Trans) (n : Option Nat) : (s.sendSig a pa x v o w p b t n).pkgs = s.pkgs := rfl
@[simp] theorem State.sendSig_mem (s : State) (a : BitVec 19) (pa : Nat) (x : Bool) (v : Word) (o : Option (CoreKey × OrdClass × Nat)) (w : Option (CoreKey × Nat)) (p : Option (QKey × Nat)) (b : BitVec 5) (t : List Trans) (n : Option Nat) : (s.sendSig a pa x v o w p b t n).mem = s.mem := rfl
@[simp] theorem State.sendSig_bad (s : State) (a : BitVec 19) (pa : Nat) (x : Bool) (v : Word) (o : Option (CoreKey × OrdClass × Nat)) (w : Option (CoreKey × Nat)) (p : Option (QKey × Nat)) (b : BitVec 5) (t : List Trans) (n : Option Nat) : (s.sendSig a pa x v o w p b t n).bad = s.bad := rfl
@[simp] theorem State.sendSig_cleanLines (s : State) (a : BitVec 19) (pa : Nat) (x : Bool) (v : Word) (o : Option (CoreKey × OrdClass × Nat)) (w : Option (CoreKey × Nat)) (p : Option (QKey × Nat)) (b : BitVec 5) (t : List Trans) (n : Option Nat) : (s.sendSig a pa x v o w p b t n).cleanLines = s.cleanLines := rfl
@[simp] theorem State.sendSig_veils (s : State) (a : BitVec 19) (pa : Nat) (x : Bool) (v : Word) (o : Option (CoreKey × OrdClass × Nat)) (w : Option (CoreKey × Nat)) (p : Option (QKey × Nat)) (b : BitVec 5) (t : List Trans) (n : Option Nat) : (s.sendSig a pa x v o w p b t n).veils = s.veils := rfl
@[simp] theorem State.sendSig_queues (s : State) (a : BitVec 19) (pa : Nat) (x : Bool) (v : Word) (o : Option (CoreKey × OrdClass × Nat)) (w : Option (CoreKey × Nat)) (p : Option (QKey × Nat)) (b : BitVec 5) (t : List Trans) (n : Option Nat) : (s.sendSig a pa x v o w p b t n).queues = s.queues := rfl
@[simp] theorem State.sendSig_served (s : State) (a : BitVec 19) (pa : Nat) (x : Bool) (v : Word) (o : Option (CoreKey × OrdClass × Nat)) (w : Option (CoreKey × Nat)) (p : Option (QKey × Nat)) (b : BitVec 5) (t : List Trans) (n : Option Nat) : (s.sendSig a pa x v o w p b t n).served = s.served := rfl
@[simp] theorem State.sendSig_launches (s : State) (a : BitVec 19) (pa : Nat) (x : Bool) (v : Word) (o : Option (CoreKey × OrdClass × Nat)) (w : Option (CoreKey × Nat)) (p : Option (QKey × Nat)) (b : BitVec 5) (t : List Trans) (n : Option Nat) : (s.sendSig a pa x v o w p b t n).launches = s.launches := rfl
@[simp] theorem State.sendSig_nextLid (s : State) (a : BitVec 19) (pa : Nat) (x : Bool) (v : Word) (o : Option (CoreKey × OrdClass × Nat)) (w : Option (CoreKey × Nat)) (p : Option (QKey × Nat)) (b : BitVec 5) (t : List Trans) (n : Option Nat) : (s.sendSig a pa x v o w p b t n).nextLid = s.nextLid := rfl
@[simp] theorem State.sendSig_podBars (s : State) (a : BitVec 19) (pa : Nat) (x : Bool) (v : Word) (o : Option (CoreKey × OrdClass × Nat)) (w : Option (CoreKey × Nat)) (p : Option (QKey × Nat)) (b : BitVec 5) (t : List Trans) (n : Option Nat) : (s.sendSig a pa x v o w p b t n).podBars = s.podBars := rfl
@[simp] theorem State.sendSig_sigHomes (s : State) (a : BitVec 19) (pa : Nat) (x : Bool) (v : Word) (o : Option (CoreKey × OrdClass × Nat)) (w : Option (CoreKey × Nat)) (p : Option (QKey × Nat)) (b : BitVec 5) (t : List Trans) (n : Option Nat) : (s.sendSig a pa x v o w p b t n).sigHomes = s.sigHomes := rfl
@[simp] theorem State.sendSig_groups (s : State) (a : BitVec 19) (pa : Nat) (x : Bool) (v : Word) (o : Option (CoreKey × OrdClass × Nat)) (w : Option (CoreKey × Nat)) (p : Option (QKey × Nat)) (b : BitVec 5) (t : List Trans) (n : Option Nat) : (s.sendSig a pa x v o w p b t n).groups = s.groups := rfl
@[simp] theorem State.sendSig_eventq (s : State) (a : BitVec 19) (pa : Nat) (x : Bool) (v : Word) (o : Option (CoreKey × OrdClass × Nat)) (w : Option (CoreKey × Nat)) (p : Option (QKey × Nat)) (b : BitVec 5) (t : List Trans) (n : Option Nat) : (s.sendSig a pa x v o w p b t n).eventq = s.eventq := rfl
@[simp] theorem State.sendSig_hostReply (s : State) (a : BitVec 19) (pa : Nat) (x : Bool) (v : Word) (o : Option (CoreKey × OrdClass × Nat)) (w : Option (CoreKey × Nat)) (p : Option (QKey × Nat)) (b : BitVec 5) (t : List Trans) (n : Option Nat) : (s.sendSig a pa x v o w p b t n).hostReply = s.hostReply := rfl
@[simp] theorem State.sendSig_ring (s : State) (a : BitVec 19) (pa : Nat) (x : Bool) (v : Word) (o : Option (CoreKey × OrdClass × Nat)) (w : Option (CoreKey × Nat)) (p : Option (QKey × Nat)) (b : BitVec 5) (t : List Trans) (n : Option Nat) : (s.sendSig a pa x v o w p b t n).ring = s.ring := rfl
@[simp] theorem State.sendSig_modules (s : State) (a : BitVec 19) (pa : Nat) (x : Bool) (v : Word) (o : Option (CoreKey × OrdClass × Nat)) (w : Option (CoreKey × Nat)) (p : Option (QKey × Nat)) (b : BitVec 5) (t : List Trans) (n : Option Nat) : (s.sendSig a pa x v o w p b t n).modules = s.modules := rfl
@[simp] theorem State.sendSig_bridge (s : State) (a : BitVec 19) (pa : Nat) (x : Bool) (v : Word) (o : Option (CoreKey × OrdClass × Nat)) (w : Option (CoreKey × Nat)) (p : Option (QKey × Nat)) (b : BitVec 5) (t : List Trans) (n : Option Nat) : (s.sendSig a pa x v o w p b t n).bridge = s.bridge := rfl
@[simp] theorem State.sendSig_now (s : State) (a : BitVec 19) (pa : Nat) (x : Bool) (v : Word) (o : Option (CoreKey × OrdClass × Nat)) (w : Option (CoreKey × Nat)) (p : Option (QKey × Nat)) (b : BitVec 5) (t : List Trans) (n : Option Nat) : (s.sendSig a pa x v o w p b t n).now = s.now := rfl
@[simp] theorem State.sendSig_turns (s : State) (a : BitVec 19) (pa : Nat) (x : Bool) (v : Word) (o : Option (CoreKey × OrdClass × Nat)) (w : Option (CoreKey × Nat)) (p : Option (QKey × Nat)) (b : BitVec 5) (t : List Trans) (n : Option Nat) : (s.sendSig a pa x v o w p b t n).turns = s.turns := rfl
@[simp] theorem State.sendSig_place (s : State) (a : BitVec 19) (pa : Nat) (x : Bool) (v : Word) (o : Option (CoreKey × OrdClass × Nat)) (w : Option (CoreKey × Nat)) (p : Option (QKey × Nat)) (b : BitVec 5) (t : List Trans) (n : Option Nat) : (s.sendSig a pa x v o w p b t n).place = s.place := rfl
@[simp] theorem State.sendSig_skipped (s : State) (a : BitVec 19) (pa : Nat) (x : Bool) (v : Word) (o : Option (CoreKey × OrdClass × Nat)) (w : Option (CoreKey × Nat)) (p : Option (QKey × Nat)) (b : BitVec 5) (t : List Trans) (n : Option Nat) : (s.sendSig a pa x v o w p b t n).skipped = s.skipped := rfl

/-! `State.hold` -/

@[simp] theorem State.hold_parked (s : State) (t : Trans) : (s.hold t).parked = s.parked := rfl
@[simp] theorem State.hold_dies (s : State) (t : Trans) : (s.hold t).dies = s.dies := rfl
@[simp] theorem State.hold_pkgs (s : State) (t : Trans) : (s.hold t).pkgs = s.pkgs := rfl
@[simp] theorem State.hold_mem (s : State) (t : Trans) : (s.hold t).mem = s.mem := rfl
@[simp] theorem State.hold_bad (s : State) (t : Trans) : (s.hold t).bad = s.bad := rfl
@[simp] theorem State.hold_cleanLines (s : State) (t : Trans) : (s.hold t).cleanLines = s.cleanLines := rfl
@[simp] theorem State.hold_veils (s : State) (t : Trans) : (s.hold t).veils = s.veils := rfl
@[simp] theorem State.hold_queues (s : State) (t : Trans) : (s.hold t).queues = s.queues := rfl
@[simp] theorem State.hold_served (s : State) (t : Trans) : (s.hold t).served = s.served := rfl
@[simp] theorem State.hold_launches (s : State) (t : Trans) : (s.hold t).launches = s.launches := rfl
@[simp] theorem State.hold_nextLid (s : State) (t : Trans) : (s.hold t).nextLid = s.nextLid := rfl
@[simp] theorem State.hold_podBars (s : State) (t : Trans) : (s.hold t).podBars = s.podBars := rfl
@[simp] theorem State.hold_sigs (s : State) (t : Trans) : (s.hold t).sigs = s.sigs := rfl
@[simp] theorem State.hold_sigHomes (s : State) (t : Trans) : (s.hold t).sigHomes = s.sigHomes := rfl
@[simp] theorem State.hold_sigSeq (s : State) (t : Trans) : (s.hold t).sigSeq = s.sigSeq := rfl
@[simp] theorem State.hold_groups (s : State) (t : Trans) : (s.hold t).groups = s.groups := rfl
@[simp] theorem State.hold_eventq (s : State) (t : Trans) : (s.hold t).eventq = s.eventq := rfl
@[simp] theorem State.hold_hostReply (s : State) (t : Trans) : (s.hold t).hostReply = s.hostReply := rfl
@[simp] theorem State.hold_ring (s : State) (t : Trans) : (s.hold t).ring = s.ring := rfl
@[simp] theorem State.hold_modules (s : State) (t : Trans) : (s.hold t).modules = s.modules := rfl
@[simp] theorem State.hold_bridge (s : State) (t : Trans) : (s.hold t).bridge = s.bridge := rfl
@[simp] theorem State.hold_now (s : State) (t : Trans) : (s.hold t).now = s.now := rfl
@[simp] theorem State.hold_turns (s : State) (t : Trans) : (s.hold t).turns = s.turns := rfl
@[simp] theorem State.hold_place (s : State) (t : Trans) : (s.hold t).place = s.place := rfl
@[simp] theorem State.hold_skipped (s : State) (t : Trans) : (s.hold t).skipped = s.skipped := rfl

/-! `State.retire` -/

@[simp] theorem State.retire_parked (s : State) : (s.retire).parked = s.parked := rfl
@[simp] theorem State.retire_dies (s : State) : (s.retire).dies = s.dies := rfl
@[simp] theorem State.retire_pkgs (s : State) : (s.retire).pkgs = s.pkgs := rfl
@[simp] theorem State.retire_mem (s : State) : (s.retire).mem = s.mem := rfl
@[simp] theorem State.retire_bad (s : State) : (s.retire).bad = s.bad := rfl
@[simp] theorem State.retire_cleanLines (s : State) : (s.retire).cleanLines = s.cleanLines := rfl
@[simp] theorem State.retire_veils (s : State) : (s.retire).veils = s.veils := rfl
@[simp] theorem State.retire_queues (s : State) : (s.retire).queues = s.queues := rfl
@[simp] theorem State.retire_served (s : State) : (s.retire).served = s.served := rfl
@[simp] theorem State.retire_launches (s : State) : (s.retire).launches = s.launches := rfl
@[simp] theorem State.retire_nextLid (s : State) : (s.retire).nextLid = s.nextLid := rfl
@[simp] theorem State.retire_podBars (s : State) : (s.retire).podBars = s.podBars := rfl
@[simp] theorem State.retire_sigs (s : State) : (s.retire).sigs = s.sigs := rfl
@[simp] theorem State.retire_sigHomes (s : State) : (s.retire).sigHomes = s.sigHomes := rfl
@[simp] theorem State.retire_sigSeq (s : State) : (s.retire).sigSeq = s.sigSeq := rfl
@[simp] theorem State.retire_groups (s : State) : (s.retire).groups = s.groups := rfl
@[simp] theorem State.retire_eventq (s : State) : (s.retire).eventq = s.eventq := rfl
@[simp] theorem State.retire_hostReply (s : State) : (s.retire).hostReply = s.hostReply := rfl
@[simp] theorem State.retire_ring (s : State) : (s.retire).ring = s.ring := rfl
@[simp] theorem State.retire_modules (s : State) : (s.retire).modules = s.modules := rfl
@[simp] theorem State.retire_bridge (s : State) : (s.retire).bridge = s.bridge := rfl
@[simp] theorem State.retire_now (s : State) : (s.retire).now = s.now := rfl
@[simp] theorem State.retire_turns (s : State) : (s.retire).turns = s.turns := rfl
@[simp] theorem State.retire_place (s : State) : (s.retire).place = s.place := rfl
@[simp] theorem State.retire_skipped (s : State) : (s.retire).skipped = s.skipped := rfl

/-! `State.setLog` -/

@[simp] theorem State.setLog_parked (s : State) (l : List LogEntry) : (s.setLog l).parked = s.parked := rfl
@[simp] theorem State.setLog_dies (s : State) (l : List LogEntry) : (s.setLog l).dies = s.dies := rfl
@[simp] theorem State.setLog_pkgs (s : State) (l : List LogEntry) : (s.setLog l).pkgs = s.pkgs := rfl
@[simp] theorem State.setLog_veils (s : State) (l : List LogEntry) : (s.setLog l).veils = s.veils := rfl
@[simp] theorem State.setLog_queues (s : State) (l : List LogEntry) : (s.setLog l).queues = s.queues := rfl
@[simp] theorem State.setLog_served (s : State) (l : List LogEntry) : (s.setLog l).served = s.served := rfl
@[simp] theorem State.setLog_launches (s : State) (l : List LogEntry) : (s.setLog l).launches = s.launches := rfl
@[simp] theorem State.setLog_nextLid (s : State) (l : List LogEntry) : (s.setLog l).nextLid = s.nextLid := rfl
@[simp] theorem State.setLog_podBars (s : State) (l : List LogEntry) : (s.setLog l).podBars = s.podBars := rfl
@[simp] theorem State.setLog_sigs (s : State) (l : List LogEntry) : (s.setLog l).sigs = s.sigs := rfl
@[simp] theorem State.setLog_sigHomes (s : State) (l : List LogEntry) : (s.setLog l).sigHomes = s.sigHomes := rfl
@[simp] theorem State.setLog_sigSeq (s : State) (l : List LogEntry) : (s.setLog l).sigSeq = s.sigSeq := rfl
@[simp] theorem State.setLog_groups (s : State) (l : List LogEntry) : (s.setLog l).groups = s.groups := rfl
@[simp] theorem State.setLog_eventq (s : State) (l : List LogEntry) : (s.setLog l).eventq = s.eventq := rfl
@[simp] theorem State.setLog_hostReply (s : State) (l : List LogEntry) : (s.setLog l).hostReply = s.hostReply := rfl
@[simp] theorem State.setLog_ring (s : State) (l : List LogEntry) : (s.setLog l).ring = s.ring := rfl
@[simp] theorem State.setLog_modules (s : State) (l : List LogEntry) : (s.setLog l).modules = s.modules := rfl
@[simp] theorem State.setLog_bridge (s : State) (l : List LogEntry) : (s.setLog l).bridge = s.bridge := rfl
@[simp] theorem State.setLog_now (s : State) (l : List LogEntry) : (s.setLog l).now = s.now := rfl
@[simp] theorem State.setLog_turns (s : State) (l : List LogEntry) : (s.setLog l).turns = s.turns := rfl
@[simp] theorem State.setLog_place (s : State) (l : List LogEntry) : (s.setLog l).place = s.place := rfl
@[simp] theorem State.setLog_skipped (s : State) (l : List LogEntry) : (s.setLog l).skipped = s.skipped := rfl

/-! `State.abortDomain` -/

@[simp] theorem State.abortDomain_core (s : State) : (s.abortDomain).core = s.core := rfl
@[simp] theorem State.abortDomain_dies (s : State) : (s.abortDomain).dies = s.dies := rfl
@[simp] theorem State.abortDomain_pkgs (s : State) : (s.abortDomain).pkgs = s.pkgs := rfl
@[simp] theorem State.abortDomain_mem (s : State) : (s.abortDomain).mem = s.mem := rfl
@[simp] theorem State.abortDomain_bad (s : State) : (s.abortDomain).bad = s.bad := rfl
@[simp] theorem State.abortDomain_cleanLines (s : State) : (s.abortDomain).cleanLines = s.cleanLines := rfl
@[simp] theorem State.abortDomain_veils (s : State) : (s.abortDomain).veils = s.veils := rfl
@[simp] theorem State.abortDomain_queues (s : State) : (s.abortDomain).queues = s.queues := rfl
@[simp] theorem State.abortDomain_served (s : State) : (s.abortDomain).served = s.served := rfl
@[simp] theorem State.abortDomain_launches (s : State) : (s.abortDomain).launches = s.launches := rfl
@[simp] theorem State.abortDomain_nextLid (s : State) : (s.abortDomain).nextLid = s.nextLid := rfl
@[simp] theorem State.abortDomain_podBars (s : State) : (s.abortDomain).podBars = s.podBars := rfl
@[simp] theorem State.abortDomain_sigs (s : State) : (s.abortDomain).sigs = s.sigs := rfl
@[simp] theorem State.abortDomain_sigHomes (s : State) : (s.abortDomain).sigHomes = s.sigHomes := rfl
@[simp] theorem State.abortDomain_sigSeq (s : State) : (s.abortDomain).sigSeq = s.sigSeq := rfl
@[simp] theorem State.abortDomain_groups (s : State) : (s.abortDomain).groups = s.groups := rfl
@[simp] theorem State.abortDomain_eventq (s : State) : (s.abortDomain).eventq = s.eventq := rfl
@[simp] theorem State.abortDomain_hostReply (s : State) : (s.abortDomain).hostReply = s.hostReply := rfl
@[simp] theorem State.abortDomain_ring (s : State) : (s.abortDomain).ring = s.ring := rfl
@[simp] theorem State.abortDomain_modules (s : State) : (s.abortDomain).modules = s.modules := rfl
@[simp] theorem State.abortDomain_bridge (s : State) : (s.abortDomain).bridge = s.bridge := rfl
@[simp] theorem State.abortDomain_now (s : State) : (s.abortDomain).now = s.now := rfl
@[simp] theorem State.abortDomain_turns (s : State) : (s.abortDomain).turns = s.turns := rfl
@[simp] theorem State.abortDomain_place (s : State) : (s.abortDomain).place = s.place := rfl
@[simp] theorem State.abortDomain_skipped (s : State) : (s.abortDomain).skipped = s.skipped := rfl

/-! `Core.orFlags` -/

@[simp] theorem Core.orFlags_key (c : Core) (n : Nat) (f : Flags) : (c.orFlags n f).key = c.key := rfl
@[simp] theorem Core.orFlags_g (c : Core) (n : Nat) (f : Flags) : (c.orFlags n f).g = c.g := rfl
@[simp] theorem Core.orFlags_p (c : Core) (n : Nat) (f : Flags) : (c.orFlags n f).p = c.p := rfl
@[simp] theorem Core.orFlags_w (c : Core) (n : Nat) (f : Flags) : (c.orFlags n f).w = c.w := rfl
@[simp] theorem Core.orFlags_lc (c : Core) (n : Nat) (f : Flags) : (c.orFlags n f).lc = c.lc := rfl
@[simp] theorem Core.orFlags_gs (c : Core) (n : Nat) (f : Flags) : (c.orFlags n f).gs = c.gs := rfl
@[simp] theorem Core.orFlags_tok (c : Core) (n : Nat) (f : Flags) : (c.orFlags n f).tok = c.tok := rfl
@[simp] theorem Core.orFlags_pc (c : Core) (n : Nat) (f : Flags) : (c.orFlags n f).pc = c.pc := rfl
@[simp] theorem Core.orFlags_retStore (c : Core) (n : Nat) (f : Flags) : (c.orFlags n f).retStore = c.retStore := rfl
@[simp] theorem Core.orFlags_lcnt (c : Core) (n : Nat) (f : Flags) : (c.orFlags n f).lcnt = c.lcnt := rfl
@[simp] theorem Core.orFlags_planes (c : Core) (n : Nat) (f : Flags) : (c.orFlags n f).planes = c.planes := rfl
@[simp] theorem Core.orFlags_masks (c : Core) (n : Nat) (f : Flags) : (c.orFlags n f).masks = c.masks := rfl
@[simp] theorem Core.orFlags_vq (c : Core) (n : Nat) (f : Flags) : (c.orFlags n f).vq = c.vq := rfl
@[simp] theorem Core.orFlags_vfly (c : Core) (n : Nat) (f : Flags) : (c.orFlags n f).vfly = c.vfly := rfl
@[simp] theorem Core.orFlags_loads (c : Core) (n : Nat) (f : Flags) : (c.orFlags n f).loads = c.loads := rfl
@[simp] theorem Core.orFlags_stores (c : Core) (n : Nat) (f : Flags) : (c.orFlags n f).stores = c.stores := rfl
@[simp] theorem Core.orFlags_num (c : Core) (n : Nat) (f : Flags) : (c.orFlags n f).num = c.num := rfl
@[simp] theorem Core.orFlags_pq (c : Core) (n : Nat) (f : Flags) : (c.orFlags n f).pq = c.pq := rfl
@[simp] theorem Core.orFlags_prun (c : Core) (n : Nat) (f : Flags) : (c.orFlags n f).prun = c.prun := rfl
@[simp] theorem Core.orFlags_pent (c : Core) (n : Nat) (f : Flags) : (c.orFlags n f).pent = c.pent := rfl
@[simp] theorem Core.orFlags_acc (c : Core) (n : Nat) (f : Flags) : (c.orFlags n f).acc = c.acc := rfl
@[simp] theorem Core.orFlags_proj (c : Core) (n : Nat) (f : Flags) : (c.orFlags n f).proj = c.proj := rfl
@[simp] theorem Core.orFlags_handles (c : Core) (n : Nat) (f : Flags) : (c.orFlags n f).handles = c.handles := rfl
@[simp] theorem Core.orFlags_drains (c : Core) (n : Nat) (f : Flags) : (c.orFlags n f).drains = c.drains := rfl
@[simp] theorem Core.orFlags_bypass (c : Core) (n : Nat) (f : Flags) : (c.orFlags n f).bypass = c.bypass := rfl
@[simp] theorem Core.orFlags_bypNext (c : Core) (n : Nat) (f : Flags) : (c.orFlags n f).bypNext = c.bypNext := rfl
@[simp] theorem Core.orFlags_tq (c : Core) (n : Nat) (f : Flags) : (c.orFlags n f).tq = c.tq := rfl
@[simp] theorem Core.orFlags_trun (c : Core) (n : Nat) (f : Flags) : (c.orFlags n f).trun = c.trun := rfl
@[simp] theorem Core.orFlags_tent (c : Core) (n : Nat) (f : Flags) : (c.orFlags n f).tent = c.tent := rfl
@[simp] theorem Core.orFlags_stencils (c : Core) (n : Nat) (f : Flags) : (c.orFlags n f).stencils = c.stencils := rfl
@[simp] theorem Core.orFlags_bars (c : Core) (n : Nat) (f : Flags) : (c.orFlags n f).bars = c.bars := rfl
@[simp] theorem Core.orFlags_held (c : Core) (n : Nat) (f : Flags) : (c.orFlags n f).held = c.held := rfl
@[simp] theorem Core.orFlags_log (c : Core) (n : Nat) (f : Flags) : (c.orFlags n f).log = c.log := rfl
@[simp] theorem Core.orFlags_phase (c : Core) (n : Nat) (f : Flags) : (c.orFlags n f).phase = c.phase := rfl
@[simp] theorem Core.orFlags_task (c : Core) (n : Nat) (f : Flags) : (c.orFlags n f).task = c.task := rfl
@[simp] theorem Core.orFlags_stop (c : Core) (n : Nat) (f : Flags) : (c.orFlags n f).stop = c.stop := rfl
@[simp] theorem Core.orFlags_watch (c : Core) (n : Nat) (f : Flags) : (c.orFlags n f).watch = c.watch := rfl
@[simp] theorem Core.orFlags_origin (c : Core) (n : Nat) (f : Flags) : (c.orFlags n f).origin = c.origin := rfl
@[simp] theorem Core.orFlags_span (c : Core) (n : Nat) (f : Flags) : (c.orFlags n f).span = c.span := rfl
@[simp] theorem Core.orFlags_tau (c : Core) (n : Nat) (f : Flags) : (c.orFlags n f).tau = c.tau := rfl
@[simp] theorem Core.orFlags_begun (c : Core) (n : Nat) (f : Flags) : (c.orFlags n f).begun = c.begun := rfl
@[simp] theorem Core.orFlags_verdict (c : Core) (n : Nat) (f : Flags) : (c.orFlags n f).verdict = c.verdict := rfl
@[simp] theorem Core.orFlags_stalled (c : Core) (n : Nat) (f : Flags) : (c.orFlags n f).stalled = c.stalled := rfl
@[simp] theorem Core.orFlags_slow (c : Core) (n : Nat) (f : Flags) : (c.orFlags n f).slow = c.slow := rfl
@[simp] theorem Core.orFlags_entering (c : Core) (n : Nat) (f : Flags) : (c.orFlags n f).entering = c.entering := rfl
@[simp] theorem Core.orFlags_clk (c : Core) (n : Nat) (f : Flags) : (c.orFlags n f).clk = c.clk := rfl
@[simp] theorem Core.orFlags_rep (c : Core) (n : Nat) (f : Flags) : (c.orFlags n f).rep = c.rep := rfl
@[simp] theorem Core.orFlags_repResume (c : Core) (n : Nat) (f : Flags) : (c.orFlags n f).repResume = c.repResume := rfl
@[simp] theorem Core.orFlags_repHeld (c : Core) (n : Nat) (f : Flags) : (c.orFlags n f).repHeld = c.repHeld := rfl
@[simp] theorem Core.orFlags_ir (c : Core) (n : Nat) (f : Flags) : (c.orFlags n f).ir = c.ir := rfl
@[simp] theorem Core.orFlags_wait (c : Core) (n : Nat) (f : Flags) : (c.orFlags n f).wait = c.wait := rfl
@[simp] theorem Core.orFlags_unpin (c : Core) (n : Nat) (f : Flags) : (c.orFlags n f).unpin = c.unpin := rfl
@[simp] theorem Core.orFlags_mergeFault (c : Core) (n : Nat) (f : Flags) : (c.orFlags n f).mergeFault = c.mergeFault := rfl
@[simp] theorem Core.orFlags_abortTid (c : Core) (n : Nat) (f : Flags) : (c.orFlags n f).abortTid = c.abortTid := rfl
@[simp] theorem Core.orFlags_trap (c : Core) (n : Nat) (f : Flags) : (c.orFlags n f).trap = c.trap := rfl
@[simp] theorem Core.orFlags_oldCode (c : Core) (n : Nat) (f : Flags) : (c.orFlags n f).oldCode = c.oldCode := rfl
@[simp] theorem Core.orFlags_codeLines (c : Core) (n : Nat) (f : Flags) : (c.orFlags n f).codeLines = c.codeLines := rfl
@[simp] theorem Core.orFlags_clean (c : Core) (n : Nat) (f : Flags) : (c.orFlags n f).clean = c.clean := rfl
@[simp] theorem Core.orFlags_fetches (c : Core) (n : Nat) (f : Flags) : (c.orFlags n f).fetches = c.fetches := rfl
@[simp] theorem Core.orFlags_clock (c : Core) (n : Nat) (f : Flags) : (c.orFlags n f).clock = c.clock := rfl
@[simp] theorem Core.orFlags_stepAge (c : Core) (n : Nat) (f : Flags) : (c.orFlags n f).stepAge = c.stepAge := rfl
@[simp] theorem Core.orFlags_vfree (c : Core) (n : Nat) (f : Flags) : (c.orFlags n f).vfree = c.vfree := rfl
@[simp] theorem Core.orFlags_score (c : Core) (n : Nat) (f : Flags) : (c.orFlags n f).score = c.score := rfl
@[simp] theorem Core.orFlags_nextAt (c : Core) (n : Nat) (f : Flags) : (c.orFlags n f).nextAt = c.nextAt := rfl

/-! `Core.setTok` -/

@[simp] theorem Core.setTok_key (c : Core) (n : Nat) (f : Token → Token) : (c.setTok n f).key = c.key := rfl
@[simp] theorem Core.setTok_g (c : Core) (n : Nat) (f : Token → Token) : (c.setTok n f).g = c.g := rfl
@[simp] theorem Core.setTok_p (c : Core) (n : Nat) (f : Token → Token) : (c.setTok n f).p = c.p := rfl
@[simp] theorem Core.setTok_w (c : Core) (n : Nat) (f : Token → Token) : (c.setTok n f).w = c.w := rfl
@[simp] theorem Core.setTok_lc (c : Core) (n : Nat) (f : Token → Token) : (c.setTok n f).lc = c.lc := rfl
@[simp] theorem Core.setTok_gs (c : Core) (n : Nat) (f : Token → Token) : (c.setTok n f).gs = c.gs := rfl
@[simp] theorem Core.setTok_pc (c : Core) (n : Nat) (f : Token → Token) : (c.setTok n f).pc = c.pc := rfl
@[simp] theorem Core.setTok_retStore (c : Core) (n : Nat) (f : Token → Token) : (c.setTok n f).retStore = c.retStore := rfl
@[simp] theorem Core.setTok_lcnt (c : Core) (n : Nat) (f : Token → Token) : (c.setTok n f).lcnt = c.lcnt := rfl
@[simp] theorem Core.setTok_ctl (c : Core) (n : Nat) (f : Token → Token) : (c.setTok n f).ctl = c.ctl := rfl
@[simp] theorem Core.setTok_planes (c : Core) (n : Nat) (f : Token → Token) : (c.setTok n f).planes = c.planes := rfl
@[simp] theorem Core.setTok_masks (c : Core) (n : Nat) (f : Token → Token) : (c.setTok n f).masks = c.masks := rfl
@[simp] theorem Core.setTok_vq (c : Core) (n : Nat) (f : Token → Token) : (c.setTok n f).vq = c.vq := rfl
@[simp] theorem Core.setTok_vfly (c : Core) (n : Nat) (f : Token → Token) : (c.setTok n f).vfly = c.vfly := rfl
@[simp] theorem Core.setTok_loads (c : Core) (n : Nat) (f : Token → Token) : (c.setTok n f).loads = c.loads := rfl
@[simp] theorem Core.setTok_stores (c : Core) (n : Nat) (f : Token → Token) : (c.setTok n f).stores = c.stores := rfl
@[simp] theorem Core.setTok_num (c : Core) (n : Nat) (f : Token → Token) : (c.setTok n f).num = c.num := rfl
@[simp] theorem Core.setTok_pq (c : Core) (n : Nat) (f : Token → Token) : (c.setTok n f).pq = c.pq := rfl
@[simp] theorem Core.setTok_prun (c : Core) (n : Nat) (f : Token → Token) : (c.setTok n f).prun = c.prun := rfl
@[simp] theorem Core.setTok_pent (c : Core) (n : Nat) (f : Token → Token) : (c.setTok n f).pent = c.pent := rfl
@[simp] theorem Core.setTok_acc (c : Core) (n : Nat) (f : Token → Token) : (c.setTok n f).acc = c.acc := rfl
@[simp] theorem Core.setTok_proj (c : Core) (n : Nat) (f : Token → Token) : (c.setTok n f).proj = c.proj := rfl
@[simp] theorem Core.setTok_handles (c : Core) (n : Nat) (f : Token → Token) : (c.setTok n f).handles = c.handles := rfl
@[simp] theorem Core.setTok_drains (c : Core) (n : Nat) (f : Token → Token) : (c.setTok n f).drains = c.drains := rfl
@[simp] theorem Core.setTok_bypass (c : Core) (n : Nat) (f : Token → Token) : (c.setTok n f).bypass = c.bypass := rfl
@[simp] theorem Core.setTok_bypNext (c : Core) (n : Nat) (f : Token → Token) : (c.setTok n f).bypNext = c.bypNext := rfl
@[simp] theorem Core.setTok_tq (c : Core) (n : Nat) (f : Token → Token) : (c.setTok n f).tq = c.tq := rfl
@[simp] theorem Core.setTok_trun (c : Core) (n : Nat) (f : Token → Token) : (c.setTok n f).trun = c.trun := rfl
@[simp] theorem Core.setTok_tent (c : Core) (n : Nat) (f : Token → Token) : (c.setTok n f).tent = c.tent := rfl
@[simp] theorem Core.setTok_stencils (c : Core) (n : Nat) (f : Token → Token) : (c.setTok n f).stencils = c.stencils := rfl
@[simp] theorem Core.setTok_bars (c : Core) (n : Nat) (f : Token → Token) : (c.setTok n f).bars = c.bars := rfl
@[simp] theorem Core.setTok_held (c : Core) (n : Nat) (f : Token → Token) : (c.setTok n f).held = c.held := rfl
@[simp] theorem Core.setTok_log (c : Core) (n : Nat) (f : Token → Token) : (c.setTok n f).log = c.log := rfl
@[simp] theorem Core.setTok_phase (c : Core) (n : Nat) (f : Token → Token) : (c.setTok n f).phase = c.phase := rfl
@[simp] theorem Core.setTok_task (c : Core) (n : Nat) (f : Token → Token) : (c.setTok n f).task = c.task := rfl
@[simp] theorem Core.setTok_stop (c : Core) (n : Nat) (f : Token → Token) : (c.setTok n f).stop = c.stop := rfl
@[simp] theorem Core.setTok_watch (c : Core) (n : Nat) (f : Token → Token) : (c.setTok n f).watch = c.watch := rfl
@[simp] theorem Core.setTok_origin (c : Core) (n : Nat) (f : Token → Token) : (c.setTok n f).origin = c.origin := rfl
@[simp] theorem Core.setTok_span (c : Core) (n : Nat) (f : Token → Token) : (c.setTok n f).span = c.span := rfl
@[simp] theorem Core.setTok_tau (c : Core) (n : Nat) (f : Token → Token) : (c.setTok n f).tau = c.tau := rfl
@[simp] theorem Core.setTok_begun (c : Core) (n : Nat) (f : Token → Token) : (c.setTok n f).begun = c.begun := rfl
@[simp] theorem Core.setTok_verdict (c : Core) (n : Nat) (f : Token → Token) : (c.setTok n f).verdict = c.verdict := rfl
@[simp] theorem Core.setTok_stalled (c : Core) (n : Nat) (f : Token → Token) : (c.setTok n f).stalled = c.stalled := rfl
@[simp] theorem Core.setTok_slow (c : Core) (n : Nat) (f : Token → Token) : (c.setTok n f).slow = c.slow := rfl
@[simp] theorem Core.setTok_entering (c : Core) (n : Nat) (f : Token → Token) : (c.setTok n f).entering = c.entering := rfl
@[simp] theorem Core.setTok_clk (c : Core) (n : Nat) (f : Token → Token) : (c.setTok n f).clk = c.clk := rfl
@[simp] theorem Core.setTok_rep (c : Core) (n : Nat) (f : Token → Token) : (c.setTok n f).rep = c.rep := rfl
@[simp] theorem Core.setTok_repResume (c : Core) (n : Nat) (f : Token → Token) : (c.setTok n f).repResume = c.repResume := rfl
@[simp] theorem Core.setTok_repHeld (c : Core) (n : Nat) (f : Token → Token) : (c.setTok n f).repHeld = c.repHeld := rfl
@[simp] theorem Core.setTok_ir (c : Core) (n : Nat) (f : Token → Token) : (c.setTok n f).ir = c.ir := rfl
@[simp] theorem Core.setTok_wait (c : Core) (n : Nat) (f : Token → Token) : (c.setTok n f).wait = c.wait := rfl
@[simp] theorem Core.setTok_unpin (c : Core) (n : Nat) (f : Token → Token) : (c.setTok n f).unpin = c.unpin := rfl
@[simp] theorem Core.setTok_mergeFault (c : Core) (n : Nat) (f : Token → Token) : (c.setTok n f).mergeFault = c.mergeFault := rfl
@[simp] theorem Core.setTok_abortTid (c : Core) (n : Nat) (f : Token → Token) : (c.setTok n f).abortTid = c.abortTid := rfl
@[simp] theorem Core.setTok_trap (c : Core) (n : Nat) (f : Token → Token) : (c.setTok n f).trap = c.trap := rfl
@[simp] theorem Core.setTok_oldCode (c : Core) (n : Nat) (f : Token → Token) : (c.setTok n f).oldCode = c.oldCode := rfl
@[simp] theorem Core.setTok_codeLines (c : Core) (n : Nat) (f : Token → Token) : (c.setTok n f).codeLines = c.codeLines := rfl
@[simp] theorem Core.setTok_clean (c : Core) (n : Nat) (f : Token → Token) : (c.setTok n f).clean = c.clean := rfl
@[simp] theorem Core.setTok_fetches (c : Core) (n : Nat) (f : Token → Token) : (c.setTok n f).fetches = c.fetches := rfl
@[simp] theorem Core.setTok_clock (c : Core) (n : Nat) (f : Token → Token) : (c.setTok n f).clock = c.clock := rfl
@[simp] theorem Core.setTok_stepAge (c : Core) (n : Nat) (f : Token → Token) : (c.setTok n f).stepAge = c.stepAge := rfl
@[simp] theorem Core.setTok_vfree (c : Core) (n : Nat) (f : Token → Token) : (c.setTok n f).vfree = c.vfree := rfl
@[simp] theorem Core.setTok_score (c : Core) (n : Nat) (f : Token → Token) : (c.setTok n f).score = c.score := rfl
@[simp] theorem Core.setTok_nextAt (c : Core) (n : Nat) (f : Token → Token) : (c.setTok n f).nextAt = c.nextAt := rfl
@[simp] theorem Core.setTok_newFlags (c : Core) (n : Nat) (f : Token → Token) : (c.setTok n f).newFlags = c.newFlags := rfl

/-! `Core.setBarrier` -/

@[simp] theorem Core.setBarrier_key (c : Core) (n : Nat) (f : Barrier → Barrier) : (c.setBarrier n f).key = c.key := rfl
@[simp] theorem Core.setBarrier_g (c : Core) (n : Nat) (f : Barrier → Barrier) : (c.setBarrier n f).g = c.g := rfl
@[simp] theorem Core.setBarrier_p (c : Core) (n : Nat) (f : Barrier → Barrier) : (c.setBarrier n f).p = c.p := rfl
@[simp] theorem Core.setBarrier_w (c : Core) (n : Nat) (f : Barrier → Barrier) : (c.setBarrier n f).w = c.w := rfl
@[simp] theorem Core.setBarrier_lc (c : Core) (n : Nat) (f : Barrier → Barrier) : (c.setBarrier n f).lc = c.lc := rfl
@[simp] theorem Core.setBarrier_gs (c : Core) (n : Nat) (f : Barrier → Barrier) : (c.setBarrier n f).gs = c.gs := rfl
@[simp] theorem Core.setBarrier_tok (c : Core) (n : Nat) (f : Barrier → Barrier) : (c.setBarrier n f).tok = c.tok := rfl
@[simp] theorem Core.setBarrier_pc (c : Core) (n : Nat) (f : Barrier → Barrier) : (c.setBarrier n f).pc = c.pc := rfl
@[simp] theorem Core.setBarrier_retStore (c : Core) (n : Nat) (f : Barrier → Barrier) : (c.setBarrier n f).retStore = c.retStore := rfl
@[simp] theorem Core.setBarrier_lcnt (c : Core) (n : Nat) (f : Barrier → Barrier) : (c.setBarrier n f).lcnt = c.lcnt := rfl
@[simp] theorem Core.setBarrier_ctl (c : Core) (n : Nat) (f : Barrier → Barrier) : (c.setBarrier n f).ctl = c.ctl := rfl
@[simp] theorem Core.setBarrier_planes (c : Core) (n : Nat) (f : Barrier → Barrier) : (c.setBarrier n f).planes = c.planes := rfl
@[simp] theorem Core.setBarrier_masks (c : Core) (n : Nat) (f : Barrier → Barrier) : (c.setBarrier n f).masks = c.masks := rfl
@[simp] theorem Core.setBarrier_vq (c : Core) (n : Nat) (f : Barrier → Barrier) : (c.setBarrier n f).vq = c.vq := rfl
@[simp] theorem Core.setBarrier_vfly (c : Core) (n : Nat) (f : Barrier → Barrier) : (c.setBarrier n f).vfly = c.vfly := rfl
@[simp] theorem Core.setBarrier_loads (c : Core) (n : Nat) (f : Barrier → Barrier) : (c.setBarrier n f).loads = c.loads := rfl
@[simp] theorem Core.setBarrier_stores (c : Core) (n : Nat) (f : Barrier → Barrier) : (c.setBarrier n f).stores = c.stores := rfl
@[simp] theorem Core.setBarrier_num (c : Core) (n : Nat) (f : Barrier → Barrier) : (c.setBarrier n f).num = c.num := rfl
@[simp] theorem Core.setBarrier_pq (c : Core) (n : Nat) (f : Barrier → Barrier) : (c.setBarrier n f).pq = c.pq := rfl
@[simp] theorem Core.setBarrier_prun (c : Core) (n : Nat) (f : Barrier → Barrier) : (c.setBarrier n f).prun = c.prun := rfl
@[simp] theorem Core.setBarrier_pent (c : Core) (n : Nat) (f : Barrier → Barrier) : (c.setBarrier n f).pent = c.pent := rfl
@[simp] theorem Core.setBarrier_acc (c : Core) (n : Nat) (f : Barrier → Barrier) : (c.setBarrier n f).acc = c.acc := rfl
@[simp] theorem Core.setBarrier_proj (c : Core) (n : Nat) (f : Barrier → Barrier) : (c.setBarrier n f).proj = c.proj := rfl
@[simp] theorem Core.setBarrier_handles (c : Core) (n : Nat) (f : Barrier → Barrier) : (c.setBarrier n f).handles = c.handles := rfl
@[simp] theorem Core.setBarrier_drains (c : Core) (n : Nat) (f : Barrier → Barrier) : (c.setBarrier n f).drains = c.drains := rfl
@[simp] theorem Core.setBarrier_bypass (c : Core) (n : Nat) (f : Barrier → Barrier) : (c.setBarrier n f).bypass = c.bypass := rfl
@[simp] theorem Core.setBarrier_bypNext (c : Core) (n : Nat) (f : Barrier → Barrier) : (c.setBarrier n f).bypNext = c.bypNext := rfl
@[simp] theorem Core.setBarrier_tq (c : Core) (n : Nat) (f : Barrier → Barrier) : (c.setBarrier n f).tq = c.tq := rfl
@[simp] theorem Core.setBarrier_trun (c : Core) (n : Nat) (f : Barrier → Barrier) : (c.setBarrier n f).trun = c.trun := rfl
@[simp] theorem Core.setBarrier_tent (c : Core) (n : Nat) (f : Barrier → Barrier) : (c.setBarrier n f).tent = c.tent := rfl
@[simp] theorem Core.setBarrier_stencils (c : Core) (n : Nat) (f : Barrier → Barrier) : (c.setBarrier n f).stencils = c.stencils := rfl
@[simp] theorem Core.setBarrier_held (c : Core) (n : Nat) (f : Barrier → Barrier) : (c.setBarrier n f).held = c.held := rfl
@[simp] theorem Core.setBarrier_log (c : Core) (n : Nat) (f : Barrier → Barrier) : (c.setBarrier n f).log = c.log := rfl
@[simp] theorem Core.setBarrier_phase (c : Core) (n : Nat) (f : Barrier → Barrier) : (c.setBarrier n f).phase = c.phase := rfl
@[simp] theorem Core.setBarrier_task (c : Core) (n : Nat) (f : Barrier → Barrier) : (c.setBarrier n f).task = c.task := rfl
@[simp] theorem Core.setBarrier_stop (c : Core) (n : Nat) (f : Barrier → Barrier) : (c.setBarrier n f).stop = c.stop := rfl
@[simp] theorem Core.setBarrier_watch (c : Core) (n : Nat) (f : Barrier → Barrier) : (c.setBarrier n f).watch = c.watch := rfl
@[simp] theorem Core.setBarrier_origin (c : Core) (n : Nat) (f : Barrier → Barrier) : (c.setBarrier n f).origin = c.origin := rfl
@[simp] theorem Core.setBarrier_span (c : Core) (n : Nat) (f : Barrier → Barrier) : (c.setBarrier n f).span = c.span := rfl
@[simp] theorem Core.setBarrier_tau (c : Core) (n : Nat) (f : Barrier → Barrier) : (c.setBarrier n f).tau = c.tau := rfl
@[simp] theorem Core.setBarrier_begun (c : Core) (n : Nat) (f : Barrier → Barrier) : (c.setBarrier n f).begun = c.begun := rfl
@[simp] theorem Core.setBarrier_verdict (c : Core) (n : Nat) (f : Barrier → Barrier) : (c.setBarrier n f).verdict = c.verdict := rfl
@[simp] theorem Core.setBarrier_stalled (c : Core) (n : Nat) (f : Barrier → Barrier) : (c.setBarrier n f).stalled = c.stalled := rfl
@[simp] theorem Core.setBarrier_slow (c : Core) (n : Nat) (f : Barrier → Barrier) : (c.setBarrier n f).slow = c.slow := rfl
@[simp] theorem Core.setBarrier_entering (c : Core) (n : Nat) (f : Barrier → Barrier) : (c.setBarrier n f).entering = c.entering := rfl
@[simp] theorem Core.setBarrier_clk (c : Core) (n : Nat) (f : Barrier → Barrier) : (c.setBarrier n f).clk = c.clk := rfl
@[simp] theorem Core.setBarrier_rep (c : Core) (n : Nat) (f : Barrier → Barrier) : (c.setBarrier n f).rep = c.rep := rfl
@[simp] theorem Core.setBarrier_repResume (c : Core) (n : Nat) (f : Barrier → Barrier) : (c.setBarrier n f).repResume = c.repResume := rfl
@[simp] theorem Core.setBarrier_repHeld (c : Core) (n : Nat) (f : Barrier → Barrier) : (c.setBarrier n f).repHeld = c.repHeld := rfl
@[simp] theorem Core.setBarrier_ir (c : Core) (n : Nat) (f : Barrier → Barrier) : (c.setBarrier n f).ir = c.ir := rfl
@[simp] theorem Core.setBarrier_wait (c : Core) (n : Nat) (f : Barrier → Barrier) : (c.setBarrier n f).wait = c.wait := rfl
@[simp] theorem Core.setBarrier_unpin (c : Core) (n : Nat) (f : Barrier → Barrier) : (c.setBarrier n f).unpin = c.unpin := rfl
@[simp] theorem Core.setBarrier_mergeFault (c : Core) (n : Nat) (f : Barrier → Barrier) : (c.setBarrier n f).mergeFault = c.mergeFault := rfl
@[simp] theorem Core.setBarrier_abortTid (c : Core) (n : Nat) (f : Barrier → Barrier) : (c.setBarrier n f).abortTid = c.abortTid := rfl
@[simp] theorem Core.setBarrier_trap (c : Core) (n : Nat) (f : Barrier → Barrier) : (c.setBarrier n f).trap = c.trap := rfl
@[simp] theorem Core.setBarrier_oldCode (c : Core) (n : Nat) (f : Barrier → Barrier) : (c.setBarrier n f).oldCode = c.oldCode := rfl
@[simp] theorem Core.setBarrier_codeLines (c : Core) (n : Nat) (f : Barrier → Barrier) : (c.setBarrier n f).codeLines = c.codeLines := rfl
@[simp] theorem Core.setBarrier_fetches (c : Core) (n : Nat) (f : Barrier → Barrier) : (c.setBarrier n f).fetches = c.fetches := rfl
@[simp] theorem Core.setBarrier_clock (c : Core) (n : Nat) (f : Barrier → Barrier) : (c.setBarrier n f).clock = c.clock := rfl
@[simp] theorem Core.setBarrier_stepAge (c : Core) (n : Nat) (f : Barrier → Barrier) : (c.setBarrier n f).stepAge = c.stepAge := rfl
@[simp] theorem Core.setBarrier_vfree (c : Core) (n : Nat) (f : Barrier → Barrier) : (c.setBarrier n f).vfree = c.vfree := rfl
@[simp] theorem Core.setBarrier_score (c : Core) (n : Nat) (f : Barrier → Barrier) : (c.setBarrier n f).score = c.score := rfl
@[simp] theorem Core.setBarrier_nextAt (c : Core) (n : Nat) (f : Barrier → Barrier) : (c.setBarrier n f).nextAt = c.nextAt := rfl
@[simp] theorem Core.setBarrier_newFlags (c : Core) (n : Nat) (f : Barrier → Barrier) : (c.setBarrier n f).newFlags = c.newFlags := rfl

/-! `Core.setAcc` -/

@[simp] theorem Core.setAcc_key (c : Core) (k : Nat) (e : AccEntry) : (c.setAcc k e).key = c.key := rfl
@[simp] theorem Core.setAcc_g (c : Core) (k : Nat) (e : AccEntry) : (c.setAcc k e).g = c.g := rfl
@[simp] theorem Core.setAcc_p (c : Core) (k : Nat) (e : AccEntry) : (c.setAcc k e).p = c.p := rfl
@[simp] theorem Core.setAcc_w (c : Core) (k : Nat) (e : AccEntry) : (c.setAcc k e).w = c.w := rfl
@[simp] theorem Core.setAcc_lc (c : Core) (k : Nat) (e : AccEntry) : (c.setAcc k e).lc = c.lc := rfl
@[simp] theorem Core.setAcc_gs (c : Core) (k : Nat) (e : AccEntry) : (c.setAcc k e).gs = c.gs := rfl
@[simp] theorem Core.setAcc_tok (c : Core) (k : Nat) (e : AccEntry) : (c.setAcc k e).tok = c.tok := rfl
@[simp] theorem Core.setAcc_pc (c : Core) (k : Nat) (e : AccEntry) : (c.setAcc k e).pc = c.pc := rfl
@[simp] theorem Core.setAcc_retStore (c : Core) (k : Nat) (e : AccEntry) : (c.setAcc k e).retStore = c.retStore := rfl
@[simp] theorem Core.setAcc_lcnt (c : Core) (k : Nat) (e : AccEntry) : (c.setAcc k e).lcnt = c.lcnt := rfl
@[simp] theorem Core.setAcc_ctl (c : Core) (k : Nat) (e : AccEntry) : (c.setAcc k e).ctl = c.ctl := rfl
@[simp] theorem Core.setAcc_planes (c : Core) (k : Nat) (e : AccEntry) : (c.setAcc k e).planes = c.planes := rfl
@[simp] theorem Core.setAcc_masks (c : Core) (k : Nat) (e : AccEntry) : (c.setAcc k e).masks = c.masks := rfl
@[simp] theorem Core.setAcc_vq (c : Core) (k : Nat) (e : AccEntry) : (c.setAcc k e).vq = c.vq := rfl
@[simp] theorem Core.setAcc_vfly (c : Core) (k : Nat) (e : AccEntry) : (c.setAcc k e).vfly = c.vfly := rfl
@[simp] theorem Core.setAcc_loads (c : Core) (k : Nat) (e : AccEntry) : (c.setAcc k e).loads = c.loads := rfl
@[simp] theorem Core.setAcc_stores (c : Core) (k : Nat) (e : AccEntry) : (c.setAcc k e).stores = c.stores := rfl
@[simp] theorem Core.setAcc_num (c : Core) (k : Nat) (e : AccEntry) : (c.setAcc k e).num = c.num := rfl
@[simp] theorem Core.setAcc_pq (c : Core) (k : Nat) (e : AccEntry) : (c.setAcc k e).pq = c.pq := rfl
@[simp] theorem Core.setAcc_prun (c : Core) (k : Nat) (e : AccEntry) : (c.setAcc k e).prun = c.prun := rfl
@[simp] theorem Core.setAcc_pent (c : Core) (k : Nat) (e : AccEntry) : (c.setAcc k e).pent = c.pent := rfl
@[simp] theorem Core.setAcc_proj (c : Core) (k : Nat) (e : AccEntry) : (c.setAcc k e).proj = c.proj := rfl
@[simp] theorem Core.setAcc_handles (c : Core) (k : Nat) (e : AccEntry) : (c.setAcc k e).handles = c.handles := rfl
@[simp] theorem Core.setAcc_drains (c : Core) (k : Nat) (e : AccEntry) : (c.setAcc k e).drains = c.drains := rfl
@[simp] theorem Core.setAcc_bypass (c : Core) (k : Nat) (e : AccEntry) : (c.setAcc k e).bypass = c.bypass := rfl
@[simp] theorem Core.setAcc_bypNext (c : Core) (k : Nat) (e : AccEntry) : (c.setAcc k e).bypNext = c.bypNext := rfl
@[simp] theorem Core.setAcc_tq (c : Core) (k : Nat) (e : AccEntry) : (c.setAcc k e).tq = c.tq := rfl
@[simp] theorem Core.setAcc_trun (c : Core) (k : Nat) (e : AccEntry) : (c.setAcc k e).trun = c.trun := rfl
@[simp] theorem Core.setAcc_tent (c : Core) (k : Nat) (e : AccEntry) : (c.setAcc k e).tent = c.tent := rfl
@[simp] theorem Core.setAcc_stencils (c : Core) (k : Nat) (e : AccEntry) : (c.setAcc k e).stencils = c.stencils := rfl
@[simp] theorem Core.setAcc_bars (c : Core) (k : Nat) (e : AccEntry) : (c.setAcc k e).bars = c.bars := rfl
@[simp] theorem Core.setAcc_held (c : Core) (k : Nat) (e : AccEntry) : (c.setAcc k e).held = c.held := rfl
@[simp] theorem Core.setAcc_log (c : Core) (k : Nat) (e : AccEntry) : (c.setAcc k e).log = c.log := rfl
@[simp] theorem Core.setAcc_phase (c : Core) (k : Nat) (e : AccEntry) : (c.setAcc k e).phase = c.phase := rfl
@[simp] theorem Core.setAcc_task (c : Core) (k : Nat) (e : AccEntry) : (c.setAcc k e).task = c.task := rfl
@[simp] theorem Core.setAcc_stop (c : Core) (k : Nat) (e : AccEntry) : (c.setAcc k e).stop = c.stop := rfl
@[simp] theorem Core.setAcc_watch (c : Core) (k : Nat) (e : AccEntry) : (c.setAcc k e).watch = c.watch := rfl
@[simp] theorem Core.setAcc_origin (c : Core) (k : Nat) (e : AccEntry) : (c.setAcc k e).origin = c.origin := rfl
@[simp] theorem Core.setAcc_span (c : Core) (k : Nat) (e : AccEntry) : (c.setAcc k e).span = c.span := rfl
@[simp] theorem Core.setAcc_tau (c : Core) (k : Nat) (e : AccEntry) : (c.setAcc k e).tau = c.tau := rfl
@[simp] theorem Core.setAcc_begun (c : Core) (k : Nat) (e : AccEntry) : (c.setAcc k e).begun = c.begun := rfl
@[simp] theorem Core.setAcc_verdict (c : Core) (k : Nat) (e : AccEntry) : (c.setAcc k e).verdict = c.verdict := rfl
@[simp] theorem Core.setAcc_stalled (c : Core) (k : Nat) (e : AccEntry) : (c.setAcc k e).stalled = c.stalled := rfl
@[simp] theorem Core.setAcc_slow (c : Core) (k : Nat) (e : AccEntry) : (c.setAcc k e).slow = c.slow := rfl
@[simp] theorem Core.setAcc_entering (c : Core) (k : Nat) (e : AccEntry) : (c.setAcc k e).entering = c.entering := rfl
@[simp] theorem Core.setAcc_clk (c : Core) (k : Nat) (e : AccEntry) : (c.setAcc k e).clk = c.clk := rfl
@[simp] theorem Core.setAcc_rep (c : Core) (k : Nat) (e : AccEntry) : (c.setAcc k e).rep = c.rep := rfl
@[simp] theorem Core.setAcc_repResume (c : Core) (k : Nat) (e : AccEntry) : (c.setAcc k e).repResume = c.repResume := rfl
@[simp] theorem Core.setAcc_repHeld (c : Core) (k : Nat) (e : AccEntry) : (c.setAcc k e).repHeld = c.repHeld := rfl
@[simp] theorem Core.setAcc_ir (c : Core) (k : Nat) (e : AccEntry) : (c.setAcc k e).ir = c.ir := rfl
@[simp] theorem Core.setAcc_wait (c : Core) (k : Nat) (e : AccEntry) : (c.setAcc k e).wait = c.wait := rfl
@[simp] theorem Core.setAcc_unpin (c : Core) (k : Nat) (e : AccEntry) : (c.setAcc k e).unpin = c.unpin := rfl
@[simp] theorem Core.setAcc_mergeFault (c : Core) (k : Nat) (e : AccEntry) : (c.setAcc k e).mergeFault = c.mergeFault := rfl
@[simp] theorem Core.setAcc_abortTid (c : Core) (k : Nat) (e : AccEntry) : (c.setAcc k e).abortTid = c.abortTid := rfl
@[simp] theorem Core.setAcc_trap (c : Core) (k : Nat) (e : AccEntry) : (c.setAcc k e).trap = c.trap := rfl
@[simp] theorem Core.setAcc_oldCode (c : Core) (k : Nat) (e : AccEntry) : (c.setAcc k e).oldCode = c.oldCode := rfl
@[simp] theorem Core.setAcc_codeLines (c : Core) (k : Nat) (e : AccEntry) : (c.setAcc k e).codeLines = c.codeLines := rfl
@[simp] theorem Core.setAcc_fetches (c : Core) (k : Nat) (e : AccEntry) : (c.setAcc k e).fetches = c.fetches := rfl
@[simp] theorem Core.setAcc_clock (c : Core) (k : Nat) (e : AccEntry) : (c.setAcc k e).clock = c.clock := rfl
@[simp] theorem Core.setAcc_stepAge (c : Core) (k : Nat) (e : AccEntry) : (c.setAcc k e).stepAge = c.stepAge := rfl
@[simp] theorem Core.setAcc_vfree (c : Core) (k : Nat) (e : AccEntry) : (c.setAcc k e).vfree = c.vfree := rfl
@[simp] theorem Core.setAcc_score (c : Core) (k : Nat) (e : AccEntry) : (c.setAcc k e).score = c.score := rfl
@[simp] theorem Core.setAcc_nextAt (c : Core) (k : Nat) (e : AccEntry) : (c.setAcc k e).nextAt = c.nextAt := rfl
@[simp] theorem Core.setAcc_newFlags (c : Core) (k : Nat) (e : AccEntry) : (c.setAcc k e).newFlags = c.newFlags := rfl

/-! `Core.project` -/

@[simp] theorem Core.project_key (c : Core) (l : List (Nat × Proj)) : (c.project l).key = c.key := rfl
@[simp] theorem Core.project_g (c : Core) (l : List (Nat × Proj)) : (c.project l).g = c.g := rfl
@[simp] theorem Core.project_p (c : Core) (l : List (Nat × Proj)) : (c.project l).p = c.p := rfl
@[simp] theorem Core.project_w (c : Core) (l : List (Nat × Proj)) : (c.project l).w = c.w := rfl
@[simp] theorem Core.project_lc (c : Core) (l : List (Nat × Proj)) : (c.project l).lc = c.lc := rfl
@[simp] theorem Core.project_gs (c : Core) (l : List (Nat × Proj)) : (c.project l).gs = c.gs := rfl
@[simp] theorem Core.project_tok (c : Core) (l : List (Nat × Proj)) : (c.project l).tok = c.tok := rfl
@[simp] theorem Core.project_pc (c : Core) (l : List (Nat × Proj)) : (c.project l).pc = c.pc := rfl
@[simp] theorem Core.project_retStore (c : Core) (l : List (Nat × Proj)) : (c.project l).retStore = c.retStore := rfl
@[simp] theorem Core.project_lcnt (c : Core) (l : List (Nat × Proj)) : (c.project l).lcnt = c.lcnt := rfl
@[simp] theorem Core.project_ctl (c : Core) (l : List (Nat × Proj)) : (c.project l).ctl = c.ctl := rfl
@[simp] theorem Core.project_planes (c : Core) (l : List (Nat × Proj)) : (c.project l).planes = c.planes := rfl
@[simp] theorem Core.project_masks (c : Core) (l : List (Nat × Proj)) : (c.project l).masks = c.masks := rfl
@[simp] theorem Core.project_vq (c : Core) (l : List (Nat × Proj)) : (c.project l).vq = c.vq := rfl
@[simp] theorem Core.project_vfly (c : Core) (l : List (Nat × Proj)) : (c.project l).vfly = c.vfly := rfl
@[simp] theorem Core.project_loads (c : Core) (l : List (Nat × Proj)) : (c.project l).loads = c.loads := rfl
@[simp] theorem Core.project_stores (c : Core) (l : List (Nat × Proj)) : (c.project l).stores = c.stores := rfl
@[simp] theorem Core.project_num (c : Core) (l : List (Nat × Proj)) : (c.project l).num = c.num := rfl
@[simp] theorem Core.project_pq (c : Core) (l : List (Nat × Proj)) : (c.project l).pq = c.pq := rfl
@[simp] theorem Core.project_prun (c : Core) (l : List (Nat × Proj)) : (c.project l).prun = c.prun := rfl
@[simp] theorem Core.project_pent (c : Core) (l : List (Nat × Proj)) : (c.project l).pent = c.pent := rfl
@[simp] theorem Core.project_acc (c : Core) (l : List (Nat × Proj)) : (c.project l).acc = c.acc := rfl
@[simp] theorem Core.project_handles (c : Core) (l : List (Nat × Proj)) : (c.project l).handles = c.handles := rfl
@[simp] theorem Core.project_drains (c : Core) (l : List (Nat × Proj)) : (c.project l).drains = c.drains := rfl
@[simp] theorem Core.project_bypass (c : Core) (l : List (Nat × Proj)) : (c.project l).bypass = c.bypass := rfl
@[simp] theorem Core.project_bypNext (c : Core) (l : List (Nat × Proj)) : (c.project l).bypNext = c.bypNext := rfl
@[simp] theorem Core.project_tq (c : Core) (l : List (Nat × Proj)) : (c.project l).tq = c.tq := rfl
@[simp] theorem Core.project_trun (c : Core) (l : List (Nat × Proj)) : (c.project l).trun = c.trun := rfl
@[simp] theorem Core.project_tent (c : Core) (l : List (Nat × Proj)) : (c.project l).tent = c.tent := rfl
@[simp] theorem Core.project_stencils (c : Core) (l : List (Nat × Proj)) : (c.project l).stencils = c.stencils := rfl
@[simp] theorem Core.project_bars (c : Core) (l : List (Nat × Proj)) : (c.project l).bars = c.bars := rfl
@[simp] theorem Core.project_held (c : Core) (l : List (Nat × Proj)) : (c.project l).held = c.held := rfl
@[simp] theorem Core.project_log (c : Core) (l : List (Nat × Proj)) : (c.project l).log = c.log := rfl
@[simp] theorem Core.project_phase (c : Core) (l : List (Nat × Proj)) : (c.project l).phase = c.phase := rfl
@[simp] theorem Core.project_task (c : Core) (l : List (Nat × Proj)) : (c.project l).task = c.task := rfl
@[simp] theorem Core.project_stop (c : Core) (l : List (Nat × Proj)) : (c.project l).stop = c.stop := rfl
@[simp] theorem Core.project_watch (c : Core) (l : List (Nat × Proj)) : (c.project l).watch = c.watch := rfl
@[simp] theorem Core.project_origin (c : Core) (l : List (Nat × Proj)) : (c.project l).origin = c.origin := rfl
@[simp] theorem Core.project_span (c : Core) (l : List (Nat × Proj)) : (c.project l).span = c.span := rfl
@[simp] theorem Core.project_tau (c : Core) (l : List (Nat × Proj)) : (c.project l).tau = c.tau := rfl
@[simp] theorem Core.project_begun (c : Core) (l : List (Nat × Proj)) : (c.project l).begun = c.begun := rfl
@[simp] theorem Core.project_verdict (c : Core) (l : List (Nat × Proj)) : (c.project l).verdict = c.verdict := rfl
@[simp] theorem Core.project_stalled (c : Core) (l : List (Nat × Proj)) : (c.project l).stalled = c.stalled := rfl
@[simp] theorem Core.project_slow (c : Core) (l : List (Nat × Proj)) : (c.project l).slow = c.slow := rfl
@[simp] theorem Core.project_entering (c : Core) (l : List (Nat × Proj)) : (c.project l).entering = c.entering := rfl
@[simp] theorem Core.project_clk (c : Core) (l : List (Nat × Proj)) : (c.project l).clk = c.clk := rfl
@[simp] theorem Core.project_rep (c : Core) (l : List (Nat × Proj)) : (c.project l).rep = c.rep := rfl
@[simp] theorem Core.project_repResume (c : Core) (l : List (Nat × Proj)) : (c.project l).repResume = c.repResume := rfl
@[simp] theorem Core.project_repHeld (c : Core) (l : List (Nat × Proj)) : (c.project l).repHeld = c.repHeld := rfl
@[simp] theorem Core.project_ir (c : Core) (l : List (Nat × Proj)) : (c.project l).ir = c.ir := rfl
@[simp] theorem Core.project_wait (c : Core) (l : List (Nat × Proj)) : (c.project l).wait = c.wait := rfl
@[simp] theorem Core.project_unpin (c : Core) (l : List (Nat × Proj)) : (c.project l).unpin = c.unpin := rfl
@[simp] theorem Core.project_mergeFault (c : Core) (l : List (Nat × Proj)) : (c.project l).mergeFault = c.mergeFault := rfl
@[simp] theorem Core.project_abortTid (c : Core) (l : List (Nat × Proj)) : (c.project l).abortTid = c.abortTid := rfl
@[simp] theorem Core.project_trap (c : Core) (l : List (Nat × Proj)) : (c.project l).trap = c.trap := rfl
@[simp] theorem Core.project_oldCode (c : Core) (l : List (Nat × Proj)) : (c.project l).oldCode = c.oldCode := rfl
@[simp] theorem Core.project_codeLines (c : Core) (l : List (Nat × Proj)) : (c.project l).codeLines = c.codeLines := rfl
@[simp] theorem Core.project_fetches (c : Core) (l : List (Nat × Proj)) : (c.project l).fetches = c.fetches := rfl
@[simp] theorem Core.project_clock (c : Core) (l : List (Nat × Proj)) : (c.project l).clock = c.clock := rfl
@[simp] theorem Core.project_stepAge (c : Core) (l : List (Nat × Proj)) : (c.project l).stepAge = c.stepAge := rfl
@[simp] theorem Core.project_vfree (c : Core) (l : List (Nat × Proj)) : (c.project l).vfree = c.vfree := rfl
@[simp] theorem Core.project_score (c : Core) (l : List (Nat × Proj)) : (c.project l).score = c.score := rfl
@[simp] theorem Core.project_nextAt (c : Core) (l : List (Nat × Proj)) : (c.project l).nextAt = c.nextAt := rfl
@[simp] theorem Core.project_newFlags (c : Core) (l : List (Nat × Proj)) : (c.project l).newFlags = c.newFlags := rfl

/-! `Core.setWalker` -/

@[simp] theorem Core.setWalker_key (c : Core) (w : WReg) (x : Walker) : (c.setWalker w x).key = c.key := rfl
@[simp] theorem Core.setWalker_g (c : Core) (w : WReg) (x : Walker) : (c.setWalker w x).g = c.g := rfl
@[simp] theorem Core.setWalker_p (c : Core) (w : WReg) (x : Walker) : (c.setWalker w x).p = c.p := rfl
@[simp] theorem Core.setWalker_lc (c : Core) (w : WReg) (x : Walker) : (c.setWalker w x).lc = c.lc := rfl
@[simp] theorem Core.setWalker_gs (c : Core) (w : WReg) (x : Walker) : (c.setWalker w x).gs = c.gs := rfl
@[simp] theorem Core.setWalker_tok (c : Core) (w : WReg) (x : Walker) : (c.setWalker w x).tok = c.tok := rfl
@[simp] theorem Core.setWalker_pc (c : Core) (w : WReg) (x : Walker) : (c.setWalker w x).pc = c.pc := rfl
@[simp] theorem Core.setWalker_retStore (c : Core) (w : WReg) (x : Walker) : (c.setWalker w x).retStore = c.retStore := rfl
@[simp] theorem Core.setWalker_lcnt (c : Core) (w : WReg) (x : Walker) : (c.setWalker w x).lcnt = c.lcnt := rfl
@[simp] theorem Core.setWalker_ctl (c : Core) (w : WReg) (x : Walker) : (c.setWalker w x).ctl = c.ctl := rfl
@[simp] theorem Core.setWalker_planes (c : Core) (w : WReg) (x : Walker) : (c.setWalker w x).planes = c.planes := rfl
@[simp] theorem Core.setWalker_masks (c : Core) (w : WReg) (x : Walker) : (c.setWalker w x).masks = c.masks := rfl
@[simp] theorem Core.setWalker_vq (c : Core) (w : WReg) (x : Walker) : (c.setWalker w x).vq = c.vq := rfl
@[simp] theorem Core.setWalker_vfly (c : Core) (w : WReg) (x : Walker) : (c.setWalker w x).vfly = c.vfly := rfl
@[simp] theorem Core.setWalker_loads (c : Core) (w : WReg) (x : Walker) : (c.setWalker w x).loads = c.loads := rfl
@[simp] theorem Core.setWalker_stores (c : Core) (w : WReg) (x : Walker) : (c.setWalker w x).stores = c.stores := rfl
@[simp] theorem Core.setWalker_num (c : Core) (w : WReg) (x : Walker) : (c.setWalker w x).num = c.num := rfl
@[simp] theorem Core.setWalker_pq (c : Core) (w : WReg) (x : Walker) : (c.setWalker w x).pq = c.pq := rfl
@[simp] theorem Core.setWalker_prun (c : Core) (w : WReg) (x : Walker) : (c.setWalker w x).prun = c.prun := rfl
@[simp] theorem Core.setWalker_pent (c : Core) (w : WReg) (x : Walker) : (c.setWalker w x).pent = c.pent := rfl
@[simp] theorem Core.setWalker_acc (c : Core) (w : WReg) (x : Walker) : (c.setWalker w x).acc = c.acc := rfl
@[simp] theorem Core.setWalker_proj (c : Core) (w : WReg) (x : Walker) : (c.setWalker w x).proj = c.proj := rfl
@[simp] theorem Core.setWalker_handles (c : Core) (w : WReg) (x : Walker) : (c.setWalker w x).handles = c.handles := rfl
@[simp] theorem Core.setWalker_drains (c : Core) (w : WReg) (x : Walker) : (c.setWalker w x).drains = c.drains := rfl
@[simp] theorem Core.setWalker_bypass (c : Core) (w : WReg) (x : Walker) : (c.setWalker w x).bypass = c.bypass := rfl
@[simp] theorem Core.setWalker_bypNext (c : Core) (w : WReg) (x : Walker) : (c.setWalker w x).bypNext = c.bypNext := rfl
@[simp] theorem Core.setWalker_tq (c : Core) (w : WReg) (x : Walker) : (c.setWalker w x).tq = c.tq := rfl
@[simp] theorem Core.setWalker_trun (c : Core) (w : WReg) (x : Walker) : (c.setWalker w x).trun = c.trun := rfl
@[simp] theorem Core.setWalker_tent (c : Core) (w : WReg) (x : Walker) : (c.setWalker w x).tent = c.tent := rfl
@[simp] theorem Core.setWalker_stencils (c : Core) (w : WReg) (x : Walker) : (c.setWalker w x).stencils = c.stencils := rfl
@[simp] theorem Core.setWalker_bars (c : Core) (w : WReg) (x : Walker) : (c.setWalker w x).bars = c.bars := rfl
@[simp] theorem Core.setWalker_held (c : Core) (w : WReg) (x : Walker) : (c.setWalker w x).held = c.held := rfl
@[simp] theorem Core.setWalker_log (c : Core) (w : WReg) (x : Walker) : (c.setWalker w x).log = c.log := rfl
@[simp] theorem Core.setWalker_phase (c : Core) (w : WReg) (x : Walker) : (c.setWalker w x).phase = c.phase := rfl
@[simp] theorem Core.setWalker_task (c : Core) (w : WReg) (x : Walker) : (c.setWalker w x).task = c.task := rfl
@[simp] theorem Core.setWalker_stop (c : Core) (w : WReg) (x : Walker) : (c.setWalker w x).stop = c.stop := rfl
@[simp] theorem Core.setWalker_watch (c : Core) (w : WReg) (x : Walker) : (c.setWalker w x).watch = c.watch := rfl
@[simp] theorem Core.setWalker_origin (c : Core) (w : WReg) (x : Walker) : (c.setWalker w x).origin = c.origin := rfl
@[simp] theorem Core.setWalker_span (c : Core) (w : WReg) (x : Walker) : (c.setWalker w x).span = c.span := rfl
@[simp] theorem Core.setWalker_tau (c : Core) (w : WReg) (x : Walker) : (c.setWalker w x).tau = c.tau := rfl
@[simp] theorem Core.setWalker_begun (c : Core) (w : WReg) (x : Walker) : (c.setWalker w x).begun = c.begun := rfl
@[simp] theorem Core.setWalker_verdict (c : Core) (w : WReg) (x : Walker) : (c.setWalker w x).verdict = c.verdict := rfl
@[simp] theorem Core.setWalker_stalled (c : Core) (w : WReg) (x : Walker) : (c.setWalker w x).stalled = c.stalled := rfl
@[simp] theorem Core.setWalker_slow (c : Core) (w : WReg) (x : Walker) : (c.setWalker w x).slow = c.slow := rfl
@[simp] theorem Core.setWalker_entering (c : Core) (w : WReg) (x : Walker) : (c.setWalker w x).entering = c.entering := rfl
@[simp] theorem Core.setWalker_clk (c : Core) (w : WReg) (x : Walker) : (c.setWalker w x).clk = c.clk := rfl
@[simp] theorem Core.setWalker_rep (c : Core) (w : WReg) (x : Walker) : (c.setWalker w x).rep = c.rep := rfl
@[simp] theorem Core.setWalker_repResume (c : Core) (w : WReg) (x : Walker) : (c.setWalker w x).repResume = c.repResume := rfl
@[simp] theorem Core.setWalker_repHeld (c : Core) (w : WReg) (x : Walker) : (c.setWalker w x).repHeld = c.repHeld := rfl
@[simp] theorem Core.setWalker_ir (c : Core) (w : WReg) (x : Walker) : (c.setWalker w x).ir = c.ir := rfl
@[simp] theorem Core.setWalker_wait (c : Core) (w : WReg) (x : Walker) : (c.setWalker w x).wait = c.wait := rfl
@[simp] theorem Core.setWalker_unpin (c : Core) (w : WReg) (x : Walker) : (c.setWalker w x).unpin = c.unpin := rfl
@[simp] theorem Core.setWalker_mergeFault (c : Core) (w : WReg) (x : Walker) : (c.setWalker w x).mergeFault = c.mergeFault := rfl
@[simp] theorem Core.setWalker_abortTid (c : Core) (w : WReg) (x : Walker) : (c.setWalker w x).abortTid = c.abortTid := rfl
@[simp] theorem Core.setWalker_trap (c : Core) (w : WReg) (x : Walker) : (c.setWalker w x).trap = c.trap := rfl
@[simp] theorem Core.setWalker_oldCode (c : Core) (w : WReg) (x : Walker) : (c.setWalker w x).oldCode = c.oldCode := rfl
@[simp] theorem Core.setWalker_codeLines (c : Core) (w : WReg) (x : Walker) : (c.setWalker w x).codeLines = c.codeLines := rfl
@[simp] theorem Core.setWalker_clean (c : Core) (w : WReg) (x : Walker) : (c.setWalker w x).clean = c.clean := rfl
@[simp] theorem Core.setWalker_fetches (c : Core) (w : WReg) (x : Walker) : (c.setWalker w x).fetches = c.fetches := rfl
@[simp] theorem Core.setWalker_clock (c : Core) (w : WReg) (x : Walker) : (c.setWalker w x).clock = c.clock := rfl
@[simp] theorem Core.setWalker_stepAge (c : Core) (w : WReg) (x : Walker) : (c.setWalker w x).stepAge = c.stepAge := rfl
@[simp] theorem Core.setWalker_vfree (c : Core) (w : WReg) (x : Walker) : (c.setWalker w x).vfree = c.vfree := rfl
@[simp] theorem Core.setWalker_score (c : Core) (w : WReg) (x : Walker) : (c.setWalker w x).score = c.score := rfl
@[simp] theorem Core.setWalker_nextAt (c : Core) (w : WReg) (x : Walker) : (c.setWalker w x).nextAt = c.nextAt := rfl
@[simp] theorem Core.setWalker_newFlags (c : Core) (w : WReg) (x : Walker) : (c.setWalker w x).newFlags = c.newFlags := rfl

/-! `Core.pushStore` -/

@[simp] theorem Core.pushStore_key (c : Core) (k : OrdClass) (l : List (Nat × Byte)) (o : BitVec 5) (t : List Trans) (v : Bool) (r : Option Rmw) : (c.pushStore k l o t v r).key = c.key := rfl
@[simp] theorem Core.pushStore_g (c : Core) (k : OrdClass) (l : List (Nat × Byte)) (o : BitVec 5) (t : List Trans) (v : Bool) (r : Option Rmw) : (c.pushStore k l o t v r).g = c.g := rfl
@[simp] theorem Core.pushStore_p (c : Core) (k : OrdClass) (l : List (Nat × Byte)) (o : BitVec 5) (t : List Trans) (v : Bool) (r : Option Rmw) : (c.pushStore k l o t v r).p = c.p := rfl
@[simp] theorem Core.pushStore_w (c : Core) (k : OrdClass) (l : List (Nat × Byte)) (o : BitVec 5) (t : List Trans) (v : Bool) (r : Option Rmw) : (c.pushStore k l o t v r).w = c.w := rfl
@[simp] theorem Core.pushStore_lc (c : Core) (k : OrdClass) (l : List (Nat × Byte)) (o : BitVec 5) (t : List Trans) (v : Bool) (r : Option Rmw) : (c.pushStore k l o t v r).lc = c.lc := rfl
@[simp] theorem Core.pushStore_gs (c : Core) (k : OrdClass) (l : List (Nat × Byte)) (o : BitVec 5) (t : List Trans) (v : Bool) (r : Option Rmw) : (c.pushStore k l o t v r).gs = c.gs := rfl
@[simp] theorem Core.pushStore_tok (c : Core) (k : OrdClass) (l : List (Nat × Byte)) (o : BitVec 5) (t : List Trans) (v : Bool) (r : Option Rmw) : (c.pushStore k l o t v r).tok = c.tok := rfl
@[simp] theorem Core.pushStore_pc (c : Core) (k : OrdClass) (l : List (Nat × Byte)) (o : BitVec 5) (t : List Trans) (v : Bool) (r : Option Rmw) : (c.pushStore k l o t v r).pc = c.pc := rfl
@[simp] theorem Core.pushStore_retStore (c : Core) (k : OrdClass) (l : List (Nat × Byte)) (o : BitVec 5) (t : List Trans) (v : Bool) (r : Option Rmw) : (c.pushStore k l o t v r).retStore = c.retStore := rfl
@[simp] theorem Core.pushStore_lcnt (c : Core) (k : OrdClass) (l : List (Nat × Byte)) (o : BitVec 5) (t : List Trans) (v : Bool) (r : Option Rmw) : (c.pushStore k l o t v r).lcnt = c.lcnt := rfl
@[simp] theorem Core.pushStore_ctl (c : Core) (k : OrdClass) (l : List (Nat × Byte)) (o : BitVec 5) (t : List Trans) (v : Bool) (r : Option Rmw) : (c.pushStore k l o t v r).ctl = c.ctl := rfl
@[simp] theorem Core.pushStore_planes (c : Core) (k : OrdClass) (l : List (Nat × Byte)) (o : BitVec 5) (t : List Trans) (v : Bool) (r : Option Rmw) : (c.pushStore k l o t v r).planes = c.planes := rfl
@[simp] theorem Core.pushStore_masks (c : Core) (k : OrdClass) (l : List (Nat × Byte)) (o : BitVec 5) (t : List Trans) (v : Bool) (r : Option Rmw) : (c.pushStore k l o t v r).masks = c.masks := rfl
@[simp] theorem Core.pushStore_vq (c : Core) (k : OrdClass) (l : List (Nat × Byte)) (o : BitVec 5) (t : List Trans) (v : Bool) (r : Option Rmw) : (c.pushStore k l o t v r).vq = c.vq := rfl
@[simp] theorem Core.pushStore_vfly (c : Core) (k : OrdClass) (l : List (Nat × Byte)) (o : BitVec 5) (t : List Trans) (v : Bool) (r : Option Rmw) : (c.pushStore k l o t v r).vfly = c.vfly := rfl
@[simp] theorem Core.pushStore_loads (c : Core) (k : OrdClass) (l : List (Nat × Byte)) (o : BitVec 5) (t : List Trans) (v : Bool) (r : Option Rmw) : (c.pushStore k l o t v r).loads = c.loads := rfl
@[simp] theorem Core.pushStore_pq (c : Core) (k : OrdClass) (l : List (Nat × Byte)) (o : BitVec 5) (t : List Trans) (v : Bool) (r : Option Rmw) : (c.pushStore k l o t v r).pq = c.pq := rfl
@[simp] theorem Core.pushStore_prun (c : Core) (k : OrdClass) (l : List (Nat × Byte)) (o : BitVec 5) (t : List Trans) (v : Bool) (r : Option Rmw) : (c.pushStore k l o t v r).prun = c.prun := rfl
@[simp] theorem Core.pushStore_pent (c : Core) (k : OrdClass) (l : List (Nat × Byte)) (o : BitVec 5) (t : List Trans) (v : Bool) (r : Option Rmw) : (c.pushStore k l o t v r).pent = c.pent := rfl
@[simp] theorem Core.pushStore_acc (c : Core) (k : OrdClass) (l : List (Nat × Byte)) (o : BitVec 5) (t : List Trans) (v : Bool) (r : Option Rmw) : (c.pushStore k l o t v r).acc = c.acc := rfl
@[simp] theorem Core.pushStore_proj (c : Core) (k : OrdClass) (l : List (Nat × Byte)) (o : BitVec 5) (t : List Trans) (v : Bool) (r : Option Rmw) : (c.pushStore k l o t v r).proj = c.proj := rfl
@[simp] theorem Core.pushStore_handles (c : Core) (k : OrdClass) (l : List (Nat × Byte)) (o : BitVec 5) (t : List Trans) (v : Bool) (r : Option Rmw) : (c.pushStore k l o t v r).handles = c.handles := rfl
@[simp] theorem Core.pushStore_drains (c : Core) (k : OrdClass) (l : List (Nat × Byte)) (o : BitVec 5) (t : List Trans) (v : Bool) (r : Option Rmw) : (c.pushStore k l o t v r).drains = c.drains := rfl
@[simp] theorem Core.pushStore_bypass (c : Core) (k : OrdClass) (l : List (Nat × Byte)) (o : BitVec 5) (t : List Trans) (v : Bool) (r : Option Rmw) : (c.pushStore k l o t v r).bypass = c.bypass := rfl
@[simp] theorem Core.pushStore_bypNext (c : Core) (k : OrdClass) (l : List (Nat × Byte)) (o : BitVec 5) (t : List Trans) (v : Bool) (r : Option Rmw) : (c.pushStore k l o t v r).bypNext = c.bypNext := rfl
@[simp] theorem Core.pushStore_tq (c : Core) (k : OrdClass) (l : List (Nat × Byte)) (o : BitVec 5) (t : List Trans) (v : Bool) (r : Option Rmw) : (c.pushStore k l o t v r).tq = c.tq := rfl
@[simp] theorem Core.pushStore_trun (c : Core) (k : OrdClass) (l : List (Nat × Byte)) (o : BitVec 5) (t : List Trans) (v : Bool) (r : Option Rmw) : (c.pushStore k l o t v r).trun = c.trun := rfl
@[simp] theorem Core.pushStore_tent (c : Core) (k : OrdClass) (l : List (Nat × Byte)) (o : BitVec 5) (t : List Trans) (v : Bool) (r : Option Rmw) : (c.pushStore k l o t v r).tent = c.tent := rfl
@[simp] theorem Core.pushStore_stencils (c : Core) (k : OrdClass) (l : List (Nat × Byte)) (o : BitVec 5) (t : List Trans) (v : Bool) (r : Option Rmw) : (c.pushStore k l o t v r).stencils = c.stencils := rfl
@[simp] theorem Core.pushStore_bars (c : Core) (k : OrdClass) (l : List (Nat × Byte)) (o : BitVec 5) (t : List Trans) (v : Bool) (r : Option Rmw) : (c.pushStore k l o t v r).bars = c.bars := rfl
@[simp] theorem Core.pushStore_held (c : Core) (k : OrdClass) (l : List (Nat × Byte)) (o : BitVec 5) (t : List Trans) (v : Bool) (r : Option Rmw) : (c.pushStore k l o t v r).held = c.held := rfl
@[simp] theorem Core.pushStore_log (c : Core) (k : OrdClass) (l : List (Nat × Byte)) (o : BitVec 5) (t : List Trans) (v : Bool) (r : Option Rmw) : (c.pushStore k l o t v r).log = c.log := rfl
@[simp] theorem Core.pushStore_phase (c : Core) (k : OrdClass) (l : List (Nat × Byte)) (o : BitVec 5) (t : List Trans) (v : Bool) (r : Option Rmw) : (c.pushStore k l o t v r).phase = c.phase := rfl
@[simp] theorem Core.pushStore_task (c : Core) (k : OrdClass) (l : List (Nat × Byte)) (o : BitVec 5) (t : List Trans) (v : Bool) (r : Option Rmw) : (c.pushStore k l o t v r).task = c.task := rfl
@[simp] theorem Core.pushStore_stop (c : Core) (k : OrdClass) (l : List (Nat × Byte)) (o : BitVec 5) (t : List Trans) (v : Bool) (r : Option Rmw) : (c.pushStore k l o t v r).stop = c.stop := rfl
@[simp] theorem Core.pushStore_watch (c : Core) (k : OrdClass) (l : List (Nat × Byte)) (o : BitVec 5) (t : List Trans) (v : Bool) (r : Option Rmw) : (c.pushStore k l o t v r).watch = c.watch := rfl
@[simp] theorem Core.pushStore_origin (c : Core) (k : OrdClass) (l : List (Nat × Byte)) (o : BitVec 5) (t : List Trans) (v : Bool) (r : Option Rmw) : (c.pushStore k l o t v r).origin = c.origin := rfl
@[simp] theorem Core.pushStore_span (c : Core) (k : OrdClass) (l : List (Nat × Byte)) (o : BitVec 5) (t : List Trans) (v : Bool) (r : Option Rmw) : (c.pushStore k l o t v r).span = c.span := rfl
@[simp] theorem Core.pushStore_tau (c : Core) (k : OrdClass) (l : List (Nat × Byte)) (o : BitVec 5) (t : List Trans) (v : Bool) (r : Option Rmw) : (c.pushStore k l o t v r).tau = c.tau := rfl
@[simp] theorem Core.pushStore_begun (c : Core) (k : OrdClass) (l : List (Nat × Byte)) (o : BitVec 5) (t : List Trans) (v : Bool) (r : Option Rmw) : (c.pushStore k l o t v r).begun = c.begun := rfl
@[simp] theorem Core.pushStore_verdict (c : Core) (k : OrdClass) (l : List (Nat × Byte)) (o : BitVec 5) (t : List Trans) (v : Bool) (r : Option Rmw) : (c.pushStore k l o t v r).verdict = c.verdict := rfl
@[simp] theorem Core.pushStore_stalled (c : Core) (k : OrdClass) (l : List (Nat × Byte)) (o : BitVec 5) (t : List Trans) (v : Bool) (r : Option Rmw) : (c.pushStore k l o t v r).stalled = c.stalled := rfl
@[simp] theorem Core.pushStore_slow (c : Core) (k : OrdClass) (l : List (Nat × Byte)) (o : BitVec 5) (t : List Trans) (v : Bool) (r : Option Rmw) : (c.pushStore k l o t v r).slow = c.slow := rfl
@[simp] theorem Core.pushStore_entering (c : Core) (k : OrdClass) (l : List (Nat × Byte)) (o : BitVec 5) (t : List Trans) (v : Bool) (r : Option Rmw) : (c.pushStore k l o t v r).entering = c.entering := rfl
@[simp] theorem Core.pushStore_clk (c : Core) (k : OrdClass) (l : List (Nat × Byte)) (o : BitVec 5) (t : List Trans) (v : Bool) (r : Option Rmw) : (c.pushStore k l o t v r).clk = c.clk := rfl
@[simp] theorem Core.pushStore_rep (c : Core) (k : OrdClass) (l : List (Nat × Byte)) (o : BitVec 5) (t : List Trans) (v : Bool) (r : Option Rmw) : (c.pushStore k l o t v r).rep = c.rep := rfl
@[simp] theorem Core.pushStore_repResume (c : Core) (k : OrdClass) (l : List (Nat × Byte)) (o : BitVec 5) (t : List Trans) (v : Bool) (r : Option Rmw) : (c.pushStore k l o t v r).repResume = c.repResume := rfl
@[simp] theorem Core.pushStore_repHeld (c : Core) (k : OrdClass) (l : List (Nat × Byte)) (o : BitVec 5) (t : List Trans) (v : Bool) (r : Option Rmw) : (c.pushStore k l o t v r).repHeld = c.repHeld := rfl
@[simp] theorem Core.pushStore_ir (c : Core) (k : OrdClass) (l : List (Nat × Byte)) (o : BitVec 5) (t : List Trans) (v : Bool) (r : Option Rmw) : (c.pushStore k l o t v r).ir = c.ir := rfl
@[simp] theorem Core.pushStore_wait (c : Core) (k : OrdClass) (l : List (Nat × Byte)) (o : BitVec 5) (t : List Trans) (v : Bool) (r : Option Rmw) : (c.pushStore k l o t v r).wait = c.wait := rfl
@[simp] theorem Core.pushStore_unpin (c : Core) (k : OrdClass) (l : List (Nat × Byte)) (o : BitVec 5) (t : List Trans) (v : Bool) (r : Option Rmw) : (c.pushStore k l o t v r).unpin = c.unpin := rfl
@[simp] theorem Core.pushStore_mergeFault (c : Core) (k : OrdClass) (l : List (Nat × Byte)) (o : BitVec 5) (t : List Trans) (v : Bool) (r : Option Rmw) : (c.pushStore k l o t v r).mergeFault = c.mergeFault := rfl
@[simp] theorem Core.pushStore_abortTid (c : Core) (k : OrdClass) (l : List (Nat × Byte)) (o : BitVec 5) (t : List Trans) (v : Bool) (r : Option Rmw) : (c.pushStore k l o t v r).abortTid = c.abortTid := rfl
@[simp] theorem Core.pushStore_trap (c : Core) (k : OrdClass) (l : List (Nat × Byte)) (o : BitVec 5) (t : List Trans) (v : Bool) (r : Option Rmw) : (c.pushStore k l o t v r).trap = c.trap := rfl
@[simp] theorem Core.pushStore_oldCode (c : Core) (k : OrdClass) (l : List (Nat × Byte)) (o : BitVec 5) (t : List Trans) (v : Bool) (r : Option Rmw) : (c.pushStore k l o t v r).oldCode = c.oldCode := rfl
@[simp] theorem Core.pushStore_codeLines (c : Core) (k : OrdClass) (l : List (Nat × Byte)) (o : BitVec 5) (t : List Trans) (v : Bool) (r : Option Rmw) : (c.pushStore k l o t v r).codeLines = c.codeLines := rfl
@[simp] theorem Core.pushStore_clean (c : Core) (k : OrdClass) (l : List (Nat × Byte)) (o : BitVec 5) (t : List Trans) (v : Bool) (r : Option Rmw) : (c.pushStore k l o t v r).clean = c.clean := rfl
@[simp] theorem Core.pushStore_fetches (c : Core) (k : OrdClass) (l : List (Nat × Byte)) (o : BitVec 5) (t : List Trans) (v : Bool) (r : Option Rmw) : (c.pushStore k l o t v r).fetches = c.fetches := rfl
@[simp] theorem Core.pushStore_clock (c : Core) (k : OrdClass) (l : List (Nat × Byte)) (o : BitVec 5) (t : List Trans) (v : Bool) (r : Option Rmw) : (c.pushStore k l o t v r).clock = c.clock := rfl
@[simp] theorem Core.pushStore_stepAge (c : Core) (k : OrdClass) (l : List (Nat × Byte)) (o : BitVec 5) (t : List Trans) (v : Bool) (r : Option Rmw) : (c.pushStore k l o t v r).stepAge = c.stepAge := rfl
@[simp] theorem Core.pushStore_vfree (c : Core) (k : OrdClass) (l : List (Nat × Byte)) (o : BitVec 5) (t : List Trans) (v : Bool) (r : Option Rmw) : (c.pushStore k l o t v r).vfree = c.vfree := rfl
@[simp] theorem Core.pushStore_score (c : Core) (k : OrdClass) (l : List (Nat × Byte)) (o : BitVec 5) (t : List Trans) (v : Bool) (r : Option Rmw) : (c.pushStore k l o t v r).score = c.score := rfl
@[simp] theorem Core.pushStore_nextAt (c : Core) (k : OrdClass) (l : List (Nat × Byte)) (o : BitVec 5) (t : List Trans) (v : Bool) (r : Option Rmw) : (c.pushStore k l o t v r).nextAt = c.nextAt := rfl
@[simp] theorem Core.pushStore_newFlags (c : Core) (k : OrdClass) (l : List (Nat × Byte)) (o : BitVec 5) (t : List Trans) (v : Bool) (r : Option Rmw) : (c.pushStore k l o t v r).newFlags = c.newFlags := rfl

/-! `Core.markExecuted` -/

@[simp] theorem Core.markExecuted_key (c : Core) : (c.markExecuted).key = c.key := rfl
@[simp] theorem Core.markExecuted_g (c : Core) : (c.markExecuted).g = c.g := rfl
@[simp] theorem Core.markExecuted_p (c : Core) : (c.markExecuted).p = c.p := rfl
@[simp] theorem Core.markExecuted_w (c : Core) : (c.markExecuted).w = c.w := rfl
@[simp] theorem Core.markExecuted_lc (c : Core) : (c.markExecuted).lc = c.lc := rfl
@[simp] theorem Core.markExecuted_gs (c : Core) : (c.markExecuted).gs = c.gs := rfl
@[simp] theorem Core.markExecuted_tok (c : Core) : (c.markExecuted).tok = c.tok := rfl
@[simp] theorem Core.markExecuted_pc (c : Core) : (c.markExecuted).pc = c.pc := rfl
@[simp] theorem Core.markExecuted_retStore (c : Core) : (c.markExecuted).retStore = c.retStore := rfl
@[simp] theorem Core.markExecuted_lcnt (c : Core) : (c.markExecuted).lcnt = c.lcnt := rfl
@[simp] theorem Core.markExecuted_ctl (c : Core) : (c.markExecuted).ctl = c.ctl := rfl
@[simp] theorem Core.markExecuted_planes (c : Core) : (c.markExecuted).planes = c.planes := rfl
@[simp] theorem Core.markExecuted_masks (c : Core) : (c.markExecuted).masks = c.masks := rfl
@[simp] theorem Core.markExecuted_vq (c : Core) : (c.markExecuted).vq = c.vq := rfl
@[simp] theorem Core.markExecuted_vfly (c : Core) : (c.markExecuted).vfly = c.vfly := rfl
@[simp] theorem Core.markExecuted_loads (c : Core) : (c.markExecuted).loads = c.loads := rfl
@[simp] theorem Core.markExecuted_stores (c : Core) : (c.markExecuted).stores = c.stores := rfl
@[simp] theorem Core.markExecuted_num (c : Core) : (c.markExecuted).num = c.num := rfl
@[simp] theorem Core.markExecuted_pq (c : Core) : (c.markExecuted).pq = c.pq := rfl
@[simp] theorem Core.markExecuted_prun (c : Core) : (c.markExecuted).prun = c.prun := rfl
@[simp] theorem Core.markExecuted_pent (c : Core) : (c.markExecuted).pent = c.pent := rfl
@[simp] theorem Core.markExecuted_acc (c : Core) : (c.markExecuted).acc = c.acc := rfl
@[simp] theorem Core.markExecuted_proj (c : Core) : (c.markExecuted).proj = c.proj := rfl
@[simp] theorem Core.markExecuted_handles (c : Core) : (c.markExecuted).handles = c.handles := rfl
@[simp] theorem Core.markExecuted_drains (c : Core) : (c.markExecuted).drains = c.drains := rfl
@[simp] theorem Core.markExecuted_bypass (c : Core) : (c.markExecuted).bypass = c.bypass := rfl
@[simp] theorem Core.markExecuted_bypNext (c : Core) : (c.markExecuted).bypNext = c.bypNext := rfl
@[simp] theorem Core.markExecuted_tq (c : Core) : (c.markExecuted).tq = c.tq := rfl
@[simp] theorem Core.markExecuted_trun (c : Core) : (c.markExecuted).trun = c.trun := rfl
@[simp] theorem Core.markExecuted_tent (c : Core) : (c.markExecuted).tent = c.tent := rfl
@[simp] theorem Core.markExecuted_stencils (c : Core) : (c.markExecuted).stencils = c.stencils := rfl
@[simp] theorem Core.markExecuted_bars (c : Core) : (c.markExecuted).bars = c.bars := rfl
@[simp] theorem Core.markExecuted_held (c : Core) : (c.markExecuted).held = c.held := rfl
@[simp] theorem Core.markExecuted_log (c : Core) : (c.markExecuted).log = c.log := rfl
@[simp] theorem Core.markExecuted_phase (c : Core) : (c.markExecuted).phase = c.phase := rfl
@[simp] theorem Core.markExecuted_stop (c : Core) : (c.markExecuted).stop = c.stop := rfl
@[simp] theorem Core.markExecuted_watch (c : Core) : (c.markExecuted).watch = c.watch := rfl
@[simp] theorem Core.markExecuted_origin (c : Core) : (c.markExecuted).origin = c.origin := rfl
@[simp] theorem Core.markExecuted_span (c : Core) : (c.markExecuted).span = c.span := rfl
@[simp] theorem Core.markExecuted_tau (c : Core) : (c.markExecuted).tau = c.tau := rfl
@[simp] theorem Core.markExecuted_begun (c : Core) : (c.markExecuted).begun = c.begun := rfl
@[simp] theorem Core.markExecuted_verdict (c : Core) : (c.markExecuted).verdict = c.verdict := rfl
@[simp] theorem Core.markExecuted_stalled (c : Core) : (c.markExecuted).stalled = c.stalled := rfl
@[simp] theorem Core.markExecuted_slow (c : Core) : (c.markExecuted).slow = c.slow := rfl
@[simp] theorem Core.markExecuted_entering (c : Core) : (c.markExecuted).entering = c.entering := rfl
@[simp] theorem Core.markExecuted_clk (c : Core) : (c.markExecuted).clk = c.clk := rfl
@[simp] theorem Core.markExecuted_rep (c : Core) : (c.markExecuted).rep = c.rep := rfl
@[simp] theorem Core.markExecuted_repResume (c : Core) : (c.markExecuted).repResume = c.repResume := rfl
@[simp] theorem Core.markExecuted_repHeld (c : Core) : (c.markExecuted).repHeld = c.repHeld := rfl
@[simp] theorem Core.markExecuted_ir (c : Core) : (c.markExecuted).ir = c.ir := rfl
@[simp] theorem Core.markExecuted_wait (c : Core) : (c.markExecuted).wait = c.wait := rfl
@[simp] theorem Core.markExecuted_unpin (c : Core) : (c.markExecuted).unpin = c.unpin := rfl
@[simp] theorem Core.markExecuted_mergeFault (c : Core) : (c.markExecuted).mergeFault = c.mergeFault := rfl
@[simp] theorem Core.markExecuted_abortTid (c : Core) : (c.markExecuted).abortTid = c.abortTid := rfl
@[simp] theorem Core.markExecuted_trap (c : Core) : (c.markExecuted).trap = c.trap := rfl
@[simp] theorem Core.markExecuted_oldCode (c : Core) : (c.markExecuted).oldCode = c.oldCode := rfl
@[simp] theorem Core.markExecuted_codeLines (c : Core) : (c.markExecuted).codeLines = c.codeLines := rfl
@[simp] theorem Core.markExecuted_clean (c : Core) : (c.markExecuted).clean = c.clean := rfl
@[simp] theorem Core.markExecuted_fetches (c : Core) : (c.markExecuted).fetches = c.fetches := rfl
@[simp] theorem Core.markExecuted_clock (c : Core) : (c.markExecuted).clock = c.clock := rfl
@[simp] theorem Core.markExecuted_stepAge (c : Core) : (c.markExecuted).stepAge = c.stepAge := rfl
@[simp] theorem Core.markExecuted_vfree (c : Core) : (c.markExecuted).vfree = c.vfree := rfl
@[simp] theorem Core.markExecuted_score (c : Core) : (c.markExecuted).score = c.score := rfl
@[simp] theorem Core.markExecuted_nextAt (c : Core) : (c.markExecuted).nextAt = c.nextAt := rfl
@[simp] theorem Core.markExecuted_newFlags (c : Core) : (c.markExecuted).newFlags = c.newFlags := rfl

/-! `Core.wr`, `Core.wp`, `Core.hold` -/

@[simp] theorem Core.wr_key (c : Core) (d : GReg) (v : Word) : (c.wr d v).key = c.key := by unfold Core.wr; split <;> rfl
@[simp] theorem Core.wr_p (c : Core) (d : GReg) (v : Word) : (c.wr d v).p = c.p := by unfold Core.wr; split <;> rfl
@[simp] theorem Core.wr_w (c : Core) (d : GReg) (v : Word) : (c.wr d v).w = c.w := by unfold Core.wr; split <;> rfl
@[simp] theorem Core.wr_lc (c : Core) (d : GReg) (v : Word) : (c.wr d v).lc = c.lc := by unfold Core.wr; split <;> rfl
@[simp] theorem Core.wr_gs (c : Core) (d : GReg) (v : Word) : (c.wr d v).gs = c.gs := by unfold Core.wr; split <;> rfl
@[simp] theorem Core.wr_tok (c : Core) (d : GReg) (v : Word) : (c.wr d v).tok = c.tok := by unfold Core.wr; split <;> rfl
@[simp] theorem Core.wr_pc (c : Core) (d : GReg) (v : Word) : (c.wr d v).pc = c.pc := by unfold Core.wr; split <;> rfl
@[simp] theorem Core.wr_retStore (c : Core) (d : GReg) (v : Word) : (c.wr d v).retStore = c.retStore := by unfold Core.wr; split <;> rfl
@[simp] theorem Core.wr_lcnt (c : Core) (d : GReg) (v : Word) : (c.wr d v).lcnt = c.lcnt := by unfold Core.wr; split <;> rfl
@[simp] theorem Core.wr_ctl (c : Core) (d : GReg) (v : Word) : (c.wr d v).ctl = c.ctl := by unfold Core.wr; split <;> rfl
@[simp] theorem Core.wr_planes (c : Core) (d : GReg) (v : Word) : (c.wr d v).planes = c.planes := by unfold Core.wr; split <;> rfl
@[simp] theorem Core.wr_masks (c : Core) (d : GReg) (v : Word) : (c.wr d v).masks = c.masks := by unfold Core.wr; split <;> rfl
@[simp] theorem Core.wr_vq (c : Core) (d : GReg) (v : Word) : (c.wr d v).vq = c.vq := by unfold Core.wr; split <;> rfl
@[simp] theorem Core.wr_vfly (c : Core) (d : GReg) (v : Word) : (c.wr d v).vfly = c.vfly := by unfold Core.wr; split <;> rfl
@[simp] theorem Core.wr_loads (c : Core) (d : GReg) (v : Word) : (c.wr d v).loads = c.loads := by unfold Core.wr; split <;> rfl
@[simp] theorem Core.wr_stores (c : Core) (d : GReg) (v : Word) : (c.wr d v).stores = c.stores := by unfold Core.wr; split <;> rfl
@[simp] theorem Core.wr_num (c : Core) (d : GReg) (v : Word) : (c.wr d v).num = c.num := by unfold Core.wr; split <;> rfl
@[simp] theorem Core.wr_pq (c : Core) (d : GReg) (v : Word) : (c.wr d v).pq = c.pq := by unfold Core.wr; split <;> rfl
@[simp] theorem Core.wr_prun (c : Core) (d : GReg) (v : Word) : (c.wr d v).prun = c.prun := by unfold Core.wr; split <;> rfl
@[simp] theorem Core.wr_pent (c : Core) (d : GReg) (v : Word) : (c.wr d v).pent = c.pent := by unfold Core.wr; split <;> rfl
@[simp] theorem Core.wr_acc (c : Core) (d : GReg) (v : Word) : (c.wr d v).acc = c.acc := by unfold Core.wr; split <;> rfl
@[simp] theorem Core.wr_proj (c : Core) (d : GReg) (v : Word) : (c.wr d v).proj = c.proj := by unfold Core.wr; split <;> rfl
@[simp] theorem Core.wr_handles (c : Core) (d : GReg) (v : Word) : (c.wr d v).handles = c.handles := by unfold Core.wr; split <;> rfl
@[simp] theorem Core.wr_drains (c : Core) (d : GReg) (v : Word) : (c.wr d v).drains = c.drains := by unfold Core.wr; split <;> rfl
@[simp] theorem Core.wr_bypass (c : Core) (d : GReg) (v : Word) : (c.wr d v).bypass = c.bypass := by unfold Core.wr; split <;> rfl
@[simp] theorem Core.wr_bypNext (c : Core) (d : GReg) (v : Word) : (c.wr d v).bypNext = c.bypNext := by unfold Core.wr; split <;> rfl
@[simp] theorem Core.wr_tq (c : Core) (d : GReg) (v : Word) : (c.wr d v).tq = c.tq := by unfold Core.wr; split <;> rfl
@[simp] theorem Core.wr_trun (c : Core) (d : GReg) (v : Word) : (c.wr d v).trun = c.trun := by unfold Core.wr; split <;> rfl
@[simp] theorem Core.wr_tent (c : Core) (d : GReg) (v : Word) : (c.wr d v).tent = c.tent := by unfold Core.wr; split <;> rfl
@[simp] theorem Core.wr_stencils (c : Core) (d : GReg) (v : Word) : (c.wr d v).stencils = c.stencils := by unfold Core.wr; split <;> rfl
@[simp] theorem Core.wr_bars (c : Core) (d : GReg) (v : Word) : (c.wr d v).bars = c.bars := by unfold Core.wr; split <;> rfl
@[simp] theorem Core.wr_held (c : Core) (d : GReg) (v : Word) : (c.wr d v).held = c.held := by unfold Core.wr; split <;> rfl
@[simp] theorem Core.wr_log (c : Core) (d : GReg) (v : Word) : (c.wr d v).log = c.log := by unfold Core.wr; split <;> rfl
@[simp] theorem Core.wr_phase (c : Core) (d : GReg) (v : Word) : (c.wr d v).phase = c.phase := by unfold Core.wr; split <;> rfl
@[simp] theorem Core.wr_task (c : Core) (d : GReg) (v : Word) : (c.wr d v).task = c.task := by unfold Core.wr; split <;> rfl
@[simp] theorem Core.wr_stop (c : Core) (d : GReg) (v : Word) : (c.wr d v).stop = c.stop := by unfold Core.wr; split <;> rfl
@[simp] theorem Core.wr_watch (c : Core) (d : GReg) (v : Word) : (c.wr d v).watch = c.watch := by unfold Core.wr; split <;> rfl
@[simp] theorem Core.wr_origin (c : Core) (d : GReg) (v : Word) : (c.wr d v).origin = c.origin := by unfold Core.wr; split <;> rfl
@[simp] theorem Core.wr_span (c : Core) (d : GReg) (v : Word) : (c.wr d v).span = c.span := by unfold Core.wr; split <;> rfl
@[simp] theorem Core.wr_tau (c : Core) (d : GReg) (v : Word) : (c.wr d v).tau = c.tau := by unfold Core.wr; split <;> rfl
@[simp] theorem Core.wr_begun (c : Core) (d : GReg) (v : Word) : (c.wr d v).begun = c.begun := by unfold Core.wr; split <;> rfl
@[simp] theorem Core.wr_verdict (c : Core) (d : GReg) (v : Word) : (c.wr d v).verdict = c.verdict := by unfold Core.wr; split <;> rfl
@[simp] theorem Core.wr_stalled (c : Core) (d : GReg) (v : Word) : (c.wr d v).stalled = c.stalled := by unfold Core.wr; split <;> rfl
@[simp] theorem Core.wr_slow (c : Core) (d : GReg) (v : Word) : (c.wr d v).slow = c.slow := by unfold Core.wr; split <;> rfl
@[simp] theorem Core.wr_entering (c : Core) (d : GReg) (v : Word) : (c.wr d v).entering = c.entering := by unfold Core.wr; split <;> rfl
@[simp] theorem Core.wr_clk (c : Core) (d : GReg) (v : Word) : (c.wr d v).clk = c.clk := by unfold Core.wr; split <;> rfl
@[simp] theorem Core.wr_rep (c : Core) (d : GReg) (v : Word) : (c.wr d v).rep = c.rep := by unfold Core.wr; split <;> rfl
@[simp] theorem Core.wr_repResume (c : Core) (d : GReg) (v : Word) : (c.wr d v).repResume = c.repResume := by unfold Core.wr; split <;> rfl
@[simp] theorem Core.wr_repHeld (c : Core) (d : GReg) (v : Word) : (c.wr d v).repHeld = c.repHeld := by unfold Core.wr; split <;> rfl
@[simp] theorem Core.wr_ir (c : Core) (d : GReg) (v : Word) : (c.wr d v).ir = c.ir := by unfold Core.wr; split <;> rfl
@[simp] theorem Core.wr_wait (c : Core) (d : GReg) (v : Word) : (c.wr d v).wait = c.wait := by unfold Core.wr; split <;> rfl
@[simp] theorem Core.wr_unpin (c : Core) (d : GReg) (v : Word) : (c.wr d v).unpin = c.unpin := by unfold Core.wr; split <;> rfl
@[simp] theorem Core.wr_mergeFault (c : Core) (d : GReg) (v : Word) : (c.wr d v).mergeFault = c.mergeFault := by unfold Core.wr; split <;> rfl
@[simp] theorem Core.wr_abortTid (c : Core) (d : GReg) (v : Word) : (c.wr d v).abortTid = c.abortTid := by unfold Core.wr; split <;> rfl
@[simp] theorem Core.wr_trap (c : Core) (d : GReg) (v : Word) : (c.wr d v).trap = c.trap := by unfold Core.wr; split <;> rfl
@[simp] theorem Core.wr_oldCode (c : Core) (d : GReg) (v : Word) : (c.wr d v).oldCode = c.oldCode := by unfold Core.wr; split <;> rfl
@[simp] theorem Core.wr_codeLines (c : Core) (d : GReg) (v : Word) : (c.wr d v).codeLines = c.codeLines := by unfold Core.wr; split <;> rfl
@[simp] theorem Core.wr_fetches (c : Core) (d : GReg) (v : Word) : (c.wr d v).fetches = c.fetches := by unfold Core.wr; split <;> rfl
@[simp] theorem Core.wr_clock (c : Core) (d : GReg) (v : Word) : (c.wr d v).clock = c.clock := by unfold Core.wr; split <;> rfl
@[simp] theorem Core.wr_stepAge (c : Core) (d : GReg) (v : Word) : (c.wr d v).stepAge = c.stepAge := by unfold Core.wr; split <;> rfl
@[simp] theorem Core.wr_vfree (c : Core) (d : GReg) (v : Word) : (c.wr d v).vfree = c.vfree := by unfold Core.wr; split <;> rfl
@[simp] theorem Core.wr_score (c : Core) (d : GReg) (v : Word) : (c.wr d v).score = c.score := by unfold Core.wr; split <;> rfl
@[simp] theorem Core.wr_nextAt (c : Core) (d : GReg) (v : Word) : (c.wr d v).nextAt = c.nextAt := by unfold Core.wr; split <;> rfl
@[simp] theorem Core.wr_newFlags (c : Core) (d : GReg) (v : Word) : (c.wr d v).newFlags = c.newFlags := by unfold Core.wr; split <;> rfl
@[simp] theorem Core.hold_key (c : Core) (t : Trans) : (c.hold t).key = c.key := by unfold Core.hold; split <;> rfl
@[simp] theorem Core.hold_g (c : Core) (t : Trans) : (c.hold t).g = c.g := by unfold Core.hold; split <;> rfl
@[simp] theorem Core.hold_p (c : Core) (t : Trans) : (c.hold t).p = c.p := by unfold Core.hold; split <;> rfl
@[simp] theorem Core.hold_w (c : Core) (t : Trans) : (c.hold t).w = c.w := by unfold Core.hold; split <;> rfl
@[simp] theorem Core.hold_lc (c : Core) (t : Trans) : (c.hold t).lc = c.lc := by unfold Core.hold; split <;> rfl
@[simp] theorem Core.hold_gs (c : Core) (t : Trans) : (c.hold t).gs = c.gs := by unfold Core.hold; split <;> rfl
@[simp] theorem Core.hold_tok (c : Core) (t : Trans) : (c.hold t).tok = c.tok := by unfold Core.hold; split <;> rfl
@[simp] theorem Core.hold_pc (c : Core) (t : Trans) : (c.hold t).pc = c.pc := by unfold Core.hold; split <;> rfl
@[simp] theorem Core.hold_retStore (c : Core) (t : Trans) : (c.hold t).retStore = c.retStore := by unfold Core.hold; split <;> rfl
@[simp] theorem Core.hold_lcnt (c : Core) (t : Trans) : (c.hold t).lcnt = c.lcnt := by unfold Core.hold; split <;> rfl
@[simp] theorem Core.hold_ctl (c : Core) (t : Trans) : (c.hold t).ctl = c.ctl := by unfold Core.hold; split <;> rfl
@[simp] theorem Core.hold_planes (c : Core) (t : Trans) : (c.hold t).planes = c.planes := by unfold Core.hold; split <;> rfl
@[simp] theorem Core.hold_masks (c : Core) (t : Trans) : (c.hold t).masks = c.masks := by unfold Core.hold; split <;> rfl
@[simp] theorem Core.hold_vq (c : Core) (t : Trans) : (c.hold t).vq = c.vq := by unfold Core.hold; split <;> rfl
@[simp] theorem Core.hold_vfly (c : Core) (t : Trans) : (c.hold t).vfly = c.vfly := by unfold Core.hold; split <;> rfl
@[simp] theorem Core.hold_loads (c : Core) (t : Trans) : (c.hold t).loads = c.loads := by unfold Core.hold; split <;> rfl
@[simp] theorem Core.hold_stores (c : Core) (t : Trans) : (c.hold t).stores = c.stores := by unfold Core.hold; split <;> rfl
@[simp] theorem Core.hold_num (c : Core) (t : Trans) : (c.hold t).num = c.num := by unfold Core.hold; split <;> rfl
@[simp] theorem Core.hold_pq (c : Core) (t : Trans) : (c.hold t).pq = c.pq := by unfold Core.hold; split <;> rfl
@[simp] theorem Core.hold_prun (c : Core) (t : Trans) : (c.hold t).prun = c.prun := by unfold Core.hold; split <;> rfl
@[simp] theorem Core.hold_pent (c : Core) (t : Trans) : (c.hold t).pent = c.pent := by unfold Core.hold; split <;> rfl
@[simp] theorem Core.hold_acc (c : Core) (t : Trans) : (c.hold t).acc = c.acc := by unfold Core.hold; split <;> rfl
@[simp] theorem Core.hold_proj (c : Core) (t : Trans) : (c.hold t).proj = c.proj := by unfold Core.hold; split <;> rfl
@[simp] theorem Core.hold_handles (c : Core) (t : Trans) : (c.hold t).handles = c.handles := by unfold Core.hold; split <;> rfl
@[simp] theorem Core.hold_drains (c : Core) (t : Trans) : (c.hold t).drains = c.drains := by unfold Core.hold; split <;> rfl
@[simp] theorem Core.hold_bypass (c : Core) (t : Trans) : (c.hold t).bypass = c.bypass := by unfold Core.hold; split <;> rfl
@[simp] theorem Core.hold_bypNext (c : Core) (t : Trans) : (c.hold t).bypNext = c.bypNext := by unfold Core.hold; split <;> rfl
@[simp] theorem Core.hold_tq (c : Core) (t : Trans) : (c.hold t).tq = c.tq := by unfold Core.hold; split <;> rfl
@[simp] theorem Core.hold_trun (c : Core) (t : Trans) : (c.hold t).trun = c.trun := by unfold Core.hold; split <;> rfl
@[simp] theorem Core.hold_tent (c : Core) (t : Trans) : (c.hold t).tent = c.tent := by unfold Core.hold; split <;> rfl
@[simp] theorem Core.hold_stencils (c : Core) (t : Trans) : (c.hold t).stencils = c.stencils := by unfold Core.hold; split <;> rfl
@[simp] theorem Core.hold_bars (c : Core) (t : Trans) : (c.hold t).bars = c.bars := by unfold Core.hold; split <;> rfl
@[simp] theorem Core.hold_log (c : Core) (t : Trans) : (c.hold t).log = c.log := by unfold Core.hold; split <;> rfl
@[simp] theorem Core.hold_phase (c : Core) (t : Trans) : (c.hold t).phase = c.phase := by unfold Core.hold; split <;> rfl
@[simp] theorem Core.hold_task (c : Core) (t : Trans) : (c.hold t).task = c.task := by unfold Core.hold; split <;> rfl
@[simp] theorem Core.hold_stop (c : Core) (t : Trans) : (c.hold t).stop = c.stop := by unfold Core.hold; split <;> rfl
@[simp] theorem Core.hold_watch (c : Core) (t : Trans) : (c.hold t).watch = c.watch := by unfold Core.hold; split <;> rfl
@[simp] theorem Core.hold_origin (c : Core) (t : Trans) : (c.hold t).origin = c.origin := by unfold Core.hold; split <;> rfl
@[simp] theorem Core.hold_span (c : Core) (t : Trans) : (c.hold t).span = c.span := by unfold Core.hold; split <;> rfl
@[simp] theorem Core.hold_tau (c : Core) (t : Trans) : (c.hold t).tau = c.tau := by unfold Core.hold; split <;> rfl
@[simp] theorem Core.hold_begun (c : Core) (t : Trans) : (c.hold t).begun = c.begun := by unfold Core.hold; split <;> rfl
@[simp] theorem Core.hold_verdict (c : Core) (t : Trans) : (c.hold t).verdict = c.verdict := by unfold Core.hold; split <;> rfl
@[simp] theorem Core.hold_stalled (c : Core) (t : Trans) : (c.hold t).stalled = c.stalled := by unfold Core.hold; split <;> rfl
@[simp] theorem Core.hold_slow (c : Core) (t : Trans) : (c.hold t).slow = c.slow := by unfold Core.hold; split <;> rfl
@[simp] theorem Core.hold_entering (c : Core) (t : Trans) : (c.hold t).entering = c.entering := by unfold Core.hold; split <;> rfl
@[simp] theorem Core.hold_clk (c : Core) (t : Trans) : (c.hold t).clk = c.clk := by unfold Core.hold; split <;> rfl
@[simp] theorem Core.hold_rep (c : Core) (t : Trans) : (c.hold t).rep = c.rep := by unfold Core.hold; split <;> rfl
@[simp] theorem Core.hold_repResume (c : Core) (t : Trans) : (c.hold t).repResume = c.repResume := by unfold Core.hold; split <;> rfl
@[simp] theorem Core.hold_repHeld (c : Core) (t : Trans) : (c.hold t).repHeld = c.repHeld := by unfold Core.hold; split <;> rfl
@[simp] theorem Core.hold_ir (c : Core) (t : Trans) : (c.hold t).ir = c.ir := by unfold Core.hold; split <;> rfl
@[simp] theorem Core.hold_wait (c : Core) (t : Trans) : (c.hold t).wait = c.wait := by unfold Core.hold; split <;> rfl
@[simp] theorem Core.hold_unpin (c : Core) (t : Trans) : (c.hold t).unpin = c.unpin := by unfold Core.hold; split <;> rfl
@[simp] theorem Core.hold_mergeFault (c : Core) (t : Trans) : (c.hold t).mergeFault = c.mergeFault := by unfold Core.hold; split <;> rfl
@[simp] theorem Core.hold_abortTid (c : Core) (t : Trans) : (c.hold t).abortTid = c.abortTid := by unfold Core.hold; split <;> rfl
@[simp] theorem Core.hold_trap (c : Core) (t : Trans) : (c.hold t).trap = c.trap := by unfold Core.hold; split <;> rfl
@[simp] theorem Core.hold_oldCode (c : Core) (t : Trans) : (c.hold t).oldCode = c.oldCode := by unfold Core.hold; split <;> rfl
@[simp] theorem Core.hold_codeLines (c : Core) (t : Trans) : (c.hold t).codeLines = c.codeLines := by unfold Core.hold; split <;> rfl
@[simp] theorem Core.hold_clean (c : Core) (t : Trans) : (c.hold t).clean = c.clean := by unfold Core.hold; split <;> rfl
@[simp] theorem Core.hold_fetches (c : Core) (t : Trans) : (c.hold t).fetches = c.fetches := by unfold Core.hold; split <;> rfl
@[simp] theorem Core.hold_clock (c : Core) (t : Trans) : (c.hold t).clock = c.clock := by unfold Core.hold; split <;> rfl
@[simp] theorem Core.hold_stepAge (c : Core) (t : Trans) : (c.hold t).stepAge = c.stepAge := by unfold Core.hold; split <;> rfl
@[simp] theorem Core.hold_vfree (c : Core) (t : Trans) : (c.hold t).vfree = c.vfree := by unfold Core.hold; split <;> rfl
@[simp] theorem Core.hold_score (c : Core) (t : Trans) : (c.hold t).score = c.score := by unfold Core.hold; split <;> rfl
@[simp] theorem Core.hold_nextAt (c : Core) (t : Trans) : (c.hold t).nextAt = c.nextAt := by unfold Core.hold; split <;> rfl
@[simp] theorem Core.hold_newFlags (c : Core) (t : Trans) : (c.hold t).newFlags = c.newFlags := by unfold Core.hold; split <;> rfl
@[simp] theorem Core.wp_key (c : Core) (d : PReg) (v : Bool) : (c.wp d v).key = c.key := by unfold Core.wp; split <;> rfl
@[simp] theorem Core.wp_g (c : Core) (d : PReg) (v : Bool) : (c.wp d v).g = c.g := by unfold Core.wp; split <;> rfl
@[simp] theorem Core.wp_w (c : Core) (d : PReg) (v : Bool) : (c.wp d v).w = c.w := by unfold Core.wp; split <;> rfl
@[simp] theorem Core.wp_lc (c : Core) (d : PReg) (v : Bool) : (c.wp d v).lc = c.lc := by unfold Core.wp; split <;> rfl
@[simp] theorem Core.wp_gs (c : Core) (d : PReg) (v : Bool) : (c.wp d v).gs = c.gs := by unfold Core.wp; split <;> rfl
@[simp] theorem Core.wp_tok (c : Core) (d : PReg) (v : Bool) : (c.wp d v).tok = c.tok := by unfold Core.wp; split <;> rfl
@[simp] theorem Core.wp_pc (c : Core) (d : PReg) (v : Bool) : (c.wp d v).pc = c.pc := by unfold Core.wp; split <;> rfl
@[simp] theorem Core.wp_retStore (c : Core) (d : PReg) (v : Bool) : (c.wp d v).retStore = c.retStore := by unfold Core.wp; split <;> rfl
@[simp] theorem Core.wp_lcnt (c : Core) (d : PReg) (v : Bool) : (c.wp d v).lcnt = c.lcnt := by unfold Core.wp; split <;> rfl
@[simp] theorem Core.wp_ctl (c : Core) (d : PReg) (v : Bool) : (c.wp d v).ctl = c.ctl := by unfold Core.wp; split <;> rfl
@[simp] theorem Core.wp_planes (c : Core) (d : PReg) (v : Bool) : (c.wp d v).planes = c.planes := by unfold Core.wp; split <;> rfl
@[simp] theorem Core.wp_masks (c : Core) (d : PReg) (v : Bool) : (c.wp d v).masks = c.masks := by unfold Core.wp; split <;> rfl
@[simp] theorem Core.wp_vq (c : Core) (d : PReg) (v : Bool) : (c.wp d v).vq = c.vq := by unfold Core.wp; split <;> rfl
@[simp] theorem Core.wp_vfly (c : Core) (d : PReg) (v : Bool) : (c.wp d v).vfly = c.vfly := by unfold Core.wp; split <;> rfl
@[simp] theorem Core.wp_loads (c : Core) (d : PReg) (v : Bool) : (c.wp d v).loads = c.loads := by unfold Core.wp; split <;> rfl
@[simp] theorem Core.wp_stores (c : Core) (d : PReg) (v : Bool) : (c.wp d v).stores = c.stores := by unfold Core.wp; split <;> rfl
@[simp] theorem Core.wp_num (c : Core) (d : PReg) (v : Bool) : (c.wp d v).num = c.num := by unfold Core.wp; split <;> rfl
@[simp] theorem Core.wp_pq (c : Core) (d : PReg) (v : Bool) : (c.wp d v).pq = c.pq := by unfold Core.wp; split <;> rfl
@[simp] theorem Core.wp_prun (c : Core) (d : PReg) (v : Bool) : (c.wp d v).prun = c.prun := by unfold Core.wp; split <;> rfl
@[simp] theorem Core.wp_pent (c : Core) (d : PReg) (v : Bool) : (c.wp d v).pent = c.pent := by unfold Core.wp; split <;> rfl
@[simp] theorem Core.wp_acc (c : Core) (d : PReg) (v : Bool) : (c.wp d v).acc = c.acc := by unfold Core.wp; split <;> rfl
@[simp] theorem Core.wp_proj (c : Core) (d : PReg) (v : Bool) : (c.wp d v).proj = c.proj := by unfold Core.wp; split <;> rfl
@[simp] theorem Core.wp_handles (c : Core) (d : PReg) (v : Bool) : (c.wp d v).handles = c.handles := by unfold Core.wp; split <;> rfl
@[simp] theorem Core.wp_drains (c : Core) (d : PReg) (v : Bool) : (c.wp d v).drains = c.drains := by unfold Core.wp; split <;> rfl
@[simp] theorem Core.wp_bypass (c : Core) (d : PReg) (v : Bool) : (c.wp d v).bypass = c.bypass := by unfold Core.wp; split <;> rfl
@[simp] theorem Core.wp_bypNext (c : Core) (d : PReg) (v : Bool) : (c.wp d v).bypNext = c.bypNext := by unfold Core.wp; split <;> rfl
@[simp] theorem Core.wp_tq (c : Core) (d : PReg) (v : Bool) : (c.wp d v).tq = c.tq := by unfold Core.wp; split <;> rfl
@[simp] theorem Core.wp_trun (c : Core) (d : PReg) (v : Bool) : (c.wp d v).trun = c.trun := by unfold Core.wp; split <;> rfl
@[simp] theorem Core.wp_tent (c : Core) (d : PReg) (v : Bool) : (c.wp d v).tent = c.tent := by unfold Core.wp; split <;> rfl
@[simp] theorem Core.wp_stencils (c : Core) (d : PReg) (v : Bool) : (c.wp d v).stencils = c.stencils := by unfold Core.wp; split <;> rfl
@[simp] theorem Core.wp_bars (c : Core) (d : PReg) (v : Bool) : (c.wp d v).bars = c.bars := by unfold Core.wp; split <;> rfl
@[simp] theorem Core.wp_held (c : Core) (d : PReg) (v : Bool) : (c.wp d v).held = c.held := by unfold Core.wp; split <;> rfl
@[simp] theorem Core.wp_log (c : Core) (d : PReg) (v : Bool) : (c.wp d v).log = c.log := by unfold Core.wp; split <;> rfl
@[simp] theorem Core.wp_phase (c : Core) (d : PReg) (v : Bool) : (c.wp d v).phase = c.phase := by unfold Core.wp; split <;> rfl
@[simp] theorem Core.wp_task (c : Core) (d : PReg) (v : Bool) : (c.wp d v).task = c.task := by unfold Core.wp; split <;> rfl
@[simp] theorem Core.wp_stop (c : Core) (d : PReg) (v : Bool) : (c.wp d v).stop = c.stop := by unfold Core.wp; split <;> rfl
@[simp] theorem Core.wp_watch (c : Core) (d : PReg) (v : Bool) : (c.wp d v).watch = c.watch := by unfold Core.wp; split <;> rfl
@[simp] theorem Core.wp_origin (c : Core) (d : PReg) (v : Bool) : (c.wp d v).origin = c.origin := by unfold Core.wp; split <;> rfl
@[simp] theorem Core.wp_span (c : Core) (d : PReg) (v : Bool) : (c.wp d v).span = c.span := by unfold Core.wp; split <;> rfl
@[simp] theorem Core.wp_tau (c : Core) (d : PReg) (v : Bool) : (c.wp d v).tau = c.tau := by unfold Core.wp; split <;> rfl
@[simp] theorem Core.wp_begun (c : Core) (d : PReg) (v : Bool) : (c.wp d v).begun = c.begun := by unfold Core.wp; split <;> rfl
@[simp] theorem Core.wp_verdict (c : Core) (d : PReg) (v : Bool) : (c.wp d v).verdict = c.verdict := by unfold Core.wp; split <;> rfl
@[simp] theorem Core.wp_stalled (c : Core) (d : PReg) (v : Bool) : (c.wp d v).stalled = c.stalled := by unfold Core.wp; split <;> rfl
@[simp] theorem Core.wp_slow (c : Core) (d : PReg) (v : Bool) : (c.wp d v).slow = c.slow := by unfold Core.wp; split <;> rfl
@[simp] theorem Core.wp_entering (c : Core) (d : PReg) (v : Bool) : (c.wp d v).entering = c.entering := by unfold Core.wp; split <;> rfl
@[simp] theorem Core.wp_clk (c : Core) (d : PReg) (v : Bool) : (c.wp d v).clk = c.clk := by unfold Core.wp; split <;> rfl
@[simp] theorem Core.wp_rep (c : Core) (d : PReg) (v : Bool) : (c.wp d v).rep = c.rep := by unfold Core.wp; split <;> rfl
@[simp] theorem Core.wp_repResume (c : Core) (d : PReg) (v : Bool) : (c.wp d v).repResume = c.repResume := by unfold Core.wp; split <;> rfl
@[simp] theorem Core.wp_repHeld (c : Core) (d : PReg) (v : Bool) : (c.wp d v).repHeld = c.repHeld := by unfold Core.wp; split <;> rfl
@[simp] theorem Core.wp_ir (c : Core) (d : PReg) (v : Bool) : (c.wp d v).ir = c.ir := by unfold Core.wp; split <;> rfl
@[simp] theorem Core.wp_wait (c : Core) (d : PReg) (v : Bool) : (c.wp d v).wait = c.wait := by unfold Core.wp; split <;> rfl
@[simp] theorem Core.wp_unpin (c : Core) (d : PReg) (v : Bool) : (c.wp d v).unpin = c.unpin := by unfold Core.wp; split <;> rfl
@[simp] theorem Core.wp_mergeFault (c : Core) (d : PReg) (v : Bool) : (c.wp d v).mergeFault = c.mergeFault := by unfold Core.wp; split <;> rfl
@[simp] theorem Core.wp_abortTid (c : Core) (d : PReg) (v : Bool) : (c.wp d v).abortTid = c.abortTid := by unfold Core.wp; split <;> rfl
@[simp] theorem Core.wp_trap (c : Core) (d : PReg) (v : Bool) : (c.wp d v).trap = c.trap := by unfold Core.wp; split <;> rfl
@[simp] theorem Core.wp_oldCode (c : Core) (d : PReg) (v : Bool) : (c.wp d v).oldCode = c.oldCode := by unfold Core.wp; split <;> rfl
@[simp] theorem Core.wp_codeLines (c : Core) (d : PReg) (v : Bool) : (c.wp d v).codeLines = c.codeLines := by unfold Core.wp; split <;> rfl
@[simp] theorem Core.wp_clean (c : Core) (d : PReg) (v : Bool) : (c.wp d v).clean = c.clean := by unfold Core.wp; split <;> rfl
@[simp] theorem Core.wp_fetches (c : Core) (d : PReg) (v : Bool) : (c.wp d v).fetches = c.fetches := by unfold Core.wp; split <;> rfl
@[simp] theorem Core.wp_clock (c : Core) (d : PReg) (v : Bool) : (c.wp d v).clock = c.clock := by unfold Core.wp; split <;> rfl
@[simp] theorem Core.wp_stepAge (c : Core) (d : PReg) (v : Bool) : (c.wp d v).stepAge = c.stepAge := by unfold Core.wp; split <;> rfl
@[simp] theorem Core.wp_vfree (c : Core) (d : PReg) (v : Bool) : (c.wp d v).vfree = c.vfree := by unfold Core.wp; split <;> rfl
@[simp] theorem Core.wp_score (c : Core) (d : PReg) (v : Bool) : (c.wp d v).score = c.score := by unfold Core.wp; split <;> rfl
@[simp] theorem Core.wp_nextAt (c : Core) (d : PReg) (v : Bool) : (c.wp d v).nextAt = c.nextAt := by unfold Core.wp; split <;> rfl
@[simp] theorem Core.wp_newFlags (c : Core) (d : PReg) (v : Bool) : (c.wp d v).newFlags = c.newFlags := by unfold Core.wp; split <;> rfl

/-! `Core.goto`, `Core.retire`, `Core.enterSection`, `Core.nextIn` -/

@[simp] theorem Core.goto_key (c : Core) (a : BitVec 17) : (c.goto a).key = c.key := rfl
@[simp] theorem Core.goto_g (c : Core) (a : BitVec 17) : (c.goto a).g = c.g := rfl
@[simp] theorem Core.goto_p (c : Core) (a : BitVec 17) : (c.goto a).p = c.p := rfl
@[simp] theorem Core.goto_w (c : Core) (a : BitVec 17) : (c.goto a).w = c.w := rfl
@[simp] theorem Core.goto_lc (c : Core) (a : BitVec 17) : (c.goto a).lc = c.lc := rfl
@[simp] theorem Core.goto_gs (c : Core) (a : BitVec 17) : (c.goto a).gs = c.gs := rfl
@[simp] theorem Core.goto_tok (c : Core) (a : BitVec 17) : (c.goto a).tok = c.tok := rfl
@[simp] theorem Core.goto_retStore (c : Core) (a : BitVec 17) : (c.goto a).retStore = c.retStore := rfl
@[simp] theorem Core.goto_lcnt (c : Core) (a : BitVec 17) : (c.goto a).lcnt = c.lcnt := rfl
@[simp] theorem Core.goto_ctl (c : Core) (a : BitVec 17) : (c.goto a).ctl = c.ctl := rfl
@[simp] theorem Core.goto_planes (c : Core) (a : BitVec 17) : (c.goto a).planes = c.planes := rfl
@[simp] theorem Core.goto_masks (c : Core) (a : BitVec 17) : (c.goto a).masks = c.masks := rfl
@[simp] theorem Core.goto_vq (c : Core) (a : BitVec 17) : (c.goto a).vq = c.vq := rfl
@[simp] theorem Core.goto_vfly (c : Core) (a : BitVec 17) : (c.goto a).vfly = c.vfly := rfl
@[simp] theorem Core.goto_loads (c : Core) (a : BitVec 17) : (c.goto a).loads = c.loads := rfl
@[simp] theorem Core.goto_stores (c : Core) (a : BitVec 17) : (c.goto a).stores = c.stores := rfl
@[simp] theorem Core.goto_num (c : Core) (a : BitVec 17) : (c.goto a).num = c.num := rfl
@[simp] theorem Core.goto_pq (c : Core) (a : BitVec 17) : (c.goto a).pq = c.pq := rfl
@[simp] theorem Core.goto_prun (c : Core) (a : BitVec 17) : (c.goto a).prun = c.prun := rfl
@[simp] theorem Core.goto_pent (c : Core) (a : BitVec 17) : (c.goto a).pent = c.pent := rfl
@[simp] theorem Core.goto_acc (c : Core) (a : BitVec 17) : (c.goto a).acc = c.acc := rfl
@[simp] theorem Core.goto_proj (c : Core) (a : BitVec 17) : (c.goto a).proj = c.proj := rfl
@[simp] theorem Core.goto_handles (c : Core) (a : BitVec 17) : (c.goto a).handles = c.handles := rfl
@[simp] theorem Core.goto_drains (c : Core) (a : BitVec 17) : (c.goto a).drains = c.drains := rfl
@[simp] theorem Core.goto_bypass (c : Core) (a : BitVec 17) : (c.goto a).bypass = c.bypass := rfl
@[simp] theorem Core.goto_bypNext (c : Core) (a : BitVec 17) : (c.goto a).bypNext = c.bypNext := rfl
@[simp] theorem Core.goto_tq (c : Core) (a : BitVec 17) : (c.goto a).tq = c.tq := rfl
@[simp] theorem Core.goto_trun (c : Core) (a : BitVec 17) : (c.goto a).trun = c.trun := rfl
@[simp] theorem Core.goto_tent (c : Core) (a : BitVec 17) : (c.goto a).tent = c.tent := rfl
@[simp] theorem Core.goto_stencils (c : Core) (a : BitVec 17) : (c.goto a).stencils = c.stencils := rfl
@[simp] theorem Core.goto_bars (c : Core) (a : BitVec 17) : (c.goto a).bars = c.bars := rfl
@[simp] theorem Core.goto_held (c : Core) (a : BitVec 17) : (c.goto a).held = c.held := rfl
@[simp] theorem Core.goto_log (c : Core) (a : BitVec 17) : (c.goto a).log = c.log := rfl
@[simp] theorem Core.goto_phase (c : Core) (a : BitVec 17) : (c.goto a).phase = c.phase := rfl
@[simp] theorem Core.goto_stop (c : Core) (a : BitVec 17) : (c.goto a).stop = c.stop := rfl
@[simp] theorem Core.goto_watch (c : Core) (a : BitVec 17) : (c.goto a).watch = c.watch := rfl
@[simp] theorem Core.goto_origin (c : Core) (a : BitVec 17) : (c.goto a).origin = c.origin := rfl
@[simp] theorem Core.goto_span (c : Core) (a : BitVec 17) : (c.goto a).span = c.span := rfl
@[simp] theorem Core.goto_tau (c : Core) (a : BitVec 17) : (c.goto a).tau = c.tau := rfl
@[simp] theorem Core.goto_begun (c : Core) (a : BitVec 17) : (c.goto a).begun = c.begun := rfl
@[simp] theorem Core.goto_verdict (c : Core) (a : BitVec 17) : (c.goto a).verdict = c.verdict := rfl
@[simp] theorem Core.goto_stalled (c : Core) (a : BitVec 17) : (c.goto a).stalled = c.stalled := rfl
@[simp] theorem Core.goto_slow (c : Core) (a : BitVec 17) : (c.goto a).slow = c.slow := rfl
@[simp] theorem Core.goto_clk (c : Core) (a : BitVec 17) : (c.goto a).clk = c.clk := rfl
@[simp] theorem Core.goto_rep (c : Core) (a : BitVec 17) : (c.goto a).rep = c.rep := rfl
@[simp] theorem Core.goto_repHeld (c : Core) (a : BitVec 17) : (c.goto a).repHeld = c.repHeld := rfl
@[simp] theorem Core.goto_ir (c : Core) (a : BitVec 17) : (c.goto a).ir = c.ir := rfl
@[simp] theorem Core.goto_wait (c : Core) (a : BitVec 17) : (c.goto a).wait = c.wait := rfl
@[simp] theorem Core.goto_unpin (c : Core) (a : BitVec 17) : (c.goto a).unpin = c.unpin := rfl
@[simp] theorem Core.goto_mergeFault (c : Core) (a : BitVec 17) : (c.goto a).mergeFault = c.mergeFault := rfl
@[simp] theorem Core.goto_abortTid (c : Core) (a : BitVec 17) : (c.goto a).abortTid = c.abortTid := rfl
@[simp] theorem Core.goto_trap (c : Core) (a : BitVec 17) : (c.goto a).trap = c.trap := rfl
@[simp] theorem Core.goto_oldCode (c : Core) (a : BitVec 17) : (c.goto a).oldCode = c.oldCode := rfl
@[simp] theorem Core.goto_codeLines (c : Core) (a : BitVec 17) : (c.goto a).codeLines = c.codeLines := rfl
@[simp] theorem Core.goto_clean (c : Core) (a : BitVec 17) : (c.goto a).clean = c.clean := rfl
@[simp] theorem Core.goto_clock (c : Core) (a : BitVec 17) : (c.goto a).clock = c.clock := rfl
@[simp] theorem Core.goto_stepAge (c : Core) (a : BitVec 17) : (c.goto a).stepAge = c.stepAge := rfl
@[simp] theorem Core.goto_vfree (c : Core) (a : BitVec 17) : (c.goto a).vfree = c.vfree := rfl
@[simp] theorem Core.goto_score (c : Core) (a : BitVec 17) : (c.goto a).score = c.score := rfl
@[simp] theorem Core.goto_nextAt (c : Core) (a : BitVec 17) : (c.goto a).nextAt = c.nextAt := rfl
@[simp] theorem Core.goto_newFlags (c : Core) (a : BitVec 17) : (c.goto a).newFlags = c.newFlags := rfl
@[simp] theorem Core.retire_key (c : Core) : c.retire.key = c.key := by simp only [Core.retire]; split <;> (try split) <;> rfl
@[simp] theorem Core.retire_g (c : Core) : c.retire.g = c.g := by simp only [Core.retire]; split <;> (try split) <;> rfl
@[simp] theorem Core.retire_p (c : Core) : c.retire.p = c.p := by simp only [Core.retire]; split <;> (try split) <;> rfl
@[simp] theorem Core.retire_w (c : Core) : c.retire.w = c.w := by simp only [Core.retire]; split <;> (try split) <;> rfl
@[simp] theorem Core.retire_gs (c : Core) : c.retire.gs = c.gs := by simp only [Core.retire]; split <;> (try split) <;> rfl
@[simp] theorem Core.retire_tok (c : Core) : c.retire.tok = c.tok := by simp only [Core.retire]; split <;> (try split) <;> rfl
@[simp] theorem Core.retire_retStore (c : Core) : c.retire.retStore = c.retStore := by simp only [Core.retire]; split <;> (try split) <;> rfl
@[simp] theorem Core.retire_lcnt (c : Core) : c.retire.lcnt = c.lcnt := by simp only [Core.retire]; split <;> (try split) <;> rfl
@[simp] theorem Core.retire_ctl (c : Core) : c.retire.ctl = c.ctl := by simp only [Core.retire]; split <;> (try split) <;> rfl
@[simp] theorem Core.retire_planes (c : Core) : c.retire.planes = c.planes := by simp only [Core.retire]; split <;> (try split) <;> rfl
@[simp] theorem Core.retire_masks (c : Core) : c.retire.masks = c.masks := by simp only [Core.retire]; split <;> (try split) <;> rfl
@[simp] theorem Core.retire_vq (c : Core) : c.retire.vq = c.vq := by simp only [Core.retire]; split <;> (try split) <;> rfl
@[simp] theorem Core.retire_vfly (c : Core) : c.retire.vfly = c.vfly := by simp only [Core.retire]; split <;> (try split) <;> rfl
@[simp] theorem Core.retire_loads (c : Core) : c.retire.loads = c.loads := by simp only [Core.retire]; split <;> (try split) <;> rfl
@[simp] theorem Core.retire_stores (c : Core) : c.retire.stores = c.stores := by simp only [Core.retire]; split <;> (try split) <;> rfl
@[simp] theorem Core.retire_num (c : Core) : c.retire.num = c.num := by simp only [Core.retire]; split <;> (try split) <;> rfl
@[simp] theorem Core.retire_pq (c : Core) : c.retire.pq = c.pq := by simp only [Core.retire]; split <;> (try split) <;> rfl
@[simp] theorem Core.retire_prun (c : Core) : c.retire.prun = c.prun := by simp only [Core.retire]; split <;> (try split) <;> rfl
@[simp] theorem Core.retire_pent (c : Core) : c.retire.pent = c.pent := by simp only [Core.retire]; split <;> (try split) <;> rfl
@[simp] theorem Core.retire_acc (c : Core) : c.retire.acc = c.acc := by simp only [Core.retire]; split <;> (try split) <;> rfl
@[simp] theorem Core.retire_proj (c : Core) : c.retire.proj = c.proj := by simp only [Core.retire]; split <;> (try split) <;> rfl
@[simp] theorem Core.retire_handles (c : Core) : c.retire.handles = c.handles := by simp only [Core.retire]; split <;> (try split) <;> rfl
@[simp] theorem Core.retire_drains (c : Core) : c.retire.drains = c.drains := by simp only [Core.retire]; split <;> (try split) <;> rfl
@[simp] theorem Core.retire_bypass (c : Core) : c.retire.bypass = c.bypass := by simp only [Core.retire]; split <;> (try split) <;> rfl
@[simp] theorem Core.retire_bypNext (c : Core) : c.retire.bypNext = c.bypNext := by simp only [Core.retire]; split <;> (try split) <;> rfl
@[simp] theorem Core.retire_tq (c : Core) : c.retire.tq = c.tq := by simp only [Core.retire]; split <;> (try split) <;> rfl
@[simp] theorem Core.retire_trun (c : Core) : c.retire.trun = c.trun := by simp only [Core.retire]; split <;> (try split) <;> rfl
@[simp] theorem Core.retire_tent (c : Core) : c.retire.tent = c.tent := by simp only [Core.retire]; split <;> (try split) <;> rfl
@[simp] theorem Core.retire_stencils (c : Core) : c.retire.stencils = c.stencils := by simp only [Core.retire]; split <;> (try split) <;> rfl
@[simp] theorem Core.retire_bars (c : Core) : c.retire.bars = c.bars := by simp only [Core.retire]; split <;> (try split) <;> rfl
@[simp] theorem Core.retire_held (c : Core) : c.retire.held = c.held := by simp only [Core.retire]; split <;> (try split) <;> rfl
@[simp] theorem Core.retire_log (c : Core) : c.retire.log = c.log := by simp only [Core.retire]; split <;> (try split) <;> rfl
@[simp] theorem Core.retire_phase (c : Core) : c.retire.phase = c.phase := by simp only [Core.retire]; split <;> (try split) <;> rfl
@[simp] theorem Core.retire_stop (c : Core) : c.retire.stop = c.stop := by simp only [Core.retire]; split <;> (try split) <;> rfl
@[simp] theorem Core.retire_watch (c : Core) : c.retire.watch = c.watch := by simp only [Core.retire]; split <;> (try split) <;> rfl
@[simp] theorem Core.retire_origin (c : Core) : c.retire.origin = c.origin := by simp only [Core.retire]; split <;> (try split) <;> rfl
@[simp] theorem Core.retire_span (c : Core) : c.retire.span = c.span := by simp only [Core.retire]; split <;> (try split) <;> rfl
@[simp] theorem Core.retire_tau (c : Core) : c.retire.tau = c.tau := by simp only [Core.retire]; split <;> (try split) <;> rfl
@[simp] theorem Core.retire_begun (c : Core) : c.retire.begun = c.begun := by simp only [Core.retire]; split <;> (try split) <;> rfl
@[simp] theorem Core.retire_verdict (c : Core) : c.retire.verdict = c.verdict := by simp only [Core.retire]; split <;> (try split) <;> rfl
@[simp] theorem Core.retire_stalled (c : Core) : c.retire.stalled = c.stalled := by simp only [Core.retire]; split <;> (try split) <;> rfl
@[simp] theorem Core.retire_slow (c : Core) : c.retire.slow = c.slow := by simp only [Core.retire]; split <;> (try split) <;> rfl
@[simp] theorem Core.retire_clk (c : Core) : c.retire.clk = c.clk := by simp only [Core.retire]; split <;> (try split) <;> rfl
@[simp] theorem Core.retire_repHeld (c : Core) : c.retire.repHeld = c.repHeld := by simp only [Core.retire]; split <;> (try split) <;> rfl
@[simp] theorem Core.retire_ir (c : Core) : c.retire.ir = c.ir := by simp only [Core.retire]; split <;> (try split) <;> rfl
@[simp] theorem Core.retire_unpin (c : Core) : c.retire.unpin = c.unpin := by simp only [Core.retire]; split <;> (try split) <;> rfl
@[simp] theorem Core.retire_mergeFault (c : Core) : c.retire.mergeFault = c.mergeFault := by simp only [Core.retire]; split <;> (try split) <;> rfl
@[simp] theorem Core.retire_abortTid (c : Core) : c.retire.abortTid = c.abortTid := by simp only [Core.retire]; split <;> (try split) <;> rfl
@[simp] theorem Core.retire_trap (c : Core) : c.retire.trap = c.trap := by simp only [Core.retire]; split <;> (try split) <;> rfl
@[simp] theorem Core.retire_oldCode (c : Core) : c.retire.oldCode = c.oldCode := by simp only [Core.retire]; split <;> (try split) <;> rfl
@[simp] theorem Core.retire_codeLines (c : Core) : c.retire.codeLines = c.codeLines := by simp only [Core.retire]; split <;> (try split) <;> rfl
@[simp] theorem Core.retire_clean (c : Core) : c.retire.clean = c.clean := by simp only [Core.retire]; split <;> (try split) <;> rfl
@[simp] theorem Core.retire_clock (c : Core) : c.retire.clock = c.clock := by simp only [Core.retire]; split <;> (try split) <;> rfl
@[simp] theorem Core.retire_stepAge (c : Core) : c.retire.stepAge = c.stepAge := by simp only [Core.retire]; split <;> (try split) <;> rfl
@[simp] theorem Core.retire_vfree (c : Core) : c.retire.vfree = c.vfree := by simp only [Core.retire]; split <;> (try split) <;> rfl
@[simp] theorem Core.retire_score (c : Core) : c.retire.score = c.score := by simp only [Core.retire]; split <;> (try split) <;> rfl
@[simp] theorem Core.retire_nextAt (c : Core) : c.retire.nextAt = c.nextAt := by simp only [Core.retire]; split <;> (try split) <;> rfl
@[simp] theorem Core.retire_newFlags (c : Core) : c.retire.newFlags = c.newFlags := by simp only [Core.retire]; split <;> (try split) <;> rfl
@[simp] theorem Core.enterSection_key (c : Core) : c.enterSection.key = c.key := by unfold Core.enterSection; split <;> rfl
@[simp] theorem Core.enterSection_g (c : Core) : c.enterSection.g = c.g := by unfold Core.enterSection; split <;> rfl
@[simp] theorem Core.enterSection_p (c : Core) : c.enterSection.p = c.p := by unfold Core.enterSection; split <;> rfl
@[simp] theorem Core.enterSection_w (c : Core) : c.enterSection.w = c.w := by unfold Core.enterSection; split <;> rfl
@[simp] theorem Core.enterSection_lc (c : Core) : c.enterSection.lc = c.lc := by unfold Core.enterSection; split <;> rfl
@[simp] theorem Core.enterSection_gs (c : Core) : c.enterSection.gs = c.gs := by unfold Core.enterSection; split <;> rfl
@[simp] theorem Core.enterSection_tok (c : Core) : c.enterSection.tok = c.tok := by unfold Core.enterSection; split <;> rfl
@[simp] theorem Core.enterSection_pc (c : Core) : c.enterSection.pc = c.pc := by unfold Core.enterSection; split <;> rfl
@[simp] theorem Core.enterSection_retStore (c : Core) : c.enterSection.retStore = c.retStore := by unfold Core.enterSection; split <;> rfl
@[simp] theorem Core.enterSection_lcnt (c : Core) : c.enterSection.lcnt = c.lcnt := by unfold Core.enterSection; split <;> rfl
@[simp] theorem Core.enterSection_ctl (c : Core) : c.enterSection.ctl = c.ctl := by unfold Core.enterSection; split <;> rfl
@[simp] theorem Core.enterSection_planes (c : Core) : c.enterSection.planes = c.planes := by unfold Core.enterSection; split <;> rfl
@[simp] theorem Core.enterSection_masks (c : Core) : c.enterSection.masks = c.masks := by unfold Core.enterSection; split <;> rfl
@[simp] theorem Core.enterSection_vq (c : Core) : c.enterSection.vq = c.vq := by unfold Core.enterSection; split <;> rfl
@[simp] theorem Core.enterSection_vfly (c : Core) : c.enterSection.vfly = c.vfly := by unfold Core.enterSection; split <;> rfl
@[simp] theorem Core.enterSection_loads (c : Core) : c.enterSection.loads = c.loads := by unfold Core.enterSection; split <;> rfl
@[simp] theorem Core.enterSection_stores (c : Core) : c.enterSection.stores = c.stores := by unfold Core.enterSection; split <;> rfl
@[simp] theorem Core.enterSection_num (c : Core) : c.enterSection.num = c.num := by unfold Core.enterSection; split <;> rfl
@[simp] theorem Core.enterSection_pq (c : Core) : c.enterSection.pq = c.pq := by unfold Core.enterSection; split <;> rfl
@[simp] theorem Core.enterSection_prun (c : Core) : c.enterSection.prun = c.prun := by unfold Core.enterSection; split <;> rfl
@[simp] theorem Core.enterSection_pent (c : Core) : c.enterSection.pent = c.pent := by unfold Core.enterSection; split <;> rfl
@[simp] theorem Core.enterSection_acc (c : Core) : c.enterSection.acc = c.acc := by unfold Core.enterSection; split <;> rfl
@[simp] theorem Core.enterSection_proj (c : Core) : c.enterSection.proj = c.proj := by unfold Core.enterSection; split <;> rfl
@[simp] theorem Core.enterSection_handles (c : Core) : c.enterSection.handles = c.handles := by unfold Core.enterSection; split <;> rfl
@[simp] theorem Core.enterSection_drains (c : Core) : c.enterSection.drains = c.drains := by unfold Core.enterSection; split <;> rfl
@[simp] theorem Core.enterSection_bypass (c : Core) : c.enterSection.bypass = c.bypass := by unfold Core.enterSection; split <;> rfl
@[simp] theorem Core.enterSection_bypNext (c : Core) : c.enterSection.bypNext = c.bypNext := by unfold Core.enterSection; split <;> rfl
@[simp] theorem Core.enterSection_tq (c : Core) : c.enterSection.tq = c.tq := by unfold Core.enterSection; split <;> rfl
@[simp] theorem Core.enterSection_trun (c : Core) : c.enterSection.trun = c.trun := by unfold Core.enterSection; split <;> rfl
@[simp] theorem Core.enterSection_tent (c : Core) : c.enterSection.tent = c.tent := by unfold Core.enterSection; split <;> rfl
@[simp] theorem Core.enterSection_stencils (c : Core) : c.enterSection.stencils = c.stencils := by unfold Core.enterSection; split <;> rfl
@[simp] theorem Core.enterSection_bars (c : Core) : c.enterSection.bars = c.bars := by unfold Core.enterSection; split <;> rfl
@[simp] theorem Core.enterSection_held (c : Core) : c.enterSection.held = c.held := by unfold Core.enterSection; split <;> rfl
@[simp] theorem Core.enterSection_log (c : Core) : c.enterSection.log = c.log := by unfold Core.enterSection; split <;> rfl
@[simp] theorem Core.enterSection_phase (c : Core) : c.enterSection.phase = c.phase := by unfold Core.enterSection; split <;> rfl
@[simp] theorem Core.enterSection_task (c : Core) : c.enterSection.task = c.task := by unfold Core.enterSection; split <;> rfl
@[simp] theorem Core.enterSection_stop (c : Core) : c.enterSection.stop = c.stop := by unfold Core.enterSection; split <;> rfl
@[simp] theorem Core.enterSection_watch (c : Core) : c.enterSection.watch = c.watch := by unfold Core.enterSection; split <;> rfl
@[simp] theorem Core.enterSection_tau (c : Core) : c.enterSection.tau = c.tau := by unfold Core.enterSection; split <;> rfl
@[simp] theorem Core.enterSection_begun (c : Core) : c.enterSection.begun = c.begun := by unfold Core.enterSection; split <;> rfl
@[simp] theorem Core.enterSection_verdict (c : Core) : c.enterSection.verdict = c.verdict := by unfold Core.enterSection; split <;> rfl
@[simp] theorem Core.enterSection_stalled (c : Core) : c.enterSection.stalled = c.stalled := by unfold Core.enterSection; split <;> rfl
@[simp] theorem Core.enterSection_slow (c : Core) : c.enterSection.slow = c.slow := by unfold Core.enterSection; split <;> rfl
@[simp] theorem Core.enterSection_clk (c : Core) : c.enterSection.clk = c.clk := by unfold Core.enterSection; split <;> rfl
@[simp] theorem Core.enterSection_rep (c : Core) : c.enterSection.rep = c.rep := by unfold Core.enterSection; split <;> rfl
@[simp] theorem Core.enterSection_repResume (c : Core) : c.enterSection.repResume = c.repResume := by unfold Core.enterSection; split <;> rfl
@[simp] theorem Core.enterSection_repHeld (c : Core) : c.enterSection.repHeld = c.repHeld := by unfold Core.enterSection; split <;> rfl
@[simp] theorem Core.enterSection_ir (c : Core) : c.enterSection.ir = c.ir := by unfold Core.enterSection; split <;> rfl
@[simp] theorem Core.enterSection_wait (c : Core) : c.enterSection.wait = c.wait := by unfold Core.enterSection; split <;> rfl
@[simp] theorem Core.enterSection_unpin (c : Core) : c.enterSection.unpin = c.unpin := by unfold Core.enterSection; split <;> rfl
@[simp] theorem Core.enterSection_mergeFault (c : Core) : c.enterSection.mergeFault = c.mergeFault := by unfold Core.enterSection; split <;> rfl
@[simp] theorem Core.enterSection_abortTid (c : Core) : c.enterSection.abortTid = c.abortTid := by unfold Core.enterSection; split <;> rfl
@[simp] theorem Core.enterSection_trap (c : Core) : c.enterSection.trap = c.trap := by unfold Core.enterSection; split <;> rfl
@[simp] theorem Core.enterSection_oldCode (c : Core) : c.enterSection.oldCode = c.oldCode := by unfold Core.enterSection; split <;> rfl
@[simp] theorem Core.enterSection_codeLines (c : Core) : c.enterSection.codeLines = c.codeLines := by unfold Core.enterSection; split <;> rfl
@[simp] theorem Core.enterSection_clean (c : Core) : c.enterSection.clean = c.clean := by unfold Core.enterSection; split <;> rfl
@[simp] theorem Core.enterSection_fetches (c : Core) : c.enterSection.fetches = c.fetches := by unfold Core.enterSection; split <;> rfl
@[simp] theorem Core.enterSection_clock (c : Core) : c.enterSection.clock = c.clock := by unfold Core.enterSection; split <;> rfl
@[simp] theorem Core.enterSection_stepAge (c : Core) : c.enterSection.stepAge = c.stepAge := by unfold Core.enterSection; split <;> rfl
@[simp] theorem Core.enterSection_vfree (c : Core) : c.enterSection.vfree = c.vfree := by unfold Core.enterSection; split <;> rfl
@[simp] theorem Core.enterSection_score (c : Core) : c.enterSection.score = c.score := by unfold Core.enterSection; split <;> rfl
@[simp] theorem Core.enterSection_nextAt (c : Core) : c.enterSection.nextAt = c.nextAt := by unfold Core.enterSection; split <;> rfl
@[simp] theorem Core.enterSection_newFlags (c : Core) : c.enterSection.newFlags = c.newFlags := by unfold Core.enterSection; split <;> rfl
@[simp] theorem Core.nextIn_key (n : Nat) (c : Core) : (c.nextIn n).key = c.key := by unfold Core.nextIn; split <;> rfl
@[simp] theorem Core.nextIn_g (n : Nat) (c : Core) : (c.nextIn n).g = c.g := by unfold Core.nextIn; split <;> rfl
@[simp] theorem Core.nextIn_p (n : Nat) (c : Core) : (c.nextIn n).p = c.p := by unfold Core.nextIn; split <;> rfl
@[simp] theorem Core.nextIn_w (n : Nat) (c : Core) : (c.nextIn n).w = c.w := by unfold Core.nextIn; split <;> rfl
@[simp] theorem Core.nextIn_lc (n : Nat) (c : Core) : (c.nextIn n).lc = c.lc := by unfold Core.nextIn; split <;> rfl
@[simp] theorem Core.nextIn_gs (n : Nat) (c : Core) : (c.nextIn n).gs = c.gs := by unfold Core.nextIn; split <;> rfl
@[simp] theorem Core.nextIn_tok (n : Nat) (c : Core) : (c.nextIn n).tok = c.tok := by unfold Core.nextIn; split <;> rfl
@[simp] theorem Core.nextIn_pc (n : Nat) (c : Core) : (c.nextIn n).pc = c.pc := by unfold Core.nextIn; split <;> rfl
@[simp] theorem Core.nextIn_retStore (n : Nat) (c : Core) : (c.nextIn n).retStore = c.retStore := by unfold Core.nextIn; split <;> rfl
@[simp] theorem Core.nextIn_lcnt (n : Nat) (c : Core) : (c.nextIn n).lcnt = c.lcnt := by unfold Core.nextIn; split <;> rfl
@[simp] theorem Core.nextIn_ctl (n : Nat) (c : Core) : (c.nextIn n).ctl = c.ctl := by unfold Core.nextIn; split <;> rfl
@[simp] theorem Core.nextIn_planes (n : Nat) (c : Core) : (c.nextIn n).planes = c.planes := by unfold Core.nextIn; split <;> rfl
@[simp] theorem Core.nextIn_masks (n : Nat) (c : Core) : (c.nextIn n).masks = c.masks := by unfold Core.nextIn; split <;> rfl
@[simp] theorem Core.nextIn_vq (n : Nat) (c : Core) : (c.nextIn n).vq = c.vq := by unfold Core.nextIn; split <;> rfl
@[simp] theorem Core.nextIn_vfly (n : Nat) (c : Core) : (c.nextIn n).vfly = c.vfly := by unfold Core.nextIn; split <;> rfl
@[simp] theorem Core.nextIn_loads (n : Nat) (c : Core) : (c.nextIn n).loads = c.loads := by unfold Core.nextIn; split <;> rfl
@[simp] theorem Core.nextIn_stores (n : Nat) (c : Core) : (c.nextIn n).stores = c.stores := by unfold Core.nextIn; split <;> rfl
@[simp] theorem Core.nextIn_num (n : Nat) (c : Core) : (c.nextIn n).num = c.num := by unfold Core.nextIn; split <;> rfl
@[simp] theorem Core.nextIn_pq (n : Nat) (c : Core) : (c.nextIn n).pq = c.pq := by unfold Core.nextIn; split <;> rfl
@[simp] theorem Core.nextIn_prun (n : Nat) (c : Core) : (c.nextIn n).prun = c.prun := by unfold Core.nextIn; split <;> rfl
@[simp] theorem Core.nextIn_pent (n : Nat) (c : Core) : (c.nextIn n).pent = c.pent := by unfold Core.nextIn; split <;> rfl
@[simp] theorem Core.nextIn_acc (n : Nat) (c : Core) : (c.nextIn n).acc = c.acc := by unfold Core.nextIn; split <;> rfl
@[simp] theorem Core.nextIn_proj (n : Nat) (c : Core) : (c.nextIn n).proj = c.proj := by unfold Core.nextIn; split <;> rfl
@[simp] theorem Core.nextIn_handles (n : Nat) (c : Core) : (c.nextIn n).handles = c.handles := by unfold Core.nextIn; split <;> rfl
@[simp] theorem Core.nextIn_drains (n : Nat) (c : Core) : (c.nextIn n).drains = c.drains := by unfold Core.nextIn; split <;> rfl
@[simp] theorem Core.nextIn_bypass (n : Nat) (c : Core) : (c.nextIn n).bypass = c.bypass := by unfold Core.nextIn; split <;> rfl
@[simp] theorem Core.nextIn_bypNext (n : Nat) (c : Core) : (c.nextIn n).bypNext = c.bypNext := by unfold Core.nextIn; split <;> rfl
@[simp] theorem Core.nextIn_tq (n : Nat) (c : Core) : (c.nextIn n).tq = c.tq := by unfold Core.nextIn; split <;> rfl
@[simp] theorem Core.nextIn_trun (n : Nat) (c : Core) : (c.nextIn n).trun = c.trun := by unfold Core.nextIn; split <;> rfl
@[simp] theorem Core.nextIn_tent (n : Nat) (c : Core) : (c.nextIn n).tent = c.tent := by unfold Core.nextIn; split <;> rfl
@[simp] theorem Core.nextIn_stencils (n : Nat) (c : Core) : (c.nextIn n).stencils = c.stencils := by unfold Core.nextIn; split <;> rfl
@[simp] theorem Core.nextIn_bars (n : Nat) (c : Core) : (c.nextIn n).bars = c.bars := by unfold Core.nextIn; split <;> rfl
@[simp] theorem Core.nextIn_held (n : Nat) (c : Core) : (c.nextIn n).held = c.held := by unfold Core.nextIn; split <;> rfl
@[simp] theorem Core.nextIn_log (n : Nat) (c : Core) : (c.nextIn n).log = c.log := by unfold Core.nextIn; split <;> rfl
@[simp] theorem Core.nextIn_phase (n : Nat) (c : Core) : (c.nextIn n).phase = c.phase := by unfold Core.nextIn; split <;> rfl
@[simp] theorem Core.nextIn_task (n : Nat) (c : Core) : (c.nextIn n).task = c.task := by unfold Core.nextIn; split <;> rfl
@[simp] theorem Core.nextIn_stop (n : Nat) (c : Core) : (c.nextIn n).stop = c.stop := by unfold Core.nextIn; split <;> rfl
@[simp] theorem Core.nextIn_watch (n : Nat) (c : Core) : (c.nextIn n).watch = c.watch := by unfold Core.nextIn; split <;> rfl
@[simp] theorem Core.nextIn_origin (n : Nat) (c : Core) : (c.nextIn n).origin = c.origin := by unfold Core.nextIn; split <;> rfl
@[simp] theorem Core.nextIn_span (n : Nat) (c : Core) : (c.nextIn n).span = c.span := by unfold Core.nextIn; split <;> rfl
@[simp] theorem Core.nextIn_tau (n : Nat) (c : Core) : (c.nextIn n).tau = c.tau := by unfold Core.nextIn; split <;> rfl
@[simp] theorem Core.nextIn_begun (n : Nat) (c : Core) : (c.nextIn n).begun = c.begun := by unfold Core.nextIn; split <;> rfl
@[simp] theorem Core.nextIn_verdict (n : Nat) (c : Core) : (c.nextIn n).verdict = c.verdict := by unfold Core.nextIn; split <;> rfl
@[simp] theorem Core.nextIn_stalled (n : Nat) (c : Core) : (c.nextIn n).stalled = c.stalled := by unfold Core.nextIn; split <;> rfl
@[simp] theorem Core.nextIn_slow (n : Nat) (c : Core) : (c.nextIn n).slow = c.slow := by unfold Core.nextIn; split <;> rfl
@[simp] theorem Core.nextIn_entering (n : Nat) (c : Core) : (c.nextIn n).entering = c.entering := by unfold Core.nextIn; split <;> rfl
@[simp] theorem Core.nextIn_clk (n : Nat) (c : Core) : (c.nextIn n).clk = c.clk := by unfold Core.nextIn; split <;> rfl
@[simp] theorem Core.nextIn_rep (n : Nat) (c : Core) : (c.nextIn n).rep = c.rep := by unfold Core.nextIn; split <;> rfl
@[simp] theorem Core.nextIn_repResume (n : Nat) (c : Core) : (c.nextIn n).repResume = c.repResume := by unfold Core.nextIn; split <;> rfl
@[simp] theorem Core.nextIn_repHeld (n : Nat) (c : Core) : (c.nextIn n).repHeld = c.repHeld := by unfold Core.nextIn; split <;> rfl
@[simp] theorem Core.nextIn_ir (n : Nat) (c : Core) : (c.nextIn n).ir = c.ir := by unfold Core.nextIn; split <;> rfl
@[simp] theorem Core.nextIn_wait (n : Nat) (c : Core) : (c.nextIn n).wait = c.wait := by unfold Core.nextIn; split <;> rfl
@[simp] theorem Core.nextIn_unpin (n : Nat) (c : Core) : (c.nextIn n).unpin = c.unpin := by unfold Core.nextIn; split <;> rfl
@[simp] theorem Core.nextIn_mergeFault (n : Nat) (c : Core) : (c.nextIn n).mergeFault = c.mergeFault := by unfold Core.nextIn; split <;> rfl
@[simp] theorem Core.nextIn_abortTid (n : Nat) (c : Core) : (c.nextIn n).abortTid = c.abortTid := by unfold Core.nextIn; split <;> rfl
@[simp] theorem Core.nextIn_trap (n : Nat) (c : Core) : (c.nextIn n).trap = c.trap := by unfold Core.nextIn; split <;> rfl
@[simp] theorem Core.nextIn_oldCode (n : Nat) (c : Core) : (c.nextIn n).oldCode = c.oldCode := by unfold Core.nextIn; split <;> rfl
@[simp] theorem Core.nextIn_codeLines (n : Nat) (c : Core) : (c.nextIn n).codeLines = c.codeLines := by unfold Core.nextIn; split <;> rfl
@[simp] theorem Core.nextIn_clean (n : Nat) (c : Core) : (c.nextIn n).clean = c.clean := by unfold Core.nextIn; split <;> rfl
@[simp] theorem Core.nextIn_fetches (n : Nat) (c : Core) : (c.nextIn n).fetches = c.fetches := by unfold Core.nextIn; split <;> rfl
@[simp] theorem Core.nextIn_clock (n : Nat) (c : Core) : (c.nextIn n).clock = c.clock := by unfold Core.nextIn; split <;> rfl
@[simp] theorem Core.nextIn_stepAge (n : Nat) (c : Core) : (c.nextIn n).stepAge = c.stepAge := by unfold Core.nextIn; split <;> rfl
@[simp] theorem Core.nextIn_vfree (n : Nat) (c : Core) : (c.nextIn n).vfree = c.vfree := by unfold Core.nextIn; split <;> rfl
@[simp] theorem Core.nextIn_score (n : Nat) (c : Core) : (c.nextIn n).score = c.score := by unfold Core.nextIn; split <;> rfl
@[simp] theorem Core.nextIn_newFlags (n : Nat) (c : Core) : (c.nextIn n).newFlags = c.newFlags := by unfold Core.nextIn; split <;> rfl

end Sys2Proof.Machine
end

