-- ==== Sys2Proof/Laws/Memory.lean ====
section
/-! SUPPORT. Laws of memory: bytes and numbers read back after a write, and every memory operation keeps the canonical form. -/

namespace Sys2Proof

@[simp] theorem length_toBytes (n x : Nat) : (toBytes n x).length = n := by
  induction n generalizing x with
  | zero => rfl
  | succ n ih => simp [toBytes, ih]

/-- Byte i of a number. -/
theorem getElem_toBytes (n x i : Nat) (h : i < (toBytes n x).length) : (toBytes n x)[i] = BitVec.ofNat 8 (x / 256 ^ i) := by
  induction n generalizing x i with
  | zero => simp at h
  | succ n ih =>
    cases i with
    | zero => simp [toBytes]
    | succ i =>
      simp only [toBytes, List.getElem_cons_succ]
      rw [ih, Nat.div_div_eq_div_mul, Nat.pow_succ']

/-- The number of the bytes of a number (R6). -/
theorem ofBytes_toBytes (n x : Nat) : ofBytes (toBytes n x) = x % 256 ^ n := by
  induction n generalizing x with
  | zero => simp [toBytes, ofBytes, Nat.mod_one]
  | succ n ih =>
    have h : x % 256 ^ (n + 1) = x % 256 + 256 * (x / 256 % 256 ^ n) := by rw [Nat.pow_succ', Nat.mod_mul]
    simp only [toBytes, ofBytes, ih, BitVec.toNat_ofNat, h]

/-- The number of n bytes is below 256ⁿ. -/
theorem ofBytes_lt (l : List Byte) : ofBytes l < 256 ^ l.length := by
  induction l with
  | nil => simp [ofBytes]
  | cons b r ih =>
    have := b.isLt
    simp only [ofBytes, List.length_cons, Nat.pow_succ]
    omega

namespace Machine

/-! ### Bytes -/

/-- Every write of bytes keeps the canonical form. -/
theorem putBytes_wf {m : List (Nat × Byte)} (l : List (Nat × Byte)) (w : Memory.wf m = true) : Memory.wf (putBytes m l) = true := by
  unfold putBytes
  induction l generalizing m with
  | nil => exact w
  | cons e r ih => exact ih (swf_sput _ _ w)

/-- A byte that is not written reads as before. -/
theorem sget_putBytes_of_not_mem {m : List (Nat × Byte)} {l : List (Nat × Byte)} {a : Nat} (h : ∀ e ∈ l, e.1 ≠ a) :
    sget 0 (putBytes m l) a = sget 0 m a := by
  unfold putBytes
  induction l generalizing m with
  | nil => rfl
  | cons e r ih =>
    have h1 : a ≠ e.1 := fun x => h e List.mem_cons_self x.symm
    rw [List.foldl_cons, ih (fun x hx => h x (List.mem_cons_of_mem _ hx)), sget_sput_ne _ h1]

/-- The addresses of consecutive bytes. -/
theorem mem_addressed {pa : Nat} {bs : List Byte} {e : Nat × Byte} (h : e ∈ addressed pa bs) : pa ≤ e.1 ∧ e.1 < pa + bs.length := by
  induction bs generalizing pa with
  | nil => simp [addressed] at h
  | cons b r ih =>
    simp only [addressed, List.mem_cons] at h
    rcases h with rfl | h
    · simp
    · have := ih h
      simp only [List.length_cons]
      omega

@[simp] theorem length_addressed (pa : Nat) (bs : List Byte) : (addressed pa bs).length = bs.length := by
  induction bs generalizing pa with
  | nil => rfl
  | cons b r ih => simp [addressed, ih]

/-- A byte of consecutive bytes written. -/
theorem sget_putBytes_addressed {m : List (Nat × Byte)} (w : Memory.wf m = true) (pa : Nat) (bs : List Byte) (i : Nat) (h : i < bs.length) :
    sget 0 (putBytes m (addressed pa bs)) (pa + i) = bs[i] := by
  induction bs generalizing m pa i with
  | nil => simp at h
  | cons b r ih =>
    simp only [addressed, putBytes, List.foldl_cons]
    cases i with
    | zero =>
      have := sget_putBytes_of_not_mem (m := sput 0 m pa b) (l := addressed (pa + 1) r) (a := pa)
        (fun e he => by have := mem_addressed he; omega)
      simp only [putBytes] at this
      simp only [Nat.add_zero, List.getElem_cons_zero]
      rw [this]
      exact sget_sput_self _ _ w
    | succ i =>
      have := ih (m := sput 0 m pa b) (swf_sput _ _ w) (pa + 1) i (by simpa using h)
      simp only [putBytes] at this
      simp only [List.getElem_cons_succ]
      rw [← this]
      congr 1
      omega

/-! ### The state's memory -/

/-- A write keeps memory in canonical form. -/
theorem State.perform_wf {s : State} (l : List (Nat × Byte)) (w : Memory.wf s.mem = true) : Memory.wf (s.perform l).mem = true :=
  putBytes_wf l w
theorem State.write_wf {s : State} (a : Nat) (l : List Byte) (w : Memory.wf s.mem = true) : Memory.wf (s.write a l).mem = true :=
  putBytes_wf _ w
theorem State.writeWord_wf {s : State} (a : Nat) (x : Word) (w : Memory.wf s.mem = true) : Memory.wf (s.writeWord a x).mem = true :=
  putBytes_wf _ w
theorem State.restore_wf {s : State} (a n : Nat) (l : List (Nat × Byte)) (w : Memory.wf s.mem = true) : Memory.wf (s.restore a n l).mem = true :=
  putBytes_wf _ (swfFrom_filter _ w)
theorem State.zeroPackage_wf {s : State} (n : Nat) (w : Memory.wf s.mem = true) : Memory.wf (s.zeroPackage n).mem = true :=
  swfFrom_filter _ w
theorem State.setLog_wf {s : State} (l : List LogEntry) (w : Memory.wf s.mem = true) : Memory.wf (s.setLog l).mem = true :=
  putBytes_wf _ w

/-- Outside the bytes written, memory reads as before. -/
theorem State.byte_perform_of_not_mem {s : State} {l : List (Nat × Byte)} {a : Nat} (h : ∀ e ∈ l, e.1 ≠ a) :
    (s.perform l).byte a = s.byte a := sget_putBytes_of_not_mem h
theorem State.byte_write_outside (s : State) (pa : Nat) (bs : List Byte) (a : Nat) (h : a < pa ∨ pa + bs.length ≤ a) :
    (s.write pa bs).byte a = s.byte a :=
  sget_putBytes_of_not_mem (fun e he => by have := mem_addressed he; omega)
theorem State.byte_writeWord_outside (s : State) (pa : Nat) (x : Word) (a : Nat) (h : a < pa ∨ pa + 8 ≤ a) :
    (s.writeWord pa x).byte a = s.byte a := State.byte_write_outside s pa _ a (by simpa using h)

/-- A byte written reads as written. -/
theorem State.byte_write {s : State} (w : Memory.wf s.mem = true) (pa : Nat) (bs : List Byte) (i : Nat) (h : i < bs.length) :
    (s.write pa bs).byte (pa + i) = bs[i] := sget_putBytes_addressed w pa bs i h

/-- The number of n bytes, from the bytes. -/
theorem State.num_eq (s : State) (pa n : Nat) : s.num pa n = ofBytes ((List.range n).map (fun i => s.byte (pa + i))) := by
  simp only [State.num, State.bytes, sgetList_eq, State.byte]

theorem State.num_lt (s : State) (pa n : Nat) : s.num pa n < 256 ^ n := by
  have := ofBytes_lt ((List.range n).map (fun i => s.byte (pa + i)))
  simpa [State.num_eq] using this

/-- A number written reads as written. -/
theorem State.num_write {s : State} (w : Memory.wf s.mem = true) (pa n x : Nat) : (s.write pa (toBytes n x)).num pa n = x % 256 ^ n := by
  rw [State.num_eq, ← ofBytes_toBytes]
  congr 1
  apply List.ext_getElem
  · simp
  · intro i h1 h2
    simp only [List.getElem_map, List.getElem_range]
    exact State.byte_write w pa _ i (by simpa using h1)

/-- A word written reads as written. -/
theorem State.num_writeWord {s : State} (w : Memory.wf s.mem = true) (pa : Nat) (x : Word) : (s.writeWord pa x).num pa 8 = x.toNat := by
  have h := State.num_write w pa 8 x.toNat
  have hx := x.isLt
  simp only [State.writeWord]
  rw [h]
  omega

/-- A number elsewhere reads as before. -/
theorem State.num_write_outside (s : State) (pa : Nat) (bs : List Byte) (a n : Nat) (h : a + n ≤ pa ∨ pa + bs.length ≤ a) :
    (s.write pa bs).num a n = s.num a n := by
  simp only [State.num_eq]
  congr 1
  apply List.map_congr_left
  intro i hi
  have := List.mem_range.1 hi
  exact State.byte_write_outside s pa bs _ (by omega)
theorem State.num_writeWord_outside (s : State) (pa : Nat) (x : Word) (a n : Nat) (h : a + n ≤ pa ∨ pa + 8 ≤ a) :
    (s.writeWord pa x).num a n = s.num a n := State.num_write_outside s pa _ a n (by simpa using h)

end Machine
end Sys2Proof
end

