-- ==== Sys2Proof/Laws/Ops.lean ====
section
/-! SUPPORT. What each shared operation can do, said once: reading what was put back, faults, results and retirement, the
dispatch of records, events, packets and commands. -/

namespace Sys2Proof.Machine

/-! ### Cores, dies, packages -/

theorem State.getCore_setCore (s : State) (c : Core) (k : CoreKey) : (s.setCore c).getCore k = if c.key = k then c else s.getCore k := by
  unfold State.setCore State.getCore
  by_cases h : s.core.key = c.key
  · by_cases e : c.key = k <;> simp [h, e]
  · by_cases e : c.key = k
    · subst e; simp [h]
    · have n : k ≠ c.key := fun x => e x.symm
      simp [h, e, n, aget_aput]
@[simp] theorem State.getCore_setCore_self (s : State) (c : Core) : (s.setCore c).getCore c.key = c := by simp [State.getCore_setCore]
@[simp] theorem State.getCore_core (s : State) : s.getCore s.core.key = s.core := if_pos rfl
@[simp] theorem State.setCore_key (s : State) (c : Core) : (s.setCore c).core.key = s.core.key := by
  unfold State.setCore; split <;> simp_all
theorem State.getDie_setDie (s : State) (d : Die) (k : DieKey) : (s.setDie d).getDie k = if d.key = k then d else s.getDie k := by
  unfold State.setDie State.getDie
  by_cases e : d.key = k
  · subst e; simp
  · have n : k ≠ d.key := fun x => e x.symm
    simp [e, n, aget_aput]
@[simp] theorem State.getDie_setDie_self (s : State) (d : Die) : (s.setDie d).getDie d.key = d := by simp [State.getDie_setDie]
theorem State.getPkg_setPkg (s : State) (p : Package) (n : Nat) : (s.setPkg p).getPkg n = if p.pkg = n then p else s.getPkg n := by
  unfold State.setPkg State.getPkg
  by_cases e : p.pkg = n
  · subst e; simp
  · have n' : n ≠ p.pkg := fun x => e x.symm
    simp [e, n', aget_aput]
@[simp] theorem State.getPkg_setPkg_self (s : State) (p : Package) : (s.setPkg p).getPkg p.pkg = p := by simp [State.getPkg_setPkg]

@[simp] theorem State.setCore_dies (s : State) (c : Core) : (s.setCore c).dies = s.dies := by unfold State.setCore; split <;> rfl
@[simp] theorem State.setCore_pkgs (s : State) (c : Core) : (s.setCore c).pkgs = s.pkgs := by unfold State.setCore; split <;> rfl
@[simp] theorem State.setCore_mem (s : State) (c : Core) : (s.setCore c).mem = s.mem := by unfold State.setCore; split <;> rfl
@[simp] theorem State.setCore_queues (s : State) (c : Core) : (s.setCore c).queues = s.queues := by unfold State.setCore; split <;> rfl
@[simp] theorem State.setCore_launches (s : State) (c : Core) : (s.setCore c).launches = s.launches := by unfold State.setCore; split <;> rfl
@[simp] theorem State.setCore_sigs (s : State) (c : Core) : (s.setCore c).sigs = s.sigs := by unfold State.setCore; split <;> rfl
@[simp] theorem State.setCore_eventq (s : State) (c : Core) : (s.setCore c).eventq = s.eventq := by unfold State.setCore; split <;> rfl
@[simp] theorem State.setCore_ring (s : State) (c : Core) : (s.setCore c).ring = s.ring := by unfold State.setCore; split <;> rfl
@[simp] theorem State.setCore_now (s : State) (c : Core) : (s.setCore c).now = s.now := by unfold State.setCore; split <;> rfl
@[simp] theorem State.setCore_place (s : State) (c : Core) : (s.setCore c).place = s.place := by unfold State.setCore; split <;> rfl
@[simp] theorem State.select_mem (s : State) (k : CoreKey) : (s.select k).mem = s.mem := by unfold State.select; split <;> rfl
@[simp] theorem State.post_mem (s : State) (n : Nat) (k : CoreKey) (w : List Word) : (s.post n k w).mem = s.mem := by
  unfold State.post; dsimp only; split
  · rfl
  · split <;> rfl
@[simp] theorem State.dropPin_mem (s : State) : s.dropPin.mem = s.mem := by
  unfold State.dropPin; split
  · split <;> rfl
  · rfl
@[simp] theorem State.settlePin_mem (s : State) : s.settlePin.mem = s.mem := by
  unfold State.settlePin; dsimp only; split
  · split
    · exact State.dropPin_mem s
    · rfl
  · rfl

/-- What a key-preserving store of a core, die or package keeps. -/
theorem State.Keyed.setDie {s : State} (h : s.Keyed) (d : Die) : (s.setDie d).Keyed :=
  ⟨h.1, fun e m => (mem_aput m).elim (fun x => by subst x; rfl) (h.2.1 e), h.2.2⟩
theorem State.Keyed.setPkg {s : State} (h : s.Keyed) (p : Package) : (s.setPkg p).Keyed :=
  ⟨h.1, h.2.1, fun e m => (mem_aput m).elim (fun x => by subst x; rfl) (h.2.2 e)⟩
theorem State.Keyed.setCore {s : State} (h : s.Keyed) (c : Core) : (s.setCore c).Keyed := by
  unfold State.setCore
  split
  · next e => exact ⟨fun x m => ⟨(h.1 x m).1, fun y => (h.1 x m).2 (y.trans e.symm)⟩, h.2⟩
  · next e =>
    refine ⟨fun x m => (mem_aput m).elim (fun y => ?_) (h.1 x), h.2⟩
    subst y; exact ⟨rfl, fun z => e z.symm⟩

theorem State.getCore_key {s : State} (h : s.Keyed) (k : CoreKey) : (s.getCore k).key = k := by
  unfold State.getCore
  split
  · assumption
  · cases e : aget s.parked k with
    | none => rfl
    | some c => exact (h.1 _ (mem_of_aget e)).1
theorem State.getDie_key {s : State} (h : s.Keyed) (k : DieKey) : (s.getDie k).key = k := by
  unfold State.getDie
  cases e : aget s.dies k with
  | none => rfl
  | some d => exact h.2.1 _ (mem_of_aget e)
theorem State.getPkg_key {s : State} (h : s.Keyed) (n : Nat) : (s.getPkg n).pkg = n := by
  unfold State.getPkg
  cases e : aget s.pkgs n with
  | none => rfl
  | some p => exact h.2.2 _ (mem_of_aget e)

/-! ### Faults (R397 to R400) -/

/-- A word that raises a fault always goes on: into the fault once the vector engine is idle, and before that the fault waits. -/
theorem raise_next (f : FaultInfo) (s : State) : ∃ t, raise f s = .next t := ⟨_, rfl⟩
/-- A task that a fault has ended keeps its record (R400). -/
theorem raised_failed (f : FaultInfo) {s : State} (h : s.core.failed = true) : s.raised f = s := if_pos h
theorem Core.failed_iff (c : Core) : c.failed = true ↔ c.phase = .ending .fault := by simp [Core.failed]
theorem raised_precise (f : FaultInfo) {s : State} (h : s.core.precise) : s.raised f = takeFault f s := by
  have n : s.core.failed = false := by simpa [Core.failed] using h.2
  simp [State.raised, n, h.1]
theorem raised_waits (f : FaultInfo) {s : State} (n : s.core.failed = false) (h : s.core.vectorIdle = false) :
    s.raised f = { s with core := { s.core with trap := some f } } := by simp [State.raised, n, h]
theorem raise_precise (f : FaultInfo) {s : State} (h : s.core.precise) : raise f s = .next (takeFault f s) := by
  rw [raise, raised_precise f h]
theorem raise_waits (f : FaultInfo) {s : State} (n : s.core.failed = false) (h : s.core.vectorIdle = false) :
    raise f s = .next { s with core := { s.core with trap := some f } } := by rw [raise, raised_waits f n h]

@[simp] theorem State.discardLog_mem (s : State) : s.discardLog.mem = s.mem := by
  unfold State.discardLog; split
  · split
    · rfl
    · dsimp only; split <;> rfl
  · rfl
@[simp] theorem State.endByFault_mem (s : State) : s.endByFault.mem = s.mem := by
  simp [State.endByFault]
theorem takeFault_mem (f : FaultInfo) (s : State) : (takeFault f s).mem = s.mem := by
  simp only [takeFault, apply_ite State.mem, State.endByFault_mem, ite_self]
/-- A handleable fault with the handler on, in user mode, enters the handler (R399). -/
theorem takeFault_handler {f : FaultInfo} {s : State} (n : fatalCode f.code = false) (u : s.core.priv = false)
    (e : s.core.ctl.tvec.getLsbD 0 = true) : takeFault f s = { s with core := { s.core with
      ctl := { s.core.ctl with
        frec := faultRecord f s, reppos := BitVec.ofNat 64 (match s.core.rep with | some r => r.pos | none => 0)
        epc := (if f.code = 26 then s.core.pc + 8 else s.core.pc).zeroExtend 64, mode := s.core.ctl.mode ||| 1 }
      pc := BitVec.ofNat 17 (bits s.core.ctl.tvec.toNat 16 3 * 8), rep := none, repResume := false, wait := none, trap := none
      repHeld := if s.core.rep.isSome then some s.core.pc else none } } := by
  simp only [takeFault, u, Bool.and_false, Bool.false_eq_true, if_false, n, e, Bool.not_true, Bool.or_self] <;> rfl
/-- Where no handler is on, the task ends (R400). -/
theorem takeFault_ends {f : FaultInfo} {s : State} (u : s.core.priv = false ∨ fatalCode f.code = true)
    (e : s.core.ctl.tvec.getLsbD 0 = false ∨ fatalCode f.code = true) :
    (takeFault f s) = State.endByFault { s with core := { s.core with ctl := { s.core.ctl with
      frec := faultRecord f s, reppos := BitVec.ofNat 64 (match s.core.rep with | some r => r.pos | none => 0) } } } := by
  rcases u with u | u <;> rcases e with e | e <;>
    simp only [takeFault, u, e, Bool.and_false, Bool.false_and, Bool.not_true, Bool.false_eq_true, if_false, Bool.not_false, Bool.or_true, Bool.true_or, if_true] <;> rfl

/-- In user mode a privileged word raises PRIVILEGE_VIOLATION (R156). -/
theorem privileged_handler {m : State → Out State} {s : State} (h : s.core.priv = true) : privileged m s = m s := by simp [privileged, h]
theorem privileged_user {m : State → Out State} {s : State} (h : s.core.priv = false) : privileged m s = raise { code := 2 } s := by
  simp [privileged, h]

/-! ### Results and retirement (R181, R198) -/

theorem Core.stackBad_of_fits {c : Core} {d : GReg} {v : Word} (h : c.fits d v) : c.stackBad d v = false := by
  unfold Core.stackBad Core.spOk
  by_cases e : d.val = 32
  · obtain ⟨a, b⟩ := h e; simp [a, b]
  · simp [e]
/-- A result that its register takes is written, and the word retires. -/
theorem writeRetire_fits {d : GReg} {v : Word} (f : Core → Core) {s : State} (h : s.core.fits d v) :
    writeRetire d v f s = .next { s with core := ((f s.core).wr d v).retire } := by
  simp [writeRetire, Core.stackBad_of_fits h, retireWith]
theorem setG_fits {d : GReg} {v : Word} {s : State} (h : s.core.fits d v) : setG d v s = .next { s with core := (s.core.wr d v).retire } :=
  writeRetire_fits id h
/-- Everything that a word with a result can do: STACK_FAULT, or the result and retirement. -/
theorem writeRetire_cases {d : GReg} {v : Word} {f : Core → Core} {s t : State} (h : writeRetire d v f s = .next t) :
    (s.core.stackBad d v = true ∧ t = s.raised { code := 6, addr := v.toNat, detail := 0 })
      ∨ (s.core.stackBad d v = false ∧ t = { s with core := ((f s.core).wr d v).retire }) := by
  unfold writeRetire at h
  split at h
  · next b => injection h with h; exact .inl ⟨b, h.symm⟩
  · next b => injection h with h; exact .inr ⟨by simpa using b, h.symm⟩

/-- A word that retires changes of its core what R198 and the progress of a REP sequence change. -/
theorem Core.retire_moved (c : Core) : c.moved c.retire := by
  refine ⟨?_, ?_⟩
  · unfold Core.retire
    split
    · split <;> rfl
    · rfl
  · unfold Core.retire
    split
    · split <;> simp only [Core.goto, Core.markExecuted] <;> cases c.task <;> rfl
    · simp only [Core.goto, Core.markExecuted]; cases c.task <;> rfl

/-! ### Events and commands -/

/-- An event whose condition does not hold changes nothing, and says so to the choice of the next agent. -/
theorem idle_next (s : State) : idle s = .next { s with skipped := true } := rfl

/-- A command is served while the package's active complex is at work (R425). -/
theorem served_managed {m : State → Out State} {s : State} (h : s.managed s.place.core.pkg = true) : served m s = m s := by
  simp [served, h]
theorem command_done {m : State → State} {s : State} {b : Bool} (hs : s.managed s.place.core.pkg = true) (h : b = true) :
    command b m s = .next (complete .done (m s)) := by simp [command, served, hs, h, ok]
/-- A command that its rules refuse changes its status alone (R425). -/
theorem command_refused {m : State → State} {s : State} {b : Bool} (hs : s.managed s.place.core.pkg = true) (h : b = false) :
    command b m s = .next (complete .refused s) := by simp [command, served, hs, h, ok]

theorem hostRequest_served {pa n : Nat} {m : State → State × HostReply} {s : State} (h : s.hostServes pa n = true) :
    hostRequest pa n m s = .next { (m s).1 with hostReply := (m s).2 } := by simp [hostRequest, h, ok]
/-- A host request that is not served has no effect (R417). -/
theorem hostRequest_aborted {pa n : Nat} {m : State → State × HostReply} {s : State} (h : s.hostServes pa n = false) :
    hostRequest pa n m s = .next { s with hostReply := .abort } := by simp [hostRequest, h, ok]

theorem testAccess_on {m : Package → Package} {s : State} (h : (s.getPkg s.place.core.pkg).tapen = true) :
    testAccess m s = .next (s.setPkg (m (s.getPkg s.place.core.pkg))) := by simp [testAccess, h, ok]

/-- The meaning of a queue's event is that of the queue at the place. -/
theorem withQueue_some {m : QKey → Queue → State → Out State} {s : State} {q : Queue} (h : aget s.queues s.place.q = some q) :
    withQueue m s = m s.place.q q s := by simp [withQueue, h]
/-- The dispatch of the ready packet of a kind that its command processor serves next (R89, R90). -/
theorem dispatch_ready {kind : Packet → Bool} {m : QKey → Queue → Packet → State → Out State} {s : State} {q : Queue}
    {p : Packet} (h : aget s.queues s.place.q = some q) (r : s.readyPacket s.place.q q = some p) (k : kind p = true)
    (w : s.wins s.place.q q = true) :
    dispatch kind m s =
      (let q' := q.setPacket p.idx (fun p => { p with phase := .dispatched, since := s.tick })
       m s.place.q q' p { (s.setQueue s.place.q q') with served := aput s.served (q.homeDie s.place.q) s.place.q.q }) := by
  rw [dispatch, withQueue_some h]
  simp only [r, k, w, Bool.and_self, if_true]
  rfl

theorem takeCtrl_some {up : Bool} {q : Nat × BitVec 32 → Bool} {m : Die → Port → Out State} {s : State} {e : Nat × BitVec 32}
    (h : ((s.getDie s.place.core.dieKey).port up).ctrl.find? q = some e) :
    takeCtrl up q m s = m (s.getDie s.place.core.dieKey)
      { ((s.getDie s.place.core.dieKey).port up) with ctrl := ((s.getDie s.place.core.dieKey).port up).ctrl.erase e } := by
  simp only [takeCtrl, h]

end Sys2Proof.Machine
end

