-- ==== Sys2Proof/Tests/Slice0.lean ====
section
/-! SUPPORT. Small checks of the model: words and records written out from the spec's encodings, ill-formed terms that are
refused, single steps whose results are the spec's own, and for every obligation states that meet its hypotheses. -/

namespace Sys2Proof.Tests

set_option Elab.async false

open Sys2Proof Sys2Proof.Machine

/-! ### Words from the encodings (Tables 7.1 to 7.5) -/

/-- A Q-format word: D, A, B, C and X[23:0] (Table 7.2). -/
def q (maj sub d a b c x : Nat) : Word :=
  BitVec.ofNat 64 (maj * 2 ^ 56 + sub * 2 ^ 52 + d * 2 ^ 42 + a * 2 ^ 36 + b * 2 ^ 30 + c * 2 ^ 24 + x)
/-- An H-format word: D, A, B, X14[29:16] and I16. -/
def h (maj sub d a b x i : Nat) : Word :=
  BitVec.ofNat 64 (maj * 2 ^ 56 + sub * 2 ^ 52 + d * 2 ^ 42 + a * 2 ^ 36 + b * 2 ^ 30 + x * 2 ^ 16 + i)
/-- A W-format word: D, A, X4 and I32. -/
def w (maj sub d a x i : Nat) : Word :=
  BitVec.ofNat 64 (maj * 2 ^ 56 + sub * 2 ^ 52 + d * 2 ^ 42 + a * 2 ^ 36 + x * 2 ^ 32 + i)
/-- X14 of a memory form: observers and size (R151). -/
def mx (obs size : Nat) : Nat := obs * 32 + size * 4

/-- Does the word decode to the instruction, unguarded? -/
def reads (e : Word × Instr) : Bool := decode e.1 == .ok ⟨false, 0, e.2⟩

-- Tables 7.13, 8.11, 9.4, 11.9, 14.6 and R402 as printed
theorem test_decode_printed : decode 0x020B_1461_C000_0000 = .ok ⟨true, 3, .add 5 6 7⟩
    ∧ [(0x6630_1420_0318_0040, Instr.ldacq 3 0b11000 .n64 5 2 64), (0xFC00_3F00_0000_0000, .rep 15 0b1100 0),
      (0x8000_0084_0010_0000, .vadd .fp32 none false 0 8 16), (0x0100_0000_0000_0000, .nop),
      (0x8030_0C10_8014_0000, .vfma .fp32 (some .rne) false 3 1 2 0), (0x8300_1810_0014_0C80, .vcvt .fp32 .bf16 1 (some .rne) false 6 1),
      (0x8400_0420_0018_0000, .vld 0 .n64 1 2 0 0), (0x8420_1421_C004_0100, .vld 2 .s8 5 2 7 0x100), (0x8D00_0040_0000_0000, .mpush 4),
      (0x9000_2010_8328_1802, .vdot8 false true 2 8 1 2 3), (0x9100_2400_0000_0000, .vrng 9), (0x9210_28B0_0000_0303, .vxtp 3 3 10 11),
      (0x6010_1600_0014_0010, .ld 1 .s32 5 32 0x10), (0x6100_1C20_0018_FFF8, .st 0 .n64 7 2 0xFFF8),
      (0x6400_4204_4018_0020, .ldp 0 16 17 32 0x20), (0x6800_0000_0000_0006, .fence 6), (0x6A00_0032_5814_0004, .amaxs 0 0 .s32 0 9 3 4),
      (0x6B20_1061_4218_0000, .acas 2 0b10000 .n64 4 5 6 0), (0x7900_0020_C000_0008, .tmark 2 3 0 2), (0x7020_0000_1800_0028, .bar .die 40),
      (0x7000_1400_1000_0003, .bara 5 .quad 3), (0x7010_0050_1000_0003, .barw .quad 3 5), (0x7210_0032_4258_0008, .sigadd 1 0b10010 9 3 8),
      (0x7400_1831_C218_0000, .sigw 0b10000 6 3 7 0 0), (0x7100_0000_0000_0005, .tokw 5), (0x6900_0000_0100_0001, .fenceo 1 0b01000),
      (0x7500_0000_0000_0000, .merge), (0x4610_0000_0000_0005, .trap 5), (0x4620_0000_0000_0000, .rte), (0x4600_0000_0000_0000, .exit),
      (0x4300_0400_0002_0010, .loop 1 2 16), (0x4300_0000_0003_0008, .loop 0 3 8)].all reads = true := by decide +kernel

theorem test_decode_integer : [(q 2 0 5 6 7 0 0, Instr.add 5 6 7), (q 2 1 5 6 7 0 0, .sub 5 6 7), (q 2 2 5 6 7 0 0, .mul 5 6 7),
    (q 2 3 5 6 7 0 0, .mulhs 5 6 7), (q 2 4 5 6 7 0 0, .mulhn 5 6 7), (q 3 0 5 6 7 0 0, .divs 5 6 7), (q 3 1 5 6 7 0 0, .divn 5 6 7),
    (q 3 2 5 6 7 0 0, .rems 5 6 7), (q 3 3 5 6 7 0 0, .remn 5 6 7), (q 4 0 5 6 7 0 0, .and 5 6 7), (q 4 1 5 6 7 0 0, .or 5 6 7),
    (q 4 2 5 6 7 0 0, .xor 5 6 7), (q 4 3 5 6 7 0 0, .andn 5 6 7), (q 5 0 5 6 7 0 0, .shl 5 6 7), (q 5 1 5 6 7 0 0, .shrl 5 6 7),
    (q 5 2 5 6 7 0 0, .shra 5 6 7), (q 5 3 5 6 7 0 0, .rotl 5 6 7), (q 6 0 5 6 0 0 0, .clz 5 6), (q 6 1 5 6 0 0 0, .ctz 5 6),
    (q 6 2 5 6 0 0 0, .popc 5 6), (q 6 3 5 6 0 0 15, .sext 5 6 15), (q 7 0 5 6 7 0 0, .mins 5 6 7), (q 7 1 5 6 7 0 0, .minn 5 6 7),
    (q 7 2 5 6 7 0 0, .maxs 5 6 7), (q 7 3 5 6 7 0 0, .maxn 5 6 7), (q 7 4 5 6 7 3 0, .sel 5 6 7 3), (h 8 0 5 6 0 0 0x070C, .bfxs 5 6 12 7),
    (h 8 1 5 6 0 0 0x070C, .bfxn 5 6 12 7), (h 8 2 5 6 0 0 0x070C, .bfi 5 6 12 7), (q 9 0 5 6 7 0 0, .cmpeq 5 6 7),
    (q 9 1 5 6 7 0 0, .cmpne 5 6 7), (q 9 2 5 6 7 0 0, .cmplts 5 6 7), (q 9 3 5 6 7 0 0, .cmples 5 6 7), (q 9 4 5 6 7 0 0, .cmpltn 5 6 7),
    (q 9 5 5 6 7 0 0, .cmplen 5 6 7), (w 10 0 5 6 0 9, .addi 5 6 9), (w 10 1 5 6 0 9, .andi 5 6 9), (w 10 2 5 6 0 9, .ori 5 6 9),
    (w 10 3 5 6 0 9, .xori 5 6 9), (w 10 4 5 6 0 63, .shli 5 6 63), (w 11 0 5 0 0 9, .movi 5 9), (w 11 1 5 0 0 9, .movh 5 9),
    (h 12 0 5 6 7 3 9, .lea 5 6 7 3 9), (q 13 0 5 6 7 0 0, .pand 5 6 7), (q 13 1 5 6 7 0 0, .por 5 6 7), (q 13 2 5 6 7 0 0, .pxor 5 6 7),
    (q 13 3 5 6 0 0 0, .pnot 5 6), (q 14 0 5 0 0 0 0, .prsave 5), (q 14 1 0 6 0 0 0, .prload 6)].all reads = true := by decide +kernel

theorem test_decode_scalar_float : [(q 0x30 0 5 6 7 0 0x800000, Instr.fadd true none 5 6 7), (q 0x30 1 5 6 7 0 0x400000, .fsub false (some .rne) 5 6 7),
    (q 0x30 2 5 6 7 0 0x500000, .fmul false (some .rtz) 5 6 7), (q 0x30 3 5 6 7 8 0x600000, .ffma false (some .rdn) 5 6 7 8),
    (q 0x30 4 5 6 7 0 0x700000, .fdiv false (some .rup) 5 6 7), (q 0x30 5 5 6 0 0 0x800000, .fsqrt true none 5 6),
    (q 0x31 0 5 6 7 0 0, .fmin false 5 6 7), (q 0x31 1 5 6 7 0 0x800000, .fmax true 5 6 7), (q 0x31 2 5 6 7 0 3, .fcmp false 5 6 7 3),
    (q 0x31 3 5 6 0 0 0x800000, .fcls true 5 6), (q 0x31 4 5 6 7 0 2, .fsgn false 5 6 7 2),
    (q 0x32 0 5 6 0 0 0xD60000, .fcvt 6 true (some .rtz) 5 6)].all reads = true := by decide +kernel

theorem test_decode_control : [(w 0x40 0 0 0 0 16, Instr.br 16), (w 0x40 1 0 6 2 16, .bc 2 6 16), (w 0x40 2 0 6 3 16, .bwe 6 3 16),
    (w 0x40 3 0 0 0 16, .bmz 16), (q 0x41 0 5 6 0 0 0, .brl 5 6), (q 0x41 1 0 6 0 0 0, .callr 6), (q 0x41 2 0 0 0 0 0, .ret),
    (w 0x42 0 0 0 0 16, .call 16), (w 0x43 0 2 0 0 0x30010, .loop 2 3 16), (w 0x43 1 2 6 0 16, .loopr 2 6 16), (w 0x43 2 2 0 0 16, .lbrk 2 16),
    (q 0x44 0 5 6 0 0 0, .gset 5 6), (q 0x44 1 5 0 0 0 0, .gclr 5),
    (BitVec.ofNat 64 (0x45 * 2 ^ 56 + 0x81 * 2 ^ 40 + 6), .safe 0x81 6), (q 0x50 0 5 6 0 0 0, .wbind 5 6), (q 0x50 1 5 0 0 0 9, .wstep 5 9),
    (q 0x50 2 5 6 0 0 1, .wpos 5 6 1), (q 0x50 3 5 0 0 0 0, .wrst 5), (w 0x51 0 0 0 0 16, .spadj 16), (w 0x51 1 5 0 0 16, .spmov 5 16),
    (w 0x51 1 0 6 1 16, .spmovSp 6 16), (q 0x52 0 5 0 0 0 3, .shard 5 3), (q 0x52 1 5 6 0 0 1, .batch 5 6 1), (q 0x52 2 5 6 7 0 1, .need 5 6 7 true),
    (q 0x52 3 0 0 0 0 0, .unpin), (q 0x53 0 0 6 0 0 0, .enq 6), (q 0x53 1 0 8 0 0 0, .enqr 0), (q 0x53 1 0 24 0 0 0, .enqr 2),
    (q 0x54 0 0 6 0 0 0, .acfree 6), (w 0x5C 0 0 0 0 0x20104510, .gwset 0x20104510), (w 0x5C 1 5 0 0 16, .acalloc 5 16),
    (w 0x5C 2 5 6 0 64, .kva 5 6 64)].all reads = true := by decide +kernel

theorem test_decode_memory : [(h 0x60 1 5 6 0 (mx 0 5) 9, Instr.ld 1 .s32 5 6 9), (h 0x61 1 5 6 0 (mx 0 0) 9, .st 1 .n8 5 6 9),
    (h 0x62 1 5 6 0 (mx 0 1) 0, .ldw 1 .s8 5 6), (h 0x63 1 5 6 0 (mx 0 2) 0, .stw 1 .n16 5 6), (h 0x64 1 5 6 7 (mx 0 6) 9, .ldp 1 5 7 6 9),
    (h 0x65 1 5 6 7 (mx 0 6) 9, .stp 1 5 7 6 9), (h 0x66 1 5 6 0 (mx 1 3) 9, .ldacq 1 1 .s16 5 6 9), (h 0x67 1 5 6 0 (mx 2 4) 9, .strel 1 2 .n32 5 6 9),
    (h 0x6A 1 5 6 7 (mx 4 4) 9, .aadd 1 4 .n32 5 7 6 9), (h 0x6A 1 5 6 7 (1024 + mx 4 5) 9, .aand 1 4 .s32 5 7 6 9),
    (h 0x6A 1 5 6 7 (2048 + mx 4 6) 9, .aor 1 4 .n64 5 7 6 9), (h 0x6A 1 5 6 7 (3072 + mx 4 4) 9, .axor 1 4 .n32 5 7 6 9),
    (h 0x6A 1 5 6 7 (4096 + mx 4 4) 9, .amins 1 4 .n32 5 7 6 9), (h 0x6A 1 5 6 7 (5120 + mx 4 4) 9, .aminn 1 4 .n32 5 7 6 9),
    (h 0x6A 1 5 6 7 (6144 + mx 4 4) 9, .amaxs 1 4 .n32 5 7 6 9), (h 0x6A 1 5 6 7 (7168 + mx 4 4) 9, .amaxn 1 4 .n32 5 7 6 9),
    (h 0x6A 1 5 6 7 (8192 + mx 4 4) 9, .axch 1 4 .n32 5 7 6 9), (h 0x6B 1 5 6 7 (mx 4 4) 9, .acas 1 4 .n32 5 7 6 9),
    (h 0x6C 1 5 6 7 (mx 4 6) 9, .afadd 1 4 true 5 7 6 9), (h 0x70 3 5 0 0 (4 * 2048) 31, .barq 5 .pkg 31),
    (h 0x70 4 0 6 0 (5 * 2048) 15, .barc .pod 15 6), (h 0x73 1 0 6 7 (mx 4 6) 9, .sigmax 1 4 7 6 9),
    (h 0x74 0 5 6 7 (3 * 4096 + mx 4 6) 9, .sigw 4 5 6 7 3 9), (h 0x78 0 5 0 0 0 0x31F, .ctlrd 5 0x31F), (h 0x78 1 0 6 0 0 0x121, .ctlwr 0x121 6),
    (h 0x78 2 0 6 0 0 0x101, .ctlset 0x101 6), (h 0x78 3 0 6 0 0 0x101, .ctlclr 0x101 6), (h 0x78 1 0 6 0 0 0x200, .qcreate 6),
    (h 0x78 1 0 6 0 0 0x201, .qkill 6), (q 0x79 0 0 6 7 0 9, .tmark 6 7 1 2), (q 0x79 1 0 0 0 0 0, .icfence),
    (q 0x79 2 5 0 0 0 0, .tick 5)].all reads = true := by decide +kernel

theorem test_decode_vector_lanes : [(q 0x80 0 5 6 7 0 0x100000, Instr.vadd .fp32 none false 5 6 7), (q 0x80 1 5 6 7 0 0x088000, .vsub .n32 none true 5 6 7),
    (q 0x80 2 5 6 7 0 0x1F0000, .vmul .bf16 (some .rup) false 5 6 7), (q 0x80 3 5 6 7 8 0x240000, .vfma .fp16 (some .rne) false 5 6 7 8),
    (q 0x80 4 5 6 7 0 0x280000, .vmin .e4m3 5 6 7), (q 0x80 5 5 6 7 0 0x300000, .vmax .e5m2 5 6 7), (q 0x80 6 5 6 0 0 0x388000, .vabs .s8 true 5 6),
    (q 0x80 7 5 6 0 0 0x480000, .vneg .lg8 false 5 6), (q 0x81 0 5 6 7 0 0, .vand 5 6 7), (q 0x81 1 5 6 7 0 0, .vor 5 6 7),
    (q 0x81 2 5 6 7 0 0, .vxor 5 6 7), (q 0x81 3 5 6 0 0 0, .vnot 5 6), (q 0x81 4 5 6 7 0 0x400000, .vshl .n8 5 6 7),
    (q 0x81 5 5 6 7 0 0, .vshr .s32 5 6 7), (q 0x81 6 5 6 7 0 0, .vsha .s32 5 6 7), (q 0x82 0 5 6 7 0 0x500003, .vcmp .lg6 5 6 7 3),
    (q 0x82 1 5 6 7 8 0, .vsel 5 6 7 8), (q 0x82 2 5 6 0 0 0, .vmov 5 6), (q 0x82 2 32 6 0 0 (0x2000 + 15 * 64 + 63), .vmovExtract 32 6 15 63),
    (q 0x82 2 5 32 0 0 (0x4000 + 3 * 64 + 4), .vmovInsert 5 32 3 4), (q 0x82 3 5 32 0 0 0, .vbc 5 32),
    (h 0x85 1 5 6 7 (mx 0 6) 9, .vst 1 .n64 5 6 7 9), (h 0x86 1 5 6 7 (mx 0 4) 0, .vldw 1 .n32 5 6 7), (h 0x87 1 5 6 7 (mx 0 5) 0, .vstw 1 .s32 5 6 7),
    (h 0x88 1 5 6 7 (mx 0 2) 9, .vgath 1 .n16 5 6 7 9), (h 0x89 1 5 6 7 (mx 0 3) 9, .vscat 1 .s16 5 6 7 9)].all reads = true := by
  decide +kernel

theorem test_decode_vector_rows : [(q 0x8A 0 5 6 0 0 63, Instr.vrrot 5 6 63), (q 0x8A 1 5 6 0 0 63, .vrbc 5 6 63),
    (q 0x8A 2 5 6 0 0 0x140000, .vrred .fp32 (some .rne) false 0 5 6), (q 0x8A 3 5 6 0 0 2, .vrscan .s32 none false 2 5 6),
    (q 0x8B 0 5 6 0 0 15, .vcrot 5 6 15), (q 0x8B 1 5 6 0 0 15, .vcbc 5 6 15), (q 0x8B 2 5 6 0 0 0x088000, .vcred .n32 none true 0 5 6),
    (q 0x8B 3 5 6 0 0 1, .vcscan .s32 none false 1 5 6), (q 0x8C 0 5 6 0 0 0, .vtrp 5 6), (q 0x8C 1 5 6 7 0 0, .vperm 5 6 7),
    (q 0x8D 1 0 0 0 0 0, .minv), (q 0x8D 2 0 0 0 0 0, .mpop), (q 0x8D 3 0 6 0 0 0, .mand 6), (q 0x8E 0 5 6 0 0 0x100000, .vexpf 5 6),
    (q 0x8E 1 5 6 0 0 0x100000, .vexpx 5 6), (q 0x8E 2 5 6 0 0 0x100000, .vlogf 5 6), (q 0x8E 3 5 6 0 0 0x100000, .vlogx 5 6),
    (q 0x8E 4 5 6 0 0 0x100000, .vrcpf 5 6), (q 0x8E 5 5 6 0 0 0x100000, .vrcpx 5 6), (q 0x8E 6 5 6 0 0 0x100000, .vrsqf 5 6),
    (q 0x8E 7 5 6 0 0 0x100000, .vrsqx 5 6), (q 0x8F 0 5 6 0 0 0x100000, .vsinf 5 6), (q 0x8F 1 5 6 0 0 0x100000, .vsinx 5 6),
    (q 0x8F 2 5 6 0 0 0x100000, .vcosf 5 6), (q 0x8F 3 5 6 0 0 0x100000, .vcosx 5 6), (q 0x8F 4 5 6 0 0 0x100000, .vtanhf 5 6),
    (q 0x8F 5 5 6 0 0 0x100000, .vtanhx 5 6), (q 0x90 1 5 6 7 8 0x1D8003, .vdotb (some .rtz) true 3 5 6 7 8),
    (q 0x90 2 5 6 7 0 0x1C0002, .vscl true (some .rne) false 2 5 6 7), (q 0x92 0 5 6 0 0 0x400043, .vpkp .n8 true 3 5 6)].all reads = true := by
  decide +kernel

/-- Word 0 of a record with an operation and FLAGS (Table 7.6). -/
def rec0 (op fl : Nat) : Nat := op * 2 ^ 56 + fl * 2 ^ 16

-- Table 7.8 and Table 12.2
theorem test_decode_records : [(rec0 0x10 0, Instr.pmul), (rec0 0x11 0, .pmulp), (rec0 0x12 0, .pxtp), (rec0 0x13 0, .pdotF64), (rec0 0x14 0, .pdotF32),
    (rec0 0x15 0, .pdotBf16), (rec0 0x16 0, .plog66), (rec0 0x17 0, .plog68), (rec0 0x18 0, .plog88), (rec0 0x19 0, .pscale), (rec0 0x1A 0, .pnorm),
    (rec0 0x1B 0, .pdrain), (rec0 0x1C 0, .pzero), (rec0 0x1D 0, .pload), (rec0 0x40 0x10, .xcopy), (rec0 0x40 1, .xcopyTable),
    (rec0 0x41 0, .xcvt), (rec0 0x42 0, .xfill), (rec0 0x43 0, .xgath), (rec0 0x44 0, .xscat), (rec0 0x45 0, .xrestr), (rec0 0x46 0, .xprol),
    (rec0 0x47 0, .xsten), (rec0 0x48 1, .xslab), (rec0 0x48 2, .xslabRelease), (rec0 0x49 0, .xsend), (rec0 0x4A 0, .xput), (rec0 0x4B 0, .xget),
    (rec0 0x4C 0, .xmlr), (rec0 0x4C 1, .xmlrSetup), (rec0 0x4D 1, .xsig), (rec0 0x4E 0, .xtmark)].all
    (fun e => decodeTableWord 512 e.1 == some e.2) = true := by decide +kernel

/-! ### What the checks of R154 refuse -/

/-- A word that fails check n. -/
def fails (e : Nat × Word) : Bool := decode e.2 == .error e.1

-- check 1: the major; 2: the sub-opcode; 3: a field or value; 4: a register or control-register number (R154)
theorem test_decode_refuses : [(1, 0), (1, q 0x0F 0 0 0 0 0 0), (2, q 2 5 5 6 7 0 0), (2, q 0x82 4 5 6 7 0 0), (3, q 1 0 1 0 0 0 0),
    (3, q 2 0 5 6 7 1 0), (3, q 0x30 0 5 6 7 0 0x100000), (3, q 0x31 2 5 6 7 0 5), (3, h 0x60 0 5 6 0 (mx 0 7) 0), (3, h 0x6A 0 5 6 7 (9 * 1024 + mx 0 4) 0),
    (3, w 0x40 1 0 6 4 16), (3, h 0x70 2 0 0 0 0 3), (3, q 0x80 0 5 6 7 0 0x580000), (3, h 0x68 1 0 0 0 0 3), (4, q 2 0 33 6 7 0 0), (4, q 9 0 8 6 7 0 0),
    (4, q 0x80 0 32 6 7 0 0x100000), (4, h 0x78 0 5 0 0 0 5), (4, q 0x53 1 0 9 0 0 0), (3, w 0xFC 0 0 0 0 1)].all fails = true := by decide +kernel

-- one ill-formed term for each check of WellFormed, beside a well-formed neighbour at the limit
theorem test_illformed_refused : [Instr.bfxn 1 2 60 4, .fcvt 0 true none 1 2, .br 4, .loop 0 1 0, .kva 1 2 48, .acalloc 1 17, .gwset 0x03104510,
    .gwset 0x20104511, .ldacq 0 0 .n64 1 2 0, .strel 0 0 .n64 1 2 0, .fenceo 1 0, .fence 0, .aadd 0 0 .n16 1 2 3 0, .bar .quad 32, .bara 1 .pod 16,
    .vadd .s32 (some .rne) false 1 2 3, .vadd .lg8 none true 1 2 3, .vadd .fp64 none false 1 2 3, .vabs .fp32 true 1 2, .vshl .fp32 1 2 3,
    .vcmp .s32 1 2 3 3, .vcvt .fp32 .bf16 2 none false 1 2, .vrred .bf16 none false 0 1 2, .vcred .fp32 (some .rne) false 1 1 2, .ctlrd 1 5,
    .ctlwr 0x200 1, .vpkp .fp32 false 0 1 2].all (fun i => !i.wellFormed) = true
  ∧ [Instr.bfxn 1 2 60 3, .fcvt 0 false none 1 2, .br 8, .loop 0 1 8, .kva 1 2 64, .acalloc 1 16, .gwset 0x20104510, .ldacq 0 1 .n64 1 2 0,
    .strel 0 1 .n64 1 2 0, .fenceo 1 1, .fence 1, .aadd 0 0 .n32 1 2 3 0, .bar .quad 31, .bara 1 .pod 15, .vadd .s32 none true 1 2 3,
    .vabs .s32 true 1 2, .vshl .n8 1 2 3, .vcmp .s32 1 2 3 4, .vcvt .fp32 .bf16 1 none false 1 2, .vrred .fp32 none false 0 1 2, .ctlrd 1 4,
    .ctlwr 0x202 1, .vpkp .n8 false 0 1 2].all (fun i => i.wellFormed) = true := by decide +kernel

/-! ### Small states -/

/-- A user page of 4 MiB at address 0 onto die scratchpad of die 0 of package 0. -/
def page0 : Trans := ⟨0, 0, 5, 0, 0, false, true, true, true⟩
/-- Core 0 with a task that runs and holds that page, in a core cycle that has begun. -/
def core0 : Core := { Core.reset ⟨0, 0, 0⟩ with phase := .running, task := some blankTask, held := [page0], begun := true, verdict := some false }
/-- The device with that core. -/
def base : State := { State.reset with core := core0 }
/-- General registers set. -/
def setRegs (c : Core) (l : List (Nat × Word)) : Core := l.foldl (fun c e => c.wr (Fin.ofNat 33 e.1) e.2) c
/-- The device with registers set. -/
def regs (l : List (Nat × Word)) : State := base.withCore (setRegs core0 l)
/-- The handler runs. -/
def asPriv (c : Core) : Core := { c with ctl := { c.ctl with mode := c.ctl.mode ||| 1 } }
/-- The current core changed. -/
def on (f : Core → Core) (s : State) : State := s.withCore (f s.core)
/-- Where a step goes on, does the next state pass? -/
def after (o : Out State) (f : State → Bool) : Bool := match o with | .next t => f t | _ => false
/-- The word retires to pc 8 and leaves `v` in g[d]. -/
def gives (i : Instr) (s : State) (d : Nat) (v : Word) : Bool := after (exec i s) (fun t => t.core.rd (Fin.ofNat 33 d) == v && t.core.pc == 8)
/-- The same for a predicate. -/
def givesP (i : Instr) (s : State) (d : Nat) (b : Bool) : Bool := after (exec i s) (fun t => t.core.rp (Fin.ofNat 8 d) == b && t.core.pc == 8)
/-- The step takes a fault with a code, ADDR and DETAIL that ends the task (TVEC.EN is 0). -/
def faultsWith (i : Instr) (s : State) (code addr detail : Nat) : Bool :=
  after (exec i s) (fun t => t.core.phase == .ending .fault && (t.core.ctl.frec.get 0).toNat / 2 ^ 48 == code
    && (t.core.ctl.frec.get 2).toNat == addr && (t.core.ctl.frec.get 3).toNat == detail)

/-! ### Integer words (Tables 8.2, 8.3; R184, R186 to R189) -/

theorem test_integer_words : [
    gives (.add 3 1 2) (regs [(1, -1), (2, 2)]) 3 1, gives (.sub 3 1 2) (regs [(1, 1), (2, 2)]) 3 (-1), gives (.mul 3 1 2) (regs [(1, -1), (2, 3)]) 3 (-3),
    gives (.mulhs 3 1 2) (regs [(1, -1), (2, 3)]) 3 (-1), gives (.mulhn 3 1 2) (regs [(1, -1), (2, 3)]) 3 2,
    gives (.divs 3 1 2) (regs [(1, -7), (2, 2)]) 3 (-3), gives (.rems 3 1 2) (regs [(1, -7), (2, 2)]) 3 (-1),
    gives (.divs 3 1 2) (regs [(1, 0x8000000000000000), (2, -1)]) 3 0x8000000000000000, gives (.divn 3 1 2) (regs [(1, 5)]) 3 (-1),
    gives (.remn 3 1 2) (regs [(1, 5)]) 3 5, gives (.andn 3 1 2) (regs [(1, 0xF), (2, 5)]) 3 0xA, gives (.and 3 1 2) (regs [(1, 0xC), (2, 0xA)]) 3 8,
    gives (.or 3 1 2) (regs [(1, 0xC), (2, 0xA)]) 3 0xE, gives (.xor 3 1 2) (regs [(1, 0xC), (2, 0xA)]) 3 6,
    gives (.shl 3 1 2) (regs [(1, 3), (2, 65)]) 3 6, gives (.shrl 3 1 2) (regs [(1, -1), (2, 63)]) 3 1, gives (.shra 3 1 2) (regs [(1, -4), (2, 1)]) 3 (-2),
    gives (.rotl 3 1 2) (regs [(1, 0x8000000000000001), (2, 1)]) 3 3, gives (.clz 3 1) (regs []) 3 64, gives (.ctz 3 1) (regs [(1, 8)]) 3 3,
    gives (.popc 3 1) (regs [(1, 0xFF)]) 3 8, gives (.sext 3 1 7) (regs [(1, 0x1FF)]) 3 (-1), gives (.mins 3 1 2) (regs [(1, -1), (2, 1)]) 3 (-1),
    gives (.minn 3 1 2) (regs [(1, -1), (2, 1)]) 3 1, gives (.maxs 3 1 2) (regs [(1, -1), (2, 1)]) 3 1, gives (.maxn 3 1 2) (regs [(1, -1), (2, 1)]) 3 (-1),
    gives (.sel 3 1 2 0) (regs [(1, 4), (2, 5)]) 3 4, gives (.sel 3 1 2 1) (regs [(1, 4), (2, 5)]) 3 5,
    gives (.bfxn 3 1 12 7) (regs [(1, 0xABCDE)]) 3 0xAB, gives (.bfxs 3 1 12 7) (regs [(1, 0xABCDE)]) 3 0xFFFFFFFFFFFFFFAB,
    gives (.bfi 3 1 4 3) (regs [(1, 0xF2), (3, 0x333)]) 3 0x323, gives (.addi 3 1 0xFFFFFFFF) (regs [(1, 1)]) 3 0, gives (.andi 3 1 0xFFFFFFF0) (regs [(1, -1)]) 3 (-16),
    gives (.ori 3 1 0xFFFFFFFF) (regs [(1, 0)]) 3 0xFFFFFFFF, gives (.xori 3 1 0xF) (regs [(1, 0xFF)]) 3 0xF0, gives (.shli 3 1 63) (regs [(1, 3)]) 3 0x8000000000000000,
    gives (.movi 4 0x89ABCDEF) base 4 0xFFFFFFFF89ABCDEF, gives (.movh 4 0x01234567) (regs [(4, 0xFFFFFFFF89ABCDEF)]) 4 0x0123456789ABCDEF,
    gives (.lea 3 1 2 3 0xFFF8) (regs [(1, 100), (2, 5)]) 3 132, gives (.add 0 1 2) (regs [(1, 1)]) 0 0, gives .nop base 3 0].all id = true := by decide +kernel

theorem test_compares_and_predicates : [
    givesP (.cmpeq 2 1 1) base 2 true, givesP (.cmpne 2 1 1) base 2 false, givesP (.cmplts 2 4 5) (regs [(4, -1), (5, 1)]) 2 true,
    givesP (.cmples 2 4 5) (regs [(4, 1), (5, 1)]) 2 true, givesP (.cmpltn 2 4 5) (regs [(4, -1), (5, 1)]) 2 false, givesP (.cmplen 2 4 5) (regs [(4, 1), (5, 2)]) 2 true,
    givesP (.cmpne 0 1 1) base 0 true, givesP (.pand 2 0 1) base 2 false, givesP (.por 2 0 1) base 2 true, givesP (.pxor 2 0 0) base 2 false,
    givesP (.pnot 2 1) base 2 true, gives (.prsave 3) (on (·.wp 7 true) base) 3 0x81, givesP (.prload 1) (regs [(1, 0xFE)]) 7 true,
    givesP (.prload 1) (regs [(1, 0xFE)]) 0 true].all id = true := by decide +kernel

-- R209: with sp = 0x0001_2040 and SLIM = 0x0001_2020 a SPADJ of −48 raises STACK_FAULT
theorem test_stack_pointer : [
    faultsWith (.spadj 0xFFFFFFD0) (on (fun c => { c with ctl := { c.ctl with slim := 0x12020 } }) (regs [(32, 0x12040)])) 6 0x12010 0,
    gives (.spadj 0xFFFFFFF8) (regs [(32, 0x12040)]) 32 0x12038, gives (.spmov 3 16) (regs [(32, 0x100)]) 3 0x110,
    gives (.spmovSp 3 8) (regs [(3, 0x100)]) 32 0x108, faultsWith (.movi 32 4) base 6 4 0, faultsWith (.lea 32 1 0 0 1) (regs [(1, 3)]) 6 4 0].all id = true := by
  decide +kernel

/-! ### Scalar floating point (R190 to R192, R61 to R68) -/

theorem test_scalar_float_words : [
    gives (.fadd false none 3 1 2) (regs [(1, 0x3F800000), (2, 0x40000000)]) 3 0x40400000, gives (.fsub true none 3 1 2) (regs [(1, 0x3FF0000000000000), (2, 0x3FF0000000000000)]) 3 0,
    gives (.fmul false none 3 1 2) (regs [(1, 0x40400000), (2, 0xC0000000)]) 3 0xC0C00000,
    gives (.ffma true (some .rne) 3 1 2 4) (regs [(1, 0x4000000000000000), (2, 0x4008000000000000), (4, 0x3FF0000000000000)]) 3 0x401C000000000000,
    gives (.fdiv false none 3 1 2) (regs [(1, 0x3F800000), (2, 0)]) 3 0x7F800000, gives (.fsqrt true none 3 1) (regs [(1, 0x8000000000000000)]) 3 0x8000000000000000,
    gives (.fmin false 3 1 2) (regs [(1, 0x3F800000), (2, 0xBF800000)]) 3 0xBF800000, gives (.fmax false 3 1 2) (regs [(1, 0x3F800000), (2, 0xBF800000)]) 3 0x3F800000,
    givesP (.fcmp false 2 1 3 0) (regs [(1, 0x80000000)]) 2 true, givesP (.fcmp false 2 1 3 3) (regs [(1, 0x7FC00000)]) 2 true,
    gives (.fcls false 3 1) (regs [(1, 0x80000000)]) 3 8, gives (.fsgn false 3 1 2 1) (regs [(1, 0x3F800000)]) 3 0xBF800000,
    gives (.fcvt 6 false (some .rtz) 3 1) (regs [(1, 0xC0A00000)]) 3 0xFFFFFFFFFFFFFFFB, gives (.fcvt 6 false (some .rtz) 3 1) (regs [(1, 0x4F800000)]) 3 0x7FFFFFFF].all id = true := by
  decide +kernel

-- the same FCVT sets NV, bit 4 of SFL; an FADD that rounds sets NX, bit 0 (Table 3.4)
theorem test_scalar_flags : after (exec (.fcvt 6 false (some .rtz) 3 1) (regs [(1, 0x4F800000)])) (fun t => t.core.ctl.fpcs == 0x10)
    ∧ after (exec (.fadd false none 3 1 2) (regs [(1, 0x3F800000), (2, 0x33000000)])) (fun t => t.core.ctl.fpcs == 1 && t.core.rd 3 == 0x3F800000) := by
  decide +kernel

/-! ### Control flow (R193 to R204, R402, R403) -/

/-- The pc and the next state's test. -/
def goesTo (i : Instr) (s : State) (a : BitVec 17) : Bool := after (exec i s) (fun t => t.core.pc == a)
/-- Core 0 at an address. -/
def at_ (a : BitVec 17) (s : State) : State := on (fun c => { c with pc := a }) s
/-- A walker with flag e2 set. -/
def walker1 : Walker := ⟨0x1000, Vector.ofFn (fun i => [2, 1, 0, 0].getD i.val 0), Vector.ofFn (fun i => [4, 64, 0, 0].getD i.val 0), Vector.replicate 4 0, 4⟩

theorem test_branches : [
    goesTo (.br 0xFFFFFFE8) (at_ 0x10 base) 0x1FFF8, goesTo (.bc 0 1 16) (regs [(1, 1)]) 16, goesTo (.bc 1 1 16) (regs [(1, 1)]) 8,
    goesTo (.bc 2 1 16) (regs [(1, -1)]) 16, goesTo (.bc 3 1 16) (regs [(1, -1)]) 8, goesTo (.bwe 3 2 16) (on (·.setWalker 3 walker1) base) 16,
    goesTo (.bwe 3 0 16) (on (·.setWalker 3 walker1) base) 8, goesTo (.bmz 16) base 8, goesTo (.bmz 16) (on (fun c => { c with masks := [0] }) base) 16,
    goesTo (.brl 1 1) (regs [(1, 0x40)]) 0x40, faultsWith (.brl 1 1) (regs [(1, 0x44)]) 8 0x44 0, faultsWith (.callr 1) (regs [(1, 0x20000)]) 8 0x20000 0].all id = true := by
  decide +kernel

theorem test_brl_links : after (exec (.brl 1 1) (at_ 0x1FFF8 (regs [(1, 0x40)]))) (fun t => t.core.rd 1 == 0) = true := by decide +kernel

/-- Return addresses on chip, the oldest 8. -/
def full8 : List (BitVec 17) := [64, 56, 48, 40, 32, 24, 16, 8]
/-- Core 0 with eight returns on chip and a link stack of two entries at 0x4000 (R196). -/
def linked : State := on (fun c => { c with retStore := full8, ctl := { c.ctl with lbase := 0x4000, llim := 0x4010 } }) base

theorem test_calls_and_returns : [
    after (exec (.call 64) (at_ 8 base)) (fun t => t.core.retStore == [16] && t.core.pc == 72),
    after (exec (.call 64) linked) (fun t => t.core.lcnt == 1 && t.core.retStore == 8 :: full8.dropLast
      && t.core.stores.map (·.bytes) == [[(0x4000, 8), (0x4001, 0), (0x4002, 0), (0x4003, 0), (0x4004, 0), (0x4005, 0), (0x4006, 0), (0x4007, 0)]]),
    faultsWith (.call 64) (on (fun c => { c with lcnt := 2 }) linked) 6 0x4010 1, after (exec .ret linked) (fun t => t.core.pc == 64 && t.core.retStore == full8.tail),
    after (exec .ret (on (fun c => { c with retStore := [], lcnt := 1 }) ({ linked with mem := [(0x4000, 0x2F)] }))) (fun t => t.core.pc == 0x28 && t.core.lcnt == 0),
    faultsWith .ret base 7 0 0].all id = true := by decide +kernel

-- R199: two loops that end on one word; the third retirement of the inner one goes back to 8, the last leaves at 24
theorem test_loops : [
    after (exec (.loop 1 2 16) base) (fun t => t.core.pc == 8 && t.core.lc.get 1 == ⟨2, 8, 16, true⟩), goesTo (.loop 1 0 16) base 24,
    goesTo (.loopr 1 3 16) (regs [(3, 0x100000000)]) 24,
    after (exec .nop (at_ 16 (on (fun c => { c with lc := ⟨#[⟨1, 16, 16, true⟩, ⟨2, 8, 16, true⟩, ⟨0, 0, 0, false⟩, ⟨0, 0, 0, false⟩], rfl⟩ }) base)))
      (fun t => t.core.pc == 8 && t.core.lc.get 0 == ⟨0, 16, 16, false⟩ && t.core.lc.get 1 == ⟨1, 8, 16, true⟩),
    after (exec .nop (at_ 16 (on (fun c => { c with lc := ⟨#[⟨1, 16, 16, true⟩, ⟨1, 8, 16, true⟩, ⟨0, 0, 0, false⟩, ⟨0, 0, 0, false⟩], rfl⟩ }) base)))
      (fun t => t.core.pc == 24),
    after (exec (.lbrk 1 64) (on (fun c => { c with lc := Vector.replicate 4 ⟨5, 0, 0, true⟩ }) base))
      (fun t => t.core.pc == 64 && (t.core.lc.get 1).active == false && (t.core.lc.get 2).active == true)].all id = true := by decide +kernel

theorem test_slots_safe_exit : [
    after (exec (.gset 3 0) base) (fun t => t.core.slot 3 == .resolved true), after (exec (.gclr 0) base) (fun t => t.core.slot 0 == .resolved true),
    after (exec (.safe 1 2) (on (fun c => { c with watch := 9 }) base)) (fun t => t.core.watch == 0 && t.core.phase == .running),
    after (exec (.safe 1 2) (on (fun c => { c with stop := some .preempt }) base)) (fun t => t.core.phase == .stopped 1 2 0),
    after (exec .exit base) (fun t => t.core.phase == .ending .exit && t.core.pc == 0)].all id = true := by decide +kernel

/-- Core 0 with a handler at 0x800. -/
def handled : State := on (fun c => { c with ctl := { c.ctl with tvec := 0x801 } }) base

theorem test_trap_and_rte : [
    after (exec (.trap 5) (at_ 0x20 handled)) (fun t => t.core.pc == 0x800 && t.core.priv && t.core.ctl.epc == 0x28 && t.core.ctl.frec.get 3 == 5),
    after (exec .rte (on (fun c => { asPriv c with ctl := { (asPriv c).ctl with epc := 0x28 } }) base)) (fun t => t.core.pc == 0x28 && !t.core.priv),
    faultsWith .rte base 2 0 0, faultsWith (.trap 7) base 26 0 7].all id = true := by decide +kernel

/-! ### Walkers, streams, banks (R205 to R218) -/

-- R208: the pattern of the worked example; accesses 3 and 6 set flags 0001 and 1111
theorem test_walker_words : [
    after (exec (.wstep 1 2) (on (·.setWalker 1 walker1) base)) (fun t => (t.core.w.get 1).flags == 1 && (t.core.w.get 1).addr == 0x1040),
    after (exec (.wstep 1 5) (on (·.setWalker 1 walker1) base)) (fun t => (t.core.w.get 1).flags == 15 && (t.core.w.get 1).addr == 0x1000),
    gives (.wpos 3 1 0) (on (·.setWalker 1 { walker1 with idx := Vector.ofFn (fun i => [2, 1, 0, 0].getD i.val 0) }) base) 3 0x1048,
    gives (.wpos 3 1 1) (on (·.setWalker 1 { walker1 with idx := Vector.ofFn (fun i => [2, 1, 0, 0].getD i.val 0) }) base) 3 5, gives (.wpos 3 1 2) (on (·.setWalker 1 walker1) base) 3 4,
    after (exec (.wrst 1) (on (·.setWalker 1 walker1) base)) (fun t => (t.core.w.get 1).flags == 0 && (t.core.w.get 1).base == 0x1000),
    after (exec (.wbind 1 2) ({ regs [(2, 0x40)] with mem := [(0x41, 0x10), (0x48, 2), (0x4A, 1), (0x50, 4), (0x54, 64)] }))
      (fun t => t.core.w.get 1 == { walker1 with flags := 0 }),
    faultsWith (.wbind 1 2) (regs [(2, 0x48)]) 4 0x48 0, faultsWith (.wbind 1 2) ({ regs [(2, 0x40)] with mem := [(0x47, 1)] }) 9 0x40 0].all id = true := by decide +kernel

/-- A stream with a shard record and one batch entry. -/
def streaming : State := on (fun c => { c with
  ctl := { c.ctl with mode := 0x20 }, task := some { blankTask with stream := true, shardRec := [0x1_0000_00AB, 2, 3, 4], batch := [(7, 9)], pinned := true } }) base

theorem test_stream_words : [
    gives (.shard 3 0) streaming 3 0x1_0000_00AB, gives (.batch 3 1 1) streaming 3 9, faultsWith (.batch 3 1 1) (on (setRegs · [(1, 1)]) streaming) 11 1 1,
    faultsWith (.shard 3 0) base 10 0 0, faultsWith .unpin base 10 0 0, after (exec .unpin streaming) (fun t => t.core.task.map (·.pinned) == some false),
    gives (.kva 3 1 64) (regs [(3, 0x1000), (1, 5)]) 3 0x1140, faultsWith (.kva 3 1 64) (regs [(1, 0x100000)]) 12 0x100000 0].all id = true := by decide +kernel

/-- Die 0 with request 5 registered for address space 0. -/
def requested : State := { base with dies := [(⟨0, 0⟩, { Die.reset ⟨0, 0⟩ with reqs := [⟨5, 0, 0, 0, 0, 0, 0⟩] })] }

theorem test_need : gives (.need 3 1 2 false) requested 3 3 = true ∧ gives (.need 3 1 2 false) (on (setRegs · [(1, 5), (2, 9)]) requested) 3 0 = true
    ∧ gives (.need 3 1 2 false) (on (setRegs · [(1, 5), (2, 9)]) { requested with
        dies := [(⟨0, 0⟩, { Die.reset ⟨0, 0⟩ with reqs := [⟨5, 0, 0, 0, 0, 0, 0⟩], need := [(0, 0x8000_0005_0000_0009)] })] }) 3 1 = true := by decide +kernel

theorem test_banks : [
    gives (.acalloc 3 2) base 3 0x110, gives (.acalloc 3 2) (on (fun c => { c with handles := [(0, 1), (2, 13)] }) base) 3 0,
    gives (.acalloc 3 1) (on (fun c => { c with handles := [(0, 1), (2, 13)] }) base) 3 0x101,
    after (exec (.acfree 1) (on (fun c => { setRegs c [(1, 0x110)] with handles := [(0, 2)] }) base)) (fun t => t.core.handles == []),
    faultsWith (.acfree 1) (regs [(1, 0x110)]) 14 0x110 0, after (exec (.gwset 0x20104510) base) (fun t => t.core.ctl.gwcfg == 0x20104510)].all id = true := by decide +kernel
/-! ### Loads, stores, atomics (R291, R303 to R306, R355 to R371) -/

/-- Memory with a few words. -/
def mem (l : List (Nat × Word)) (s : State) : State := l.foldl (fun s e => s.writeWord e.1 e.2) s
/-- Run one step and go on. -/
def thenDo (o : Out State) (f : State → Out State) : Out State := match o with | .next t => f t | x => x
/-- Core 0 as a DET task whose merge log stands in its cluster partition. -/
def det : State := on (fun c => { c with ctl := { c.ctl with mode := 0x10 } }) base

theorem test_loads : [
    after (thenDo (exec (.ld 0 .s32 5 1 4) (mem [(0x40, 0xFFFFFFFE_00000000)] (regs [(1, 0x40)]))) (exec .loadDataArrival)) (fun t => t.core.rd 5 == -2 && t.core.loads == []),
    after (thenDo (exec (.ldp 0 5 6 1 0) (mem [(0x40, 7), (0x48, 9)] (regs [(1, 0x40)]))) (exec .loadDataArrival)) (fun t => t.core.rd 5 == 7 && t.core.rd 6 == 9),
    after (thenDo (exec (.ldw 0 .n8 5 1) (mem [(0x1000, 0xFFF7)] (on (·.setWalker 1 walker1) base))) (exec .loadDataArrival))
      (fun t => t.core.rd 5 == 0xF7 && (t.core.w.get 1).addr == 0x1004),
    after (thenDo (exec (.ldacq 2 1 .n64 5 1 0) (mem [(0x40, 7)] (regs [(1, 0x40)]))) (exec .loadDataArrival)) (fun t => t.core.rd 5 == 7),
    faultsWith (.ld 0 .n64 5 1 4) (regs [(1, 0x40)]) 4 0x44 0, faultsWith (.ld 0 .n64 5 1 0) (regs [(1, 0x100000000000000)]) 5 0x100000000000000 1,
    faultsWith (.ld 0 .n64 5 1 0) (regs [(1, 0x400000)]) 5 0x400000 2,
    after (exec (.ld 0 .n64 32 1 0) (mem [(0x40, 0x80)] (regs [(1, 0x40)]))) (fun t => t.core.rd 32 == 0x80),
    faultsWith (.ld 0 .n64 32 1 0) (mem [(0x40, 0x81)] (regs [(1, 0x40)])) 6 0x81 0].all id = true := by decide +kernel

theorem test_stores : [
    after (thenDo (exec (.st 3 .n16 5 1 0) (mem [(0x40, -1)] (regs [(1, 0x40), (5, 0xABCD0102)]))) (exec (.storePerform 3))) (fun t => t.word 0x40 == 0xFFFFFFFFFFFF0102),
    after (exec (.st 3 .n16 5 1 0) (regs [(1, 0x40), (5, 0x0102)])) (fun t => t.word 0x40 == 0),
    after (exec (.stw 0 .n8 5 1) (on (·.setWalker 1 walker1) (regs [(5, 0x102)]))) (fun t => t.core.stores.map (·.bytes) == [[(0x1000, 2)]] && (t.core.w.get 1).addr == 0x1004),
    after (exec (.stp 0 5 6 1 0) (regs [(1, 0x40), (5, 1), (6, 2)])) (fun t => t.core.stores.length == 1),
    after (exec (.stp 0 5 6 1 8) (regs [(1, 0x40), (5, 1), (6, 2)])) (fun t => t.core.stores.length == 2),
    after (exec (.strel 0 4 .n64 5 1 0) (regs [(1, 0x40), (5, 1)])) (fun t => t.core.stores.map (·.obs) == [4]),
    after (exec (.st 0 .n64 5 1 0) (on (setRegs · [(1, 0x40), (5, 6)]) det)) (fun t => t.word 0x40 == 0 && t.core.log == [⟨0xFF00_0000_0000_0040, 6⟩] && t.taskNum 0x40 8 == 6),
    after (exec (.fence 1) base) (fun t => t.core.pc == 8), after (thenDo (exec (.st 0 .n64 5 1 0) (regs [(1, 0x40)])) (exec (.fence 1))) (fun t => t.core.pc == 8),
    after (thenDo (exec (.st 0 .n64 5 1 0) (regs [(1, 0x40)])) (exec (.fence 2))) (fun t => t.core.pc == 16),
    after (thenDo (exec (.st 0 .n64 5 1 0) (regs [(1, 0x40)])) (exec (.fenceo 1 0b00100))) (fun t => t.core.pc == 8)].all id = true := by decide +kernel

/-- An atomic at 0x40 on 10 (n64), or on a given word, with 3 in g9, which performs and answers: the word after it, and g5. -/
def amo (i : Instr) (old : Word) (new got : Word) : Bool :=
  after (thenDo (thenDo (exec i (mem [(0x40, old)] (regs [(1, 0x40), (9, 3), (5, 10)]))) (exec (.storePerform 0)))
    (fun t => exec .loadDataArrival (on (fun c => { c with tau := 4096 }) t))) (fun t => t.word 0x40 == new && t.core.rd 5 == got && t.core.pc == 8)

theorem test_atomics : [
    amo (.aadd 0 0 .n32 5 9 1 0) 0x1_FFFFFFFF 0x1_00000002 0xFFFFFFFF, amo (.aand 0 0 .n64 5 9 1 0) 10 2 10, amo (.aor 0 0 .n64 5 9 1 0) 10 11 10,
    amo (.axor 0 0 .n64 5 9 1 0) 10 9 10, amo (.amins 0 0 .s32 5 9 1 0) 0xFFFFFFFF 0xFFFFFFFF (-1), amo (.aminn 0 0 .n32 5 9 1 0) 0xFFFFFFFF 3 0xFFFFFFFF,
    amo (.amaxs 0 0 .s32 5 9 1 0) 0xFFFFFFFF 3 (-1), amo (.amaxn 0 0 .n64 5 9 1 0) 10 10 10, amo (.axch 0 0 .n64 5 9 1 0) 10 3 10,
    amo (.acas 0 0 .n64 5 9 1 0) 10 3 10, amo (.acas 0 0 .n64 5 9 1 0) 11 11 11, amo (.afadd 0 0 false 5 9 1 0) 0 3 0,
    faultsWith (.aadd 0 0 .n64 5 9 1 0) (on (setRegs · [(1, 0x40)]) det) 20 0x40 0,
    after (exec (.aadd 0 0 .n64 0 9 1 0) (on (setRegs · [(1, 0x40), (9, 1)]) det)) (fun t => t.core.log == [⟨0x0600_0000_0000_0041, 1⟩])].all id = true := by decide +kernel

/-! ### Barriers, tokens, signals, MERGE (R372, R378 to R387) -/

/-- Core barrier 3 with an expected count, arrivals and a phase. -/
def bar3 (ec ac ph : BitVec 16) (s : State) : State := s.setBar ⟨.core, ⟨0, 0, 0⟩, 3⟩ ⟨ec, ac, ph, 0, none⟩

theorem test_barriers : [
    gives (.bara 5 .core 3) (bar3 2 0 7 base) 5 7, after (exec (.bara 5 .core 3) (bar3 2 1 0xFFFF base)) (fun t => t.getBar ⟨.core, ⟨0, 0, 0⟩, 3⟩ == ⟨2, 0, 0, 0, none⟩),
    after (exec (.bar .core 3) (bar3 2 0 7 base)) (fun t => t.core.pc == 0 && t.core.wait == some (.phase 7)),
    after (thenDo (exec (.bar .core 3) (bar3 2 1 7 base)) (exec (.bar .core 3))) (fun t => t.core.pc == 8),
    after (exec (.barw .core 3 1) (bar3 2 0 7 (regs [(1, 7)]))) (fun t => t.core.pc == 0), after (exec (.barw .core 3 1) (bar3 2 0 8 (regs [(1, 7)]))) (fun t => t.core.pc == 8),
    gives (.barq 5 .core 3) (bar3 4 1 7 base) 5 0x0000_0004_0001_0007,
    after (exec (.barc .die 3 1) (on (fun c => asPriv (setRegs c [(1, 0x0005_0001_0002)])) base)) (fun t => t.getBar ⟨.die, ⟨0, 0, 0⟩, 3⟩ == ⟨2, 0, 5, 0, none⟩),
    faultsWith (.barc .die 3 1) base 2 0 0, faultsWith (.bar .quad 3) base 25 0 0x1000_0003,
    after (exec (.barrierArrival ⟨.core, ⟨0, 0, 0⟩, 3⟩) (bar3 3 1 7 base)) (fun t => t.getBar ⟨.core, ⟨0, 0, 0⟩, 3⟩ == ⟨3, 2, 7, 0, none⟩)].all id = true := by decide +kernel

theorem test_tokens_and_fences : [
    after (exec (.tokw 4) (on (·.setTok 2 (fun _ => ⟨1, 0⟩)) base)) (fun t => t.core.pc == 0), after (exec (.tokw 3) (on (·.setTok 2 (fun _ => ⟨1, 0⟩)) base)) (fun t => t.core.pc == 8),
    after (exec .icfence base) (fun t => t.core.pc == 8), after (exec .icfence (on (fun c => { c with tq := [plainRecord (recordWords 0) 0] }) base)) (fun t => t.core.pc == 0)].all id = true := by
  decide +kernel

theorem test_signals : [
    after (thenDo (exec (.sigadd 0 0 9 1 0) (mem [(0x40, -1)] (regs [(1, 0x40), (9, 3)]))) (exec .signalUpdate)) (fun t => t.word 0x40 == 2 && t.sigs.map (·.applied) == [true]),
    after (thenDo (thenDo (exec (.sigadd 0 0 9 1 0) (regs [(1, 0x40), (9, 3)])) (exec .signalUpdate)) (exec .signalResend)) (fun t => t.word 0x40 == 3),
    after (thenDo (thenDo (exec (.sigmax 0 0 9 1 0) (mem [(0x40, 7)] (regs [(1, 0x40), (9, 3)]))) (exec .signalUpdate)) (exec .signalAcknowledge)) (fun t => t.word 0x40 == 7 && t.sigs == []),
    gives (.sigw 16 6 1 9 0 0) (mem [(0x40, 3)] (regs [(1, 0x40), (9, 3)])) 6 3, after (exec (.sigw 16 6 1 9 3 0) (mem [(0x40, 3)] (regs [(1, 0x40), (9, 3)]))) (fun t => t.core.pc == 0),
    after (thenDo (exec (.sigw 16 6 1 9 3 1) (on (fun c => { c with ir := h 0x74 0 6 1 9 (3 * 4096 + mx 16 6) 1 }) (mem [(0x40, 3)] (regs [(1, 0x40), (9, 3)])))) (fun s => exec .sigwLimit (on (fun c => { c with wait := some (.signal 256 0x40 0 page0 3) }) s)))
      (fun t => t.core.rd 6 == 3 && t.core.pc == 8)].all id = true := by decide +kernel

theorem test_merge : faultsWith .merge base 23 0 0 = true
    ∧ after (exec .merge (on (fun c => { c with task := some { blankTask with gang := true, det := true } }) base)) (fun t => t.core.wait == some (.merge 1)) = true := by decide +kernel

/-! ### Control registers, time, translations (R219 to R221, R300) -/

theorem test_control_registers : [
    gives (.ctlrd 5 4) base 5 0, gives (.ctlrd 5 0x100) base 5 0, gives (.ctlrd 5 0x100) (on asPriv base) 5 1, faultsWith (.ctlwr 0x101 1) base 2 0 0,
    after (exec (.ctlwr 0 1) (on (fun c => { setRegs c [(1, 0x1_0000_0011)] with ctl := { c.ctl with fpcs := 0x33 } }) base)) (fun t => t.core.ctl.fpcs == 0x1_0000_0022),
    after (exec (.ctlset 0x101 1) (on (fun c => asPriv (setRegs c [(1, -1)])) base)) (fun t => t.core.ctl.tvec == 0x1FFF9),
    after (exec (.ctlclr 0x101 1) (on (fun c => asPriv { setRegs c [(1, 1)] with ctl := { c.ctl with tvec := 0x801 } }) base)) (fun t => t.core.ctl.tvec == 0x800),
    gives (.tick 5) (on (fun c => { c with clock := 5041 }) base) 5 10].all id = true := by decide +kernel

theorem test_tmark : after (thenDo (exec (.tmark 1 2 1 0) (on asPriv base)) (exec (.tmark 1 2 1 0))) (fun t => t.core.held == [] && t.core.tq.length == 1 && t.core.pc == 8) = true
    ∧ faultsWith (.tmark 1 2 1 0) base 2 0 0 = true := by decide +kernel
/-! ### Vector words (R222 to R258) -/

/-- Planes set at some elements: (plane, element, value). -/
def putPlanes (l : List (Nat × Nat × Half)) (c : Core) : Core := l.foldl (fun c e => c.putElem (Fin.ofNat 32 e.1) e.2.1 e.2.2) c
/-- 4,096 core cycles later. -/
def later (s : State) : State := on (fun c => { c with tau := c.tau + 4096 }) s
/-- Dispatch, issue and, once it is ready, completion of one vector word: the core afterwards. -/
def vrun (i : Instr) (s : State) (f : Core → Bool) : Bool :=
  after (thenDo (thenDo (exec i s) (fun t => exec .vectorIssue (later t))) (fun t => exec .vectorComplete (later t))) (fun t => f t.core)
/-- The value that a word leaves in element e of v3, where the mask has element e alone, and v1, v2, v4 hold a, b, c there. -/
def lane (i : Instr) (e : Nat) (a b c r : Half) : Bool :=
  vrun i (on (fun k => { putPlanes [(1, e, a), (2, e, b), (4, e, c)] k with masks := [1 <<< e] }) base) (fun k => k.elem 3 e == r)

theorem test_vector_lanes : [
    lane (.vadd .fp32 none false 3 1 2) 5 0x3F800000 0x3F800000 0 0x40000000, lane (.vsub .n32 none false 3 1 2) 5 1 2 0 0xFFFFFFFF,
    lane (.vmul .s8 none true 3 1 2) 5 0x7F02807F 0x02020202 0 0x7F04807F, lane (.vfma .fp32 none false 3 1 2 4) 5 0x40000000 0x40400000 0x3F800000 0x40E00000,
    lane (.vmin .fp32 3 1 2) 5 0x3F800000 0xBF800000 0 0xBF800000, lane (.vmax .s32 3 1 2) 5 1 0xFFFFFFFF 0 1, lane (.vabs .s32 true 3 1) 5 0x80000000 0 0 0x7FFFFFFF,
    lane (.vneg .fp32 false 3 1) 5 0x3F800000 0 0 0xBF800000, lane (.vand 3 1 2) 5 0xC 0xA 0 8, lane (.vor 3 1 2) 5 0xC 0xA 0 0xE, lane (.vxor 3 1 2) 5 0xC 0xA 0 6,
    lane (.vnot 3 1) 5 0 0 0 0xFFFFFFFF, lane (.vshl .n8 3 1 2) 5 0x01010101 0x09030201 0 0x02080402, lane (.vshr .s32 3 1 2) 5 0x80000000 31 0 1,
    lane (.vsha .s32 3 1 2) 5 0x80000000 31 0 0xFFFFFFFF, lane (.vcmp .s32 3 1 2 1) 5 0xFFFFFFFF 0 0 0xFFFFFFFF, lane (.vsel 3 1 2 4) 5 0xFFFF0000 0x00001234 0xFF00FF00 0xFF000034,
    lane (.vmov 3 1) 5 7 0 0 7, lane (.vcvt .fp32 .bf16 1 (some .rne) false 3 1) 5 0x3F808000 0 0 0x3F800000, lane (.vscl false none false 1 3 1 2) 5 0x3F800000 0x8000 0 0x40000000,
    lane (.vexpx 3 1) 5 0 0 0 0x3F800000, lane (.vlogx 3 1) 5 0x3F800000 0 0 0, lane (.vrcpx 3 1) 5 0x40000000 0 0 0x3F000000, lane (.vrsqx 3 1) 5 0x40800000 0 0 0x3F000000,
    lane (.vsinx 3 1) 5 0 0 0 0, lane (.vcosx 3 1) 5 0 0 0 0x3F800000, lane (.vtanhx 3 1) 5 0x80000000 0 0 0x80000000].all id = true := by decide +kernel

-- the F forms: the results that Table 3.8 fixes exactly
theorem test_vector_f_forms : [lane (.vexpf 3 1) 5 0xFF800000 0 0 0, lane (.vlogf 3 1) 5 0 0 0 0xFF800000, lane (.vrcpf 3 1) 5 0x7F800000 0 0 0,
    lane (.vrsqf 3 1) 5 0x7F800000 0 0 0, lane (.vsinf 3 1) 5 0x7F800000 0 0 0x7FC00000, lane (.vcosf 3 1) 5 0x7F800000 0 0 0x7FC00000,
    lane (.vtanhf 3 1) 5 0x7F800000 0 0 0x3F800000].all id = true := by decide +kernel

/-- The same with v1 set at element f. -/
def moved (i : Instr) (f e : Nat) (a r : Half) : Bool :=
  vrun i (on (fun k => { putPlanes [(1, f, a), (2, e, 70)] k with masks := [1 <<< e] }) base) (fun k => k.elem 3 e == r)

theorem test_vector_rows : [
    moved (.vrrot 3 1 1) 63 0 9 9, moved (.vrbc 3 1 5) 69 100 9 9, moved (.vcrot 3 1 1) 960 0 9 9, moved (.vcbc 3 1 15) 965 5 9 9, moved (.vtrp 3 1) 80 17 9 9, moved (.vtrp 3 1) 1 64 9 9,
    moved (.vperm 3 1 2) 70 5 9 9, vrun (.vcred .s32 none false 0 3 1) (on (fun k => { putPlanes [(1, 5, 3), (1, 69, 4)] k with masks := [2 ^ 5 + 2 ^ 69 + 2 ^ 965 + 64] }) base) (fun k => k.elem 3 5 == 7 && k.elem 3 965 == 7 && k.elem 3 6 == 0),
    vrun (.vrred .s32 none false 1 3 1) (on (fun k => { putPlanes [(1, 5, 3), (1, 69, 4)] k with masks := [2 ^ 5 + 2 ^ 69 + 1 + 2 ^ 64] }) base) (fun k => k.elem 3 0 == 3 && k.elem 3 64 == 4 && k.elem 3 128 == 0),
    vrun (.vrscan .n32 none false 0 3 1) (on (fun k => { putPlanes [(1, 5, 3), (1, 6, 4)] k with masks := [2 ^ 4 + 2 ^ 5 + 2 ^ 6 + 2 ^ 63] }) base) (fun k => k.elem 3 4 == 0 && k.elem 3 5 == 3 && k.elem 3 63 == 7),
    vrun (.vcscan .n32 none false 0 3 1) (on (fun k => { putPlanes [(1, 5, 3), (1, 69, 4)] k with masks := [2 ^ 5 + 2 ^ 69] }) base) (fun k => k.elem 3 5 == 3 && k.elem 3 69 == 7)].all id = true := by decide +kernel

theorem test_vector_moves_and_masks : [
    vrun (.vmovExtract 5 1 1 2) (on (putPlanes [(1, 66, 0x80000000)]) base) (fun k => k.rd 5 == 0x80000000), vrun (.vmovInsert 1 5 1 2) (regs [(5, 0x1_0000_0007)]) (fun k => k.elem 1 66 == 7),
    vrun (.vbc 1 5) (on (fun k => { k with masks := [1 <<< 1023] }) (regs [(5, 0x1_0000_0007)])) (fun k => k.elem 1 1023 == 7), vrun (.mpush 1) (on (putPlanes [(1, 5, 2)]) base) (fun k => k.masks == [32]),
    vrun .minv (on (fun k => { k with masks := [32] }) base) (fun k => k.masks == [~~~32]), vrun .mpop (on (fun k => { k with masks := [32] }) base) (fun k => k.masks == []),
    vrun (.mand 1) (on (fun k => { putPlanes [(1, 5, 2)] k with masks := [96] }) base) (fun k => k.masks == [32]), faultsWith .mpop base 19 0 0,
    faultsWith (.mpush 1) (on (fun k => { k with masks := List.replicate 16 1 }) base) 18 0 0, faultsWith (.vpkp .s32 false 0 3 1) base 17 0 0].all id = true := by decide +kernel

-- R258: g = 16, K = 3, the values 3, −2 and 5
theorem test_vector_packing :
    vrun (.vpkp .s32 false 0 3 1) (on (fun k => { putPlanes [(1, 0, 3), (1, 1, -2), (1, 2, 5)] k with masks := [1], ctl := { k.ctl with gwcfg := 0x10038410 } }) base)
      (fun k => k.elem 3 0 == 0xFFFE0003 && k.elem 3 1 == 4 && k.elem 3 2 == 0) = true
    ∧ vrun (.vxtp 0 2 3 1) (on (fun k => { putPlanes [(1, 0, 0xFFFE0003), (1, 1, 4)] k with masks := [1], ctl := { k.ctl with gwcfg := 0x10038410 } }) base)
      (fun k => k.elem 3 0 == 3 && k.elem 3 1 == -2 && k.elem 3 2 == 5 && k.elem 3 3 == 0) = true := by decide +kernel

theorem test_vector_dots_and_random : [
    vrun (.vdot8 false false 0 3 1 2 4) (on (fun k => { putPlanes [(1, 0, 0x38383838), (2, 0, 0x40404040)] k with masks := [1] }) base) (fun k => k.elem 3 0 == 0x41000000),
    vrun (.vdotb none false 0 3 1 2 4) (on (fun k => { putPlanes [(1, 0, 0x3F803F80), (2, 0, 0x40004000), (4, 0, 0x3F800000)] k with masks := [1] }) base) (fun k => k.elem 3 0 == 0x40A00000),
    after (exec (.vrng 9) base) (fun t => t.core.ctl.rngctr == 1 && t.core.vq.length == 1)].all id = true := by decide +kernel

theorem test_vector_memory : [
    after (thenDo (thenDo (exec (.vld 0 .s8 3 1 0 0) (on (fun k => { k with masks := [1 <<< 65] }) (mem [(0x80, 0xFE00)] (regs [(1, 0x40)])))) (fun t => exec .vectorIssue (later t))) (fun t => exec .loadDataArrival (later t)))
      (fun t => t.core.elem 3 65 == -2 && t.core.elem 3 64 == 0),
    after (thenDo (thenDo (exec (.vst 0 .n16 3 1 0 0) (on (fun k => { putPlanes [(3, 65, 0x1234ABCD)] k with masks := [1 <<< 65] }) (regs [(1, 0x40)]))) (fun t => exec .vectorIssue (later t))) (exec (.storePerform 0)))
      (fun t => t.mem == [(0xC2, 0xCD), (0xC3, 0xAB)]),
    after (exec (.vldw 0 .n8 3 1 0) (on (·.setWalker 1 walker1) base)) (fun t => (t.core.w.get 1).addr == 0x1004 && t.core.loads.length == 1),
    after (exec (.vstw 0 .n8 3 1 0) (on (·.setWalker 1 walker1) base)) (fun t => (t.core.w.get 1).addr == 0x1004 && t.core.stores.length == 1),
    after (thenDo (thenDo (exec (.vgath 0 .n32 3 1 2 0) (on (fun k => { putPlanes [(2, 7, -1)] k with masks := [1 <<< 7] }) (mem [(0x38, 0x9_00000000)] (regs [(1, 0x40)])))) (fun t => exec .vectorIssue (later t)))
      (fun t => exec .loadDataArrival (later t)))
      (fun t => t.core.elem 3 7 == 9),
    after (thenDo (exec (.vscat 0 .n32 3 1 2 0) (on (fun k => { putPlanes [(2, 3, 5), (2, 700, 5), (3, 3, 1), (3, 700, 2)] k with masks := [1 <<< 3 ||| 1 <<< 700] }) (regs [(1, 0x40)])))
        (fun t => exec .vectorIssue (later t)))
      (fun t => ((performOldest 0 t).bind (performOldest 0)).map (fun u => u.num 0x54 4) == some 2),
    faultsWith (.vld 0 .n32 3 1 0 2) (regs [(1, 0x40)]) 4 0x42 0].all id = true := by decide +kernel

/-! ### REP (R157 to R159) -/

/-- Two words in code memory at 0. -/
def code2 (a b : Word) (s : State) : State := (s.putCode 0 a).putCode 8 b
/-- n turns of the sequencer. -/
def turns (n : Nat) (s : State) : Out State := n.rec (.next { s with turns := List.replicate n .seq }) (fun _ o => thenDo o step)

theorem test_rep : after (turns 5 (code2 0xFC00_0700_0000_0000#64 0x8000_0084_0010_0000#64 base))
      (fun t => (t.core.vfly ++ t.core.vq).map (fun (v : VWord) => v.instr) == [.vadd .fp32 none false 0 8 16, .vadd .fp32 none false 1 9 16] && t.core.pc == 16) = true
    ∧ faultsWith (.rep 1 0b1100 0) (code2 0 0x0100_0000_0000_0000#64 base) 3 0 0 = true
    ∧ faultsWith (.rep 24 0b0100 0) (code2 0 0x8000_0084_0010_0000#64 base) 1 0 5 = true := by decide +kernel

-- a step fetches, decodes, checks the guard and runs: a word whose guard is false only moves the pc; the all-zero word fails check 1
theorem test_steps : after (step (base.withFetchWord 64 0x0200_0C40_8000_0000)) (fun t => t.core.pc == 8 && t.core.ir == 0x0200_0C40_8000_0000) = true
    ∧ after (step ({ regs [(1, 1)] with turns := [.seq] }.putCode 0 0x0201_0C40_4000_0000#64)) (fun t => t.core.pc == 8 && t.core.rd 3 == 0) = true
    ∧ after (step { base with turns := [.seq] }) (fun t => t.core.phase == .ending .fault && (t.core.ctl.frec.get 0).toNat / 2 ^ 48 == 1 && t.core.ctl.frec.get 3 == 1) = true := by
  decide +kernel
/-! ### States that meet the hypotheses of the obligations: words -/

theorem base_sound : base.Sound := by unfold State.Sound; decide
theorem base_keyed : base.Keyed := by unfold State.Keyed; decide

theorem witness_EncodedWordDecodesBack : ∃ g : Guarded, g.instr.isWord = true ∧ g.wellFormed = true ∧ g.neg = true :=
  ⟨⟨true, 7, .lea 32 0 31 7 0x8000⟩, by decide⟩
theorem witness_AcceptedWordIsItsEncoding : decode 0x0201_0C40_4000_0000 = .ok ⟨false, 1, .add 3 4 1⟩ := by decide +kernel

theorem witness_WordsDecodeAsTheTablesSay : (0xFF00_0000_0000_0001#64).toNat / 2 ^ 56 = 0xFF ∧ (0#64).toNat / 2 ^ 56 = 0 := by decide

/-- The sequencer of core 0 has the turn, with a word at 0. -/
def turn (wd : Word) : State := { base.putCode 0 wd with turns := [.seq] }

/-- ADD reads g4, whose load is under way. -/
def awaiting : State :=
  on (fun c => { c with num := 1, loads := [⟨0, 0, .reg 4 .n64, [(0, 0x40)], 8, true, 0, 0, 0, none, none, 0, false, []⟩] })
    { turn 0x0200_0C40_4000_0000 with turns := [] }
/-- The same without a turn. -/
def quiet (wd : Word) : State := { turn wd with turns := [] }

theorem witness_StepRunsTheDecodedInstruction_words :
    (State.issues (quiet 0x0200_0C40_4000_0000) ∧ decode ((quiet 0x0200_0C40_4000_0000).work exec).nextWord = .ok ⟨false, 0, .add 3 4 1⟩
      ∧ ((quiet 0x0200_0C40_4000_0000).work exec).core.rp 0 ≠ false)
    ∧ (State.issues (quiet 0x0201_0C40_4000_0000) ∧ decode ((quiet 0x0201_0C40_4000_0000).work exec).nextWord = .ok ⟨false, 1, .add 3 4 1⟩
      ∧ ((quiet 0x0201_0C40_4000_0000).work exec).core.rep = none ∧ ((quiet 0x0201_0C40_4000_0000).work exec).core.rp 1 = false)
    ∧ (State.issues (quiet 0) ∧ decode ((quiet 0).work exec).nextWord = .error 1 ∧ ((quiet 0).work exec).core.precise) := by
  unfold State.issues State.turnOpen State.wordFree Core.precise; exact ⟨by decide +kernel, by decide +kernel, by decide +kernel⟩

theorem witness_StepRunsTheDecodedInstruction_others :
    ({ base with turns := [.ev ⟨⟨0, 0, 0⟩, ⟨0, 0⟩, 0⟩ .vectorIssue] } : State).turns = .ev ⟨⟨0, 0, 0⟩, ⟨0, 0⟩, 0⟩ .vectorIssue :: []
    ∧ (State.turnOpen awaiting ∧ (awaiting.work exec).core.phase = .running ∧ (awaiting.work exec).core.trap = none
      ∧ (awaiting.work exec).core.boundaryFault = none ∧ (awaiting.work exec).core.loads.any (fun l => l.dst == .reg 4 .n64) = true
      ∧ decode (awaiting.work exec).nextWord = .ok ⟨false, 0, .add 3 4 1⟩ ∧ (awaiting.work exec).core.rep = none
      ∧ (4 : GReg) ∈ gNames (.add 3 4 1) ∧ (awaiting.work exec).core.rp 0 ≠ false)
    ∧ ∀ v ∈ [none, some true], let s := on (fun c => { c with verdict := v }) base
      (s.getPkg s.core.key.pkg).power = true ∧ (s.getPkg s.core.key.pkg).inReset = false ∧ s.core.phase ≠ .free ∧ s.core.verdict = v
        ∧ s.allCores.any (fun c => s.working c && decide (c.clock < s.core.clock)) = false := by
  unfold State.turnOpen; exact ⟨by decide +kernel, by decide +kernel, by decide +kernel⟩

/-- The first package without power. -/
def dark : State := { base with pkgs := [(0, { Package.reset 0 with power := false })] }

theorem witness_NothingStopsTheMachineButPower : step { dark with turns := [.seq] } = .fault .noPower := by rfl
theorem witness_StepKeepsMemoryCanonical : ∃ s t : State, s.Sound ∧ step s = .next t := ⟨{ base with turns := [.core ⟨0, 0, 1⟩] }, _, base_sound, rfl⟩
theorem witness_StepKeepsKeys : ∃ s t : State, s.Keyed ∧ step s = .next t := ⟨{ base with turns := [.core ⟨0, 0, 1⟩] }, _, base_keyed, rfl⟩

/-- Counters of which lc0 and lc1 end at 16, the inner one on its last pass. -/
def twoLoops : Core := { core0 with pc := 16, lc := ⟨#[⟨1, 16, 16, true⟩, ⟨2, 8, 16, true⟩, ⟨0, 0, 0, false⟩, ⟨0, 0, 0, false⟩], rfl⟩ }

theorem witness_LoopEndVisitsCountersInnermostFirst :
    (twoLoops.rep = none ∧ (∀ m : Fin 4, m < 1 → (twoLoops.lc.get m).active = true → (twoLoops.lc.get m).fin = twoLoops.pc → (twoLoops.lc.get m).count = 1)
      ∧ (twoLoops.lc.get 1).active = true ∧ (twoLoops.lc.get 1).fin = twoLoops.pc ∧ (twoLoops.lc.get 1).count ≠ 1)
    ∧ ∀ n : Fin 4, (core0.lc.get n).active = true → (core0.lc.get n).fin = core0.pc → (core0.lc.get n).count = 1 := by decide

-- a register write's hypotheses: a value that fits
theorem witness_writesReg : ∃ (s : State) (v : Word), v = BitVec.ofInt 64 ((s.core.rd 1).toInt + (s.core.rd 2).toInt) ∧ s.core.fits 32 v :=
  ⟨regs [(1, -8), (2, 16)], 8, by unfold Core.fits; decide⟩
theorem witness_ArithmeticResults : ((regs [(1, -7), (2, 2)]).core.rd 2 ≠ 0 ∧ truncDiv ((regs [(1, -7), (2, 2)]).core.rd 1).toInt ((regs [(1, -7), (2, 2)]).core.rd 2).toInt (-3) (-1))
    ∧ (regs [(1, 5)]).core.rd 2 = 0 ∧ ((regs [(1, 7), (2, 2)]).core.rd 1).toNat = ((regs [(1, 7), (2, 2)]).core.rd 2).toNat * 3 + 1 := by
  unfold truncDiv; decide
theorem witness_ShiftImmediateFieldResults : ∃ lo k : Fin 64, lo.val + k.val + 1 ≤ 64 ∧ lo.val + k.val + 1 = 64 := ⟨63, 0, by decide⟩
theorem witness_CompareAndPredicateResults : ((true = true) ↔ (regs [(4, -1)]).core.rd 4 ≠ (regs [(4, -1)]).core.rd 5) := by decide

/-- SLIM at 0x100, sp at 0x100. -/
def slim100 : State := on (fun c => { c with ctl := { c.ctl with slim := 0x100 } }) (regs [(32, 0x100), (1, 0xF8), (2, 0)])

theorem witness_UnfitStackPointerFaults : slim100.core.precise ∧ ¬ slim100.core.fits 32 (slim100.core.rd 1 + slim100.core.rd 2)
    ∧ ¬ slim100.core.fits 32 ((0xFF : BitVec 32).signExtend 64) ∧ ¬ slim100.core.fits 32 (slim100.core.rd 1 + slim100.core.rd 2 * BitVec.ofNat 64 (2 ^ 3) + (1 : BitVec 16).signExtend 64)
    ∧ ¬ slim100.core.fits 32 (slim100.core.rd 32 + (0xFFFFFFF8 : BitVec 32).signExtend 64) ∧ ¬ slim100.core.fits 32 (slim100.core.rd 1 + (0 : BitVec 32).signExtend 64)
    ∧ ¬ slim100.core.fits 32 (slim100.ctlValue 4) := by unfold Core.fits; decide

theorem codeValue_one : codeValue FFmt.fp32 0x3F800000 1 := ⟨by decide, false, 2 ^ 23, -23, by decide +kernel, by norm_num [dyadic]⟩
theorem codeValue_top : codeValue FFmt.fp32 FFmt.fp32.maxCode (dyadic false (2 ^ 24 - 1) 104) := ⟨by decide, false, 2 ^ 24 - 1, 104, by decide +kernel, rfl⟩
theorem witness_RoundingIsCorrect : FFmt.fp32 ∈ [FFmt.fp64, .fp32, .fp16, .bf16, .e4m3, .e5m2] ∧ ∃ top, codeValue FFmt.fp32 FFmt.fp32.maxCode top ∧ |dyadic true 3 (-1)| ≤ top :=
  ⟨by decide, _, codeValue_top, by norm_num [dyadic]⟩
theorem witness_RoundingIsCorrect_words : ∃ (c : Core) (x y z : ℚ), codeValue (scalarFmt false) (fpCode false (c.rd 1)) x ∧ codeValue (scalarFmt false) (fpCode false (c.rd 1)) y
    ∧ codeValue (scalarFmt false) (fpCode false (c.rd 1)) z ∧ x * y + z ≠ 0 ∧ ∃ top, codeValue (scalarFmt false) (scalarFmt false).maxCode top ∧ |x * y + z| ≤ top ∧ |x + y| ≤ top :=
  ⟨(regs [(1, 0x3F800000)]).core, 1, 1, 1, codeValue_one, codeValue_one, codeValue_one, by norm_num, _, codeValue_top, by norm_num [dyadic], by norm_num [dyadic]⟩
theorem witness_ScalarFloatWordResults : (∃ (s : State) (x y : ℚ), codeValue (scalarFmt false) (fpCode false (s.core.rd 1)) x ∧ codeValue (scalarFmt false) (fpCode false (s.core.rd 1)) y ∧ (true ↔ x = y))
    ∧ isNaNValue ((regs [(1, 0x7FC00000)]).core.fp false 1) := ⟨⟨regs [(1, 0x3F800000)], 1, 1, codeValue_one, codeValue_one, by norm_num⟩, by trivial⟩

theorem witness_BranchesMoveThePcOrFault : bcTaken 2 ((regs [(1, -1)]).core.rd 1) ∧ ¬ bcTaken 3 ((regs [(1, -1)]).core.rd 1)
    ∧ ((on (·.setWalker 3 walker1) base).core.w.get 3).flags.getLsbD 2 = true ∧ (base.core.w.get 3).flags.getLsbD 2 = false
    ∧ ((on (fun c => { c with masks := [0] }) base).core.masksSettled = true ∧ (on (fun c => { c with masks := [0] }) base).core.topMask = 0)
    ∧ (base.core.masksSettled = true ∧ base.core.topMask ≠ 0) ∧ (on (fun c => { c with vq := [⟨0, .mpop, .rne, 0, 0, 0, none, 0⟩] }) base).core.masksSettled = false
    ∧ (((regs [(1, 0x1FFF8)]).core.rd 1).toNat < 2 ^ 17 ∧ ((regs [(1, 0x1FFF8)]).core.rd 1).toNat % 8 = 0 ∧ (regs [(1, 0x1FFF8)]).core.fits 32 (BitVec.ofNat 64 (base.core.pc + 8).toNat))
    ∧ (base.core.precise ∧ ¬ (((regs [(1, 0x20000)]).core.rd 1).toNat < 2 ^ 17 ∧ ((regs [(1, 0x20000)]).core.rd 1).toNat % 8 = 0)) := by
  unfold bcTaken Core.fits; decide +kernel

theorem witness_CallsPushAndReturnsPop : (base.core.retStore.length < 8 ∧ ((regs [(1, 0x40)]).core.rd 1).toNat < 2 ^ 17 ∧ ((regs [(1, 0x40)]).core.rd 1).toNat % 8 = 0)
    ∧ (linked.core.retStore.length = 8 ∧ linked.core.ctl.lbase.toNat + 8 * linked.core.lcnt + 8 ≤ linked.core.ctl.llim.toNat ∧ linked.core.det = false
      ∧ translate seqReach .write 0x4000 linked = .ok (0x4000, page0) ∧ linked.slabBusy 0x4000 8 = false)
    ∧ (linked.core.ctl.llim.toNat < linked.core.ctl.lbase.toNat + 8 * 2 + 8 ∧ linked.core.precise)
    ∧ linked.core.retStore = 64 :: full8.tail
    ∧ (let s := on (fun c => { c with retStore := [], lcnt := 1 }) linked; s.core.retStore = [] ∧ 0 < s.core.lcnt ∧ translate seqReach .read 0x4000 s = .ok (0x4000, page0)
      ∧ s.readBlocked 0 s.core.num 0x4000 8 = false ∧ s.spoiled 0x4000 8 = false)
    ∧ (base.core.retStore = [] ∧ base.core.lcnt = 0 ∧ base.core.precise) := by decide +kernel

-- a DET task whose link stack stands in the DET region (R368)
theorem witness_CallsPushAndReturnsPop_logged :
    let s := on (fun c => { c with ctl := { c.ctl with mode := 0x10 } }) linked
    s.core.retStore.length = 8 ∧ s.core.ctl.lbase.toNat + 8 * s.core.lcnt + 8 ≤ s.core.ctl.llim.toNat ∧ translate seqReach .write 0x4000 s = .ok (0x4000, page0)
      ∧ s.slabBusy 0x4000 8 = false ∧ insideLog s 0x4000 8 ∧ (∀ e ∈ addressed 0x4000 (toBytes 8 8), s.core.loadBefore 0 s.core.num e.1 1 = false)
      ∧ (logPlain s.core.log s.core.resv (addressed 0x4000 (toBytes 8 8))).isOk = true := by unfold insideLog; decide +kernel

theorem witness_SlotsSafePointsAndExit : (on asPriv base).core.priv = true ∧ (base.core.priv = false ∧ base.core.stop = none)
    ∧ (on (fun c => { c with stop := some .destroy }) base).core.stop = some .destroy ∧ (on (fun c => { c with stop := some .gang }) base).core.stop = some .gang ∧ (StopCause.gang ≠ .destroy) := by
  decide

theorem witness_FaultsEnterHandlerOrEndTask : (fatalCode 26 = false ∧ handled.core.priv = false ∧ handled.core.ctl.tvec.getLsbD 0 = true) ∧ fatalCode 27 = true
    ∧ (fatalCode 26 = false ∧ (on asPriv handled).core.priv = true) ∧ base.core.ctl.tvec.getLsbD 0 = false
    ∧ ∃ k, ((on (fun c => { c with task := some { blankTask with det := true } }) base).core.task = some k ∧ k.det = true) := by
  exact ⟨by decide, by decide, by decide, by decide, _, rfl, rfl⟩
theorem witness_TrapReturnAndPrivilege : (handled.core.precise ∧ handled.core.priv = false ∧ handled.core.ctl.tvec.getLsbD 0 = true ∧ handled.core.pc.toNat % 8 = 0)
    ∧ (on asPriv base).core.priv = true ∧ (∃ (n : BitVec 12) (a : GReg), 0x010 ≤ n.toNat ∧ n.toNat = 0x010 ∧ Instr.ctlwr n a = .ctlwr 0x010 1) := ⟨by decide, by decide, 0x010, 1, by decide⟩

/-- A descriptor of the pattern of R208 at 0x40, and one with a reserved bit at 0x60. -/
def descs : State := { regs [(1, 0x40), (2, 0x60), (3, 0x50)] with mem := [(0x41, 0x10), (0x48, 2), (0x4A, 1), (0x50, 4), (0x54, 64), (0x67, 1)] }

theorem witness_WalkerAndStackPointerWords : walkerInside walker1
    ∧ ((descs.core.rd 1).toNat % 32 = 0 ∧ translate seqReach .read 0x40 descs = .ok (0x40, page0) ∧ descs.readBlocked 0 descs.core.num 0x40 32 = false ∧ descs.taskNum 0x40 8 < 2 ^ 56)
    ∧ (translate seqReach .read 0x60 descs = .ok (0x60, page0) ∧ descs.readBlocked 0 descs.core.num 0x60 32 = false ∧ 2 ^ 56 ≤ descs.taskNum 0x60 8 ∧ descs.core.precise)
    ∧ (descs.core.rd 3).toNat % 32 ≠ 0 := by unfold walkerInside; decide +kernel

theorem witness_StreamWordsAndKva : (streaming.core.isStream = true ∧ (∃ k, streaming.core.task = some k ∧ k.shardRec[3]? = some 4 ∧ k.batch[0]? = some (7, 9) ∧ k.batch.length ≤ 1))
    ∧ base.core.isStream = false ∧ ((regs [(1, 0xFFFFF)]).core.rd 1).toNat < 2 ^ 20 ∧ 2 ^ 20 ≤ ((regs [(1, 0x100000)]).core.rd 1).toNat :=
  ⟨⟨by decide, _, rfl, by decide⟩, by decide⟩

/-- Request 5 is asked for in g1; the table is empty, holds the pair, or is full. -/
def asks (l : List (Nat × Word)) : State :=
  on (setRegs · [(1, 5), (2, 9)]) { base with dies := [(⟨0, 0⟩, { Die.reset ⟨0, 0⟩ with reqs := [⟨5, 0, 0, 0, 0, 0, 0⟩], need := l })] }

theorem witness_NeedAndUnpin : base.ownDie.reqs = [] ∧ (∃ r ∈ (asks []).ownDie.reqs, r.req = 5 ∧ r.asid.toNat = 0 ∧ r.state = 0)
    ∧ ((asks [(3, 0x8000_0005_0000_0009)]).ownDie.needSlot 5 9).isSome = true ∧ ((asks []).ownDie.needSlot 5 9 = none ∧ (asks []).ownDie.needFree = some 0)
    ∧ (streaming.core.isStream = true ∧ (∃ k, streaming.core.task = some k ∧ k.stream = true) ∧ streaming.core.pq = [] ∧ streaming.core.prun = [] ∧ streaming.core.tq = [] ∧ streaming.core.trun = []
      ∧ streaming.core.loads = [])
    ∧ (let s := on (fun c => { c with num := 1, trun := [plainRecord (recordWords 0) 0] }) streaming; ∃ r ∈ s.core.trun, r.number < s.core.unpin.getD s.core.num) := by
  refine ⟨by decide +kernel, by decide +kernel, by decide +kernel, by decide +kernel, ⟨by decide, ⟨_, rfl, rfl⟩, by decide⟩, by decide⟩

/-- n slots from k on, each with the need for request 1 and tag 1. -/
def slots : Nat → Nat → List (Nat × Word)
  | _, 0 => []
  | k, n + 1 => (k, 0x8000_0001_0000_0001) :: slots (k + 1) n

theorem slots_get (n k i : Nat) (h : k ≤ i) (h' : i < k + n) : sget 0 (slots k n) i = 0x8000_0001_0000_0001 := by
  induction n generalizing k with
  | zero => omega
  | succ n ih => unfold slots sget; split; · rfl
                 exact ih (k + 1) (by omega) (by omega)
theorem slots_other (n k : Nat) : (slots k n).find? (fun e => needValid e.2 && needReq e.2 == 5 && needTag e.2 == 9) = none := by
  have v : (needValid 0x8000_0001_0000_0001 && needReq 0x8000_0001_0000_0001 == 5 && needTag 0x8000_0001_0000_0001 == 9) = false := by decide +kernel
  induction n generalizing k with
  | zero => rfl
  | succ n ih => simp only [slots, List.find?, v]; exact ih _

-- a full table
theorem witness_NeedAndUnpin_full : (asks (slots 0 4096)).ownDie.needSlot 5 9 = none ∧ (asks (slots 0 4096)).ownDie.needFree = none := by
  constructor
  · change ((slots 0 4096).find? _).map _ = none; rw [slots_other]; rfl
  · change (List.range 4096).find? (fun i => !needValid (sget 0 (slots 0 4096) i)) = none
    rw [List.find?_eq_none]
    intro i hi
    rw [slots_get 4096 0 i (by omega) (by simpa using hi)]; decide

/-! ### States that meet the hypotheses of the obligations: records, memory, vector words -/

/-- Eight words of a record from the first ones. -/
def rw8 (l : List Nat) : RWords := Vector.ofFn (fun i => BitVec.ofNat 64 (l.getD i.val 0))
/-- A record with those words that holds the page. -/
def qrec (l : List Nat) : QRec := { plainRecord (rw8 l) 0 with pages := [page0] }
/-- A PZERO of the first 16 entries of bank 0 (R283). -/
def pzero : List Nat := [rec0 0x1C 0, 0, 0, 0, 0x100]
/-- An XFILL of one element of four bytes at 0x1000 with 7, and an XCOPY of four bytes from 0x2000 to 0x1000. -/
def xfill : List Nat := [rec0 0x42 16, 0, 0x1000, 0, 7]
def xcopy : List Nat := [rec0 0x40 16, 0, 0x1000, 0, 0x2000]
/-- The words in g8 to g15. -/
def inRegs (l : List Nat) (s : State) : State :=
  on (fun c => { setRegs c (l.zipIdx.map (fun e => (8 + e.2, BitVec.ofNat 64 e.1))) with handles := [(0, 1), (1, 1)] }) s
/-- The words at 0x40, and 0x40 in g1. -/
def inMem (l : List Nat) (s : State) : State :=
  on (fun c => { setRegs c [(1, 0x40)] with handles := [(0, 1)] }) (mem (l.zipIdx.map (fun e => (0x40 + 8 * e.2, BitVec.ofNat 64 e.1))) s)
/-- Is the answer of a check a plan? -/
def passed (x : Chk Plan) : Bool := match x with | .ok _ => true | _ => false
/-- Is it a fault of a code? -/
def faulted (x : Chk Plan) (n : Nat) : Bool := match x with | .error (.fault f) => f.code == n | _ => false
/-- The words that ENQR and ENQ take. -/
def ofRegs (s : State) : RWords := Vector.ofFn (fun (i : Fin 8) => s.core.rd (Fin.ofNat 33 (8 * ((0 : Fin 3).val + 1) + i.val)))
def ofMem (s : State) : RWords := Vector.ofFn (fun (i : Fin 8) => BitVec.ofNat 64 (s.taskNum (0x40 + 8 * i.val) 8))
/-- An update of the current core's signal at 0x40 under way, with observers and place. -/
def sigOn (obs : BitVec 5) : SigMsg := ⟨sigSource ⟨0, 0, 0⟩ 0, 1, 0, 0x40, false, 1, false, some (⟨0, 0, 0⟩, 0, 0), none, none, obs, [page0], none⟩
/-- What ENQ and ENQR leave in the two queues. -/
def enters (i : Instr) (s : State) (np nt : Nat) : Bool := after (exec i s) (fun t => t.core.pq.length == np && t.core.tq.length == nt && t.core.pc == 8)

theorem witness_EnqueueEntersQueue :
    (ofRegs (inRegs pzero base) = rw8 pzero ∧ passed (productCheck (rw8 pzero) (inRegs pzero base)) = true ∧ enters (.enqr 0) (inRegs pzero base) 1 0 = true)
    ∧ (ofRegs (inRegs xfill base) = rw8 xfill ∧ passed (transferCheck (rw8 xfill) (inRegs xfill base)) = true ∧ enters (.enqr 0) (inRegs xfill base) 0 1 = true)
    ∧ (ofMem (inMem pzero base) = rw8 pzero ∧ passed (productCheck (rw8 pzero) ((inMem pzero base).hold page0)) = true ∧ enters (.enq 1) (inMem pzero base) 1 0 = true)
    ∧ (ofMem (inMem xfill base) = rw8 xfill ∧ passed (transferCheck (rw8 xfill) ((inMem xfill base).hold page0)) = true ∧ enters (.enq 1) (inMem xfill base) 0 1 = true)
    ∧ (translate seqReach .read 0x40 (inMem xfill base) = .ok (0x40, page0) ∧ (inMem xfill base).core.storePending 0x40 64 = false
      ∧ (inMem xfill base).readBlocked 0 0 0x40 64 = false ∧ (inMem xfill base).spoiled 0x40 64 = false ∧ (inMem xfill base).updateAhead true false = false ∧ (inMem xfill base).updateAhead false false = false)
    ∧ (0x10 ≤ (rw8 pzero).get 0 / 2 ^ 56 ∧ (rw8 pzero).get 0 / 2 ^ 56 ≤ 0x2F ∧ 0x40 ≤ (rw8 xfill).get 0 / 2 ^ 56)
    ∧ (let s := on (fun c => { c with pq := List.replicate 16 (qrec pzero) }) (inRegs pzero base); s.core.pq.length = 16 ∧ enters (.enqr 0) s 16 0 = false)
    ∧ (let s : State := { inRegs pzero base with sigs := [sigOn 0b00100] }; s.updateAhead true false = true ∧ s.updateAhead false false = false ∧ enters (.enqr 0) s 1 0 = false)
    ∧ (let s : State := { inRegs xfill base with sigs := [sigOn 0b01000] }; s.updateAhead false false = true ∧ enters (.enqr 0) s 0 1 = false)
    ∧ (let s := on (fun c => { c with pq := [qrec [rec0 0x1D 0, 0, 0x100]] }) (inRegs pzero base); (match productCheck (rw8 pzero) s with | .error .delay => true | _ => false) = true ∧ s.updateAhead true false = false)
    ∧ faulted (productCheck (rw8 (pzero ++ [0, 0, 1])) base) 13 = true ∧ faulted (transferCheck (rw8 (xfill ++ [0, 0, 1])) base) 13 = true
    ∧ (let s := on (fun c => { c with wait := some (.record (rw8 pzero)) }) (inMem xfill base); s.core.wait = some (.record (rw8 pzero)) ∧ enters (.enq 1) s 1 0 = true)
    ∧ (let s := on (fun c => asPriv { c with ctl := { c.ctl with mode := 2 } }) base; s.core.priv = true ∧ s.core.fixed = true ∧ s.core.precise)
    ∧ [0x0F, 0x30, 0x3F, 0x70].all (fun n => faultsWith (.enqr 0) (inRegs [rec0 n 0] base) 13 0 n) = true
    ∧ faultsWith (.enq 1) (regs [(1, 0x48)]) 4 0x48 0 = true := by decide +kernel

theorem witness_BanksAreAllocatedAndFreed :
    (let s := on (fun c => { c with handles := [(0, 1), (2, 13)] }) base
     s.core.task = some blankTask ∧ (s.core.handles.map (·.2)).sum + 1 ≤ blankTask.nbank ∧ 1 + 1 ≤ 16 ∧ (∀ h ∈ s.core.handles, ¬ (h.1 ≤ 1 ∧ 1 < h.1 + h.2)) ∧ s.core.fits 3 0x101
      ∧ gives (.acalloc 3 1) s 3 0x101 = true ∧ gives (.acalloc 3 2) s 3 0 = true ∧ gives (.acalloc 3 3) s 3 0 = true)
    ∧ (let s := on (fun c => { setRegs c [(1, 0x1F0)] with handles := [(0, 16)] }) base
       s.core.handles.find? (fun x => mkHandle x.1 x.2 = s.core.rd 1) = some (0, 16) ∧ s.core.pq = [] ∧ s.core.prun = [] ∧ blankTask.nbank < (s.core.handles.map (·.2)).sum + 1)
    ∧ (∀ h ∈ base.core.handles, mkHandle h.1 h.2 ≠ base.core.rd 1) := by unfold Core.fits; decide +kernel

theorem witness_LoadsGoOnTheirWay :
    (let s := regs [(1, 0x3FFFF8)]
     translate seqReach .read 0x3FFFF8 s = .ok (0x3FFFF8, page0) ∧ translate seqReach .read (0x3FFFF0 + 8) (s.hold page0) = .ok (0x3FFFF8, page0)
      ∧ translate seqReach .read 0x400000 s = .error (.fault 2) ∧ (s.core.rd 1).toNat % sizeBytes .n64 = 0 ∧ 0x3FFFFC % sizeBytes .n64 ≠ 0)
    ∧ translate seqReach .read (on (·.setWalker 1 walker1) base).core.w[1].addr (on (·.setWalker 1 walker1) base) = .ok (0x1000, page0)
    ∧ (let s := mem [(0x40, 0x80)] (regs [(1, 0x40)]); s.readBlocked 0 s.core.num 0x40 8 = false ∧ s.spoiled 0x40 8 = false ∧ s.core.fits 32 (extendSize .n64 (s.taskNum 0x40 8)))
    ∧ ¬ base.core.fits 32 (extendSize .n64 ((mem [(0x40, 0x81)] base).taskNum 0x40 8)) := by unfold Core.fits; decide +kernel

/-- A load of class 0 under way. -/
def loading (dst : LoadDst) (items : List (Nat × Nat)) (n : Nat) (s : State) : State :=
  on (fun c => { c with num := 1, loads := [⟨0, 0, dst, items, n, true, 0, 0, 0, none, none, 0, false, []⟩] }) s
/-- A store of class 0 under way. -/
def storing (l : List (Nat × Byte)) : State := on (fun c => { c with num := 1, stores := [⟨0, 0, l, none, [], 0, 0, [], false, none, none⟩] }) base

theorem witness_AccessesPerform :
    [(LoadDst.reg 5 .s8, [(0, 0x40)], 1), (.pair 5 6, [(0, 0x40), (1, 0x48)], 8), (.plane 3 .n32, [(1023, 0x40)], 4)].all
      (fun x => let s := loading x.1 x.2.1 x.2.2 base; (s.core.loads.filter s.loadReady)[s.place.n]?.isSome && (List.finRange 32).all (fun v => swf 0 (s.core.planes.get v))) = true
    ∧ (let s := storing [(0x40, 1), (0x41, 2)]; (s.core.stores.find? (fun q => q.cls == 0)).isSome = true
      ∧ (∀ p ∈ s.core.stores, p.rmw = none ∧ s.core.reached p.at_ = true ∧ s.core.performable p = true ∧ s.sigBefore s.core.key 0 p.num = false ∧ s.outranked p = false) ∧ s.Sound)
    ∧ (let s : State := { loading (.reg 5 .n8) [(0, 0x40)] 1 base with bad := [0x40] }
       (s.core.loads.filter s.loadReady)[s.place.n]?.isSome = true ∧ s.spoiled 0x40 1 = true ∧ s.core.precise)
    ∧ (let s := loading (.reg 5 .n8) [(0, 0x40)] 1 base; s.spoiled 0x40 1 = false)
    ∧ [((1 : BitVec 5), (0 : BitVec 5), 0x80), (0, 1, 0x80), (0, 0, 0x47)].all (fun x =>
        let s := on (fun c => { c with stores := [⟨1, 0, [(x.2.2, 1)], none, [], 0, x.1, [], false, none, none⟩]
                                       loads := c.loads.map (fun l => { l with obs := x.2.1 }) }) (loading (.reg 5 .n64) [(0, 0x40)] 8 base)
        s.core.loads.any (fun l => l.got.isNone && l.cls == 0 && decide (l.num < 1)
          && ((x.1 != 0 && inReach x.1 s.core.key 0x40) || (l.obs != 0 && inReach l.obs s.core.key x.2.2) || decide (0x40 ≤ x.2.2 ∧ x.2.2 < 0x48)))) = true := by
  unfold State.Sound; decide +kernel

theorem witness_StoresGoOnTheirWay :
    (base.core.det = false ∧ translate seqReach .write 0x3FFFF8 base = .ok (0x3FFFF8, page0) ∧ base.slabBusy 0x3FFFF8 8 = false ∧ (∀ l ∈ base.core.loads, l.cls ≠ 0)
      ∧ translate seqReach .write (0x3FFFF0 + 8) (base.hold page0) = .ok (0x3FFFF8, page0))
    ∧ (∃ l ∈ (loading (.reg 5 .n8) [(0, 0x40)] 1 base).core.loads, l.cls = 0)
    ∧ (let d := State.ownDie base
       let s := base.setDie { d with pairs := [⟨0x2000, 0, [(0x2000, 64, 0)], [(0x3000, 64, 0)], 64, 64, 1, 0, false, false, false⟩] }
       translate seqReach .write 0x2000 s = .ok (0x2000, page0) ∧ s.slabBusy 0x2000 8 = true ∧ s.core.precise)
    ∧ (det.core.det = true ∧ (∀ i < 8, detRegion det.core.key (0x40 + i) = true) ∧ translate seqReach .write 0x40 det = .ok (0x40, page0) ∧ det.slabBusy 0x40 8 = false
      ∧ det.core.loads = [] ∧ (match logPlain det.core.log det.core.resv (bytesAt 0x40 8 5) with | .ok l => l.length | _ => 0) = 1) := by
  unfold bytesAt; decide +kernel

theorem witness_FencesAndTokensWait :
    (base.core.stores = [] ∧ base.core.loads = [] ∧ base.sigs = [])
    ∧ (∃ p ∈ (storing [(0x40, 1)]).core.stores, (1 : BitVec 16).getLsbD p.cls.val = true ∧ p.bytes ≠ []) ∧ (∀ p ∈ (storing [(0x40, 1)]).core.stores, (2 : BitVec 16).getLsbD p.cls.val = false)
    ∧ (∀ p ∈ (storing [(unitPA ⟨0, 0, 0⟩, 1)]).core.stores, (∀ e ∈ p.bytes, inReach 1 base.core.key e.1 = false) ∧ ∀ e ∈ p.addrs, inReach 1 base.core.key e.2 = false)
    ∧ (∃ l ∈ (loading (.reg 5 .n8) [(0, 0x40)] 1 base).core.loads, (1 : BitVec 16).getLsbD l.cls.val = true ∧ l.items = [(0, 0x40)] ∧ l.got = none)
    ∧ (let s : State := { base with sigs := [sigOn 0] }; ∃ m ∈ s.sigs, m.applied = false ∧ m.ord = some (s.core.key, 0, 0))
    ∧ (base.core.tq = [] ∧ base.core.trun = []) ∧ (on (fun c => { c with trun := [qrec xfill] }) base).core.trun ≠ []
    ∧ (∀ k : Fin 8, (255 : BitVec 8).getLsbD k.val = true → (base.core.tok.get k).ret = (base.core.tok.get k).enq)
    ∧ (let s := on (·.setTok 7 (fun _ => ⟨256, 255⟩)) base; (128 : BitVec 8).getLsbD 7 = true ∧ (s.core.tok.get 7).enq = (s.core.tok.get 7).ret + 1) := by decide +kernel

/-- A word of R305 on 32 bits: addition of 3. -/
def add3 : Rmw := ⟨0, .n32, 3, 0⟩
/-- That word on its way to 0x40. -/
def adding : State := on (fun c => { c with num := 1, stores := [⟨0, 0, addressed 0x40 (List.replicate 4 0), none, [], 0, 0, [page0], false, none, some add3⟩]
                                            loads := [⟨0, 0, .reg 5 .n32, [(0, 0x40)], 4, true, 0, 0, 0, none, none, 0, true, [page0]⟩] }) base

theorem witness_AtomicWords :
    (∃ s, s = regs [(1, 0x40), (9, 3)] ∧ atomicWord (.aadd 0 0 .n32 5 9 1 0) s.core 0 0 5 9 1 0 add3 ∧ translate seqReach .write 0x40 s = .ok (0x40, page0)
      ∧ s.slabBusy 0x40 4 = false ∧ s.core.det = false ∧ s.classBusy 0 = false ∧ s.spoiled 0x40 4 = false ∧ s.core.fits 32 (extendSize .n32 (s.num 0x40 4)))
    ∧ (adding.classBusy 0 = true ∧ ¬ base.core.fits 32 (extendSize .n32 7))
    ∧ (det.core.det = true ∧ detRegion det.core.key 0x40 = true ∧ det.core.precise ∧ translate seqReach .write 0x40 det = .ok (0x40, page0) ∧ det.slabBusy 0x40 8 = false
      ∧ (∀ j < 4, 0x40 + j ∉ det.core.resv) ∧ det.core.log = [] ∧ (logFresh det.core.log det.core.resv).length < 16384)
    ∧ (let e := redEntry 0 MemSize.n32.code 0x40 5
       e.isRed = true ∧ e.loc = 0x40 ∧ e.op = 0 ∧ e.size = MemSize.n32.code ∧ e.data.toNat < 2 ^ 32) :=
  ⟨⟨_, rfl, Or.inl ⟨.n32, rfl, Or.inl ⟨rfl, rfl⟩⟩, by unfold Core.fits; decide +kernel⟩, by unfold Core.fits; decide +kernel, by decide +kernel, by decide +kernel⟩

theorem witness_AtomicWords_home : adding.Sound ∧ adding.place.n = 0
    ∧ (∃ p, adding.core.stores.find? (fun q => q.cls == 0) = some p ∧ p.rmw = some add3 ∧ p.bytes = addressed 0x40 (List.replicate (sizeBytes add3.sz) 0)
      ∧ adding.core.reached p.at_ = true ∧ adding.core.performable p = true ∧ adding.sigBefore adding.core.key 0 p.num = false ∧ adding.outranked p = false)
    ∧ add3.op ≤ 10 ∧ add3.x < 2 ^ (8 * sizeBytes add3.sz) ∧ adding.spoiled 0x40 (sizeBytes add3.sz) = false := by
  refine ⟨by unfold State.Sound; decide +kernel, by decide, ⟨_, rfl, ?_⟩, ?_⟩ <;> decide +kernel

theorem witness_BarrierWordsAndHomes :
    ((⟨2, 0, 0, 0, none⟩ : Barrier).ac.toNat + 1 < 2 ∧ (2 : Nat) ≤ (⟨2, 1, 0xFFFF, 0, some 3⟩ : Barrier).ac.toNat + 1)
    ∧ (base.Keyed ∧ barKey base.core.key .core 95 ≠ barKey base.core.key .core 94 ∧ barKey base.core.key .quad 31 ≠ barKey base.core.key .die 31)
    ∧ (let s := bar3 2 0 7 base; (s.getBar (barKey s.core.key .core 3)).ec ≠ 0 ∧ s.accessBusy = false ∧ s.core.wait = none ∧ s.core.fits 5 7)
    ∧ ((on (fun c => { c with wait := some (.phase 0xFFFF) }) base).core.wait = some (.phase 0xFFFF) ∧ 1 ≤ ((0x7FFE : BitVec 16) - BitVec.ofNat 16 0xFFFF).toNat
      ∧ ((0x7FFE : BitVec 16) - BitVec.ofNat 16 0xFFFF).toNat ≤ 32767)
    ∧ ((on asPriv base).core.priv = true ∧ (0x5_0001_0002 / 2 ^ 17 % 2 ^ 15 = 0) ∧ (base.getBar (barKey base.core.key .core 3)).ec = 0 ∧ base.core.precise) := by
  refine ⟨by decide, ⟨base_keyed, by decide, by decide⟩, ?_, by decide, by decide +kernel⟩; unfold Core.fits; decide +kernel

theorem witness_ControlRegistersAndTime : (ctlAssigned 0x00F = true ∨ ctlAssigned 0 = true) ∧ (base.Keyed ∧ ctlAssigned 0x101 = true ∧ (on asPriv base).core.priv = true)
    ∧ base.core.fits 5 (base.ctlValue 0) ∧ base.core.precise ∧ (on (fun c => { c with vq := [⟨0, .mpop, .rne, 0, 0, 0, none, 0⟩] }) base).core.vectorIdle = false
    ∧ base.core.fits 5 (BitVec.ofNat 64 base.coreTick) := by
  refine ⟨by decide, ⟨base_keyed, by decide, by decide⟩, ?_⟩; unfold Core.fits; decide +kernel

theorem witness_TmarkDiscardsAndWaits : (let s := on asPriv base; s.core.priv = true ∧ s.Keyed ∧ s.core.wait = none ∧ s.core.stores = [] ∧ (∀ c ∈ s.allCores, c.tq.length < 16)
      ∧ inRange 0 0 0x3FFFFF page0 = true ∧ inRange 0 0 0x400000 page0 = false)
    ∧ (let s := on asPriv (storing [(0x40, 1)]); s.core.priv = true ∧ s.core.wait = none ∧ s.core.stores ≠ [])
    ∧ (let s := on (fun c => { asPriv c with tq := List.replicate 16 (qrec xfill) }) base; ∃ c ∈ s.allCores, 16 ≤ c.tq.length)
    ∧ (let s := on (fun c => { asPriv c with wait := some (.marks [(c.key, 1)]), num := 2, tq := [{ qrec xfill with number := 1 }] }) base
       s.core.wait = some (.marks [(s.core.key, 1)]) ∧ holdsOld 2 0 0 1 (s.getCore s.core.key) = false ∧ s.sigs = [])
    ∧ (let s : State := { on (fun c => { asPriv c with wait := some (.marks [(c.key, 1)]) }) base with sigs := [sigOn 0] }
       ∃ x ∈ s.sigs, x.applied = false ∧ x.trans = [page0] ∧ x.ord = some (s.core.key, 0, 0)) := by
  unfold State.Keyed; decide +kernel

/-- VADD.fp32 with a step of repeat: v1, v2, v3. -/
def vadd123 : Word := q 0x80 0 1 2 3 0 0x100000

theorem witness_LoopAndRepeatWords : (3 : BitVec 16) ≠ 0 ∧ ((regs [(3, 0x1_0000_0000)]).core.rd 3).toNat % 2 ^ 32 = 0 ∧ ((regs [(3, -1)]).core.rd 3).toNat % 2 ^ 32 ≠ 0
    ∧ (let s := code2 0 vadd123 base
       (s.fetch (s.core.pc + 8)).toNat / 2 ^ 56 = 0x80 ∧ decode (s.fetch (s.core.pc + 8)) = .ok ⟨false, 0, .vadd .fp32 none false 1 2 3⟩
        ∧ repBad (s.fetch (s.core.pc + 8)) (.vadd .fp32 none false 1 2 3) 28 0b1110 0 = false ∧ repBad (s.fetch (s.core.pc + 8)) (.vadd .fp32 none false 1 2 3) 29 0b1110 0 = true
        ∧ s.core.rp 0 ≠ false ∧ s.core.repResume = false ∧ s.core.rep = none)
    ∧ (let s := on (fun c => { c with repResume := true, repHeld := some c.pc, ctl := { c.ctl with reppos := 3 } }) base
       s.core.repResume = true ∧ s.core.repHeld = some s.core.pc ∧ s.core.ctl.reppos.toNat % 64 ≤ 3 ∧ 2 < s.core.ctl.reppos.toNat % 64)
    ∧ decode 0x8050_0000_0000_0001#64 = .error 3
    ∧ (let s := code2 0 0x8001_0040_4000_0000#64 base; s.core.rp 1 = false ∧ ∀ n, (s.core.lc.get n).active = false)
    ∧ ¬ ((base.fetch (base.core.pc + 8)).toNat / 2 ^ 56 ∈ [0x80, 0x81, 0x82, 0x83, 0x8A, 0x8B, 0x8C, 0x8E, 0x8F, 0x90, 0x92]) := by decide +kernel

theorem witness_VectorWordsDispatchOrFault : (¬ (base.core.priv = true ∧ base.core.fixed = true) ∧ base.core.vq.length < 16 ∧ base.core.maskDepth ≠ 16 ∧ base.core.precise ∧ base.core.fits 32 0)
    ∧ ((on (fun c => { c with masks := [1] }) base).core.maskDepth ≠ 0 ∧ (on (fun c => { c with masks := List.replicate 16 1 }) base).core.masks.length = 16 ∧ base.core.masks = [])
    ∧ (let s := on (fun c => asPriv { c with ctl := { c.ctl with mode := 2 } }) base; s.core.priv = true ∧ s.core.fixed = true ∧ s.core.precise)
    ∧ (let s := on (fun c => { c with ctl := { c.ctl with gwcfg := 0x10038410 } }) base; gwG s.core.ctl.gwcfg ≠ 0 ∧ gwK s.core.ctl.gwcfg ≠ 0) ∧ gwG base.core.ctl.gwcfg = 0 := by
  unfold Core.fits; decide +kernel

theorem witness_VectorElementResults : (∀ u, swf 0 (base.core.planes.get u) = true) ∧ base.core.topMask.getLsbD 1023 = true ∧ (4 : Fin 5) ≠ 3 := by decide +kernel

/-- Planes with 1.0, a NaN, NaV, a logarithm and zero (plane 1), 16 ones of E4M3 and of BF16 in the places that element 0 of VDOT8 and VDOTB reads
(planes 2 and 4), 1.0 (plane 3), and the scales 127 and 255 (plane 5). -/
def planed : Core :=
  let ones := fun (x : Half) => [(0, x), (64, x), (128, x), (192, x)]
  { base.core with planes := ((((base.core.planes.set 1 [(0, 0x3F800000), (1, 0x7FC00000), (2, 0x20), (3, 1)]).set 2 (ones 0x38383838)).set 3 [(0, 0x3F800000)]).set 4
      (ones 0x3F803F80)).set 5 [(0, 127), (1, 255)] }

theorem witness_VectorTypedResults :
    (∀ u, swf 0 (planed.planes.get u) = true) ∧ codeValue (ElemTy.ffmt .fp32) (subOf .fp32 (planed.elem 1 0) 0) 1 ∧ codeValue (ElemTy.ffmt .fp32) (subOf .fp32 (planed.elem 3 0) 0) 1
    ∧ (finiteIn .fp32 (1 + 1) ∧ finiteIn .fp32 (1 * 1 + 1)) ∧ isNaNValue (FFmt.fp32.val (subOf .fp32 (planed.elem 1 1) 0))
    ∧ (ElemTy.n8 ∈ [ElemTy.s32, .n32, .s8, .n8] ∧ (4 : Fin 5) ≠ 3)
    ∧ (subOf .lg6 (planed.elem 1 2) 0 = navCode true ∧ subOf .lg6 (planed.elem 1 4) 0 = 0 ∧ ∃ n m, lgVal true (subOf .lg6 (planed.elem 1 3) 0) = .lg n m)
    ∧ ((ElemTy.fp32.count < ElemTy.s8.count ∧ 0 + 0 < ElemTy.s8.count) ∧ ElemTy.s8 ≠ .fp64 ∧ ElemTy.fp32 ≠ .fp64) ∧ finiteIn .fp32 (ElemTy.s32.int 1) :=
  ⟨by decide +kernel, codeValue_one, codeValue_one, ⟨⟨by norm_num, _, codeValue_top, by norm_num [dyadic]⟩, by norm_num, _, codeValue_top, by norm_num [dyadic]⟩, trivial, by decide +kernel,
    ⟨by decide +kernel, by decide +kernel, _, _, rfl⟩, by decide +kernel, by norm_num [ElemTy.int, sintOf, ElemTy.signed, ElemTy.width], _, codeValue_top, by norm_num [dyadic, ElemTy.int, sintOf, ElemTy.signed, ElemTy.width]⟩

theorem codeValue_e4m3 : codeValue FFmt.e4m3 0x38 1 := ⟨by decide, false, 8, -3, by decide +kernel, by norm_num [dyadic]⟩
theorem codeValue_bf16 : codeValue FFmt.bf16 0x3F80 1 := ⟨by decide, false, 128, -7, by decide +kernel, by norm_num [dyadic]⟩

theorem witness_VectorPlaneResults :
    (∀ u, swf 0 (planed.planes.get u) = true) ∧ planed.topMask.getLsbD (16 * 63) = true
    ∧ ((∀ j < 16, subOf .e4m3 (planed.elem 2 (64 * (j / 4))) (j % 4) = 0x38) ∧ codeValue FFmt.e4m3 0x38 1 ∧ ((2 : ℚ) ^ ((-23 : Int) + 23) ≤ |1 * 1| ∧ |(1 : ℚ) * 1| < (2 : ℚ) ^ ((-23 : Int) + 24))
      ∧ finiteIn .fp32 (((List.range 16).map (fun _ => (⌊(1 : ℚ) * 1 / (2 : ℚ) ^ (-23 : Int)⌋ : ℚ) * (2 : ℚ) ^ (-23 : Int))).sum + 1))
    ∧ ((∀ j < 8, subOf .bf16 (planed.elem 4 (64 * (j / 2))) (j % 2) = 0x3F80) ∧ codeValue FFmt.bf16 0x3F80 1 ∧ finiteIn .fp32 (((List.range 8).map (fun _ => (1 : ℚ) * 1)).sum + 1))
    ∧ (codeValue FFmt.fp32 (planed.elem 3 0).toNat 1 ∧ (planed.elem 5 0).toNat % 256 = 127 ∧ (planed.elem 5 1).toNat % 256 = 255 ∧ finiteIn .fp32 (1 * (2 : ℚ) ^ ((127 : Int) - 127)))
    ∧ finiteIn .fp32 (1 / 1) ∧ (gwG 0x10038410 ≠ 0 ∧ gwK 0x10038410 ≠ 0) := by
  have f : ⌊((1 : ℚ) * 1 / (2 : ℚ) ^ (-23 : Int))⌋ = 8388608 := by norm_num
  have r : finiteIn .fp32 1 := ⟨by norm_num, _, codeValue_top, by norm_num [dyadic]⟩
  refine ⟨by decide +kernel, by decide +kernel, ⟨by decide +kernel, codeValue_e4m3, by norm_num, ?_⟩, ⟨by decide +kernel, codeValue_bf16, ?_⟩,
    ⟨codeValue_one, by decide +kernel, by decide +kernel, by simpa using r⟩, by simpa using r, by decide +kernel⟩
  · rw [f]; exact ⟨by norm_num [List.range_succ], _, codeValue_top, by norm_num [List.range_succ, dyadic]⟩
  · exact ⟨by norm_num [List.range_succ], _, codeValue_top, by norm_num [List.range_succ, dyadic]⟩

theorem witness_VectorIssueAndComplete :
    (let s := on (fun c => { c with num := 1, vq := [⟨0, .vand 3 1 2, .rne, 0, 0, 0, none, 0⟩] }) base; ∃ v, s.core.vq = v :: [] ∧ s.core.mayIssue v.instr = true ∧ v.ready ≤ s.core.tau ∧ s.core.vfree ≤ s.core.tau ∧ s.core.begun = true ∧ s.core.verdict = some false)
    ∧ (∃ v res, (⟨0, .vand 3 1 2, .rne, 0, 0, 0, some ⟨[(3072, 1)], 0, some (5, 7)⟩, 1⟩ : VWord) = v ∧ v.result = some res ∧ v.ready ≤ (later base).core.tau ∧ res.greg.map (·.1) ≠ some 6)
    ∧ (∀ u, swf 0 (base.core.planes.get u) = true) ∧ ([3072].Nodup ∧ 3072 < 32 * 1024 ∧ 3072 / 1024 = (3 : VReg).val) :=
  ⟨⟨_, rfl, by decide +kernel⟩, ⟨_, _, rfl, rfl, by decide, by decide⟩, by decide +kernel⟩

/-- The addresses of the elements of a row form at a base with the pitch of B = 0 and one byte an element. -/
def rows64 (base : Nat) : List (Nat × Nat) := (List.range 1024).map (fun e => (e, (((base : Int) + (e / 64 : Nat) * 64 + (e % 64 * 1 : Nat)) % 2 ^ 56).toNat))
/-- Do the addresses of a row form translate, and pass a test there? -/
def rowsAt (acc : Access) (base : Nat) (s : State) (f : List (Nat × Nat) → State → Bool) : Bool :=
  match translateAll acc (rows64 base) s with | .ok x => f x.1 x.2.2 | _ => false
/-- A pair whose new range covers 64 bytes at 0x2000. -/
def covered : State := base.setDie { base.ownDie with pairs := [⟨0x2000, 0, [(0x2000, 64, 0)], [(0x3000, 64, 0)], 64, 64, 1, 0, false, false, false⟩] }

-- the 1,024 addresses of a row form at the end of the page; those of an indexed form with one active element; a covered row; a task's log
theorem witness_VectorMemoryDispatch :
    (¬ (base.core.priv = true ∧ base.core.fixed = true) ∧ base.core.vq.length < 16 ∧ ∀ v, swf 0 (base.core.planes.get v) = true)
    ∧ rowsAt .read 0x3FFC00 base (fun l _ => l.getLast? == some (1023, 0x3FFFFF)) = true
    ∧ rowsAt .write 0x3FFC00 base (fun l u => l.all (fun x => !u.slabBusy x.2 1)) = true
    ∧ (match translateAll .write (rows64 0x3FFC01) base with | .error e => e == (0x400000, .fault 2) | _ => false) = true
    ∧ rowsAt .write 0x2000 covered (fun l u => ((l.zip (rows64 0x2000)).find? (fun x => u.slabBusy x.1.2 1)).isSome) = true
    ∧ (let d := on (fun c => { c with masks := [1 <<< 7] }) det
       d.core.precise ∧ rowsAt .write 0x2000 d (fun l u => d.core.logs l && l.all (fun x => detRegion d.core.key x.2) && u.core.loads.isEmpty
         && (logShort d.core.log d.core.resv (l.map (·.2))).isNone
         && (match logPlain d.core.log d.core.resv (bytesAt 0x2007 1 5) with | .ok _ => true | _ => false)) = true)
    ∧ (on (fun c => { c with vq := [⟨0, .mpop, .rne, 0, 0, 0, none, 0⟩] }) det).core.vectorIdle = false
    ∧ (let s := on (fun c => { putPlanes [(2, 7, -1)] c with masks := [1 <<< 7] }) base
       (s.core.active.map (fun e => (e, (((0x40 : Int) + (s.core.elem 2 e).toInt * 4) % 2 ^ 56).toNat)) = [(7, 0x3C)] ∧ s.core.precise
        ∧ (match translateAll .write [(7, 0x3C)] s with | .ok x => x.1 == [(7, 0x3C)] && !x.2.2.slabBusy 0x3C 4 | _ => false) = true)
      ∧ ∀ v, swf 0 (s.core.planes.get v) = true) := by unfold bytesAt; decide +kernel

/-! ### Records (R261 to R287, R318 to R332) -/

/-- The record of these words, its waits over. -/
def gated (l : List Nat) : QRec := { qrec l with gate := some true }
/-- The same at the head of its engine's queue; a product record that reads die scratchpad. -/
def headRec (l : List Nat) (s : State) : State :=
  on (fun c => if rOp (rw8 l) < 0x40 then { c with pq := [{ gated l with lead := 96, gwcfg := c.ctl.gwcfg }], num := 1 } else { c with tq := [gated l], num := 1 }) s
/-- Where an event takes place, what follows. -/
def go (i : Instr) (s : State) : State := match exec i s with | .next t => t | _ => s
/-- A kind of record has its turn in the core cycles at these distances from now. -/
def cycles (i : Instr) (ts : List Nat) (s : State) : State := ts.foldl (fun u k => go i (go i (on (fun c => { c with tau := s.core.tau + k }) u))) s
/-- The writes of the first running record of either engine perform, those without a cycle one by one. -/
def settled (s : State) : State :=
  [1, 2, 1, 2].foldl (fun s n => go (.storePerform 0) { s with place := { s.place with n := n } }) (((later s).settlePuts false).settlePuts true)
/-- The record of these words, enqueued from registers, starts in the next core cycle and moves in those at `ts` from there, and its writes
perform. -/
def runs (i : Instr) (l : List Nat) (ts : List Nat) (s : State) (f : State → Bool) : Bool :=
  after (exec (.enqr 0) (inRegs l s)) (fun t => f (settled (cycles i ts (on Core.latchGates t))))
/-- The same from the head of the queue. -/
def moves (i : Instr) (l : List Nat) (ts : List Nat) (s : State) (f : State → Bool) : Bool := f (settled (cycles i ts (headRec l s)))
/-- An XSLAB record of one row of one element, fp32 to bf16, rows apart by one element. -/
def slab : List Nat := [rec0 0x48 0, 0, 0x1000 + 2 ^ 48, 16, 0x2000 + 2 ^ 48, 16, 2 * 2 ^ 59 + 3 * 2 ^ 54]
/-- A control word with types ST and DT (Table 12.3). -/
def types (st dt : Nat) : Nat := st * 2 ^ 59 + dt * 2 ^ 54
/-- Entry 0 of bank 0, drained to fp32. -/
def entry0 (s : State) : Nat := ((s.core.accAt 0).drain .fp32 .rne false).1

-- D stands at 0x1000, A at 0x2000, B at 0x3000
theorem test_transfer_records : [
    runs .xfill xfill [0] base (fun t => t.num 0x1000 8 == 7 && t.core.trun.map (·.done) == [true]),
    runs .xcopy xcopy [0] (mem [(0x2000, 0x1122334455667788)] base) (fun t => t.num 0x1000 8 == 0x55667788),
    runs .xcvt [rec0 0x41 0, 0, 0x1000, 0, 0x2000, 0, types 2 3] [0] (mem [(0x2000, 0x3F808000)] base) (fun t => t.num 0x1000 8 == 0x3F80),
    runs .xgath [rec0 0x43 16, 0, 0x1000, 0, 0x2000 + 4 * 2 ^ 48, 0, 0x3000] [0] (mem [(0x2008, 9), (0x3000, 2)] base) (fun t => t.num 0x1000 8 == 9),
    runs .xgath [rec0 0x43 16, 0, 0x1000, 0, 0x2000 + 4 * 2 ^ 48, 0, 0x3000] [0] (mem [(0x1000, 5), (0x2010, 9), (0x3000, 4)] base) (fun t => t.num 0x1000 8 == 0),
    runs .xscat [rec0 0x44 16, 0, 0x1000 + 4 * 2 ^ 48, 0, 0x2000, 0, 0x3000] [0] (mem [(0x2000, 9), (0x3000, 3)] base) (fun t => t.num 0x100C 4 == 9),
    runs .xput [rec0 0x4A 16, 0, 0x1000, 0, 0x2000] [0] (mem [(0x2000, 9)] base) (fun t => t.num 0x1000 8 == 9),
    runs .xget [rec0 0x4B 16, 0, 0x1000, 0, 0x2000] [0] (mem [(0x2000, 9)] base) (fun t => t.num 0x1000 8 == 9),
    after (exec .xtmark (headRec [rec0 0x4E 0] base)) (fun t => t.core.tq == [] && t.core.trun == []),
    runs .xslabRelease [rec0 0x48 2, 0, 0, 0, 0x2000] [0] base (fun t => t.core.trun.map (·.done) == [true]),
    runs .xslab slab [0] (mem [(0x2000, 0x3F808000)] base) (fun t => t.num 0x1000 8 == 0x3F80 && t.core.trun.map (·.done) == [true]),
    runs .xsig [rec0 0x4D 0, 0, 0x1000, 0, 3] [0] base (fun t => t.sigs.map (fun m => (m.addr, m.val, m.isMax)) == [(0x1000, 3, false)]),
    runs .xsend [rec0 0x49 16, 0, 0x1000, 0, 0x2000] [0] (mem [(0x2000, 9)] { base with modules := 1 }) (fun t => t.core.trun.length == 1 && t.ownDie.up.queue.map (·.1.payload) == [[9, 0, 0, 0]])].all id = true := by
  decide +kernel

/-- A stencil in one dimension with the centre weight 2, shift 1, allowed at both parities. -/
def stenciled : State := on (fun c => { c with stencils := c.stencils.set 0 (some ⟨(List.range 27).map (fun i => if i = 13 then 2 else 0), 1, 0, 1, List.replicate 8 0x7FFFFFF⟩) })
  (mem [(0x2000, 0x3F800000)] base)

theorem test_grid_records : [
    runs .xsten [rec0 0x47 0, 0, 0x1000, 0, 0x2000, 0, types 2 2] [0] stenciled (fun t => t.num 0x1000 8 == 0x3F800000),
    runs .xrestr [rec0 0x45 0, 0, 0x1000, 0, 0x2000, 0, types 2 2] [0] stenciled (fun t => t.num 0x1000 8 == 0x3F800000),
    runs .xprol [rec0 0x46 0, 0, 0x1000, 0, 0x2000, 0, types 2 3] [0] stenciled (fun t => t.num 0x1000 8 == 0x3F80),
    runs .xsten [rec0 0x47 0, 0, 0x1000, 0, 0x2000, 0, types 2 2 + 2 ^ 47] [0] stenciled (fun t => t.num 0x1000 8 == 0 && t.core.trun.map (·.flags) == [Flags.nv]),
    runs .xcopyTable [rec0 0x40 1, 0, 1, 0, 0x2000] [0, 1] (mem [(0x2000 + 56, 0x010001)] base) (fun t => (t.core.stencils.get 1).map (fun x => (x.shift, x.dims)) == some (1, 1))].all id = true := by
  decide +kernel

/-- An entry of TAG 1 with the value m, and of TAG 3. -/
def floatEntry (m : BitVec 128) : AccEntry := { AccEntry.zero with m := m, tag := 1 }
/-- Entry k of bank 0 set, GWCFG for packing with g = 16, K = 3. -/
def entries (l : List (Nat × AccEntry)) : State :=
  on (fun c => { c with acc := l.foldl (fun a e => sput AccEntry.zero a e.1 e.2) c.acc, ctl := { c.ctl with gwcfg := 0x10038410 } }) base
/-- GWCFG for packing with g = 16, K = 3. -/
def packing (s : State) : State := on (fun c => { c with ctl := { c.ctl with gwcfg := 0x10038410 } }) s

theorem test_product_records : [
    runs .pzero pzero [0] (entries [(15, floatEntry 1), (16, floatEntry 1)]) (fun t => t.core.accAt 15 == AccEntry.zero && t.core.accAt 16 == floatEntry 1),
    runs .pnorm [rec0 0x1A 0, 0, 0, 0, 0x100] [0] (entries [(3, { AccEntry.zero with m := 5, tag := 2 })]) (fun t => (t.core.accAt 3).head == 124 && (t.core.accAt 3).m == 5),
    runs .pload [rec0 0x1D 0, 0, 0x100, 0, 0x2000] [0, 96] (mem [(0x2000, 5), (0x2010, 0x2000000A_1000_0003#64)] base) (fun t => t.core.accAt 0 == { AccEntry.zero with m := 5, exp := 3, tag := 1, head := 10, ninf := true }),
    moves .pdrain [rec0 0x1B 0, 0, 0x1000, 0, 0x100, 0, 2 * 2 ^ 23] [0, 96] (entries [(0, floatEntry 3), (15, floatEntry (-1))]) (fun t => t.num 0x1000 4 == 0x40400000 && t.num 0x103C 4 == 0xBF800000),
    moves .pxtp [rec0 0x12 0, 0, 0x1000, 0, 0x100, 0, 0x2000] [0, 96] (entries [(0, { AccEntry.zero with m := 0x0004_FFFE_0003, tag := 3 })]) (fun t => t.num 0x1000 8 == 0xFFFFFFFE_00000003 && t.num 0x1008 4 == 5),
    moves .pmulp [rec0 0x11 3, 0, 0x100, 0, 0x2000, 0, 0x3000] [0, 96] (packing (mem [(0x2000, 3), (0x3000, 5)] base)) (fun t => (t.core.accAt 0).m == 15 && (t.core.accAt 0).tag == 3),
    runs .pmul [rec0 0x10 3, 0, 4, 0, 0x2000, 0, 0x3000] [0, 96] (packing (mem [(0x2000, 3), (0x3000, 5)] base)) (fun t => t.core.elem 4 0 == 15),
    runs .pscale [rec0 0x19 0, 0, 0x101, 0, 0x100, 0, 0x2000] [0, 96] (mem [(0x2000, 128), (0x2010, 127)] (entries [(0, floatEntry 3)]))
      (fun t => t.core.accAt 0 == floatEntry 3 && ((t.core.accAt 1024).drain .fp32 .rne false).1 == 0x40C00000)].all id = true := by decide +kernel

-- A[0][0] and B[0][0] of the tiles, and the sum over the depth
theorem test_pdot_f64 : runs .pdotF64 [rec0 0x13 0, 0, 0x100, 0, 0x2000, 0, 0x3000] [0, 96] (mem [(0x2000, 0x4000000000000000), (0x3000, 0x4008000000000000)] base)
    (fun t => entry0 t == 0x40C00000) = true := by decide +kernel
theorem test_pdot_f32 : runs .pdotF32 [rec0 0x14 0, 0, 0x100, 0, 0x2000, 0, 0x3000] [0, 96] (mem [(0x2000, 0x3F800000_40000000), (0x3000, 0x40400000), (0x3040, 0x3F800000)] base)
    (fun t => entry0 t == 0x40E00000) = true := by decide +kernel
theorem test_pdot_bf16 : runs .pdotBf16 [rec0 0x15 0, 0, 0x100, 0, 0x2000, 0, 0x3000] [0, 96] (mem [(0x2000, 0x4000), (0x3000, 0x4040)] base)
    (fun t => entry0 t == 0x40C00000) = true := by decide +kernel
-- R73's products: LG6 0x13 times LG8 0x4A contributes 2³⁰; also e = 8 (.66) and e = 12 (.88)
theorem test_plog_68 : runs .plog68 [rec0 0x17 0, 0, 0x100, 0, 0x2000, 0, 0x3000] [0, 96] (mem [(0x2000, 0x13), (0x3000, 0x4A)] base)
    (fun t => (t.core.accAt 0).m == 2 ^ 30 && (t.core.accAt 0).tag == 2) = true := by decide +kernel
theorem test_plog_66 : runs .plog66 [rec0 0x16 0, 0, 0x100, 0, 0x2000, 0, 0x3000] [0, 96] (mem [(0x2000, 0x13), (0x3000, 0x11)] base)
    (fun t => (t.core.accAt 0).m == 2 ^ 29) = true := by decide +kernel
theorem test_plog_88 : runs .plog88 [rec0 0x18 0, 0, 0x100, 0, 0x2000, 0, 0x3000] [0, 96] (mem [(0x2000, 0x42), (0x3000, 0x4A)] base)
    (fun t => (t.core.accAt 0).m == 5793 * 2 ^ 17) = true := by decide +kernel

theorem test_record_retires :
    after (exec (.recordRetire true) (on (fun c => { c.setTok 2 (fun _ => ⟨1, 0⟩) with trun := [{ qrec [rec0 0x42 16 + 2 ^ 30 + 2 * 2 ^ 31 + 4 * 2 ^ 34, 0, 0x1000, 0, 7] with done := true, flags := 1 }] }) base))
      (fun t => t.core.trun == [] && t.core.tok.get 2 == ⟨1, 1⟩ && t.core.ctl.fpcs == 0x8000) = true
    ∧ after (exec (.recordRetire false) (on (fun c => { c with prun := [{ qrec pzero with done := true }] }) base)) (fun t => t.core.prun == []) = true := by decide +kernel

/-- A guard slot that reads false or is not known. -/
def slot3 (x : GuardSlot) (s : State) : State := on (fun c => { c with gs := c.gs.set 3 x }) s

/-- An XFILL guarded by slot 3. -/
def guarded : List Nat := [rec0 0x42 16 + 3 * 2 ^ 48, 0, 0x1000, 0, 7]

-- R201: a record whose slot reads false does nothing; one whose slot is unresolved does not start
theorem test_guarded_records : runs .xfill guarded [0] (slot3 (.resolved false) base) (fun t => t.num 0x1000 8 == 0 && t.core.trun.map (·.done) == [true]) = true
    ∧ runs .xfill guarded [0] (slot3 .unresolved base) (fun t => t.num 0x1000 8 == 0 && t.core.tq.length == 1 && t.core.trun == []) = true := by decide +kernel

/-! ### States that meet the hypotheses of the obligations: records -/

/-- The words of every product record in its default form. -/
def productWords : List (Nat × Instr) := [(0x10, .pmul), (0x11, .pmulp), (0x12, .pxtp), (0x13, .pdotF64), (0x14, .pdotF32), (0x15, .pdotBf16), (0x16, .plog66),
  (0x17, .plog68), (0x18, .plog88), (0x19, .pscale), (0x1A, .pnorm), (0x1B, .pdrain), (0x1C, .pzero), (0x1D, .pload)]
/-- Do an open record at the head, and one that runs in this core cycle, meet the conditions of kind i? -/
def readyHead (e : Nat × Instr) : Bool :=
  base.core.isOpen && (base.core.productStart (gated [rec0 e.1 0])).isSome && base.core.dueNow (gated [rec0 e.1 0])
    && decodeRecord ((gated [rec0 e.1 0]).words.get 0).toNat == some e.2

/-- A record that runs: what the cycle of its first reads leaves. -/
def reading (i : Instr) (l : List Nat) : QRec := (cycles i [0] (headRec l (packing base))).core.prun.headD (qrec [])

theorem witness_ProductRecordsStart : productWords.all readyHead = true
    ∧ (slot3 (.resolved false) base).core.latch (qrec [rec0 0x1C 0 + 3 * 2 ^ 48]) = { qrec [rec0 0x1C 0 + 3 * 2 ^ 48] with gate := some false, off := true }
    ∧ (base.core.fixed = false ∧ base.core.slow = false ∧ base.core.behind (gated pzero) true = false ∧ base.core.prun = [])
    ∧ (let c := (on (fun c => { c with ctl := { c.ctl with mode := 2 } }) base).core; c.fixed = true ∧ c.behind (qrec pzero) false = false ∧ c.productStart (qrec pzero) = some 0)
    ∧ (cycles .pzero [0, 96] (headRec pzero base)).core.prun.map (·.done) = [true] := by decide +kernel

theorem witness_ProductRecordsStart_writes :
    (base.Sound ∧ det.Sound ∧ base.core.det = false ∧ det.core.det = true ∧ det.core.failed = false ∧ (on (fun c => { c with phase := .ending .fault }) det).core.failed = true)
    ∧ (let pa := pagePA det.core.key (qrec xcopy).pages (wrapN 64 0x1000); detRegion det.core.key pa = true ∧ pa + 64 / 8 ≤ 2 ^ 56)
    ∧ ((∀ u, swf 0 (base.core.planes.get u) = true) ∧ swf 0 base.core.bypass = true ∧ swf AccEntry.zero base.core.acc = true ∧ 63 < 16 * perRow 128)
    ∧ [((0x1000 : Int), 4, 7), (0x1004, 8, 9)].Pairwise (fun x y =>
        pagePA base.core.key [page0] (wrapN 64 x.1) + x.2.1 ≤ pagePA base.core.key [page0] (wrapN 64 y.1) ∨ pagePA base.core.key [page0] (wrapN 64 y.1) + y.2.1 ≤ pagePA base.core.key [page0] (wrapN 64 x.1))
    ∧ (let s := cycles .pzero [0] (headRec pzero base); (s.core.prun.map (·.number)).Nodup ∧ s.core.prun ≠ []) := by
  refine ⟨⟨base_sound, by unfold State.Sound; decide +kernel, by decide +kernel⟩, by decide +kernel, by decide +kernel, by decide +kernel, by decide +kernel⟩

theorem witness_ProductRecordsStart_issues :
    (let r := reading .pdotF64 [rec0 0x13 0, 1, 0x100, 0, 0x2000, 0, 0x3000]
     16 * (r.operand base 2 0).length = (accNames r.words).1 ∧ 0 ≤ accFirst r.words 2 (issueAt r.words 0) ∧ r.namedLater 0 0 = true ∧ r.namedLater 1 0 = false)
    ∧ (let r := reading .pmulp [rec0 0x11 3, 0, 0x100, 0, 0x2000, 0, 0x3000]
       let n := (r.operand base 2 0).flatten.length
       n = (r.operand base 3 0).flatten.length ∧ n = (accNames r.words).1 ∧ 0 < n ∧ 0 ≤ accFirst r.words 2 (issueAt r.words 0))
    ∧ 0 < ((reading .pload [rec0 0x1D 0, 0, 0x100, 0, 0x2000]).operand base 2 0).flatten.length
    ∧ recTy? (dFmt (rw8 [rec0 0x1B 0, 0, 0x1000, 0, 0x100, 0, 2 * 2 ^ 23])) = some .fp32
    ∧ ((List.range 16).all (fun (j : Nat) => ((qrec [rec0 0x12 0, 0, 4, 0, 0x100, 0, 0x2000]).writeLag base true (.plane 4 j)) == some 0) = true ∧ rLow (rw8 [rec0 0x12 0]) = false) := by
  decide +kernel

/-- A DET task of launch 1 that is no stream. -/
def snapTask : State := on (fun c => { c with ctl := { c.ctl with mode := 16 }, task := some { blankTask with lid := 1, det := true } }) base
-- the task reads the old byte after its record's direct write, and the new one after a merge; another core reads the new one at once (R311)
theorem test_snapshot :
    (let t := RPut.perform { qrec pzero with pages := [page0] } snapTask (.val false 32 (.mem 0x1000 0) 7)
     snapTask.core.det && detRegion snapTask.core.key 0x1000 && t.num 0x1000 4 == 7 && t.taskNum 0x1000 4 == 0 && (t.unveil 1).taskNum 0x1000 4 == 7) = true := by decide +kernel
theorem witness_ProductRecordsStart_direct :
    snapTask.core.det = true ∧ (∃ k, snapTask.core.task = some k ∧ k.stream = false) ∧ detRegion snapTask.core.key (pagePA snapTask.core.key [page0] (wrapN 64 0x1000)) = true :=
  ⟨by decide +kernel, ⟨_, rfl, rfl⟩, by decide +kernel⟩

theorem witness_FixedPointAccumulationIsExact :
    (∀ p ∈ [(Num.lg false 63, Num.lg true 63)], isLog p.1 ∧ isLog p.2) ∧ AccEntry.zero.nv = false ∧ AccEntry.zero.ovf = false
    ∧ (-(2 ^ 127 : Int) ≤ AccEntry.zero.m.toInt + lgTerm (Num.lg false 63, Num.lg true 63) ∧ AccEntry.zero.m.toInt + lgTerm (Num.lg false 63, Num.lg true 63) < (2 ^ 127 : Int))
    ∧ ¬ ((BitVec.ofInt 128 (2 ^ 127 - 1)).toInt + lgTerm (Num.lg false 0, Num.lg false 0) < (2 ^ 127 : Int)) := by
  refine ⟨?_, by decide +kernel⟩; intro p hp; simp only [List.mem_singleton] at hp; subst hp; exact ⟨trivial, trivial⟩

/-- The words of every transfer record in its default form. -/
def transferWords : List (Nat × Nat × Instr) := [(0x40, 16, .xcopy), (0x40, 1, .xcopyTable), (0x41, 0, .xcvt), (0x42, 16, .xfill), (0x43, 16, .xgath), (0x44, 16, .xscat), (0x45, 0, .xrestr),
  (0x46, 0, .xprol), (0x47, 0, .xsten), (0x48, 0, .xslab), (0x48, 1, .xslab), (0x48, 2, .xslabRelease), (0x49, 16, .xsend), (0x4A, 16, .xput), (0x4B, 16, .xget),
  (0x4C, 0, .xmlr), (0x4C, 1, .xmlrSetup), (0x4D, 0, .xsig)]

/-- What the cycle of its start leaves of a transfer record that runs beat by beat, and its core. -/
def started (l : List Nat) (s : State) : State := on (fun c => { c with trun := [gated l] }) s

theorem witness_TransferRecordsRunAndCopy :
    transferWords.all (fun e => base.core.startsNow (gated [rec0 e.1 e.2.1]) && base.core.dueNow (gated [rec0 e.1 e.2.1])
      && decodeRecord ((gated [rec0 e.1 e.2.1]).words.get 0).toNat == some e.2.2) = true
    ∧ (base.core.trun = [] ∧ noneRunning .xmlrSetup base ∧ noneDue .xslab base ∧ base.core.tq.head? = none)
    ∧ (base.ownDie.pairs.length < 64 ∧ ∀ p ∈ base.ownDie.pairs, p.oldVA ≠ 0) ∧ base.Keyed
    ∧ (let s := started [rec0 0x4D 0, 0, 0x1000, 0, 3] base; ∃ r, s.core.trun = [] ++ r :: [] ∧ s.core.isOpen = true ∧ r.done = false
      ∧ decodeRecord (r.words.get 0).toNat = some .xsig ∧ rFlags r.words / 2 % 2 ≠ 1 ∧ s.sigRoom (sigSource s.core.key 1) (pagePA s.core.key r.pages 0x1000) = true)
    ∧ rOp (rw8 [rec0 0x4E 0]) = 0x4E := by
  refine ⟨by decide +kernel, ?_, by decide +kernel, base_keyed, ⟨_, rfl, by decide +kernel⟩, by decide +kernel⟩
  unfold noneRunning noneDue; decide +kernel

-- the elements of a beat; a gather and a scatter inside their bounds; types; a stencil slot; beats of XPUT and XSEND under way
theorem witness_TransferRecordsRunAndCopy_values :
    (gated xcopy).beat 0 ≠ []
    ∧ (let r := gated [rec0 0x44 16, 0, 0x1000 + 4 * 2 ^ 48, 0, 0x2000, 0, 0x3000]
       (∃ ix ∈ r.beat 0, 0 ≤ sintOf 32 (base.taskNum (pagePA base.core.key r.pages (wrapN 64 ((rDesc r.words 6).base : Int))) 4) ∧ (0 : Nat) < xLen r.words 2)
        ∧ ¬ sintOf 32 ((mem [(0x3000, 4)] base).taskNum (pagePA base.core.key r.pages 0x3000) 4) < xLen r.words 2)
    ∧ (xST (rw8 slab) = some .fp32 ∧ xDT (rw8 slab) = some .bf16)
    ∧ ((stenciled.core.stencils.get (xSlot (rw8 [rec0 0x46 0, 0, 0x1000, 0, 0x2000, 0, types 2 3]))).isSome = true)
    ∧ (let s := started [rec0 0x4A 16, 0, 0x1000, 0, 0x2000] base; ∃ r, s.core.trun = [] ++ r :: [] ∧ decodeRecord (r.words.get 0).toNat = some .xput ∧ r.done = false
      ∧ r.start + r.row ≤ s.core.tau ∧ s.core.tq.head? = none)
    ∧ (let s := started [rec0 0x49 16, 0, 0x1000, 0, 0x2000] { base with modules := 1 }; ∃ r, s.core.trun = [] ++ r :: []
      ∧ decodeRecord (r.words.get 0).toNat = some .xsend ∧ r.row < occupies r.words ∧ r.row + 1 = occupies r.words ∧ r.start + r.row ≤ s.core.tau ∧ r.done = false ∧ s.bad = []
      ∧ s.upDie s.core.key.dieKey = some (paDieKey (pagePA s.core.key r.pages 0x1003))) := by
  refine ⟨by decide +kernel, by decide +kernel, by decide +kernel, by decide +kernel, ⟨_, rfl, by decide +kernel⟩, ⟨_, rfl, by decide +kernel⟩⟩

theorem witness_RecordRetires :
    (let s := on (fun c => { c with trun := [{ qrec [rec0 0x42 16 + 96 * 2 ^ 34] with done := true }], prun := [{ qrec pzero with done := true }] }) base
     (∃ r, (if true then s.core.trun else s.core.prun)[s.place.n]? = some r ∧ r.done = true ∧ r.puts = [] ∧ rSbar r.words ≤ 96 ∧ rSbar r.words = 96)
      ∧ ∃ r, s.core.prun[s.place.n]? = some r ∧ r.done = true)
    ∧ (∀ m ∈ base.sigs, m.owner = some (base.core.key, 0) → m.applied = true) := by
  refine ⟨⟨⟨_, rfl, by decide +kernel⟩, _, rfl, by decide +kernel⟩, by decide +kernel⟩

/-- A collective of one bf16 value of group 0, from 0x2000 to 0x1000, its status at 0x3000. -/
def xmlr : QRec := { qrec [rec0 0x4C 0, 0, 0x1000, 0, 0x2000, 0, 0, 0x3000] with gate := some true }
/-- A set-up of group 0 by a descriptor at 0x4000: dies 0 and 1 of package 0, TMO 1. -/
def xset : QRec := { qrec [rec0 0x4C 1, 0, 0, 0, 0x4000, 0, 0, 0x3000] with gate := some true, data := [0x10100, 0, 0, 0, 0, 0, 0, 0, 0x10000] }
def xsetDesc (s : State) : State := mem [(0x4000, 0x10100), (0x4040, 0x10000)] s
/-- Dies 0 and 1 of package 0 as group 0, each with a running collective of core 0; `cs`: which of them contributed. -/
def grouped (cs : List (Nat × Nat)) : State :=
  let s := (mem [(0x2000, 0x3F80)] (on (fun c => { c with trun := [xmlr] }) base)).setCore { Core.reset ⟨0, 1, 0⟩ with held := [page0], trun := [{ xmlr with pages := [page0] }] }
  { s with groups := [⟨0, [⟨0, 0⟩, ⟨0, 1⟩], 1, [⟨0, 0⟩, ⟨0, 1⟩], cs.map (fun e => ⟨⟨0, e.1⟩, 0, ⟨0, e.1, 0⟩, 0, e.2, false⟩), [], []⟩] }

theorem test_collectives : [
    after (exec .xmlrCombine (grouped [(0, 0), (1, 0)])) (fun t => t.num 0x1000 4 == 0x40000000 && t.core.trun.map (·.done) == [true] && (t.getCore ⟨0, 1, 0⟩).trun.map (·.done) == [true]
      && t.num 0x3000 8 == 0),
    after (exec .xmlrTimeout { grouped [(0, 0)] with now := 1024 * 504 }) (fun t => t.num 0x3000 8 == 0x10001 && t.core.trun.map (·.done) == [true]),
    after (exec .xmlrTimeout { grouped [(0, 0)] with now := 1023 * 504 }) (fun _ => false) == false,
    after (exec .xmlrTimeout { grouped [] with now := 1024 * 504, pkgs := [(0, { Package.reset 0 with reachable := false })] }) (fun t => t.num 0x3000 8 == 1),
    after (exec .xmlr (on (fun c => { c with tq := [xmlr], trun := [] }) (grouped []))) (fun t => t.groups.map (fun g => g.contrib.length) == [1]),
    after (thenDo (exec .xmlrSetup (on (fun c => { c with tq := [xset] }) (xsetDesc { base with modules := 1 }))) (exec .xmlrSetup))
      (fun t => t.groups.map (fun g => (g.grp, g.members, g.tmo)) == [(0, [⟨0, 0⟩, ⟨0, 1⟩], 1)] && t.num 0x3000 8 == 0),
    after (exec .xmlrSetupTimeout { on (fun c => { c with trun := [xset] }) (xsetDesc base) with now := 1024 * 504 }) (fun t => t.num 0x3000 8 == 4 && t.groups == [])].all id = true := by decide +kernel

theorem witness_CollectivesCombineAndTimeOut :
    (let s := grouped [(0, 0), (1, 0)]
     ∃ g, s.groups.find? (fun x => x.grp = s.place.n) = some g ∧ (g.members.filterMap (fun m => ((g.next m).bind (fun c => if c.off then none else some c)).bind
          (fun c => (c.rec? s).map (fun r => (c, r))))).length = g.members.length
      ∧ ∀ m ∈ g.members, s.fabricUp m.pkg = true ∧ m ∈ g.installed)
    ∧ (issueCount (rw8 [rec0 0x4C 0, 1]) ≠ issueCount (rw8 [rec0 0x4C 0]))
    ∧ (let s := grouped [(0, 0), (1, 0)]
       ∃ g, (s.groups.map (fun (g : XGroup) => ({ g with contrib := g.contrib.map (fun (c : Contrib) => ({ c with off := true } : Contrib)) } : XGroup))).find? (fun x => x.grp = s.place.n) = some g
        ∧ g.members.all (fun m => (g.next m).map (·.off) == some true) = true)
    ∧ (let s := { grouped [] with now := 1024 * 504 }
       ∃ g, s.groups.find? (fun x => x.grp = s.place.n) = some g ∧ s.core.trun = [] ++ xmlr :: [] ∧ xmlr.done = false ∧ decodeRecord (xmlr.words.get 0).toNat = some .xmlr ∧ xGroup xmlr.words = g.grp
        ∧ g.contrib = [] ∧ xmlr.row + g.tmo * 1024 ≤ s.tick)
    ∧ (let s := { grouped [(0, 0)] with now := 1024 * 504 }
       ∃ g, s.groups.find? (fun x => x.grp = s.place.n) = some g ∧ s.memberAbsent g ⟨0, 0⟩ = false ∧ s.memberAbsent g ⟨0, 1⟩ = true ∧ (g.next ⟨0, 0⟩).isSome = true
        ∧ g.contrib.any (fun c => c.core == s.core.key && c.record == xmlr.number) = true)
    ∧ (let s := on (fun c => { c with trun := [xset] }) { base with modules := 1 }
       s.core.trun.find? (fun q => !q.done && decodeRecord (q.words.get 0).toNat == some .xmlrSetup) = some xset ∧ s.groupBusy (xGroup xset.words) = false
        ∧ badRank s (grpMembers (setupDesc xset)) = none)
    ∧ (let s := { on (fun c => { c with trun := [xset] }) base with now := 1024 * 504 }
       s.core.trun.find? (fun q => !q.done && decodeRecord (q.words.get 0).toNat == some .xmlrSetup && decide (q.row + grpTmo (setupDesc q) * 1024 ≤ s.tick)) = some xset) := by
  refine ⟨⟨_, rfl, by decide +kernel⟩, by decide +kernel, ⟨_, rfl, by decide +kernel⟩, ⟨_, rfl, by decide +kernel⟩, ⟨_, rfl, by decide +kernel⟩, by decide +kernel, by decide +kernel⟩

/-! ### Queues and packets (R80 to R96) -/

/-- A page of 4 GiB at 0 onto die scratchpad of die 0, and one at 2³² onto host memory, under the table at 0x600000 (R296). -/
def paged (s : State) : State :=
  mem [(0x600000, 0x8000000000602000), (0x602000, 0x8000000000604000), (0x604000, 0xE800000000000070), (0x604008, 0xE8FE100000000070)] s
/-- A queue of 16 slots at an address with its descriptor at 0x40000. -/
def queueAt (va : Nat) (ps : List Packet) : Queue :=
  { descPA := 0x40000, base := va, asid := 0, home := 0, prio := 0, log2s := 4, poll := 64, ptbase := 0x600000, unitva := 0, cluva := 0, rd := 0, fetch := ps.length
    state := 0, packets := ps, destroyAt := none, launches := 0, pollAt := 0, part := [] }
/-- A packet of a type, fetched at index 0: words 1 on. -/
def pkt (ty : Nat) (l : List Nat) : Packet := ⟨0, rw8 (ty * 256 :: l), .fetched, 0, none, none, none, false⟩
/-- Queue 3 of package 0, and its command processor's turn. -/
def withQ (q : Queue) (s : State) : State := { paged s with queues := [(⟨0, 3⟩, q)], place := ⟨⟨0, 0, 0⟩, ⟨0, 3⟩, 0⟩ }
/-- Queue 3 with one packet. -/
def queued (p : Packet) : State := withQ (queueAt 0x10000 [p]) base
/-- The phase of the first packet. -/
def phase (s : State) : Option PacketPhase := (aget s.queues ⟨0, 3⟩).bind (fun q => q.packets.head?.map (·.phase))
/-- The event ends the first packet so. -/
def ends (i : Instr) (s : State) (a b c d : Nat) : Bool := after (exec i s) (fun t => phase t == some (.ended a b c d))

theorem test_fetching : [
    after (exec .packetFetch (mem [(0x10000, 0x501), (0x10008, 0x20000)] (withQ (queueAt 0x10000 []) base))) (fun t => phase t == some .fetched),
    after (exec .packetFetch (mem [(0x10000, 0x901)] (withQ (queueAt 0x10000 []) base))) (fun t => phase t == some (.invalid 8)),
    after (exec .packetFetch (mem [(0x10000, 0x501), (0x10008, 0x20004)] (withQ (queueAt 0x10000 []) base))) (fun t => phase t == some (.invalid 0x10000)),
    after (exec .queuePoll (withQ (queueAt 0x100000000 []) { base with now := 504 * 10 })) (fun t => (aget t.queues ⟨0, 3⟩).map (·.pollAt) == some 74)].all id = true := by decide +kernel

/-- A packet that has ended with status a and detail b: its status record is due at 0x30000, its signal at 0x30100 with ADDV 5. -/
def ended (a b : Nat) : Packet := ⟨0, rw8 [5 * 2 ^ 32 + 0x500, 0, 0, 0, 0, 0, 0x30000, 0x30100], .ended a b 2 1, 0, none, none, none, false⟩

-- R88, R93
theorem test_retiring : [
    after (exec .packetRetire (queued (ended 0 0))) (fun t => t.num 0x30000 8 == 0 && t.num 0x30008 8 == 0x1_0000_0002 && t.num 0x40010 8 == 1 && t.sigs.map (·.val) == [5]
      && (aget t.queues ⟨0, 3⟩).map (fun q => (q.rd, q.packets.length, q.state)) == some (1, 0, 0)),
    after (exec .packetRetire (queued (ended 6 7))) (fun t => t.num 0x30000 8 == 0x7_0000_0006 && t.num 0x40020 8 == 0x60001 && (aget t.queues ⟨0, 3⟩).map (·.state) == some 1)].all id = true := by
  decide +kernel

/-- Die 0 with request 5 registered from 0x20000 on. -/
def reqAt (st : Nat) (need : List (Nat × Word)) (s : State) : State :=
  { s with dies := [(⟨0, 0⟩, { Die.reset ⟨0, 0⟩ with reqs := [⟨5, 0, st, 0, 0, 0, 0x20000⟩], need := need })] }
/-- A stream-table update of die 0. -/
def upd (op : Nat) (l : List Nat) : Packet := pkt 3 ((op + 0x100) :: l)

-- R86
theorem test_stream_tables : [
    ends .registerRequest (mem [(0x20000, 6), (0x20010, 0x5_0000_0004)] (queued (upd 1 [0x20000]))) 0 0 0 0,
    ends .registerRequest (mem [(0x20000, 5)] (reqAt 0 [] (queued (upd 1 [0x20000])))) 11 0 0 0,
    after (exec .registerRequest (mem [(0x20000, 6), (0x20010, 0x5_0000_0004)] (queued (upd 1 [0x20000])))) (fun t => t.ownDie.reqs == [⟨6, 0, 0, 0, 4, 5, 0x20000⟩]),
    ends .registerNeed (reqAt 0 [] (queued (upd 2 [0, 0, 0x8000000500000009]))) 0 0 0 0, ends .registerNeed (queued (upd 2 [0, 0, 0x8000000500000009])) 12 0 0 0,
    ends .removeNeed (reqAt 0 [(0, 0x8000000500000009)] (queued (upd 3 [0, 0, 0x8000000500000009]))) 0 0 0 0, ends .removeNeed (queued (upd 3 [0, 0, 0x8000000500000009])) 8 0 0 0,
    after (exec .setRequestState (mem [(0x20000, 5)] (reqAt 0 [] (queued (upd 4 [0, 0, 0, 0x5_0000_0003]))))) (fun t => t.num 0x20000 8 == 0x300000000000005 && t.ownDie.reqs.map (·.state) == [3]),
    ends .setRequestState (reqAt 3 [] (queued (upd 4 [0, 0, 0, 0x5_0000_0001]))) 12 0 0 0, ends .unbind (queued (upd 5 [])) 0 0 0 0,
    ends .bindKernel (queued (upd 0 [0x50000, 0x51000])) 2 1 0 0].all id = true := by decide +kernel

/-- An image of one word, EXIT, at 0x50000: plain, with GANG (Table 2.1; CRC-32C by hand); a launch block at 0x51000. -/
def plainImage : List (Nat × Word) := [(0x50000, 0x1314B4853), (0x50008, 8), (0x50028, 0x3E800000000), (0x50030, 0x1000), (0x50038, 0xE97B3EEE00000200), (0x50040, 0x4600000000000000)]
def gangImage : List (Nat × Word) := [(0x50000, 0x80001314B4853), (0x50008, 8), (0x50028, 0x3E800000000), (0x50030, 0x1000), (0x50038, 0x2DFC63DA00000200), (0x50040, 0x4600000000000000)]
def block (gang start : Nat) : List (Nat × Word) := [(0x51000, 0x50000), (0x51008, 1), (0x51010, BitVec.ofNat 64 (0x1_0000_0000 + 16 * gang)), (0x51020, 1), (0x51028, BitVec.ofNat 64 start)]

theorem test_launch : after (exec .launch (mem (plainImage ++ block 0 0) (queued (pkt 1 [0x51000])))) (fun t => t.launches.map (fun l => (l.lid, l.shares.map (fun x => (x.pending, x.bind)))) == [(1, [([(0, 0), (0, 1)], [0])])]) = true := by
  decide +kernel
theorem test_launch_refused : [ends .launch (mem (plainImage.dropLast ++ block 0 0) (queued (pkt 1 [0x51000]))) 2 2 0 0,
    ends .launch (mem (plainImage ++ block 0 0 ++ [(0x51038, 1)]) (queued (pkt 1 [0x51000]))) 1 0x70000 0 0].all id = true := by decide +kernel
theorem test_gangLaunch : after (exec .gangLaunch (mem (gangImage ++ block 1 5000 ++ [(0x51008, 0)]) (queued (pkt 2 [0x51000])))) (fun t => t.launches.map (·.start) == [5000] && ((t.getDie ⟨0, 0⟩).slot 0).gangs == [1]) = true := by
  decide +kernel
theorem test_gangLaunch_refused : ends .gangLaunch (mem (gangImage ++ block 1 4095 ++ [(0x51008, 0)]) (queued (pkt 2 [0x51000]))) 1 0x50000 0 0 = true := by decide +kernel
theorem test_bindKernel_refused : ends .bindKernel (mem (plainImage ++ block 0 0) (queued (upd 0 [0x50000, 0x51000]))) 5 0x20000 0 0 = true := by decide +kernel

/-- Queue 3 with one packet that has been dispatched. -/
def sentOff (p : Packet) : State := queued { p with phase := .dispatched }
/-- Die barrier 2 with an expected count. -/
def dieBar (ec ac ph : BitVec 16) (s : State) : State := s.setBar ⟨.die, ⟨0, 0, 0⟩, 2⟩ ⟨ec, ac, ph, 0, none⟩

-- R87, R91
theorem test_queue_packets : [
    ends .signalWait (mem [(0x20000, 3)] (queued (pkt 4 [0x20000, 3, 0]))) 0 0 0 0, after (exec .signalWait (queued (pkt 4 [0x20000, 3, 0]))) (fun t => phase t == some .dispatched),
    ends .signalWait (mem [(0x20000, 3)] (sentOff (pkt 4 [0x20000, 3, 0]))) 0 0 0 0, ends .waitTimeout { mem [(0x20000, 2)] (sentOff (pkt 4 [0x20000, 3, 0, 1])) with now := 1024 * 504 } 6 2 0 0,
    after (exec .signalSet (queued (pkt 5 [0x20000, 7, 1]))) (fun t => t.sigs.map (fun m => (m.addr, m.val, m.isMax)) == [(0x20000, 7, true)]), after (thenDo (exec .fetchFence (queued (pkt 6 []))) (fun t => exec .packetRetire { t with place := { t.place with n := 0 } })) (fun t => t.num 0x40010 8 == 1),
    ends .barrierPacket (queued (pkt 7 [0x302])) 5 0x10000 0 0, after (exec .barrierPacket (dieBar 2 0 7 (queued (pkt 7 [0x302])))) (fun t => (t.getBar ⟨.die, ⟨0, 0, 0⟩, 2⟩).ac == 1 && phase t == some .dispatched),
    ends .barrierPacket (dieBar 2 0 8 (sentOff { pkt 7 [0x302] with ph := some 7 })) 0 0 0 0,
    ends .destroy (queued (pkt 8 [4])) 0 0 0 0, after (exec .destroy (queued (pkt 8 [3]))) (fun t => (aget t.queues ⟨0, 3⟩).map (fun q => (q.state, q.destroyAt)) == some (2, some 512)),
    ends .destroyTick { withQ { queueAt 0x10000 [pkt 5 [0x20000]] with state := 2, destroyAt := some 512 } base with now := 512 * 504 } 4 512 0 0,
    after (exec .destroyTick (withQ { queueAt 0x10000 [] with state := 3, destroyAt := some 0 } base)) (fun t => t.queues == [] && t.num 0x40020 8 == 3),
    after (exec (.destroyNotice 512) (withQ { queueAt 0x10000 [] with state := 2, destroyAt := some 512 } base)) (fun t => t.ownDie.notices == [(⟨0, 3⟩, 512)])].all id = true := by decide +kernel

/-- A descriptor of queue 3 at 0x40000 (Table 4.1), its address in g1, the handler running. -/
def creating (l : List (Nat × Word)) : State := on (fun c => asPriv (setRegs c [(1, 0x40000)])) (mem ([(0x40000, 0x10000), (0x40018, 0x3_0000_0004), (0x40030, 0x600000)] ++ l) (paged base))

theorem test_creation : [
    after (exec (.qcreate 1) (creating [])) (fun t => t.num 0x40020 8 == 0 && (aget t.queues ⟨0, 3⟩).map (fun q => (q.base, q.log2s, q.state)) == some (0x10000, 4, 0)),
    after (exec (.qcreate 1) (creating [(0x40018, 0x3_0000_0003)])) (fun t => t.num 0x40020 8 == 0x30000_000A_0003 && t.queues == []),
    after (exec (.qkill 1) (on (fun c => asPriv (setRegs c [(1, 3)])) (withQ (queueAt 0x10000 []) base))) (fun t => (aget t.queues ⟨0, 3⟩).map (·.destroyAt) == some (some 512) && t.num 0x40020 8 == 2)].all id = true := by
  decide +kernel

/-! ### States that meet the hypotheses of the obligations: queues -/

/-- Queue 3 of package 0. -/
def q3 : QKey := ⟨0, 3⟩
/-- A slot with a SIGNAL_SET packet at 0x10000, its queue holding nothing yet, and a place's number. -/
def fetching (w : Word) (part : List (Nat × Word)) (n : Nat) : State :=
  { mem [(0x10000, w), (0x10008, 0x20000)] (withQ { queueAt 0x10000 [] with part := part } base) with place := ⟨⟨0, 0, 0⟩, q3, n⟩ }
/-- Does the packet at index 0 retire from its phase? -/
def retires (p : Packet) : Bool :=
  let s := queued p
  let q := queueAt 0x10000 [p]
  (q.packets.find? (fun p => p.idx = s.place.n && !p.retired)) == some p && s.signalRoom q3 q p && s.queueActive q

theorem witness_PacketsAreFetchedAndRetired :
    (let s := fetching 0x501 [] 0
     let q := queueAt 0x10000 []
     aget s.queues s.place.q = some q ∧ s.validSlot q3 q = some 0x10000 ∧ s.queueActive q = true ∧ q.fetch < q.rd + 16 ∧ s.hostQueue q3 q = false
      ∧ s.packetFaults q3 q ⟨0, rw8 [0x501, 0x20000], .fetched, 0, none, none, none, false⟩ = [] ∧ lowest (s.packetFaults q3 q ⟨0, rw8 [0x901], .fetched, 0, none, none, none, false⟩) = some 8)
    ∧ (0x501 % 256 = lapCode 4 0 ∧ (let q := { queueAt 0x10000 [] with part := [(0x10000, 0x500)] }; q.part.isEmpty = false ∧ (aget q.part 0x10000).map (·.toNat % 256) ≠ some (lapCode 4 0)))
    ∧ ((fetching 0x501 [] 1).place.n = 1 ∧ (let q := { queueAt 0x10000 [] with part := [(0x10000, 0x501)] }; (fetching 0x501 q.part 8).slotPA q3 q q.fetch = some 0x10000 ∧ aget q.part (0x10000 + 8 * (8 - 1)) = none))
    ∧ (let q := queueAt 0x100000000 []
       let s := withQ q base
       s.hostQueue q3 q = true ∧ s.mayFetch q = true ∧ s.validSlot q3 q = none ∧ q.pollAt ≤ s.tick)
    ∧ [ended 0 0, ended 6 7, { ended 0 0 with phase := .invalid 8 }, { pkt 5 [0x20000] with phase := .dispatched }, { pkt 6 [] with phase := .dispatched }].all retires = true
    ∧ (queueAt 0x10000 [{ ended 0 0 with phase := .invalid 8 }]).nextPacket.map (·.idx) = some 0
    ∧ (queued (ended 0 0)).Sound ∧ (ended 6 7).bits 7 55 0 % 8 = 0 ∧ (ended 6 7).bits 6 55 0 % 16 = 0
    ∧ (queued (ended 6 7)).queuePA q3 (queueAt 0x10000 []) 0x30000 .write = some 0x30000 ∧ (queued (ended 6 7)).queuePA q3 (queueAt 0x10000 []) 0x30100 .write = some 0x30100 := by
  unfold State.Sound; decide +kernel

/-- Is the packet the one that is dispatched next, of a queue that its command processor serves? -/
def readyP (p : Packet) : Bool := let s := queued p; s.readyPacket q3 (queueAt 0x10000 [p]) == some p && s.wins q3 (queueAt 0x10000 [p])

theorem witness_StreamTableUpdatesComplete :
    [upd 0 [0x50000, 0x51000], upd 1 [0x20000], upd 2 [0, 0, 0x8000000500000009], upd 3 [0, 0, 0x8000000500000009], upd 4 [0, 0, 0, 0x5_0000_0003], upd 5 []].all readyP = true
    ∧ (∀ n < 6, updateOp n (upd n [])) := by unfold updateOp; decide +kernel

theorem witness_QueuePacketsDispatch :
    [pkt 1 [0x51000], pkt 2 [0x51000], pkt 4 [0x20000, 3, 0], pkt 5 [0x20000, 7, 1], pkt 6 [], pkt 7 [0x302]].all readyP = true
    ∧ ((queued (pkt 5 [])).queuePA q3 (queueAt 0x10000 []) 0x20000 .write = some 0x20000 ∧ (queued (pkt 5 [])).queuePA q3 (queueAt 0x10000 []) 0x200000000 .write = none
      ∧ (queued (pkt 5 [])).sigRoom ((queueAt 0x10000 []).source q3) 0x20000 = true)
    ∧ (let q := queueAt 0x10000 [pkt 4 [0x20000, 3, 0]]
       (mem [(0x20000, 3)] (withQ q base)).waitHolds q3 q (pkt 4 [0x20000, 3, 0]) = true ∧ (withQ q base).waitHolds q3 q (pkt 4 [0x20000, 3, 0]) = false)
    ∧ ((queued (pkt 7 [0x302])).getBar ⟨.die, ⟨0, 0, 0⟩, 2⟩).ec = 0 ∧ ((dieBar 2 0 7 (queued (pkt 7 [0x302]))).getBar ⟨.die, ⟨0, 0, 0⟩, 2⟩).ec ≠ 0 ∧ (queued (pkt 7 [0x302])).sigs = []
    ∧ (let p := { pkt 4 [0x20000, 3, 0, 1] with phase := .dispatched }
       let s := { withQ (queueAt 0x10000 [p]) base with now := 1024 * 504 }
       p.bits 4 31 0 ≠ 0 ∧ p.since + p.bits 4 31 0 * 1024 ≤ s.tick ∧ s.waitHolds q3 (queueAt 0x10000 [p]) p = false)
    ∧ (let p := { pkt 7 [0x302] with phase := .dispatched, ph := some 7 }
       p.ph.any (fun h => phaseDone ((dieBar 2 0 8 (queued p)).getBar (p.barrier q3 (queueAt 0x10000 [p]))).ph h) = true) := by decide +kernel

theorem witness_QueuesAreCreatedAndDestroyed :
    (let s := creating []
     let w := fun i => s.num (0x40000 + 8 * i) 8
     s.core.priv = true ∧ s.Sound ∧ translate seqReach .write (s.core.rd 1).toNat s = .ok (0x40000, page0) ∧ (s.hold page0).queueFaults s.core.key 0x40000 w = [])
    ∧ (let s := creating [(0x40018, 0x3_0000_0003)]
       let w := fun i => s.num (0x40000 + 8 * i) 8
       translate seqReach .write (s.core.rd 1).toNat s = .ok (0x40000, page0) ∧ lowest ((s.hold page0).queueFaults s.core.key 0x40000 w) = some 0x30000)
    ∧ (aget (queued (pkt 8 [3])).queues q3 = some (queueAt 0x10000 [pkt 8 [3]]) ∧ (queueAt 0x10000 []).destroyAt = none ∧ aget (queued (pkt 8 [3])).queues ⟨0, 4⟩ = none)
    ∧ (let q := queueAt 0x10000 [pkt 8 [3]]; q.packets.find? (fun p => p.phase == .fetched && p.ty == 8) = some (pkt 8 [3]) ∧ (queued (pkt 8 [3])).Sound)
    ∧ (let q := { queueAt 0x10000 [pkt 5 [0x20000]] with state := 2, destroyAt := some 512 }; q.destroyAt = some 512 ∧ q.state = 2 ∧ 512 ≤ ({ withQ q base with now := 512 * 504 } : State).tick)
    ∧ (let q := { queueAt 0x10000 [{ pkt 8 [3] with phase := .dispatched, destroys := some 3 }] with state := 3, destroyAt := some 0 }
       q.destroyAt = some 0 ∧ q.state = 3 ∧ (∀ p ∈ q.packets, p.destroys = some q3.q) ∧ (∀ p ∈ q.packets, (withQ q base).signalRoom q3 q p = true) ∧ (withQ q base).launches = [])
    ∧ (q3, 512) ∉ (base.getDie ⟨0, 0⟩).notices := by unfold State.Sound; decide +kernel
/-- An XPUT of one element of four bytes. -/
def xput : List Nat := [rec0 0x4A 16, 0, 0x1000, 0, 0x2000]

/-! ### Signals, merges, launches (R98, R106 to R113, R372 to R375, R384 to R387, R406 to R413, R466) -/

/-- An update of the signal at 0x1000 on its way from core 0. -/
def msg (applied : Bool) : SigMsg := ⟨sigSource ⟨0, 0, 0⟩ 0, 1, homeOf 0x1000, 0x1000, false, 5, applied, none, none, none, 0, [], none⟩
/-- SIGW obs 16 at the head of the word, of which 256 cycles have passed; its limit is 256 cycles. -/
def lateSigw : State := on (fun c => { c with ir := h 0x74 0 6 1 9 (3 * 4096 + mx 16 6) 1, wait := some (.signal 256 0x40 0 page0 3) }) (mem [(0x40, 3)] (regs [(1, 0x40), (9, 3)]))

theorem witness_SignalsUpdateOnce :
    (let s := regs [(1, 0x38), (9, 3)]
     (BitVec.ofInt 64 ((s.core.rd 1).toInt + 8)).toNat = 0x40 ∧ translate seqReach .write 0x40 s = .ok (0x40, page0) ∧ s.slabBusy 0x40 8 = false ∧ s.core.stores = [] ∧ s.core.loads = []
      ∧ s.sigRoom (sigSource s.core.key 0) 0x40 = true)
    ∧ (storing [(0x40, 1)]).core.stores.all (fun p => p.cls != 0) = false
    ∧ (let s := mem [(0x40, 3)] (regs [(1, 0x40), (9, 3)])
       translate seqReach .read 0x40 s = .ok (0x40, page0) ∧ s.signalAt 0x40 = (s.core.rd 9).toNat ∧ ¬ s.signalAt 0x40 < (s.core.rd 9).toNat ∧ s.core.fits 6 (BitVec.ofNat 64 (s.signalAt 0x40))
      ∧ s.readBlocked 0 s.core.num 0x40 8 = false ∧ s.spoiled 0x40 8 = false ∧ s.core.wait = none)
    ∧ (storing [(0x40, 1)]).readBlocked 0 1 0x40 8 = true
    ∧ (let s := { base with sigs := [msg false] }; s.sigs[s.place.n]? = some (msg false) ∧ s.Sound ∧ s.sigReady (msg false) = true ∧ (msg false).applied = false)
    ∧ ({ base with sigs := [msg true] }).sigs[base.place.n]? = some (msg true) ∧ (msg true).applied = true
    ∧ (decode lateSigw.core.ir = .ok ⟨false, 0, .sigw 16 6 1 9 3 1⟩ ∧ lateSigw.core.wait = some (.signal 256 0x40 0 page0 3) ∧ (1 : BitVec 16).toNat * 256 ≤ 256 ∧ lateSigw.core.phase = .running
      ∧ lateSigw.core.fits 6 (BitVec.ofNat 64 3)) := by unfold Core.fits State.Sound; decide +kernel

/-- A core with task n of launch 1, a gang with DET, at its first merge point; one that has ended. -/
def gangCore (n : Nat) (l : List LogEntry) : Core :=
  { Core.reset ⟨0, 0, n⟩ with phase := .running, ir := 0x7500000000000000, wait := some (.merge 1), log := l, task := some { blankTask with lid := 1, tid := BitVec.ofNat 32 n, gang := true, det := true } }
def endedCore (n : Nat) (l : List LogEntry) : Core := { gangCore n l with phase := .ending .exit, wait := none }
/-- An image that starts at 8, a block of 2 groups, the share of die 0, and launch 1 of queue 3. -/
def image8 : Image := ⟨false, false, false, false, 8, 16, 16, 0, 1000, 0, 4096, 0, toBytes 8 0 ++ toBytes 8 0x4600000000000000, [], [], [], []⟩
def lpb2 (gang det : Bool) : Lpb := ⟨0x51000, 0x50000, 0, 0, 1, 0, 0, 2, false, 0, false, gang, det, false, 0, 0, 0, 1, 5000, [], []⟩
def share2 (pending : List (Nat × Nat)) (live : Nat) : DieShare := ⟨0, pending, [0, 1], 0, 0, live, .unchecked, false⟩
def launch1 (gang det begun : Bool) (x : DieShare) : Launch := ⟨1, ⟨0, 3⟩, 0, 0, 1, lpb2 gang det, image8, [x], 5000, false, begun, none, [], [], []⟩
/-- Launch 1 in progress in queue 3, seen from core 1. -/
def inLaunch (l : Launch) (s : State) : State :=
  { s with queues := [(⟨0, 3⟩, queueAt 0x10000 [{ pkt 1 [0x51000] with phase := .dispatched, lid := some 1 }])], launches := [l], place := ⟨⟨0, 0, 1⟩, ⟨0, 3⟩, 1⟩ }
/-- Two tasks of the gang. -/
def gangPair (a b : Core) : State := inLaunch (launch1 true true true (share2 [] 2)) { base with core := a, parked := [(⟨0, 0, 1⟩, b)] }
/-- A store of one byte of the granule 0x1000 in a log. -/
def byteStore (i : Nat) (v : Word) : LogEntry := ⟨BitVec.ofNat 64 (2 ^ (56 + i) + 0x1000), v⟩

theorem test_merges : [
    after (exec .mergeApply (gangPair (gangCore 0 [byteStore 0 0x11]) (gangCore 1 [byteStore 1 0x2200]))) (fun t => t.num 0x1000 8 == 0x2211 && t.core.wait == some (.merged 1) && t.core.log == []),
    after (exec .mergeApply (gangPair (gangCore 0 [byteStore 0 0x11]) (gangCore 1 [byteStore 0 0x22]))) (fun t => t.num 0x1000 8 == 0 && t.core.mergeFault == some (0, 1, 0x1000)),
    after (exec .finalMerge (gangPair (endedCore 0 [byteStore 0 0x11]) (endedCore 1 []))) (fun t => t.num 0x1000 8 == 0x11 && t.launches.map (·.done) == [[0, 1]]),
    after (exec .finalMerge (gangPair (endedCore 0 [byteStore 0 0x11]) (endedCore 1 [byteStore 0 0x11]))) (fun t => t.num 0x1000 8 == 0 && t.launches.map (·.faults) == [[1]])].all id = true := by
  decide +kernel

/-- One task of launch 1 with DET and no gang, which has ended; a stream. -/
def soloCore (l : List LogEntry) : Core := { endedCore 0 l with task := some { blankTask with lid := 1, det := true } }
def solo (logs : List (Nat × List LogEntry)) : State := inLaunch { launch1 false true true (share2 [] 1) with logs := logs } { base with core := soloCore [byteStore 0 0x11] }
def streamEnd (l : List StreamLog) : State :=
  { base with core := { endedCore 0 [byteStore 0 0x11] with task := some { blankTask with det := true, stream := true, tid := 32, formNo := 1, started := 5 } }
              dies := [(⟨0, 0⟩, { Die.reset ⟨0, 0⟩ with streams := [(1, 32), (2, 33)], streamLogs := l })] }

theorem test_log_applications : [
    after (exec .taskLogApply (solo [])) (fun t => t.num 0x1000 8 == 0x11 && t.core.log == [] && t.launches.map (·.done) == [[0]]),
    after (exec .taskLogApply (solo [(7, [byteStore 0 1])])) (fun t => t.num 0x1000 8 == 0 && t.core.log == [] && t.launches.map (·.faults) == [[0]]),
    after (exec .streamLogApply (streamEnd [])) (fun t => t.num 0x1000 8 == 0x11 && t.ownDie.streams == [(2, 33)]),
    after (exec .streamLogApply (streamEnd [⟨1, 1, [byteStore 0 1], 0, 9⟩])) (fun t => t.num 0x1000 8 == 0 && t.core.phase == .ending .fault)].all id = true := by decide +kernel

theorem witness_MergesApplyLogs :
    (let s := on (fun c => { c with task := some { blankTask with gang := true, det := true } }) base
     (on (fun c => { c with wait := some (.merged 1) }) s).core.mergeFault = none ∧ s.core.wait = none ∧ s.core.pq = [] ∧ s.core.prun = [] ∧ s.core.tq = [] ∧ s.core.trun = [] ∧ s.accessBusy = false
      ∧ s.core.precise ∧ s.core.mergeFault = none)
    ∧ (let s := on (fun c => { c with wait := some (.merge 1), mergeFault := some (0, 1, 0x1000), task := some { blankTask with gang := true, det := true } }) base; s.core.mergeFault = some (0, 1, 0x1000) ∧ s.core.precise)
    ∧ (let s := on (fun c => { c with trun := [{ qrec xput with done := true, puts := [⟨none, []⟩] }] }) base
       s.core.trun ≠ [] ∧ s.core.ownWork = false ∧ s.fenceBusy allClasses (fun _ => true) true = false ∧ (on (fun c => { c with tq := [], vq := [⟨0, .mpop, .rne, 0, 0, 0, none, 0⟩] }) base).core.ownWork = true)
    ∧ (blankTask.gang = false ∧ base.core.task = some blankTask ∧ base.core.precise) := by decide +kernel
theorem witness_MergesApplyLogs_gang :
    (gangPair (gangCore 0 []) (gangCore 1 [])).Keyed ∧ ((gangPair (gangCore 0 []) (gangCore 1 [])).openTasks (launch1 true true true (share2 [] 2))).map (·.2.key) = [⟨0, 0, 0⟩, ⟨0, 0, 1⟩]
    ∧ (let s := gangPair (gangCore 0 []) (gangCore 1 [])
     s.launch s.place.n = some (launch1 true true true (share2 [] 2)) ∧ (s.openTasks (launch1 true true true (share2 [] 2))).map (·.1) = [0, 1]
        ∧ (s.openTasks (launch1 true true true (share2 [] 2))).all (fun x => x.2.atMerge.isSome && x.2.mergeFault.isNone) = true) := by unfold State.Keyed; decide +kernel
theorem witness_MergesApplyLogs_final : ((gangPair (endedCore 0 []) (endedCore 1 [])).openTasks (launch1 true true true (share2 [] 2))).map (·.2.finished) = [true, true] := by decide +kernel
theorem witness_MergesApplyLogs_solo : (solo []).core.finished = true ∧ (solo []).Keyed ∧ (solo []).launch 1 = some (launch1 false true true (share2 [] 1)) ∧ logConflict [byteStore 0 1] (solo []).core.log = some 0x1000 := by unfold State.Keyed; decide +kernel
theorem witness_MergesApplyLogs_stream : (streamEnd []).core.finished = true ∧ (1, 32) ∈ (streamEnd []).ownDie.streams ∧ (∀ x ∈ (streamEnd []).ownDie.streams, 1 ≤ x.1)
      ∧ streamConflict [] 5 (streamEnd []).core.log = none ∧ streamConflict [⟨1, 1, [byteStore 0 1], 0, 9⟩] 5 (streamEnd []).core.log = some (0x1000, 1) := by decide +kernel

/-- Core 1 is free; launch 1 has group 1 for it; or its task is saved there. -/
def placing : State := inLaunch (launch1 false false true (share2 [(1, 1)] 1)) base
/-- Task 0 of launch 1 stops on core 0 at 0x10 with g5 live. -/
def stopping : State := inLaunch (launch1 false false true (share2 [] 1)) (mem [(unitPA ⟨0, 0, 0⟩ + 8, 7)]
  (on (fun c => { c with phase := .stopped 0 0x20 0x10, task := some { blankTask with lid := 1, unitsz := 4096 } }) (regs [(5, 6), (6, 7)])))
/-- The task of core 0 has ended; die 0 has nothing left of launch 1. -/
def retiring (e : EndKind) : State := inLaunch (launch1 false false true (share2 [] 1)) (on (fun c => { c with phase := .ending e, task := some { blankTask with lid := 1, executed := true } }) base)

theorem test_placement : [
    after (exec .placementChoice placing) (fun t => let c := t.getCore ⟨0, 0, 1⟩
      c.pc == 8 && c.phase == .running && c.task.map (fun w => (w.tid, w.lid, w.level)) == some (1, 1, 1) && t.word (codePA ⟨0, 0, 1⟩ + 8) == 0x4600000000000000 && t.word (unitPA ⟨0, 0, 1⟩ + 8) == 1),
    after (exec .contextSaveDone stopping) (fun t => t.core.phase == .free && t.ownDie.saved.map (fun m => (m.unit, m.live, m.at_)) == [([(8, 7)], 0x20, 0x10)]),
    after (thenDo (exec .contextSaveDone stopping) (fun s => exec .placementChoice { s with place := ⟨⟨0, 0, 0⟩, ⟨0, 3⟩, 0⟩ })) (fun t => t.core.phase == .running && t.core.rd 5 == 6 && t.core.rd 6 == 0
      && t.ownDie.saved == [] && t.word (unitPA ⟨0, 0, 0⟩ + 8) == 7),
    after (exec .taskRetire (retiring .exit)) (fun t => t.core.phase == .free && t.launches.map (·.shares) == [[{ share2 [] 0 with ran := 1 }]]),
    after (exec .taskRetire (retiring .fault)) (fun t => t.launches.map (·.faults) == [[0]] && t.eventq.buffer.length == 1),
    after (exec .dieLaunchReport (inLaunch (launch1 false false true { share2 [] 0 with ran := 2 }) base)) (fun t => t.launches == [] && phase t == some (.ended 0 0 2 0)),
    after (exec .dieLaunchReport (inLaunch { launch1 false false true (share2 [] 0) with faults := [4, 2] } base)) (fun t => phase t == some (.ended 9 2 0 0))].all id = true := by decide +kernel

theorem witness_TasksArePlacedAndRetire :
    (placing.Keyed ∧ placing.Sound) ∧ (stopping.Keyed ∧ stopping.core.trap = none) ∧ (retiring .exit).Keyed
    ∧ (placing.coreFree ⟨0, 0, 1⟩ = true ∧ ((placing.getDie ⟨0, 0⟩).slot 1).gangs = [] ∧ placing.streamWants ⟨0, 0, 1⟩ = false ∧ chooseCandidate 0 (placing.candidatesOf ⟨0, 0, 1⟩) = some (.group 1 1)
      ∧ (placing.launch 1).isSome = true)
    ∧ after (exec .contextSaveDone stopping) (fun t => match chooseCandidate 0 (t.candidatesOf ⟨0, 0, 0⟩) with | some (.saved 1 _) => true | _ => false) = true
    ∧ (stopping.core.quiet = true ∧ stopping.signalsDone stopping.core.key = true ∧ stopping.core.phase = .stopped 0 0x20 0x10)
    ∧ ((retiring .fault).core.quiet = true ∧ (retiring .fault).logSettled ⟨0, 0, 0⟩ blankTask = true)
    ∧ (let s := inLaunch (launch1 false false true (share2 [] 0)) base
       s.launch s.place.n = some (launch1 false false true (share2 [] 0)) ∧ (launch1 false false true (share2 [] 0)).share 0 = some (share2 [] 0) ∧ s.shareOver (launch1 false false true (share2 [] 0)) (share2 [] 0) = true) := by
  unfold State.Keyed State.Sound; decide +kernel

/-- Launch 1 as a gang that has not begun, at a tick, its cores reserved. -/
def gangAt (tick : Nat) (f : Launch → Launch) : State :=
  { inLaunch (f (launch1 true false false (share2 [(0, 0), (1, 1)] 2))) { base with core := Core.reset ⟨0, 0, 0⟩ } with
    now := 504 * tick, dies := [(⟨0, 0⟩, { Die.reset ⟨0, 0⟩ with slots := [(0, ⟨[], 0, [1]⟩), (1, ⟨[], 0, [1]⟩)] })] }
/-- The share of die 0 with a check. -/
def checked (k : GangCheck) (l : Launch) : Launch := { l with shares := l.shares.map (fun x => { x with check := k }) }

theorem test_gangs : [
    after (exec .gangReadyCheck (gangAt 4744 id)) (fun t => (t.launch 1).map (fun l => l.shares.map (·.check)) == some [.ready]),
    after (exec .gangReadyCheck { gangAt 4744 id with core := core0 }) (fun t => (t.launch 1).map (fun l => l.shares.map (·.check)) == some [.sent]),
    after (exec .gangNotReady (gangAt 4744 (checked .sent))) (fun t => (t.launch 1).map (·.notReady) == some true),
    after (exec .gangDefer (gangAt 4872 (fun l => { checked .told l with notReady := true }))) (fun t => (t.launch 1).map (fun l => (l.start, l.notReady)) == some (9096, false)),
    after (exec .gangStart (gangAt 5000 (checked .ready))) (fun t => t.core.phase == .running && (t.getCore ⟨0, 0, 1⟩).phase == .running && (t.launch 1).map (fun l => (l.begun, l.shares.map (·.pending))) == some (true, [[]])
      && ((t.getDie ⟨0, 0⟩).slot 1).gangs == []),
    after (exec .coreFuse { placing with place := ⟨⟨0, 0, 2⟩, ⟨0, 0⟩, 0⟩ }) (fun t => (t.getPkg 0).fused == [(0, 2)] && t.fusedOff ⟨0, 0, 2⟩),
    after (exec .coreFuse base) (fun t => t.core.stop == some .fuse), after (exec .coreFuse { base with place := ⟨⟨0, 0, 0⟩, ⟨0, 0⟩, 1⟩ }) (fun t => t.core.phase == .ending .fault && (t.core.ctl.frec.get 0).toNat / 2 ^ 48 == 32)].all id = true := by
  decide +kernel

/-- The same gang with a group on each of dies 0 and 1. -/
def gangOfTwo : Launch :=
  { launch1 true false false (share2 [(0, 0)] 1) with start := 5000, shares := [{ share2 [(0, 0)] 1 with check := .ready }, { share2 [(1, 1)] 1 with die := 1, check := .ready }] }

theorem test_gang_of_two : after (exec .gangStart (gangAt 5000 (fun _ => gangOfTwo))) (fun t =>
    [((⟨0, 0, 0⟩ : CoreKey), 0), (⟨0, 1, 1⟩, 1)].all (fun x => let u := t.select x.1
      u.core.phase == .running && u.core.task.map (fun w => w.tid) == some (BitVec.ofNat 32 x.2) && cycleEndAfter u.coreStep u.core.clock / 504 == 5000)) = true := by decide +kernel

theorem witness_GangsStartAndCoresAreFused_placing :
    let s := gangAt 5000 (fun _ => gangOfTwo)
    s.Keyed ∧ gangOfTwo.notReady = false ∧ gangOfTwo.start ≤ s.tick + 128 ∧ s.tick ≤ gangOfTwo.start ∧ (∀ y ∈ gangOfTwo.shares, y.check = .ready)
      ∧ ¬ (gangOfTwo.lpb.abort = true ∧ s.queueOver gangOfTwo.q = true)
      ∧ (gangOfTwo.shares.flatMap (fun y => y.pending.filterMap (fun p => y.bind[p.1]?.map (fun c => (⟨0, y.die, c⟩ : CoreKey))))).Nodup
      ∧ s.ring.pace.step = 0 ∧ s.ring.pace.old = 0 ∧ s.dies.all (fun e => e.2.localStep == 0) = true ∧ s.allCores.all (fun c => c.clk == 0) = true := by
  unfold State.Keyed; decide +kernel

theorem witness_GangsStartAndCoresAreFused :
    (let x := share2 [(0, 0), (1, 1)] 2
     (∀ k ∈ x.cores 0, (gangAt 4744 id).coreFree k = true ∧ (((gangAt 4744 id).getDie k.dieKey).slot k.core).gangs.head? = some 1 ∧ ((gangAt 4744 id).getDie k.dieKey).handler = none)
      ∧ (x.cores 0).length = x.pending.length ∧ (gangAt 4744 id).Sound ∧ (gangAt 5000 id).Keyed ∧ image8.code.length ≤ 2 ^ 17
      ∧ (x.cores 0).Pairwise (fun a b => codePA a + 2 ^ 17 ≤ codePA b ∨ codePA b + 2 ^ 17 ≤ codePA a))
    ∧ (∀ k, (gangAt 5000 (checked k)).launch 1 = some (checked k (launch1 true false false (share2 [(0, 0), (1, 1)] 2)))) ∧ (gangAt 5000 (checked .ready)).queueOver ⟨0, 3⟩ = false
    ∧ (4872 ≤ (gangAt 4872 id).tick ∧ 5000 ≤ (gangAt 4872 id).tick + 128 ∧ (gangAt 5001 id).tick = 5001)
    ∧ (base.Keyed ∧ base.fusedOff ⟨0, 0, 0⟩ = false ∧ base.core.phase = .running ∧ (askStop .fuse base.core).stop ≠ base.core.stop ∧ (placing.getCore ⟨0, 0, 2⟩).phase = .free)
    ∧ (base.core.key = base.place.core ∧ base.core.precise ∧ (on (fun c => { c with vq := [⟨0, .mpop, .rne, 0, 0, 0, none, 0⟩] }) base).core.vectorIdle = false) := by
  refine ⟨by unfold State.Keyed State.Sound; decide +kernel, ?_, by decide +kernel, by decide +kernel, by unfold State.Keyed; decide +kernel, by decide +kernel⟩
  intro k; cases k <;> decide +kernel
/-! ### The track and the ring (R115, R120 to R149, R429) -/

/-- Die 0 of package 0 with a carousel of 64 MiB, FPS 4, SVC 16, DWELL 16, changed by f, and link cycle n. -/
def ringDie (f : Die → Die) (n : Nat) : State :=
  { base with now := 63 * n, modules := 4
              dies := [(⟨0, 0⟩, f { Die.reset ⟨0, 0⟩ with carcfg := 0x8000_0000_0040_0000, rpace := 0x10_0000_0010, rslot := 0x0002_0000_0004 })] }
/-- A stream-table binding, a tag-table entry, a batch of request 5. -/
def tag0 : TagEntry := ⟨0xAB, 0xFF, 8, false, false, 0⟩
def bound0 : Binding := ⟨{ image8 with ring := true, maxbatch := 1, tags := [tag0] }, lpb2 false false, 0, ⟨0, 3⟩, 0, 0, 0, 0⟩
def batch0 : Batch := ⟨0, [(0, 0)], [(0x9000, 5)], tag0, 40, false, 0⟩
/-- A shard of 480 bytes with tag 0xAB, held whole. -/
def shard0 (formed : Bool) (bs : List Batch) : Shard := ⟨0, 0xAB, 0, 480, 0, [0], [], 0, 100000, 0, 0, false, formed, bs, 2, some bound0, false⟩
/-- The die holds it, with a need of request 5 for tag 0xAB. -/
def holding (x : Shard) (d : Die) : Die := { d with shards := [x], head := 512, need := [(0, 0x8000_0005_0000_00AB)], reqs := [⟨5, 0, 0, 0x9000, 0, 0, 0⟩], binding := some bound0 }
/-- The flit in link cycle 0 from the die above; its CRC is the right one by construction. -/
def flit0 : Flit := Flit.stamp { Flit.blank with hole := true } 0
theorem stamp_goodCrc (f : Flit) (c : BitVec 32) : ({ f with crc := c } : Flit).goodCrc = f.goodCrc := rfl
theorem stamp_crc (f : Flit) (t : Nat) : (f.stamp t).crc = (f.stamp t).goodCrc := (stamp_goodCrc { f with ticklo := BitVec.ofNat 32 t } _).symm
theorem flit0_crc : flit0.crc = flit0.goodCrc := stamp_crc _ _
/-- A port with requests received, a flit sent 16 times, a probe under way. -/
def busyPort (d : Die) : Die := { d with down := { d.down with
  txSeq := 3, ctrl := [(1, 1), (2, 0), (3, 0)], tries := [(0, 16)], probeAt := some 10, sent := [Flit.blank, { Flit.blank with seq := 1 }, { Flit.blank with seq := 2 }] } }

theorem test_track : [
    after (exec (.flitReplay false 1) (ringDie busyPort 100)) (fun t => ((t.getDie ⟨0, 0⟩).port false).resend == [1, 2]),
    after (exec (.latencyProbe false) (ringDie busyPort 100)) (fun t => ((t.getDie ⟨0, 0⟩).port false).queue == [(Flit.ctrlOne 3 0, none)]),
    after (exec (.probeEcho false) (ringDie busyPort 100)) (fun t => ((t.getDie ⟨0, 0⟩).port false).latency == 45),
    after (exec (.linkFailResends false) (ringDie busyPort 100)) (fun t => ((t.getDie ⟨0, 0⟩).port false).failed && (t.getDie ⟨0, 0⟩).stallReq == [(100 * 63 / 504) + 4096]),
    after (exec (.linkFailSilence true) (ringDie id 1024)) (fun t => ((t.getDie ⟨0, 0⟩).port true).failed),
    after (exec (.flitSend true) (ringDie id 0)) (fun t => ((t.getDie ⟨0, 0⟩).port true).txSeq == 1 && (t.getDie ⟨0, 0⟩).occu.get 5 == 1),
    after (exec (.flitSend false) (ringDie id 0)) (fun t => (t.getDie ⟨0, 0⟩).occd.get 4 == 1),
    after (exec .shardDeparture (ringDie (holding { shard0 true [] with deadline := 0 }) 0)) (fun t => (t.getDie ⟨0, 0⟩).slotFrom == some 0 && (t.getDie ⟨0, 0⟩).lastSent == 0xAB && (t.getDie ⟨0, 0⟩).occd.get 0 == 1)].all id = true := by
  decide +kernel

theorem witness_TrackPortsCarryFlits :
    (flit0.crc = flit0.goodCrc ∧ flit0.seq = ((ringDie id 0).getDie ⟨0, 0⟩).up.rxSeq + 1) ∧ ¬ (flit0.crc = flit0.goodCrc ∧ flit0.seq = ((ringDie busyPort 100).getDie ⟨0, 0⟩).down.txSeq + 1)
    ∧ (let d := (ringDie busyPort 100).getDie ⟨0, 0⟩
       (1, 1) ∈ d.down.ctrl ∧ (∃ e ∈ d.down.ctrl, e.1 = 2) ∧ (∃ e ∈ d.down.ctrl, e.1 = 3) ∧ d.down.failed = false ∧ (∃ e ∈ d.down.tries, 16 ≤ e.2) ∧ d.sendCycle false ≤ 100)
    ∧ (let s := ringDie (holding { shard0 true [] with deadline := 0 }) 0
       let d := s.getDie ⟨0, 0⟩
       (d.nextToLeave).map (·.nextFlit) = some (some 0) ∧ s.ring.pace.paced (d.sendCycle false) = 0 ∧ s.ring.pace.isPaced (d.sendCycle false) = true ∧ d.stallUntil = none
        ∧ d.stallDue (d.sendCycle false) = false ∧ s.resendDue d false = none ∧ s.shardsMove d = true ∧ d.enabled = true ∧ s.Keyed)
    ∧ (let s := ringDie busyPort 100
       (s.getDie ⟨0, 0⟩).down.probeAt.isSome = true ∧ s.ring.failedPkgs = [] ∧ s.ring.failedDies = [] ∧ (s.getDie ⟨0, 0⟩).key.pkg < s.modules ∧ (s.getDie ⟨0, 0⟩).key.die < 8)
    ∧ (ringDie id 0).departureDue ((ringDie id 0).getDie ⟨0, 0⟩) = none :=
  ⟨⟨flit0_crc, by decide +kernel⟩, fun x => absurd x.2 (by decide +kernel), by decide +kernel, by unfold State.Keyed; decide +kernel, by decide +kernel, by decide +kernel⟩

/-- A flit of a shard of 480 bytes with tag 0xAB: four bytes at OFFSET 8, as the port above sends it. -/
def shardFlit (data : List Byte) : Flit := Flit.stamp { Flit.blank with tag := 0xAB, first := true, len := BitVec.ofNat 16 data.length, offset := 8, shbytes := 480, payload := data } 0

-- R128: the payload stands at the head of the carousel plus OFFSET
theorem test_payload : (let t := receiveShard ⟨0, 0⟩ (shardFlit [1, 2, 3, 4]) (ringDie id 0)
    t.num ((t.getDie ⟨0, 0⟩).shards.map (fun x => x.pa (t.getDie ⟨0, 0⟩).size 8)).sum 4 == 0x04030201) = true := by
  decide +kernel

theorem witness_TrackPortsCarryFlits_payload :
    let s := ringDie id 0
    let d := s.getDie ⟨0, 0⟩
    (shardFlit [1]).crc = (shardFlit [1]).goodCrc ∧ ((shardFlit [1]).seq = d.up.rxSeq + 1 ∧ (shardFlit [1]).isShard = true ∧ (shardFlit [1]).ctrl = false ∧ (shardFlit [1]).idle = false
      ∧ (shardFlit [1]).hole = false) ∧ s.Sound ∧ s.carried ⟨0, 0⟩ = false ∧ d.upsrc ≠ 3 ∧ ⟨0, 0⟩ ∉ s.ring.failedDies ∧ d.enabled = true ∧ 480 ≤ d.size := by
  refine ⟨stamp_crc _ _, ⟨by decide +kernel, by decide +kernel, by decide +kernel, by decide +kernel, by decide +kernel⟩, by unfold State.Sound; decide +kernel, by decide +kernel⟩

theorem test_batches : [
    after (exec .batchFormation (ringDie (holding (shard0 false [])) 0)) (fun t => (t.getDie ⟨0, 0⟩).shards.map (fun x => (x.formed, x.batches.map (fun b => (b.num, b.needs, b.entries)))) == [(true, [(0, [(0, 0)], [(0x9000, 5)])])]),
    after (exec .streamStart (ringDie (holding (shard0 true [batch0])) 0)) (fun t => let c := t.getCore ⟨0, 0, 1⟩
      c.phase == .running && c.pc == 8 && c.task.map (fun w => (w.tid, w.stream, w.pinned, w.batch)) == some (64, true, true, [(0x9000, 5)]) && (t.getDie ⟨0, 0⟩).shards.map (·.pins) == [1]),
    after (exec .departureDeadline (ringDie (holding { shard0 true [batch0] with deadline := 0 }) 8)) (fun t => let d := t.getDie ⟨0, 0⟩
      d.shards.map (·.batches) == [[]] && d.need == [(0, 0xA100_0005_0000_00AB)] && d.rstat == 1)].all id = true := by decide +kernel

/-- Three needs of requests 7, 5 and 6 for the tag, in batches of two. -/
def threeNeeds (d : Die) : Die :=
  { holding (shard0 false []) d with
    need := [(0, 0x8000_0007_0000_00AB), (1, 0x8000_0005_0000_00AB), (4, 0x8000_0006_0000_00AB)], reqs := [⟨5, 0, 0, 0x9000, 0, 0, 0⟩, ⟨6, 0, 0, 0x9040, 0, 0, 0⟩, ⟨7, 0, 0, 0x9080, 0, 0, 0⟩] }
/-- The shard's binding with another image. -/
def bindWith (f : Image → Image) (d : Die) : Die :=
  { d with shards := d.shards.map (fun x => { x with bound := x.bound.map (fun b => { b with image := f b.image }) }) }

-- R51, R131: in ascending order of request, the last batch the shorter; R135: without an entry every need is missed, without a kernel none
theorem test_batch_runs : [
    after (exec .batchFormation (ringDie (fun d => bindWith (fun i => { i with maxbatch := 2 }) (threeNeeds d)) 0)) (fun t => (t.getDie ⟨0, 0⟩).shards.map (fun x => x.batches.map (fun b => b.entries.map (·.2))) == [[[5, 6], [7]]]),
    after (exec .batchFormation (ringDie (fun d => bindWith (fun i => { i with tags := [] }) (threeNeeds d)) 0)) (fun t => (t.getDie ⟨0, 0⟩).need.map (fun e => bits e.2.toNat 61 56) == [33, 33, 33] && (t.getDie ⟨0, 0⟩).rstat == 3),
    after (exec .batchFormation (ringDie (fun d => { threeNeeds d with binding := none }) 0)) (fun t => (t.getDie ⟨0, 0⟩).rstat == 0 && (t.getDie ⟨0, 0⟩).shards.map (fun x => x.batches.length) == [0])].all id = true := by
  decide +kernel

theorem witness_BatchesFormAndStreamsStart_clauses :
    (let d := (ringDie (fun d => bindWith (fun i => { i with maxbatch := 2 }) (threeNeeds d)) 0).getDie ⟨0, 0⟩; swf 0 d.need = true ∧ (d.matching 0xAB 0 0).length = 3)
    ∧ ((threeNeeds (Die.reset ⟨0, 0⟩)).binding.isSome = true ∧ ([] : List TagEntry).find? (fun t => (0xAB : Half) &&& t.mask = t.value) = none)
    ∧ (let d := (ringDie (fun d => { threeNeeds d with binding := none }) 0).getDie ⟨0, 0⟩; d.binding.bind (fun (_ : Binding) => (shard0 false []).bound) = none)
    ∧ (let s := ringDie (fun d => { holding { shard0 true [batch0] with deadline := 0 } d with misslog := 0x4000_0000_0000_1000 }) 8
       let d := s.getDie ⟨0, 0⟩
       4 ≤ bits d.misslog.toNat 63 60 ∧ s.Sound ∧ batch0.needs = [(0, 0)] ∧ d.stillNeeds (0, 0) = true ∧ swf 0 d.need = true) := by
  unfold State.Sound; decide +kernel

theorem witness_BatchesFormAndStreamsStart :
    (((ringDie (holding (shard0 false [])) 0).getDie ⟨0, 0⟩).shards.find? (fun x => x.complete && !x.formed) = some (shard0 false []) ∧ (ringDie (holding (shard0 false [])) 0).ring.restarting = false)
    ∧ (let s := ringDie (holding (shard0 true [batch0])) 0
       (s.refusals (s.getDie ⟨0, 0⟩)).queued.find? ((s.setDie (s.refusals (s.getDie ⟨0, 0⟩))).batchReady (s.refusals (s.getDie ⟨0, 0⟩))) = some (shard0 true [batch0], batch0) ∧ s.idleRingCore ⟨0, 0⟩ = some ⟨0, 0, 1⟩)
    ∧ (let s := ringDie (holding { shard0 true [batch0] with deadline := 0 }) 8
       ((s.getDie ⟨0, 0⟩).shards.find? (fun x => decide (x.deadline ≤ s.pacedNow) && !x.batches.isEmpty)).isSome = true)
    ∧ (let s := ringDie (holding (shard0 false [])) 0
       s.Keyed ∧ bound0.image.tags.find? (fun t => (shard0 false []).tag &&& t.mask = t.value) = some tag0 ∧ (s.getDie ⟨0, 0⟩).stillNeeds (0, 0) = true ∧ swf 0 (s.getDie ⟨0, 0⟩).need = true)
    ∧ (let s := ringDie (fun d => { holding (shard0 true [batch0]) d with rcmaskl := 1, rcmaskh := 0 }) 0
       s.idleRingCore ⟨0, 0⟩ = none ∧ s.displaceable ⟨0, 0⟩ 1 = some ⟨0, 0, 0⟩
        ∧ (s.refusals (s.getDie ⟨0, 0⟩)).queued.find? ((s.setDie (s.refusals (s.getDie ⟨0, 0⟩))).batchReady (s.refusals (s.getDie ⟨0, 0⟩))) = some (shard0 true [batch0], batch0))
    ∧ (let s := ringDie (fun d => { holding { shard0 true [batch0] with deadline := 100 } d with resv := 2 ^ 26 }) 0
       let r := s.refusals (s.getDie ⟨0, 0⟩)
       r.queued.find? ((s.setDie r).batchReady r) = none ∧ r.shards.map (fun x => x.batches.map (·.refused)) = [[true]]) := by
  unfold State.Keyed; decide +kernel

/-- The ring of the state changed. -/
def ringed (f : Ring → Ring) (s : State) : State := { s with ring := f s.ring }
/-- The eight dies of package 0 with hole slots at hand; segment 0 of the image has tag 0xAB and 8 bytes at 0xFE_1000_0000_1000. -/
def bridge8 (f : Die → Die) : State :=
  mem [(0xFE_1000_0000_0000, 0x8_0000_00AB), (0xFE_1000_0000_0008, 0xFE_1000_0000_1000), (0xFE_1000_0000_1000, 7)]
    { ringDie id 0 with dies := (List.range 8).map (fun i => (⟨0, i⟩, f { (ringDie id 0).getDie ⟨0, 0⟩ with key := ⟨0, i⟩, holeAt := some 0 })) }
/-- A die of package 1 fails. -/
def lostDie : FailKind := .dieFail 1 2

theorem test_ring : [
    after (exec (.ringStall 10) (ringed (fun r => { r with stalls := [10] }) (ringDie id 0))) (fun t => (t.getDie ⟨0, 0⟩).stallReq == [10]),
    after (exec .ringStallBegin (ringDie (fun d => { holding (shard0 true []) d with stallReq := [1], rstall := 0x10_0000_0064 }) 8)) (fun t => (t.getDie ⟨0, 0⟩).stallUntil == some 108 && (t.getDie ⟨0, 0⟩).shards.map (·.deadline) == [100100]),
    after (exec .ringStallEnd (ringDie (fun d => { d with stallUntil := some 5 }) 8)) (fun t => (t.getDie ⟨0, 0⟩).stallUntil == none),
    after (exec (.podStep 2) (ringDie id 8)) (fun t => t.ring.pace.step == 2 && t.eventq.buffer.length == 1),
    after (exec .ringInject (bridge8 id)) (fun t => t.ring.next == 1 && (t.getDie ⟨0, 7⟩).shards.map (fun x => (x.tag, x.bytes, x.deadline)) == [(0xAB, 8, 16)] && t.num 0 8 == 7),
    after (exec .reinjection (ringed (fun r => { r with lost := [(0xAB, 8, 0xFE_1000_0000_1000)] }) (bridge8 id))) (fun t => t.ring.lost == [] && (t.getDie ⟨0, 0⟩).shards.map (fun x => (x.tag, x.reinj)) == [(0xAB, true)]),
    after (exec (.repairReport lostDie) { ringDie id 8 with place := ⟨⟨0, 0, 0⟩, ⟨0, 0⟩, 1⟩ }) (fun t => t.ring.repair.map (fun r => (r.kind, r.tick)) == some (lostDie, 262145)),
    after (exec (.repairReport (.moduleFail 0)) { ringDie id 8 with pkgs := [(0, { Package.reset 0 with reachable := false })] }) (fun t => t.ring.downNow && t.ring.failedPkgs == [0]),
    after (exec (.repairAnnouncement ⟨lostDie, 9, []⟩) (ringed (fun r => { r with repair := some ⟨lostDie, 9, []⟩ }) (ringDie id 0))) (fun t => (t.getDie ⟨0, 5⟩).repair == some ⟨lostDie, 9, []⟩),
    after (exec .repairTick (ringed (fun r => { r with repair := some ⟨lostDie, 1, []⟩ }) (ringDie id 8))) (fun t => t.ring.repair == none && t.ring.failedDies == [⟨1, 2⟩] && (t.getDie ⟨1, 3⟩).rtrk == 6 && (t.getDie ⟨1, 2⟩).rtrk == 0xF00),
    after (exec .ringRestart (ringed (fun r => { r with downNow := true }) (ringDie id 8))) (fun t => t.ring.restarting),
    after (exec .ringRestart (ringed (fun r => { r with downNow := true, restarting := true, next := 9 }) { ringDie (holding (shard0 true [])) 8 with place := ⟨⟨0, 0, 0⟩, ⟨0, 0⟩, 1⟩ })) (fun t => !t.ring.restarting && !t.ring.downNow && t.ring.next == 0 && (t.getDie ⟨0, 0⟩).shards == [])].all id = true := by
  decide +kernel

theorem witness_RingStallsStepsAndRepairs_clauses :
    (let s := ringed (fun r => { r with repair := some ⟨.moduleFail 2, 1, []⟩ }) (ringDie id 8); s.ring.repair = some ⟨.moduleFail 2, 1, []⟩ ∧ 1 ≤ s.tick ∧ (aget s.dies ⟨0, 0⟩).isSome = true)
    ∧ ((bridge8 id).bridgeDies.all (fun e => (bridge8 id).openHole ((bridge8 id).getDie e) == some 0) = true ∧ (bridge8 id).pacedNow = 0)
    ∧ (let s := ringed (fun r => { r with lost := [(0xAB, 8, 0xFE_1000_0000_1000)] }) (bridge8 id)
       s.ring.lost = [(0xAB, 8, 0xFE_1000_0000_1000)] ∧ s.bridgeDies.all (fun b => let x := s.getDie b; x.enabled && x.slotStart (s.ring.pace.paced (x.sendCycle false)) && x.shards.isEmpty) = true)
    ∧ (let s := ringed (fun r => { r with downNow := true }) (ringDie id 8); s.place.n ≠ 1 ∧ s.managed s.place.core.pkg = true ∧ s.ring.restarting = false ∧ s.ring.downNow = true)
    ∧ (let s := ringed (fun r => { r with restarting := true }) { ringDie id 8 with place := ⟨⟨0, 0, 0⟩, ⟨0, 0⟩, 1⟩ }; s.place.n = 1 ∧ s.ring.restarting = true ∧ s.streamsRetired = true ∧ s.Keyed)
    ∧ ((ringDie (fun d => { d with stallUntil := some 5 }) 8).ring.downNow = false) := by unfold State.Keyed; decide +kernel

theorem witness_RingStallsStepsAndRepairs :
    (let s := ringed (fun r => { r with stalls := [10] }) (ringDie id 0); s.Keyed ∧ 10 ∈ s.ring.stalls ∧ 10 ∉ (s.getDie ⟨0, 0⟩).stallReq ∧ s.tick < 10)
    ∧ (let s := { ringDie (fun d => { holding (shard0 true []) d with stallReq := [1], ownStall := some 1 }) 8 with place := ⟨⟨0, 0, 0⟩, ⟨0, 0⟩, 1⟩ }
     (s.getDie ⟨0, 0⟩).stallReq.find? (fun t => t ≤ s.tick) = some 1 ∧ (s.getDie ⟨0, 0⟩).stallUntil = none ∧ s.departing (s.getDie ⟨0, 0⟩) = false
      ∧ (s.getDie ⟨0, 0⟩).ownStall = some 1 ∧ s.ring.stepAt = none ∧ s.ring.repair = none ∧ s.ring.downNow = false ∧ s.classified lostDie = true ∧ s.beyondRepair lostDie = false)
    ∧ ((ringDie (fun d => { d with stallUntil := some 5 }) 8).pacedNow = 8 ∧ ((ringDie (fun d => { d with stallUntil := some 5, up := { d.up with failed := true } }) 8).getDie ⟨0, 0⟩).up.failed = true)
    ∧ (let s := ringed (fun r => { r with stepAt := some (1, 4) }) (ringDie id 8); s.ring.stepAt = some (1, (4 : Fin 5).val) ∧ 1 ≤ s.tick)
    ∧ (let s : State := { ringDie id 8 with pkgs := [(0, { Package.reset 0 with reachable := false })] }; s.classified (.moduleFail 0) = true ∧ s.beyondRepair (.moduleFail 0) = true)
    ∧ (let s := ringed (fun r => { r with repair := some ⟨lostDie, 1, []⟩ }) (ringDie id 8); s.ring.repair = some ⟨lostDie, 1, []⟩ ∧ 1 ≤ s.tick ∧ (s.getDie ⟨0, 5⟩).repair = none)
    ∧ ((bridge8 id).ring.next < (bridge8 id).segments ∧ ((bridge8 id).segment 0).1 ≠ 0 ∧ (bridge8 id).bridgeDies.all (fun e => ((bridge8 id).getDie e).enabled && ((bridge8 id).getDie e).holeAt.isSome) = true
      ∧ (bridge8 id).bridgeDies.all (fun b => let x := (bridge8 id).getDie b; x.holeSlot ((bridge8 id).ring.pace.paced (x.sendCycle false)) && x.shards.isEmpty) = true ∧ (bridge8 id).ring.restarting = false)
    ∧ (ringDie id 8).streamsRetired = true ∧ (ringDie id 8).managed 0 = true := by unfold State.Keyed; decide +kernel

/-! ### Interruptions, the host and management (R332, R395, R396, R400, R405, R414 to R428) -/

/-- A fixed-mode task after a local step that it has not taken. -/
def steppedFixed : State := { on (fun c => { c with ctl := { c.ctl with mode := 2 }, task := some { blankTask with fixed := true }, stepAge := 4096 }) base with
  dies := [(⟨0, 0⟩, { Die.reset ⟨0, 0⟩ with localStep := 1 })] }

theorem test_interruptions : [
    faultsWith .safeGap (on (fun c => { c with watch := 65536 }) base) 27 0 65535, faultsWith (.domainAbort 7) (on (fun c => { c with abortTid := some 7 }) base) 29 0 7,
    after (exec (.localClockStep 3 9600) base) (fun t => t.ownDie.localStep == 3 && t.eventq.buffer.map (fun e => (e.get 2, e.get 3)) == [(3, 9600)]),
    after (exec (.localClockStep 3 9400) base) (fun t => t.ownDie.localStep == 0),
    after (exec .forcedStallCycle steppedFixed) (fun t => t.core.slow && (t.stallCycle exec).core.clk == 1 && (t.stallCycle exec).core.tau == 0),
    after (exec .powerLimitExceeded (ringed (fun r => { r with pace := { r.pace with step := 4 } }) { base with place := ⟨⟨0, 0, 0⟩, ⟨0, 0⟩, 3201⟩ })) (fun t => t.ring.stepAt == some (1, 4)),
    after (exec .powerLimitExceeded { base with place := ⟨⟨0, 0, 0⟩, ⟨0, 0⟩, 3200⟩ }) (fun t => t.ring.stepAt == none),
    after (exec (.thermalShutdown 11000) { base with dies := [(⟨0, 0⟩, { Die.reset ⟨0, 0⟩ with localStep := 4 })] }) (fun t => t.ownDie.halted && t.core.phase == .ending .fault && (t.core.ctl.frec.get 0).toNat / 2 ^ 48 == 31),
    after (thenDo (exec (.softError 2) base) (exec (.softError 2))) (fun t => t.ownDie.soft == [(2, 1, 0)] && t.eventq.buffer.length == 1)].all id = true := by decide +kernel

theorem witness_InterruptionsTakeEffect_clauses :
    (let s := steppedFixed.putCode 0 0x0200_0C40_8000_0000; steppedFixed.core.slow = false ∧ ((s.withCore { s.core with clk := s.ownDie.localStep, slow := false }).passTime).stallStep exec = none)
    ∧ (base.place.n ≠ 1 ∧ base.ownDie.localStep < (3 : Fin 5).val) ∧ (base.place.n ≤ (base.getPkg 0).limit ∧ (base.getPkg 0).limit < 3201) := by decide +kernel

theorem witness_InterruptionsTakeEffect :
    (blankTask.safegap < (on (fun c => { c with watch := 65536 }) base).core.watch ∧ (on (fun c => { c with abortTid := some 7 }) base).core.abortTid = some 7 ∧ base.core.task = some blankTask
      ∧ base.core.phase = .running ∧ base.core.precise ∧ (on (fun c => { c with vq := [⟨0, .mpop, .rne, 0, 0, 0, none, 0⟩] }) base).core.vectorIdle = false)
    ∧ (steppedFixed.core.fixed = true ∧ steppedFixed.core.phase = .running ∧ decide (steppedFixed.core.clk = steppedFixed.ownDie.localStep) = false ∧ steppedFixed.core.stepAge = 4096)
    ∧ (let s : State := { base with dies := [(⟨0, 0⟩, { Die.reset ⟨0, 0⟩ with localStep := 4 })] }; s.Keyed ∧ max (s.getDie ⟨0, 0⟩).localStep s.podStep = 4 ∧ (s.getDie ⟨0, 0⟩).halted = false
      ∧ (s.getDie ⟨0, 0⟩).soft = [] ∧ (s.getCore ⟨0, 0, 0⟩).task.isSome = true)
    ∧ (let s : State := { base with dies := [(⟨0, 0⟩, { Die.reset ⟨0, 0⟩ with soft := [(2, 1, 0)] })] }; (s.getDie ⟨0, 0⟩).soft = [((2 : Fin 5).val, 1, 0)] ∧ s.tick < 0 + 1073741824) := by
  unfold State.Keyed; decide +kernel

/-- The host's event queue of 16 slots with its descriptor at 0xFE_1000_0000_0000, its slots at 0xFE_1000_0000_1000, and one event. -/
def eventful (dropped : Bool) : State :=
  { mem [(0xFE_1000_0000_0000, 0xFE_1000_0000_1000), (0xFE_1000_0000_0018, 0x70104)] base with eventq := ⟨some 0xFE_1000_0000_0000, [rw8 [0x1300, 5]], 2, dropped, []⟩ }
/-- Package 0 with its test port on. -/
def tested : State := base.setPkg { Package.reset 0 with tapen := true, inReset := true }

theorem test_host : [
    after (exec .eventPost (eventful false)) (fun t => t.num 0xFE_1000_0000_1000 8 == 0x1301 && t.num 0xFE_1000_0000_1008 8 == 5 && t.num 0xFE_1000_0000_0010 8 == 1 && t.num 0xFE_1000_0000_001C 4 == 2 && t.eventq.buffer == []
      && t.eventq.msix == [7]),
    after (exec .overflow (eventful true)) (fun t => t.num 0xFE_1000_0000_1000 8 == 0xA_0000_0000_0001 && !t.eventq.overflow && t.eventq.buffer.length == 1),
    after (exec (.hostRead 0x1000 4) (mem [(0x1000, 0x04030201)] base)) (fun t => t.hostReply == .data [1, 2, 3, 4]), after (exec (.hostPostedWrite 0x1000 [9]) base) (fun t => t.byte 0x1000 == 9),
    after (exec (.hostFetchadd 0x1000 3) (mem [(0x1000, -1)] base)) (fun t => t.word 0x1000 == 2 && t.hostReply == .data (List.replicate 8 0xFF)),
    after (exec (.hostCompareAndSwap 0x1000 5 6) (mem [(0x1000, 5)] base)) (fun t => t.word 0x1000 == 6), after (exec (.hostRead 0x1000000000 4) base) (fun t => t.hostReply == .abort),
    after (thenDo (exec .fabricPortLoss base) (exec (.hostRead 0x1000 4))) (fun t => t.hostReply == .abort), after (thenDo (exec .fabricPortLoss base) (exec .fabricPortReturn)) (fun t => (t.getPkg 0).reachable),
    after (exec (.testEnableStrap true) base) (fun t => (t.getPkg 0).tapen), after (exec .bypass tested) (fun t => (t.getPkg 0).tapIr == .bypass && (t.getPkg 0).tapDr == 0),
    after (exec .samplePreload tested) (fun t => (t.getPkg 0).tapIr == .samplePreload), after (exec .extest tested) (fun t => (t.getPkg 0).tapIr == .extest), after (exec .idcode base) (fun t => (t.getPkg 0).tapDr == 0)].all id = true := by
  decide +kernel

theorem witness_HostReachesTheDevice :
    ((eventful false).managed 0 = true ∧ (eventful true).managed 0 = true ∧ (eventful true).bridge = 0) ∧ (eventful false).eqRoom 0xFE_1000_0000_0000 = true ∧ (eventful true).eqRoom 0xFE_1000_0000_0000 = true ∧ base.hostServes 0x1000 8 = true ∧ base.hostServes 0x1000000000 4 = false
    ∧ (tested.getPkg 0).tapen = true ∧ (tested.getPkg 0).inReset = true
    ∧ ((eventful false).Sound ∧ (eventful false).eventq.desc = some 0xFE_1000_0000_0000 ∧ (eventful false).eventq.overflow = false ∧ (eventful true).eventq.overflow = true ∧ (base.getPkg 0).tapen = false
      ∧ (0x1000 : BitVec 56).toNat % 8 = 0 ∧ (0x1004 : BitVec 56).toNat % 8 ≠ 0 ∧ (∀ e ∈ base.queues, e.2.part = [])) := by unfold State.Sound; decide +kernel

/-- A staged image; package 0 with a revoked key. -/
def fw (key : Fin 2) : Firmware := ⟨[1], [2], key, 0, 0, 9⟩
def revoking : State := base.setPkg { Package.reset 0 with revoked := [1] }
/-- Package 0, both of whose complexes run an image whose key is revoked. -/
def unbootable (f : Package → Package) : State :=
  base.setPkg (f { Package.reset 0 with revoked := [0], a := ⟨some (fw 0), 0, 0⟩, b := ⟨some (fw 0), 0, 0⟩ })

theorem test_management : [
    after (exec .heartbeat { (base.setPkg { Package.reset 0 with a := ⟨none, 0, 6⟩ }) with now := 504 * 2 ^ 20 }) (fun t => (t.getPkg 0).b.stateVer == 6 && (t.getPkg 0).beatAt == 2 ^ 20),
    after (exec .takeover { base with now := 504 * 2 ^ 22 }) (fun t => (t.getPkg 0).activeB && t.eventq.buffer.length == 1),
    after (exec .takeover (base.setPkg { Package.reset 0 with updating := some (fw 0) })) (fun t => (t.getPkg 0).activeB && (t.getPkg 0).b.firmware == some (fw 0) && (t.getPkg 0).a.firmware == some (fw 0)),
    after (exec (.setEventq 0xFE_1000_0000_0000) base) (fun t => t.eventq.desc == some 0xFE_1000_0000_0000), after (exec (.setEventq 0x1000) base) (fun t => (t.getPkg 0).status == .refused && t.eventq.desc == none),
    after (exec (.powerLimit 1700) base) (fun t => (t.getPkg 0).limit == 1700 && (t.getPkg 0).status == .done), after (exec (.powerLimit 1650) base) (fun t => (t.getPkg 0).limit == 3200 && (t.getPkg 0).status == .refused),
    after (exec (.update (fw 1)) revoking) (fun t => (t.getPkg 0).status == .refused && (t.getPkg 0).updating == none),
    after (exec (.attest []) base) (fun t => (t.getPkg 0).status == .refused),
    after (exec .resetPackage (mem [(0x1000, 5)] (unbootable (fun p => { p with fused := [(0, 1)], a := { p.a with index := 4 } })))) (fun t => t.mem == [] && t.core.phase == .free
      && (t.getPkg 0).fused == [(0, 1)] && (t.getPkg 0).a.index == 4 && (t.getPkg 0).status == .done && !(t.getPkg 0).reachable && t.eventq.buffer.length == 1),
    after (thenDo (exec .powerOnReset (unbootable id)) (exec .powerOnReset)) (fun t => !(t.getPkg 0).inReset), after (exec .powerOnReset base) (fun t => (t.getPkg 0).inReset),
    after (exec .warmReset (mem [(0x1000, 5)] requested)) (fun t => t.ownDie == Die.reset ⟨0, 0⟩ && t.core.phase == .free && t.num 0x1000 8 == 5), after (exec .powerLoss base) (fun t => !(t.getPkg 0).power)].all id = true := by decide +kernel

theorem test_attestation_counts : after (exec (.attest (List.replicate 32 0)) base) (fun t => (t.getPkg 0).a.index == 1) = true := by decide +kernel

theorem test_takeover_of_update : after (exec .takeover ({ base.setPkg { Package.reset 0 with updating := some (fw 0) } with now := 504 * 2 ^ 22 })) (fun t =>
    (t.getPkg 0).activeB && (t.getPkg 0).b.firmware == some (fw 0) && (t.getPkg 0).a.firmware == none && t.eventq.buffer.map (fun e => e.get 4) == [1]) = true := by decide +kernel

theorem witness_ManagementCommandsComplete_clauses :
    (let s := ({ base.setPkg { Package.reset 0 with updating := some (fw 0) } with now := 504 * 2 ^ 22 } : State)
     (s.getPkg 0).up = true ∧ 4 ≤ s.beatsMissed 0 ∧ (s.getPkg 0).updating = some (fw 0) ∧ (∀ i < 8, (s.getDie ⟨0, i⟩).events = []) ∧ s.eventq.buffer.length < 4096)
    ∧ (let s := base.setPkg { Package.reset 0 with updating := some (fw 0) }; s.beatsMissed 0 < 4 ∧ s.ring.repair = none) := by decide +kernel

theorem witness_ManagementCommandsComplete :
    (Package.reset 0).updating = none ∧ ({ base with now := 504 * 2 ^ 22 } : State).beatsMissed 0 = 4 ∧ (Package.reset 0).beatAt + 2 ^ 20 ≤ ({ base with now := 504 * 2 ^ 20 } : State).tick
    ∧ ({ base with now := 504 * 2 ^ 20 } : State).beatsMissed 0 = 1 ∧ (validPA 0xFE_1000_0000_0000 = true ∧ paSpace 0xFE_1000_0000_0000 = 4 ∧ base.bridge = 0)
    ∧ (1600 ≤ 1700 ∧ 1700 ≤ 3200 ∧ 1700 % 100 = 0 ∧ 1650 % 100 ≠ 0) ∧ (revoking.getPkg 0).accepts (fw 1) = false ∧ ((fw 0).stateLo ≤ (base.getPkg 0).active.stateVer ∧ (base.getPkg 0).active.stateVer ≤ (fw 0).stateHi)
    ∧ (List.replicate 32 (0 : Byte)).length = 32 ∧ (base.getPkg 0).active.index < 2 ^ 20 ∧ 2 ^ 20 ≤ ({ Package.reset 0 with a := ⟨none, 2 ^ 20, 0⟩ } : Package).active.index
    ∧ (base.getPkg 0).inReset = false ∧ ((tested.getPkg 0).power = true ∧ (tested.getPkg 0).inReset = true)
    ∧ (Package.reset 0).up = true ∧ base.managed 0 = true ∧ (base.getPkg 0).activeB = false := by decide +kernel

end Sys2Proof.Tests
end

section
/-! Control registers (R12, R64, R219): what a write leaves in the register, and what it leaves alone. -/

namespace Sys2Proof.Machine

/-! ### The value of a register that was set -/

/-- RPACE reads with the step in force in its STEP field (R138). -/
theorem bits_putBits_step (w : Word) (v : Nat) : bits (putBits w 50 48 v).toNat 50 48 = v % 8 := by
  have := w.isLt
  simp only [putBits, bits, BitVec.toNat_ofNat]
  omega

/-- A word that holds its STEP field already is left as it is. -/
theorem putBits_step_of_bits {w : Word} {v : Nat} (h : bits w.toNat 50 48 = v % 8) : putBits w 50 48 v = w := by
  have := w.isLt
  apply BitVec.eq_of_toNat_eq
  simp only [putBits, bits, BitVec.toNat_ofNat] at h ⊢
  omega

/-- Words that agree outside RPACE's writable bits have one STEP field. -/
theorem bits_step_congr {v w : Word} (h : v &&& ~~~(ctlRW 0x302) = w &&& ~~~(ctlRW 0x302)) :
    bits v.toNat 50 48 = bits w.toNat 50 48 := by
  have e : ∀ x : Word, bits x.toNat 50 48 = (BitVec.extractLsb' 48 3 (x &&& ~~~(ctlRW 0x302))).toNat := fun x => by
    have m : BitVec.extractLsb' 48 3 (~~~(ctlRW 0x302)) = BitVec.allOnes 3 := by decide
    rw [BitVec.extractLsb'_and, m, BitVec.and_allOnes, BitVec.extractLsb'_toNat, Nat.shiftRight_eq_div_pow, bits]
  rw [e, e, h]

/-- What the RW and W1C bits are where no write reaches the register. -/
theorem ctl_readOnly {n : Nat} (h : ∀ x ∈ [0x000, 0x001, 0x002, 0x003, 0x010, 0x011, 0x012, 0x101, 0x102, 0x103, 0x120, 0x121, 0x130, 0x131,
    0x132, 0x133, 0x202, 0x203, 0x300, 0x301, 0x302, 0x303, 0x304, 0x306, 0x307], n ≠ x) : ctlRW n = 0 ∧ ctlW1C n = 0 := by
  simp only [List.forall_mem_cons] at h
  unfold ctlRW ctlW1C
  constructor
  · split <;> simp_all
  · split <;> simp_all

/-- The current core's die reads as it was put back. -/
theorem State.ownDie_setDie {s : State} (k : s.Keyed) {d : Die} (e : d.key = s.ownDie.key) : (s.setDie d).ownDie = d := by
  have e' : d.key = s.core.key.dieKey := e.trans (State.getDie_key k _)
  simp [State.ownDie, State.getDie_setDie, e']

/-- A register reads as it was set, where what is set differs from its value in writable bits alone. -/
theorem State.ctlValue_setCtl {s : State} (k : s.Keyed) (n : Nat) (v : Word)
    (h : v &&& ~~~(ctlRW n ||| ctlW1C n) = s.ctlValue n &&& ~~~(ctlRW n ||| ctlW1C n)) :
    (s.setCtl n v).ctlValue n = v := by
  have own : ∀ d : Die, d.key = s.ownDie.key → (s.setDie d).ownDie = d := fun _ => State.ownDie_setDie k
  unfold State.setCtl
  dsimp only
  split
  case h_1 | h_2 | h_3 | h_4 | h_5 | h_6 | h_7 | h_8 | h_9 | h_10 | h_11 | h_12 => rfl
  case h_17 =>
    have step : bits v.toNat 50 48 = s.stepRead s.ownDie % 8 := by
      rw [bits_step_congr (w := s.ctlValue 0x302) (by simpa [ctlW1C] using h)]
      exact bits_putBits_step _ _
    simp only [State.ctlValue, own]
    exact putBits_step_of_bits step
  case h_22 =>
    split
    · next r =>
      obtain ⟨lo, hi⟩ := r
      interval_cases n <;> exact Vector.getElem_set_self _
    · next r =>
      have ro : ctlRW n = 0 ∧ ctlW1C n = 0 := ctl_readOnly (by simp_all; omega)
      have all : ~~~((0 : Word) ||| 0) = BitVec.allOnes 64 := by decide
      rw [ro.1, ro.2, all, BitVec.and_allOnes, BitVec.and_allOnes] at h
      exact h.symm
  all_goals
    simp only [State.ctlValue, own]

/-! ### What a write leaves alone -/

theorem State.setCtl_g (s : State) (n : Nat) (v : Word) : (s.setCtl n v).core.g = s.core.g := by
  unfold State.setCtl; dsimp only; split
  case h_22 => split <;> rfl
  all_goals rfl
theorem State.setCtl_mem (s : State) (n : Nat) (v : Word) : (s.setCtl n v).mem = s.mem := by
  unfold State.setCtl; dsimp only; split
  case h_22 => split <;> rfl
  all_goals rfl
theorem State.Keyed.setCtl {s : State} (k : s.Keyed) (n : Nat) (v : Word) : (s.setCtl n v).Keyed := by
  unfold State.setCtl; dsimp only; split
  case h_13 | h_14 | h_15 | h_16 | h_17 | h_18 | h_19 | h_20 | h_21 => exact k.setDie _
  case h_22 => split <;> exact k
  all_goals exact k

@[simp] theorem State.post_core (s : State) (n : Nat) (k : CoreKey) (w : List Word) : (s.post n k w).core = s.core := by
  unfold State.post; dsimp only; split
  · rfl
  · split <;> rfl

/-- Posting an event changes of a die its buffer of events alone. -/
theorem State.getDie_post {s : State} (h : s.Keyed) (n : Nat) (k : CoreKey) (w : List Word) (j : DieKey) :
    ∃ l, (s.post n k w).getDie j = { s.getDie j with events := l } := by
  unfold State.post; dsimp only; split
  · exact ⟨_, rfl⟩
  · split
    · rw [State.getDie_setDie]
      split
      · next e =>
        have e' : k.dieKey = j := (State.getDie_key h _).symm.trans e
        exact ⟨_, by rw [e']⟩
      · exact ⟨_, rfl⟩
    · exact ⟨_, rfl⟩

theorem State.ownDie_post {s : State} (h : s.Keyed) (n : Nat) (k : CoreKey) (w : List Word) :
    ∃ l, (s.post n k w).ownDie = { s.ownDie with events := l } := by
  unfold State.ownDie
  rw [State.post_core]
  exact State.getDie_post h n k w _

/-- What the check of the routing fields does: nothing, or it stops the die's shard traffic with an event (Table 6.16). -/
theorem State.routeCheck_cases (s : State) (n : Nat) (x y : Word) :
    s.routeCheck n x y = s
      ∨ (n = 0x307 ∧ ∃ w, s.routeCheck n x y = (s.setDie { s.ownDie with stopped := true }).post 5 s.core.key w) := by
  unfold State.routeCheck
  split
  all_goals
    split
    · next h => exact .inr ⟨by simp_all, _, rfl⟩
    · exact .inl rfl

theorem State.routeCheck_mem (s : State) (n : Nat) (x y : Word) : (s.routeCheck n x y).mem = s.mem := by
  obtain e | ⟨-, w, e⟩ := s.routeCheck_cases n x y <;> simp [e]
theorem State.routeCheck_core (s : State) (n : Nat) (x y : Word) : (s.routeCheck n x y).core = s.core := by
  obtain e | ⟨-, w, e⟩ := s.routeCheck_cases n x y <;> simp [e]
/-- The check changes the value of no register that it is about. -/
theorem State.ctlValue_routeCheck {s : State} (k : s.Keyed) (n : Nat) (x y : Word) :
    (s.routeCheck n x y).ctlValue n = s.ctlValue n := by
  obtain e | ⟨rfl, w, e⟩ := s.routeCheck_cases n x y
  · rw [e]
  · obtain ⟨l, hl⟩ := State.ownDie_post (k.setDie { s.ownDie with stopped := true }) 5 s.core.key w
    calc (s.routeCheck 0x307 x y).ctlValue 0x307
      _ = ((s.setDie { s.ownDie with stopped := true }).post 5 s.core.key w).ownDie.rtrk := by rw [e]; rfl
      _ = (s.setDie { s.ownDie with stopped := true }).ownDie.rtrk := by rw [hl]
      _ = s.ownDie.rtrk := by
        rw [State.ownDie_setDie k (d := { s.ownDie with stopped := true }) rfl]

/-! ### A write, field by field -/

theorem ctlRW_and_ctlW1C (n : Nat) : ctlRW n &&& ctlW1C n = 0#64 := by
  unfold ctlW1C
  split
  · decide
  · decide
  · exact BitVec.and_zero

/-- The bits that a write may change now are RW bits. -/
theorem State.ctlRW_of_ctlRWNow (s : State) (n i : Nat) (h : (s.ctlRWNow n).getLsbD i = true) : (ctlRW n).getLsbD i = true := by
  unfold State.ctlRWNow at h
  split at h
  · next c =>
    have e : n = 0x301 := by simp_all
    subst e
    have sub : (0x8000_0FFF_0000_0000 : Word) &&& ctlRW 0x301 = 0x8000_0FFF_0000_0000 := by decide
    rw [← sub, BitVec.getLsbD_and, Bool.and_eq_true] at h
    exact h.2
  · exact h

/-- An RW bit is no W1C flag. -/
theorem State.ctlW1C_of_ctlRWNow (s : State) (n i : Nat) (h : (s.ctlRWNow n).getLsbD i = true) : (ctlW1C n).getLsbD i = false := by
  have d : ((ctlRW n).getLsbD i && (ctlW1C n).getLsbD i) = false := by
    rw [← BitVec.getLsbD_and, ctlRW_and_ctlW1C, BitVec.getLsbD_zero]
  simpa [s.ctlRW_of_ctlRWNow n i h] using d

/-- What a write of v leaves in a register: RW fields take v, W1C flags clear where it has a one (R12), but for those of FPCS that are
set in this cycle (R64). -/
def State.ctlNew (s : State) (n : Nat) (v : Word) : Word :=
  (s.ctlValue n &&& ~~~(s.ctlRWNow n) ||| v &&& s.ctlRWNow n) &&& ~~~(v &&& ctlW1C n &&& ~~~(if n = 0 then s.core.newFlags else 0))

theorem State.getLsbD_ctlNew (s : State) (n : Nat) (v : Word) (i : Nat) (hi : i < 64) :
    (s.ctlNew n v).getLsbD i = if (s.ctlRWNow n).getLsbD i then v.getLsbD i
      else if (ctlW1C n).getLsbD i && v.getLsbD i && !(decide (n = 0) && s.core.newFlags.getLsbD i) then false
      else (s.ctlValue n).getLsbD i := by
  have d := s.ctlW1C_of_ctlRWNow n i
  have f : (if n = 0 then s.core.newFlags else 0).getLsbD i = (decide (n = 0) && s.core.newFlags.getLsbD i) := by
    split <;> simp [*]
  simp only [State.ctlNew, BitVec.getLsbD_and, BitVec.getLsbD_or, BitVec.getLsbD_not, f, hi, decide_true, Bool.true_and]
  cases h : (s.ctlRWNow n).getLsbD i
  · grind
  · grind

/-- CTLSET and CTLCLR clear no W1C flag: they write an operand whose bits there are zero. -/
theorem State.getLsbD_ctlNew_kept (s : State) (n : Nat) (x : Word) (i : Nat) (hi : i < 64) :
    (s.ctlNew n (x &&& ~~~(ctlW1C n))).getLsbD i
      = if (s.ctlRWNow n).getLsbD i then x.getLsbD i else (s.ctlValue n).getLsbD i := by
  have d := s.ctlW1C_of_ctlRWNow n i
  rw [State.getLsbD_ctlNew s _ _ i hi]
  simp only [BitVec.getLsbD_and, BitVec.getLsbD_not, hi, decide_true, Bool.true_and]
  grind

theorem State.writeCtl_eq (s : State) (n : Nat) (v : Word) :
    s.writeCtl n v = (s.setCtl n (s.ctlNew n v)).routeCheck n (s.ctlValue n) (s.ctlNew n v) := rfl

theorem State.ctlValue_writeCtl {s : State} (k : s.Keyed) (n : Nat) (v : Word) : (s.writeCtl n v).ctlValue n = s.ctlNew n v := by
  rw [State.writeCtl_eq, State.ctlValue_routeCheck (k.setCtl n _), State.ctlValue_setCtl k]
  apply BitVec.eq_of_getLsbD_eq
  intro i hi
  simp only [BitVec.getLsbD_and, BitVec.getLsbD_or, BitVec.getLsbD_not, State.getLsbD_ctlNew s n v i hi, hi, decide_true, Bool.true_and]
  have m := s.ctlRW_of_ctlRWNow n i
  grind

theorem exec_ctlrd (d : GReg) (n : BitVec 12) (s : State) : exec (.ctlrd d n) s = execCtlrd d n s := rfl

/-- Reading a register does not depend on the progress of the sequencer. -/
theorem State.ctlValue_retire (s : State) (n : Nat) : s.retire.ctlValue n = s.ctlValue n := by
  have die : s.retire.ownDie = s.ownDie := by simp only [State.ownDie, State.retire, Core.retire_key]; rfl
  have ctl : s.retire.core.ctl = s.core.ctl := Core.retire_ctl _
  simp only [State.ctlValue, die, ctl]
  rfl

/-- A write in a word completes, changes neither memory nor a general register, and the register then reads back. -/
theorem ctlPrivileged_writeCtl {s : State} (k : s.Keyed) {n : Nat} (p : n < 0x010 ∨ s.core.priv = true) (v : State → Word) :
    ∃ t, ctlPrivileged n (fun s => ok (s.writeCtl n (v s)).retire) s = .next t ∧ s.sameMemory t
      ∧ (∀ r, t.core.rd r = s.core.rd r) ∧ t.ctlValue n = s.ctlNew n (v s) := by
  have run : ctlPrivileged n (fun s => ok (s.writeCtl n (v s)).retire) s = .next (s.writeCtl n (v s)).retire := by
    unfold ctlPrivileged ctlWritePriv
    rcases p with p | p
    · simp [Nat.not_le.2 p, ok]
    · simp [privileged_handler p, ok]
  refine ⟨_, run, fun a => ?_, fun r => ?_, ?_⟩
  · simp only [State.byte, State.retire, State.writeCtl_eq, State.routeCheck_mem, State.setCtl_mem]
  · simp only [Core.rd, State.retire, State.writeCtl_eq, Core.retire_g, State.routeCheck_core, State.setCtl_g]
  · rw [State.ctlValue_retire, State.ctlValue_writeCtl k]

/-- Settles O33: each write is `writeCtl` of some operand, whose effect `ctlNew` says bit by bit. -/
theorem controlRegistersAndTime : Obligations.ControlRegistersAndTime := by
  refine ⟨fun s n a k _ _ _ p => ⟨?_, ?_, ?_⟩, fun s n d => ⟨fun p v f => ?_, fun p u f => ?_, fun v => ?_, fun f => ?_⟩⟩
  · obtain ⟨t, e, mem, regs, val⟩ := ctlPrivileged_writeCtl k p (fun s => s.core.rd a)
    refine ⟨t, e, mem, regs, fun i hi => ?_⟩
    have z : decide (n.toNat = 0) = decide (n = 0) := by simp [BitVec.toNat_eq]
    rw [val, State.getLsbD_ctlNew s _ _ i hi, z]
  · obtain ⟨t, e, mem, regs, val⟩ := ctlPrivileged_writeCtl k p
      (fun s => (s.ctlValue n.toNat ||| s.core.rd a) &&& ~~~(ctlW1C n.toNat))
    refine ⟨t, e, mem, regs, fun i hi => ?_⟩
    rw [val, State.getLsbD_ctlNew_kept s _ _ i hi, BitVec.getLsbD_or]
  · obtain ⟨t, e, mem, regs, val⟩ := ctlPrivileged_writeCtl k p
      (fun s => (s.ctlValue n.toNat &&& ~~~(s.core.rd a)) &&& ~~~(ctlW1C n.toNat))
    refine ⟨t, e, mem, regs, fun i hi => ?_⟩
    rw [val, State.getLsbD_ctlNew_kept s _ _ i hi, BitVec.getLsbD_and, BitVec.getLsbD_not, decide_eq_true hi, Bool.true_and]
  · have read : (ctlReadPriv n.toNat && !s.core.priv) = false := by
      rcases p with p | p <;> simp [ctlReadPriv, p]
    have done : ¬ (decide (n = 0) && !s.core.vectorIdle) = true := by
      rcases v with v | v <;> simp_all
    rw [exec_ctlrd, execCtlrd, if_neg done, if_neg (by simp [read])]
    exact setG_fits f
  · have read : (ctlReadPriv n.toNat && !s.core.priv) = true := by simp [ctlReadPriv, p, u]
    have other : n ≠ 0 := by rintro rfl; simp at p
    have done : ¬ (decide (n = 0) && !s.core.vectorIdle) = true := by simp_all
    rw [exec_ctlrd, execCtlrd, if_neg done, if_pos read]
    exact setG_fits f
  · rw [exec_ctlrd, execCtlrd, if_pos (by simp [v])]
    rfl
  · exact setG_fits f

end Sys2Proof.Machine
end

section
/-! Accesses as they read, arrive and perform (R226, R228, R291, R355, R365). -/

namespace Sys2Proof.Machine

/-! ### Reads of loads that are on their way -/

/-- Where no item of a load holds a soft error, it reads the task's bytes of each (R416). -/
theorem State.itemValues_clean {s : State} {items : List (Nat × Nat)} {n : Nat} (h : ∀ e ∈ items, s.spoiled e.2 n = false) :
    s.itemValues items n = items.map (fun e => s.taskNum e.2 n) := by
  refine if_neg ?_
  simp only [List.any_eq_true, not_exists, not_and, Bool.not_eq_true]
  exact h

/-- A load whose cycle it is, held by no earlier access of its class, has read (R226, R365). -/
theorem State.readsDue_reads {s : State} {l : PLoad} {n : Nat} (mem : l ∈ s.core.loads) (got : l.got = none) (atom : l.atom = false)
    (issued : l.issued = true) (due : l.at_ ≤ s.core.tau) (lag : s.core.loadLag l.items = some n)
    (free : ∀ e ∈ l.items, s.readBlocked l.cls l.num e.2 l.size = false) (clean : ∀ e ∈ l.items, s.spoiled e.2 l.size = false) :
    { l with got := some (l.items.map (fun e => s.taskNum e.2 l.size)), ready := some (s.core.tau + l.more) }
      ∈ s.readsDue.core.loads := by
  have may : s.mayRead l = true := by
    simp only [State.mayRead, PLoad.unread, got, atom, issued, lag, decide_eq_true due, Option.isNone_none, Option.isSome_some,
      Bool.not_false, Bool.and_true, Bool.true_and, List.all_eq_true, Bool.not_eq_true']
    exact free
  refine List.mem_map.2 ⟨l, mem, ?_⟩
  rw [if_pos may, State.itemValues_clean clean, PLoad.read, lag]
  rfl

/-- What an access size gives: sign extension for the s sizes, zero extension otherwise (R303). -/
theorem extendSize_values (x : Nat) : (extendSize .n8 x).toNat = x % 2 ^ 8 ∧ (extendSize .s8 x).toInt = sintOf 8 x
    ∧ (extendSize .n16 x).toNat = x % 2 ^ 16 ∧ (extendSize .s16 x).toInt = sintOf 16 x ∧ (extendSize .n32 x).toNat = x % 2 ^ 32
    ∧ (extendSize .s32 x).toInt = sintOf 32 x ∧ (extendSize .n64 x).toNat = x % 2 ^ 64 := by
  have z : ∀ n ≤ 64, (BitVec.ofNat 64 (x % 2 ^ n)).toNat = x % 2 ^ n := fun n h => by
    rw [BitVec.toNat_ofNat]
    exact Nat.mod_eq_of_lt ((Nat.mod_lt _ (Nat.two_pow_pos n)).trans_le (Nat.pow_le_pow_right (by decide) h))
  have sx : ∀ n, 0 < n → n ≤ 64 → ((BitVec.ofNat n x).signExtend 64).toInt = sintOf n x := fun n p h => by
    have half : 2 * (x % 2 ^ n) < 2 ^ n ↔ x % 2 ^ n < 2 ^ (n - 1) := by
      have e : 2 ^ n = 2 * 2 ^ (n - 1) := by rw [← Nat.pow_succ']; congr 1; omega
      omega
    rw [BitVec.toInt_signExtend_of_le h, BitVec.toInt_eq_toNat_cond, BitVec.toNat_ofNat]
    simp only [sintOf, half]
  exact ⟨z 8 (by decide), sx 8 (by decide) (by decide), z 16 (by decide), sx 16 (by decide) (by decide), z 32 (by decide),
    sx 32 (by decide) (by decide), BitVec.toNat_ofNat _ _⟩

/-! ### Arriving data -/

/-- Reading a vector after one place of it has been set. -/
theorem vector_get_set {α : Type} {n : Nat} (x : Vector α n) (i j : Fin n) (a : α) :
    (x.set i.val a).get j = if j = i then a else x.get j := by
  simp only [Vector.get_eq_getElem, Vector.getElem_set, Fin.ext_iff, eq_comm]

/-- Reading a register after a write (R181). -/
theorem Core.rd_wr (c : Core) (d r : GReg) (v : Word) : (c.wr d v).rd r = if r = d ∧ d ≠ 0 then v else c.rd r := by
  have z : d.val = 0 ↔ d = 0 := (Fin.ext_iff (b := 0)).symm
  unfold Core.wr
  split
  · next h => simp [z.1 h]
  · next h =>
    have h0 : d ≠ 0 := fun e => h (z.2 e)
    simp only [Core.rd, vector_get_set, h0, ne_eq, not_false_eq_true, and_true]
    by_cases e : r = d
    · simp [e, h]
    · simp [e]

/-- Dropping a pin that is due changes of the core its task and its request to drop it alone. -/
theorem State.dropPin_core (s : State) : ∃ t, s.dropPin.core = { s.core with task := t } := by
  unfold State.dropPin
  split
  · split
    · exact ⟨_, rfl⟩
    · exact ⟨_, rfl⟩
  · exact ⟨_, rfl⟩
theorem State.settlePin_core (s : State) : ∃ t u, s.settlePin.core = { s.core with task := t, unpin := u } := by
  unfold State.settlePin
  dsimp only
  split
  · split
    · obtain ⟨t, e⟩ := s.dropPin_core
      exact ⟨t, none, by rw [e]⟩
    · exact ⟨_, _, rfl⟩
  · exact ⟨_, _, rfl⟩

/-- Reading another element, or of another plane, after a write of one. -/
theorem Core.elem_putElem_ne (c : Core) (v : VReg) (e : Nat) (x : Half) {u : VReg} {f : Nat} (h : u ≠ v ∨ f ≠ e) :
    (c.putElem v e x).elem u f = c.elem u f := by
  simp only [Core.elem, Core.putElem, vector_get_set]
  split
  · next k => rw [k]; exact sget_sput_ne x (h.resolve_left (fun n => n k))
  · rfl

/-- An element of a plane in canonical form reads as written, and the plane stays in that form. -/
theorem Core.elem_putElem_self {c : Core} {v : VReg} (w : swf 0 (c.planes.get v) = true) (e : Nat) (x : Half) :
    (c.putElem v e x).elem v e = x ∧ swf 0 ((c.putElem v e x).planes.get v) = true := by
  simp only [Core.elem, Core.putElem, vector_get_set, if_true]
  exact ⟨sget_sput_self e x w, swf_sput e x w⟩

/-- The elements that a vector load gives a plane: each item (element, address) with what was read there (R241). -/
def Core.putItems (c : Core) (v : VReg) (sz : MemSize) (l : List ((Nat × Nat) × Nat)) : Core :=
  l.foldl (fun c e => c.putElem v e.1.1 ((extendSize sz e.2).truncate 32)) c

theorem Core.putItems_frame (c : Core) (v : VReg) (sz : MemSize) (l : List ((Nat × Nat) × Nat)) :
    ∃ p k, c.putItems v sz l = { c with planes := p, clean := k } := by
  unfold Core.putItems
  induction l generalizing c with
  | nil => exact ⟨_, _, rfl⟩
  | cons e r ih =>
    obtain ⟨p, k, h⟩ := ih (c.putElem v e.1.1 ((extendSize sz e.2).truncate 32))
    exact ⟨p, k, h⟩

theorem Core.elem_putItems_ne (c : Core) (v : VReg) (sz : MemSize) (l : List ((Nat × Nat) × Nat)) {u : VReg} {f : Nat}
    (h : u ≠ v ∨ ∀ x ∈ l, x.1.1 ≠ f) : (c.putItems v sz l).elem u f = c.elem u f := by
  unfold Core.putItems
  induction l generalizing c with
  | nil => rfl
  | cons e r ih =>
    have h1 : u ≠ v ∨ f ≠ e.1.1 := h.imp_right (fun g => (g e List.mem_cons_self).symm)
    rw [List.foldl_cons, ih _ (h.imp_right (fun g x m => g x (List.mem_cons_of_mem _ m))), Core.elem_putElem_ne _ _ _ _ h1]

theorem Core.elem_putItems {c : Core} {v : VReg} (w : swf 0 (c.planes.get v) = true) (sz : MemSize) {l : List ((Nat × Nat) × Nat)}
    (d : (l.map (·.1.1)).Nodup) {x : (Nat × Nat) × Nat} (m : x ∈ l) :
    (c.putItems v sz l).elem v x.1.1 = (extendSize sz x.2).truncate 32 := by
  unfold Core.putItems
  induction l generalizing c with
  | nil => simp at m
  | cons e r ih =>
    obtain ⟨now, w'⟩ := Core.elem_putElem_self w e.1.1 ((extendSize sz e.2).truncate 32)
    obtain ⟨fresh, d'⟩ := List.nodup_cons.1 d
    rw [List.foldl_cons]
    rcases List.mem_cons.1 m with rfl | m
    · have others : ∀ y ∈ r, y.1.1 ≠ x.1.1 := fun y hy n =>
        fresh (List.mem_map.2 ⟨y, hy, n⟩)
      exact (Core.elem_putItems_ne _ v sz r (.inr others)).trans now
    · exact ih w' d' m

/-- Items that name each element once do so with the values that a load has for them. -/
theorem nodup_fst_zip {items : List (Nat × Nat)} (h : (items.map (·.1)).Nodup) (v : List Nat) :
    ((items.zip v).map (·.1.1)).Nodup := by
  have e : (items.zip v).map (·.1.1) = ((items.zip v).map Prod.fst).map (·.1) := by rw [List.map_map]; rfl
  rw [e, List.zip_eq_zip_take_min, List.map_fst_zip (by simp)]
  exact h.sublist ((List.take_sublist _ _).map _)

/-- Taking a load's data, by its destination. -/
theorem loadInto_reg (c : Core) {l : PLoad} {d : GReg} {sz : MemSize} (h : l.dst = .reg d sz) (v : List Nat) :
    loadInto c l v = ({ c with loads := c.loads.erase l } : Core).wr d (extendSize sz (v.headD 0)) := by
  rw [loadInto, h]
theorem loadInto_pair (c : Core) {l : PLoad} {d b : GReg} (h : l.dst = .pair d b) (v : List Nat) :
    loadInto c l v = (({ c with loads := c.loads.erase l } : Core).wr d (BitVec.ofNat 64 (v.getD 0 0))).wr b (BitVec.ofNat 64 (v.getD 1 0)) := by
  rw [loadInto, h]
theorem loadInto_plane (c : Core) {l : PLoad} {p : VReg} {sz : MemSize} (h : l.dst = .plane p sz) (v : List Nat) :
    loadInto c l v = ({ c with loads := c.loads.erase l } : Core).putItems p sz (l.items.zip v) := by
  rw [loadInto, h]
  rfl

/-- It moves no pc, and the load is on its way no longer. -/
theorem loadInto_frame (c : Core) (l : PLoad) (v : List Nat) :
    (loadInto c l v).pc = c.pc ∧ (loadInto c l v).loads = c.loads.erase l := by
  cases h : l.dst with
  | reg d sz => simp [loadInto_reg c h]
  | pair d b => simp [loadInto_pair c h]
  | plane p sz =>
    obtain ⟨q, k, e⟩ := Core.putItems_frame { c with loads := c.loads.erase l } p sz (l.items.zip v)
    rw [loadInto_plane c h, e]
    exact ⟨rfl, rfl⟩

/-- LOAD_DATA_ARRIVAL at a load that may arrive. -/
theorem exec_loadDataArrival {s : State} {l : PLoad} (h : (s.core.loads.filter s.loadReady)[s.place.n]? = some l) :
    exec .loadDataArrival s = .next (s.arrive l) := by
  show execLoadDataArrival s = _
  rw [execLoadDataArrival, h]
  rfl

/-- What a load that arrives has: what it read, or else what it reads now. -/
def State.arriving (s : State) (l : PLoad) : List Nat := l.got.getD (l.items.map (fun e => s.taskNum e.2 l.size))

theorem State.arrive_values {s : State} {l : PLoad} (v : s.arriving l ≠ []) (clean : l.got = none → ∀ e ∈ l.items, s.spoiled e.2 l.size = false) :
    s.arrive l = (s.withCore (loadInto s.core l (s.arriving l))).settlePin := by
  have vals : l.got.getD (s.itemValues l.items l.size) = s.arriving l := by
    cases g : l.got with
    | none => simp [State.arriving, g, State.itemValues_clean (clean g)]
    | some x => simp [State.arriving, g]
  have full : (s.arriving l).isEmpty = false := by simpa using v
  simp only [State.arrive, vals, full, Bool.false_and, Bool.false_eq_true, if_false]

/-- A load that meets a soft error as it reads raises MEMORY_ERROR at the word boundary, without its data (Table 15.2, R397). -/
theorem State.arrive_spoiled {s : State} {l : PLoad} {e : Nat × Nat} (g : l.got = none)
    (f : l.items.find? (fun e => s.spoiled e.2 l.size) = some e) (np : l.isPlane = false) (p : s.core.precise) :
    s.arrive l = takeFault { code := 31, addr := e.2, detail := paSpace e.2 }
      (s.withCore { s.core with loads := s.core.loads.erase l }).atBoundary := by
  have hit : l.items.any (fun e => s.spoiled e.2 l.size) = true :=
    List.any_eq_true.2 ⟨e, List.mem_of_find?_eq_some f, List.find?_some (p := fun e : Nat × Nat => s.spoiled e.2 l.size) f⟩
  have nonempty : l.items.isEmpty = false := by
    cases h : l.items with
    | nil => simp [h] at f
    | cons => rfl
  have vals : l.got.getD (s.itemValues l.items l.size) = [] := by simp [g, State.itemValues, hit]
  have idle : (s.withCore { s.core with loads := s.core.loads.erase l }).atBoundary.core.precise := by
    refine ⟨?_, p.2⟩
    have v := p.1
    simp only [Core.vectorIdle, State.atBoundary, Bool.and_eq_true, List.all_eq_true] at v ⊢
    exact ⟨⟨v.1.1, fun x m => v.1.2 x (List.mem_of_mem_erase m)⟩, v.2⟩
  simp only [State.arrive, vals, nonempty, f, np, List.isEmpty_nil, Bool.not_false, Bool.and_self, if_true, Bool.false_eq_true, if_false]
  exact raised_precise _ idle

/-! ### Stores perform -/

/-- A byte that a list of writes gives one value reads as written. -/
theorem sget_putBytes_of_mem {m : List (Nat × Byte)} (w : Memory.wf m = true) {l : List (Nat × Byte)} {e : Nat × Byte} (h : e ∈ l)
    (one : ∀ f ∈ l, f.1 = e.1 → f = e) : sget 0 (putBytes m l) e.1 = e.2 := by
  unfold putBytes
  induction l generalizing m with
  | nil => simp at h
  | cons x r ih =>
    rw [List.foldl_cons]
    by_cases again : e ∈ r
    · exact ih (swf_sput _ _ w) again (fun f m => one f (List.mem_cons_of_mem _ m))
    · obtain rfl := (List.mem_cons.1 h).resolve_right again
      have others : ∀ f ∈ r, f.1 ≠ e.1 := fun f m n => again (one f (List.mem_cons_of_mem _ m) n ▸ m)
      exact (sget_putBytes_of_not_mem others).trans (sget_sput_self _ _ w)

/-- STORE_PERFORM for a class of the sequencer's stores: its oldest store performs, or nothing happens. -/
theorem exec_storePerform_some {s t : State} {cls : OrdClass} (z : s.place.n = 0) (h : performOldest cls s = some t) :
    exec (.storePerform cls) s = .next t := by
  show execStorePerform cls s = _
  simp only [execStorePerform, z, h, ok]
theorem exec_storePerform_none {s : State} {cls : OrdClass} (z : s.place.n = 0) (h : performOldest cls s = none) :
    exec (.storePerform cls) s = .next { s with skipped := true } := by
  show execStorePerform cls s = _
  simp only [execStorePerform, z, h, idle]

/-- An earlier load of the class holds back a store that the load's mask or the store's own mask orders behind it, or that
writes one of its bytes (R228, R362, R363). -/
theorem Core.not_performable {c : Core} {p : PStore} {l : PLoad} (m : l ∈ c.loads) (u : l.unread = true) (k : l.cls = p.cls)
    (n : l.num < p.num)
    (h : (p.obs ≠ 0 ∧ ∃ i ∈ l.items, inReach p.obs c.key i.2 = true)
      ∨ (l.obs ≠ 0 ∧ ∃ e ∈ p.bytes, inReach l.obs c.key e.1 = true)
      ∨ ∃ i ∈ l.items, ∃ e ∈ p.bytes, i.2 ≤ e.1 ∧ e.1 < i.2 + l.size) : c.performable p = false := by
  have held : ∀ e ∈ p.bytes, (l.items.any (fun i => decide (e.1 < i.2 + l.size ∧ i.2 < e.1 + 1)) || (l.obs != 0 && inReach l.obs c.key e.1)) = true
      → c.performable p = false := fun e he r => by
    have b : c.loadBefore p.cls p.num e.1 1 = true := List.any_eq_true.2 ⟨l, m, by
      simp only [u, k, n, beq_self_eq_true, decide_true, Bool.true_and]
      exact r⟩
    have hit : p.bytes.any (fun e => c.loadBefore p.cls p.num e.1 1) = true := List.any_eq_true.2 ⟨e, he, b⟩
    rw [Core.performable, hit, Bool.not_true, Bool.and_false, Bool.false_and]
  rcases h with ⟨o, i, hi, r⟩ | ⟨o, e, he, r⟩ | ⟨i, hi, e, he, lo, hi'⟩
  · have hit : c.loads.any (fun l => l.unread && l.cls == p.cls && decide (l.num < p.num) && p.obs != 0
        && l.items.any (fun i => inReach p.obs c.key i.2)) = true := List.any_eq_true.2 ⟨l, m, by
      simp only [u, k, n, bne_iff_ne.2 o, beq_self_eq_true, decide_true, Bool.true_and]
      exact List.any_eq_true.2 ⟨i, hi, r⟩⟩
    rw [Core.performable, hit, Bool.not_true, Bool.and_false]
  · exact held e he (by rw [bne_iff_ne.2 o, r, Bool.and_self, Bool.or_true])
  · refine held e he ?_
    rw [Bool.or_eq_true]
    exact .inl (List.any_eq_true.2 ⟨i, hi, decide_eq_true ⟨hi', by omega⟩⟩)

/-- Settles O28: reads, arrivals and performs each by the law of their own. -/
theorem accessesPerform : Obligations.AccessesPerform := by
  refine ⟨fun s l n mem got atom issued due lag free => ?_, ⟨extendSize_values, fun s l here => ⟨fun canon v clean => ?_, fun e g f np p => ?_⟩⟩,
    fun s cls p z first plain due able sig rank sound => ?_, fun s cls p l z first mem got atom k n held => ?_⟩
  · exact ⟨State.readsDue_reads mem got atom issued due lag (fun e he => (free e he).1) (fun e he => (free e he).2), rfl⟩
  · have arr := State.arrive_values v clean
    obtain ⟨tk, un, core⟩ := (s.withCore (loadInto s.core l (s.arriving l))).settlePin_core
    obtain ⟨pc, loads⟩ := loadInto_frame s.core l (s.arriving l)
    refine ⟨_, exec_loadDataArrival here, fun a => ?_, ?_, ?_, fun d sz pa h _ => ?_, fun d b p0 p1 h _ => ?_, fun p sz h => ?_⟩
    · rw [arr, State.byte, State.settlePin_mem]; rfl
    · rw [arr, core]; exact pc
    · rw [arr, core]; exact loads
    · rw [arr, core, loadInto_reg _ h]
      exact ⟨Core.wr_planes _ _ _, fun r => Core.rd_wr _ _ _ _⟩
    · rw [arr, core, loadInto_pair _ h]
      refine ⟨by simp, fun r => (Core.rd_wr _ _ _ _).trans ?_⟩
      rw [Core.rd_wr]
      rfl
    · rw [arr, core, loadInto_plane _ h]
      refine ⟨fun r => ?_, fun u e _ other => ?_, fun once _ x m => ?_⟩
      · obtain ⟨q, k, e⟩ := Core.putItems_frame { s.core with loads := s.core.loads.erase l } p sz (l.items.zip (s.arriving l))
        rw [e]
        rfl
      · exact Core.elem_putItems_ne _ _ _ _ (other.imp_right (fun o x m => o x.1 (List.of_mem_zip m).1))
      · exact Core.elem_putItems (c := { s.core with loads := s.core.loads.erase l }) (canon p) sz (nodup_fst_zip once _) m
  · rw [exec_loadDataArrival here, State.arrive_spoiled g f np p]
  · have perf : performOldest cls s = some (s.performStore p) := by
      simp [performOldest, first, due, able, sig, rank]
    have eff : s.performStore p = (s.withCore { s.core with stores := s.core.stores.erase p }).perform p.bytes := by
      simp only [State.performStore, plain]
    refine ⟨_, exec_storePerform_some z perf, fun x h => ?_, fun e he one => ?_, ?_, ?_⟩
    · rw [eff]; exact State.byte_perform_of_not_mem h
    · rw [eff]; exact sget_putBytes_of_mem sound he one
    · rw [eff]; rfl
    · rw [eff]; rfl
  · have cp : p.cls = cls := by simpa using List.find?_some first
    have un : s.core.performable p = false :=
      Core.not_performable mem (by simp [PLoad.unread, got, atom]) (k.trans cp.symm) n held
    exact exec_storePerform_none z (by simp [performOldest, first, un])

end Sys2Proof.Machine
end

section
/-! How long digests, signatures and reports are (R421, R423, entry 116). -/

namespace Sys2Proof

@[simp] theorem length_shake (rate : Nat) (m : List Byte) : (shake rate m).length = 32 := length_toBytes _ _
@[simp] theorem length_shake256 (m : List Byte) : (shake256 m).length = 32 := length_shake 136 m
@[simp] theorem length_xmssHash (kind : Nat) (key m : List Byte) : (xmssHash kind key m).length = 32 := length_shake 168 _
@[simp] theorem length_bigBytes (n x : Nat) : (bigBytes n x).length = n := by simp [bigBytes]
@[simp] theorem length_xmssNode (seed : List Byte) (ty a height idx : Nat) (x y : List Byte) :
    (xmssNode seed ty a height idx x y).length = 32 := length_xmssHash _ _ _

/-- A chain of strings of 32 bytes stays one. -/
theorem length_xmssChain (seed : List Byte) (l i lo n : Nat) {x : List Byte} (h : x.length = 32) :
    (xmssChain seed l i lo n x).length = 32 := by
  induction n generalizing lo x with
  | zero => exact h
  | succ n ih => exact ih _ (length_xmssHash _ _ _)

/-- A level over strings of 32 bytes is one of such strings, and not empty where they were not. -/
theorem xmssLevel_strings (seed : List Byte) (l height : Nat) (i : Nat) {x : List (List Byte)} (h : ∀ y ∈ x, y.length = 32) :
    (∀ y ∈ xmssLevel seed l height i x, y.length = 32) ∧ (x ≠ [] → xmssLevel seed l height i x ≠ []) := by
  induction i, x using xmssLevel.induct with
  | case1 i x y r ih =>
    have rest := (ih (fun z m => h z (by simp [m]))).1
    simp only [xmssLevel]
    refine ⟨fun z m => ?_, fun _ => by simp⟩
    rcases List.mem_cons.1 m with rfl | m
    · exact length_xmssNode _ _ _ _ _ _ _
    · exact rest z m
  | case2 i x r =>
    rw [xmssLevel.eq_2 _ _ _ _ _ r]
    exact ⟨h, id⟩

/-- The leaf of a one-time public key has 32 bytes. -/
theorem length_xmssLeaf (seed : List Byte) (l : Nat) {pk : List (List Byte)} (n : pk ≠ []) (h : ∀ y ∈ pk, y.length = 32) :
    (xmssLeaf seed l pk).length = 32 := by
  have fold : ∀ (hs : List Nat) (x : List (List Byte)), x ≠ [] → (∀ y ∈ x, y.length = 32) →
      ((hs.foldl (fun x k => xmssLevel seed l k 0 x) x).headD []).length = 32 := by
    intro hs
    induction hs with
    | nil =>
      intro x n h
      cases x with
      | nil => exact absurd rfl n
      | cons y r => exact h y List.mem_cons_self
    | cons k r ih =>
      intro x n h
      obtain ⟨strings, items⟩ := xmssLevel_strings seed l k 0 h
      exact ih _ (items n) strings
  exact fold _ pk n h

/-- Strings of c bytes joined. -/
theorem length_flatMap_const {α β : Type} {f : α → List β} {c : Nat} (l : List α) (h : ∀ x ∈ l, (f x).length = c) :
    (l.flatMap f).length = l.length * c := by
  induction l with
  | nil => simp
  | cons x r ih =>
    rw [List.flatMap_cons, List.length_append, ih (fun y m => h y (List.mem_cons_of_mem _ m)), h x List.mem_cons_self,
      List.length_cons, Nat.succ_mul, Nat.add_comm]

/-- A digest gives 67 digits. -/
theorem length_xmssDigits {m : List Byte} (h : m.length = 32) : (xmssDigits m).length = 67 := by
  have two := length_flatMap_const (f := fun b : Byte => [b.toNat / 16, b.toNat % 16]) m (c := 2) (fun _ _ => rfl)
  simp only [xmssDigits, List.length_append, two, h, List.length_cons, List.length_nil]

/-- A secret whose chains start at strings of 32 bytes, as those of every complex do. -/
theorem XmssSecret.length_node (k : XmssSecret) (c : ∀ l i, (k.chain l i).length = 32) (h i : Nat) : (k.node h i).length = 32 := by
  cases h with
  | zero =>
    refine length_xmssLeaf _ _ (by simp) (fun y m => ?_)
    obtain ⟨j, -, rfl⟩ := List.mem_map.1 m
    exact length_xmssChain _ _ _ _ _ (c _ _)
  | succ h => exact length_xmssNode _ _ _ _ _ _ _

theorem XmssSecret.length_sign (k : XmssSecret) (c : ∀ l i, (k.chain l i).length = 32) (l : Nat) (m : List Byte) :
    (k.sign l m).length = 2820 := by
  simp only [XmssSecret.sign, List.length_append, length_bigBytes, length_xmssHash]
  rw [length_flatMap_const _ (c := 32) (fun d _ => length_xmssChain _ _ _ _ _ (c _ _)),
    length_flatMap_const _ (c := 32) (fun d _ => k.length_node c _ _), List.length_zipIdx,
    length_xmssDigits (m := xmssDigest _ _ _ _) (length_xmssHash _ _ _), List.length_range]

end Sys2Proof
end

section
/-! What the fields of an attestation report hold (Table 16.4). -/

namespace Sys2Proof.Machine

/-- The fields of a report that stands before a signature, by their lengths (Table 16.4). -/
theorem report_fields {a b c d e f g h : List Byte} (sig : List Byte) (la : a.length = 8) (lb : b.length = 8) (lc : c.length = 32)
    (ld : d.length = 32) (le : e.length = 32) (lf : f.length = 32) (lg : g.length = 8) (lh : h.length = 8) :
    let r := a ++ b ++ c ++ d ++ e ++ f ++ g ++ h
    r.length = 160 ∧ (r ++ sig).take 8 = a ∧ ((r ++ sig).drop 16).take 32 = c ∧ ((r ++ sig).drop 48).take 32 = d
      ∧ ((r ++ sig).drop 144).take 8 = g := by
  refine ⟨by simp [la, lb, lc, ld, le, lf, lg, lh], ?_, ?_, ?_, ?_⟩
  · simp [la]
  all_goals simp [List.drop_append, List.drop_of_length_le, la, lb, lc, ld, le, lf, lg]

/-- What a report holds, also where its signature stands behind it. -/
theorem State.attestation_fields (s : State) (n : Nat) {nonce : List Byte} (h : nonce.length = 32) {i : Nat} (hi : i < 2 ^ 20)
    (sig : List Byte) :
    let p := s.getPkg n
    let r := s.attestation n nonce i ++ sig
    (s.attestation n nonce i).length = 160
      ∧ ofBytes (r.take 8) = 2 ^ 48 + (if p.activeB = true then 2 ^ 40 else 0) + n % 128 * 2 ^ 33 + (if p.tapen = true then 2 ^ 32 else 0) + i
      ∧ (r.drop 16).take 32 = nonce ∧ (r.drop 48).take 32 = shake256 p.running
      ∧ ofBytes ((r.drop 144).take 8) = p.active.stateVer % 2 ^ 32 * 2 ^ 32 + p.minRollback % 2 ^ 32 := by
  intro p r
  obtain ⟨len, id, non, dig, ver⟩ := report_fields sig (length_toBytes 8 _) (length_toBytes 8 (Config.serial n).toNat) h
    (length_shake256 p.running) (length_shake256 (((s.getDie ⟨n, 0⟩).handler.map (·.2)).getD [])) (length_shake256 (s.fuseBytes n))
    (length_toBytes 8 (p.active.stateVer % 2 ^ 32 * 2 ^ 32 + p.minRollback % 2 ^ 32)) (length_toBytes 8 0)
  have small := Nat.mod_lt n (show 0 < 128 by decide)
  refine ⟨len, (congrArg ofBytes id).trans ?_, non, dig, (congrArg ofBytes ver).trans ?_⟩
  · rw [ofBytes_toBytes]
    split <;> split <;> omega
  · rw [ofBytes_toBytes]
    omega

end Sys2Proof.Machine
end

section
/-! The management complexes: what a takeover, a reset and bring-up leave of packages, dies, cores and memory (R14, R419 to R428). -/

namespace Sys2Proof.Machine

/-- A fold over operations that keep a part of the state keeps it. -/
theorem foldl_keeps {α β γ : Type} {f : β → α → β} (g : β → γ) (h : ∀ b a, g (f b a) = g b) (l : List α) (b : β) :
    g (l.foldl f b) = g b := by
  induction l generalizing b with
  | nil => rfl
  | cons a r ih => exact (ih (f b a)).trans (h b a)

@[simp] theorem State.post_pkgs (s : State) (n : Nat) (k : CoreKey) (w : List Word) : (s.post n k w).pkgs = s.pkgs := by
  unfold State.post; dsimp only; split
  · rfl
  · split <;> rfl
@[simp] theorem State.post_place (s : State) (n : Nat) (k : CoreKey) (w : List Word) : (s.post n k w).place = s.place := by
  unfold State.post; dsimp only; split
  · rfl
  · split <;> rfl
@[simp] theorem State.post_parked (s : State) (n : Nat) (k : CoreKey) (w : List Word) : (s.post n k w).parked = s.parked := by
  unfold State.post; dsimp only; split
  · rfl
  · split <;> rfl
@[simp] theorem State.getPkg_post (s : State) (n : Nat) (k : CoreKey) (w : List Word) (m : Nat) : (s.post n k w).getPkg m = s.getPkg m := by
  rw [State.getPkg, State.post_pkgs]
  rfl

/-- A package that was put back reads so under its own number. -/
theorem State.getPkg_setPkg_of {s : State} {p : Package} {n : Nat} (h : p.pkg = n) : (s.setPkg p).getPkg n = p := by
  rw [State.getPkg_setPkg, if_pos h]

/-! ### Takeovers (R419, R420) -/

/-- Sending on the events of one die. -/
def State.flushDie (s : State) (k : DieKey) : State :=
  let d := s.getDie k
  if d.events.isEmpty then s else s.setDie { d with events := [] }

theorem State.flushDie_pkgs (s : State) (k : DieKey) : (s.flushDie k).pkgs = s.pkgs := by
  unfold State.flushDie; dsimp only; split <;> rfl
theorem State.flushDie_none {s : State} {k : DieKey} (h : (s.getDie k).events = []) : s.flushDie k = s := by
  simp [State.flushDie, h]
/-- Sending on the events of some dies. -/
def State.flushAll (s : State) (ks : List DieKey) : State :=
  let t := ks.foldl State.flushDie s
  { t with eventq := (sortBy (fun (e : Vector Word 8) => (e.get 1).toNat) (ks.flatMap (fun k => (s.getDie k).events))).foldl EventQ.push t.eventq }

theorem State.flushEvents_eq (s : State) (p : Nat) : s.flushEvents p = s.flushAll ((List.range 8).map (fun d => ⟨p, d⟩)) := rfl
theorem State.flushAll_pkgs (s : State) (ks : List DieKey) : (s.flushAll ks).pkgs = s.pkgs :=
  foldl_keeps State.pkgs State.flushDie_pkgs ks s
@[simp] theorem State.getPkg_flushEvents (s : State) (p m : Nat) : (s.flushEvents p).getPkg m = s.getPkg m := by
  rw [State.flushEvents_eq, State.getPkg, State.flushAll_pkgs]
  rfl
/-- Where dies hold no events, there is nothing to send on. -/
theorem State.flushAll_none {s : State} {ks : List DieKey} (h : ∀ k ∈ ks, (s.getDie k).events = []) : s.flushAll ks = s := by
  have es : ks.flatMap (fun k => (s.getDie k).events) = [] := by simpa using h
  have keep : ∀ l : List DieKey, (∀ k ∈ l, (s.getDie k).events = []) → l.foldl State.flushDie s = s := by
    intro l
    induction l with
    | nil => exact fun _ => rfl
    | cons k r ih =>
      intro q
      rw [List.foldl_cons, State.flushDie_none (q k List.mem_cons_self)]
      exact ih (fun x m => q x (List.mem_cons_of_mem _ m))
  simp only [State.flushAll, es, keep ks h]
  rfl
theorem State.flushEvents_none {s : State} {p : Nat} (h : ∀ i < 8, (s.getDie ⟨p, i⟩).events = []) : s.flushEvents p = s := by
  rw [State.flushEvents_eq]
  refine State.flushAll_none (fun k m => ?_)
  obtain ⟨i, hi, rfl⟩ := List.mem_map.1 m
  exact h i (List.mem_range.1 hi)
@[simp] theorem State.getPkg_postTakeover (s : State) (p c m : Nat) : (s.postTakeover p c).getPkg m = s.getPkg m := State.getPkg_post _ _ _ _ _

/-- A TAKEOVER event goes to the bridge module's buffer, where that has room, from a package whose beats count from now (Table 16.3). -/
theorem State.postTakeover_buffer {s : State} {n : Nat} (cause : Nat) (beat : (s.getPkg n).beatAt = s.tick)
    (room : s.eventq.buffer.length < 4096) :
    (s.postTakeover n cause).eventq.buffer = s.eventq.buffer ++ [eventRecord 9 ⟨n, 0, 0⟩ s.tick
      [complexCode (s.getPkg n).activeB, BitVec.ofNat 64 (s.getPkg n).active.stateVer, BitVec.ofNat 64 cause]] := by
  have fresh : s.beatsMissed n < 4 := by simp [State.beatsMissed, beat]
  simp only [State.postTakeover, State.post, fresh, if_true, EventQ.push, room]

/-- The event of a takeover that finds no events to send on. -/
theorem State.takenOver_buffer {s : State} {p : Package} {n : Nat} (cause : Nat) (key : p.pkg = n) (beat : p.beatAt = s.tick)
    (quiet : ∀ i < 8, (s.getDie ⟨n, i⟩).events = []) (room : s.eventq.buffer.length < 4096) :
    (((s.setPkg p).flushEvents n).postTakeover n cause).eventq.buffer = s.eventq.buffer ++ [eventRecord 9 ⟨n, 0, 0⟩ s.tick
      [complexCode p.activeB, BitVec.ofNat 64 p.active.stateVer, BitVec.ofNat 64 cause]] := by
  have left := State.getPkg_setPkg_of (s := s) key
  have event := State.postTakeover_buffer (s := s.setPkg p) (n := n) cause (by rw [left]; exact beat) room
  rw [left] at event
  rw [State.flushEvents_none (s := s.setPkg p) quiet]
  exact event

/-- A package whose standby takes over at a tick because its active complex failed (R419, R420). -/
def Package.failedOver (p : Package) (t : Nat) : Package :=
  let boot := fun (c : Complex) => match p.updating with | some fw => { c with firmware := some fw } | none => c
  let p := { p with a := if p.activeB then boot p.a else p.a, b := if p.activeB then p.b else boot p.b }
  { p with activeB := !p.activeB, updating := none, beatAt := t }

theorem Package.failedOver_active {p : Package} {f : Firmware} (t : Nat) (u : p.updating = some f) :
    (p.failedOver t).active.firmware = some f := by
  cases h : p.activeB <;> simp [Package.failedOver, Package.active, h, u]

theorem Package.failedOver_code (p : Package) (t : Nat) :
    complexCode (p.failedOver t).activeB = if p.activeB = true then 0 else 1 := by
  cases h : p.activeB <;> simp [complexCode, Package.failedOver, h]

/-- A package whose standby takes over at a tick for an update: both complexes run the new image (R420). -/
def Package.updated (p : Package) (f : Firmware) (t : Nat) : Package :=
  { p with
    activeB := !p.activeB, updating := none, beatAt := t
    a := { p.a with firmware := some f, stateVer := p.active.stateVer }, b := { p.b with firmware := some f, stateVer := p.active.stateVer } }

theorem Package.updated_active (p : Package) (f : Firmware) (t : Nat) :
    (p.updated f t).active.firmware = some f ∧ (p.updated f t).active.stateVer = p.active.stateVer := by
  cases h : p.activeB <;> simp [Package.updated, Package.active, h]

/-- TAKEOVER on a package that is up and whose active complex has missed four heartbeats. -/
theorem exec_takeover_failed {s : State} (up : (s.getPkg s.place.core.pkg).up = true) (m : 4 ≤ s.beatsMissed s.place.core.pkg) :
    exec .takeover s = .next (((s.setPkg ((s.getPkg s.place.core.pkg).failedOver s.tick)).flushEvents s.place.core.pkg).postTakeover
      s.place.core.pkg 1) := by
  show execTakeover s = _
  simp only [execTakeover, up, m, Bool.not_true, Bool.false_eq_true, if_false, if_true]
  rfl
/-- TAKEOVER for an update, where the ring has no repair pending. -/
theorem exec_takeover_update {s : State} {f : Firmware} (up : (s.getPkg s.place.core.pkg).up = true)
    (m : s.beatsMissed s.place.core.pkg < 4) (u : (s.getPkg s.place.core.pkg).updating = some f) (r : s.ring.repair = none) :
    exec .takeover s = .next (((s.setPkg ((s.getPkg s.place.core.pkg).updated f s.tick)).flushEvents s.place.core.pkg).postTakeover
      s.place.core.pkg 0) := by
  show execTakeover s = _
  simp only [execTakeover, up, Nat.not_le.2 m, u, r, Bool.not_true, Bool.false_eq_true, if_false, if_true, Option.isNone_none]
  rfl

/-! ### Commands (R425) -/

/-- The status of a command joins what it changed of its package. -/
theorem complete_setPkg {s : State} {p : Package} (h : p.pkg = s.place.core.pkg) (st : CmdStatus) :
    complete st (s.setPkg p) = s.setPkg { p with status := st } := by
  unfold complete
  rw [State.setPkg_place, State.getPkg_setPkg_of h]
  simp [State.setPkg]
theorem complete_status {s : State} (k : s.Keyed) (st : CmdStatus) :
    (complete st s).getPkg s.place.core.pkg = { s.getPkg s.place.core.pkg with status := st } :=
  State.getPkg_setPkg_of (State.getPkg_key k _)

/-! ### Dies at reset (R14, R428) -/

/-- A finite map without some of its keys. -/
theorem aget_filter_key {κ β : Type} [DecidableEq κ] (l : List (κ × β)) (q : κ → Bool) (k : κ) :
    aget (l.filter (fun e => q e.1)) k = if q k then aget l k else none := by
  have p : (fun e : κ × β => decide (q e.1 = true ∧ decide (e.1 = k) = true)) = fun e => q k && decide (e.1 = k) := by
    funext e
    by_cases h : e.1 = k <;> simp [h]
  rw [aget, List.find?_filter, p]
  cases h : q k <;> simp [aget]

@[simp] theorem State.clearDie_mem (s : State) (k : DieKey) : (s.clearDie k).mem = s.mem := rfl
@[simp] theorem State.clearDie_place (s : State) (k : DieKey) : (s.clearDie k).place = s.place := rfl
@[simp] theorem State.clearDie_now (s : State) (k : DieKey) : (s.clearDie k).now = s.now := rfl

@[simp] theorem State.clearDie_key (s : State) (k : DieKey) : (s.clearDie k).core.key = s.core.key := by
  simp only [State.clearDie]
  split <;> rfl

/-- The cores of the die are at reset, every other core is as it was. -/
theorem State.getCore_clearDie (s : State) (k : DieKey) (j : CoreKey) :
    (s.clearDie k).getCore j = if j.dieKey = k then Core.reset j else s.getCore j := by
  have park : aget (s.clearDie k).parked j = if j.dieKey = k then none else aget s.parked j :=
    (aget_filter_key s.parked (fun c => !(c.dieKey == k)) j).trans (by simp)
  unfold State.getCore
  rw [State.clearDie_key, park]
  by_cases c : s.core.key = j
  · subst c
    by_cases d : s.core.key.dieKey = k <;> simp [State.clearDie, d]
  · by_cases d : j.dieKey = k <;> simp [c, d]

/-- The die itself is at reset, from the present link cycle on. -/
theorem State.getDie_clearDie_self (s : State) (k : DieKey) : (s.clearDie k).getDie k = (Die.reset k).from_ s.linkCycle := by
  simp [State.getDie, State.clearDie]

/-- Of a package, the barriers whose home the die is go, and nothing else. -/
theorem State.getPkg_clearDie (s : State) (k : DieKey) (n : Nat) :
    ∃ b, (s.clearDie k).getPkg n = { s.getPkg n with pkgBars := b } := by
  by_cases z : k.die = 0
  · by_cases e : n = k.pkg
    · subst e
      exact ⟨[], by simp [State.getPkg, State.clearDie, z]⟩
    · exact ⟨(s.getPkg n).pkgBars, by simp [State.getPkg, State.clearDie, z, aget_aput, e]⟩
  · exact ⟨(s.getPkg n).pkgBars, by simp [State.getPkg, State.clearDie, z]⟩

theorem State.Keyed.clearDie {s : State} (h : s.Keyed) (k : DieKey) : (s.clearDie k).Keyed := by
  refine ⟨fun e m => ?_, fun e m => ?_, fun e m => ?_⟩
  · rw [State.clearDie_key]
    exact h.1 e (List.mem_filter.1 m).1
  · rcases mem_aput m with rfl | m
    · rfl
    · exact h.2.1 e m
  · simp only [State.clearDie] at m
    split at m
    · rcases mem_aput m with rfl | m
      · exact State.getPkg_key h _
      · exact h.2.2 e m
    · exact h.2.2 e m

/-- Some dies at reset, one after the other. -/
def State.clearDies (s : State) (ks : List DieKey) : State := ks.foldl State.clearDie s

theorem State.clearDies_mem (s : State) (ks : List DieKey) : (s.clearDies ks).mem = s.mem := foldl_keeps State.mem State.clearDie_mem ks s
theorem State.clearDies_place (s : State) (ks : List DieKey) : (s.clearDies ks).place = s.place :=
  foldl_keeps State.place State.clearDie_place ks s
theorem State.clearDies_now (s : State) (ks : List DieKey) : (s.clearDies ks).now = s.now := foldl_keeps State.now State.clearDie_now ks s
theorem State.Keyed.clearDies {s : State} (h : s.Keyed) (ks : List DieKey) : (s.clearDies ks).Keyed := by
  unfold State.clearDies
  induction ks generalizing s with
  | nil => exact h
  | cons k r ih => exact ih (h.clearDie k)
theorem State.getPkg_clearDies (s : State) (ks : List DieKey) (n : Nat) :
    ∃ b, (s.clearDies ks).getPkg n = { s.getPkg n with pkgBars := b } := by
  unfold State.clearDies
  induction ks generalizing s with
  | nil => exact ⟨_, rfl⟩
  | cons k r ih =>
    obtain ⟨b, e⟩ := ih (s.clearDie k)
    obtain ⟨c, f⟩ := s.getPkg_clearDie k n
    exact ⟨b, by rw [List.foldl_cons, e, f]⟩
theorem State.getCore_clearDies (s : State) {ks : List DieKey} {j : CoreKey} (m : j.dieKey ∈ ks) :
    (s.clearDies ks).getCore j = Core.reset j := by
  have keep : ∀ (r : List DieKey) (t : State), t.getCore j = Core.reset j → (r.foldl State.clearDie t).getCore j = Core.reset j := by
    intro r
    induction r with
    | nil => exact fun _ h => h
    | cons k r ih =>
      intro t h
      exact ih _ (by rw [State.getCore_clearDie, h, ite_self])
  unfold State.clearDies
  induction ks generalizing s with
  | nil => simp at m
  | cons k r ih =>
    rcases List.mem_cons.1 m with e | m
    · exact keep r _ (by rw [State.getCore_clearDie, if_pos e])
    · exact ih _ m

/-- A package as its power-on reset leaves it at a tick (R428 step 1). -/
def Package.cleared (p : Package) (held : Bool) (t : Nat) : Package :=
  { p with
    power := true, inReset := held, updating := none, limit := 3200, reply := [], status := .none, tapIr := .idcode, tapDr := 0, pkgBars := []
    beatAt := t }

/-- The keys of a package's dies. -/
def pkgDies (n : Nat) : List DieKey := (List.range 8).map (fun d => ⟨n, d⟩)

theorem mem_pkgDies {n i : Nat} (h : i < 8) : (⟨n, i⟩ : DieKey) ∈ pkgDies n := List.mem_map.2 ⟨i, List.mem_range.2 h, rfl⟩

theorem State.resetDies_eq (s : State) (n : Nat) (held : Bool) :
    s.resetDies n held = ((s.clearDies (pkgDies n)).zeroPackage n).setPkg ((s.getPkg n).cleared held s.tick) := by
  have fold : (List.range 8).foldl (fun s d => s.clearDie ⟨n, d⟩) s = s.clearDies (pkgDies n) := by
    rw [State.clearDies, pkgDies, List.foldl_map]
  have now := s.clearDies_now (pkgDies n)
  obtain ⟨b, e⟩ := s.getPkg_clearDies (pkgDies n) n
  simp only [State.resetDies, fold]
  generalize s.clearDies (pkgDies n) = r at now e ⊢
  have pkg : (r.zeroPackage n).getPkg n = { s.getPkg n with pkgBars := b } := e
  have tick : (r.zeroPackage n).tick = s.tick := by simp only [State.tick, State.zeroPackage_now, now]
  rw [pkg, tick]
  rfl

/-- After the reset of a package's dies: the package, its cores, its memory, and what stands elsewhere (R14, R428). -/
theorem State.resetDies_spec {s : State} (k : s.Keyed) (n : Nat) (held : Bool) :
    (s.resetDies n held).Keyed ∧ (s.resetDies n held).place = s.place
      ∧ (s.resetDies n held).getPkg n = (s.getPkg n).cleared held s.tick
      ∧ (∀ i < 8, ∀ j, (s.resetDies n held).getCore ⟨n, i, j⟩ = Core.reset ⟨n, i, j⟩)
      ∧ (∀ a, (s.resetDies n held).byte a = if paPkg a = n then 0 else s.byte a) := by
  have core : ∀ i < 8, ∀ j, (s.clearDies (pkgDies n)).getCore ⟨n, i, j⟩ = Core.reset ⟨n, i, j⟩ :=
    fun i h j => s.getCore_clearDies (mem_pkgDies h)
  have keyed := k.clearDies (pkgDies n)
  have place := s.clearDies_place (pkgDies n)
  have mem := s.clearDies_mem (pkgDies n)
  rw [State.resetDies_eq]
  generalize s.clearDies (pkgDies n) = r at core keyed place mem ⊢
  have zeroed : (r.zeroPackage n).Keyed := keyed
  refine ⟨zeroed.setPkg _, place, State.getPkg_setPkg_of (State.getPkg_key k n), core, fun a => ?_⟩
  have b := sget_filter (z := (0 : Byte)) r.mem (fun a => decide (paPkg a ≠ n)) a
  simp only [State.byte, State.setPkg_mem, State.zeroPackage]
  rw [b, mem]
  by_cases e : paPkg a = n <;> simp [e]

/-! ### Bring-up (R428) -/

/-- Steps 5 and 6 of R428 on one die, and on some dies. -/
def State.setUpDie (s : State) (k : DieKey) : State := s.setDie (s.getDie k).setUp
def State.setUpDies (s : State) (ks : List DieKey) : State := ks.foldl State.setUpDie s

theorem State.setUpDies_pkgs (s : State) (ks : List DieKey) : (s.setUpDies ks).pkgs = s.pkgs :=
  foldl_keeps (f := State.setUpDie) State.pkgs (fun _ _ => rfl) ks s
theorem State.setUpDies_mem (s : State) (ks : List DieKey) : (s.setUpDies ks).mem = s.mem :=
  foldl_keeps (f := State.setUpDie) State.mem (fun _ _ => rfl) ks s
theorem State.setUpDies_core (s : State) (ks : List DieKey) : (s.setUpDies ks).core = s.core :=
  foldl_keeps (f := State.setUpDie) State.core (fun _ _ => rfl) ks s
theorem State.setUpDies_parked (s : State) (ks : List DieKey) : (s.setUpDies ks).parked = s.parked :=
  foldl_keeps (f := State.setUpDie) State.parked (fun _ _ => rfl) ks s
theorem State.setUpDies_place (s : State) (ks : List DieKey) : (s.setUpDies ks).place = s.place :=
  foldl_keeps (f := State.setUpDie) State.place (fun _ _ => rfl) ks s

/-- Die k has been set up: its carousel is enabled, and its handler is the one configured for it. -/
def Die.isSetUp (d : Die) (k : DieKey) : Prop := d.enabled = true ∧ d.handler = some (Config.handler k.pkg k.die)

theorem Die.setUp_isSetUp (d : Die) : d.setUp.isSetUp d.key := by
  refine ⟨?_, rfl⟩
  have top : ∀ w : Word, (putBits w 63 63 1).getLsbD 63 = true := fun w => by
    have lt := w.isLt
    have msb := BitVec.msb_eq_getLsbD_last (putBits w 63 63 1)
    rw [← msb, BitVec.msb_eq_decide, decide_eq_true_eq]
    simp only [putBits, bits, BitVec.toNat_ofNat]
    omega
  exact top _

/-- Setting a die up leaves another as it was. -/
theorem State.getDie_setUpDie {s : State} (h : s.Keyed) (j k : DieKey) :
    (s.setUpDie j).getDie k = if j = k then (s.getDie k).setUp else s.getDie k := by
  have key : (s.getDie j).setUp.key = j := State.getDie_key h j
  rw [State.setUpDie, State.getDie_setDie, key]
  split
  · next e => rw [e]
  · rfl

/-- Every die named is set up. -/
theorem State.setUpDies_isSetUp {s : State} (h : s.Keyed) {ks : List DieKey} {k : DieKey} (m : k ∈ ks) :
    ((s.setUpDies ks).getDie k).isSetUp k := by
  have now : ∀ t : State, t.Keyed → (t.getDie k).setUp.isSetUp k := fun t kt => by
    have g := (t.getDie k).setUp_isSetUp
    rwa [State.getDie_key kt] at g
  have keep : ∀ (r : List DieKey) (t : State), t.Keyed → (t.getDie k).isSetUp k → ((t.setUpDies r).getDie k).isSetUp k := by
    intro r
    induction r with
    | nil => exact fun _ _ g => g
    | cons j r ih =>
      intro t kt g
      refine ih _ (kt.setDie _) ?_
      rw [State.getDie_setUpDie kt]
      split
      · exact now t kt
      · exact g
  induction ks generalizing s with
  | nil => simp at m
  | cons j r ih =>
    rcases List.mem_cons.1 m with rfl | m
    · refine keep r _ (h.setDie _) ?_
      rw [State.getDie_setUpDie h, if_pos rfl]
      exact now s h
    · exact ih (h.setDie _) m

/-- A package that bring-up leaves at a tick (R428). -/
def Package.begun (p : Package) (activeB reachable : Bool) (t : Nat) : Package :=
  { p with activeB := activeB, inReset := false, reachable := reachable, beatAt := t }

/-- A package after steps 2 to 7 of R428: set up where an image boots and no other step fails, unreachable otherwise. -/
theorem State.bringUp_cases (s : State) (n : Nat) :
    (((s.getPkg n).boots false = true ∨ (s.getPkg n).boots true = true) ∧ s.place.n ≠ 1
      ∧ s.bringUp n = (s.setPkg ((s.getPkg n).begun (!(s.getPkg n).boots false) true s.tick)).setUpDies (pkgDies n))
    ∨ (¬ (((s.getPkg n).boots false = true ∨ (s.getPkg n).boots true = true) ∧ s.place.n ≠ 1)
      ∧ ∃ w, s.bringUp n = (s.setPkg ((s.getPkg n).begun (s.getPkg n).activeB false s.tick)).post 5 ⟨s.bridge, 0, 0⟩ w) := by
  rw [← Bool.or_eq_true]
  have c : (((s.getPkg n).boots false || (s.getPkg n).boots true) && s.place.n != 1) = true
      ↔ ((s.getPkg n).boots false || (s.getPkg n).boots true) = true ∧ s.place.n ≠ 1 := by
    rw [Bool.and_eq_true, bne_iff_ne]
  unfold State.bringUp
  dsimp only
  split
  · next h =>
    obtain ⟨b, z⟩ := c.1 h
    refine .inl ⟨b, z, ?_⟩
    rw [State.setUpDies, pkgDies, List.foldl_map]
    rfl
  · next h => exact .inr ⟨fun g => h (c.2 g), _, rfl⟩

/-- What bring-up leaves of memory, of the cores and of the place. -/
theorem State.bringUp_frame (s : State) (n : Nat) :
    (s.bringUp n).mem = s.mem ∧ (s.bringUp n).core = s.core ∧ (s.bringUp n).parked = s.parked ∧ (s.bringUp n).place = s.place := by
  obtain ⟨-, -, e⟩ | ⟨-, w, e⟩ := s.bringUp_cases n
  · rw [e, State.setUpDies_mem, State.setUpDies_core, State.setUpDies_parked, State.setUpDies_place]
    exact ⟨rfl, rfl, rfl, rfl⟩
  · rw [e, State.post_mem, State.post_core, State.post_parked, State.post_place]
    exact ⟨rfl, rfl, rfl, rfl⟩

/-- What it leaves of the package, which is reachable where an image boots and no other step fails; its dies are then set up. -/
theorem State.bringUp_pkg {s : State} (k : s.Keyed) (n : Nat) :
    (∃ x y, (s.bringUp n).getPkg n = (s.getPkg n).begun x y s.tick)
      ∧ (((s.bringUp n).getPkg n).reachable = true ↔ ((s.getPkg n).boots false = true ∨ (s.getPkg n).boots true = true) ∧ s.place.n ≠ 1)
      ∧ (((s.bringUp n).getPkg n).reachable = true → ∀ i < 8, ((s.bringUp n).getDie ⟨n, i⟩).isSetUp ⟨n, i⟩) := by
  have key : (s.getPkg n).pkg = n := State.getPkg_key k n
  obtain ⟨b, z, e⟩ | ⟨no, w, e⟩ := s.bringUp_cases n
  · have pkg : (s.bringUp n).getPkg n = (s.getPkg n).begun (!(s.getPkg n).boots false) true s.tick := by
      rw [e, State.getPkg, State.setUpDies_pkgs]
      exact State.getPkg_setPkg_of key
    refine ⟨⟨_, _, pkg⟩, ⟨fun _ => ⟨b, z⟩, fun _ => by rw [pkg]; rfl⟩, fun _ i h => ?_⟩
    rw [e]
    exact State.setUpDies_isSetUp (k.setPkg _) (mem_pkgDies h)
  · have pkg : (s.bringUp n).getPkg n = (s.getPkg n).begun (s.getPkg n).activeB false s.tick := by
      rw [e, State.getPkg_post]
      exact State.getPkg_setPkg_of key
    have isolated : ¬ ((s.bringUp n).getPkg n).reachable = true := by rw [pkg]; simp [Package.begun]
    exact ⟨⟨_, _, pkg⟩, ⟨fun h => absurd h isolated, fun h => absurd h no⟩, fun h => absurd h isolated⟩

/-! ### The resets as events (R14, R428) -/

theorem State.getCore_congr {s t : State} (c : t.core = s.core) (p : t.parked = s.parked) (j : CoreKey) : t.getCore j = s.getCore j := by
  rw [State.getCore, c, p]
  rfl
theorem State.byte_congr {s t : State} (m : t.mem = s.mem) (a : Nat) : t.byte a = s.byte a := by
  rw [State.byte, m]
  rfl

/-- RESET_PACKAGE, where the package's active complex is at work. -/
theorem exec_resetPackage {s : State} (k : s.Keyed) (m : s.managed s.place.core.pkg = true) :
    let n := s.place.core.pkg
    let p := s.getPkg n
    ∃ t, exec .resetPackage s = .next t ∧ (∀ a, paPkg a = n → t.byte a = 0) ∧ (∀ a, paPkg a ≠ n → t.byte a = s.byte a)
      ∧ (∀ i < 8, ∀ j, t.getCore ⟨n, i, j⟩ = Core.reset ⟨n, i, j⟩) ∧ (t.getPkg n).fused = p.fused ∧ (t.getPkg n).a.index = p.a.index
      ∧ (t.getPkg n).inReset = false ∧ ((t.getPkg n).reachable = true ↔ (p.boots false = true ∨ p.boots true = true) ∧ s.place.n ≠ 1)
      ∧ ((t.getPkg n).reachable = true → ∀ i < 8, (t.getDie ⟨n, i⟩).enabled = true ∧ (t.getDie ⟨n, i⟩).handler = some (Config.handler n i)) := by
  intro n p
  obtain ⟨keyed, place, pkg, cores, bytes⟩ := State.resetDies_spec k n false
  obtain ⟨mem, core, parked, place'⟩ := (s.resetDies n false).bringUp_frame n
  obtain ⟨⟨x, y, left⟩, up, dies⟩ := State.bringUp_pkg keyed n
  have run : exec .resetPackage s = .next (complete .done ((s.resetDies n false).bringUp n)) := by
    show execResetPackage s = _
    rw [execResetPackage, served_managed m]
    rfl
  have here : ((s.resetDies n false).bringUp n).place.core.pkg = n := by rw [place', place]
  rw [pkg] at left up
  rw [left] at up dies
  generalize (s.resetDies n false).bringUp n = u at *
  have key : (u.getPkg n).pkg = n := by
    rw [left]
    exact State.getPkg_key k n
  have done : (complete .done u).getPkg n = { u.getPkg n with status := .done } := by
    rw [complete, here]
    exact State.getPkg_setPkg_of key
  rw [left] at done
  refine ⟨_, run, fun a h => ?_, fun a h => ?_, fun i h j => ?_, ?_, ?_, ?_, ?_, ?_⟩
  · exact (State.byte_congr mem a).trans ((bytes a).trans (if_pos h))
  · exact (State.byte_congr mem a).trans ((bytes a).trans (if_neg h))
  · exact (State.getCore_congr core parked _).trans (cores i h j)
  · rw [done]; rfl
  · rw [done]; rfl
  · rw [done]; rfl
  · rw [done, place] at *
    exact up
  · rw [done]
    exact dies

/-- POWER_ON_RESET. -/
theorem exec_powerOnReset {s : State} (k : s.Keyed) :
    let n := s.place.core.pkg
    let p := s.getPkg n
    ∃ t, exec .powerOnReset s = .next t ∧ (p.inReset = false → (t.getPkg n).inReset = true ∧ ∀ a, paPkg a = n → t.byte a = 0)
      ∧ (p.power = true → p.inReset = true → (t.getPkg n).inReset = false ∧ s.sameMemory t) := by
  intro n p
  refine ⟨_, rfl, fun h => ?_, fun on held => ?_⟩
  · obtain ⟨-, -, pkg, -, bytes⟩ := State.resetDies_spec k n true
    rw [if_neg (by simp [p, n, h])]
    exact ⟨by rw [pkg]; rfl, fun a e => (bytes a).trans (if_pos e)⟩
  · obtain ⟨mem, -⟩ := s.bringUp_frame n
    obtain ⟨⟨x, y, left⟩, -⟩ := State.bringUp_pkg k n
    rw [if_pos (by simp [p, n, on, held])]
    exact ⟨by rw [left]; rfl, State.byte_congr mem⟩

/-- Taking the next signature index changes the complexes of a package alone. -/
theorem Package.nextIndex_frame (p : Package) : ∃ a b, p.nextIndex = { p with a := a, b := b } := by
  unfold Package.nextIndex Package.setActive
  split
  · exact ⟨_, _, rfl⟩
  · exact ⟨_, _, rfl⟩

/-- The signature index of complex A or B. -/
def Package.indexOf (p : Package) (b : Bool) : Nat := if b = true then p.b.index else p.a.index

theorem Package.indexOf_nextIndex (p : Package) (b : Bool) : p.nextIndex.indexOf b = p.indexOf b + if b = p.activeB then 1 else 0 := by
  cases b <;> cases h : p.activeB <;> simp [Package.nextIndex, Package.setActive, Package.indexOf, Package.active, h]

/-- A package that has lost its power at a tick, where an attestation may have taken its index (R423, entry 60). -/
def Package.unpowered (p : Package) (skip : Prop) [Decidable skip] (t : Nat) : Package :=
  { (if skip then (p.cleared false t).nextIndex else p.cleared false t) with power := false }

theorem Package.unpowered_keeps (p : Package) (skip : Prop) [Decidable skip] (t : Nat) :
    (p.unpowered skip t).pkg = p.pkg ∧ (p.unpowered skip t).power = false ∧ (p.unpowered skip t).fused = p.fused := by
  obtain ⟨a, b, e⟩ := (p.cleared false t).nextIndex_frame
  unfold Package.unpowered
  split
  · rw [e]
    exact ⟨rfl, rfl, rfl⟩
  · exact ⟨rfl, rfl, rfl⟩

theorem Package.indexOf_unpowered (p : Package) (skip : Prop) [Decidable skip] (t : Nat) (b : Bool) :
    (p.unpowered skip t).indexOf b = p.indexOf b + if skip ∧ b = p.activeB then 1 else 0 := by
  by_cases h : skip
  · have e : (p.unpowered skip t).indexOf b = (p.cleared false t).nextIndex.indexOf b := by
      rw [Package.unpowered, if_pos h]
      rfl
    rw [e, Package.indexOf_nextIndex]
    simp only [h, true_and]
    rfl
  · have e : (p.unpowered skip t).indexOf b = p.indexOf b := by
      rw [Package.unpowered, if_neg h]
      rfl
    rw [e, if_neg (fun c => h c.1), Nat.add_zero]

/-- POWER_LOSS: of the signature indices, that of an attestation under way is skipped, and every other stays. -/
theorem exec_powerLoss {s : State} (k : s.Keyed) :
    let n := s.place.core.pkg
    let p := s.getPkg n
    ∃ t, exec .powerLoss s = .next t ∧ (t.getPkg n).power = false ∧ (t.getPkg n).fused = p.fused
      ∧ ∀ b : Bool, let index := fun (q : Package) => if b = true then q.b.index else q.a.index
        index (t.getPkg n) = index p + (if s.place.n = 1 ∧ b = p.activeB then 1 else 0) := by
  intro n p
  obtain ⟨-, place, pkg, -⟩ := State.resetDies_spec k n false
  have run : exec .powerLoss s = .next ((s.resetDies n false).setPkg (p.unpowered (s.place.n = 1) s.tick)) := by
    show execPowerLoss s = _
    simp only [execPowerLoss]
    rw [place, pkg]
    rfl
  obtain ⟨num, power, fused⟩ := p.unpowered_keeps (s.place.n = 1) s.tick
  have left := State.getPkg_setPkg_of (s := s.resetDies n false) (num.trans (State.getPkg_key k n))
  refine ⟨_, run, ?_, ?_, fun b => ?_⟩
  all_goals rw [left]
  · exact power
  · exact fused
  · exact p.indexOf_unpowered _ _ b

/-- WARM_RESET. -/
theorem exec_warmReset (s : State) :
    ∃ t, exec .warmReset s = .next t ∧ s.sameMemory t
      ∧ t.getDie s.place.core.dieKey = (Die.reset s.place.core.dieKey).from_ s.linkCycle
      ∧ ∀ j, t.getCore ⟨s.place.core.pkg, s.place.core.die, j⟩ = Core.reset ⟨s.place.core.pkg, s.place.core.die, j⟩ :=
  ⟨s.clearDie s.place.core.dieKey, rfl, fun _ => rfl, State.getDie_clearDie_self _ _,
    fun _ => (State.getCore_clearDie _ _ _).trans (if_pos rfl)⟩

/-! ### The commands one by one -/

/-- A package whose active complex has taken an index and replied (R423). -/
def Package.attested (p : Package) (reply : List Byte) : Package := { p.nextIndex with status := .done, reply := reply }

theorem Package.attested_pkg (p : Package) (reply : List Byte) : (p.attested reply).pkg = p.pkg := by
  obtain ⟨a, b, e⟩ := p.nextIndex_frame
  rw [Package.attested, e]
theorem Package.attested_index (p : Package) (reply : List Byte) : (p.attested reply).active.index = p.active.index + 1 := by
  cases h : p.activeB <;> simp [Package.attested, Package.nextIndex, Package.setActive, Package.active, h]

/-- The report of a package as it is, with its signature (R423, R424). -/
def State.signedReport (s : State) (n : Nat) (nonce : List Byte) : List Byte :=
  let p := s.getPkg n
  let r := s.attestation n nonce p.active.index
  r ++ (identityKey n p.activeB).sign p.active.index r

/-- A report and its signature have 2,980 bytes (Table 16.4, R424). -/
theorem length_signedReport (s : State) (n : Nat) {nonce : List Byte} (l : nonce.length = 32)
    (i : (s.getPkg n).active.index < 2 ^ 20) : (s.signedReport n nonce).length = 2980 := by
  have len := (s.attestation_fields n l i []).1
  have sig := (identityKey n (s.getPkg n).activeB).length_sign (fun _ _ => by simp [identityKey]) (s.getPkg n).active.index
    (s.attestation n nonce (s.getPkg n).active.index)
  simp only [State.signedReport, List.length_append, len, sig]

/-- ATTEST (R423). -/
theorem exec_attest {s : State} (m : s.managed s.place.core.pkg = true) {nonce : List Byte} (l : nonce.length = 32)
    (i : (s.getPkg s.place.core.pkg).active.index < 2 ^ 20) :
    exec (.attest nonce) s = .next (s.setPkg ((s.getPkg s.place.core.pkg).attested (s.signedReport s.place.core.pkg nonce))) := by
  show execAttest nonce s = _
  rw [execAttest, served_managed m]
  simp only [l, ne_eq, not_true_eq_false, if_false, Nat.not_le.2 i]
  rfl
theorem exec_attest_exhausted {s : State} (m : s.managed s.place.core.pkg = true) {nonce : List Byte} (l : nonce.length = 32)
    (i : 2 ^ 20 ≤ (s.getPkg s.place.core.pkg).active.index) : exec (.attest nonce) s = .next (complete .keyExhausted s) := by
  show execAttest nonce s = _
  rw [execAttest, served_managed m]
  simp only [l, ne_eq, not_true_eq_false, if_false, i, if_true]
  rfl
theorem exec_attest_refused {s : State} (m : s.managed s.place.core.pkg = true) {nonce : List Byte} (l : nonce.length ≠ 32) :
    exec (.attest nonce) s = .next (complete .refused s) := by
  show execAttest nonce s = _
  rw [execAttest, served_managed m]
  simp only [l, ne_eq, not_false_eq_true, if_true]
  rfl

/-- UPDATE of an image that the package does not accept, or while one is under way (R420). -/
theorem exec_update_refused {s : State} (m : s.managed s.place.core.pkg = true) {f : Firmware}
    (h : (s.getPkg s.place.core.pkg).accepts f = false ∨ (s.getPkg s.place.core.pkg).updating.isSome = true) :
    exec (.update f) s = .next (complete .refused s) := by
  have no : (!(s.getPkg s.place.core.pkg).accepts f || (s.getPkg s.place.core.pkg).updating.isSome) = true := by
    rcases h with h | h <;> simp [h]
  show execUpdate f s = _
  rw [execUpdate, served_managed m]
  simp only [no, if_true]
  rfl
/-- UPDATE of an image that it does accept: by the version of the state table (R420). -/
theorem exec_update_accepted {s : State} (m : s.managed s.place.core.pkg = true) {f : Firmware}
    (h : (s.getPkg s.place.core.pkg).accepts f = true) (u : (s.getPkg s.place.core.pkg).updating = none) :
    exec (.update f) s = .next
      (if (s.getPkg s.place.core.pkg).active.stateVer < f.stateLo ∨ f.stateHi < (s.getPkg s.place.core.pkg).active.stateVer
        then (complete .refused s).postTakeover s.place.core.pkg 2
        else s.setPkg { s.getPkg s.place.core.pkg with updating := some f, status := .done }) := by
  show execUpdate f s = _
  rw [execUpdate, served_managed m]
  simp only [h, u, Bool.not_true, Option.isSome_none, Bool.or_self, Bool.false_eq_true, if_false]
  split <;> rfl

/-- Settles O60: each command, event and reset by the law of its own. -/
theorem managementCommandsComplete : Obligations.ManagementCommandsComplete := by
  intro s k n p refused
  have key : p.pkg = n := State.getPkg_key k n
  have managed : p.up = true → s.beatsMissed n < 4 → s.managed n = true := fun up m => by
    rw [State.managed, Bool.and_eq_true]
    exact ⟨up, decide_eq_true m⟩
  refine ⟨fun up => ⟨fun m => ?_, fun f u m r => ?_⟩, fun up m => ⟨fun due => ?_, fun a here pa sp => ?_, fun a h => ?_, fun w lo hi step => ?_,
    fun w h => ?_, fun f u lo hi => ?_, fun f h => exec_update_refused (managed up m) h, fun f u h => ?_, fun nonce l i => ?_,
    fun nonce l i => exec_attest_exhausted (managed up m) l i, fun nonce l => exec_attest_refused (managed up m) l,
    exec_resetPackage k (managed up m)⟩, exec_powerOnReset k, exec_warmReset s, exec_powerLoss k⟩
  · have left := State.getPkg_setPkg_of (s := s) (p := p.failedOver s.tick) key
    have after : (((s.setPkg (p.failedOver s.tick)).flushEvents n).postTakeover n 1).getPkg n = p.failedOver s.tick := by
      rw [State.getPkg_postTakeover, State.getPkg_flushEvents, left]
    refine ⟨_, exec_takeover_failed up m, congrArg Package.activeB after, congrArg Package.beatAt after, congrArg Package.updating after,
      fun f u => ?_, fun quiet room => ?_⟩
    · exact (congrArg (fun q : Package => q.active.firmware) after).trans (Package.failedOver_active s.tick u)
    · have event := State.takenOver_buffer (s := s) (p := p.failedOver s.tick) (n := n) 1 key rfl quiet room
      rw [p.failedOver_code] at event
      generalize ((s.setPkg (p.failedOver s.tick)).flushEvents n).postTakeover n 1 = t at after event ⊢
      rw [after]
      exact event
  · have left := State.getPkg_setPkg_of (s := s) (p := p.updated f s.tick) key
    refine ⟨_, exec_takeover_update up m u r, ?_⟩
    rw [State.getPkg_postTakeover, State.getPkg_flushEvents, left]
    exact ⟨rfl, (p.updated_active f s.tick).1, (p.updated_active f s.tick).2, rfl⟩
  · show execHeartbeat s = _
    exact if_pos ⟨due, managed up m⟩
  · have allowed : (s.place.core.pkg == s.bridge && validPA a.toNat && paSpace a.toNat == 4) = true := by
      rw [pa, sp, beq_iff_eq.2 here]
      rfl
    have run : execSetEventq a s = _ := command_done (managed up m) allowed
    exact ⟨_, run, rfl, congrArg Package.status (State.getPkg_setPkg_of (p := { p with status := .done }) key)⟩
  · have no : (s.place.core.pkg == s.bridge && validPA a.toNat && paSpace a.toNat == 4) = false := by
      rcases h with h | h | h
      · rw [beq_eq_false_iff_ne.2 h, Bool.false_and, Bool.false_and]
      · rw [h, Bool.and_false, Bool.false_and]
      · rw [beq_eq_false_iff_ne.2 h, Bool.and_false]
    have run : execSetEventq a s = _ := command_refused (managed up m) no
    exact run
  · have allowed : (decide (1600 ≤ w ∧ w ≤ 3200) && w % 100 == 0) = true := by simp [lo, hi, step]
    have run : execPowerLimit w s = _ := command_done (managed up m) allowed
    exact run.trans (congrArg _ (complete_setPkg (p := { p with limit := w }) key .done))
  · have no : (decide (1600 ≤ w ∧ w ≤ 3200) && w % 100 == 0) = false := by
      rw [Bool.and_eq_false_iff, decide_eq_false_iff_not, beq_eq_false_iff_ne]
      omega
    have run : execPowerLimit w s = _ := command_refused (managed up m) no
    exact run
  · cases ac : p.accepts f with
    | false => exact exec_update_refused (managed up m) (.inl ac)
    | true => exact (exec_update_accepted (managed up m) ac u).trans (congrArg _ (if_neg (fun c =>
      c.elim (Nat.not_lt.2 lo) (Nat.not_lt.2 hi))))
  · have refusal : ((complete .refused s).getPkg n).status = .refused ∧ ((complete .refused s).getPkg n).updating = none := by
      rw [complete_status k]
      exact ⟨rfl, u⟩
    cases ac : p.accepts f with
    | false => exact ⟨_, exec_update_refused (managed up m) (.inl ac), refusal⟩
    | true =>
      refine ⟨_, (exec_update_accepted (managed up m) ac u).trans (congrArg _ (if_pos h)), ?_⟩
      rw [State.getPkg_postTakeover]
      exact refusal
  · have left := State.getPkg_setPkg_of (s := s) ((p.attested_pkg (s.signedReport n nonce)).trans key)
    have reply : (p.attested (s.signedReport n nonce)).reply = s.signedReport n nonce := rfl
    obtain ⟨len, id, non, dig, ver⟩ := s.attestation_fields n l i
      ((identityKey n p.activeB).sign p.active.index (s.attestation n nonce p.active.index))
    refine ⟨_, exec_attest (managed up m) l i, ?_⟩
    rw [left, reply]
    refine ⟨p.attested_index _, rfl, length_signedReport s n l i, non, id, dig, ver, ?_⟩
    rw [State.signedReport, List.take_left' len, List.drop_left' len]

end Sys2Proof.Machine
end

section
/-! The rules by which operations keep every core, die and package under its own key (R19, R22, R292): one for each way in which a state is
put together, and one for each operation that words and events share. -/

namespace Sys2Proof.Machine

/-! ### Answers and meanings -/

/-- Where the answer is a next state, that state is keyed. -/
def KeyedNext : Out State → Prop
  | .next t => t.Keyed
  | _ => True

/-- A meaning that keeps keyed states keyed. -/
abbrev KeepsKeyed (m : State → Out State) : Prop := ∀ s : State, s.Keyed → KeyedNext (m s)

/-- A change of a core that leaves it its key. -/
abbrev KeepsKey (f : Core → Core) : Prop := ∀ c : Core, (f c).key = c.key

theorem KeyedNext.of_next {o : Out State} {t : State} (h : KeyedNext o) (e : o = .next t) : t.Keyed := by
  subst e
  exact h
theorem KeyedNext.ite {p : Prop} [Decidable p] {a b : Out State} (ha : KeyedNext a) (hb : KeyedNext b) :
    KeyedNext (if p then a else b) := by
  split
  · exact ha
  · exact hb

/-! ### Rules for states -/

section
variable {s : State}

theorem State.Keyed.ite {p : Prop} [Decidable p] {a b : State} (ha : a.Keyed) (hb : b.Keyed) : (if p then a else b).Keyed := by
  split
  · exact ha
  · exact hb

/-- Another current core under the same key. -/
theorem State.Keyed.withCore (h : s.Keyed) {c : Core} (e : c.key = s.core.key) : (s.withCore c).Keyed :=
  ⟨fun x m => ⟨(h.1 x m).1, fun y => (h.1 x m).2 (y.trans e)⟩, h.2⟩

theorem State.Keyed.foldl {α : Type} {f : State → α → State} (h : s.Keyed) (hf : ∀ t a, t.Keyed → (f t a).Keyed) (l : List α) :
    (l.foldl f s).Keyed :=
  List.foldlRecOn l f h (fun t ht a _ => hf t a ht)

/-- A fold that carries more than the state. -/
theorem foldl_keyed {α β : Type} (g : β → State) {f : β → α → β} {b : β} (h : (g b).Keyed)
    (hf : ∀ b a, (g b).Keyed → (g (f b a)).Keyed) (l : List α) : (g (l.foldl f b)).Keyed :=
  List.foldlRecOn (motive := fun b => (g b).Keyed) l f h (fun b hb a _ => hf b a hb)

/-- The core that is selected leaves the parked ones, the one before it joins them. -/
theorem State.Keyed.select (h : s.Keyed) (k : CoreKey) : (s.select k).Keyed := by
  unfold State.select
  split
  · exact h
  · refine ⟨fun e m => ?_, h.2⟩
    obtain ⟨parked, other⟩ := List.mem_filter.1 m
    have out : e.1 ≠ (s.getCore k).key := by
      rw [State.getCore_key h]
      simpa using other
    rcases mem_aput parked with rfl | m
    · exact ⟨rfl, out⟩
    · exact ⟨(h.1 e m).1, out⟩

theorem State.Keyed.atCore (h : s.Keyed) (k : CoreKey) {f : State → State} (hf : ∀ t : State, t.Keyed → (f t).Keyed) : (s.atCore k f).Keyed :=
  (hf _ (h.select k)).select _

/-- A change of every die. -/
theorem State.Keyed.mapDies (h : s.Keyed) {f : DieKey × Die → Die} (hf : ∀ e, (f e).key = e.2.key) :
    State.Keyed { s with dies := s.dies.map (fun e => (e.1, f e)) } := by
  refine ⟨h.1, fun e m => ?_, h.2.2⟩
  obtain ⟨x, hx, rfl⟩ := List.mem_map.1 m
  exact (hf x).trans (h.2.1 x hx)

/-- A change of every parked core that leaves it its key. -/
theorem State.Keyed.mapParked (h : s.Keyed) {f : CoreKey × Core → Core} (hf : ∀ e, (f e).key = e.2.key) :
    State.Keyed { s with parked := s.parked.map (fun e => (e.1, f e)) } := by
  refine ⟨fun e m => ?_, h.2⟩
  obtain ⟨x, hx, rfl⟩ := List.mem_map.1 m
  exact ⟨(hf x).trans (h.1 x hx).1, (h.1 x hx).2⟩

/-! ### Memory, logs and signals -/

theorem State.Keyed.perform (h : s.Keyed) (l : List (Nat × Byte)) : (s.perform l).Keyed := h
theorem State.Keyed.write (h : s.Keyed) (pa : Nat) (bs : List Byte) : (s.write pa bs).Keyed := h
theorem State.Keyed.writeWord (h : s.Keyed) (pa : Nat) (w : Word) : (s.writeWord pa w).Keyed := h
theorem State.Keyed.freshSlots (h : s.Keyed) (l : List Nat) : (s.freshSlots l).Keyed := .ite h h
theorem State.Keyed.setLog (h : s.Keyed) (l : List LogEntry) : (s.setLog l).Keyed := h
theorem State.Keyed.sendSig (h : s.Keyed) {src pa m v o w p b t n} : (s.sendSig src pa m v o w p b t n).Keyed := h
theorem State.Keyed.hold (h : s.Keyed) (t : Trans) : (s.hold t).Keyed := h.withCore (Core.hold_key _ _)
theorem State.Keyed.readsDue (h : s.Keyed) : s.readsDue.Keyed := h
theorem State.Keyed.atBoundary (h : s.Keyed) : s.atBoundary.Keyed := h
theorem State.Keyed.veil (h : s.Keyed) (k : CoreKey) (pa n : Nat) : (s.veil k pa n).Keyed := by
  unfold State.veil
  split
  · exact .ite h h
  · exact h
theorem State.Keyed.writeDirect (h : s.Keyed) (k : CoreKey) (pa : Nat) (bs : List Byte) : (s.writeDirect k pa bs).Keyed :=
  (h.veil k pa _).write pa bs

/-! ### Events (R414, R415) and faults (R397 to R400) -/

theorem State.Keyed.post (h : s.Keyed) (n : Nat) (k : CoreKey) (w : List Word) : (s.post n k w).Keyed := .ite h (.ite (h.setDie _) h)

theorem State.Keyed.abortDomain (h : s.Keyed) : s.abortDomain.Keyed := by
  refine h.mapParked (fun e => ?_)
  dsimp only
  split
  · rfl
  · rfl
theorem State.Keyed.dropPin (h : s.Keyed) : s.dropPin.Keyed := by
  unfold State.dropPin
  split
  · exact .ite ((h.setDie _).withCore rfl) h
  · exact h
theorem State.Keyed.settlePin (h : s.Keyed) : s.settlePin.Keyed := by
  unfold State.settlePin
  dsimp only
  split
  · exact .ite (h.dropPin.withCore rfl) h
  · exact h
theorem State.Keyed.discardLog (h : s.Keyed) : s.discardLog.Keyed := by
  unfold State.discardLog
  split
  · exact .ite h (.ite ((h.withCore rfl).setDie _) h)
  · exact h
theorem State.Keyed.endByFault (h : s.Keyed) : s.endByFault.Keyed := h.abortDomain.dropPin.discardLog.withCore rfl
theorem takeFault_keyed (h : s.Keyed) (f : FaultInfo) : (takeFault f s).Keyed := .ite (State.Keyed.endByFault (h.withCore rfl)) (h.withCore rfl)
theorem State.Keyed.raised (h : s.Keyed) (f : FaultInfo) : (s.raised f).Keyed := .ite h (.ite (takeFault_keyed h f) (h.withCore rfl))
theorem raise_keyed (h : s.Keyed) {f : FaultInfo} : KeyedNext (raise f s) := h.raised f

/-! ### Retirement and waits (R181, R198) -/

theorem State.Keyed.retire (h : s.Keyed) : s.retire.Keyed := h.withCore (Core.retire_key _)
theorem stay_keyed (h : s.Keyed) : KeyedNext (stay s) := h
theorem stayCounted_keyed (h : s.Keyed) : KeyedNext (stayCounted s) := .ite h h
theorem waitOwn_keyed (h : s.Keyed) {m r} : KeyedNext (waitOwn m r s) := .ite h h
theorem retireWith_keyed (h : s.Keyed) {f : Core → Core} (hf : KeepsKey f) : KeyedNext (retireWith f s) :=
  h.withCore ((Core.retire_key _).trans (hf _))
theorem transferTo_keyed (h : s.Keyed) {a} {f : Core → Core} (hf : KeepsKey f) : KeyedNext (transferTo a f s) :=
  h.withCore ((Core.nextIn_key _ _).trans (hf _))
theorem writeRetire_keyed (h : s.Keyed) {d v} {f : Core → Core} (hf : KeepsKey f) : KeyedNext (writeRetire d v f s) :=
  .ite (raise_keyed h) (retireWith_keyed h (fun c => (Core.wr_key _ _ _).trans (hf c)))
theorem setG_keyed (h : s.Keyed) {d v} : KeyedNext (setG d v s) := writeRetire_keyed h (fun _ => rfl)

/-! ### Guards of a meaning -/

theorem privileged_keyed (h : s.Keyed) {m : State → Out State} (hm : KeepsKeyed m) : KeyedNext (privileged m s) := .ite (hm s h) (raise_keyed h)
theorem unlessSpoiled_keyed (h : s.Keyed) {pa n} {m : State → Out State} (hm : KeepsKeyed m) : KeyedNext (unlessSpoiled pa n m s) :=
  .ite (raise_keyed h) (hm s h)
theorem transFault_keyed (h : s.Keyed) {va x slot engine} : KeyedNext (transFault va x slot engine s) := by
  unfold transFault
  split
  · exact raise_keyed h
  · exact raise_keyed h
  · exact h
theorem logFault_keyed (h : s.Keyed) {e engine} : KeyedNext (logFault e engine s) := by
  unfold logFault
  split
  · exact raise_keyed h
  · exact raise_keyed h
theorem withRead_keyed (h : s.Keyed) {va n} {m : Nat → Trans → State → Out State} (hm : ∀ pa tr, KeepsKeyed (m pa tr)) :
    KeyedNext (withRead va n m s) := by
  unfold withRead
  refine .ite (raise_keyed h) ?_
  split
  · exact transFault_keyed h
  · exact hm _ _ _ (h.hold _)
theorem withPlace_keyed (h : s.Keyed) {va n} {m : Nat → Trans → State → Out State} (hm : ∀ pa tr, KeepsKeyed (m pa tr)) :
    KeyedNext (withPlace va n m s) := by
  unfold withPlace
  refine .ite (raise_keyed h) ?_
  split
  · exact transFault_keyed h
  · exact hm _ _ _ (h.hold _)
theorem unlessCovered_keyed (h : s.Keyed) {va pa n} {m : State → Out State} (hm : KeepsKeyed m) : KeyedNext (unlessCovered va pa n m s) := by
  unfold unlessCovered
  split
  · exact raise_keyed h
  · exact hm s h
theorem withWrite_keyed (h : s.Keyed) {va n} {m : Nat → Trans → State → Out State} (hm : ∀ pa tr, KeepsKeyed (m pa tr)) :
    KeyedNext (withWrite va n m s) :=
  withPlace_keyed h (fun pa tr _ ht => unlessCovered_keyed ht (hm pa tr))

/-! ### Loads and stores on their way (R291, R355) -/

theorem storeChunks_keyed (h : s.Keyed) {cls ls obs trans} {fin : Core → Core} (hf : KeepsKey fin) {vec} :
    KeyedNext (storeChunks cls ls obs trans fin s vec) := by
  unfold storeChunks
  refine .ite h ?_
  split
  · exact logFault_keyed h
  · refine State.Keyed.withCore (.ite h (h.setLog _)) ((hf _).trans (foldl_keeps Core.key (fun c l => ?_) _ _))
    dsimp only
    split
    · rfl
    · rfl
theorem storeBytes_keyed (h : s.Keyed) {cls l obs trans} {fin : Core → Core} (hf : KeepsKey fin) {vec} :
    KeyedNext (storeBytes cls l obs trans fin s vec) :=
  storeChunks_keyed h hf
theorem State.Keyed.performStore (h : s.Keyed) (p : PStore) : (s.performStore p).Keyed := by
  unfold State.performStore
  dsimp only
  split
  · exact h
  · exact .ite h h
theorem performOldest_keyed (h : s.Keyed) {cls} {t : State} (e : performOldest cls s = some t) : t.Keyed := by
  unfold performOldest at e
  split at e
  · cases e
  · split at e
    · injection e with e
      exact e ▸ h.performStore _
    · cases e
theorem settleClass_keyed (h : s.Keyed) (cls : OrdClass) (n : Nat) : (settleClass cls n s).Keyed := by
  induction n generalizing s with
  | zero => exact h
  | succ n ih =>
    unfold settleClass
    split
    · split
      · split
        · next e => exact ih (performOldest_keyed h e)
        · exact h
      · exact h
    · exact h

end

end Sys2Proof.Machine
end

section
/-! Launches, tasks, logs, barriers, signals and records: what their shared operations do keeps every key (R106 to R113, R372 to R387,
R397 to R413). -/

namespace Sys2Proof.Machine

section
variable {s : State}

/-! ### Barriers and signals (R378, R385) -/

theorem State.Keyed.setBar (h : s.Keyed) (b : BarKey) (x : Barrier) : (s.setBar b x).Keyed := by
  unfold State.setBar
  split
  · exact h.setCore _
  · exact h.setDie _
  · exact h.setDie _
  · exact h.setPkg _
  · exact h
theorem State.Keyed.takeSig (h : s.Keyed) (m : SigMsg) : (s.takeSig m).Keyed := by
  unfold State.takeSig
  extract_lets r t
  have ht : t.Keyed := h
  clear_value t
  refine .ite ht (.ite ?_ (State.Keyed.writeWord ?_ _ _))
  · split
    · exact .ite (ht.atCore _ (fun _ hu => hu.atBoundary.raised _)) ht
    · exact ht
  · split
    · exact ht.veil _ _ _
    · exact ht

/-! ### The start and the end of a task (R37, R106 to R113, R406 to R413) -/

theorem loadCode_keyed (h : s.Keyed) {k i x} : (loadCode k i x s).Keyed := by
  unfold loadCode
  split
  · exact .ite h h
  · exact h
theorem State.Keyed.setCleanLines (h : s.Keyed) (k : CoreKey) (l : List Nat) : (s.setCleanLines k l).Keyed := h
theorem State.Keyed.restore (h : s.Keyed) (lo n : Nat) (l : List (Nat × Byte)) : (s.restore lo n l).Keyed := h
theorem State.Keyed.startWork (h : s.Keyed) (k : CoreKey) (w : Source) : (s.startWork k w).Keyed :=
  State.Keyed.setCore ((((loadCode_keyed h).write _ _).write _ _).setCleanLines _ _) _
theorem State.Keyed.resume (h : s.Keyed) (m : Saved) (i : Image) (asid : BitVec 16) (ptbase : Word) : (s.resume m i asid ptbase).Keyed := by
  unfold State.resume
  dsimp only
  split
  · exact h
  · exact State.Keyed.setCore (((((loadCode_keyed h).foldl (fun _ _ ht => ht.write _ _) _).restore _ _ _).restore _ _ _).setCleanLines _ _) _
theorem State.Keyed.setLaunch (h : s.Keyed) (l : Launch) : (s.setLaunch l).Keyed := h
theorem State.Keyed.placeCounted (h : s.Keyed) (l : Launch) (k : CoreKey) (j level : Nat) : (s.placeCounted l k j level).Keyed :=
  ((h.setDie _).setLaunch _).startWork _ _
theorem State.Keyed.preempt (h : s.Keyed) (l : Launch) : (s.preempt l).Keyed := by
  refine h.foldl (fun t x ht => ht.foldl (fun t n ht => ?_) _) _
  dsimp only
  split
  · exact .ite (ht.setCore _) ht
  · exact ht
theorem State.Keyed.endPacket (h : s.Keyed) (q : QKey) (idx status detail ran stopped : Nat) :
    (s.endPacket q idx status detail ran stopped).Keyed := by
  unfold State.endPacket
  split
  · exact h
  · exact h
theorem State.reserveCore_keyed {x : State × Nat} (h : x.1.Keyed) (k : CoreKey) : (State.reserveCore x k).1.Keyed := (h.setDie _).setCore _
theorem State.Keyed.reserve (h : s.Keyed) (l : Launch) : (s.reserve l).Keyed :=
  h.foldl (fun _ _ ht => foldl_keyed Prod.fst ht (fun _ k hb => State.reserveCore_keyed hb k) _) _
theorem State.Keyed.unreserve (h : s.Keyed) (l : Launch) : (s.unreserve l).Keyed :=
  h.foldl (fun _ _ ht => ht.foldl (fun _ _ hu => hu.setDie _) _) _
theorem State.Keyed.beginAt (h : s.Keyed) (k : CoreKey) (tick : Nat) : (s.beginAt k tick).Keyed := h.atCore k (fun _ ht => ht.withCore rfl)
theorem State.Keyed.moveGang (h : s.Keyed) (l : Launch) (x y : DieShare) : (s.moveGang l x y).Keyed :=
  foldl_keyed Prod.fst (h.foldl (fun _ _ ht => ht.setDie _) _) (fun _ k hb => State.reserveCore_keyed hb k) _
theorem State.Keyed.rebindLaunch (h : s.Keyed) (k : CoreKey) (l : Launch) : (s.rebindLaunch k l).Keyed := by
  unfold State.rebindLaunch
  split
  · exact .ite (.ite (.ite h ((h.setLaunch _).moveGang _ _ _)) ((h.setLaunch _).preempt _)) h
  · exact h
theorem State.loseSaved_keyed (h : s.Keyed) {code : Nat} {m : Saved} : (State.loseSaved code s m).Keyed := by
  unfold State.loseSaved
  split
  · dsimp only
    split
    · exact (h.post _ _ _).setLaunch _
    · exact h.post _ _ _
  · exact h
theorem State.Keyed.fuse (h : s.Keyed) (k : CoreKey) : (s.fuse k).Keyed :=
  State.Keyed.post (State.Keyed.foldl (State.Keyed.foldl ((h.setPkg _).setDie _) (fun _ _ ht => State.loseSaved_keyed ht) _)
    (fun _ l ht => ht.rebindLaunch k l) _) _ _ _
theorem State.Keyed.abortCore (h : s.Keyed) (l : Launch) (k : CoreKey) : (s.abortCore l k).Keyed := by
  unfold State.abortCore
  generalize s.getCore k = c
  dsimp only
  split
  · split
    · exact h
    · cases c.phase with
      | stopped groups live at_ => exact h.setCore _
      | running => exact .ite (h.setCore _) ((h.setLaunch _).setCore _)
      | free => exact h
      | ending k => exact h
  · exact h
theorem State.Keyed.cutLaunch (h : s.Keyed) (t : Nat) (l : Launch) : (s.cutLaunch t l).Keyed := by
  have cut : ((s.unreserve l).setLaunch (l.cut t)).Keyed := (h.unreserve l).setLaunch _
  unfold State.cutLaunch
  split
  · exact h.setLaunch _
  · dsimp only
    split
    · exact (cut.foldl (fun _ k ht => ht.abortCore _ k) _).mapDies (fun _ => by rfl)
    · exact cut

/-! ### Merge logs (R373 to R375) -/

theorem applyEntry_keyed {x : State × Flags} (h : x.1.Keyed) (e : LogEntry) : (applyEntry x e).1.Keyed := by
  unfold applyEntry
  split
  · exact h.write _ _
  · exact h.perform _
theorem applyLog_keyed (h : s.Keyed) (l : List LogEntry) : (applyLog s l).1.Keyed := foldl_keyed Prod.fst h (fun _ e hb => applyEntry_keyed hb e) l
theorem State.Keyed.clearLog (h : s.Keyed) (k : CoreKey) (f : Flags) : (s.clearLog k f).Keyed := h.setCore _
theorem State.Keyed.applyCores (h : s.Keyed) (l : List (Nat × CoreKey)) : (s.applyCores l).Keyed :=
  h.foldl (fun _ _ ht => (applyLog_keyed ht _).clearLog _ _) l
theorem State.Keyed.unveil (h : s.Keyed) (l : Nat) : (s.unveil l).Keyed := h
theorem State.Keyed.mergeConflict (h : s.Keyed) (l : Launch) (ts : List (Nat × Core)) (cs : List (Nat × Nat × Nat)) :
    (s.mergeConflict l ts cs).Keyed :=
  State.Keyed.setLaunch (h.foldl (fun _ _ ht => .ite (.ite (ht.setCore _) ht) (ht.setCore _)) _) _
theorem State.Keyed.mergeDone (h : s.Keyed) (l : Launch) (ts : List (Nat × Core)) : (s.mergeDone l ts).Keyed := by
  refine State.Keyed.setLaunch (((h.applyCores _).unveil _).foldl (fun t x ht => ?_) _) _
  dsimp only
  split
  · exact ht.setCore _
  · exact ht

/-! ### Records (R264, R307 to R332) -/

theorem Core.putElem_key (c : Core) (v : VReg) (e : Nat) (x : Half) : (c.putElem v e x).key = c.key := rfl
theorem Core.putElems_key (c : Core) (l : List (Nat × Half)) : (c.putElems l).key = c.key :=
  foldl_keeps Core.key (fun _ _ => Core.putElem_key _ _ _ _) l c

theorem State.Keyed.keepCode (h : s.Keyed) (pas : List Nat) : (State.keepCode pas s).Keyed := .ite h (h.withCore rfl)
theorem State.Keyed.recordRead (h : s.Keyed) (engine : Nat) (ps : List Trans) (l : List Span) : (s.recordRead engine ps l).Keyed := by
  unfold State.recordRead
  split
  · exact h.atBoundary.raised _
  · exact h
theorem State.Keyed.syncLog (h : s.Keyed) : s.syncLog.Keyed := .ite (h.setLog _) h
theorem recWrite_keyed (h : s.Keyed) {logs ps va bs} : (recWrite logs ps va bs s).Keyed :=
  .ite (.ite h (h.withCore rfl)) (.ite (h.write _ _) (h.writeDirect _ _ _))
theorem writeLoc_keyed (h : s.Keyed) {logs b ps v} (l : VLoc) : (writeLoc logs b ps v s l).Keyed := by
  cases l with
  | mem va sub => exact .ite (recWrite_keyed h) (recWrite_keyed h)
  | plane n p => exact h.withCore (Core.putElems_key _ _)
  | byp p => exact h.withCore rfl
theorem State.Keyed.withPair (h : s.Keyed) {old asid f} : (s.withPair old asid f).Keyed := h.setDie _
theorem RPut.perform_keyed (h : s.Keyed) (r : QRec) (p : RPut) : (RPut.perform r s p).Keyed := by
  cases p with
  | val logs b l v => exact writeLoc_keyed h l
  | entry k op => exact h.withCore rfl
  | slot n t => exact h.withCore rfl
  | rows n => exact h.withPair
theorem Put.perform_keyed (h : s.Keyed) (p : Put) (r : QRec) : (p.perform r s).Keyed :=
  State.Keyed.syncLog (State.Keyed.freshSlots ((h.keepCode _).foldl (fun _ o ht => RPut.perform_keyed ht r o) _) _)
theorem State.Keyed.performPut (h : s.Keyed) (xfer : Bool) (r : QRec) (p : Put) : (s.performPut xfer r p).Keyed := by
  refine (Put.perform_keyed h p r).withCore ?_
  dsimp only
  split
  · rfl
  · rfl
theorem State.Keyed.skipCollective (h : s.Keyed) (r : QRec) : (s.skipCollective r).Keyed := .ite h h
theorem State.Keyed.updRun (h : s.Keyed) (k : CoreKey) (n : Nat) (f : QRec → QRec) : (s.updRun k n f).Keyed := h.setCore _
theorem writeStatus_keyed (h : s.Keyed) {k r code rank} : (writeStatus k r code rank s).Keyed := .ite h (h.writeDirect _ _ _)
theorem State.Keyed.install (h : s.Keyed) (g : XGroup) : (s.install g).Keyed := State.Keyed.withCore (h.mapParked (fun _ => by rfl)) rfl
theorem finishRecord_keyed (h : s.Keyed) {k r code rank} : (finishRecord k r code rank s).Keyed := (writeStatus_keyed h).updRun _ _ _

theorem Core.signalRecord_key (c : Core) (product : Bool) (r : QRec) : (c.signalRecord product r).key = c.key := by
  simp only [Core.signalRecord, Core.orFlags_key, apply_ite Core.key, Core.setBarrier_key, Core.setTok_key, ite_self]
theorem Core.resolve_key (c : Core) (r : QRec) : (c.resolve r).key = c.key := by
  unfold Core.resolve
  split
  · rfl
  · rfl
theorem State.Keyed.retireSlab (h : s.Keyed) (r : QRec) : (s.retireSlab r).Keyed := .ite h.withPair h
theorem State.Keyed.retireRecord (h : s.Keyed) (xfer : Bool) (r : QRec) : (s.retireRecord xfer r).Keyed := by
  refine State.Keyed.settlePin (State.Keyed.withCore (.ite (h.retireSlab r) h) ((Core.signalRecord_key _ _ _).trans ?_))
  cases xfer
  · exact Core.resolve_key _ _
  · rfl

/-! ### Loads that arrive (R291) -/

theorem loadInto_key (c : Core) (l : PLoad) (v : List Nat) : (loadInto c l v).key = c.key := by
  unfold loadInto
  dsimp only
  split
  · exact Core.wr_key _ _ _
  · exact (Core.wr_key _ _ _).trans (Core.wr_key _ _ _)
  · exact foldl_keeps Core.key (fun _ _ => Core.putElem_key _ _ _ _) _ _
theorem State.Keyed.arrive (h : s.Keyed) (l : PLoad) : (s.arrive l).Keyed := by
  unfold State.arrive
  dsimp only
  split
  · refine State.Keyed.raised (State.Keyed.atBoundary ?_) _
    exact h
  · exact State.Keyed.settlePin (h.withCore (loadInto_key _ _ _))

end

end Sys2Proof.Machine
end

section
/-! What the checks of ENQ and ENQR leave of the core whose record they check (R288, R309): it stays under its key. -/

namespace Sys2Proof.Machine

/-- Where a check answers a result, P holds of it. -/
def Gives {α : Type} (P : α → Prop) : Chk α → Prop
  | .ok a => P a
  | .error _ => True

section
variable {α β : Type} {P : α → Prop} {Q : β → Prop}

theorem Gives.of_ok {x : Chk α} {a : α} (h : Gives P x) (e : x = .ok a) : P a := by
  subst e
  exact h
theorem Gives.bind {x : Chk β} {f : β → Chk α} (hx : Gives Q x) (hf : ∀ b, Q b → Gives P (f b)) : Gives P (x >>= f) := by
  cases x with
  | ok b => exact hf b hx
  | error e => trivial
/-- A check whose own result does not matter. -/
theorem Gives.after {x : Chk β} {f : β → Chk α} (hf : ∀ b, Gives P (f b)) : Gives P (x >>= f) := by
  cases x with
  | ok b => exact hf b
  | error e => trivial
theorem Gives.ite {p : Prop} [Decidable p] {x y : Chk α} (hx : Gives P x) (hy : Gives P y) : Gives P (if p then x else y) := by
  split
  · exact hx
  · exact hy

end

theorem Core.ite_key {p : Prop} [Decidable p] {a b c : Core} (ha : a.key = c.key) (hb : b.key = c.key) :
    (if p then a else b).key = c.key := by
  split
  · exact ha
  · exact hb

theorem drainBind_key (c : Core) (ws : RWords) : Gives (fun d => d.key = c.key) (drainBind c ws) := by
  unfold drainBind
  refine .ite rfl ?_
  extract_lets h ch top bad others clash d bound
  have key : ∀ u, Gives (fun d => d.key = c.key) (bound u) := fun _ => by
    have kept : d.key = c.key := Core.ite_key rfl rfl
    dsimp only [bound]
    split
    · trivial
    · exact .after (fun _ => kept)
  exact .ite (.after key) (key ())

theorem productProject_key (c : Core) (ws : RWords) (gw : Word) : Gives (fun d => d.key = c.key) (productProject c ws gw) := by
  unfold productProject
  rcases accNames ws with ⟨nd, na⟩
  dsimp only
  split
  case h_1 | h_11 => exact rfl
  case h_10 => exact rfl
  case h_2 | h_4 | h_5 | h_6 =>
    refine .after (fun _ => ?_)
    split
    · trivial
    · exact rfl
  case h_3 | h_9 => exact .after (fun _ => Core.ite_key rfl rfl)
  case h_7 =>
    refine .after (fun _ => .after (fun _ => ?_))
    refine foldl_keeps Core.key (fun b ix => foldl_keeps Core.key (fun d j => ?_) _ _) _ _
    exact Core.ite_key rfl rfl
  case h_8 => exact .after (fun _ => rfl)
  case h_12 => exact .after (fun _ => rfl)

/-- The core of a product record that its checks take. -/
theorem productCheck_key (ws : RWords) (s : State) : Gives (fun p => p.core.key = s.core.key) (productCheck ws s) := by
  unfold productCheck
  rcases accNames ws with ⟨nd, na⟩
  refine .after (fun _ => .after (fun _ => .after (fun _ => .after (fun _ => .after (fun _ => .after (fun _ => ?_))))))
  refine .bind (drainBind_key _ _) (fun d hd => ?_)
  extract_lets names dst finish check
  have finished : ∀ u, Gives (fun p => p.core.key = s.core.key) (finish u) := fun _ =>
    .bind (productProject_key _ _ _) (fun _ hc => .after (fun _ => .after (fun _ => hc.trans hd)))
  have checked : ∀ u, Gives (fun p => p.core.key = s.core.key) (check u) := fun _ => .ite (.after finished) (finished ())
  split
  · exact .after checked
  · exact checked ()

/-- The core of a transfer record that its checks take. -/
theorem transferCheck_key (ws : RWords) (s : State) : Gives (fun p => p.core.key = s.core.key) (transferCheck ws s) := by
  unfold transferCheck
  refine .after (fun _ => .after (fun _ => .after (fun _ => .after (fun _ => ?_))))
  extract_lets os check
  have checked : ∀ u, Gives (fun p => p.core.key = s.core.key) (check u) := fun _ => by
    refine .after (fun _ => .after (fun _ => ?_))
    extract_lets finish
    have finished : ∀ u, Gives (fun p => p.core.key = s.core.key) (finish u) := fun _ => .after (fun _ => rfl)
    exact .ite (.after finished) (finished ())
  split
  · exact .after checked
  · exact checked ()

end Sys2Proof.Machine
end

section
/-! The words of the sequencer and the vector engine keep every key (Tables 8.2 to 8.12, 9.1): each group of words by the operation that it
shares. -/

namespace Sys2Proof.Machine

section
variable {s : State}

/-! ### Control flow (R193 to R204) -/

theorem branchIf_keyed (h : s.Keyed) {t i} : KeyedNext (branchIf t i s) := .ite (transferTo_keyed h (fun _ => rfl)) h.retire
theorem execBmz_keyed (h : s.Keyed) {i} : KeyedNext (execBmz i s) := .ite (branchIf_keyed h) h
theorem execBrl_keyed (h : s.Keyed) {d a} : KeyedNext (execBrl d a s) :=
  .ite (raise_keyed h) (.ite (raise_keyed h) (transferTo_keyed h (fun _ => Core.wr_key _ _ _)))
theorem pushAndGo_keyed (h : s.Keyed) {t} : KeyedNext (pushAndGo t s) := by
  unfold pushAndGo
  refine .ite (transferTo_keyed h (fun _ => rfl)) (.ite (raise_keyed h) ?_)
  split
  · exact transFault_keyed h
  · split
    · exact raise_keyed h
    · refine storeBytes_keyed (h.hold _) (fun c => ?_)
      exact Core.nextIn_key _ _
theorem execCallr_keyed (h : s.Keyed) {a} : KeyedNext (execCallr a s) := .ite (pushAndGo_keyed h) (raise_keyed h)
theorem execRet_keyed (h : s.Keyed) : KeyedNext (execRet s) := by
  unfold execRet
  dsimp only
  split
  · exact h.withCore (Core.nextIn_key _ _)
  · refine .ite (raise_keyed h) ?_
    split
    · exact transFault_keyed h
    · exact .ite h (unlessSpoiled_keyed h (fun t ht => ht.withCore ((Core.nextIn_key _ _).trans (Core.hold_key _ _))))
theorem startLoop_keyed (h : s.Keyed) {l n e} : KeyedNext (startLoop l n e s) :=
  .ite (transferTo_keyed h (fun _ => rfl)) (retireWith_keyed h (fun _ => rfl))
theorem setSlot_key (n : SReg) (v : GuardSlot) : KeepsKey (setSlot n v) := fun c => by
  unfold setSlot
  split
  · rfl
  · rfl
theorem execSafe_keyed (h : s.Keyed) {g l} : KeyedNext (execSafe g l s) := by
  unfold execSafe
  refine .ite h.retire ?_
  split
  · exact h.withCore (Core.retire_key _)
  · exact h.withCore (Core.retire_key _)
  · exact h.withCore (Core.retire_key _)
theorem execRte_keyed (h : s.Keyed) : KeyedNext (execRte s) := privileged_keyed h (fun _ ht => ht.withCore rfl)
theorem execRep_keyed (h : s.Keyed) {n x y} : KeyedNext (execRep n x y s) := by
  unfold execRep
  refine .ite (raise_keyed h) ?_
  split
  · exact raise_keyed h
  · exact .ite (raise_keyed h) (.ite (.ite (h.withCore rfl) (h.withCore rfl)) (h.withCore rfl))

/-! ### Walkers, streams, accumulator banks (R205 to R218) -/

theorem execWbind_keyed (h : s.Keyed) {w a} : KeyedNext (execWbind w a s) := by
  unfold execWbind
  refine .ite (raise_keyed h) ?_
  split
  · exact transFault_keyed h
  · refine .ite h (unlessSpoiled_keyed h (fun t ht => ?_))
    dsimp only
    split
    · exact raise_keyed ht
    · exact retireWith_keyed ht (fun _ => Core.hold_key _ _)
theorem streamOnly_keyed (h : s.Keyed) {m : Task → State → Out State} (hm : ∀ t, KeepsKeyed (m t)) : KeyedNext (streamOnly m s) := by
  unfold streamOnly
  refine .ite ?_ (raise_keyed h)
  split
  · exact hm _ s h
  · exact raise_keyed h
theorem execBatch_keyed (h : s.Keyed) {d a w} : KeyedNext (execBatch d a w s) := by
  refine streamOnly_keyed h (fun t u hu => ?_)
  dsimp only
  split
  · exact setG_keyed hu
  · exact raise_keyed hu
theorem execNeed_keyed (h : s.Keyed) {d a b once} : KeyedNext (execNeed d a b once s) := .ite (raise_keyed h) (setG_keyed (h.setDie _))
theorem execUnpin_keyed (h : s.Keyed) : KeyedNext (execUnpin s) :=
  streamOnly_keyed h (fun _ _ hu => State.Keyed.retire (State.Keyed.settlePin (hu.withCore rfl)))
theorem execKva_keyed (h : s.Keyed) {d a b} : KeyedNext (execKva d a b s) := .ite (raise_keyed h) (setG_keyed h)
theorem execAcalloc_keyed (h : s.Keyed) {d n} : KeyedNext (execAcalloc d n s) := by
  unfold execAcalloc
  dsimp only
  split
  · exact setG_keyed h
  · exact writeRetire_keyed h (fun _ => rfl)
theorem execAcfree_keyed (h : s.Keyed) {a} : KeyedNext (execAcfree a s) := by
  unfold execAcfree
  dsimp only
  split
  · exact raise_keyed h
  · exact .ite (retireWith_keyed h (fun _ => rfl)) h

/-! ### Loads, stores, atomics (R303 to R306) -/

theorem sendLoad_keyed (h : s.Keyed) {f : Core → Core} (hf : KeepsKey f) : KeyedNext (sendLoad f s) := State.Keyed.readsDue (retireWith_keyed h hf)
theorem loadReg_keyed (h : s.Keyed) {cls sz d va} {f : Core → Core} (hf : KeepsKey f) {obs} : KeyedNext (loadReg cls sz d va f s obs) := by
  unfold loadReg
  refine withRead_keyed h (fun pa tr t ht => ?_)
  exact .ite (.ite ht (unlessSpoiled_keyed ht (fun _ hu => writeRetire_keyed hu hf))) (sendLoad_keyed ht hf)
theorem execLdp_keyed (h : s.Keyed) {cls d b a off} : KeyedNext (execLdp cls d b a off s) :=
  withRead_keyed h (fun _ _ _ ht => withRead_keyed ht (fun _ _ _ hu => .ite
    (.ite hu (unlessSpoiled_keyed hu (fun _ hv => unlessSpoiled_keyed hv (fun _ hw =>
      .ite (raise_keyed hw) (writeRetire_keyed hw (fun _ => Core.wr_key _ _ _))))))
    (sendLoad_keyed hu (fun _ => rfl))))
theorem storeReg_keyed (h : s.Keyed) {cls obs sz d va} {f : Core → Core} (hf : KeepsKey f) : KeyedNext (storeReg cls obs sz d va f s) :=
  withWrite_keyed h (fun _ _ _ ht => .ite (waitOwn_keyed ht) (storeBytes_keyed ht (fun c => (Core.retire_key _).trans (hf c))))
theorem execStp_keyed (h : s.Keyed) {cls d b a off} : KeyedNext (execStp cls d b a off s) :=
  withPlace_keyed h (fun _ _ _ ht => withPlace_keyed ht (fun _ _ _ hu => unlessCovered_keyed hu (fun _ hv => unlessCovered_keyed hv
    (fun _ hw => storeChunks_keyed hw Core.retire_key))))
theorem fence_keyed (h : s.Keyed) {m r} : KeyedNext (fence m r s) := .ite (waitOwn_keyed h) h.retire
theorem atomic_keyed (h : s.Keyed) {cls obs m d a off} : KeyedNext (atomic cls obs m d a off s) := by
  refine withWrite_keyed h (fun pa tr t ht => .ite ?_ (.ite ?_ (retireWith_keyed ht (fun _ => rfl))))
  · split
    · exact raise_keyed ht
    · refine .ite (waitOwn_keyed ht) ?_
      split
      · exact logFault_keyed ht
      · exact retireWith_keyed (ht.setLog _) (fun _ => rfl)
  · exact .ite (waitOwn_keyed ht) (unlessSpoiled_keyed ht (fun _ hu =>
      .ite (raise_keyed hu) (retireWith_keyed (hu.write _ _) (fun _ => Core.wr_key _ _ _))))

/-! ### Barriers, tokens, signals, MERGE (R372, R378 to R387) -/

theorem waitAccesses_keyed (h : s.Keyed) : KeyedNext (waitAccesses s) := .ite h (stayCounted_keyed h)
theorem arriveAt_keyed (h : s.Keyed) {sc i} {m : BitVec 16 → State → Out State} (hm : ∀ p, KeepsKeyed (m p)) : KeyedNext (arriveAt sc i m s) :=
  .ite (raise_keyed h) (.ite (waitAccesses_keyed h) (hm _ _ (h.setBar _ _)))
theorem execBara_keyed (h : s.Keyed) {d sc i} : KeyedNext (execBara d sc i s) :=
  .ite (raise_keyed h) (arriveAt_keyed h (fun _ _ ht => setG_keyed ht))
theorem retireOrCount_keyed (h : s.Keyed) {p : Prop} [Decidable p] : KeyedNext (if p then ok s.retire else stayCounted s) :=
  .ite h.retire (stayCounted_keyed h)
theorem execBar_keyed (h : s.Keyed) {sc i} : KeyedNext (execBar sc i s) := by
  unfold execBar
  split
  · exact retireOrCount_keyed h
  · exact arriveAt_keyed h (fun _ _ ht => ht.withCore rfl)
theorem execBarc_keyed (h : s.Keyed) {sc i a} : KeyedNext (execBarc sc i a s) :=
  privileged_keyed h (fun _ ht => .ite (raise_keyed ht) (ht.setBar _ _).retire)
theorem signalWord_keyed (h : s.Keyed) {x cls obs b a off} : KeyedNext (signalWord x cls obs b a off s) :=
  withWrite_keyed h (fun _ _ _ ht => .ite (stay_keyed ht) (retireWith_keyed ht.sendSig (fun _ => rfl)))
theorem pollSignal_keyed (h : s.Keyed) {d b cmp lim n pa k tr v} : KeyedNext (pollSignal d b cmp lim n pa k tr v s) :=
  .ite (raise_keyed h) (.ite (setG_keyed h) (stayCounted_keyed (h.withCore rfl)))
theorem execSigw_keyed (h : s.Keyed) {obs d a b cmp lim} : KeyedNext (execSigw obs d a b cmp lim s) := by
  unfold execSigw
  split
  · exact pollSignal_keyed h
  · refine withRead_keyed h (fun pa tr t ht => pollSignal_keyed ?_)
    exact ht
theorem execMerge_keyed (h : s.Keyed) : KeyedNext (execMerge s) := by
  unfold execMerge
  dsimp only
  split
  · exact raise_keyed h
  · refine .ite (raise_keyed h) ?_
    split
    · refine raise_keyed ?_
      exact h
    · split
      · exact retireWith_keyed h (fun _ => rfl)
      · exact stayCounted_keyed h
      · exact .ite (h.withCore rfl) (.ite h (waitAccesses_keyed h))

/-! ### Control registers, queues, translations (R80, R94, R219, R300) -/

theorem State.Keyed.routeCheck (h : s.Keyed) (n : Nat) (x y : Word) : (s.routeCheck n x y).Keyed := by
  obtain e | ⟨-, w, e⟩ := s.routeCheck_cases n x y
  · rw [e]
    exact h
  · rw [e]
    exact (h.setDie _).post _ _ _
theorem State.Keyed.writeCtl (h : s.Keyed) (n : Nat) (v : Word) : (s.writeCtl n v).Keyed := (h.setCtl _ _).routeCheck _ _ _
theorem ctlPrivileged_keyed (h : s.Keyed) {n} {m : State → Out State} (hm : KeepsKeyed m) : KeyedNext (ctlPrivileged n m s) :=
  .ite (privileged_keyed h hm) (hm s h)
theorem ctlWrite_keyed (h : s.Keyed) {n k} {v : State → Word} : KeyedNext (ctlPrivileged n (fun s => ok (s.writeCtl k (v s)).retire) s) :=
  ctlPrivileged_keyed h (fun _ ht => (ht.writeCtl _ _).retire)
theorem execCtlrd_keyed (h : s.Keyed) {d n} : KeyedNext (execCtlrd d n s) := .ite h (setG_keyed h)
theorem Queue.setState_keyed (h : s.Keyed) {q : Queue} {v} : (q.setState v s).Keyed := h.writeWord _ _
theorem State.Keyed.destroyQueue (h : s.Keyed) (k : QKey) : (s.destroyQueue k).Keyed := by
  unfold State.destroyQueue
  split
  · exact .ite h (Queue.setState_keyed (by exact h))
  · exact h
theorem execQcreate_keyed (h : s.Keyed) {a} : KeyedNext (execQcreate a s) := by
  refine privileged_keyed h (fun t ht => ?_)
  dsimp only
  split
  · exact transFault_keyed ht
  · split
    · exact ((ht.hold _).writeWord _ _).retire
    · refine State.Keyed.retire (State.Keyed.writeWord ?_ _ _)
      exact ht.hold _
theorem execQkill_keyed (h : s.Keyed) {a} : KeyedNext (execQkill a s) :=
  privileged_keyed h (fun _ ht => State.Keyed.retire (.ite (ht.destroyQueue _) ht))
theorem execTmark_keyed (h : s.Keyed) {a b range scope} : KeyedNext (execTmark a b range scope s) := by
  refine privileged_keyed h (fun t ht => ?_)
  dsimp only
  split
  · exact .ite (stay_keyed ht) ht.retire
  · exact .ite (waitOwn_keyed ht) (.ite (stay_keyed ht) (State.Keyed.withCore (ht.foldl (fun _ _ hu => hu.setCore _) _) rfl))
theorem execIcfence_keyed (h : s.Keyed) : KeyedNext (execIcfence s) := .ite (retireWith_keyed h (fun _ => rfl)) h

/-! ### ENQ and ENQR (R214, R215) -/

theorem State.numberCollective_keyed (h : s.Keyed) (ws : RWords) :
    (s.numberCollective ws).1.Keyed ∧ (s.numberCollective ws).1.core = s.core := by
  unfold State.numberCollective
  split
  · dsimp only
    split
    · exact ⟨h, rfl⟩
    · exact ⟨h, rfl⟩
  · exact ⟨h, rfl⟩
theorem enterQueue_key (ws : RWords) (product : Bool) (p : Plan) : (enterQueue ws product p).key = p.core.key := by
  have pages : (p.pages.foldl Core.hold { p.core with num := p.core.num + 1 }).key = p.core.key := foldl_keeps Core.key Core.hold_key _ _
  simp only [enterQueue, apply_ite Core.key, Core.setBarrier_key, Core.setTok_key, pages, ite_self]
theorem enqueue_keyed (h : s.Keyed) {keep : State → State} (hk : (keep s).Keyed) {held ws} : KeyedNext (enqueue keep held ws s) := by
  unfold enqueue
  refine .ite (raise_keyed h) (.ite (stay_keyed hk) (.ite (.ite hk (stay_keyed hk)) ?_))
  split
  · exact stay_keyed hk
  · exact hk
  · exact raise_keyed h
  · next p e =>
    have key : p.core.key = s.core.key :=
      Gives.of_ok (P := fun p => p.core.key = s.core.key) (.ite (productCheck_key ws s) (transferCheck_key ws s)) e
    obtain ⟨numbered, core⟩ := State.numberCollective_keyed h ws
    refine numbered.withCore ?_
    rw [core, Core.nextIn_key, Core.retire_key, enterQueue_key]
    exact key
theorem enqGuard_keyed (h : s.Keyed) {m : State → Out State} (hm : KeepsKeyed m) : KeyedNext (enqGuard m s) := .ite (raise_keyed h) (hm s h)
theorem execEnq_keyed (h : s.Keyed) {a} : KeyedNext (execEnq a s) := by
  refine enqGuard_keyed h (fun t ht => ?_)
  dsimp only
  split
  · exact enqueue_keyed ht (ht.withCore rfl)
  · refine .ite (raise_keyed ht) ?_
    split
    · exact transFault_keyed ht
    · exact .ite (waitOwn_keyed ht) (unlessSpoiled_keyed ht (fun _ hu => enqueue_keyed (hu.hold _) ((hu.hold _).withCore rfl)))
theorem execEnqr_keyed (h : s.Keyed) {b} : KeyedNext (execEnqr b s) := enqGuard_keyed h (fun _ ht => enqueue_keyed ht ht)

/-! ### Vector words (R222 to R258) -/

theorem vGuard_keyed (h : s.Keyed) {m : State → Out State} (hm : KeepsKeyed m) : KeyedNext (vGuard m s) :=
  .ite (raise_keyed h) (.ite (stay_keyed h) (hm s h))
theorem vPut_keyed (h : s.Keyed) {i rm x y} : KeyedNext (vPut i rm x y s) := vGuard_keyed h (fun _ ht => retireWith_keyed ht (fun _ => rfl))
/-- A word that needs a mask on the stack, or room there. -/
theorem vChecked_keyed (h : s.Keyed) {p : Prop} [Decidable p] {n i} : KeyedNext (if p then vGuard (vFault n) s else vPlain i s) :=
  .ite (vGuard_keyed h (fun _ ht => raise_keyed ht)) (vPut_keyed h)
theorem packed_keyed (h : s.Keyed) {i} : KeyedNext (packed i s) := .ite (vGuard_keyed h (fun _ ht => raise_keyed ht)) (vPut_keyed h)
theorem execVmovExtract_keyed (h : s.Keyed) {d a r c} : KeyedNext (execVmovExtract d a r c s) :=
  .ite (vGuard_keyed h (fun _ ht => .ite (setG_keyed ht) ht)) (vPut_keyed h)
theorem execVrng_keyed (h : s.Keyed) {d} : KeyedNext (execVrng d s) := vGuard_keyed h (fun _ ht => retireWith_keyed ht (fun _ => rfl))
theorem translateAll_keyed (h : s.Keyed) {acc} {l : List (Nat × Nat)} {r : List (Nat × Nat) × List Trans × State}
    (e : translateAll acc l s = .ok r) : r.2.2.Keyed := by
  induction l generalizing s r with
  | nil =>
    injection e with e
    exact e ▸ h
  | cons x l ih =>
    unfold translateAll at e
    split at e
    · cases e
    · split at e
      · cases e
      · next e' =>
        injection e with e
        subst e
        have rest := ih (h.hold _) e'
        exact rest
theorem vAccess_keyed (h : s.Keyed) {acc base ok w vas} {m : List (Nat × Nat) → List Trans → State → Out State}
    (hm : ∀ l ts, KeepsKeyed (m l ts)) : KeyedNext (vAccess acc base ok w vas m s) := by
  unfold vAccess
  refine .ite (raise_keyed h) ?_
  split
  · exact transFault_keyed h
  · next e =>
    have ht := translateAll_keyed h e
    split
    · exact raise_keyed ht
    · exact hm _ _ _ ht
theorem vLoad_keyed (h : s.Keyed) {i cls sz d l ts} {f : Core → Core} (hf : KeepsKey f) : KeyedNext (vLoad i cls sz d l ts f s) := by
  unfold vLoad
  refine retireWith_keyed h (fun c => ?_)
  exact hf _
theorem rowLoad_keyed (h : s.Keyed) {i cls sz d base p} {f : Core → Core} (hf : KeepsKey f) : KeyedNext (rowLoad i cls sz d base p f s) :=
  vGuard_keyed h (fun _ ht => vAccess_keyed ht (fun _ _ _ hu => vLoad_keyed hu hf))
theorem storeNow_keyed (h : s.Keyed) {cls d w occ l ts} {f : Core → Core} (hf : KeepsKey f) : KeyedNext (storeNow cls d w occ l ts f s) := by
  unfold storeNow
  dsimp only
  split
  · exact logFault_keyed h
  · split
    · exact logFault_keyed h
    · refine storeBytes_keyed h (fun c => (Core.retire_key _).trans ?_)
      exact hf c
theorem vStore_keyed (h : s.Keyed) {i cls sz d occ l ts} {f : Core → Core} (hf : KeepsKey f) : KeyedNext (vStore i cls sz d occ l ts f s) := by
  refine .ite (.ite (storeNow_keyed h hf) h) (retireWith_keyed h (fun c => ?_))
  exact hf _
theorem rowStore_keyed (h : s.Keyed) {i cls sz d base p} {f : Core → Core} (hf : KeepsKey f) : KeyedNext (rowStore i cls sz d base p f s) :=
  vGuard_keyed h (fun _ ht => vAccess_keyed ht (fun _ _ _ hu => vStore_keyed hu hf))
theorem indexed_keyed (h : s.Keyed) {acc sz a b off} {m : List (Nat × Nat) → List Trans → State → Out State}
    (hm : ∀ l ts, KeepsKeyed (m l ts)) : KeyedNext (indexed acc sz a b off m s) := by
  unfold indexed
  refine vGuard_keyed h (fun t ht => ?_)
  split
  · exact raise_keyed ht
  · split
    · generalize indexAddrs _ _ _ _ = vas
      exact vAccess_keyed ht hm
    · exact ht
theorem execVgath_keyed (h : s.Keyed) {cls sz d a b off} : KeyedNext (execVgath cls sz d a b off s) :=
  indexed_keyed h (fun _ _ _ ht => vLoad_keyed ht (fun _ => rfl))
theorem execVscat_keyed (h : s.Keyed) {cls sz d a b off} : KeyedNext (execVscat cls sz d a b off s) :=
  indexed_keyed h (fun _ _ _ ht => vStore_keyed ht (fun _ => rfl))

end

end Sys2Proof.Machine
end

section
/-! The events of the engines, of signals, merges and tasks keep every key (R98, R106 to R113, R226 to R230, R269 to R287, R307 to R332, R372 to
R387, R406 to R413). -/

namespace Sys2Proof.Machine

section
variable {s : State}

/-! ### The vector engine (R226 to R230, R291) -/

theorem issueWord_key (v : VWord) (c : Core) : (issueWord v c).key = c.key := by
  unfold issueWord
  dsimp only
  split
  · rfl
  · rfl
  · rfl
  · rfl
  · rfl
  · rfl
  · rfl
theorem execVectorIssue_keyed (h : s.Keyed) : KeyedNext (execVectorIssue s) := by
  unfold execVectorIssue
  split
  · exact h
  · exact .ite (State.Keyed.readsDue (h.withCore (issueWord_key _ _))) h
theorem Core.complete_key (c : Core) (v : VWord) : (c.complete v).key = c.key := by
  unfold Core.complete
  dsimp only
  split
  · exact (Core.wr_key _ _ _).trans (Core.putElems_key _ _)
  · exact Core.putElems_key _ _
theorem execVectorComplete_keyed (h : s.Keyed) : KeyedNext (execVectorComplete s) := by
  unfold execVectorComplete
  split
  · exact h
  · exact .ite h (h.withCore (Core.complete_key _ _))
theorem execLoadDataArrival_keyed (h : s.Keyed) : KeyedNext (execLoadDataArrival s) := by
  unfold execLoadDataArrival
  split
  · exact h.arrive _
  · exact h

/-! ### Stores and records perform (R269, R310, R355) -/

theorem execStorePerform_keyed (h : s.Keyed) {cls} : KeyedNext (execStorePerform cls s) := by
  unfold execStorePerform
  split
  · split
    · next e => exact performOldest_keyed h e
    · exact h
  · dsimp only
    split
    · split
      · exact h.performPut _ _ _
      · exact h
    · exact h
theorem execRecordRetire_keyed (h : s.Keyed) {x} : KeyedNext (execRecordRetire x s) := by
  unfold execRecordRetire
  split
  · exact h
  · exact .ite (h.retireRecord _ _) h

/-! ### Product records (R269 to R287) -/

theorem productCycle_keyed (h : s.Keyed) {body r} : (productCycle body r s).Keyed := (h.recordRead _ _ _).withCore rfl
theorem stepProduct_keyed (h : s.Keyed) {i body} : KeyedNext (stepProduct i body s) := by
  unfold stepProduct
  dsimp only
  split
  · exact productCycle_keyed h
  · split
    · split
      · exact h.withCore rfl
      · exact h
    · exact h

/-! ### Transfer records (R307 to R327) -/

/-- The start of a record that keeps keys. -/
def StartsKeyed (f : QRec → State → Option (State × QRec)) : Prop := ∀ r (t : State), t.Keyed → ∀ x, f r t = some x → x.1.Keyed

theorem startsKeyed_some {f : QRec → State → State × QRec} (hf : ∀ r (t : State), t.Keyed → (f r t).1.Keyed) :
    StartsKeyed (fun r t => some (f r t)) := fun r t ht x e => by
  injection e with e
  exact e ▸ hf r t ht
theorem startTransfer_keyed (h : s.Keyed) {i f} (hf : StartsKeyed f) : KeyedNext (startTransfer i f s) := by
  unfold startTransfer
  split
  · exact h
  · refine .ite ?_ h
    dsimp only
    split
    · next e =>
      split at e
      · injection e with e
        injection e with e _
        subst e
        exact State.Keyed.withCore (State.Keyed.skipCollective (by exact h) _) rfl
      · exact State.Keyed.withCore (hf _ _ (by exact h) _ e) rfl
    · exact h
theorem transferCycle_keyed (h : s.Keyed) {body r} : (transferCycle body r s).Keyed :=
  State.Keyed.withCore (.ite h (h.recordRead _ _ _)) rfl
theorem stepTransfer_keyed (h : s.Keyed) {i body} : KeyedNext (stepTransfer i body s) := by
  unfold stepTransfer
  dsimp only
  split
  · exact transferCycle_keyed h
  · exact startTransfer_keyed h (startsKeyed_some (fun _ _ ht => ht))
theorem moveBeat_keyed (h : s.Keyed) {r} : (moveBeat r s).Keyed := (Put.perform_keyed (h.recordRead _ _ _) _ _).withCore rfl
theorem stepRemote_move_keyed (h : s.Keyed) {i c} : KeyedNext (stepRemote.move i s c) := by
  unfold stepRemote.move
  split
  · exact moveBeat_keyed h
  · exact h
theorem stepRemote_keyed (h : s.Keyed) {i} : KeyedNext (stepRemote i s) := by
  unfold stepRemote
  dsimp only
  split
  · exact .ite (startTransfer_keyed h (startsKeyed_some (fun _ _ ht => ht))) (stepRemote_move_keyed h)
  · exact stepRemote_move_keyed h
theorem execXslab_keyed (h : s.Keyed) : KeyedNext (execXslab s) := by
  unfold execXslab
  dsimp only
  split
  · exact transferCycle_keyed h
  · refine startTransfer_keyed h (fun r t ht x e => ?_)
    split at e
    · cases e
    · split at e
      · injection e with e
        subst e
        exact ht.setDie _
      · injection e with e
        subst e
        exact ht
theorem execXslabRelease_keyed (h : s.Keyed) : KeyedNext (execXslabRelease s) := startTransfer_keyed h (startsKeyed_some (fun _ _ ht => ht))
theorem execXsig_keyed (h : s.Keyed) : KeyedNext (execXsig s) := by
  unfold execXsig
  dsimp only
  split
  · exact State.Keyed.withCore h.sendSig rfl
  · exact startTransfer_keyed h (startsKeyed_some (fun _ _ ht => ht))
theorem execXtmark_keyed (h : s.Keyed) : KeyedNext (execXtmark s) := by
  unfold execXtmark
  split
  · exact .ite h h
  · exact h
theorem queueSend_keyed (h : s.Keyed) {r} : (queueSend r s).1.Keyed := by
  unfold queueSend
  dsimp only
  split
  · exact h.setDie _
  · exact h
theorem execXsend_move_keyed (h : s.Keyed) {c} : KeyedNext (execXsend.move s c) := by
  unfold execXsend.move
  split
  · refine State.Keyed.withCore ?_ rfl
    split
    · exact queueSend_keyed (h.recordRead _ _ _)
    · exact h.recordRead _ _ _
  · exact h
theorem execXsend_keyed (h : s.Keyed) : KeyedNext (execXsend s) := by
  unfold execXsend
  dsimp only
  split
  · exact .ite (startTransfer_keyed h (startsKeyed_some (fun _ _ ht => ht))) (execXsend_move_keyed h)
  · exact execXsend_move_keyed h

/-! ### Collectives (R328 to R332) -/

theorem State.Keyed.setGroup (h : s.Keyed) (g : XGroup) : (s.setGroup g).Keyed := h
theorem execXmlrSetup_keyed (h : s.Keyed) : KeyedNext (execXmlrSetup s) := by
  unfold execXmlrSetup
  split
  · exact .ite h (finishRecord_keyed (h.install _))
  · refine startTransfer_keyed h (fun r t ht x e => ?_)
    have read := ht.recordRead 3 r.pages
    dsimp only at e
    split at e
    · injection e with e
      subst e
      exact writeStatus_keyed (read _)
    · split at e
      · injection e with e
        subst e
        exact writeStatus_keyed (read _)
      · injection e with e
        subst e
        exact read _
theorem execXmlrSetupTimeout_keyed (h : s.Keyed) : KeyedNext (execXmlrSetupTimeout s) := by
  unfold execXmlrSetupTimeout
  split
  · exact finishRecord_keyed h
  · exact h
theorem execXmlr_keyed (h : s.Keyed) : KeyedNext (execXmlr s) :=
  startTransfer_keyed h (startsKeyed_some (fun _ _ ht => .ite (ht.recordRead _ _ _) (ht.recordRead _ _ _)))
theorem memberWrite_keyed (h : s.Keyed) {c r va bs} : (memberWrite c r va bs s).Keyed := h.writeDirect _ _ _
theorem reduceIssue_keyed {red ms i} {x : State × Flags} (h : x.1.Keyed) : (reduceIssue red ms i x).1.Keyed := by
  unfold reduceIssue
  dsimp only
  split
  · exact h.foldl (fun _ _ ht => memberWrite_keyed ht) _
  · exact h.foldl (fun _ _ ht => memberWrite_keyed ht) _
theorem combineAll_keyed (h : s.Keyed) {g ms} : (combineAll g ms s).Keyed := by
  unfold combineAll
  dsimp only
  split
  · exact h.setGroup _
  · split
    · exact (h.setGroup _).foldl (fun _ _ ht => finishRecord_keyed ht) _
    · exact State.Keyed.foldl (foldl_keyed Prod.fst (h.setGroup _) (fun _ _ hb => reduceIssue_keyed hb) _)
        (fun _ _ ht => (finishRecord_keyed ht).updRun _ _ _) _
theorem execXmlrCombine_keyed (h : s.Keyed) : KeyedNext (execXmlrCombine s) := by
  unfold execXmlrCombine
  split
  · exact h
  · exact .ite (h.setGroup _) (.ite (combineAll_keyed h) h)
theorem execXmlrTimeout_keyed (h : s.Keyed) : KeyedNext (execXmlrTimeout s) := by
  unfold execXmlrTimeout
  split
  · exact h
  · dsimp only
    split
    · exact finishRecord_keyed (h.setGroup _)
    · refine .ite h ((h.setGroup _).foldl (fun t c ht => ?_) _)
      split
      · exact finishRecord_keyed ht
      · exact ht

/-! ### Signals (R384 to R387) -/

theorem execSigwLimit_keyed (h : s.Keyed) : KeyedNext (execSigwLimit s) := by
  unfold execSigwLimit
  split
  · exact .ite (setG_keyed h) h
  · exact h
theorem execSignalUpdate_keyed (h : s.Keyed) : KeyedNext (execSignalUpdate s) := by
  unfold execSignalUpdate
  split
  · exact .ite h (h.takeSig _)
  · exact h
theorem execSignalAcknowledge_keyed (h : s.Keyed) : KeyedNext (execSignalAcknowledge s) := by
  unfold execSignalAcknowledge
  split
  · exact .ite h h
  · exact h
theorem execSignalResend_keyed (h : s.Keyed) : KeyedNext (execSignalResend s) := by
  unfold execSignalResend
  split
  · exact .ite (h.takeSig _) h
  · exact h

/-! ### Merges (R372 to R375) -/

theorem gangDet_keyed (h : s.Keyed) {m : Launch → Out State} (hm : ∀ l, KeyedNext (m l)) : KeyedNext (gangDet m s) := by
  unfold gangDet
  split
  · exact .ite (hm _) h
  · exact h
theorem execMergeApply_keyed (h : s.Keyed) : KeyedNext (execMergeApply s) :=
  gangDet_keyed h (fun _ => .ite (State.Keyed.ite (h.mergeDone _ _) (h.mergeConflict _ _ _)) h)
theorem execFinalMerge_keyed (h : s.Keyed) : KeyedNext (execFinalMerge s) :=
  gangDet_keyed h (fun _ => .ite (State.Keyed.setLaunch (.ite ((h.applyCores _).unveil _) (h.foldl (fun _ _ ht => ht.setCore _) _)) _) h)
theorem execTaskLogApply_keyed (h : s.Keyed) : KeyedNext (execTaskLogApply s) := by
  unfold execTaskLogApply
  dsimp only
  split
  · split
    · exact .ite (.ite (State.Keyed.setLaunch (by exact h) _) ((((applyLog_keyed h _).clearLog _ _).unveil _).setLaunch _)) h
    · exact h
  · exact h
theorem execStreamLogApply_keyed (h : s.Keyed) : KeyedNext (execStreamLogApply s) := by
  unfold execStreamLogApply
  dsimp only
  split
  · refine .ite ?_ h
    split
    · exact State.Keyed.setDie (by exact h) _
    · exact ((applyLog_keyed h _).clearLog _ _).setDie _
  · exact h

/-! ### Placement, saving and the end of tasks (R98, R106 to R113, R406 to R413) -/

theorem execPlacementChoice_keyed (h : s.Keyed) : KeyedNext (execPlacementChoice s) := by
  unfold execPlacementChoice
  refine .ite h ?_
  split
  · exact h
  · split
    · exact h
    · split
      · exact h.placeCounted _ _ _ _
      · exact (h.setDie _).resume _ _ _ _
theorem execContextSaveDone_keyed (h : s.Keyed) : KeyedNext (execContextSaveDone s) := by
  unfold execContextSaveDone
  dsimp only
  split
  · exact .ite ((h.setDie _).setCore _) h
  · exact h
theorem execTaskRetire_keyed (h : s.Keyed) : KeyedNext (execTaskRetire s) := by
  unfold execTaskRetire
  extract_lets c unpinned
  split
  · refine .ite ?_ h
    extract_lets reported ended d left
    have hr : reported.Keyed := .ite (h.dropPin.post _ _ _) h.dropPin
    have he : ended.Keyed := by
      dsimp only [ended]
      split
      · exact .ite hr (hr.setLaunch _)
      · exact hr
    exact State.Keyed.setCore (.ite (he.setDie _) he) _
  · exact h
theorem execDieLaunchReport_keyed (h : s.Keyed) : KeyedNext (execDieLaunchReport s) := by
  unfold execDieLaunchReport
  split
  · exact h
  · split
    · exact h
    · exact .ite h (.ite (h.endPacket _ _ _ _ _ _) h)
theorem gangShare_keyed (h : s.Keyed) {m : Launch → DieShare → Out State} (hm : ∀ l x, KeyedNext (m l x)) : KeyedNext (gangShare m s) := by
  unfold gangShare
  split
  · split
    · exact .ite (hm _ _) h
    · exact h
  · exact h
theorem execGangReadyCheck_keyed (h : s.Keyed) : KeyedNext (execGangReadyCheck s) :=
  gangShare_keyed h (fun _ _ => .ite (.ite ((h.foldl (fun _ _ ht => loadCode_keyed ht) _).setLaunch _) (h.setLaunch _)) h)
theorem execGangNotReady_keyed (h : s.Keyed) : KeyedNext (execGangNotReady s) := gangShare_keyed h (fun _ _ => .ite (h.setLaunch _) h)
theorem execGangDefer_keyed (h : s.Keyed) : KeyedNext (execGangDefer s) := by
  unfold execGangDefer
  split
  · exact .ite (h.setLaunch _) h
  · exact h
theorem execGangStart_keyed (h : s.Keyed) : KeyedNext (execGangStart s) := by
  unfold execGangStart
  split
  · refine .ite (((h.unreserve _).setLaunch _).foldl (fun t x ht => ht.foldl (fun u p hu => ?_) _) _) h
    split
    · exact (hu.placeCounted _ _ _ _).beginAt _ _
    · exact hu
  · exact h
theorem execCoreFuse_keyed (h : s.Keyed) : KeyedNext (execCoreFuse s) :=
  .ite h (.ite (h.fuse _) (.ite (.ite h (h.atCore _ (fun _ ht => ht.atBoundary.raised _))) (.ite h (h.setCore _))))

end

end Sys2Proof.Machine
end

section
/-! The events of queues, of the track and the ring, of the host and of the management complexes keep every key (R80 to R96, R115, R120 to R149,
R395, R396, R400, R405, R414 to R429). -/

namespace Sys2Proof.Machine

section
variable {s : State}

/-! ### Queues (R80 to R96) -/

/-- The meaning of an event of a queue. -/
abbrev QueueKeyed (m : QKey → Queue → State → Out State) : Prop := ∀ k q, KeepsKeyed (m k q)

theorem State.Keyed.setQueue (h : s.Keyed) (k : QKey) (q : Queue) : (s.setQueue k q).Keyed := h
theorem withQueue_keyed (h : s.Keyed) {m} (hm : QueueKeyed m) : KeyedNext (withQueue m s) := by
  unfold withQueue
  split
  · exact hm _ _ s h
  · exact h
theorem dispatch_keyed (h : s.Keyed) {kind m may} (hm : ∀ k q p, KeepsKeyed (m k q p)) : KeyedNext (dispatch kind m s may) := by
  refine withQueue_keyed h (fun k q t ht => ?_)
  dsimp only
  split
  · exact .ite (hm _ _ _ _ (by exact ht)) ht
  · exact ht
theorem State.Keyed.onDies (h : s.Keyed) (ds : List DieKey) (f : Die → Die) : (s.onDies ds f).Keyed := h.foldl (fun _ _ ht => ht.setDie _) _
theorem State.makeCopy_keyed (h : s.Keyed) {l} : (State.makeCopy l s).Keyed := by
  have copied := h.foldl (f := fun s (x : Nat × Nat × Nat) => s.write x.2.2 ((List.range x.2.1).map (fun i => s.readByte (x.1 + i))))
    (fun _ _ ht => ht.write _ _) l.copy
  exact copied
theorem State.Keyed.report (h : s.Keyed) (k : QKey) (q : Queue) (p : Packet) (a b c d : Nat) : (s.report k q p a b c d).Keyed := by
  unfold State.report
  extract_lets at_ t
  have ht : t.Keyed := by
    dsimp only [t]
    split
    · exact h.write _ _
    · exact h
  split
  · exact ht.sendSig
  · exact ht
theorem execDestroyNotice_keyed (h : s.Keyed) {t} : KeyedNext (execDestroyNotice t s) := by
  unfold execDestroyNotice
  dsimp only
  split
  · exact .ite (h.setDie _) h
  · exact h
theorem execPacketFetch_keyed (h : s.Keyed) : KeyedNext (execPacketFetch s) := by
  refine withQueue_keyed h (fun k q t ht => ?_)
  dsimp only
  split
  · exact .ite (.ite (.ite ht (ht.setQueue _ _)) (.ite (ht.setQueue _ _) (ht.setQueue _ _))) ht
  · exact ht
theorem execQueuePoll_keyed (h : s.Keyed) : KeyedNext (execQueuePoll s) := withQueue_keyed h (fun _ _ _ ht => .ite (ht.setQueue _ _) ht)
theorem dispatchLaunch_keyed (h : s.Keyed) {gang k q p} : KeyedNext (dispatchLaunch gang k q p s) := by
  unfold dispatchLaunch
  split
  · exact h.endPacket _ _ _ _ _ _
  · split
    · exact h.endPacket _ _ _ _ _ _
    · have copied : ∀ l (t : State), t.Keyed → (State.makeCopy l t).Keyed := fun _ _ ht => State.makeCopy_keyed ht
      exact State.Keyed.ite ((copied _ _ (by exact h)).reserve _) ((copied _ _ (by exact h)).preempt _)
theorem execBindKernel_keyed (h : s.Keyed) : KeyedNext (execBindKernel s) := by
  refine dispatch_keyed h (fun k q p t ht => ?_)
  dsimp only
  split
  · exact ht.endPacket _ _ _ _ _ _
  · refine .ite (ht.endPacket _ _ _ _ _ _) ?_
    split
    · exact ht.endPacket _ _ _ _ _ _
    · exact .ite (ht.endPacket _ _ _ _ _ _) (.ite (ht.endPacket _ _ _ _ _ _)
        (((State.makeCopy_keyed ht).onDies _ _).endPacket _ _ _ _ _ _))
theorem execRegisterRequest_keyed (h : s.Keyed) : KeyedNext (execRegisterRequest s) := by
  refine dispatch_keyed h (fun k q p t ht => ?_)
  dsimp only
  split
  · exact ht.endPacket _ _ _ _ _ _
  · split
    · exact ht.endPacket _ _ _ _ _ _
    · exact (ht.onDies _ _).endPacket _ _ _ _ _ _
theorem execRegisterNeed_keyed (h : s.Keyed) : KeyedNext (execRegisterNeed s) := by
  refine dispatch_keyed h (fun k q p t ht => ?_)
  dsimp only
  split
  · exact ht.endPacket _ _ _ _ _ _
  · split
    · exact (ht.onDies _ _).endPacket _ _ _ _ _ _
    · exact (ht.onDies _ _).endPacket _ _ _ _ _ _
theorem execRemoveNeed_keyed (h : s.Keyed) : KeyedNext (execRemoveNeed s) := by
  refine dispatch_keyed h (fun k q p t ht => ?_)
  dsimp only
  split
  · exact (ht.onDies _ _).endPacket _ _ _ _ _ _
  · exact (ht.onDies _ _).endPacket _ _ _ _ _ _
theorem execSetRequestState_keyed (h : s.Keyed) : KeyedNext (execSetRequestState s) := by
  refine dispatch_keyed h (fun k q p t ht => ?_)
  dsimp only
  split
  · exact ht.endPacket _ _ _ _ _ _
  · refine State.Keyed.endPacket (State.Keyed.onDies (ht.foldl (fun u d hu => ?_) _) _ _) _ _ _ _ _ _
    split
    · exact hu.writeWord _ _
    · exact hu
theorem execUnbind_keyed (h : s.Keyed) : KeyedNext (execUnbind s) :=
  dispatch_keyed h (fun _ _ _ _ ht => (ht.onDies _ _).endPacket _ _ _ _ _ _)
theorem execSignalWait_keyed (h : s.Keyed) : KeyedNext (execSignalWait s) := by
  refine withQueue_keyed h (fun k q t ht => ?_)
  split
  · exact ht.endPacket _ _ _ _ _ _
  · exact dispatch_keyed ht (fun _ _ _ _ hu => State.Keyed.ite (hu.endPacket _ _ _ _ _ _) hu)
theorem execWaitTimeout_keyed (h : s.Keyed) : KeyedNext (execWaitTimeout s) := by
  refine withQueue_keyed h (fun k q t ht => ?_)
  split
  · exact ht.endPacket _ _ _ _ _ _
  · exact ht
theorem execSignalSet_keyed (h : s.Keyed) : KeyedNext (execSignalSet s) := by
  refine dispatch_keyed h (fun k q p t ht => ?_)
  split
  · exact ht.endPacket _ _ _ _ _ _
  · exact ht.sendSig
theorem execFetchFence_keyed (h : s.Keyed) : KeyedNext (execFetchFence s) := dispatch_keyed h (fun _ _ _ _ ht => ht.setQueue _ _)
theorem execBarrierPacket_keyed (h : s.Keyed) : KeyedNext (execBarrierPacket s) := by
  refine withQueue_keyed h (fun k q t ht => ?_)
  dsimp only
  split
  · exact ht.endPacket _ _ _ _ _ _
  · exact dispatch_keyed ht (fun _ _ _ _ hu => .ite (hu.endPacket _ _ _ _ _ _) ((hu.setQueue _ _).setBar _ _))
theorem execDestroy_keyed (h : s.Keyed) : KeyedNext (execDestroy s) := by
  refine withQueue_keyed h (fun k q t ht => ?_)
  dsimp only
  split
  · split
    · exact .ite (ht.endPacket _ _ _ _ _ _) ((ht.setQueue _ _).destroyQueue _)
    · exact ht.endPacket _ _ _ _ _ _
  · exact ht
theorem execPacketRetire_keyed (h : s.Keyed) : KeyedNext (execPacketRetire s) := by
  refine withQueue_keyed h (fun k q t ht => ?_)
  dsimp only
  split
  · exact ht
  · split
    · exact ht
    · have reported := ht.report k q
      exact .ite (State.Keyed.ite ((((reported _ _ _ _ _).setQueue _ _).writeWord _ _).writeWord _ _)
        (((reported _ _ _ _ _).setQueue _ _).writeWord _ _)) ht
theorem execDestroyTick_keyed (h : s.Keyed) : KeyedNext (execDestroyTick s) := by
  refine withQueue_keyed h (fun k q t ht => ?_)
  dsimp only
  split
  · exact ht
  · refine .ite ((ht.setQueue _ _).foldl (fun _ _ hu => hu.cutLaunch _ _) _) (.ite ?_ ht)
    have destroyed : (q.setState 3 t).Keyed := Queue.setState_keyed ht
    split
    · exact destroyed.report _ _ _ _ _ _ _
    · exact destroyed

/-! ### Events in host memory, the host, fabric ports, the test port (R414 to R417, R426) -/

theorem State.Keyed.notify (h : s.Keyed) {p : Prop} [Decidable p] {q : EventQ} : (if p then { s with eventq := q } else s).Keyed := .ite h h
theorem State.Keyed.writeEvent (h : s.Keyed) (pa : Nat) (e : Vector Word 8) : (s.writeEvent pa e).Keyed := by
  have body : ∀ (l : List (Fin 8)) (f : Fin 8 → Nat) (w : Fin 8 → Word), (l.foldl (fun s j => s.writeWord (f j) (w j)) s).Keyed :=
    fun l f w => h.foldl (fun _ _ ht => ht.writeWord _ _) l
  unfold State.writeEvent
  refine State.Keyed.notify (State.Keyed.writeWord (State.Keyed.writeWord (State.Keyed.writeWord ?_ _ _) _ _) _ _)
  exact body _ _ _
theorem execEventPost_keyed (h : s.Keyed) : KeyedNext (execEventPost s) := by
  unfold execEventPost
  split
  · exact .ite (State.Keyed.writeEvent (by exact h) _ _) h
  · exact h
theorem execOverflow_keyed (h : s.Keyed) : KeyedNext (execOverflow s) := by
  unfold execOverflow
  split
  · exact .ite (State.Keyed.writeEvent (by exact h) _ _) h
  · exact h
theorem hostRequest_keyed (h : s.Keyed) {pa n} {m : State → State × HostReply} (hm : ∀ t : State, t.Keyed → (m t).1.Keyed) :
    KeyedNext (hostRequest pa n m s) :=
  .ite (hm s h) h
theorem execHostPostedWrite_keyed (h : s.Keyed) {pa bs} : KeyedNext (execHostPostedWrite pa bs s) :=
  hostRequest_keyed h (fun _ ht => .ite ((ht.write _ _).freshSlots _) (ht.write _ _))
theorem hostAtomic_keyed (h : s.Keyed) {pa f} : KeyedNext (hostAtomic pa f s) := hostRequest_keyed h (fun _ ht => ht.writeWord _ _)
theorem testAccess_keyed (h : s.Keyed) {m} : KeyedNext (testAccess m s) := State.Keyed.ite (h.setPkg _) h

/-! ### The track (R115, R120 to R126) -/

theorem State.Keyed.requestStall (h : s.Keyed) (k : DieKey) : (s.requestStall k).Keyed := by
  unfold State.requestStall
  refine .ite h (State.Keyed.post ?_ _ _ _)
  exact h.setDie _
theorem State.Keyed.checkSpace (h : s.Keyed) (k : DieKey) : (s.checkSpace k).Keyed := .ite (h.requestStall k) h
theorem State.Keyed.failLink (h : s.Keyed) (k : DieKey) (up : Bool) : (s.failLink k up).Keyed := (h.setDie _).requestStall k
theorem State.Keyed.endXsend (h : s.Keyed) (k : DieKey) (seq : BitVec 32) : (s.endXsend k seq).Keyed := by
  unfold State.endXsend
  dsimp only
  split
  · exact (h.setDie _).updRun _ _ _
  · exact h
theorem receiveData_keyed (h : s.Keyed) {k f} : (receiveData k f s).Keyed := by
  unfold receiveData
  extract_lets pa bs t
  have ht : t.Keyed := by
    refine State.Keyed.write ?_ _ _
    split
    · exact h.veil _ _ _
    · exact h
  split
  · split
    · exact ht.endXsend _ _
    · exact ht
  · exact ht
theorem receiveShard_keyed (h : s.Keyed) {k f} : (receiveShard k f s).Keyed :=
  .ite (h.setDie _) (.ite h (.ite (h.setDie _) (State.Keyed.checkSpace ((h.setDie _).perform _) k)))
theorem acceptFlit_keyed (h : s.Keyed) {k up f} : (acceptFlit k up f s).Keyed := by
  have received := h.setDie ((s.getDie k).setPort up { (s.getDie k).port up with rxSeq := f.seq, lastRx := s.linkCycle })
  exact .ite (.ite (received.setDie _) (received.setDie _)) (.ite received (.ite (.ite (received.setDie _) received)
    (.ite (.ite (receiveShard_keyed received) received) (.ite received (receiveData_keyed received)))))
theorem execFlitReceive_keyed (h : s.Keyed) {up f} : KeyedNext (execFlitReceive up f s) := .ite (acceptFlit_keyed h) (h.setDie _)
theorem takeCtrl_keyed (h : s.Keyed) {up q} {m : Die → Port → Out State} (hm : ∀ d p, KeyedNext (m d p)) : KeyedNext (takeCtrl up q m s) := by
  unfold takeCtrl
  dsimp only
  split
  · exact hm _ _
  · exact h
theorem State.Keyed.setDwells (h : s.Keyed) (c : Nat) (l : List (DieKey × BitVec 32)) : (s.setDwells c l).Keyed :=
  h.foldl (fun _ _ ht => ht.setDie _) _
theorem State.Keyed.measured (h : s.Keyed) (d : Die) (up : Bool) (p : Port) (t : Nat) : (s.measured d up p t).Keyed :=
  .ite (h.setDie _) ((h.setDie _).setDwells _ _)
theorem execProbeEcho_keyed (h : s.Keyed) {up} : KeyedNext (execProbeEcho up s) := by
  refine takeCtrl_keyed h (fun d p => ?_)
  split
  · exact h.measured _ _ _ _
  · exact h.setDie _
theorem execLinkFailResends_keyed (h : s.Keyed) {up} : KeyedNext (execLinkFailResends up s) := .ite (h.failLink _ _) h
theorem execLinkFailSilence_keyed (h : s.Keyed) {up} : KeyedNext (execLinkFailSilence up s) := .ite (h.failLink _ _) h
theorem execFlitSend_keyed (h : s.Keyed) {up} : KeyedNext (execFlitSend up s) := .ite h (h.setDie _)
theorem execShardDeparture_keyed (h : s.Keyed) : KeyedNext (execShardDeparture s) := by
  unfold execShardDeparture
  dsimp only
  split
  · exact .ite (h.setDie _) h
  · exact h

/-! ### Batches and streams (R51, R115, R130 to R133) -/

theorem missNeed_keyed (h : s.Keyed) {k reason tag tick i} : (missNeed k reason tag tick s i).Keyed :=
  .ite h (.ite ((h.setDie _).write _ _) (h.setDie _))
theorem execBatchFormation_keyed (h : s.Keyed) : KeyedNext (execBatchFormation s) := by
  unfold execBatchFormation
  dsimp only
  split
  · exact h
  · refine .ite h ?_
    split
    · exact h.setDie _
    · split
      · exact (h.setDie _).foldl (fun _ _ ht => missNeed_keyed ht) _
      · exact h.setDie _
theorem State.Keyed.startStream (h : s.Keyed) (k : CoreKey) (bd : Binding) (x : Shard) (b : Batch) : (s.startStream k bd x b).Keyed :=
  (h.setDie _).startWork _ _
theorem execStreamStart_keyed (h : s.Keyed) : KeyedNext (execStreamStart s) := by
  unfold execStreamStart
  extract_lets k was d t marked
  have ht : t.Keyed := h.setDie _
  have hm : KeyedNext marked := .ite h ht
  split
  · split
    · exact ht.startStream _ _ _ _
    · exact hm
  · split
    · exact ht.setCore _
    · exact hm
  · exact hm
theorem execDepartureDeadline_keyed (h : s.Keyed) : KeyedNext (execDepartureDeadline s) := by
  unfold execDepartureDeadline
  dsimp only
  split
  · exact h
  · exact (h.setDie _).foldl (fun _ _ ht => ht.foldl (fun _ _ hu => missNeed_keyed hu) _) _

/-! ### Stalls, steps, injection, repair and restart of the ring (R136 to R149, R429) -/

theorem execRingStall_keyed (h : s.Keyed) {ts} : KeyedNext (execRingStall ts s) := .ite (h.setDie _) h
theorem execRingStallBegin_keyed (h : s.Keyed) : KeyedNext (execRingStallBegin s) := by
  unfold execRingStallBegin
  dsimp only
  split
  · exact .ite (h.setDie _) h
  · exact h
theorem execRingStallEnd_keyed (h : s.Keyed) : KeyedNext (execRingStallEnd s) := by
  unfold execRingStallEnd
  dsimp only
  split
  · exact .ite (State.Keyed.ite ((h.setDie _).requestStall _) (h.setDie _)) h
  · exact h
theorem execPodStep_keyed (h : s.Keyed) {k} : KeyedNext (execPodStep k s) := by
  unfold execPodStep
  exact .ite (State.Keyed.post (by exact h) _ _ _) h
theorem State.Keyed.putShard (h : s.Keyed) (k : DieKey) (e : Half × Nat × Nat) (reinj formed : Bool) (t wait : Nat) :
    (s.putShard k e reinj formed t wait).Keyed :=
  State.Keyed.checkSpace ((h.setDie _).perform _) _
theorem execRingInject_keyed (h : s.Keyed) : KeyedNext (execRingInject s) := by
  unfold execRingInject
  dsimp only
  split
  · exact State.Keyed.foldl h (fun _ _ ht => ht.putShard _ _ _ _ _ _) _
  · exact h
theorem execReinjection_keyed (h : s.Keyed) : KeyedNext (execReinjection s) := by
  unfold execReinjection
  dsimp only
  split
  · split
    · exact State.Keyed.foldl h (fun _ _ ht => ht.putShard _ _ _ _ _ _) _
    · exact h
  · exact h
theorem State.Keyed.tellDown (h : s.Keyed) : s.tellDown.Keyed := by
  refine State.Keyed.post ?_ _ _ _
  exact h.mapDies (fun _ => by rfl)
theorem State.Keyed.route (h : s.Keyed) (k : DieKey) (hi lo v : Nat) : (s.route k hi lo v).Keyed := h.setDie _
theorem State.Keyed.mendLink (h : s.Keyed) (k : DieKey) (up : Bool) : (s.mendLink k up).Keyed := h.setDie _
theorem State.Keyed.loseRequests (h : s.Keyed) (p : Nat) (hostOnly : Bool) : (s.loseRequests p hostOnly).1.Keyed :=
  State.Keyed.foldl (h.foldl (fun _ _ ht => .ite ht (ht.writeWord _ _)) _) (fun _ _ ht => ht.setDie _) _
theorem State.Keyed.postLost (h : s.Keyed) (k : FailKind) (tick : Nat) (reqs : List Nat) : (s.postLost k tick reqs).Keyed :=
  h.foldl (fun _ _ ht => ht.post _ _ _) _
theorem State.Keyed.ringDown (h : s.Keyed) (f : FailKind) : (s.ringDown f).Keyed :=
  (State.Keyed.loseRequests (State.Keyed.tellDown (by exact h)) _ _).postLost _ _ _
theorem execRepairAnnouncement_keyed (h : s.Keyed) {r} : KeyedNext (execRepairAnnouncement r s) := .ite (h.foldl (fun _ _ ht => ht.setDie _) _) h
theorem execRepairReport_keyed (h : s.Keyed) {f} : KeyedNext (execRepairReport f s) := by
  unfold execRepairReport
  exact .ite h (.ite (h.ringDown _) (State.Keyed.post (by exact h) _ _ _))
theorem State.Keyed.dropSends (h : s.Keyed) (k : DieKey) (f : FailKind) (tick : Nat) : (s.dropSends k f tick).Keyed :=
  (h.setDie _).foldl (fun _ _ ht => (ht.updRun _ _ _).post _ _ _) _
theorem State.Keyed.switchRing (h : s.Keyed) (f : FailKind) : (s.switchRing f).Keyed := by
  cases f with
  | dieFail p d =>
    exact ((((State.Keyed.foldl (((h.setDie _).route _ _ _ _).route _ _ _ _) (fun _ _ ht => ht.setDie _) _).mendLink _ _).mendLink _ _).mendLink
      _ _).mendLink _ _
  | moduleFail p => exact h.foldl (fun _ _ ht => (((ht.route _ _ _ _).route _ _ _ _).mendLink _ _).mendLink _ _) _
theorem execRepairTick_keyed (h : s.Keyed) : KeyedNext (execRepairTick s) := by
  unfold execRepairTick
  split
  · refine .ite h ?_
    extract_lets f below dropped lost ring repaired switched cleared dwelt nom mended x
    have hd : dropped.Keyed := h.foldl (fun _ _ ht => ht.dropSends _ _ _) _
    have hr : repaired.Keyed := hd
    have hs : switched.Keyed := hr.switchRing f
    have hc : cleared.Keyed := hs.foldl (fun _ _ ht => ht.setDie _) _
    have hm : mended.Keyed := (hc.setDwells _ _).mapDies (fun _ => by rfl)
    exact (hm.loseRequests _ _).postLost _ _ _
  · exact h
theorem State.Keyed.restartRing (h : s.Keyed) : s.restartRing.Keyed := by
  unfold State.restartRing
  extract_lets failed link ring fresh switched
  have hf : fresh.Keyed := h.mapDies (fun _ => by rfl)
  have hs : switched.Keyed := hf.foldl (fun _ _ ht => ht.switchRing _) _
  exact hs.setDwells _ _

/-! ### Interruptions (R395, R396, R400, R405, R416) -/

theorem execSafeGap_keyed (h : s.Keyed) : KeyedNext (execSafeGap s) := by
  unfold execSafeGap
  split
  · exact .ite (h.atBoundary.raised _) h
  · exact h
theorem execDomainAbort_keyed (h : s.Keyed) {t} : KeyedNext (execDomainAbort t s) := .ite (h.atBoundary.raised _) h
theorem execLocalClockStep_keyed (h : s.Keyed) {k n} : KeyedNext (execLocalClockStep k n s) := .ite h ((h.setDie _).post _ _ _)
theorem execForcedStallCycle_keyed (h : s.Keyed) : KeyedNext (execForcedStallCycle s) := .ite h h
theorem execPowerLimitExceeded_keyed (h : s.Keyed) : KeyedNext (execPowerLimitExceeded s) := .ite h h
theorem State.Keyed.shutTask (h : s.Keyed) : s.shutTask.Keyed := by
  unfold State.shutTask
  split
  · exact h.atBoundary.raised _
  · exact h.atBoundary.raised _
  · exact h
theorem execThermalShutdown_keyed (h : s.Keyed) {n} : KeyedNext (execThermalShutdown n s) :=
  .ite (State.Keyed.post (State.Keyed.foldl (State.Keyed.foldl (h.setDie _) (fun _ _ ht => State.loseSaved_keyed ht) _)
    (fun _ k ht => ht.atCore k (fun _ hu => hu.shutTask)) _) _ _ _) h
theorem execSoftError_keyed (h : s.Keyed) {x} : KeyedNext (execSoftError x s) := .ite ((h.setDie _).post _ _ _) (h.setDie _)

/-! ### Packages and their management complexes (R419 to R429) -/

theorem State.Keyed.postTakeover (h : s.Keyed) (p cause : Nat) : (s.postTakeover p cause).Keyed := h.post _ _ _
theorem State.Keyed.flushEvents (h : s.Keyed) (p : Nat) : (s.flushEvents p).Keyed := by
  unfold State.flushEvents
  extract_lets ks es t
  have ht : t.Keyed := h.foldl (fun _ _ hu => .ite hu (hu.setDie _)) _
  clear_value t
  exact ht
theorem State.Keyed.failOver (h : s.Keyed) (n : Nat) : (s.failOver n).Keyed := ((h.setPkg _).flushEvents _).postTakeover _ _
theorem execHeartbeat_keyed (h : s.Keyed) : KeyedNext (execHeartbeat s) := .ite (h.setPkg _) h
theorem execTakeover_keyed (h : s.Keyed) : KeyedNext (execTakeover s) := by
  unfold execTakeover
  refine .ite h (.ite (h.failOver _) ?_)
  split
  · exact .ite (((h.setPkg _).flushEvents _).postTakeover _ _) h
  · exact h
theorem complete_keyed (h : s.Keyed) {st} : (complete st s).Keyed := h.setPkg _
theorem served_keyed (h : s.Keyed) {m : State → Out State} (hm : KeepsKeyed m) : KeyedNext (served m s) := .ite (hm s h) h
theorem command_keyed (h : s.Keyed) {b} {m : State → State} (hm : ∀ t : State, t.Keyed → (m t).Keyed) : KeyedNext (command b m s) :=
  served_keyed h (fun _ ht => State.Keyed.ite (complete_keyed (hm _ ht)) (complete_keyed ht))
theorem execUpdate_keyed (h : s.Keyed) {fw} : KeyedNext (execUpdate fw s) :=
  served_keyed h (fun _ ht => .ite (complete_keyed ht) (.ite ((complete_keyed ht).postTakeover _ _) (ht.setPkg _)))
theorem execAttest_keyed (h : s.Keyed) {nonce} : KeyedNext (execAttest nonce s) :=
  served_keyed h (fun _ ht => .ite (complete_keyed ht) (.ite (complete_keyed ht) (ht.setPkg _)))
theorem State.Keyed.resetDies (h : s.Keyed) (n : Nat) (held : Bool) : (s.resetDies n held).Keyed := (State.resetDies_spec h n held).1
theorem State.Keyed.bringUp (h : s.Keyed) (n : Nat) : (s.bringUp n).Keyed :=
  .ite ((h.setPkg _).foldl (fun _ _ ht => ht.setDie _) _) ((h.setPkg _).post _ _ _)
theorem execResetPackage_keyed (h : s.Keyed) : KeyedNext (execResetPackage s) :=
  served_keyed h (fun _ ht => complete_keyed ((ht.resetDies _ _).bringUp _))
theorem execPowerOnReset_keyed (h : s.Keyed) : KeyedNext (execPowerOnReset s) := State.Keyed.ite (h.bringUp _) (h.resetDies _ _)
theorem execPowerLoss_keyed (h : s.Keyed) : KeyedNext (execPowerLoss s) := (h.resetDies _ _).setPkg _
theorem execRingRestart_keyed (h : s.Keyed) : KeyedNext (execRingRestart s) :=
  .ite (.ite h.restartRing h) (command_keyed h (fun _ ht => ht))

end

end Sys2Proof.Machine
end

section
/-! Core cycles and whole steps keep every key (R9, R155, R365, R394, R395), whatever meaning of the words keeps them. -/

namespace Sys2Proof.Machine

section
variable {s : State}

/-! ### The sequencer's word (R154, R155, R397) -/

theorem Core.noteResult_key (c : Core) (i : Instr) : (c.noteResult i).key = c.key := by
  unfold Core.noteResult
  dsimp only
  split
  · rfl
  · rfl
theorem State.Keyed.issued (h : s.Keyed) (w : Word) : (s.issued w).Keyed := h.withCore (Core.enterSection_key _)

section
variable {run : Instr → State → Out State} (hr : ∀ i, KeepsKeyed (run i))
include hr

theorem runWord_keyed (h : s.Keyed) (w : Word) : KeyedNext (runWord run w s) := by
  have issued := h.issued w
  unfold runWord
  refine .ite (raise_keyed issued) ?_
  split
  · exact raise_keyed issued
  · exact .ite (hr _ _ (issued.withCore (Core.noteResult_key _ _))) issued.retire
theorem sequence_keyed (h : s.Keyed) : KeyedNext (sequence run s) := by
  unfold sequence
  split
  · exact h.raised _
  · refine .ite ?_ h
    split
    · exact h.atBoundary.raised _
    · exact .ite h (runWord_keyed hr h _)
theorem stallStep_keyed (h : s.Keyed) {t : State} (e : s.stallStep run = some t) : t.Keyed := by
  have next := sequence_keyed hr h
  unfold State.stallStep at e
  split at e
  · next u eu =>
    split at e
    · injection e with e
      exact e ▸ next.of_next eu
    · cases e
  · cases e

end

/-! ### The end of a core cycle (R226, R271, R313, R365) -/

theorem State.Keyed.settleStores (h : s.Keyed) : s.settleStores.Keyed := h.foldl (fun _ cls ht => settleClass_keyed ht cls _) _
theorem State.Keyed.settleSig (h : s.Keyed) : s.settleSig.Keyed := by
  unfold State.settleSig
  split
  · refine State.Keyed.settleStores ?_
    exact h.takeSig _
  · exact h
theorem State.Keyed.settleAccesses (h : s.Keyed) : s.settleAccesses.Keyed := h.settleStores.foldl (fun _ _ ht => ht.settleSig) _
theorem State.Keyed.settlePuts (h : s.Keyed) (xfer : Bool) : (s.settlePuts xfer).Keyed := h.foldl (fun _ _ ht => ht.performPut _ _ _) _
theorem State.Keyed.settleRecords (h : s.Keyed) : s.settleRecords.Keyed :=
  (h.foldl (fun _ _ ht => ht.retireRecord false _) _).foldl (fun _ _ ht => ht.retireRecord true _) _
theorem Core.completions_key (c : Core) : c.completions.key = c.key :=
  foldl_keeps Core.key (fun c v => Core.ite_key (c.complete_key v) rfl) _ _
theorem State.Keyed.endCycle (h : s.Keyed) : s.endCycle.Keyed := by
  have settled := ((h.settleAccesses.settlePuts false).settlePuts true).settleRecords
  unfold State.endCycle
  generalize (State.settleRecords _) = t at settled
  refine State.Keyed.foldl ?_ (fun _ _ ht => ht.arrive _) _
  exact settled.withCore (Core.completions_key _)

/-! ### Core cycles (R9, R394, R395) -/

theorem State.Keyed.passTime (h : s.Keyed) : s.passTime.Keyed := h.withCore rfl
theorem State.Keyed.judged (h : s.Keyed) (v : Option Bool) : State.Keyed { s with core := { s.core with verdict := v } } := h.withCore rfl
theorem State.Keyed.boundary (h : s.Keyed) (run : Instr → State → Out State) : (s.boundary run).Keyed :=
  (h.foldl (fun _ k ht => ht.atCore k (fun _ hu => .ite hu hu.endCycle)) _).foldl (fun _ k ht => ht.atCore k (fun _ hu => hu.judged _)) _

section
variable {run : Instr → State → Out State} (hr : ∀ i, KeepsKeyed (run i))
include hr

theorem stallCycle_keyed (h : s.Keyed) : (s.stallCycle run).Keyed := by
  have passed : State.Keyed (State.passTime { s with core := { s.core with clk := s.ownDie.localStep, slow := false } }) := by
    refine State.Keyed.passTime ?_
    exact h.withCore rfl
  unfold State.stallCycle
  dsimp only
  generalize State.passTime _ = t at passed
  cases e : t.stallStep run with
  | none => exact passed
  | some u => exact stallStep_keyed hr passed e
theorem firstEvent_keyed (h : s.Keyed) {l : List Event} {t : State} (e : firstEvent run s l = some t) : t.Keyed := by
  induction l with
  | nil => cases e
  | cons ev l ih =>
    have next := hr ev.2 { s with place := ev.1 } h
    unfold firstEvent at e
    split at e
    · next u eu =>
      split at e
      · exact ih e
      · injection e with e
        exact e ▸ next.of_next eu
    · exact ih e
theorem firstEvent_getD_keyed (h : s.Keyed) (l : List Event) : ((firstEvent run s l).getD s).Keyed := by
  cases e : firstEvent run s l with
  | none => exact h
  | some t => exact firstEvent_keyed hr h e
theorem runRecords_keyed (h : s.Keyed) (n : Nat) : (s.runRecords run n).Keyed := by
  induction n generalizing s with
  | zero => exact h
  | succ n ih =>
    unfold State.runRecords
    split
    · next e => exact ih (firstEvent_keyed hr h e)
    · exact h
theorem work_keyed (h : s.Keyed) : (s.work run).Keyed := by
  have latched : State.Keyed (State.readsDue { s with core := s.core.latchGates }) := by
    refine State.Keyed.readsDue ?_
    exact h.withCore rfl
  unfold State.work
  refine State.Keyed.passTime (State.Keyed.withCore (firstEvent_getD_keyed hr (runRecords_keyed hr latched _) _) ?_)
  rfl
theorem seqCycle_keyed (h : s.Keyed) : KeyedNext (seqCycle run s) := by
  unfold seqCycle
  dsimp only
  split
  · trivial
  · refine .ite (.ite h (h.withCore rfl)) (.ite h ?_)
    split
    · exact h.boundary run
    · exact stallCycle_keyed hr h
    · exact sequence_keyed hr (work_keyed hr h)

/-! ### One step -/

theorem defaultStep_keyed (h : s.Keyed) : KeyedNext (defaultStep run s) := by
  unfold defaultStep
  split
  · next e => exact firstEvent_keyed hr h e
  · split
    · next e =>
      split at e
      · cases e
      · exact firstEvent_keyed hr h e
    · split
      · exact .ite (seqCycle_keyed hr h) (h.select _)
      · exact seqCycle_keyed hr h
theorem stepWith_keyed (h : s.Keyed) : KeyedNext (stepWith run s) := by
  unfold stepWith
  dsimp only
  split
  · exact defaultStep_keyed hr h
  · refine State.Keyed.select ?_ _
    exact h
  · exact seqCycle_keyed hr h
  · exact hr _ _ h
  · exact h
  · exact h.withCore rfl

end

end

end Sys2Proof.Machine
end

section
/-! Every word and event keeps every key, by the lemma of the operation that gives it its meaning; and so does every step: O7 (R19, R22, R292). -/

namespace Sys2Proof.Machine

section
variable {s : State}

/-! ### Operations that many words share (R184 to R198) -/

theorem alu_keyed (h : s.Keyed) {d f} : KeyedNext (alu d f s) := setG_keyed h
theorem setP_keyed (h : s.Keyed) {d f} : KeyedNext (setP d f s) := retireWith_keyed h (fun c => c.wp_key _ _)
theorem fpResult_keyed (h : s.Keyed) {d f} : KeyedNext (fpResult d f s) := writeRetire_keyed h (fun _ => rfl)
theorem vPlain_keyed (h : s.Keyed) {i} : KeyedNext (vPlain i s) := vPut_keyed h
theorem vRound_keyed (h : s.Keyed) {i rm} : KeyedNext (vRound i rm s) := vPut_keyed h

/-! ### Every word and event -/

theorem exec_keyed (i : Instr) (h : s.Keyed) : KeyedNext (exec i s) := by
  cases i with unfold exec
  | nop => exact h.retire
  | add | sub | mul | mulhs | mulhn | divs | divn | rems | remn | and | or | xor | andn | shl | shrl | shra | rotl | clz | ctz | popc | sext |
    mins | minn | maxs | maxn | sel | bfxs | bfxn | bfi | addi | andi | ori | xori | shli | movi | movh | lea | prsave =>
    exact alu_keyed h
  | cmpeq | cmpne | cmplts | cmples | cmpltn | cmplen | pand | por | pxor | pnot => exact setP_keyed h
  | prload | wstep | wrst | gwset => exact retireWith_keyed h (fun _ => rfl)
  | fadd | fsub | fmul | ffma | fdiv | fsqrt | fmin | fmax | fcvt => exact fpResult_keyed h
  | fcmp => exact retireWith_keyed h (fun c => c.wp_key _ _)
  | fcls | fsgn | wpos | spadj | spmov | spmovSp | barq | tick => exact setG_keyed h
  | br | lbrk => exact transferTo_keyed h (fun _ => rfl)
  | bc | bwe => exact branchIf_keyed h
  | bmz => exact execBmz_keyed h
  | brl => exact execBrl_keyed h
  | call => exact pushAndGo_keyed h
  | callr => exact execCallr_keyed h
  | ret => exact execRet_keyed h
  | loop | loopr => exact startLoop_keyed h
  | gset => exact retireWith_keyed h (fun c => setSlot_key _ _ c)
  | gclr => exact retireWith_keyed h (setSlot_key _ _)
  | safe => exact execSafe_keyed h
  | exit => exact h.withCore rfl
  | trap => exact raise_keyed h
  | rte => exact execRte_keyed h
  | wbind => exact execWbind_keyed h
  | shard => exact streamOnly_keyed h (fun _ _ ht => setG_keyed ht)
  | batch => exact execBatch_keyed h
  | need => exact execNeed_keyed h
  | unpin => exact execUnpin_keyed h
  | kva => exact execKva_keyed h
  | enq => exact execEnq_keyed h
  | enqr => exact execEnqr_keyed h
  | acalloc => exact execAcalloc_keyed h
  | acfree => exact execAcfree_keyed h
  | ld | ldacq => exact loadReg_keyed h (fun _ => rfl)
  | st | strel => exact storeReg_keyed h (fun _ => rfl)
  | ldw => exact loadReg_keyed h (fun c => c.setWalker_key _ _)
  | stw => exact storeReg_keyed h (fun c => c.setWalker_key _ _)
  | ldp => exact execLdp_keyed h
  | stp => exact execStp_keyed h
  | fence | fenceo => exact fence_keyed h
  | aadd | aand | aor | axor | amins | aminn | amaxs | amaxn | axch | acas | afadd => exact atomic_keyed h
  | bara => exact execBara_keyed h
  | barw | tokw => exact retireOrCount_keyed h
  | bar => exact execBar_keyed h
  | barc => exact execBarc_keyed h
  | sigadd | sigmax => exact signalWord_keyed h
  | sigw => exact execSigw_keyed h
  | merge => exact execMerge_keyed h
  | ctlrd => exact execCtlrd_keyed h
  | ctlwr | ctlset | ctlclr => exact ctlWrite_keyed h
  | qcreate => exact execQcreate_keyed h
  | qkill => exact execQkill_keyed h
  | tmark => exact execTmark_keyed h
  | icfence => exact execIcfence_keyed h
  | rep => exact execRep_keyed h
  | vadd | vsub | vmul | vfma | vcvt | vrred | vcred | vrscan | vcscan | vdotb | vscl => exact vRound_keyed h
  | vmin | vmax | vabs | vneg | vand | vor | vxor | vnot | vshl | vshr | vsha | vcmp | vsel | vmov | vrrot | vrbc | vcrot | vcbc | vtrp | vperm |
    vexpf | vexpx | vlogf | vlogx | vrcpf | vrcpx | vrsqf | vrsqx | vsinf | vsinx | vcosf | vcosx | vtanhf | vtanhx | vdot8 =>
    exact vPlain_keyed h
  | vmovExtract => exact execVmovExtract_keyed h
  | vmovInsert | vbc => exact vPut_keyed h
  | vld => exact rowLoad_keyed h (fun _ => rfl)
  | vst => exact rowStore_keyed h (fun _ => rfl)
  | vldw => exact rowLoad_keyed h (fun c => c.setWalker_key _ _)
  | vstw => exact rowStore_keyed h (fun c => c.setWalker_key _ _)
  | vgath => exact execVgath_keyed h
  | vscat => exact execVscat_keyed h
  | mpush | minv | mpop | mand => exact vChecked_keyed h
  | vrng => exact execVrng_keyed h
  | vpkp | vxtp => exact packed_keyed h
  | storePerform => exact execStorePerform_keyed h
  | recordRetire => exact execRecordRetire_keyed h
  | barrierArrival => exact h.setBar _ _
  | destroyNotice => exact execDestroyNotice_keyed h
  | flitReceive => exact execFlitReceive_keyed h
  | flitReplay | latencyProbe => exact takeCtrl_keyed h (fun _ _ => h.setDie _)
  | flitSend => exact execFlitSend_keyed h
  | probeEcho => exact execProbeEcho_keyed h
  | linkFailResends => exact execLinkFailResends_keyed h
  | linkFailSilence => exact execLinkFailSilence_keyed h
  | ringStall => exact execRingStall_keyed h
  | podStep => exact execPodStep_keyed h
  | repairReport => exact execRepairReport_keyed h
  | repairAnnouncement => exact execRepairAnnouncement_keyed h
  | domainAbort => exact execDomainAbort_keyed h
  | localClockStep => exact execLocalClockStep_keyed h
  | thermalShutdown => exact execThermalShutdown_keyed h
  | softError => exact execSoftError_keyed h
  | setEventq => exact command_keyed h (fun _ ht => ht)
  | attest => exact execAttest_keyed h
  | update => exact execUpdate_keyed h
  | powerLimit => exact command_keyed h (fun _ ht => ht.setPkg _)
  | hostRead => exact hostRequest_keyed h (fun _ ht => ht)
  | hostPostedWrite => exact execHostPostedWrite_keyed h
  | hostFetchadd | hostCompareAndSwap => exact hostAtomic_keyed h
  | testEnableStrap | fabricPortLoss | fabricPortReturn => exact h.setPkg _
  | vectorIssue => exact execVectorIssue_keyed h
  | vectorComplete => exact execVectorComplete_keyed h
  | loadDataArrival => exact execLoadDataArrival_keyed h
  | pdotF64 | pdotF32 | pdotBf16 | plog66 | plog68 | plog88 | pmulp | pmul | pscale | pnorm | pzero | pload | pdrain | pxtp =>
    exact stepProduct_keyed h
  | xcopy | xcopyTable | xcvt | xfill | xgath | xscat | xrestr | xprol | xsten => exact stepTransfer_keyed h
  | xslab => exact execXslab_keyed h
  | xslabRelease => exact execXslabRelease_keyed h
  | xput | xget => exact stepRemote_keyed h
  | xsend => exact execXsend_keyed h
  | xsig => exact execXsig_keyed h
  | xmlrSetup => exact execXmlrSetup_keyed h
  | xmlr => exact execXmlr_keyed h
  | xtmark => exact execXtmark_keyed h
  | xmlrCombine => exact execXmlrCombine_keyed h
  | xmlrTimeout => exact execXmlrTimeout_keyed h
  | xmlrSetupTimeout => exact execXmlrSetupTimeout_keyed h
  | signalUpdate => exact execSignalUpdate_keyed h
  | signalResend => exact execSignalResend_keyed h
  | sigwLimit => exact execSigwLimit_keyed h
  | mergeApply => exact execMergeApply_keyed h
  | finalMerge => exact execFinalMerge_keyed h
  | taskLogApply => exact execTaskLogApply_keyed h
  | streamLogApply => exact execStreamLogApply_keyed h
  | packetFetch => exact execPacketFetch_keyed h
  | queuePoll => exact execQueuePoll_keyed h
  | launch | gangLaunch => exact dispatch_keyed h (fun _ _ _ _ ht => dispatchLaunch_keyed ht)
  | bindKernel => exact execBindKernel_keyed h
  | registerRequest => exact execRegisterRequest_keyed h
  | registerNeed => exact execRegisterNeed_keyed h
  | removeNeed => exact execRemoveNeed_keyed h
  | setRequestState => exact execSetRequestState_keyed h
  | unbind => exact execUnbind_keyed h
  | signalWait => exact execSignalWait_keyed h
  | waitTimeout => exact execWaitTimeout_keyed h
  | signalSet => exact execSignalSet_keyed h
  | fetchFence => exact execFetchFence_keyed h
  | barrierPacket => exact execBarrierPacket_keyed h
  | destroy => exact execDestroy_keyed h
  | destroyTick => exact execDestroyTick_keyed h
  | packetRetire => exact execPacketRetire_keyed h
  | placementChoice => exact execPlacementChoice_keyed h
  | contextSaveDone => exact execContextSaveDone_keyed h
  | gangReadyCheck => exact execGangReadyCheck_keyed h
  | gangNotReady => exact execGangNotReady_keyed h
  | gangDefer => exact execGangDefer_keyed h
  | gangStart => exact execGangStart_keyed h
  | dieLaunchReport => exact execDieLaunchReport_keyed h
  | taskRetire => exact execTaskRetire_keyed h
  | coreFuse => exact execCoreFuse_keyed h
  | batchFormation => exact execBatchFormation_keyed h
  | streamStart => exact execStreamStart_keyed h
  | shardDeparture => exact execShardDeparture_keyed h
  | departureDeadline => exact execDepartureDeadline_keyed h
  | ringStallBegin => exact execRingStallBegin_keyed h
  | ringStallEnd => exact execRingStallEnd_keyed h
  | repairTick => exact execRepairTick_keyed h
  | reinjection => exact execReinjection_keyed h
  | ringInject => exact execRingInject_keyed h
  | safeGap => exact execSafeGap_keyed h
  | powerLimitExceeded => exact execPowerLimitExceeded_keyed h
  | eventPost => exact execEventPost_keyed h
  | overflow => exact execOverflow_keyed h
  | heartbeat => exact execHeartbeat_keyed h
  | takeover => exact execTakeover_keyed h
  | ringRestart => exact execRingRestart_keyed h
  | resetPackage => exact execResetPackage_keyed h
  | powerOnReset => exact execPowerOnReset_keyed h
  | bypass | samplePreload | extest | idcode => exact testAccess_keyed h
  | warmReset => exact h.clearDie _
  | powerLoss => exact execPowerLoss_keyed h
  | forcedStallCycle => exact execForcedStallCycle_keyed h
  | signalAcknowledge => exact execSignalAcknowledge_keyed h

end

/-- Settles O7: every operation that puts a new state together keeps the keys, so every word and event does, and a core cycle and a step are made
of these. -/
theorem stepKeepsKeys : Obligations.StepKeepsKeys := fun _ _ h e => (stepWith_keyed (fun i _ ht => exec_keyed i ht) h).of_next e

end Sys2Proof.Machine
end

section
/-! The host and the device (R25, R332, R414 to R417, R426): what an event record leaves in the queue's memory, which requests are served, and what
the ports do. O59. -/

namespace Sys2Proof.Machine

section
variable {s : State}

/-! ### Words written one after the other -/

theorem State.wf_writeWords {f : Fin 8 → Nat} {w : Fin 8 → Word} (h : s.Sound) (l : List (Fin 8)) :
    (l.foldl (fun s j => s.writeWord (f j) (w j)) s).Sound :=
  List.foldlRecOn (motive := State.Sound) l _ h (fun _ ht _ _ => State.writeWord_wf _ _ ht)
theorem State.num_writeWords_outside {f : Fin 8 → Nat} {w : Fin 8 → Word} {a n : Nat} {l : List (Fin 8)}
    (out : ∀ j ∈ l, a + n ≤ f j ∨ f j + 8 ≤ a) :
    (l.foldl (fun s j => s.writeWord (f j) (w j)) s).num a n = s.num a n :=
  List.foldlRecOn (motive := fun t : State => t.num a n = s.num a n) l _ rfl
    (fun t ht j m => (State.num_writeWord_outside t _ _ _ _ (out j m)).trans ht)
/-- Each of several words of a record reads as written. -/
theorem State.num_writeWords {slot : Nat} {w : Fin 8 → Word} (h : s.Sound) {l : List (Fin 8)} (once : l.Nodup) {j : Fin 8} (m : j ∈ l) :
    (l.foldl (fun s j => s.writeWord (slot + 8 * j.val) (w j)) s).num (slot + 8 * j.val) 8 = (w j).toNat := by
  induction l generalizing s with
  | nil => cases m
  | cons i l ih =>
    obtain ⟨new, once⟩ := List.nodup_cons.1 once
    rw [List.foldl_cons]
    rcases List.mem_cons.1 m with rfl | m
    · have apart : ∀ k ∈ l, slot + 8 * j.val + 8 ≤ slot + 8 * k.val ∨ slot + 8 * k.val + 8 ≤ slot + 8 * j.val := fun k mk => by
        have other : j.val ≠ k.val := fun e => new (Fin.ext e ▸ mk)
        omega
      rw [State.num_writeWords_outside apart, State.num_writeWord h]
    · exact ih (State.writeWord_wf _ _ h) once m

/-! ### Event records (R414, R415) -/

/-- Where the next event record goes. -/
def State.eventSlot (s : State) (pa : Nat) : Nat := bits (s.num pa 8) 55 0 + 64 * (s.eqIndex pa % 2 ^ s.eqLog2s pa)
/-- W1 to W7 of a record. -/
def State.eventBody (s : State) (slot : Nat) (e : Vector Word 8) : State :=
  [1, 2, 3, 4, 5, 6, 7].foldl (fun s (j : Fin 8) => s.writeWord (slot + 8 * j.val) (e.get j)) s
/-- The record, with its lap code in W0. -/
def State.eventAt (s : State) (pa : Nat) (e : Vector Word 8) : State :=
  (s.eventBody (s.eventSlot pa) e).writeWord (s.eventSlot pa) (putBits (e.get 0) 7 0 (lapCode (s.eqLog2s pa) (s.eqIndex pa)))
/-- The record counted, with LOST: what `writeEvent` leaves in memory. -/
def State.eventCounted (s : State) (pa : Nat) (e : Vector Word 8) : State :=
  ((s.eventAt pa e).writeWord (pa + 16) (BitVec.ofNat 64 (s.eqIndex pa + 1))).writeWord (pa + 24)
    (putBits (BitVec.ofNat 64 (s.num (pa + 24) 8)) 63 32 s.eventq.lost)

theorem State.num_notify {p : Prop} [Decidable p] {q : EventQ} {a n : Nat} : (if p then { s with eventq := q } else s).num a n = s.num a n := by
  split
  · rfl
  · rfl
theorem State.num_writeEvent (s : State) (pa : Nat) (e : Vector Word 8) (a n : Nat) :
    (s.writeEvent pa e).num a n = (s.eventCounted pa e).num a n := by
  unfold State.writeEvent
  exact State.num_notify
theorem State.writeEvent_eventq (s : State) (pa : Nat) (e : Vector Word 8) : ∃ x, (s.writeEvent pa e).eventq = { s.eventq with msix := x } := by
  unfold State.writeEvent
  dsimp only
  split
  · exact ⟨_, rfl⟩
  · exact ⟨s.eventq.msix, rfl⟩

theorem State.eventBody_wf (h : s.Sound) (slot : Nat) (e : Vector Word 8) : (s.eventBody slot e).Sound := State.wf_writeWords h _
theorem State.eventAt_wf (h : s.Sound) (pa : Nat) (e : Vector Word 8) : (s.eventAt pa e).Sound := State.writeWord_wf _ _ (State.eventBody_wf h _ e)
theorem State.num_eventAt_zero (h : s.Sound) (pa : Nat) (e : Vector Word 8) :
    (s.eventAt pa e).num (s.eventSlot pa) 8 = (putBits (e.get 0) 7 0 (lapCode (s.eqLog2s pa) (s.eqIndex pa))).toNat :=
  State.num_writeWord (State.eventBody_wf h _ e) _ _
theorem State.num_eventAt (h : s.Sound) (pa : Nat) (e : Vector Word 8) {j : Fin 8} (first : j ≠ 0) :
    (s.eventAt pa e).num (s.eventSlot pa + 8 * j.val) 8 = (e.get j).toNat := by
  have behind : s.eventSlot pa + 8 ≤ s.eventSlot pa + 8 * j.val := by
    have := Fin.val_ne_of_ne first
    simp only [Fin.val_zero] at this
    omega
  have listed : ∀ j : Fin 8, j ≠ 0 → j ∈ ([1, 2, 3, 4, 5, 6, 7] : List (Fin 8)) := by decide
  rw [State.eventAt, State.num_writeWord_outside _ _ _ _ _ (.inr behind)]
  exact State.num_writeWords h (by decide) (listed j first)

/-- The queue's index counts the record. -/
theorem State.eqIndex_writeEvent (h : s.Sound) (pa : Nat) (e : Vector Word 8) :
    (s.writeEvent pa e).num (pa + 16) 8 = (s.eqIndex pa + 1) % 2 ^ 64 := by
  rw [State.num_writeEvent]
  rw [State.eventCounted, State.num_writeWord_outside _ _ _ _ _ (by omega), State.num_writeWord (State.eventAt_wf h pa e),
    BitVec.toNat_ofNat]
/-- A record apart from the queue's descriptor stays as it was written. -/
theorem State.num_writeEvent_slot {pa a : Nat} (e : Vector Word 8) (inside : s.eventSlot pa ≤ a ∧ a + 8 ≤ s.eventSlot pa + 64)
    (apart : s.eventSlot pa + 64 ≤ pa ∨ pa + 32 ≤ s.eventSlot pa) : (s.writeEvent pa e).num a 8 = (s.eventAt pa e).num a 8 := by
  rw [State.num_writeEvent, State.eventCounted, State.num_writeWord_outside _ _ _ _ _ (by omega), State.num_writeWord_outside _ _ _ _ _ (by omega)]
theorem State.num_writeEvent_zero (h : s.Sound) {pa : Nat} (apart : s.eventSlot pa + 64 ≤ pa ∨ pa + 32 ≤ s.eventSlot pa) (e : Vector Word 8) :
    (s.writeEvent pa e).num (s.eventSlot pa) 8 = (putBits (e.get 0) 7 0 (lapCode (s.eqLog2s pa) (s.eqIndex pa))).toNat :=
  (State.num_writeEvent_slot e (by omega) apart).trans (State.num_eventAt_zero h pa e)
theorem State.num_writeEvent_word (h : s.Sound) {pa : Nat} (apart : s.eventSlot pa + 64 ≤ pa ∨ pa + 32 ≤ s.eventSlot pa) (e : Vector Word 8)
    {j : Fin 8} (first : j ≠ 0) : (s.writeEvent pa e).num (s.eventSlot pa + 8 * j.val) 8 = (e.get j).toNat :=
  (State.num_writeEvent_slot e (by omega) apart).trans (State.num_eventAt h pa e first)

/-- EVENT_POST where the queue has room: the oldest event is written. -/
theorem exec_eventPost {pa : Nat} {e : Vector Word 8} {r : List (Vector Word 8)} (up : s.managed s.bridge = true) (at_ : s.eventq.desc = some pa)
    (waits : s.eventq.buffer = e :: r) (room : s.eqRoom pa = true) (none_ : s.eventq.overflow = false) :
    exec .eventPost s = .next (State.writeEvent { s with eventq := { s.eventq with buffer := r } } pa e) := by
  change execEventPost s = _
  unfold execEventPost
  rw [at_, waits]
  simp [up, room, none_, ok]
/-- OVERFLOW where the queue has room: the OVERFLOW event is written. -/
theorem exec_overflow {pa : Nat} (up : s.managed s.bridge = true) (at_ : s.eventq.desc = some pa) (room : s.eqRoom pa = true)
    (lost : s.eventq.overflow = true) :
    exec .overflow s = .next (State.writeEvent { s with eventq := { s.eventq with overflow := false } } pa
      (eventRecord 10 ⟨s.bridge, 0, 0⟩ s.tick [BitVec.ofNat 64 s.eventq.lost])) := by
  change execOverflow s = _
  unfold execOverflow
  rw [at_]
  simp [up, room, lost, ok]

/-! ### Host requests (R417) -/

theorem State.hostServes_iff (s : State) (pa m : Nat) : s.hostServes pa m = true ↔ validPA pa = true ∧ paSpace pa = 0 ∧ 1 ≤ m
    ∧ paOff pa + m ≤ 2560 * 2 ^ 20 ∧ s.present (paPkg pa) = true ∧ s.hostUp = true
    ∧ (paPkg pa = s.bridge ∨ (s.fabricUp s.bridge = true ∧ s.fabricUp (paPkg pa) = true)) := by
  have size : spaceSize 0 = 2560 * 2 ^ 20 := rfl
  simp [State.hostServes, size, and_assoc]
/-- A request for no bytes is not served. -/
theorem State.hostServes_zero (s : State) (pa : Nat) : s.hostServes pa 0 = false := by simp [State.hostServes]

/-- Reading afresh changes queues alone, and none of which nothing has been read (R92). -/
theorem State.freshSlots_queues (s : State) (l : List Nat) : s.freshSlots l = { s with queues := (s.freshSlots l).queues }
    ∧ ((∀ e ∈ s.queues, e.2.part = []) → (s.freshSlots l).queues = s.queues) := by
  unfold State.freshSlots
  split
  · exact ⟨rfl, fun _ => rfl⟩
  · next unread => exact ⟨rfl, fun none_ => absurd (by simpa using none_) unread⟩
theorem freshSlotsOf_queues (s : State) (pa n : Nat) : freshSlotsOf pa n s = { s with queues := (freshSlotsOf pa n s).queues }
    ∧ ((∀ e ∈ s.queues, e.2.part = []) → (freshSlotsOf pa n s).queues = s.queues) := by
  unfold freshSlotsOf
  split
  · exact s.freshSlots_queues _
  · exact ⟨rfl, fun _ => rfl⟩

theorem exec_hostRead (a : BitVec 56) (n : Nat) :
    exec (.hostRead a n) s = hostRequest a.toNat n (fun s => (s, .data ((List.range n).map (fun i => s.readByte (a.toNat + i))))) s := rfl
theorem exec_hostPostedWrite (a : BitVec 56) (bs : List Byte) : exec (.hostPostedWrite a bs) s =
    hostRequest a.toNat bs.length (fun s => (freshSlotsOf a.toNat bs.length (s.write a.toNat bs), .done)) s := rfl
theorem exec_hostFetchadd (a : BitVec 56) (v : Word) : exec (.hostFetchadd a v) s = hostAtomic a.toNat (· + v) s := rfl
theorem exec_hostCompareAndSwap (a : BitVec 56) (v w : Word) :
    exec (.hostCompareAndSwap a v w) s = hostAtomic a.toNat (fun old => if old = v then w else old) s := rfl

/-- A posted write that is served is performed; a queue's packet of which nothing has been read is left alone (R92, R417). -/
theorem exec_hostPostedWrite_served {a : BitVec 56} {bs : List Byte} (h : s.hostServes a.toNat bs.length = true) :
    ∃ t, exec (.hostPostedWrite a bs) s = .next t ∧ t = { s.write a.toNat bs with queues := t.queues, hostReply := .done }
      ∧ ((∀ e ∈ s.queues, e.2.part = []) → t.queues = s.queues) := by
  obtain ⟨only, unread⟩ := freshSlotsOf_queues (s.write a.toNat bs) a.toNat bs.length
  refine ⟨{ s.write a.toNat bs with queues := (freshSlotsOf a.toNat bs.length (s.write a.toNat bs)).queues, hostReply := .done }, ?_, rfl,
    unread⟩
  refine ((exec_hostPostedWrite a bs).trans (hostRequest_served h)).trans ?_
  dsimp only
  rw [only]

/-- An aligned atomic that is served answers with the old word (R417). -/
theorem hostAtomic_served {pa : Nat} {f : Word → Word} (even : pa % 8 = 0) (h : s.hostServes pa 8 = true) :
    hostAtomic pa f s = .next { s.writeWord pa (f (s.word pa)) with hostReply := .data (toBytes 8 (s.word pa).toNat) } := by
  unfold hostAtomic
  rw [if_pos even]
  exact hostRequest_served h
/-- An atomic that is not aligned, or not served, has no effect (entry 67). -/
theorem hostAtomic_aborted {pa : Nat} {f : Word → Word} (h : pa % 8 ≠ 0 ∨ s.hostServes pa 8 = false) :
    hostAtomic pa f s = .next { s with hostReply := .abort } := by
  refine hostRequest_aborted ?_
  split
  · next even => exact h.resolve_left (fun odd => odd even)
  · exact s.hostServes_zero pa

/-! ### The test port (R426) -/

theorem exec_bypass : exec .bypass s = testAccess (fun p => { p with tapIr := .bypass, tapDr := 0 }) s := rfl
theorem exec_samplePreload : exec .samplePreload s = testAccess (·.sample .samplePreload) s := rfl
theorem exec_extest : exec .extest s = testAccess (fun p => if p.inReset then p.sample .extest else p) s := rfl
theorem exec_idcode : exec .idcode s = testAccess (fun p => { p with tapIr := .idcode, tapDr := idcodeValue }) s := rfl
theorem testAccess_off {m : Package → Package} (h : (s.getPkg s.place.core.pkg).tapen = false) : testAccess m s = .next s := by
  simp [testAccess, h, ok]
theorem exec_extest_held (on : (s.getPkg s.place.core.pkg).tapen = true) (held : (s.getPkg s.place.core.pkg).inReset = true) :
    exec .extest s = .next (s.setPkg ((s.getPkg s.place.core.pkg).sample .extest)) :=
  (exec_extest.trans (testAccess_on on)).trans (by rw [if_pos held])
/-- EXTEST does nothing in a package that runs (R426). -/
theorem exec_extest_runs (on : (s.getPkg s.place.core.pkg).tapen = true) (runs : (s.getPkg s.place.core.pkg).inReset = false) :
    exec .extest s = .next (s.setPkg (s.getPkg s.place.core.pkg)) :=
  (exec_extest.trans (testAccess_on on)).trans (by rw [if_neg (Bool.eq_false_iff.1 runs)])
/-- IDCODE begins with a one. -/
theorem idcodeValue_zero : idcodeValue.getLsbD 0 = true := by
  rw [idcodeValue, BitVec.getLsbD_ofNat, Nat.testBit_zero]
  simp
  omega

end

/-- Settles O59: an event record and a request act by the lemmas above; the ports and the strap change their package as their definitions say. -/
theorem hostReachesTheDevice : Obligations.HostReachesTheDevice := by
  intro s n p
  refine ⟨fun pa e r up at_ waits room none_ sound => ?_, fun pa up at_ room lost => ?_, s.hostServes_iff,
    fun a m h => (exec_hostRead a m).trans (hostRequest_served h), fun a bs h => exec_hostPostedWrite_served h,
    fun a v w => ⟨fun even h => ?_, fun h => ?_⟩,
    fun a m h => (exec_hostRead a m).trans (hostRequest_aborted h), fun a bs h => (exec_hostPostedWrite a bs).trans (hostRequest_aborted h),
    ⟨rfl, rfl⟩, fun b => rfl, fun on => ?_, fun off i m => ?_⟩
  · obtain ⟨x, eq⟩ := State.writeEvent_eventq { s with eventq := { s.eventq with buffer := r } } pa e
    have taken : State.Sound { s with eventq := { s.eventq with buffer := r } } := sound
    exact ⟨_, exec_eventPost up at_ waits room none_, by rw [eq], by rw [eq]; exact at_, State.eqIndex_writeEvent taken pa e,
      fun apart => ⟨State.num_writeEvent_zero taken apart e, fun j first => State.num_writeEvent_word taken apart e first⟩⟩
  · obtain ⟨x, eq⟩ := State.writeEvent_eventq { s with eventq := { s.eventq with overflow := false } } pa
      (eventRecord 10 ⟨s.bridge, 0, 0⟩ s.tick [BitVec.ofNat 64 s.eventq.lost])
    exact ⟨_, exec_overflow up at_ room lost, by rw [eq], by rw [eq]⟩
  · exact ⟨(exec_hostFetchadd a v).trans (hostAtomic_served even h), (exec_hostCompareAndSwap a v w).trans (hostAtomic_served even h)⟩
  · exact ⟨(exec_hostFetchadd a v).trans (hostAtomic_aborted h), (exec_hostCompareAndSwap a v w).trans (hostAtomic_aborted h)⟩
  · exact ⟨exec_bypass.trans (testAccess_on on), ⟨_, exec_samplePreload.trans (testAccess_on on)⟩,
      fun held => ⟨_, exec_extest_held on held⟩, exec_extest_runs on, _, exec_idcode.trans (testAccess_on on), idcodeValue_zero⟩
  · simp only [List.mem_cons, List.not_mem_nil, or_false] at m
    rcases m with rfl | rfl | rfl | rfl
    · exact exec_bypass.trans (testAccess_off off)
    · exact exec_samplePreload.trans (testAccess_off off)
    · exact exec_extest.trans (testAccess_off off)
    · exact exec_idcode.trans (testAccess_off off)

end Sys2Proof.Machine
end

section
/-! Stream-table updates (R86): what a packet's dispatch does, once for every kind, and the six updates. -/

namespace Sys2Proof.Machine

/-! ### Dispatch (R89, R90) -/

/-- A queue whose packet has been dispatched at tick t. -/
def Queue.taken (q : Queue) (p : Packet) (t : Nat) : Queue := q.setPacket p.idx (fun p => { p with phase := .dispatched, since := t })

/-- The state in which a dispatched packet takes effect: the packet is dispatched, and its command processor has served its queue (R90). -/
def State.taken (s : State) (k : QKey) (q : Queue) (p : Packet) : State :=
  { (s.setQueue k (q.taken p s.tick)) with served := aput s.served (q.homeDie k) k.q }

/-- The ready packet of the kind that its command processor serves next takes effect, where it may go now (R89, R90). -/
theorem dispatch_taken {kind : Packet → Bool} {m : QKey → Queue → Packet → State → Out State} {s : State} {q : Queue} {p : Packet}
    {may : QKey → Queue → Packet → Bool} (at_ : aget s.queues s.place.q = some q) (ready : s.readyPacket s.place.q q = some p)
    (isKind : kind p = true) (goes : may s.place.q q p = true) (wins : s.wins s.place.q q = true) :
    dispatch kind m s may = m s.place.q (q.taken p s.tick) p (s.taken s.place.q q p) := by
  rw [dispatch, withQueue_some at_]
  simp only [ready, isKind, goes, wins, Bool.and_self, if_true]
  rfl

/-- An event that dispatches the packets of a kind has the effect that `m` names, where its own effect `f` is that. -/
theorem dispatched_of {i : Instr} {kind : Packet → Prop} {m : QKey → Queue → Packet → State → State → Prop} {b : Packet → Bool}
    {f : QKey → Queue → Packet → State → Out State} {may : State → QKey → Queue → Packet → Bool}
    (run : ∀ s, exec i s = dispatch b f s (may s)) (kinds : ∀ p, kind p → b p = true)
    (goes : ∀ s k q p t, m k (q.taken p s.tick) p (s.taken k q p) t → may s k q p = true)
    (effect : ∀ k q p u t, m k q p u t → f k q p u = .next t) : dispatched i kind m := by
  intro s q p at_ ready wins isKind q1 u t h
  rw [run, dispatch_taken at_ ready (kinds p isKind) (goes s _ q p t h) wins]
  exact effect _ _ _ _ _ h

/-- The same where the event has no condition of its own. -/
theorem dispatched_always {i : Instr} {kind : Packet → Prop} {m : QKey → Queue → Packet → State → State → Prop} {b : Packet → Bool}
    {f : QKey → Queue → Packet → State → Out State} (run : ∀ s, exec i s = dispatch b f s) (kinds : ∀ p, kind p → b p = true)
    (effect : ∀ k q p u t, m k q p u t → f k q p u = .next t) : dispatched i kind m :=
  dispatched_of run kinds (fun _ _ _ _ _ _ => rfl) effect

theorem isUpdate_of_updateOp {op : Nat} {p : Packet} (h : updateOp op p) : isUpdate op p = true := by
  obtain ⟨ty, code⟩ := h
  simp [isUpdate, ty, code]

/-! ### The updates one by one (R86) -/

theorem exec_bindKernel (s : State) : exec .bindKernel s = execBindKernel s := rfl
theorem exec_registerRequest (s : State) : exec .registerRequest s = execRegisterRequest s := rfl
theorem exec_registerNeed (s : State) : exec .registerNeed s = execRegisterNeed s := rfl
theorem exec_removeNeed (s : State) : exec .removeNeed s = execRemoveNeed s := rfl
theorem exec_setRequestState (s : State) : exec .setRequestState s = execSetRequestState s := rfl
theorem exec_unbind (s : State) : exec .unbind s = execUnbind s := rfl

/-- Settles O50: each update is the dispatch of its packet, and does what its rule gives in each of its cases. -/
theorem streamTableUpdatesComplete : Obligations.StreamTableUpdatesComplete := by
  refine ⟨?register, ?need, ?remove, ?state, ?unbind, ?bind⟩
  case register =>
    refine dispatched_always (fun s => (exec_registerRequest s).trans rfl) (fun _ => isUpdate_of_updateOp) (fun k q p u t h => ?_)
    rcases h with ⟨gone, rfl⟩ | ⟨pa, at_, ⟨fresh, rfl⟩ | ⟨d, held, rfl⟩⟩
    · simp only [gone]; rfl
    · have none_ : (p.updateDies k).find? (fun d => (u.getDie d).reqs.any (fun x => x.req = bits (u.readNum (pa + 8 * 0) 8) 15 0)) = none :=
        List.find?_eq_none.2 (fun d m => by simpa using fresh d m)
      simp only [at_, none_]; rfl
    · simp only [at_, held]; rfl
  case need =>
    refine dispatched_always (fun s => (exec_registerNeed s).trans rfl) (fun _ => isUpdate_of_updateOp) (fun k q p u t h => ?_)
    have never {n : Nat} (h : ∀ d ∈ p.updateDies k, ((u.getDie d).register q.asid (p.bits 4 62 62 == 1) p.needReq p.needTag u.now).2 ≠ n) :
        (p.updateDies k).find? (fun d => ((u.getDie d).register q.asid (p.bits 4 62 62 == 1) p.needReq p.needTag u.now).2 = n) = none :=
      List.find?_eq_none.2 (fun d m => by simpa using h d m)
    rcases h with ⟨d, refused, rfl⟩ | ⟨active, d, full, rfl⟩ | ⟨all, rfl⟩
    · simp only [refused]; rfl
    · simp only [never active, full]; rfl
    · simp only [never (fun d m => (all d m).1), never (fun d m => (all d m).2)]; rfl
  case remove =>
    refine dispatched_always (fun s => (exec_removeNeed s).trans rfl) (fun _ => isUpdate_of_updateOp) (fun k q p u t h => ?_)
    rcases h with ⟨d, absent, rfl⟩ | ⟨all, rfl⟩
    · simp only [absent]; rfl
    · have none_ : (p.updateDies k).find? (fun d => ((u.getDie d).needSlot p.needReq p.needTag).isNone) = none :=
        List.find?_eq_none.2 (fun d m => by simp [← Option.not_isSome, all d m])
      simp only [none_]; rfl
  case state =>
    refine dispatched_always (fun s => (exec_setRequestState s).trans rfl) (fun _ => isUpdate_of_updateOp) (fun k q p u t h => ?_)
    rcases h with ⟨d, absent, rfl⟩ | ⟨all, rfl⟩
    · simp only [absent]; rfl
    · have none_ : (p.updateDies k).find?
          (fun d => !(u.getDie d).reqs.any (fun r => r.req == p.bits 5 47 32 && decide (r.state < 2))) = none :=
        List.find?_eq_none.2 (fun d m => by simpa using all d m)
      simp only [none_]; rfl
  case unbind =>
    refine dispatched_always (fun s => (exec_unbind s).trans rfl) (fun _ => isUpdate_of_updateOp) (fun k q p u t h => ?_)
    subst h; rfl
  case bind =>
    refine dispatched_always (fun s => (exec_bindKernel s).trans rfl) (fun _ => isUpdate_of_updateOp) (fun k q p u t h => ?_)
    rcases h with ⟨e, image, rfl⟩ | ⟨i, image, off, rfl⟩ | ⟨i, e, image, on, block, rfl⟩ | ⟨i, bs, image, on, block, rfl⟩
      | ⟨i, bs, image, on, block, ⟨unfit, rfl⟩ | ⟨fits, b, rfl, rfl⟩⟩
    · simp only [image]; rfl
    · simp only [image, off]; rfl
    · simp only [image, on, block]; rfl
    · simp only [image, on, block]; rfl
    · simp only [image, on, block, unfit]; rfl
    · simp only [image, on, block, fits]; rfl

end Sys2Proof.Machine
end

section
/-! Launches, waits, signals, fences and barriers of queues (R87, R89, R91, R378). -/

namespace Sys2Proof.Machine

/-! ### What a dispatch leaves alone -/

/-- Neither the packets of a queue nor the round of its command processor have a part in its translations. -/
theorem State.queuePA_taken (s : State) (k : QKey) (q : Queue) (p : Packet) (va : Nat) (a : Access) (sig : Bool) :
    (s.taken k q p).queuePA k (q.taken p s.tick) va a sig = s.queuePA k q va a sig := rfl

theorem exec_launch (s : State) : exec .launch s = execLaunch s := rfl
theorem exec_gangLaunch (s : State) : exec .gangLaunch s = execGangLaunch s := rfl
theorem exec_signalSet (s : State) : exec .signalSet s = execSignalSet s := rfl
theorem exec_fetchFence (s : State) : exec .fetchFence s = execFetchFence s := rfl
theorem exec_signalWait (s : State) : exec .signalWait s = execSignalWait s := rfl
theorem exec_waitTimeout (s : State) : exec .waitTimeout s = execWaitTimeout s := rfl
theorem exec_barrierPacket (s : State) : exec .barrierPacket s = execBarrierPacket s := rfl

/-! ### Launches (R89) -/

/-- A launch ends with the status of a check that fails, or for want of an embedding; else it joins the launches. -/
theorem dispatchLaunch_eq {gang : Bool} {k : QKey} {q : Queue} {p : Packet} {u t : State}
    (h : (∃ e, u.checkLaunch (q.homeDie k) q.asid q.ptbase (p.bits 1 55 0) gang = .error e ∧ t = u.endPacket k p.idx e.1 e.2 0 0)
      ∨ ∃ l i, u.checkLaunch (q.homeDie k) q.asid q.ptbase (p.bits 1 55 0) gang = .ok (l, i) ∧
        ((u.newLaunch k q p l i = none ∧ t = u.endPacket k p.idx 3 0 0 0)
          ∨ ∃ x, u.newLaunch k q p l i = some x ∧
            let v := State.makeCopy l { (u.setQueue k { (q.setPacket p.idx (fun p => { p with lid := some x.lid })) with
              launches := q.launches + 1 }) with launches := u.launches ++ [x] }
            t = if gang then v.reserve x else v.preempt x)) :
    dispatchLaunch gang k q p u = .next t := by
  rcases h with ⟨e, failed, rfl⟩ | ⟨l, i, passed, ⟨unplaced, rfl⟩ | ⟨x, placed, rfl⟩⟩
  · simp only [dispatchLaunch, failed]; rfl
  · simp only [dispatchLaunch, passed, unplaced]; rfl
  · simp only [dispatchLaunch, passed, placed]; rfl

/-! ### Waits and barriers (R87, R378) -/

theorem find?_congr_fun {α : Type} {l : List α} {f g : α → Bool} (h : ∀ x, f x = g x) : l.find? f = l.find? g := by rw [funext h]

/-- No packet is found where each test asks for a dispatched packet of a type, and none is under way. -/
theorem find?_none_dispatched {l : List Packet} {ty : Nat} {f : Packet → Bool} (none_ : ∀ x ∈ l, x.phase = .dispatched → x.ty ≠ ty) :
    l.find? (fun x => x.phase == .dispatched && x.ty == ty && f x) = none :=
  List.find?_eq_none.2 (fun x m => by have := none_ x m; simp_all)

section
variable {s : State} {q : Queue} {p : Packet} (at_ : aget s.queues s.place.q = some q)
include at_

theorem exec_signalWait_waiting
    (holds : q.packets.find? (fun x => x.phase == .dispatched && x.ty == 4 && s.waitHolds s.place.q q x) = some p) :
    exec .signalWait s = .next (s.endPacket s.place.q p.idx 0 0 0 0) := by
  rw [exec_signalWait, execSignalWait, withQueue_some at_]
  simp only [holds]; rfl

theorem exec_waitTimeout_out
    (out : q.packets.find? (fun x => x.phase == .dispatched && x.ty == 4 && x.bits 4 31 0 != 0
      && decide (x.since + x.bits 4 31 0 * 1024 ≤ s.tick) && !s.waitHolds s.place.q q x) = some p) :
    exec .waitTimeout s = .next (s.endPacket s.place.q p.idx 6 (s.packetSignal s.place.q q p % 2 ^ 32) 0 0) := by
  rw [exec_waitTimeout, execWaitTimeout, withQueue_some at_]
  simp only [out]; rfl

theorem exec_barrierPacket_passed
    (passed : q.packets.find? (fun x => x.phase == .dispatched && x.ty == 7
      && x.ph.any (fun h => phaseDone (s.getBar (x.barrier s.place.q q)).ph h)) = some p) :
    exec .barrierPacket s = .next (s.endPacket s.place.q p.idx 0 0 0 0) := by
  rw [exec_barrierPacket, execBarrierPacket, withQueue_some at_]
  dsimp only
  rw [find?_congr_fun (g := fun x => x.phase == .dispatched && x.ty == 7
    && x.ph.any (fun h => phaseDone (s.getBar (x.barrier s.place.q q)).ph h)) (fun x => by cases x.ph <;> rfl), passed]
  rfl

variable (ready : s.readyPacket s.place.q q = some p) (wins : s.wins s.place.q q = true)
  (none_ : ∀ x ∈ q.packets, x.phase = .dispatched → x.ty ≠ p.ty)
include ready wins none_

/-- A wait is dispatched, and ends at once where its condition holds. -/
theorem exec_signalWait_dispatch (ty : p.ty = 4) :
    exec .signalWait s = .next (let u := s.taken s.place.q q p
      if u.waitHolds s.place.q (q.taken p s.tick) p then u.endPacket s.place.q p.idx 0 0 0 0 else u) := by
  rw [exec_signalWait, execSignalWait, withQueue_some at_]
  dsimp only
  rw [find?_none_dispatched (ty ▸ none_)]
  exact dispatch_taken at_ ready (by simp [ty]) rfl wins

/-- A barrier packet arrives once the command processor's own signals have been applied (R378). -/
theorem exec_barrierPacket_dispatch (ty : p.ty = 7) (quiet : ∀ m ∈ s.sigs, m.src = q.source s.place.q → m.applied = true) :
    exec .barrierPacket s = .next (let u := s.taken s.place.q q p
      let q1 := q.taken p s.tick
      let b := u.getBar (p.barrier s.place.q q1)
      if b.ec = 0 then u.endPacket s.place.q p.idx 5 (2 ^ 16) 0 0
      else (u.setQueue s.place.q (q1.setPacket p.idx (fun p => { p with ph := some b.ph }))).setBar (p.barrier s.place.q q1) b.arrive) := by
  have applied : (!s.sigs.any (fun m => m.src == q.source s.place.q && !m.applied)) = true := by simpa using quiet
  rw [exec_barrierPacket, execBarrierPacket, withQueue_some at_]
  dsimp only
  rw [find?_none_dispatched (ty ▸ none_)]
  exact (dispatch_taken at_ ready (by simp [ty]) applied wins).trans (apply_ite Host.Outcome.next _ _ _).symm
end

/-- Settles O51: each kind of packet by what its dispatch does, and the packets under way by the condition that ends them. -/
theorem queuePacketsDispatch : Obligations.QueuePacketsDispatch := by
  refine ⟨fun gang => ?launch, ?set, ?fence, fun q i x => ?drop, fun s q p at_ none_ ready wins => ?turn, fun s q p at_ => ?done⟩
  case launch =>
    cases gang
    · exact dispatched_always (fun s => (exec_launch s).trans rfl) (fun p ty => by simpa using ty) (fun _ _ _ _ _ => dispatchLaunch_eq)
    · exact dispatched_always (fun s => (exec_gangLaunch s).trans rfl) (fun p ty => by simpa using ty) (fun _ _ _ _ _ => dispatchLaunch_eq)
  case set =>
    refine dispatched_of (fun s => (exec_signalSet s).trans rfl) (fun p ty => by simpa using ty) (fun s k q p t h => ?_) (fun k q p u t h => ?_)
    · rw [State.queuePA_taken] at h
      rcases h with ⟨gone, -⟩ | ⟨pa, at_, room, -⟩
      · simp only [gone]
      · simp only [at_]; exact room
    · rcases h with ⟨gone, rfl⟩ | ⟨pa, at_, -, rfl⟩
      · simp only [gone]; rfl
      · simp only [at_]; rfl
  case fence =>
    refine dispatched_always (fun s => (exec_fetchFence s).trans rfl) (fun p ty => by simpa using ty) (fun k q p u t h => ?_)
    subst h; rfl
  case drop => simp [Queue.dropBehind]
  case turn =>
    refine ⟨fun ty holds => ?_, fun ty fails => ?_, fun ty quiet off => ?_, fun ty quiet on => ?_⟩
    · exact (exec_signalWait_dispatch at_ ready wins none_ ty).trans (congrArg Host.Outcome.next (if_pos holds))
    · exact (exec_signalWait_dispatch at_ ready wins none_ ty).trans (congrArg Host.Outcome.next (if_neg (Bool.eq_false_iff.1 fails)))
    · exact (exec_barrierPacket_dispatch at_ ready wins none_ ty quiet).trans (congrArg Host.Outcome.next (if_pos off))
    · exact (exec_barrierPacket_dispatch at_ ready wins none_ ty quiet).trans (congrArg Host.Outcome.next (if_neg on))
  case done =>
    exact ⟨exec_signalWait_waiting at_, exec_waitTimeout_out at_, exec_barrierPacket_passed at_⟩

end Sys2Proof.Machine
end

section
/-! The start, the resumption and the end of a task (R37, R49, R104, R106 to R108, R406 to R412): what its core and memory hold, and what the
launch's packet says. -/

namespace Sys2Proof.Machine

/-- A core, or a die, that was put back reads so under its own key. -/
theorem State.getCore_setCore_of {s : State} {c : Core} {k : CoreKey} (h : c.key = k) : (s.setCore c).getCore k = c := by
  rw [State.getCore_setCore, if_pos h]
theorem State.getCore_setCore_clk (s : State) (c : Core) (n : Nat) {k : CoreKey} (h : c.key = k) :
    (s.setCore { c with clk := n }).getCore k = { c with clk := n } := State.getCore_setCore_of h
theorem State.getDie_setDie_of {s : State} {d : Die} {k : DieKey} (h : d.key = k) : (s.setDie d).getDie k = d := by
  rw [State.getDie_setDie, if_pos h]

/-! ### Work that starts on a core (R37, R49) -/

section
variable (s : State) (k : CoreKey) (w : Source)

theorem State.getCore_loadCode (i : Image) (handler : Option (Word × List Byte)) (j : CoreKey) :
    (loadCode k i handler s).getCore j = s.getCore j := by
  unfold loadCode
  split
  · split <;> rfl
  · rfl

theorem loadCode_wf {s : State} (h : s.Sound) (i : Image) (handler : Option (Word × List Byte)) : (loadCode k i handler s).Sound := by
  unfold loadCode
  split
  · split
    · exact State.write_wf _ _ (State.write_wf _ _ h)
    · exact State.write_wf _ _ h
  · exact State.write_wf _ _ h

@[simp] theorem length_taskBlock : (taskBlock w k).length = 64 := by simp [taskBlock]

/-- A core at the first word of its work: every register reads zero but r31 and sp (R49, R104). -/
theorem Source.rd_core (c : Core) (tvec : Word) (serial clock : Nat) (r : GReg) :
    (w.core c tvec serial clock).rd r
      = if r = 31 then BitVec.ofNat 64 w.unit else if r = 32 then BitVec.ofNat 64 (w.unit + w.image.unitsz) else 0 := by
  have g : (w.core c tvec serial clock).g
      = ((Vector.replicate 33 0).set 31 (BitVec.ofNat 64 w.unit)).set 32 (BitVec.ofNat 64 (w.unit + w.image.unitsz)) := rfl
  have r31 : r = 31 ↔ 31 = r.val := by rw [Fin.ext_iff, eq_comm]; rfl
  have r32 : r = 32 ↔ 32 = r.val := by rw [Fin.ext_iff, eq_comm]; rfl
  simp only [Core.rd, g, Vector.get_eq_getElem, Vector.getElem_set, Vector.getElem_replicate, r31, r32]
  grind

/-- Memory and the marks of core k's unit scratchpad, loaded for its work. -/
def State.loaded : State :=
  (((loadCode k w.image (s.getDie k.dieKey).handler s).write (unitPA k) (taskBlock w k)).write (unitPA k + 64) w.image.consts).setCleanLines k []

theorem State.getCore_loaded (j : CoreKey) : (s.loaded k w).getCore j = s.getCore j := by
  refine (State.getCore_congr ?_ ?_ j).trans (s.getCore_loadCode k w.image (s.getDie k.dieKey).handler j)
  · simp only [State.loaded, State.setCleanLines, State.write, State.perform_core]
  · simp only [State.loaded, State.setCleanLines, State.write, State.perform_parked]

@[simp] theorem Source.core_key (c : Core) (tvec : Word) (serial clock : Nat) : (w.core c tvec serial clock).key = c.key := rfl

/-- Core k holds its work at the first word. -/
theorem State.getCore_startWork {s : State} (h : s.Keyed) :
    ∃ tvec serial clock step, (s.startWork k w).getCore k = { w.core (s.getCore k) tvec serial clock with clk := step } := by
  rw [← s.getCore_loaded k w k]
  have key : ((s.loaded k w).getCore k).key = k := by rw [State.getCore_loaded]; exact State.getCore_key h k
  exact ⟨_, _, _, _, State.getCore_setCore_clk (s.loaded k w) (w.core ((s.loaded k w).getCore k) _ _ _) _ key⟩

/-- Memory holds the code, and behind it in time the task block and the constants. -/
theorem State.startWork_mem : (s.startWork k w).mem
    = (((loadCode k w.image (s.getDie k.dieKey).handler s).write (unitPA k) (taskBlock w k)).write (unitPA k + 64) w.image.consts).mem :=
  State.setCore_mem _ _

theorem State.byte_startWork_block {s : State} (h : s.Sound) {i : Nat} (hi : i < 64) :
    (s.startWork k w).byte (unitPA k + i) = (taskBlock w k).getD i 0 := by
  have inside : i < (taskBlock w k).length := by simpa using hi
  rw [State.byte_congr (s.startWork_mem k w), State.byte_write_outside _ _ _ _ (.inl (by omega)),
    State.byte_write (loadCode_wf k h _ _) _ _ _ inside, List.getD_eq_getElem _ _ inside]
theorem State.byte_startWork_consts {s : State} (h : s.Sound) {i : Nat} (hi : i < w.image.consts.length) :
    (s.startWork k w).byte (unitPA k + 64 + i) = w.image.consts.getD i 0 := by
  rw [State.byte_congr (s.startWork_mem k w), State.byte_write (State.write_wf _ _ (loadCode_wf k h _ _)) _ _ _ hi, List.getD_eq_getElem _ _ hi]

end

/-! ### The choice of a free core (R107, R108) -/

theorem mem_of_chooseCandidate {last : Nat} {l : List (Nat × Candidate)} {c : Candidate} (h : chooseCandidate last l = some c) :
    ∃ n, (n, c) ∈ l := by
  obtain ⟨⟨n, c'⟩, found, rfl⟩ := Option.map_eq_some_iff.1 h
  exact ⟨n, List.mem_of_mem_filter (List.mem_of_find?_eq_some found)⟩
/-- A saved task is a candidate of its own core alone. -/
theorem State.key_of_saved_candidate {s : State} {k : CoreKey} {n lid : Nat} {m : Saved} (h : (n, .saved lid m) ∈ s.candidatesOf k) :
    m.core.key = k := by
  rcases List.mem_append.1 h with h | h
  · obtain ⟨x, here, e⟩ := List.mem_map.1 h
    obtain ⟨-, -, rfl⟩ := by simpa using e
    simpa using (List.mem_filter.1 here).2
  · obtain ⟨y, -, e⟩ := List.mem_filterMap.1 h
    split at e
    · obtain ⟨x, -, e⟩ := Option.bind_eq_some_iff.1 e
      obtain ⟨g, -, e⟩ := Option.map_eq_some_iff.1 e
      cases e
    · cases e

/-! ### Saved tasks resume (R408, R409) -/

@[simp] theorem keepLive_key (c : Core) (groups : BitVec 8) (live : BitVec 32) : (keepLive c groups live).key = c.key := by simp only [keepLive]
@[simp] theorem keepLive_pc (c : Core) (groups : BitVec 8) (live : BitVec 32) : (keepLive c groups live).pc = c.pc := by simp only [keepLive]

/-- Registers that the SAFE did not name read zero (R203, R408). -/
theorem rd_keepLive (c : Core) (groups : BitVec 8) (live : BitVec 32) (r : GReg) :
    (keepLive c groups live).rd r = if live.getLsbD (if r = 32 then 0 else r.val) = true then c.rd r else 0 := by
  have r32 : r = 32 ↔ r.val = 32 := Fin.ext_iff
  simp only [Core.rd, keepLive, Vector.get_ofFn, r32]
  by_cases zero : r.val = 0
  · simp [zero]
  · simp [zero]
theorem elem_keepLive (c : Core) (groups : BitVec 8) (live : BitVec 32) (v : VReg) (e : Nat) :
    (keepLive c groups live).elem v e = if groups.getLsbD (v.val / 4) = true then c.elem v e else 0 := by
  simp only [Core.elem, keepLive, Vector.get_ofFn]
  split <;> rfl

/-- A saved task goes on at its SAFE, with what that named, and translates afresh. -/
theorem State.getCore_resume (s : State) {m : Saved} {w : Task} (task : m.core.task = some w) (i : Image) (asid : BitVec 16) (ptbase : Word) :
    ∃ c, (s.resume m i asid ptbase).getCore m.core.key = c ∧ c.phase = .running ∧ c.pc = m.core.pc ∧ c.held = []
      ∧ c.g = (keepLive m.core m.groups m.live).g ∧ c.planes = (keepLive m.core m.groups m.live).planes := by
  unfold State.resume
  extract_lets k now h loaded c ctl
  split
  · simp_all
  · extract_lets restored marked d
    have key : d.key = m.core.key := by simp only [d, c, keepLive]
    have pc : d.pc = m.core.pc := by simp only [d, c, keepLive]
    refine ⟨_, State.getCore_setCore_clk marked d _ key, rfl, ?_, rfl, rfl, rfl⟩
    dsimp only
    exact pc

/-! ### A free core takes its candidate (R108) -/

theorem exec_placementChoice (s : State) : exec .placementChoice s = execPlacementChoice s := rfl

section
variable {s : State} {l : Launch} {c : Candidate} (free : s.coreFree s.place.core = true)
  (unreserved : ((s.getDie s.place.core.dieKey).slot s.place.core.core).gangs = []) (unwanted : s.streamWants s.place.core = false)
  (launch : s.launch c.lid = some l)
  (chosen : chooseCandidate ((s.getDie s.place.core.dieKey).slot s.place.core.core).last (s.candidatesOf s.place.core) = some c)
include free unreserved unwanted launch chosen

theorem exec_placementChoice_group {j : Nat} (group : c = .group l.lid j) : exec .placementChoice s
    = .next (s.placeCounted l s.place.core j (((s.getDie s.place.core.dieKey).slot s.place.core.core).level l).1) := by
  subst group
  rw [exec_placementChoice, execPlacementChoice]
  simp only [free, unreserved, unwanted, chosen, launch]
  rfl

/-- The next group starts at the first word of its work. -/
theorem exec_placementChoice_first (keyed : s.Keyed) (sound : s.Sound) {j : Nat} (group : c = .group l.lid j) :
    let k := s.place.core
    let level := (((s.getDie k.dieKey).slot k.core).level l).1
    let src := s.source l j level
    ∃ t w, exec .placementChoice s = .next t ∧ (t.getCore k).phase = .running ∧ (t.getCore k).pc = BitVec.ofNat 17 l.image.entry
      ∧ (t.getCore k).task = some w ∧ w.tid = BitVec.ofNat 32 j ∧ w.lid = l.lid ∧ w.level = level ∧ w.executed = false
      ∧ (∀ r : GReg, (t.getCore k).rd r = if r = 31 then BitVec.ofNat 64 src.unit
          else if r = 32 then BitVec.ofNat 64 (src.unit + l.image.unitsz) else 0)
      ∧ (∀ i < 64, t.byte (unitPA k + i) = (taskBlock src k).getD i 0)
      ∧ ∀ i < l.image.consts.length, t.byte (unitPA k + 64 + i) = l.image.consts.getD i 0 := by
  intro k level src
  have run := exec_placementChoice_group free unreserved unwanted launch chosen group
  let u := (s.setDie ((s.getDie k.dieKey).placed k.core l (s.waitingOn k) true)).setLaunch (l.take k.die j)
  have uk : u.Keyed := (keyed.setDie _).setLaunch _
  have us : u.Sound := sound
  obtain ⟨tvec, serial, clock, step, core⟩ := State.getCore_startWork k src uk
  refine ⟨u.startWork k src, src.task (u.getCore k).key serial, run, ?_⟩
  rw [core]
  exact ⟨rfl, rfl, rfl, rfl, rfl, rfl, rfl, src.rd_core _ tvec serial clock, fun i hi => State.byte_startWork_block k src us hi,
    fun i hi => State.byte_startWork_consts k src us hi⟩

theorem exec_placementChoice_saved {m : Saved} (saved : c = .saved l.lid m) : ∃ d asid ptbase, exec .placementChoice s
    = .next ((s.setDie d).resume m l.image asid ptbase) := by
  subst saved
  rw [exec_placementChoice, execPlacementChoice]
  simp only [free, unreserved, unwanted, chosen, launch]
  exact ⟨_, _, _, rfl⟩
end

/-! ### Tasks leave their cores (R406, R407, R411) -/

theorem exec_contextSaveDone (s : State) : exec .contextSaveDone s = execContextSaveDone s := rfl
theorem exec_taskRetire (s : State) : exec .taskRetire s = execTaskRetire s := rfl

theorem State.core_setCore_of {s : State} {c : Core} (h : s.core.key = c.key) : (s.setCore c).core = c := by
  rw [State.setCore, if_pos h]

section
variable {s : State} {k : Task} (task : s.core.task = some k) (quiet : s.core.quiet = true) (signals : s.signalsDone s.core.key = true)
include task quiet signals

theorem exec_contextSaveDone_stopped {groups : BitVec 8} {live : BitVec 32} {at_ : BitVec 17} (stopped : s.core.phase = .stopped groups live at_)
    (untrapped : s.core.trap = none) : exec .contextSaveDone s
    = .next ((s.setDie { s.ownDie with saved := s.ownDie.saved ++ [s.image s.core k groups live at_] }).setCore s.core.vacate) := by
  rw [exec_contextSaveDone, execContextSaveDone]
  simp only [stopped, task, quiet, untrapped, signals]
  rfl
/-- A stopped task leaves its image on its die and its core free. -/
theorem exec_contextSaveDone_leaves (keyed : s.Keyed) {groups : BitVec 8} {live : BitVec 32} {at_ : BitVec 17}
    (stopped : s.core.phase = .stopped groups live at_) (untrapped : s.core.trap = none) :
    ∃ t, exec .contextSaveDone s = .next t ∧ t.core.phase = .free ∧ t.core.task = none ∧ s.sameMemory t
      ∧ t.ownDie.saved = s.ownDie.saved ++ [s.image s.core k groups live at_] := by
  let d := { s.ownDie with saved := s.ownDie.saved ++ [s.image s.core k groups live at_] }
  have freed : ((s.setDie d).setCore s.core.vacate).core = s.core.vacate := State.core_setCore_of rfl
  have die : ((s.setDie d).setCore s.core.vacate).ownDie = d := by
    have key : d.key = s.core.key.dieKey := State.getDie_key keyed _
    rw [State.ownDie, freed]
    exact (congrArg (Option.getD · _) (congrArg (aget · _) (State.setCore_dies _ _))).trans (State.getDie_setDie_of key)
  exact ⟨_, exec_contextSaveDone_stopped task quiet signals stopped untrapped, by rw [freed]; rfl, by rw [freed]; rfl,
    fun a => State.byte_congr (State.setCore_mem _ _) a, by rw [die]⟩
end

/-- The event of a task that a fault has ended is posted (R415). -/
def State.endPosted (s : State) (c : Core) (k : Task) (e : EndKind) : State :=
  if e = .fault then s.post (if k.stream then 2 else 1) c.key (faultWords c) else s
/-- The end of a group counts in its launch (R412). -/
def State.endCounted (s : State) (c : Core) (k : Task) (e : EndKind) : State :=
  match s.launch k.lid with
  | some l => if k.stream then s else s.setLaunch (l.ended c.key.die k e)
  | none => s
/-- The life of a stream closes on its die (R375). -/
def State.lifeClosed (s : State) (k : Task) : State :=
  if k.stream then
    s.setDie { s.ownDie with lives := s.ownDie.lives + 1, streamLogs := closeStream k.formNo (s.ownDie.lives + 1) s.ownDie.streamLogs }
  else s

/-- Posting and counting the end of a task touches neither its core nor memory. -/
theorem State.endPosted_frame (s : State) (c : Core) (k : Task) (e : EndKind) : (s.endPosted c k e).core = s.core ∧ (s.endPosted c k e).mem = s.mem := by
  unfold State.endPosted
  split
  · exact ⟨State.post_core .., State.post_mem ..⟩
  · exact ⟨rfl, rfl⟩
theorem State.endCounted_frame (s : State) (c : Core) (k : Task) (e : EndKind) :
    (s.endCounted c k e).core = s.core ∧ (s.endCounted c k e).mem = s.mem := by
  unfold State.endCounted
  split
  · split <;> exact ⟨rfl, rfl⟩
  · exact ⟨rfl, rfl⟩
theorem State.lifeClosed_frame (s : State) (k : Task) : (s.lifeClosed k).core = s.core ∧ (s.lifeClosed k).mem = s.mem := by
  unfold State.lifeClosed
  split <;> exact ⟨rfl, rfl⟩

section
variable {s : State} {k : Task} (task : s.core.task = some k) (quiet : s.core.quiet = true) (signals : s.signalsDone s.core.key = true)
include task quiet signals

/-- An ended task frees its core, once its end has been posted and counted. -/
theorem exec_taskRetire_ended {e : EndKind} (ended : s.core.phase = .ending e) (settled : s.logSettled s.core.key k = true) :
    let u := ((s.dropPin.endPosted s.core k e).endCounted s.core k e).lifeClosed k
    exec .taskRetire s = .next (u.setCore u.core.vacate) := by
  rw [exec_taskRetire, execTaskRetire]
  simp only [ended, task, quiet, signals, settled]
  rfl
theorem exec_taskRetire_leaves {e : EndKind} (ended : s.core.phase = .ending e) (settled : s.logSettled s.core.key k = true) :
    ∃ t, exec .taskRetire s = .next t ∧ t.core.phase = .free ∧ t.core.task = none ∧ t.core.held = s.core.held ∧ s.sameMemory t := by
  let u := ((s.dropPin.endPosted s.core k e).endCounted s.core k e).lifeClosed k
  obtain ⟨t, unpinned⟩ := s.dropPin_core
  have core : u.core = { s.core with task := t } := by
    rw [(State.lifeClosed_frame _ k).1, (State.endCounted_frame _ s.core k e).1, (State.endPosted_frame _ s.core k e).1, unpinned]
  have mem : u.mem = s.mem := by
    rw [(State.lifeClosed_frame _ k).2, (State.endCounted_frame _ s.core k e).2, (State.endPosted_frame _ s.core k e).2, State.dropPin_mem]
  have freed : (u.setCore u.core.vacate).core = u.core.vacate := State.core_setCore_of rfl
  exact ⟨_, exec_taskRetire_ended task quiet signals ended settled, by rw [freed]; rfl, by rw [freed]; rfl, by rw [freed, core]; rfl,
    State.byte_congr ((State.setCore_mem _ _).trans mem)⟩
end

/-! ### The last report of a launch (R412) -/

theorem exec_dieLaunchReport (s : State) : exec .dieLaunchReport s = execDieLaunchReport s := rfl

/-- A count of a launch over its shares (R412). -/
def Launch.total (l : Launch) (f : DieShare → Nat) : Nat := l.shares.foldl (fun n y => n + f y) 0

/-- The share of a die that has reported. -/
def DieShare.told (x : DieShare) : DieShare := { x with reported := true }

@[simp] theorem State.endPacket_launches (s : State) (k : QKey) (i a b c d : Nat) : (s.endPacket k i a b c d).launches = s.launches := by
  unfold State.endPacket; split <;> rfl
@[simp] theorem State.endPacket_mem (s : State) (k : QKey) (i a b c d : Nat) : (s.endPacket k i a b c d).mem = s.mem := by
  unfold State.endPacket; split <;> rfl
/-- The packet that is ended stands in its queue with its status. -/
theorem State.endPacket_ended {s : State} {k : QKey} {q : Queue} {p : Packet} (at_ : aget s.queues k = some q) (m : p ∈ q.packets) (a b c d : Nat) :
    ∃ q' p', aget (s.endPacket k p.idx a b c d).queues k = some q' ∧ p' ∈ q'.packets ∧ p'.idx = p.idx ∧ p'.phase = .ended a b c d := by
  simp only [State.endPacket, at_]
  exact ⟨_, _, aget_aput_self _ _ _, List.mem_map_of_mem m, by simp, by simp⟩

section
variable {s : State} {l : Launch} {x : DieShare}

theorem Launch.all_reported_told (rest : ∀ y ∈ l.shares, y.die ≠ x.die → y.reported = true) : (l.setShare x.told).shares.all (·.reported) = true := by
  simp only [Launch.setShare, List.all_map, List.all_eq_true, Function.comp]
  intro y m
  split
  · rfl
  · next other => exact rest y m other
/-- The counts of a launch are those of its shares, reported or not. -/
theorem Launch.total_told (once : ∀ y ∈ l.shares, y.die = x.die → y = x) (f : DieShare → Nat) (h : f x.told = f x) :
    (l.setShare x.told).total f = (l.shares.map f).sum := by
  have same : (l.setShare x.told).shares.map f = l.shares.map f := by
    rw [Launch.setShare, List.map_map]
    refine List.map_congr_left (fun y m => ?_)
    rw [Function.comp]
    split
    · next here => rw [once y m here, h]
    · rfl
  rw [← same, List.sum_eq_foldl, List.foldl_map, Launch.total]

variable (launch : s.launch s.place.n = some l) (share : l.share s.place.core.die = some x)
  (unreported : x.reported = false) (spent : s.shareOver l x = true)
include launch share unreported spent

/-- The last report ends the packet with the status and the counts of the launch, which is then gone. -/
theorem exec_dieLaunchReport_last (last : (l.setShare x.told).shares.all (·.reported) = true) :
    exec .dieLaunchReport s = .next { s.endPacket l.q l.pidx l.status.1 l.status.2 ((l.setShare x.told).total (·.ran))
      ((l.setShare x.told).total (·.stopped)) with launches := s.launches.filter (fun y => y.lid ≠ l.lid) } := by
  rw [exec_dieLaunchReport, execDieLaunchReport]
  simp only [launch, share, unreported, spent]
  refine (if_pos last).trans ?_
  rw [State.endPacket_launches]
  rfl
theorem exec_dieLaunchReport_more (more : (l.setShare x.told).shares.all (·.reported) = false) :
    exec .dieLaunchReport s = .next (s.setLaunch (l.setShare x.told)) := by
  rw [exec_dieLaunchReport, execDieLaunchReport]
  simp only [launch, share, unreported, spent]
  exact if_neg (Bool.eq_false_iff.1 more)
end

/-- Settles O53: a placed group is work that starts, a saved task resumes; tasks leave and launches end by the laws of their events. -/
theorem tasksArePlacedAndRetire : Obligations.TasksArePlacedAndRetire := by
  refine ⟨?place, ?leave, ?report⟩
  case place =>
    intro s l c keyed sound k sl free unreserved unwanted chosen launch
    refine ⟨fun j group => ?_, fun m w saved task => ?_⟩
    · exact exec_placementChoice_first free unreserved unwanted launch chosen keyed sound group
    · have here : m.core.key = k := State.key_of_saved_candidate (saved ▸ mem_of_chooseCandidate chosen).choose_spec
      obtain ⟨d, asid, ptbase, run⟩ := exec_placementChoice_saved free unreserved unwanted launch chosen saved
      obtain ⟨x, at_, phase, pc, held, g, planes⟩ := (s.setDie d).getCore_resume task l.image asid ptbase
      rw [here] at at_
      refine ⟨_, run, ?_⟩
      rw [at_]
      refine ⟨phase, pc, held, fun r => ?_, fun v e => ?_⟩
      · rw [Core.rd, g]; exact rd_keepLive m.core m.groups m.live r
      · rw [Core.elem, planes]; exact elem_keepLive m.core m.groups m.live v e
  case leave =>
    intro s k groups live at_ task keyed quiet signals
    refine ⟨fun stopped untrapped => ?_, fun e ended settled => ?_⟩
    · exact exec_contextSaveDone_leaves task quiet signals keyed stopped untrapped
    · exact exec_taskRetire_leaves task quiet signals ended settled
  case report =>
    intro s l x launch share unreported spent
    by_cases last : (l.setShare x.told).shares.all (·.reported) = true
    · refine ⟨_, exec_dieLaunchReport_last launch share unreported spent last, fun a => ?_, fun _ => ⟨rfl, fun once q p at_ m here => ?_⟩⟩
      · exact State.byte_congr (State.endPacket_mem ..) a
      · rw [Launch.total_told once (·.ran) rfl, Launch.total_told once (·.stopped) rfl, ← here]
        exact State.endPacket_ended at_ m _ _ _ _
    · exact ⟨_, exec_dieLaunchReport_more launch share unreported spent (Bool.eq_false_iff.2 last), fun a => rfl,
        fun rest => absurd (Launch.all_reported_told rest) last⟩

end Sys2Proof.Machine
end

section
/-! Batches and streams (R51, R115, R129 to R135): lists in order and cut into runs, needs that are missed or met, and what the three events leave
of shards, needs, cores and memory. -/

namespace Sys2Proof.Machine

/-! ### Lists in ascending order, and runs (R51, R131) -/

/-- Sorting by a key is insertion sort. -/
theorem sortBy_eq_insertionSort {α : Type} (key : α → Nat) (l : List α) : sortBy key l = l.insertionSort (fun a b => key a ≤ key b) := by
  induction l with
  | nil => rfl
  | cons x l ih =>
    rw [List.insertionSort_cons, List.orderedInsert_eq_take_drop, ← ih]
    simp only [Nat.not_le]
    rfl
theorem sortBy_perm {α : Type} (key : α → Nat) (l : List α) : (sortBy key l).Perm l := by
  rw [sortBy_eq_insertionSort]
  exact List.perm_insertionSort _ l
theorem sortBy_ascending {α : Type} (key : α → Nat) (l : List α) : ((sortBy key l).map key).Pairwise (· ≤ ·) := by
  rw [sortBy_eq_insertionSort, List.map_insertionSort _ (· ≤ ·) key l (fun _ _ _ _ => Iff.rfl)]
  exact List.pairwise_insertionSort _ _

theorem chunks_succ {α : Type} (n fuel : Nat) {l : List α} (some_ : l ≠ []) : chunks n (fuel + 1) l = l.take n :: chunks n fuel (l.drop n) := by
  simp [chunks, some_]
theorem chunks_nil {α : Type} (n fuel : Nat) : chunks n fuel ([] : List α) = [] := by cases fuel <;> rfl

/-- The runs of a list, in order, are the list. -/
theorem chunks_flatten {α : Type} {n fuel : Nat} {l : List α} (pos : 1 ≤ n) (enough : l.length ≤ fuel) : (chunks n fuel l).flatten = l := by
  induction fuel generalizing l with
  | zero => simp_all [chunks]
  | succ fuel ih =>
    by_cases some_ : l = []
    · simp [some_, chunks_nil]
    · have rest : (l.drop n).length ≤ fuel := by rw [List.length_drop]; omega
      rw [chunks_succ n fuel some_, List.flatten_cons, ih rest, List.take_append_drop]
/-- No run is empty or longer than n. -/
theorem chunks_bounded {α : Type} {n fuel : Nat} {l r : List α} (pos : 1 ≤ n) (m : r ∈ chunks n fuel l) : r ≠ [] ∧ r.length ≤ n := by
  induction fuel generalizing l with
  | zero => cases m
  | succ fuel ih =>
    by_cases some_ : l = []
    · simp [some_, chunks_nil] at m
    · rw [chunks_succ n fuel some_] at m
      rcases List.mem_cons.1 m with rfl | m
      · have : n ≠ 0 := by omega
        simp [List.take_eq_nil_iff, some_, this]
      · exact ih m
/-- The last run alone may be shorter. -/
theorem chunks_full {α : Type} {n fuel : Nat} {l r : List α} (m : r ∈ (chunks n fuel l).dropLast) : r.length = n := by
  induction fuel generalizing l with
  | zero => cases m
  | succ fuel ih =>
    by_cases some_ : l = []
    · simp [some_, chunks_nil] at m
    · rw [chunks_succ n fuel some_] at m
      by_cases more : chunks n fuel (l.drop n) = []
      · simp [more] at m
      · rw [List.dropLast_cons_of_ne_nil more] at m
        rcases List.mem_cons.1 m with rfl | m
        · have long : l.drop n ≠ [] := fun e => more (by rw [e, chunks_nil])
          have : n < l.length := by simpa using long
          rw [List.length_take]; omega
        · exact ih m

/-! ### The keys of canonical lists -/

theorem lt_of_mem_swfFrom {α : Type} [DecidableEq α] {z : α} {l : List (Nat × α)} {a : Nat} (w : swfFrom z a l = true) {e : Nat × α} (m : e ∈ l) :
    a ≤ e.1 := by
  induction l generalizing a with
  | nil => cases m
  | cons x l ih =>
    simp only [swfFrom, Bool.and_eq_true, decide_eq_true_eq] at w
    rcases List.mem_cons.1 m with rfl | m
    · exact w.1.1
    · have := ih w.2 m; omega
theorem sget_of_mem {α : Type} [DecidableEq α] {z : α} {l : List (Nat × α)} {a : Nat} (w : swfFrom z a l = true) {e : Nat × α} (m : e ∈ l) :
    sget z l e.1 = e.2 := by
  induction l generalizing a with
  | nil => cases m
  | cons x l ih =>
    simp only [swfFrom, Bool.and_eq_true, decide_eq_true_eq] at w
    rcases List.mem_cons.1 m with rfl | m
    · exact if_pos rfl
    · have above := lt_of_mem_swfFrom w.2 m
      rw [sget, if_neg (by omega), ih w.2 m]
theorem swfFrom_keys_nodup {α : Type} [DecidableEq α] {z : α} {l : List (Nat × α)} {a : Nat} (w : swfFrom z a l = true) : (l.map (·.1)).Nodup := by
  induction l generalizing a with
  | nil => exact List.nodup_nil
  | cons x l ih =>
    simp only [swfFrom, Bool.and_eq_true, decide_eq_true_eq] at w
    refine List.nodup_cons.2 ⟨fun m => ?_, ih w.2⟩
    obtain ⟨e, me, same⟩ := List.mem_map.1 m
    have above := lt_of_mem_swfFrom w.2 me
    have same : e.1 = x.1 := same
    omega

/-! ### The needs of a tag (R51, R52) -/

/-- The need that an entry of the need table holds for a tag: of an active request, and not registered in this core cycle. -/
def Die.needFor (d : Die) (tag : Half) (k now : Nat) (e : Nat × Word) : Option (Nat × ReqCopy) :=
  if needValid e.2 && needTag e.2 == tag.toNat && ((aget d.regs e.1).isNone || decide (cycleAt k (d.regOf e.1).2 < cycleAt k now)) then
    (d.reqs.find? (fun r => r.req = needReq e.2 ∧ r.state = 0)).map (fun r => (e.1, r)) else none

theorem Die.matching_eq (d : Die) (tag : Half) (k now : Nat) :
    d.matching tag k now = sortBy (fun x => x.2.req) (d.need.filterMap (d.needFor tag k now)) := rfl

theorem Die.needFor_eq_some {d : Die} {tag : Half} {k now : Nat} {e : Nat × Word} {x : Nat × ReqCopy} : d.needFor tag k now e = some x
    ↔ e.1 = x.1 ∧ needValid e.2 = true ∧ needTag e.2 = tag.toNat ∧ d.reqs.find? (fun r => r.req = needReq e.2 ∧ r.state = 0) = some x.2
      ∧ (aget d.regs e.1 = none ∨ cycleAt k (d.regOf e.1).2 < cycleAt k now) := by
  obtain ⟨i, r⟩ := x
  unfold Die.needFor
  split
  · next c =>
    simp only [Bool.and_eq_true, Bool.or_eq_true, beq_iff_eq, Option.isNone_iff_eq_none, decide_eq_true_eq] at c
    obtain ⟨⟨valid, tag⟩, old⟩ := c
    simp only [Option.map_eq_some_iff, Prod.mk.injEq]
    constructor
    · rintro ⟨r, found, rfl, rfl⟩; exact ⟨rfl, valid, tag, found, old⟩
    · rintro ⟨rfl, -, -, found, -⟩; exact ⟨r, found, rfl, rfl⟩
  · next c =>
    simp only [Bool.and_eq_true, Bool.or_eq_true, beq_iff_eq, Option.isNone_iff_eq_none, decide_eq_true_eq] at c
    constructor
    · intro no; cases no
    · rintro ⟨-, valid, tag, -, old⟩; exact absurd ⟨⟨valid, tag⟩, old⟩ c

theorem Die.mem_matching {d : Die} {tag : Half} {k now i : Nat} {r : ReqCopy} : (i, r) ∈ d.matching tag k now
    ↔ ∃ w, (i, w) ∈ d.need ∧ needValid w = true ∧ needTag w = tag.toNat ∧ d.reqs.find? (fun r => r.req = needReq w ∧ r.state = 0) = some r
      ∧ (aget d.regs i = none ∨ cycleAt k (d.regOf i).2 < cycleAt k now) := by
  rw [Die.matching_eq, (sortBy_perm _ _).mem_iff, List.mem_filterMap]
  simp only [Die.needFor_eq_some]
  constructor
  · rintro ⟨⟨_, w⟩, m, rfl, h⟩; exact ⟨w, m, h⟩
  · rintro ⟨w, m, h⟩; exact ⟨(i, w), m, rfl, h⟩
/-- Each slot gives one need. -/
theorem Die.matching_nodup {d : Die} (w : swf 0 d.need = true) (tag : Half) (k now : Nat) : ((d.matching tag k now).map (·.1)).Nodup := by
  rw [Die.matching_eq, ((sortBy_perm _ _).map _).nodup_iff]
  have sub : ∀ l : List (Nat × Word), ((l.filterMap (d.needFor tag k now)).map (·.1)).Sublist (l.map (·.1)) := by
    intro l
    induction l with
    | nil => exact List.Sublist.slnil
    | cons e l ih =>
      cases h : d.needFor tag k now e with
      | none => rw [List.filterMap_cons_none h]; exact ih.cons _
      | some x =>
        rw [List.filterMap_cons_some h, List.map_cons, List.map_cons, (Die.needFor_eq_some.1 h).1]
        exact ih.cons_cons _
  exact (sub d.need).nodup (swfFrom_keys_nodup w)

/-! ### Needs that are missed (R135) -/

/-- A need-table entry once it has been missed: MISSED is set, and MISSES counts one more, at most to 31. -/
def missedWord (w : Word) : Word := putBits (w ||| BitVec.ofNat 64 (2 ^ 61)) 60 56 (min (bits w.toNat 60 56 + 1) 31)

/-- A die one of whose needs is missed, if it still stands (entry 98). -/
def Die.miss (d : Die) (i : Nat × Nat) : Die :=
  if d.stillNeeds i then { d.countMiss with need := sput 0 d.need i.1 (missedWord (sget 0 d.need i.1)) } else d

theorem needValid_putBits (w : Word) (v : Nat) : needValid (putBits w 60 56 v) = needValid w := by
  have := w.isLt
  simp only [needValid, putBits, bits, BitVec.getLsbD, Nat.testBit_eq_decide_div_mod_eq, BitVec.toNat_ofNat, decide_eq_decide]
  omega
theorem needValid_missedWord (w : Word) : needValid (missedWord w) = needValid w := by
  rw [missedWord, needValid_putBits, needValid, BitVec.getLsbD_or]
  simp [needValid]
theorem bits_putBits_low (w : Word) (v : Nat) : bits (putBits w 31 0 v).toNat 31 0 = v % 2 ^ 32 := by
  have := w.isLt
  simp only [putBits, bits, BitVec.toNat_ofNat]
  omega

@[simp] theorem Die.miss_key (d : Die) (i : Nat × Nat) : (d.miss i).key = d.key := by unfold Die.miss; split <;> rfl
@[simp] theorem Die.miss_shards (d : Die) (i : Nat × Nat) : (d.miss i).shards = d.shards := by unfold Die.miss; split <;> rfl
@[simp] theorem Die.miss_misslog (d : Die) (i : Nat × Nat) : (d.miss i).misslog = d.misslog := by unfold Die.miss; split <;> rfl
@[simp] theorem Die.miss_regs (d : Die) (i : Nat × Nat) : (d.miss i).regs = d.regs := by unfold Die.miss; split <;> rfl
theorem Die.miss_wf {d : Die} (w : swf 0 d.need = true) (i : Nat × Nat) : swf 0 (d.miss i).need = true := by
  unfold Die.miss
  split
  · exact swf_sput _ _ w
  · exact w
theorem Die.miss_gone {d : Die} {i : Nat × Nat} (h : d.stillNeeds i = false) : d.miss i = d := if_neg (Bool.eq_false_iff.1 h)
theorem Die.sget_miss {d : Die} (w : swf 0 d.need = true) {i : Nat × Nat} (h : d.stillNeeds i = true) (n : Nat) :
    sget 0 (d.miss i).need n = if n = i.1 then missedWord (sget 0 d.need i.1) else sget 0 d.need n := by
  rw [Die.miss, if_pos h]
  exact sget_sput _ _ _ w
theorem Die.rstat_miss {d : Die} {i : Nat × Nat} (h : d.stillNeeds i = true) :
    bits (d.miss i).rstat.toNat 31 0 = (bits d.rstat.toNat 31 0 + 1) % 2 ^ 32 := by
  rw [Die.miss, if_pos h]
  exact bits_putBits_low _ _
/-- A miss removes no need. -/
theorem Die.stillNeeds_miss {d : Die} (w : swf 0 d.need = true) (i j : Nat × Nat) : (d.miss i).stillNeeds j = d.stillNeeds j := by
  cases h : d.stillNeeds i with
  | false => rw [Die.miss_gone h]
  | true =>
    rw [Die.stillNeeds, Die.sget_miss w h, Die.regOf, Die.miss_regs]
    split
    · next e => rw [needValid_missedWord, ← e]; rfl
    · rfl

/-- Needs in slots of their own, missed one after the other, are each missed once; those that no longer stand are not. -/
theorem needsMissed_foldl {d : Die} (w : swf 0 d.need = true) {l : List (Nat × Nat)} (once : ((l.filter d.stillNeeds).map (·.1)).Nodup) :
    needsMissed d (l.foldl Die.miss d) (l.filter d.stillNeeds) := by
  induction l generalizing d with
  | nil =>
    refine ⟨fun i m => (List.not_mem_nil m).elim, fun _ _ => rfl, ?_⟩
    simp [bits]
  | cons i l ih =>
    cases h : d.stillNeeds i with
    | false =>
      rw [List.foldl_cons, Die.miss_gone h]
      rw [List.filter_cons_of_neg (by simp [h])] at once ⊢
      exact ih w once
    | true =>
      have later : l.filter (d.miss i).stillNeeds = l.filter d.stillNeeds := by rw [funext (Die.stillNeeds_miss w i)]
      rw [List.filter_cons_of_pos h] at once ⊢
      obtain ⟨new, once⟩ := List.nodup_cons.1 once
      obtain ⟨each, others, count⟩ := ih (d := d.miss i) (Die.miss_wf w i) (by rw [later]; exact once)
      rw [later] at each others count
      refine ⟨fun j m => ?_, fun n out => ?_, ?_⟩
      · rcases List.mem_cons.1 m with rfl | m
        · rw [List.foldl_cons, others _ new, Die.sget_miss w h, if_pos rfl]; rfl
        · have other : j.1 ≠ i.1 := fun e => new (List.mem_map.2 ⟨j, m, e⟩)
          have := each j m
          rwa [Die.sget_miss w h, if_neg other] at this
      · rw [List.map_cons, List.mem_cons, not_or] at out
        rw [List.foldl_cons, others n out.2, Die.sget_miss w h, if_neg out.1]
      · rw [List.foldl_cons, count, Die.rstat_miss h, List.length_cons]
        omega

/-- Where the die's next miss record stands (Table 6.10). -/
def Die.missVA (d : Die) : Nat := bits d.misslog.toNat 55 4 * 16 + 16 * (bits d.rstat.toNat 31 0 % 2 ^ bits d.misslog.toNat 63 60)
/-- The miss record. -/
def missRecord (reason : Nat) (w : Word) (tag : Half) (tick : Nat) : List Byte :=
  toBytes 8 (reason * 2 ^ 48 + needReq w * 2 ^ 32 + tag.toNat) ++ toBytes 8 tick

/-- Agents read memory through the forwarding pairs of its dies (R337), and through nothing else of the state. -/
theorem State.readNum_congr {s t : State} (mem : t.mem = s.mem) (pairs : ∀ j, (t.getDie j).pairs = (s.getDie j).pairs) (pa n : Nat) :
    t.readNum pa n = s.readNum pa n := by
  simp only [State.readNum, State.readByte, State.pairsAt, pairs, State.byte_congr mem]
theorem State.diePA_congr {s t : State} (mem : t.mem = s.mem) (pairs : ∀ j, (t.getDie j).pairs = (s.getDie j).pairs) {d e : Die}
    (key : e.key = d.key) (binding : e.binding = d.binding) (va : Nat) : t.diePA e va = s.diePA d va := by
  simp only [State.diePA, State.agentPA, State.readNum_congr mem pairs, key, binding]
theorem State.pairs_setDie {s : State} {d : Die} (h : d.pairs = (s.getDie d.key).pairs) (j : DieKey) :
    ((s.setDie d).getDie j).pairs = (s.getDie j).pairs := by
  rw [State.getDie_setDie]
  split
  · next e => rw [h, e]
  · rfl
theorem Die.miss_pairs (d : Die) (i : Nat × Nat) : (d.miss i).pairs = d.pairs := by unfold Die.miss; split <;> rfl

section
variable {s : State} {k : DieKey} {i : Nat × Nat} (reason : Nat) (tag : Half) (tick : Nat)

theorem missNeed_gone (h : (s.getDie k).stillNeeds i = false) : missNeed k reason tag tick s i = s := by
  simp [missNeed, h]
/-- With the log off a miss changes its die alone. -/
theorem missNeed_off (h : (s.getDie k).stillNeeds i = true) (off : bits (s.getDie k).misslog.toNat 63 60 < 4) :
    missNeed k reason tag tick s i = s.setDie ((s.getDie k).miss i) := by
  rw [missNeed, Die.miss, if_pos h]
  simp only [h, Nat.not_le.2 off]
  rfl
/-- With the log on it leaves its record there. -/
theorem missNeed_on (key : (s.getDie k).key = k) (h : (s.getDie k).stillNeeds i = true) (on : 4 ≤ bits (s.getDie k).misslog.toNat 63 60) :
    missNeed k reason tag tick s i = (s.setDie ((s.getDie k).miss i)).write (s.diePA (s.getDie k) (s.getDie k).missVA)
      (missRecord reason (sget 0 (s.getDie k).need i.1) tag tick) := by
  have at_ : (s.setDie ((s.getDie k).miss i)).diePA (s.getDie k) (s.getDie k).missVA = s.diePA (s.getDie k) (s.getDie k).missVA :=
    State.diePA_congr (State.setDie_mem _ _) (State.pairs_setDie (by rw [Die.miss_pairs, Die.miss_key, key])) (Eq.refl _) (Eq.refl _) _
  rw [← at_, Die.miss, if_pos h]
  simp only [missNeed, h, on, Bool.not_true, Bool.false_eq_true, if_false, if_true, missRecord, Die.missVA, missedWord]

theorem State.getDie_missNeed (key : (s.getDie k).key = k) : (missNeed k reason tag tick s i).getDie k = (s.getDie k).miss i := by
  have put : (s.setDie ((s.getDie k).miss i)).getDie k = (s.getDie k).miss i := State.getDie_setDie_of ((Die.miss_key _ i).trans key)
  cases h : (s.getDie k).stillNeeds i with
  | false => rw [missNeed_gone _ _ _ h, Die.miss_gone h]
  | true =>
    rcases Nat.lt_or_ge (bits (s.getDie k).misslog.toNat 63 60) 4 with off | on
    · rw [missNeed_off _ _ _ h off, put]
    · rw [missNeed_on _ _ _ key h on]; exact put
theorem State.missNeed_mem (off : bits (s.getDie k).misslog.toNat 63 60 < 4) : (missNeed k reason tag tick s i).mem = s.mem := by
  cases h : (s.getDie k).stillNeeds i with
  | false => rw [missNeed_gone _ _ _ h]
  | true => rw [missNeed_off _ _ _ h off]; rfl
end

/-- Needs missed one after the other, each for its own reason. -/
def State.missEach (s : State) (k : DieKey) (tag : Half) (tick : Nat) (l : List (Nat × Nat × Nat)) : State :=
  l.foldl (fun s e => missNeed k e.1 tag tick s e.2) s

theorem State.getDie_missEach {s : State} {k : DieKey} (key : (s.getDie k).key = k) (tag : Half) (tick : Nat) (l : List (Nat × Nat × Nat)) :
    (s.missEach k tag tick l).getDie k = (l.map (·.2)).foldl Die.miss (s.getDie k) := by
  induction l generalizing s with
  | nil => rfl
  | cons e l ih =>
    have die := State.getDie_missNeed (i := e.2) e.1 tag tick key
    have rest := ih (s := missNeed k e.1 tag tick s e.2) (by rw [die, Die.miss_key, key])
    rw [die] at rest
    exact rest
theorem State.missEach_mem {s : State} {k : DieKey} (key : (s.getDie k).key = k) (off : bits (s.getDie k).misslog.toNat 63 60 < 4)
    (tag : Half) (tick : Nat) (l : List (Nat × Nat × Nat)) : (s.missEach k tag tick l).mem = s.mem := by
  induction l generalizing s with
  | nil => rfl
  | cons e l ih =>
    have die := State.getDie_missNeed (i := e.2) e.1 tag tick key
    have rest := ih (s := missNeed k e.1 tag tick s e.2) (by rw [die, Die.miss_key, key]) (by rw [die, Die.miss_misslog]; exact off)
    exact rest.trans (State.missNeed_mem e.1 tag tick off)

/-! ### Miss records (Table 6.10) -/

theorem addressed_append (pa : Nat) (a b : List Byte) : addressed pa (a ++ b) = addressed pa a ++ addressed (pa + a.length) b := by
  induction a generalizing pa with
  | nil => rfl
  | cons x a ih =>
    simp only [List.cons_append, addressed, ih, List.length_cons]
    rw [Nat.add_assoc, Nat.add_comm 1]
/-- Bytes written together stand as if written one part after the other. -/
theorem State.write_append_mem (s : State) (pa : Nat) (a b : List Byte) :
    (s.write pa (a ++ b)).mem = ((s.write pa a).write (pa + a.length) b).mem := by
  simp only [State.write, State.perform, addressed_append, putBytes, List.foldl_append]
theorem State.num_congr {s t : State} (m : t.mem = s.mem) (a n : Nat) : t.num a n = s.num a n := by
  rw [State.num, State.bytes, m]
  rfl
/-- Two words written together read as written. -/
theorem State.num_write_pair {s : State} (h : s.Sound) (pa x y : Nat) :
    (s.write pa (toBytes 8 x ++ toBytes 8 y)).num pa 8 = x % 2 ^ 64 ∧ (s.write pa (toBytes 8 x ++ toBytes 8 y)).num (pa + 8) 8 = y % 2 ^ 64 := by
  have parts := s.write_append_mem pa (toBytes 8 x) (toBytes 8 y)
  rw [length_toBytes] at parts
  rw [State.num_congr parts, State.num_congr parts, State.num_write_outside _ _ _ _ _ (.inl (le_refl _)), State.num_write h,
    State.num_write (State.write_wf _ _ h)]
  exact ⟨rfl, rfl⟩

/-! ### Needs that are met once (R51) -/

/-- A die whose needs of a batch have been met: those to be met once are cleared. -/
def Die.meet (d : Die) (l : List (Nat × Nat)) : Die :=
  l.foldl (fun d i => if d.stillNeeds i && needOnce (sget 0 d.need i.1) then d.clearNeed i.1 else d) d

theorem Die.meet_cons (d : Die) (i : Nat × Nat) (l : List (Nat × Nat)) :
    d.meet (i :: l) = (if d.stillNeeds i && needOnce (sget 0 d.need i.1) then d.clearNeed i.1 else d).meet l := rfl
theorem Die.sget_clearNeed {d : Die} (w : swf 0 d.need = true) (i n : Nat) :
    sget 0 (d.clearNeed i).need n = if n = i then 0 else sget 0 d.need n := sget_sput _ _ _ w
theorem Die.meet_frame (d : Die) (l : List (Nat × Nat)) : ∃ n, d.meet l = { d with need := n } := by
  induction l generalizing d with
  | nil => exact ⟨_, rfl⟩
  | cons i l ih =>
    rw [Die.meet_cons]
    split
    · obtain ⟨n, e⟩ := ih (d.clearNeed i.1); exact ⟨n, e⟩
    · exact ih d
/-- A slot whose need is not to be met once is left alone. -/
theorem Die.sget_meet_keeps {d : Die} (w : swf 0 d.need = true) {n : Nat} (h : needOnce (sget 0 d.need n) = false) (l : List (Nat × Nat)) :
    sget 0 (d.meet l).need n = sget 0 d.need n := by
  induction l generalizing d with
  | nil => rfl
  | cons i l ih =>
    rw [Die.meet_cons]
    split
    · next c =>
      have other : n ≠ i.1 := fun e => by simp_all
      have same : sget 0 (d.clearNeed i.1).need n = sget 0 d.need n := by rw [Die.sget_clearNeed w, if_neg other]
      rw [ih (d := d.clearNeed i.1) (swf_sput _ _ w) (by rw [same]; exact h), same]
    · exact ih w h
theorem Die.sget_meet_clears {d : Die} (w : swf 0 d.need = true) {i : Nat × Nat} {l : List (Nat × Nat)} (m : i ∈ l)
    (still : d.stillNeeds i = true) (once : needOnce (sget 0 d.need i.1) = true) : sget 0 (d.meet l).need i.1 = 0 := by
  induction l generalizing d with
  | nil => cases m
  | cons j l ih =>
    rw [Die.meet_cons]
    have wj : swf 0 (d.clearNeed j.1).need = true := swf_sput _ _ w
    split
    · by_cases same : i.1 = j.1
      · have clear : sget 0 (d.clearNeed j.1).need i.1 = 0 := by rw [Die.sget_clearNeed w, if_pos same]
        rw [Die.sget_meet_keeps wj (by rw [clear]; rfl), clear]
      · have stays : sget 0 (d.clearNeed j.1).need i.1 = sget 0 d.need i.1 := by rw [Die.sget_clearNeed w, if_neg same]
        have m' : i ∈ l := (List.mem_cons.1 m).resolve_left (fun e => same (congrArg _ e))
        refine ih wj m' ?_ (by rw [stays]; exact once)
        rw [Die.stillNeeds, stays]; exact still
    · next c =>
      have m' : i ∈ l := (List.mem_cons.1 m).resolve_left (fun e => c (by rw [← e, still, once]; rfl))
      exact ih w m' still once

/-! ### Shards -/

/-- A shard that takes the place of those of its number stands alone under it. -/
theorem Die.eq_of_mem_setShard {d : Die} {x y : Shard} (m : y ∈ (d.setShard x).shards) (same : y.id = x.id) : y = x := by
  obtain ⟨z, -, rfl⟩ := List.mem_map.1 m
  split
  · rfl
  · next other => rw [if_neg other] at same; exact absurd same other
theorem Die.self_mem_setShard {d : Die} {x z : Shard} (m : z ∈ d.shards) (same : z.id = x.id) : x ∈ (d.setShard x).shards :=
  List.mem_map.2 ⟨z, m, if_pos same⟩

/-! ### Batches form (R51, R131, R135) -/

theorem exec_batchFormation (s : State) : exec .batchFormation s = execBatchFormation s := rfl

/-- The ring cores of a die are those of its masks, from a batch formation on (R114). -/
def Die.ringed (d : Die) : Die := { d with ringl := d.rcmaskl, ringh := d.rcmaskh }

/-- The batches of runs of needs. -/
def Die.batchesOf (d : Die) (t : TagEntry) (depart : Nat) (cs : List (List (Nat × ReqCopy))) : List Batch :=
  cs.zipIdx.map (fun l => { num := l.2, needs := l.1.map (fun y => (y.1, (d.regOf y.1).1)), entries := l.1.map d.batchEntry, tag := t
                            depart := depart, refused := false, no := d.formNo + l.2 })

theorem Die.batchesOf_entries (d : Die) (t : TagEntry) (depart : Nat) (cs : List (List (Nat × ReqCopy))) :
    (d.batchesOf t depart cs).flatMap (·.entries) = cs.flatten.map d.batchEntry := by
  have runs : (d.batchesOf t depart cs).map (·.entries) = (cs.zipIdx.map (·.1)).map (·.map d.batchEntry) := by
    simp only [Die.batchesOf, List.map_map]; rfl
  rw [List.flatMap_def, runs, List.zipIdx_map_fst, List.map_flatten]
theorem Die.batchesOf_nums (d : Die) (t : TagEntry) (depart : Nat) (cs : List (List (Nat × ReqCopy))) :
    (d.batchesOf t depart cs).map (·.num) = List.range (d.batchesOf t depart cs).length := by
  have nums : (d.batchesOf t depart cs).map (·.num) = cs.zipIdx.map (·.2) := by simp only [Die.batchesOf, List.map_map]; rfl
  rw [nums, List.zipIdx_map_snd, Die.batchesOf, List.length_map, List.length_zipIdx, List.range_eq_range']
/-- Each batch is of one of the runs. -/
theorem Die.mem_batchesOf {d : Die} {t : TagEntry} {depart : Nat} {cs : List (List (Nat × ReqCopy))} {z : Batch} (m : z ∈ d.batchesOf t depart cs) :
    z.tag = t ∧ ∃ c ∈ cs, z.entries = c.map d.batchEntry := by
  obtain ⟨c, mc, rfl⟩ := List.mem_map.1 m
  exact ⟨rfl, c.1, List.zipIdx_map_fst 0 cs ▸ List.mem_map_of_mem mc, rfl⟩
theorem Die.mem_dropLast_batchesOf {d : Die} {t : TagEntry} {depart : Nat} {cs : List (List (Nat × ReqCopy))} {z : Batch}
    (m : z ∈ (d.batchesOf t depart cs).dropLast) : ∃ c ∈ cs.dropLast, z.entries = c.map d.batchEntry := by
  rw [Die.batchesOf, ← List.map_dropLast] at m
  obtain ⟨c, mc, rfl⟩ := List.mem_map.1 m
  have runs : cs.dropLast = cs.zipIdx.dropLast.map (·.1) := by rw [List.map_dropLast, List.zipIdx_map_fst]
  exact ⟨c.1, runs ▸ List.mem_map_of_mem mc, rfl⟩

section
variable {s : State} {x : Shard} (found : (s.getDie s.place.core.dieKey).shards.find? (fun x => x.complete && !x.formed) = some x)
  (running : s.ring.restarting = false)
include found running

/-- Without a bound kernel nothing starts and nothing is missed. -/
theorem exec_batchFormation_unbound (unbound : (s.getDie s.place.core.dieKey).binding.bind (fun _ => x.bound) = none) :
    exec .batchFormation s = .next (s.setDie ((s.getDie s.place.core.dieKey).ringed.setShard { x with formed := true })) := by
  rw [exec_batchFormation, execBatchFormation]
  simp only [found, running, unbound]
  rfl
/-- Without a matching entry every need of the tag is missed, for reason 3. -/
theorem exec_batchFormation_untagged {b : Binding} (bound : (s.getDie s.place.core.dieKey).binding.bind (fun _ => x.bound) = some b)
    (untagged : b.image.tags.find? (fun t => x.tag &&& t.mask = t.value) = none) :
    let d := s.getDie s.place.core.dieKey
    exec .batchFormation s = .next ((s.setDie (d.ringed.setShard { x with formed := true })).missEach s.place.core.dieKey x.tag
      (s.tickOfPaced x.deadline) ((d.matching x.tag (max s.podStep d.localStep) s.now).map (fun z => (3, z.1, (d.regOf z.1).1)))) := by
  rw [exec_batchFormation, execBatchFormation]
  simp only [found, running, bound, untagged, State.missEach, List.foldl_map]
  rfl
/-- The needs of the tag, cut into runs of BATCH, are the batches. -/
theorem exec_batchFormation_tagged {b : Binding} (bound : (s.getDie s.place.core.dieKey).binding.bind (fun _ => x.bound) = some b)
    {t : TagEntry} (tagged : b.image.tags.find? (fun t => x.tag &&& t.mask = t.value) = some t) :
    let d := s.getDie s.place.core.dieKey
    let needs := d.matching x.tag (max s.podStep d.localStep) s.now
    let bs := d.batchesOf t (s.tickOfPaced x.deadline) (chunks (max (if t.batch = 0 then b.image.maxbatch else t.batch) 1) needs.length needs)
    ∃ ids n, exec .batchFormation s = .next (s.setDie { d.ringed.setShard { x with formed := true, batches := bs } with streams := ids, formNo := n }) := by
  rw [exec_batchFormation, execBatchFormation]
  simp only [found, running, bound, tagged]
  exact ⟨_, _, rfl⟩
end

/-! ### Streams start (R115, R130, R133) -/

theorem exec_streamStart (s : State) : exec .streamStart s = execStreamStart s := rfl

/-- The die of a stream that starts: its shard is pinned, and the needs to be met once are cleared. -/
def State.streamDie (s : State) (d : Die) (bd : Binding) (x : Shard) (b : Batch) : Die :=
  let reserve := s.needsRoom d bd x b.tag
  { ((d.meet b.needs).setShard { x with
      pins := x.pins + 1, resv := x.resv || reserve, batches := x.batches.filter (fun c => c.num ≠ b.num) }) with
    lives := (d.meet b.needs).lives + 1, resv := (d.meet b.needs).resv + (if reserve then x.footprint else 0) }

theorem State.startStream_eq (s : State) (k : CoreKey) (bd : Binding) (x : Shard) (b : Batch) : s.startStream k bd x b
    = (s.setDie (s.streamDie (s.getDie k.dieKey) bd x b)).startWork k (streamSource (s.getDie k.dieKey) bd x b) := rfl

theorem State.loadCode_dies (s : State) (k : CoreKey) (i : Image) (handler : Option (Word × List Byte)) : (loadCode k i handler s).dies = s.dies := by
  unfold loadCode
  split
  · split <;> rfl
  · rfl
theorem State.startWork_dies (s : State) (k : CoreKey) (w : Source) : (s.startWork k w).dies = s.dies := by
  refine (State.setCore_dies _ _).trans ?_
  simp only [State.setCleanLines, State.write, State.perform_dies, State.loadCode_dies]

/-- A core that has been asked to stop, and was not before. -/
theorem askStop_changed {why : StopCause} {c : Core} (h : (askStop why c).stop ≠ c.stop) : askStop why c = { c with stop := some why } := by
  unfold askStop at h ⊢
  split
  · split
    · rfl
    · simp_all
  · simp_all

theorem State.mem_dieCores {k : DieKey} {c : CoreKey} (m : c ∈ dieCores k) : c.dieKey = k := by
  obtain ⟨i, -, rfl⟩ := List.mem_map.1 m
  rfl

section
variable {s r : State} {d : Die} (refused : s.refusals (s.getDie s.place.core.dieKey) = d) (marked : s.setDie d = r)
include refused marked

/-- The first batch that may start takes the idle ring core. -/
theorem exec_streamStart_starts {x : Shard} {b : Batch} {c : CoreKey} {bd : Binding} (first : d.queued.find? (r.batchReady d) = some (x, b))
    (idle_ : r.idleRingCore s.place.core.dieKey = some c) (bound : x.bound = some bd) :
    exec .streamStart s = .next (r.startStream c bd x b) := by
  subst refused marked
  rw [exec_streamStart, execStreamStart]
  simp only [first, idle_, bound]
  rfl
/-- Without an idle core a flow task is asked to make room. -/
theorem exec_streamStart_asks {e : Shard × Batch} {c : CoreKey} (first : d.queued.find? (r.batchReady d) = some e)
    (busy : r.idleRingCore s.place.core.dieKey = none) (flow : r.displaceable s.place.core.dieKey (d.queued.filter (r.batchReady d)).length = some c) :
    exec .streamStart s = .next (r.setCore { r.getCore c with stop := some .displace }) := by
  have asked := askStop_changed (by simpa using List.find?_some flow)
  subst refused marked
  rw [exec_streamStart, execStreamStart, ← asked]
  simp only [first, busy, flow]
  rfl
/-- Where no batch may start, refusals are marked. -/
theorem exec_streamStart_marks (none_ : d.queued.find? (r.batchReady d) = none) (new : d ≠ s.getDie s.place.core.dieKey) :
    exec .streamStart s = .next r := by
  subst refused marked
  rw [exec_streamStart, execStreamStart]
  simp only [none_]
  exact if_neg new
end

/-- A core whose work starts runs it from its entry point. -/
theorem State.getCore_startWork_begins {s : State} (k : CoreKey) (w : Source) (keyed : s.Keyed) :
    ((s.startWork k w).getCore k).phase = .running ∧ ((s.startWork k w).getCore k).pc = BitVec.ofNat 17 w.entry
      ∧ ∃ c serial, ((s.startWork k w).getCore k).task = some (w.task c serial) := by
  obtain ⟨tvec, serial, clock, step, core⟩ := State.getCore_startWork k w keyed
  rw [core]
  simp only [Source.core, true_and]
  exact ⟨_, serial, rfl⟩
/-- What the start of a stream leaves on its core. -/
theorem State.getCore_startStream {s : State} (keyed : s.Keyed) (c : CoreKey) (bd : Binding) (x : Shard) (b : Batch) :
    ((s.startStream c bd x b).getCore c).phase = .running ∧ ((s.startStream c bd x b).getCore c).pc = BitVec.ofNat 17 b.tag.entry
      ∧ ∃ w, ((s.startStream c bd x b).getCore c).task = some w ∧ w.stream = true ∧ w.shard = x.id ∧ w.batch = b.entries ∧ w.pinned = true
        ∧ w.tid = streamId x b.num := by
  obtain ⟨running, pc, kept, serial, task⟩ :=
    State.getCore_startWork_begins c (streamSource (s.getDie c.dieKey) bd x b) (keyed.setDie (s.streamDie (s.getDie c.dieKey) bd x b))
  exact ⟨running, pc, _, task, rfl, rfl, rfl, rfl, rfl⟩
/-- What it leaves on its die. -/
theorem State.getDie_startStream {s : State} (keyed : s.Keyed) (c : CoreKey) (bd : Binding) (x : Shard) (b : Batch) :
    (s.startStream c bd x b).getDie c.dieKey = s.streamDie (s.getDie c.dieKey) bd x b := by
  have key : (s.streamDie (s.getDie c.dieKey) bd x b).key = c.dieKey := by
    obtain ⟨n, e⟩ := (s.getDie c.dieKey).meet_frame b.needs
    exact (congrArg Die.key e).trans (State.getDie_key keyed _)
  rw [State.startStream_eq, State.getDie, State.startWork_dies]
  exact State.getDie_setDie_of key

/-- The die keeps its shard, with one pin more. -/
theorem State.streamDie_pins (s : State) {d : Die} {x : Shard} (m : x ∈ d.shards) (bd : Binding) (b : Batch) :
    ∃ y ∈ (s.streamDie d bd x b).shards, y.id = x.id ∧ y.pins = x.pins + 1 := by
  obtain ⟨n, met⟩ := d.meet_frame b.needs
  have kept : x ∈ (d.meet b.needs).shards := by rw [met]; exact m
  exact ⟨_, Die.self_mem_setShard kept rfl, rfl, rfl⟩
/-- The needs of the batch stand, but for those to be met once. -/
theorem State.streamDie_needs (s : State) {d : Die} (wf : swf 0 d.need = true) {b : Batch} {i : Nat × Nat} (m : i ∈ b.needs)
    (still : d.stillNeeds i = true) (bd : Binding) (x : Shard) :
    sget 0 (s.streamDie d bd x b).need i.1 = if needOnce (sget 0 d.need i.1) = true then 0 else sget 0 d.need i.1 := by
  have need : (s.streamDie d bd x b).need = (d.meet b.needs).need := rfl
  rw [need]
  cases once : needOnce (sget 0 d.need i.1) with
  | true => exact Die.sget_meet_clears wf m still once
  | false => exact Die.sget_meet_keeps wf once b.needs

/-! ### Deadlines (R134) -/

theorem exec_departureDeadline (s : State) : exec .departureDeadline s = execDepartureDeadline s := rfl

/-- The needs of a batch, each with the reason for which it is missed: 2 where the batch was refused a reservation, else 1. -/
def Batch.misses (b : Batch) : List (Nat × Nat × Nat) := b.needs.map (fun i => (if b.refused then 2 else 1, i))

/-- A miss does not move the time of a paced cycle. -/
theorem State.tickOfPaced_missEach (k : DieKey) (tag : Half) (tick n : Nat) (l : List (Nat × Nat × Nat)) (s : State) :
    (s.missEach k tag tick l).tickOfPaced n = s.tickOfPaced n := by
  refine foldl_keeps (fun s : State => s.tickOfPaced n) (fun s e => ?_) l s
  simp only [missNeed]
  split
  · rfl
  · split <;> rfl
/-- Batches are missed need by need. -/
theorem missBatches_eq (k : DieKey) (tag : Half) (n : Nat) (bs : List Batch) (s : State) :
    bs.foldl (fun s b => b.needs.foldl (missNeed k (if b.refused then 2 else 1) tag (s.tickOfPaced n)) s) s
      = s.missEach k tag (s.tickOfPaced n) (bs.flatMap Batch.misses) := by
  induction bs generalizing s with
  | nil => rfl
  | cons b bs ih =>
    have first : b.needs.foldl (missNeed k (if b.refused then 2 else 1) tag (s.tickOfPaced n)) s
        = s.missEach k tag (s.tickOfPaced n) b.misses := by rw [State.missEach, Batch.misses, List.foldl_map]
    rw [List.foldl_cons, first, ih, State.tickOfPaced_missEach, List.flatMap_cons]
    exact List.foldl_append.symm
theorem map_misses (bs : List Batch) : (bs.flatMap Batch.misses).map (·.2) = bs.flatMap (·.needs) := by
  simp only [List.map_flatMap, Batch.misses, List.map_map]
  exact congrArg (List.flatMap · bs) (funext fun b => List.map_id b.needs)

/-- A die that drops the batches of a shard. -/
def Die.dropped (d : Die) (x : Shard) : Die :=
  { (d.setShard { x with batches := [] }) with streams := d.streams.filter (fun i => !(x.batches.map (·.no)).contains i.1) }

/-- At its deadline a shard's batches are dropped and their needs are missed. -/
theorem exec_departureDeadline_drops {s : State} {x : Shard} (found : (s.refusals (s.getDie s.place.core.dieKey)).shards.find?
      (fun x => decide (x.deadline ≤ s.pacedNow) && !x.batches.isEmpty) = some x) :
    exec .departureDeadline s = .next ((s.setDie ((s.refusals (s.getDie s.place.core.dieKey)).dropped x)).missEach s.place.core.dieKey x.tag
      (s.tickOfPaced x.deadline) (x.batches.flatMap Batch.misses)) := by
  rw [exec_departureDeadline, execDepartureDeadline]
  simp only [found]
  exact congrArg Host.Outcome.next (missBatches_eq s.place.core.dieKey x.tag x.deadline x.batches _)

/-- A miss record holds the reason, the request and the tag in its first word, and the tick in its second. -/
theorem State.num_write_missRecord {s : State} (h : s.Sound) (pa : Nat) {reason : Nat} (small : reason ≤ 2) (w : Word) (tag : Half) (tick : Nat) :
    (s.write pa (missRecord reason w tag tick)).num pa 8 = reason * 2 ^ 48 + needReq w * 2 ^ 32 + tag.toNat
      ∧ (s.write pa (missRecord reason w tag tick)).num (pa + 8) 8 = tick % 2 ^ 64 := by
  obtain ⟨first, second⟩ := State.num_write_pair h pa (reason * 2 ^ 48 + needReq w * 2 ^ 32 + tag.toNat) tick
  have req : needReq w < 2 ^ 16 := by simp only [needReq, bits]; omega
  have tag_ := tag.isLt
  exact ⟨first.trans (Nat.mod_eq_of_lt (by omega)), second⟩

/-- With the log on, a need that is missed leaves its record there (Table 6.10). -/
theorem State.num_missNeed {s : State} {k : DieKey} (h : s.Sound) (key : (s.getDie k).key = k) {i : Nat × Nat}
    (still : (s.getDie k).stillNeeds i = true) (on : 4 ≤ bits (s.getDie k).misslog.toNat 63 60) {reason : Nat} (small : reason ≤ 2) (tag : Half)
    (tick : Nat) :
    let pa := s.diePA (s.getDie k) (s.getDie k).missVA
    (missNeed k reason tag tick s i).num pa 8 = reason * 2 ^ 48 + needReq (sget 0 (s.getDie k).need i.1) * 2 ^ 32 + tag.toNat
      ∧ (missNeed k reason tag tick s i).num (pa + 8) 8 = tick % 2 ^ 64 := by
  rw [missNeed_on reason tag tick key still on]
  exact State.num_write_missRecord (s := s.setDie ((s.getDie k).miss i)) h _ small _ _ _

/-- Dropping a shard's batches leaves the needs and the miss log. -/
theorem State.refusals_dropped (s : State) (d : Die) (x : Shard) : let e := (s.refusals d).dropped x
    e.key = d.key ∧ e.need = d.need ∧ e.rstat = d.rstat ∧ e.misslog = d.misslog ∧ e.pairs = d.pairs ∧ e.binding = d.binding
      ∧ e.stillNeeds = d.stillNeeds := ⟨rfl, rfl, rfl, rfl, rfl, rfl, rfl⟩
/-- A shard that has been dropped holds no batches, whatever has been missed since. -/
theorem Die.dropped_batches (d : Die) {x y : Shard} (l : List (Nat × Nat)) (m : y ∈ (l.foldl Die.miss (d.dropped x)).shards) (same : y.id = x.id) :
    y.batches = [] := by
  have shards : (l.foldl Die.miss (d.dropped x)).shards = (d.setShard { x with batches := [] }).shards :=
    foldl_keeps Die.shards Die.miss_shards l (d.dropped x)
  rw [shards] at m
  rw [Die.eq_of_mem_setShard m same]

/-! ### The obligation -/

/-- A die whose need table and RSTAT stand has missed nothing. -/
theorem needsMissed_nil {d e : Die} (need : e.need = d.need) (rstat : e.rstat = d.rstat) : needsMissed d e [] := by
  refine ⟨fun i m => (List.not_mem_nil m).elim, fun _ _ => by rw [need], ?_⟩
  rw [rstat]
  simp [bits]
/-- What is missed is told from the need table and RSTAT alone. -/
theorem needsMissed_congr {d d' e : Die} (need : d'.need = d.need) (rstat : d'.rstat = d.rstat) {ms : List (Nat × Nat)} (h : needsMissed d' e ms) :
    needsMissed d e ms := by
  rwa [needsMissed, need, rstat] at h
/-- The needs of a tag, missed one after the other, are each missed once. -/
theorem needsMissed_matching {d : Die} (w : swf 0 d.need = true) (tag : Half) (k now : Nat) :
    let ms := (d.matching tag k now).map (fun z => (z.1, (d.regOf z.1).1))
    needsMissed d (ms.foldl Die.miss d) ms := by
  intro ms
  have stand : ms.filter d.stillNeeds = ms := by
    refine List.filter_eq_self.2 fun i m => ?_
    obtain ⟨⟨n, r⟩, listed, rfl⟩ := List.mem_map.1 m
    obtain ⟨v, held, valid, -⟩ := Die.mem_matching.1 listed
    have entry := sget_of_mem w held
    rw [Die.stillNeeds, entry, valid]
    simp
  have slots : ms.map (·.1) = (d.matching tag k now).map (·.1) := by simp only [ms, List.map_map]; rfl
  have missed := needsMissed_foldl w (l := ms) (by rw [stand, slots]; exact Die.matching_nodup w tag k now)
  rwa [stand] at missed

theorem Die.mem_of_queued {d : Die} {x : Shard} {b : Batch} (m : (x, b) ∈ d.queued) : x ∈ d.shards := by
  obtain ⟨y, m, b', -, e⟩ := by simpa only [Die.queued, List.mem_flatMap, List.mem_map] using m
  cases e
  exact m
/-- The batches of the needs of a tag: all of them, in order, in runs of n of which the last alone may be shorter. -/
theorem Die.batchesOf_chunks (d : Die) (t : TagEntry) (depart : Nat) {n : Nat} (pos : 1 ≤ n) (needs : List (Nat × ReqCopy)) :
    let bs := d.batchesOf t depart (chunks n needs.length needs)
    bs.flatMap (·.entries) = needs.map d.batchEntry ∧ bs.map (·.num) = List.range bs.length
      ∧ (∀ z ∈ bs, z.tag = t ∧ z.entries ≠ [] ∧ z.entries.length ≤ n) ∧ ∀ z ∈ bs.dropLast, z.entries.length = n := by
  refine ⟨?_, d.batchesOf_nums t depart _, fun z m => ?_, fun z m => ?_⟩
  · rw [Die.batchesOf_entries, chunks_flatten pos (le_refl _)]
  · obtain ⟨tag, c, mc, entries⟩ := Die.mem_batchesOf m
    obtain ⟨some_, short⟩ := chunks_bounded pos mc
    rw [entries, List.length_map]
    exact ⟨tag, fun e => some_ (List.map_eq_nil_iff.1 e), short⟩
  · obtain ⟨c, mc, entries⟩ := Die.mem_dropLast_batchesOf m
    rw [entries, List.length_map]
    exact chunks_full mc

section
variable {s : State} (keyed : s.Keyed) {d : Die} (dies : s.getDie s.place.core.dieKey = d) {x : Shard}
  (found : d.shards.find? (fun x => x.complete && !x.formed) = some x) (running : s.ring.restarting = false)
include keyed dies found running

/-- Without a bound kernel the shard is formed, and that is all. -/
theorem batchFormation_unbound (unbound : d.binding.bind (fun _ => x.bound) = none) :
    ∃ t, exec .batchFormation s = .next t ∧ (t.getDie s.place.core.dieKey).shards = (d.setShard { x with formed := true }).shards ∧ t.mem = s.mem
      ∧ needsMissed d (t.getDie s.place.core.dieKey) [] := by
  have key : d.key = s.place.core.dieKey := dies ▸ State.getDie_key keyed _
  subst dies
  refine ⟨_, exec_batchFormation_unbound found running unbound, ?_⟩
  rw [State.getDie_setDie_of (by exact key)]
  exact ⟨rfl, rfl, needsMissed_nil rfl rfl⟩
/-- Without a matching entry it is formed, and every need of its tag is missed. -/
theorem batchFormation_untagged {b : Binding} (bound : d.binding.bind (fun _ => x.bound) = some b)
    (untagged : b.image.tags.find? (fun t => x.tag &&& t.mask = t.value) = none) :
    ∃ t, exec .batchFormation s = .next t ∧ (t.getDie s.place.core.dieKey).shards = (d.setShard { x with formed := true }).shards
      ∧ (swf 0 d.need = true → needsMissed d (t.getDie s.place.core.dieKey)
        ((d.matching x.tag (max s.podStep d.localStep) s.now).map (fun z => (z.1, (d.regOf z.1).1)))) := by
  have key : d.key = s.place.core.dieKey := dies ▸ State.getDie_key keyed _
  subst dies
  refine ⟨_, exec_batchFormation_untagged found running bound untagged, ?_⟩
  have put := State.getDie_setDie_of (s := s) (d := (s.getDie s.place.core.dieKey).ringed.setShard { x with formed := true }) key
  rw [State.getDie_missEach (by rw [put]; exact key), put, List.map_map]
  exact ⟨foldl_keeps Die.shards Die.miss_shards _ _, fun wf =>
    needsMissed_matching (d := (s.getDie s.place.core.dieKey).ringed.setShard { x with formed := true }) wf x.tag _ s.now⟩
/-- With one it holds its batches, and nothing is missed. -/
theorem batchFormation_tagged {b : Binding} (bound : d.binding.bind (fun _ => x.bound) = some b) {e : TagEntry}
    (tagged : b.image.tags.find? (fun t => x.tag &&& t.mask = t.value) = some e) :
    let needs := d.matching x.tag (max s.podStep d.localStep) s.now
    let bs := d.batchesOf e (s.tickOfPaced x.deadline) (chunks (max (if e.batch = 0 then b.image.maxbatch else e.batch) 1) needs.length needs)
    ∃ t, exec .batchFormation s = .next t ∧ (t.getDie s.place.core.dieKey).shards = (d.setShard { x with formed := true, batches := bs }).shards
      ∧ needsMissed d (t.getDie s.place.core.dieKey) [] := by
  have key : d.key = s.place.core.dieKey := dies ▸ State.getDie_key keyed _
  subst dies
  obtain ⟨ids, n, formed⟩ := exec_batchFormation_tagged found running bound tagged
  refine ⟨_, formed, ?_⟩
  rw [State.getDie_setDie_of (by exact key)]
  exact ⟨rfl, needsMissed_nil rfl rfl⟩
end

/-- Settles O56: a shard's needs are read off the need table and cut into runs; what is missed is missed slot by slot. -/
theorem batchesFormAndStreamsStart : Obligations.BatchesFormAndStreamsStart := by
  unfold Obligations.BatchesFormAndStreamsStart
  intro s keyed k d
  have key : d.key = k := State.getDie_key keyed k
  have put : ∀ e : Die, e.key = d.key → (s.setDie e).getDie k = e := fun e h => State.getDie_setDie_of (h.trans key)
  refine ⟨?form, ⟨?starts, ?asks, ?marks⟩, ?deadline⟩
  case form =>
    intro x found running step needs
    refine ⟨sortBy_ascending _ _, fun i r => Die.mem_matching, ?_⟩
    have mine : x ∈ d.shards := List.mem_of_find?_eq_some found
    cases bound : d.binding.bind (fun _ => x.bound) with
    | none =>
      obtain ⟨t, run, shards, mem, unmissed⟩ := batchFormation_unbound keyed rfl found running bound
      refine ⟨t, run, ?_⟩
      rw [shards]
      refine ⟨⟨_, Die.self_mem_setShard mine rfl, rfl⟩, fun y m same => ?_, fun _ => ⟨State.byte_congr mem, unmissed, fun y m same => ?_⟩,
        fun _ no => nomatch no⟩
      · rw [Die.eq_of_mem_setShard m same]
      · rw [Die.eq_of_mem_setShard m same]
    | some b =>
      cases tagged : b.image.tags.find? (fun t => x.tag &&& t.mask = t.value) with
      | none =>
        obtain ⟨t, run, shards, missed⟩ := batchFormation_untagged keyed rfl found running bound tagged
        refine ⟨t, run, ?_⟩
        rw [shards]
        refine ⟨⟨_, Die.self_mem_setShard mine rfl, rfl⟩, fun y m same => ?_, fun no => (nomatch no), fun b' same => ?_⟩
        · rw [Die.eq_of_mem_setShard m same]
        · cases same
          exact ⟨fun _ => missed, fun _ no => nomatch tagged.symm.trans no⟩
      | some e =>
        obtain ⟨t, run, shards, unmissed⟩ := batchFormation_tagged keyed rfl found running bound tagged
        refine ⟨t, run, ?_⟩
        rw [shards]
        refine ⟨⟨_, Die.self_mem_setShard mine rfl, rfl⟩, fun y m same => ?_, fun no => (nomatch no), fun b' same => ?_⟩
        · rw [Die.eq_of_mem_setShard m same]
        · cases same
          refine ⟨fun no => (nomatch tagged.symm.trans no), fun e' same => ?_⟩
          cases tagged.symm.trans same
          refine ⟨unmissed, fun y m same => ?_⟩
          rw [Die.eq_of_mem_setShard m same]
          exact d.batchesOf_chunks e _ (le_max_right _ _) needs
  case starts =>
    intro x b c bd first idle_ bound
    have core : c.dieKey = k := State.mem_dieCores (List.mem_of_find?_eq_some idle_)
    have was : (s.setDie (s.refusals d)).getDie c.dieKey = s.refusals d := by rw [core]; exact put _ rfl
    obtain ⟨running, pc, task⟩ := State.getCore_startStream (keyed.setDie (s.refusals d)) c bd x b
    have die := State.getDie_startStream (keyed.setDie (s.refusals d)) c bd x b
    rw [was, core] at die
    refine ⟨_, exec_streamStart_starts rfl rfl first idle_ bound, running, pc, task, ?_, fun wf i m still => ?_⟩
    · rw [die]
      exact State.streamDie_pins _ (Die.mem_of_queued (List.mem_of_find?_eq_some first)) bd b
    · rw [die]
      exact State.streamDie_needs (d := s.refusals d) _ wf m still bd x
  case asks =>
    intro e c first busy flow
    exact exec_streamStart_asks rfl rfl first busy flow
  case marks => exact exec_streamStart_marks rfl rfl
  case deadline =>
    intro r x found ms
    obtain ⟨e, dropped⟩ : ∃ e, (s.refusals (s.getDie s.place.core.dieKey)).dropped x = e := ⟨_, rfl⟩
    obtain ⟨keyE, need, rstat, misslog, pairs, binding, stands⟩ := dropped ▸ s.refusals_dropped d x
    have die : (s.setDie e).getDie k = e := put e keyE
    have keyU : ((s.setDie e).getDie k).key = k := by rw [die, keyE, key]
    have left := (State.getDie_missEach keyU x.tag (s.tickOfPaced x.deadline) (x.batches.flatMap Batch.misses)).trans (by rw [die, map_misses])
    have run := exec_departureDeadline_drops found
    rw [dropped] at run
    refine ⟨_, run, fun y m same => ?_, fun wf once => ?_, fun off => ?_, fun b i one alone still on sound => ?_⟩
    · rw [left, ← dropped] at m
      exact r.dropped_batches _ m same
    · rw [left]
      have missed := needsMissed_foldl (d := e) (by rw [need]; exact wf) (l := x.batches.flatMap (·.needs)) (by rw [stands]; exact once)
      rw [stands] at missed
      exact needsMissed_congr need rstat missed
    · exact State.byte_congr (State.missEach_mem keyU (by rw [die, misslog]; exact off) _ _ _)
    · have va : e.missVA = d.missVA := by rw [Die.missVA, Die.missVA, misslog, rstat]
      have pa : (s.setDie e).diePA e e.missVA = s.diePA d d.missVA := by
        rw [va]
        exact State.diePA_congr (s.setDie_mem e) (State.pairs_setDie (by rw [pairs, keyE, key])) keyE binding _
      have small : (if b.refused then 2 else 1) ≤ 2 := by split <;> omega
      have record := State.num_missNeed (s := s.setDie e) (k := k) (i := i) sound keyU (by rw [die, stands]; exact still)
        (by rw [die, misslog]; exact on) small x.tag (s.tickOfPaced x.deadline)
      rw [die, need, pa] at record
      rw [one, List.flatMap_singleton, Batch.misses, alone]
      exact record

end Sys2Proof.Machine
end

section
/-! The values of floating-point codes (R55, R56): a magnitude code counts up through the magnitudes of its format. -/

namespace Sys2Proof

open Machine

/-- What every format of Table 3.2 has: an exponent field and a fraction field. -/
structure FFmt.HasFields (F : FFmt) : Prop where
  eb_pos : 0 < F.eb
  fb_pos : 0 < F.fb

/-- The formats of Table 3.2 have both fields. -/
theorem FFmt.hasFields_of_mem {F : FFmt} (h : F ∈ [FFmt.fp64, .fp32, .fp16, .bf16, .e4m3, .e5m2]) : F.HasFields := by
  fin_cases h <;> exact ⟨by decide, by decide⟩

/-- How far the exponent of a magnitude code stands above that of the smallest normal. -/
def FFmt.scale (F : FFmt) (n : Nat) : Nat := n / 2 ^ F.fb - 1

/-- The significand of a magnitude code, in units of its last place. -/
def FFmt.sig (F : FFmt) (n : Nat) : Nat := n - F.scale n * 2 ^ F.fb

/-- The magnitude that a magnitude code stands for; codes above the largest finite one go on as if there were no special values. -/
def FFmt.mag (F : FFmt) (n : Nat) : ℚ := (F.sig n : ℚ) * (2 : ℚ) ^ (F.emin - F.fb + F.scale n)

variable {F : FFmt}

theorem FFmt.scale_add_sig (F : FFmt) (n : Nat) : F.scale n * 2 ^ F.fb + F.sig n = n := by
  have := Nat.div_mul_le_self n (2 ^ F.fb)
  have : F.scale n * 2 ^ F.fb ≤ n / 2 ^ F.fb * 2 ^ F.fb := Nat.mul_le_mul_right _ (Nat.sub_le _ _)
  unfold FFmt.sig
  omega

/-- A significand stays below two units of the leading place, and only the lowest scale has those without a leading one. -/
theorem FFmt.sig_bounds (F : FFmt) (n : Nat) : F.sig n < 2 * 2 ^ F.fb ∧ (F.scale n = 0 ∨ 2 ^ F.fb ≤ F.sig n) := by
  have parts := F.scale_add_sig n
  have whole := Nat.div_add_mod n (2 ^ F.fb)
  have rest := Nat.mod_lt n (Nat.two_pow_pos F.fb)
  obtain zero | ⟨k, succ⟩ : n / 2 ^ F.fb = 0 ∨ ∃ k, n / 2 ^ F.fb = k + 1 := by
    cases n / 2 ^ F.fb with
    | zero => exact .inl rfl
    | succ k => exact .inr ⟨k, rfl⟩
  · have scale : F.scale n = 0 := by simp [FFmt.scale, zero]
    rw [scale] at parts
    rw [zero] at whole
    exact ⟨by omega, .inl scale⟩
  · have scale : F.scale n = k := by simp [FFmt.scale, succ]
    rw [scale] at parts
    rw [succ, Nat.mul_add, Nat.mul_comm _ k] at whole
    exact ⟨by omega, .inr (by omega)⟩

/-- The magnitude of the code at scale k with significand m, the carry into the next scale included. -/
theorem FFmt.mag_scaled {k m : Nat} (lead : k = 0 ∨ 2 ^ F.fb ≤ m) (le : m ≤ 2 * 2 ^ F.fb) :
    F.mag (k * 2 ^ F.fb + m) = (m : ℚ) * (2 : ℚ) ^ (F.emin - F.fb + k) := by
  have pos := Nat.two_pow_pos F.fb
  have at_scale : ∀ j r, (j = 0 ∨ 2 ^ F.fb ≤ r) → r < 2 * 2 ^ F.fb → F.scale (j * 2 ^ F.fb + r) = j := by
    intro j r lead lt
    unfold FFmt.scale
    rw [Nat.mul_comm, Nat.mul_add_div pos]
    obtain small | big := Nat.lt_or_ge r (2 ^ F.fb)
    · rw [Nat.div_eq_of_lt small]; omega
    · rw [Nat.div_eq_of_lt_le (by omega) (by omega : r < (1 + 1) * 2 ^ F.fb)]; omega
  obtain lt | rfl := le.lt_or_eq
  · rw [FFmt.mag, FFmt.sig, at_scale k m lead lt, Nat.add_sub_cancel_left]
  · have carry : k * 2 ^ F.fb + 2 * 2 ^ F.fb = (k + 1) * 2 ^ F.fb + 2 ^ F.fb := by ring
    rw [carry, FFmt.mag, FFmt.sig, at_scale (k + 1) _ (.inr le_rfl) (by omega), Nat.add_sub_cancel_left,
      show F.emin - F.fb + ((k + 1 : Nat) : Int) = (F.emin - F.fb + k) + 1 by push_cast; ring, zpow_add_one₀ (two_ne_zero)]
    push_cast
    ring

/-- The next code stands for the magnitude one unit in the last place above. -/
theorem FFmt.mag_succ (F : FFmt) (n : Nat) : F.mag (n + 1) = F.mag n + (2 : ℚ) ^ (F.emin - F.fb + F.scale n) := by
  obtain ⟨lt, lead⟩ := F.sig_bounds n
  have next : n + 1 = F.scale n * 2 ^ F.fb + (F.sig n + 1) := by rw [← Nat.add_assoc, F.scale_add_sig]
  rw [next, FFmt.mag_scaled (lead.imp_right (Nat.le_succ_of_le)) lt, FFmt.mag]
  push_cast
  ring

/-- Magnitudes rise with their codes. -/
theorem FFmt.mag_strictMono (F : FFmt) : StrictMono F.mag :=
  strictMono_nat_of_lt_succ (fun n => by rw [F.mag_succ]; linarith [zpow_pos (two_pos : (0 : ℚ) < 2) (F.emin - F.fb + F.scale n)])

theorem FFmt.mag_nonneg (F : FFmt) (n : Nat) : 0 ≤ F.mag n := by
  unfold FFmt.mag
  positivity

/-! ### Codes with a sign -/

theorem FFmt.maxCode_lt (F : FFmt) : F.maxCode < F.signBit := by
  have := Nat.two_pow_pos (F.eb + F.fb)
  have := Nat.two_pow_pos F.fb
  unfold FFmt.maxCode FFmt.signBit
  split
  · rw [Nat.sub_mul, ← Nat.pow_add]; omega
  · omega

/-- The sign bit of a code, and its magnitude code. -/
theorem FFmt.withSign_parts {neg : Bool} {n : Nat} (lt : n < F.signBit) :
    bitAt (F.withSign neg n) (F.eb + F.fb) = neg ∧ F.withSign neg n % F.signBit = n ∧ F.withSign neg n < 2 * F.signBit := by
  unfold FFmt.signBit at lt
  cases neg
  · simp [FFmt.withSign, bitAt, FFmt.signBit, Nat.div_eq_of_lt lt, Nat.mod_eq_of_lt lt]
    omega
  · simp [FFmt.withSign, bitAt, FFmt.signBit, Nat.add_div_right _ (Nat.two_pow_pos _), Nat.div_eq_of_lt lt, Nat.mod_eq_of_lt lt]
    omega

/-- Every code is a magnitude code with a sign. -/
theorem FFmt.exists_withSign {c : Nat} (lt : c < 2 * F.signBit) : ∃ neg, ∃ n < F.signBit, c = F.withSign neg n := by
  obtain low | high := Nat.lt_or_ge c F.signBit
  · exact ⟨false, c, low, rfl⟩
  · exact ⟨true, c - F.signBit, by omega, by simp only [FFmt.withSign, if_true]; omega⟩

/-- The sign leaves the exponent and fraction fields alone. -/
theorem FFmt.withSign_fields (neg : Bool) (n : Nat) :
    F.withSign neg n / 2 ^ F.fb % 2 ^ F.eb = n / 2 ^ F.fb % 2 ^ F.eb ∧ F.withSign neg n % 2 ^ F.fb = n % 2 ^ F.fb := by
  have split : F.signBit = 2 ^ F.eb * 2 ^ F.fb := by rw [FFmt.signBit, Nat.pow_add]
  cases neg
  · simp [FFmt.withSign]
  · simp [FFmt.withSign, split, Nat.add_mul_div_right _ _ (Nat.two_pow_pos F.fb)]

/-- A magnitude code is finite where it is at most the largest finite one, and its significand and scale then give its value. -/
theorem FFmt.val_withSign (h : F.HasFields) {neg : Bool} {n : Nat} (le : n ≤ F.maxCode) :
    F.val (F.withSign neg n) = .dy neg (F.sig n) (F.emin - F.fb + F.scale n) := by
  have lt := le.trans_lt F.maxCode_lt
  have whole := Nat.div_add_mod n (2 ^ F.fb)
  have rest := Nat.mod_lt n (Nat.two_pow_pos F.fb)
  have field : n / 2 ^ F.fb < 2 ^ F.eb := Nat.div_lt_of_lt_mul (by rwa [FFmt.signBit, Nat.add_comm, Nat.pow_add] at lt)
  have parts := F.scale_add_sig n
  have ebig := Nat.one_lt_two_pow h.eb_pos.ne'
  have fbig := Nat.one_lt_two_pow h.fb_pos.ne'
  have finite : ¬ (n / 2 ^ F.fb = 2 ^ F.eb - 1 ∧ F.hasInf = true) ∧ ¬ (n / 2 ^ F.fb = 2 ^ F.eb - 1 ∧ n % 2 ^ F.fb = 2 ^ F.fb - 1) := by
    unfold FFmt.maxCode at le
    refine ⟨fun ⟨top, inf⟩ => ?_, fun ⟨top, ones⟩ => ?_⟩
    · rw [if_pos inf, ← top] at le
      have : 0 < n / 2 ^ F.fb * 2 ^ F.fb := Nat.mul_pos (by omega) (by omega)
      have := Nat.div_mul_le_self n (2 ^ F.fb)
      omega
    · have all : n + 1 = 2 ^ (F.eb + F.fb) := by
        rw [← whole, top, ones, Nat.pow_add, Nat.mul_comm _ (2 ^ F.fb), Nat.mul_sub]
        have : 2 ^ F.fb * 1 ≤ 2 ^ F.fb * 2 ^ F.eb := Nat.mul_le_mul_left _ ebig.le
        omega
      split at le
      · rw [Nat.sub_mul, ← Nat.pow_add] at le; omega
      · omega
  unfold FFmt.val
  simp only [F.withSign_fields, (FFmt.withSign_parts lt).1, Nat.mod_eq_of_lt field, if_neg finite.1, if_neg finite.2]
  split
  · rename_i zero
    have scale : F.scale n = 0 := by simp [FFmt.scale, zero]
    rw [zero] at whole
    rw [scale] at parts
    simp only [scale, Nat.cast_zero, add_zero]
    congr 1
    omega
  · rename_i nonzero
    obtain ⟨k, succ⟩ := Nat.exists_eq_succ_of_ne_zero nonzero
    have scale : F.scale n = k := by simp [FFmt.scale, succ]
    rw [succ, Nat.succ_eq_add_one, Nat.mul_add, Nat.mul_comm _ k] at whole
    rw [scale] at parts
    rw [scale, succ]
    congr 1
    · omega
    · simp only [FFmt.emin]; push_cast; ring

/-- A magnitude code above the largest finite one stands for no finite value. -/
theorem FFmt.val_withSign_special (h : F.HasFields) {neg : Bool} {n : Nat} (gt : F.maxCode < n) (lt : n < F.signBit) (b : Bool) (m : Nat) (e : Int) :
    F.val (F.withSign neg n) ≠ .dy b m e := by
  have whole := Nat.div_add_mod n (2 ^ F.fb)
  have rest := Nat.mod_lt n (Nat.two_pow_pos F.fb)
  have pos := Nat.two_pow_pos F.eb
  have field : n / 2 ^ F.fb < 2 ^ F.eb := Nat.div_lt_of_lt_mul (by rwa [FFmt.signBit, Nat.add_comm, Nat.pow_add] at lt)
  have fpos := Nat.two_pow_pos F.fb
  have top : n / 2 ^ F.fb = 2 ^ F.eb - 1 := by
    have : 2 ^ F.eb - 1 ≤ n / 2 ^ F.fb := by
      rw [Nat.le_div_iff_mul_le fpos]
      unfold FFmt.maxCode at gt
      split at gt
      · omega
      · have fbig := Nat.one_lt_two_pow h.fb_pos.ne'
        have : 2 ^ F.fb * 1 ≤ 2 ^ F.fb * 2 ^ F.eb := Nat.mul_le_mul_left _ pos
        rw [Nat.sub_mul, ← Nat.pow_add]
        omega
    omega
  unfold FFmt.val
  simp only [F.withSign_fields, Nat.mod_eq_of_lt field]
  simp only [top, true_and]
  split
  · split <;> simp
  · rename_i noInf
    have ones : n % 2 ^ F.fb = 2 ^ F.fb - 1 := by
      unfold FFmt.maxCode at gt
      rw [if_neg noInf] at gt
      unfold FFmt.signBit at lt
      rw [Nat.pow_add] at lt gt
      have : 2 ^ F.fb * (2 ^ F.eb - 1) = 2 ^ F.eb * 2 ^ F.fb - 2 ^ F.fb := by rw [Nat.mul_sub, Nat.mul_comm, Nat.mul_one]
      rw [top, this] at whole
      have : 1 * 2 ^ F.fb ≤ 2 ^ F.eb * 2 ^ F.fb := Nat.mul_le_mul_right _ pos
      omega
    rw [if_pos ones]
    simp

/-- −1 for a negative sign, else 1. -/
def signOf (neg : Bool) : ℚ := if neg then -1 else 1

theorem dyadic_eq (neg : Bool) (m : Nat) (e : Int) : dyadic neg m e = signOf neg * ((m : ℚ) * (2 : ℚ) ^ e) := by
  rw [dyadic, signOf, mul_assoc]

/-- A code stands for the finite value y just where it is a finite magnitude code with a sign and y is its magnitude with that sign. -/
theorem codeValue_iff (h : F.HasFields) {c : Nat} {y : ℚ} :
    codeValue F c y ↔ ∃ neg, ∃ n ≤ F.maxCode, c = F.withSign neg n ∧ y = signOf neg * F.mag n := by
  constructor
  · rintro ⟨lt, neg, m, e, val, rfl⟩
    obtain ⟨b, n, small, rfl⟩ := FFmt.exists_withSign lt
    have le : n ≤ F.maxCode := not_lt.1 fun gt => FFmt.val_withSign_special h gt small _ _ _ val
    rw [FFmt.val_withSign h le] at val
    cases val
    exact ⟨_, n, le, rfl, dyadic_eq _ _ _⟩
  · rintro ⟨neg, n, le, rfl, rfl⟩
    exact ⟨(FFmt.withSign_parts (le.trans_lt F.maxCode_lt)).2.2, neg, _, _, FFmt.val_withSign h le, (dyadic_eq _ _ _).symm⟩

/-- The largest finite magnitude. -/
theorem codeValue_maxCode (h : F.HasFields) {y : ℚ} : codeValue F F.maxCode y ↔ y = F.mag F.maxCode := by
  have lt := F.maxCode_lt
  constructor
  · rw [codeValue_iff h]
    rintro ⟨neg, n, le, code, rfl⟩
    cases neg
    · rw [show F.maxCode = n from code, signOf]; simp
    · simp only [FFmt.withSign, if_true] at code; omega
  · rintro rfl
    exact (codeValue_iff h).2 ⟨false, _, le_rfl, rfl, by simp [signOf]⟩

/-- v is in a format's finite range just where its magnitude is at most the largest finite one. -/
theorem finiteIn_iff (h : F.HasFields) {v : ℚ} : finiteIn F v ↔ v ≠ 0 ∧ |v| ≤ F.mag F.maxCode := by
  simp [finiteIn, codeValue_maxCode h]

/-- The value of a code is one value. -/
theorem codeValue_unique {c : Nat} {y z : ℚ} (hy : codeValue F c y) (hz : codeValue F c z) : y = z := by
  obtain ⟨_, a, m, e, val, rfl⟩ := hy
  obtain ⟨_, b, n, f, same, rfl⟩ := hz
  rw [val] at same
  cases same
  rfl

end Sys2Proof
end

section
/-! Rounding (R61): the two codes about an exact value, and which of them each mode takes. -/

namespace Sys2Proof

open Machine

variable {F : FFmt}

/-! ### The choice between two neighbouring codes -/

/-- `up` says that mode takes code n + 1 and not n for a value x of magnitude X that lies from the one up to the other. -/
structure RoundsBetween (F : FFmt) (mode : Rm) (neg : Bool) (X : ℚ) (n : Nat) (up : Bool) : Prop where
  low : F.mag n ≤ X
  high : X < F.mag (n + 1)
  exact_ : X = F.mag n → up = false
  rtz : mode = .rtz → up = false
  rdn : mode = .rdn → X ≠ F.mag n → up = neg
  rup : mode = .rup → X ≠ F.mag n → up = !neg
  nearLow : mode = .rne → up = false → 2 * X ≤ F.mag n + F.mag (n + 1) ∧ (2 * X = F.mag n + F.mag (n + 1) → n % 2 = 0)
  nearHigh : mode = .rne → up = true → F.mag n + F.mag (n + 1) ≤ 2 * X ∧ (F.mag n + F.mag (n + 1) = 2 * X → (n + 1) % 2 = 0)

theorem signOf_mul_self (neg : Bool) : signOf neg * signOf neg = 1 := by cases neg <;> norm_num [signOf]

/-- No code of either sign stands between neighbours. -/
theorem codeValue_outside (h : F.HasFields) {c : Nat} {z : ℚ} (cv : codeValue F c z) (neg : Bool) (n : Nat) :
    signOf neg * z ≤ F.mag n ∨ F.mag (n + 1) ≤ signOf neg * z := by
  obtain ⟨b, j, -, -, rfl⟩ := (codeValue_iff h).1 cv
  obtain rfl | differs := eq_or_ne b neg
  · rw [← mul_assoc, signOf_mul_self, one_mul]
    exact (Nat.lt_or_ge n j).symm.imp (fun le => F.mag_strictMono.monotone le) (fun lt => F.mag_strictMono.monotone lt)
  · left
    have opposite : signOf neg * signOf b = -1 := by revert differs; cases neg <;> cases b <;> norm_num [signOf]
    rw [← mul_assoc, opposite]
    linarith [F.mag_nonneg n, F.mag_nonneg j]

theorem FFmt.withSign_mod_two (h : F.HasFields) (neg : Bool) (n : Nat) : F.withSign neg n % 2 = n % 2 := by
  obtain ⟨k, even⟩ : 2 ∣ F.signBit := dvd_pow_self 2 (by have := h.eb_pos; omega)
  unfold FFmt.withSign
  split <;> omega

/-- The code that is taken between neighbours is the value rounded in the mode (R61). -/
theorem RoundsBetween.roundsTo {mode : Rm} {neg up : Bool} {X : ℚ} {n : Nat} (b : RoundsBetween F mode neg X n up) (h : F.HasFields)
    (top : n + up.toNat ≤ F.maxCode) : roundsTo F mode (signOf neg * X) (F.withSign neg (n + up.toNat)) := by
  have nonneg : 0 ≤ X := (F.mag_nonneg n).trans b.low
  have size : ∀ z : ℚ, |signOf neg * z| = |z| := fun z => by cases neg <;> simp [signOf]
  have near : ∀ z : ℚ, |z - signOf neg * X| = |signOf neg * z - X| := fun z => by
    rw [← size (z - _), mul_sub, ← mul_assoc, signOf_mul_self, one_mul]
  have back : ∀ z : ℚ, signOf neg * (signOf neg * z) = z := fun z => by rw [← mul_assoc, signOf_mul_self, one_mul]
  have below : ∀ k z, codeValue F k z → signOf neg * z ≤ X → signOf neg * z ≤ F.mag n := fun k z cv le =>
    (codeValue_outside h cv neg n).resolve_right (not_le.2 (le.trans_lt b.high))
  have above : X ≠ F.mag n → ∀ k z, codeValue F k z → X ≤ signOf neg * z → F.mag (n + 1) ≤ signOf neg * z := fun ne k z cv le =>
    (codeValue_outside h cv neg n).resolve_left (not_le.2 ((lt_of_le_of_ne b.low ne.symm).trans_le le))
  refine ⟨signOf neg * F.mag (n + up.toNat), (codeValue_iff h).2 ⟨neg, _, top, rfl, rfl⟩, ?_⟩
  cases mode with
  | rtz =>
    obtain rfl := b.rtz rfl
    refine ⟨?_, ?_, fun k z cv le _ => ?_⟩
    · rw [size, size, abs_of_nonneg (F.mag_nonneg _), abs_of_nonneg nonneg]; exact b.low
    · rw [mul_mul_mul_comm, signOf_mul_self, one_mul]; exact mul_nonneg nonneg (F.mag_nonneg _)
    · obtain ⟨s, j, -, -, rfl⟩ := (codeValue_iff h).1 cv
      have bare : |signOf s * F.mag j| = F.mag j := by cases s <;> simp [signOf, abs_of_nonneg (F.mag_nonneg _)]
      rw [size, abs_of_nonneg nonneg, bare] at le
      rw [size, abs_of_nonneg (F.mag_nonneg _), bare]
      exact F.mag_strictMono.monotone (Nat.lt_succ_iff.1 (F.mag_strictMono.lt_iff_lt.1 (le.trans_lt b.high)))
  | rdn =>
    obtain same | ne := eq_or_ne X (F.mag n)
    · obtain rfl := b.exact_ same
      rw [same]
      exact ⟨le_rfl, fun _ _ _ le => le⟩
    · obtain rfl := b.rdn rfl ne
      cases up
      · simp only [signOf, Bool.false_eq_true, if_false, one_mul] at below ⊢
        exact ⟨b.low, below⟩
      · simp only [signOf, if_true, neg_one_mul] at above ⊢
        exact ⟨neg_le_neg b.high.le, fun k z cv le => le_neg_of_le_neg (above ne k z cv (le_neg_of_le_neg le))⟩
  | rup =>
    obtain same | ne := eq_or_ne X (F.mag n)
    · obtain rfl := b.exact_ same
      rw [same]
      exact ⟨le_rfl, fun _ _ _ le => le⟩
    · obtain rfl : neg = !up := by rw [b.rup rfl ne, Bool.not_not]
      cases up
      · simp only [signOf, Bool.not_false, if_true, neg_one_mul] at below ⊢
        exact ⟨neg_le_neg b.low, fun k z cv le => neg_le_of_neg_le (below k z cv (neg_le_of_neg_le le))⟩
      · simp only [signOf, Bool.not_true, Bool.false_eq_true, if_false, one_mul] at above ⊢
        exact ⟨b.high.le, above ne⟩
  | rne =>
    intro k z cv
    have low := b.low
    have high := b.high
    have other : z ≠ signOf neg * F.mag (n + up.toNat) → signOf neg * z ≠ F.mag (n + up.toNat) := fun ne eq => ne (by rw [← eq, back])
    rw [near, near, back, FFmt.withSign_mod_two h]
    cases up with
    | false =>
      obtain ⟨half, tie⟩ := b.nearLow rfl rfl
      simp only [Bool.toNat_false, Nat.add_zero] at other ⊢
      rw [abs_sub_comm, abs_of_nonneg (sub_nonneg.2 low)]
      obtain le | ge := codeValue_outside h cv neg n
      · rw [abs_sub_comm, abs_of_nonneg (by linarith)]
        exact ⟨by linarith, fun eq ne => absurd (by linarith) (other ne)⟩
      · rw [abs_of_nonneg (by linarith)]
        exact ⟨by linarith, fun eq _ => tie (by linarith)⟩
    | true =>
      obtain ⟨half, tie⟩ := b.nearHigh rfl rfl
      simp only [Bool.toNat_true] at other ⊢
      rw [abs_of_nonneg (sub_nonneg.2 high.le)]
      obtain le | ge := codeValue_outside h cv neg n
      · rw [abs_sub_comm, abs_of_nonneg (by linarith)]
        exact ⟨by linarith, fun eq _ => tie (by linarith)⟩
      · rw [abs_of_nonneg (by linarith)]
        exact ⟨by linarith, fun eq ne => absurd (by linarith) (other ne)⟩

/-! ### The neighbours of an exact value, and the model's choice -/

/-- The weight of the last place that a value (m, e) keeps in the format. -/
def roundPlace (F : FFmt) (m : Nat) (e : Int) : Int := max ((Nat.log2 m : Int) + e) F.emin - F.fb

/-- The significand cut at that place. -/
def roundCut (F : FFmt) (m : Nat) (e : Int) : Nat := (splitAt2 m (roundPlace F m e - e)).1

/-- What the cut leaves. -/
def roundRest (F : FFmt) (m : Nat) (e : Int) : Nat := (splitAt2 m (roundPlace F m e - e)).2

/-- The greatest magnitude code that does not pass the value (m, e). -/
def roundBase (F : FFmt) (m : Nat) (e : Int) : Nat := (roundPlace F m e + F.fb - F.emin).toNat * 2 ^ F.fb + roundCut F m e

/-- Does the mode take the next code? -/
def roundCarry (F : FFmt) (mode : Rm) (neg : Bool) (m : Nat) (e : Int) (st : Bool) : Bool :=
  !decide (roundRest F m e = 0 ∧ st = false) && roundsUp mode neg (roundCut F m e) (roundRest F m e) (roundPlace F m e - e) st

/-- A cut takes a number apart. -/
theorem splitAt2_parts (m : Nat) (s : Int) :
    (m : ℚ) = (splitAt2 m s).1 * (2 : ℚ) ^ s + (splitAt2 m s).2 ∧ ((splitAt2 m s).2 = 0 ∨ 0 < s ∧ (splitAt2 m s).2 < 2 ^ s.toNat) := by
  unfold splitAt2
  split
  · rename_i le
    refine ⟨?_, .inl rfl⟩
    obtain ⟨j, rfl⟩ : ∃ j : Nat, s = -j := ⟨(-s).toNat, by omega⟩
    simp
  · rename_i gt
    obtain ⟨j, rfl⟩ : ∃ j : Nat, s = j := ⟨s.toNat, by omega⟩
    refine ⟨?_, .inr ⟨by omega, Nat.mod_lt _ (Nat.two_pow_pos _)⟩⟩
    rw [zpow_natCast, mul_comm]
    exact_mod_cast (Nat.div_add_mod m (2 ^ j)).symm

/-- X lies at (m, e), or with a sticky bit strictly between it and the next multiple of 2^e, where the place kept is above e. -/
def liesAt (F : FFmt) (X : ℚ) (m : Nat) (e : Int) (st : Bool) : Prop :=
  if st = true then e < roundPlace F m e ∧ m * (2 : ℚ) ^ e < X ∧ X < (m + 1) * (2 : ℚ) ^ e else X = m * (2 : ℚ) ^ e

/-- The cut significand has its leading place but at the lowest scale, and no more than that. -/
theorem roundCut_bounds {m : Nat} {e : Int} (pos : m ≠ 0) :
    roundCut F m e < 2 * 2 ^ F.fb ∧ ((roundPlace F m e + F.fb - F.emin).toNat = 0 ∨ 2 ^ F.fb ≤ roundCut F m e) := by
  obtain ⟨parts, rest⟩ := splitAt2_parts m (roundPlace F m e - e)
  have two : (1 : ℚ) ≤ 2 := one_le_two
  have unit : (0 : ℚ) < (2 : ℚ) ^ (roundPlace F m e - e) := zpow_pos two_pos _
  have left : ((splitAt2 m (roundPlace F m e - e)).2 : ℚ) < (2 : ℚ) ^ (roundPlace F m e - e) := by
    obtain none_ | ⟨above, lt⟩ := rest
    · rw [none_]; exact_mod_cast unit
    · calc ((splitAt2 m (roundPlace F m e - e)).2 : ℚ) < ((2 ^ (roundPlace F m e - e).toNat : Nat) : ℚ) := by exact_mod_cast lt
        _ = _ := by rw [Nat.cast_pow, ← zpow_natCast, Int.toNat_of_nonneg above.le]; rfl
  have low : (2 : ℚ) ^ (Nat.log2 m : Int) ≤ m := by rw [zpow_natCast]; exact_mod_cast Nat.log2_self_le pos
  have high : (m : ℚ) < (2 : ℚ) ^ ((Nat.log2 m : Int) + 1) := by
    rw [show ((Nat.log2 m : Int) + 1) = ((Nat.log2 m + 1 : Nat) : Int) by push_cast; ring, zpow_natCast]
    exact_mod_cast Nat.lt_log2_self
  change (m : ℚ) = roundCut F m e * _ + roundRest F m e at parts
  change (roundRest F m e : ℚ) < _ at left
  refine ⟨?_, or_iff_not_imp_left.2 fun up => ?_⟩
  · by_contra! big
    have big : (2 : ℚ) ^ ((F.fb : Int) + 1) ≤ roundCut F m e := by
      rw [zpow_add_one₀ two_ne_zero, zpow_natCast, mul_comm]; exact_mod_cast big
    have place : (Nat.log2 m : Int) + 1 ≤ (F.fb : Int) + 1 + (roundPlace F m e - e) := by unfold roundPlace; omega
    have := calc (m : ℚ) < (2 : ℚ) ^ ((Nat.log2 m : Int) + 1) := high
      _ ≤ (2 : ℚ) ^ ((F.fb : Int) + 1 + (roundPlace F m e - e)) := zpow_le_zpow_right₀ two place
      _ = (2 : ℚ) ^ ((F.fb : Int) + 1) * (2 : ℚ) ^ (roundPlace F m e - e) := zpow_add₀ two_ne_zero _ _
      _ ≤ roundCut F m e * (2 : ℚ) ^ (roundPlace F m e - e) := mul_le_mul_of_nonneg_right big unit.le
    have : (0 : ℚ) ≤ roundRest F m e := Nat.cast_nonneg _
    linarith
  · have place : (F.fb : Int) + (roundPlace F m e - e) = Nat.log2 m := by unfold roundPlace at up ⊢; omega
    have := calc (2 : ℚ) ^ (F.fb : Int) * (2 : ℚ) ^ (roundPlace F m e - e) = (2 : ℚ) ^ (Nat.log2 m : Int) := by rw [← zpow_add₀ two_ne_zero, place]
      _ ≤ m := low
      _ < (roundCut F m e + 1) * (2 : ℚ) ^ (roundPlace F m e - e) := by rw [parts]; linarith
    have := lt_of_mul_lt_mul_right this unit.le
    rw [zpow_natCast] at this
    exact Nat.lt_succ_iff.1 (by exact_mod_cast this)

/-- The two codes about a value, in units of the last place kept. -/
theorem mag_roundBase {m : Nat} {e : Int} (pos : m ≠ 0) :
    F.mag (roundBase F m e) = roundCut F m e * (2 : ℚ) ^ roundPlace F m e
      ∧ F.mag (roundBase F m e + 1) = (roundCut F m e + 1) * (2 : ℚ) ^ roundPlace F m e := by
  obtain ⟨lt, lead⟩ := roundCut_bounds (F := F) (e := e) pos
  have place : F.emin - F.fb + ((roundPlace F m e + F.fb - F.emin).toNat : Int) = roundPlace F m e := by unfold roundPlace; omega
  refine ⟨?_, ?_⟩
  · rw [roundBase, FFmt.mag_scaled lead (by omega), place]
  · rw [roundBase, Nat.add_assoc, FFmt.mag_scaled (lead.imp_right Nat.le_succ_of_le) lt, place]
    push_cast
    rfl

/-- What roundsUp says where there is a remainder to round away. -/
theorem roundsUp_rne {neg st : Bool} {lo rem : Nat} {s : Int} (pos : 0 < s) :
    (roundsUp .rne neg lo rem s st = false → rem < 2 ^ (s.toNat - 1) ∨ rem = 2 ^ (s.toNat - 1) ∧ st = false ∧ lo % 2 = 0)
      ∧ (roundsUp .rne neg lo rem s st = true → 2 ^ (s.toNat - 1) < rem ∨ rem = 2 ^ (s.toNat - 1) ∧ (st = true ∨ lo % 2 = 1)) := by
  have half := Nat.two_pow_pos (s.toNat - 1)
  simp only [roundsUp, if_neg (not_le.2 pos), if_neg half.ne']
  obtain lt | eq | gt := lt_trichotomy rem (2 ^ (s.toNat - 1))
  · simp [lt]
  · cases st <;> simp [eq]
  · simp [gt, not_lt.2 gt.le]

/-- Where X lies against the cut significand, in units u of the value's own last place. -/
theorem liesAt_cut {X : ℚ} {st : Bool} {m : Nat} {e : Int} (at_ : liesAt F X m e st) :
    let base := roundCut F m e * (2 : ℚ) ^ roundPlace F m e + roundRest F m e * (2 : ℚ) ^ e
    (st = false ∧ X = base) ∨ (st = true ∧ e < roundPlace F m e ∧ base < X ∧ X < base + (2 : ℚ) ^ e) := by
  have parts : (m : ℚ) = roundCut F m e * (2 : ℚ) ^ (roundPlace F m e - e) + roundRest F m e := (splitAt2_parts m (roundPlace F m e - e)).1
  have base : (m : ℚ) * (2 : ℚ) ^ e = roundCut F m e * (2 : ℚ) ^ roundPlace F m e + roundRest F m e * (2 : ℚ) ^ e := by
    rw [parts, add_mul, mul_assoc, ← zpow_add₀ two_ne_zero, sub_add_cancel]
  rw [← base]
  cases st
  · exact .inl ⟨rfl, at_⟩
  · obtain ⟨fine, above, below⟩ := at_
    exact .inr ⟨rfl, fine, above, by linarith⟩

/-- A value that stands at a code is kept. -/
theorem RoundsBetween.of_exact {X : ℚ} {n : Nat} (mode : Rm) (neg : Bool) (same : X = F.mag n) : RoundsBetween F mode neg X n false := by
  have gap : F.mag n < F.mag (n + 1) := F.mag_strictMono (Nat.lt_succ_self _)
  exact ⟨same.ge, same ▸ gap, fun _ => rfl, fun _ => rfl, fun _ ne => absurd same ne, fun _ ne => absurd same ne,
      fun _ _ => ⟨by linarith, fun eq => absurd eq (by linarith)⟩, fun _ no => nomatch no⟩

/-- The parity of the code below is that of the cut significand. -/
theorem roundBase_mod_two (h : F.HasFields) (m : Nat) (e : Int) : roundBase F m e % 2 = roundCut F m e % 2 := by
  obtain ⟨k, even⟩ : 2 ∣ (roundPlace F m e + F.fb - F.emin).toNat * 2 ^ F.fb := Dvd.dvd.mul_left (dvd_pow_self 2 h.fb_pos.ne') _
  rw [roundBase, even]
  omega

/-- A value that stands at no code is rounded away or to nearest as the mode says. -/
theorem RoundsBetween.of_inexact {X : ℚ} {neg st : Bool} {m : Nat} {e : Int} (mode : Rm) (h : F.HasFields) (pos : m ≠ 0) (at_ : liesAt F X m e st)
    (part : ¬ (roundRest F m e = 0 ∧ st = false)) :
    X ≠ F.mag (roundBase F m e) ∧ RoundsBetween F mode neg X (roundBase F m e)
      (roundsUp mode neg (roundCut F m e) (roundRest F m e) (roundPlace F m e - e) st) := by
  obtain ⟨low, high⟩ := mag_roundBase (F := F) (e := e) pos
  have cut := liesAt_cut at_
  have unit : (0 : ℚ) < (2 : ℚ) ^ e := zpow_pos two_pos _
  obtain ⟨deep, lt⟩ : 0 < roundPlace F m e - e ∧ roundRest F m e < 2 ^ (roundPlace F m e - e).toNat := by
    obtain none_ | deep := (splitAt2_parts m (roundPlace F m e - e)).2
    · obtain ⟨off, -⟩ | ⟨-, fine, -⟩ := cut
      · exact absurd ⟨none_, off⟩ part
      · exact ⟨by omega, by rw [roundRest, none_]; exact Nat.two_pow_pos _⟩
    · exact deep
  obtain ⟨H, half⟩ : ∃ H, H = 2 ^ ((roundPlace F m e - e).toNat - 1) := ⟨_, rfl⟩
  have twice : 2 ^ (roundPlace F m e - e).toNat = 2 * H := by rw [half, ← pow_succ']; congr 1; omega
  have wide : (2 : ℚ) ^ roundPlace F m e = 2 * (H * (2 : ℚ) ^ e) := by
    rw [← mul_assoc, ← Nat.cast_ofNat (R := ℚ) (n := 2), ← Nat.cast_mul, ← twice, Nat.cast_pow, ← zpow_natCast, Int.toNat_of_nonneg deep.le,
      Nat.cast_ofNat, ← zpow_add₀ two_ne_zero, sub_add_cancel]
  have scaled : ∀ {a b : Nat}, a ≤ b → (a : ℚ) * (2 : ℚ) ^ e ≤ b * (2 : ℚ) ^ e := fun le => mul_le_mul_of_nonneg_right (by exact_mod_cast le) unit.le
  have next : ∀ {a b : Nat}, a < b → (a : ℚ) * (2 : ℚ) ^ e + (2 : ℚ) ^ e ≤ b * (2 : ℚ) ^ e := fun lt => by
    have := scaled (Nat.succ_le_iff.2 lt)
    push_cast at this
    linarith
  have inside := next (twice ▸ lt)
  push_cast at inside
  obtain ⟨keep, take⟩ := roundsUp_rne (neg := neg) (st := st) (lo := roundCut F m e) (rem := roundRest F m e) deep
  rw [← half] at keep take
  obtain ⟨below, above⟩ : roundCut F m e * (2 : ℚ) ^ roundPlace F m e < X
      ∧ X < roundCut F m e * (2 : ℚ) ^ roundPlace F m e + roundRest F m e * (2 : ℚ) ^ e + (2 : ℚ) ^ e := by
    obtain ⟨off, eq⟩ | ⟨-, -, gt, lt⟩ := cut
    · have := next (Nat.pos_of_ne_zero fun none_ => part ⟨none_, off⟩)
      push_cast at this
      exact ⟨by linarith, by linarith⟩
    · have := scaled (Nat.zero_le (roundRest F m e))
      push_cast at this
      exact ⟨by linarith, lt⟩
  have ne : X ≠ F.mag (roundBase F m e) := low ▸ below.ne'
  refine ⟨ne, ⟨low ▸ below.le, by rw [high]; linarith, fun same => absurd same ne, ?rtz, ?rdn, ?rup, ?nearLow, ?nearHigh⟩⟩
  case rtz => rintro rfl; rfl
  case rdn => rintro rfl -; rfl
  case rup => rintro rfl -; rfl
  case nearLow =>
    rintro rfl up
    rw [low, high, roundBase_mod_two h]
    obtain lt | ⟨eq, off, even⟩ := keep up
    · have := next lt
      exact ⟨by linarith, fun eq => absurd eq (by linarith)⟩
    · obtain ⟨-, same⟩ | ⟨on, -⟩ := cut
      · rw [eq] at same
        exact ⟨by linarith, fun _ => even⟩
      · exact absurd (on.symm.trans off) (by decide)
  case nearHigh =>
    rintro rfl up
    have parity := roundBase_mod_two h m e
    rw [low, high]
    have least : roundCut F m e * (2 : ℚ) ^ roundPlace F m e + roundRest F m e * (2 : ℚ) ^ e ≤ X := by
      obtain ⟨-, eq⟩ | ⟨-, -, gt, -⟩ := cut
      · exact eq.ge
      · exact gt.le
    obtain gt | ⟨eq, odd⟩ := take up
    · have := next gt
      exact ⟨by linarith, fun eq => absurd eq (by linarith)⟩
    · rw [eq] at least
      refine ⟨by linarith, fun tie => ?_⟩
      obtain on | odd := odd
      · obtain ⟨off, -⟩ | ⟨-, -, gt, -⟩ := cut
        · exact absurd (on.symm.trans off) (by decide)
        · rw [eq] at gt
          linarith
      · omega

/-- The model's choice between the neighbours of X is the mode's, and X stands at the lower one just where nothing is rounded away. -/
theorem roundsBetween_roundCarry {X : ℚ} {neg st : Bool} {m : Nat} {e : Int} (mode : Rm) (h : F.HasFields) (pos : m ≠ 0) (at_ : liesAt F X m e st) :
    RoundsBetween F mode neg X (roundBase F m e) (roundCarry F mode neg m e st)
      ∧ (X = F.mag (roundBase F m e) ↔ roundRest F m e = 0 ∧ st = false) := by
  by_cases whole : roundRest F m e = 0 ∧ st = false
  · have same : X = F.mag (roundBase F m e) := by
      have cut := liesAt_cut at_
      obtain ⟨none_, rfl⟩ := whole
      simpa [none_, (mag_roundBase (F := F) (e := e) pos).1] using cut
    rw [show roundCarry F mode neg m e st = false by simp [roundCarry, whole]]
    exact ⟨.of_exact mode neg same, iff_of_true same whole⟩
  · obtain ⟨ne, between⟩ := RoundsBetween.of_inexact mode (neg := neg) h pos at_ whole
    rw [show roundCarry F mode neg m e st = roundsUp mode neg _ _ _ st by rw [roundCarry, decide_eq_false whole]; rfl]
    exact ⟨between, iff_of_false ne whole⟩

/-! ### round_to -/

/-- The packed code, as the code below the value and the carry. -/
theorem roundBase_packed {m : Nat} {e : Int} (pos : m ≠ 0) (c : Nat) :
    (if roundCut F m e + c < 2 ^ F.fb then ((roundCut F m e + c : Nat) : Int)
      else (roundPlace F m e + F.fb + F.bias) * 2 ^ F.fb + (((roundCut F m e + c : Nat) : Int) - 2 ^ F.fb)) = ((roundBase F m e + c : Nat) : Int) := by
  obtain ⟨-, lead⟩ := roundCut_bounds (F := F) (e := e) pos
  have scale : (((roundPlace F m e + F.fb - F.emin).toNat : Nat) : Int) = roundPlace F m e + F.fb - F.emin :=
    Int.toNat_of_nonneg (by unfold roundPlace; omega)
  rw [roundBase]
  push_cast [scale]
  split
  · have zero : roundPlace F m e + F.fb - F.emin = 0 := by omega
    rw [zero]
    ring
  · simp only [FFmt.emin]
    ring

/-- The code that round_to gives where it does not overflow, and when it sets NX. -/
theorem roundMag_code {mode : Rm} {sat neg st : Bool} {m : Nat} {e : Int} (pos : m ≠ 0)
    (top : roundBase F m e + (roundCarry F mode neg m e st).toNat ≤ F.maxCode) :
    (roundMag F mode sat neg m e st).1 = F.withSign neg (roundBase F m e + (roundCarry F mode neg m e st).toNat)
      ∧ ((roundMag F mode sat neg m e st).2.getLsbD 0 = true ↔ ¬ (roundRest F m e = 0 ∧ st = false)) := by
  have code := roundBase_packed (F := F) (e := e) pos (roundCarry F mode neg m e st).toNat
  have fits : ¬ (F.maxCode : Int) < ((roundBase F m e + (roundCarry F mode neg m e st).toNat : Nat) : Int) := by omega
  by_cases whole : roundRest F m e = 0 ∧ st = false
  · have carry : roundCarry F mode neg m e st = false := by simp [roundCarry, whole]
    simp only [roundCut, roundRest, roundPlace, carry, Bool.toNat_false, Nat.add_zero] at code whole fits ⊢
    simp only [roundMag, pos, reduceIte, if_pos whole, code, if_neg fits, Int.toNat_natCast]
    simp [whole, Flags.none]
  · have carry : roundCarry F mode neg m e st = roundsUp mode neg (roundCut F m e) (roundRest F m e) (roundPlace F m e - e) st := by
      rw [roundCarry, decide_eq_false whole]; rfl
    have inexact : ∀ f : Flags, (Flags.nx ||| f).getLsbD 0 = true := fun f => by simp [Flags.nx]
    cases up : roundsUp mode neg (roundCut F m e) (roundRest F m e) (roundPlace F m e - e) st <;> rw [up] at carry <;>
      simp only [roundCut, roundRest, roundPlace, carry, Bool.toNat_false, Bool.toNat_true, Nat.add_zero] at code whole fits up ⊢ <;>
      simp only [roundMag, pos, reduceIte, if_neg whole, up, Bool.false_eq_true, code, if_neg fits, Int.toNat_natCast] <;>
      exact ⟨trivial, iff_of_true (inexact _) whole⟩

theorem FFmt.infCode_lt (h : F.HasFields) : F.infCode < F.signBit := by
  have := Nat.one_lt_two_pow h.eb_pos.ne'
  rw [FFmt.infCode, FFmt.signBit, Nat.pow_add]
  exact Nat.mul_lt_mul_of_pos_right (by omega) (Nat.two_pow_pos _)

/-- What round_to gives stays among the codes of the format. -/
theorem roundMag_lt {mode : Rm} {sat neg st : Bool} {m : Nat} {e : Int} (h : F.HasFields) : (roundMag F mode sat neg m e st).1 < 2 * F.signBit := by
  have max_ := F.maxCode_lt
  have inf := F.infCode_lt h
  have sign : ∀ n, n < F.signBit → F.withSign neg n < 2 * F.signBit := fun n lt => (FFmt.withSign_parts lt).2.2
  unfold roundMag
  extract_lets
  split
  extract_lets
  split
  · exact sign _ (by split <;> assumption)
  · exact sign _ (by omega)

/-- round_to of X, which lies at (m, e), within the finite range: the rounded value, and NX just where it is not X (R61, R63). -/
theorem roundMag_roundsTo {X : ℚ} {mode : Rm} {sat neg st : Bool} {m : Nat} {e : Int} (h : F.HasFields) (pos : m ≠ 0) (at_ : liesAt F X m e st)
    (top : X ≤ F.mag F.maxCode) :
    roundsTo F mode (signOf neg * X) (roundMag F mode sat neg m e st).1
      ∧ ((roundMag F mode sat neg m e st).2.getLsbD 0 = true ↔ ¬ codeValue F (roundMag F mode sat neg m e st).1 (signOf neg * X)) := by
  obtain ⟨between, exact_⟩ := roundsBetween_roundCarry mode (neg := neg) h pos at_
  have le : roundBase F m e ≤ F.maxCode := F.mag_strictMono.le_iff_le.1 (between.low.trans top)
  have le : roundBase F m e + (roundCarry F mode neg m e st).toNat ≤ F.maxCode := by
    obtain same | lt := le.eq_or_lt
    · have kept := between.exact_ (le_antisymm (same ▸ top) between.low)
      rw [kept, Bool.toNat_false]
      exact same.le
    · have := (roundCarry F mode neg m e st).toNat_le
      omega
  obtain ⟨code, nx⟩ := roundMag_code (sat := sat) pos le
  rw [code, nx]
  refine ⟨between.roundsTo h le, not_congr (exact_.symm.trans ⟨fun same => ?_, fun cv => ?_⟩)⟩
  · rw [between.exact_ same, same]
    exact (codeValue_iff h).2 ⟨neg, _, by simpa [between.exact_ same] using le, rfl, rfl⟩
  · have value := codeValue_unique cv ((codeValue_iff h).2 ⟨neg, _, le, rfl, rfl⟩)
    have value : X = F.mag (roundBase F m e + (roundCarry F mode neg m e st).toNat) := by
      have := congrArg (signOf neg * ·) value
      simpa only [← mul_assoc, signOf_mul_self, one_mul] using this
    cases carry : roundCarry F mode neg m e st with
    | false => simpa [carry] using value
    | true =>
      rw [carry] at value
      exact absurd value between.high.ne

/-- round_to of an exact value within the finite range (R61, R63). -/
theorem roundMag_dyadic {mode : Rm} {sat neg : Bool} {m : Nat} {e : Int} (h : F.HasFields) (range : finiteIn F (dyadic neg m e)) :
    roundsTo F mode (dyadic neg m e) (roundMag F mode sat neg m e false).1
      ∧ ((roundMag F mode sat neg m e false).2.getLsbD 0 = true ↔ ¬ codeValue F (roundMag F mode sat neg m e false).1 (dyadic neg m e)) := by
  obtain ⟨nonzero, top⟩ := (finiteIn_iff h).1 range
  have pos : m ≠ 0 := by rintro rfl; exact nonzero (by simp [dyadic])
  rw [dyadic_eq] at top ⊢
  have size : |signOf neg * ((m : ℚ) * (2 : ℚ) ^ e)| = m * (2 : ℚ) ^ e := by
    have : (0 : ℚ) ≤ m * (2 : ℚ) ^ e := by positivity
    cases neg <;> simp [signOf, abs_of_nonneg this]
  exact roundMag_roundsTo h pos rfl (size ▸ top)

end Sys2Proof
end

section
/-! The basic operations (R62): sums, differences, products and fused sums of finite values, exact and then rounded once. -/

namespace Sys2Proof

open Machine

variable {F : FFmt} {mode : Rm} {sat : Bool}

/-- The number stands for the finite value y. -/
def Num.HasValue (v : Num) (y : ℚ) : Prop := ∃ neg m e, v = .dy neg m e ∧ y = dyadic neg m e

theorem dyadic_not (neg : Bool) (m : Nat) (e : Int) : dyadic (!neg) m e = -dyadic neg m e := by
  cases neg <;> simp [dyadic]

theorem dyadic_mul (a b : Bool) (m n : Nat) (e f : Int) : dyadic a m e * dyadic b n f = dyadic (a != b) (m * n) (e + f) := by
  rw [dyadic, dyadic, dyadic, zpow_add₀ two_ne_zero]
  cases a <;> cases b <;> simp <;> ring

/-- An integer v against 2^e, as a sign and a magnitude. -/
theorem dyadic_natAbs (v e : Int) : dyadic (decide (v < 0)) v.natAbs e = v * (2 : ℚ) ^ e := by
  obtain neg | nonneg := lt_or_ge v 0
  · simp [dyadic, neg, abs_of_neg neg]
  · simp [dyadic, not_lt.2 nonneg, abs_of_nonneg nonneg]

/-- A value written against a smaller exponent. -/
theorem signedAt_value {neg : Bool} {m : Nat} {e f : Int} (le : f ≤ e) : (signedAt neg m e f : ℚ) * (2 : ℚ) ^ f = dyadic neg m e := by
  have shift : ((m * 2 ^ (e - f).toNat : Nat) : ℚ) * (2 : ℚ) ^ f = m * (2 : ℚ) ^ e := by
    rw [Nat.cast_mul, Nat.cast_pow, Nat.cast_ofNat, ← zpow_natCast, Int.toNat_of_nonneg (sub_nonneg.2 le), mul_assoc, ← zpow_add₀ two_ne_zero,
      sub_add_cancel]
  have whole : (((m * 2 ^ (e - f).toNat : Nat) : Int) : ℚ) * (2 : ℚ) ^ f = m * (2 : ℚ) ^ e := by rw [Int.cast_natCast]; exact shift
  rw [dyadic_eq, ← whole]
  cases neg <;> simp [signedAt, signOf]

/-- round_to of an exact value in its signed form. -/
theorem roundInt_roundsTo {v e : Int} (h : F.HasFields) (range : finiteIn F (v * (2 : ℚ) ^ e)) :
    roundsTo F mode (v * (2 : ℚ) ^ e) (roundInt F mode sat v e false).1 := by
  rw [← dyadic_natAbs] at range ⊢
  rw [roundInt, if_neg (by simp)]
  exact (roundMag_dyadic h range).1

/-- x + y rounded once (R62). -/
theorem fpAdd_roundsTo {u v : Num} {x y : ℚ} (h : F.HasFields) (hx : u.HasValue x) (hy : v.HasValue y) (range : finiteIn F (x + y)) :
    roundsTo F mode (x + y) (fpAdd F mode sat u v).1 := by
  obtain ⟨a, m, e, rfl, rfl⟩ := hx
  obtain ⟨b, n, f, rfl, rfl⟩ := hy
  have sum : dyadic a m e + dyadic b n f = ((signedAt a m e (min e f) + signedAt b n f (min e f) : Int) : ℚ) * (2 : ℚ) ^ min e f := by
    rw [Int.cast_add, add_mul, signedAt_value (min_le_left _ _), signedAt_value (min_le_right _ _)]
  rw [sum] at range ⊢
  have nonzero : signedAt a m e (min e f) + signedAt b n f (min e f) ≠ 0 := fun zero => range.1 (by rw [zero]; simp)
  simp only [fpAdd, firstNaN, addDy, if_neg nonzero]
  exact roundInt_roundsTo h range

/-- x − y rounded once (R62). -/
theorem fpSub_roundsTo {u v : Num} {x y : ℚ} (h : F.HasFields) (hx : u.HasValue x) (hy : v.HasValue y) (range : finiteIn F (x - y)) :
    roundsTo F mode (x - y) (fpSub F mode sat u v).1 := by
  have minus : v.neg.HasValue (-y) := by
    obtain ⟨b, n, f, rfl, rfl⟩ := hy
    exact ⟨!b, n, f, rfl, (dyadic_not b n f).symm⟩
  have same : fpSub F mode sat u v = fpAdd F mode sat u v.neg := by
    obtain ⟨_, _, _, rfl, -⟩ := hx
    obtain ⟨_, _, _, rfl, -⟩ := hy
    rfl
  rw [same]
  rw [sub_eq_add_neg] at range ⊢
  exact fpAdd_roundsTo h hx minus range

/-- The product of two finite values is exact (R62). -/
theorem mulNum_hasValue {u v : Num} {x y : ℚ} (hx : u.HasValue x) (hy : v.HasValue y) : ∃ p, mulNum u v = some p ∧ p.HasValue (x * y) := by
  obtain ⟨a, m, e, rfl, rfl⟩ := hx
  obtain ⟨b, n, f, rfl, rfl⟩ := hy
  exact ⟨_, rfl, _, _, _, rfl, dyadic_mul a b m n e f⟩

/-- x × y rounded once (R62). -/
theorem fpMul_roundsTo {u v : Num} {x y : ℚ} (h : F.HasFields) (hx : u.HasValue x) (hy : v.HasValue y) (range : finiteIn F (x * y)) :
    roundsTo F mode (x * y) (fpMul F mode sat u v).1 := by
  obtain ⟨a, m, e, rfl, rfl⟩ := hx
  obtain ⟨b, n, f, rfl, rfl⟩ := hy
  rw [dyadic_mul] at range ⊢
  have nonzero : m * n ≠ 0 := fun zero => range.1 (by rw [zero]; simp [dyadic])
  simp only [fpMul, firstNaN, mulNum, if_neg nonzero]
  exact (roundMag_dyadic h range).1

/-- x × y + z rounded once (R62). -/
theorem fpFma_roundsTo {u v w : Num} {x y z : ℚ} (h : F.HasFields) (hx : u.HasValue x) (hy : v.HasValue y) (hz : w.HasValue z)
    (range : finiteIn F (x * y + z)) : roundsTo F mode (x * y + z) (fpFma F mode sat u v w).1 := by
  obtain ⟨p, product, value⟩ := mulNum_hasValue hx hy
  have same : fpFma F mode sat u v w = fpAdd F mode sat p w := by
    obtain ⟨_, _, _, rfl, -⟩ := hx
    obtain ⟨_, _, _, rfl, -⟩ := hy
    obtain ⟨_, _, _, rfl, -⟩ := hz
    simp only [fpFma, firstNaN, product]
  rw [same]
  exact fpAdd_roundsTo h value hz range

theorem scalarFmt_hasFields (dbl : Bool) : (scalarFmt dbl).HasFields := by
  cases dbl <;> exact ⟨by decide, by decide⟩

/-- Settles O15: the model cuts a value between two neighbouring codes and takes the one that the mode names. -/
theorem roundingIsCorrect : Obligations.RoundingIsCorrect := by
  refine ⟨fun F mode neg m e mem pos ⟨top, value, le⟩ => ?_, fun dbl rm a b q c x y z hx hy hz => ?_⟩
  · have nonzero : dyadic neg m e ≠ 0 := by
      have : (2 : ℚ) ^ e ≠ 0 := zpow_ne_zero _ two_ne_zero
      cases neg <;> simp [dyadic, pos, this]
    exact roundMag_dyadic (FFmt.hasFields_of_mem mem) ⟨nonzero, top, value, le⟩
  · have h := scalarFmt_hasFields dbl
    exact ⟨fpAdd_roundsTo h hx.2 hy.2, fpSub_roundsTo h hx.2 hy.2, fpMul_roundsTo h hx.2 hy.2, fpFma_roundsTo h hx.2 hy.2 hz.2⟩

end Sys2Proof
end

section
/-! Comparison and integers (R53, R54, R191, R236): the order of finite values, integer codes and what wrapping and clamping leave of them. -/

namespace Sys2Proof

open Machine

/-! ### Order -/

/-- Finite values are compared as the numbers that they are. -/
theorem cmpNum_value {u v : Num} {x y : ℚ} (hx : u.HasValue x) (hy : v.HasValue y) : cmpNum u v = compare x y := by
  obtain ⟨a, m, e, rfl, rfl⟩ := hx
  obtain ⟨b, n, f, rfl, rfl⟩ := hy
  rw [← signedAt_value (min_le_left e f), ← signedAt_value (min_le_right e f), ← cmp_eq_compare, cmp_mul_pos_right (zpow_pos two_pos _),
    Int.cast_strictMono.cmp_map_eq, cmp_eq_compare]
  rfl

theorem Num.HasValue.ordered {u : Num} {x : ℚ} (hx : u.HasValue x) : u.unordered = false := by
  obtain ⟨_, _, _, rfl, -⟩ := hx
  rfl

/-- A condition code on finite values (R191). -/
theorem condHolds_value {u v : Num} {x y : ℚ} (hx : u.HasValue x) (hy : v.HasValue y) (k : Nat) :
    condHolds k u v = true ↔ match k with | 0 => x = y | 1 => x < y | 2 => x ≤ y | 3 => False | _ => x ≠ y := by
  unfold condHolds
  rw [hx.ordered, hy.ordered, cmpNum_value hx hy]
  match k with
  | 0 => simp
  | 1 => simp [compare_lt_iff_lt]
  | 2 => simp [compare_lt_iff_lt, le_iff_eq_or_lt]
  | 3 => simp
  | k + 4 => simp

/-- A condition code where an operand is a NaN or NaV (R191). -/
theorem condHolds_unordered {u v : Num} (no : u.unordered = true ∨ v.unordered = true) (k : Nat) : condHolds k u v = decide (3 ≤ k) := by
  have either : (u.unordered || v.unordered) = true := Bool.or_eq_true_iff.2 no
  unfold condHolds
  rw [either]
  match k with
  | 0 | 1 | 2 | 3 => rfl
  | k + 4 => simp

theorem unordered_of_isNaNValue {v : Num} (nan : isNaNValue v) : v.unordered = true := by
  cases v with
  | nan => rfl
  | nav | inf | dy | lg => exact nan.elim

/-! ### Integers -/

/-- An integer as an exact value. -/
theorem intNum_hasValue (z : Int) : (intNum z).HasValue z := ⟨_, _, _, rfl, by rw [dyadic_natAbs]; simp⟩

/-- An integer code stands for its integer. -/
theorem ElemTy.val_of_isInt {t : ElemTy} (i : t.isInt = true) (c : Nat) : t.val c = intNum (t.int c) := by
  cases t with
  | s32 | n32 | s8 | n8 => rfl
  | _ => exact nomatch i

theorem sintOf_eq {n : Nat} (pos : 0 < n) (x : Nat) : sintOf n x = (BitVec.ofNat n x).toInt := by
  have half : 2 ^ n = 2 * 2 ^ (n - 1) := by rw [← pow_succ']; congr 1; omega
  simp only [sintOf, BitVec.toInt_eq_toNat_cond, BitVec.toNat_ofNat, half, Nat.mul_lt_mul_left two_pos]

theorem wrapN_eq (n : Nat) (z : Int) : wrapN n z = (BitVec.ofInt n z).toNat := by
  simp [wrapN]

theorem wrapN_lt (n : Nat) (z : Int) : wrapN n z < 2 ^ n := by
  rw [wrapN_eq]
  exact BitVec.isLt _

/-- A signed code of a wrapped integer. -/
theorem sintOf_wrapN {n : Nat} (pos : 0 < n) (z : Int) : sintOf n (wrapN n z) = z.bmod (2 ^ n) := by
  rw [sintOf_eq pos, wrapN_eq, BitVec.ofNat_toNat, BitVec.setWidth_eq, BitVec.toInt_ofInt]

/-- The range of a signed code. -/
theorem sintOf_bounds {n : Nat} (pos : 0 < n) (x : Nat) : -2 ^ (n - 1) ≤ sintOf n x ∧ sintOf n x < 2 ^ (n - 1) := by
  rw [sintOf_eq pos]
  exact ⟨BitVec.le_toInt _, BitVec.toInt_lt⟩

theorem sintOf_wrapN_of_bounds {n : Nat} {z : Int} (pos : 0 < n) (lo : -2 ^ (n - 1) ≤ z) (hi : z < 2 ^ (n - 1)) : sintOf n (wrapN n z) = z := by
  have half : (2 : Int) ^ n = 2 * 2 ^ (n - 1) := by rw [← pow_succ']; congr 1; omega
  rw [sintOf_wrapN pos]
  refine Int.bmod_eq_of_le_mul_two ?_ ?_ <;> push_cast <;> omega

/-- An integer that is wrapped keeps its residue. -/
theorem sintOf_wrapN_sub_emod {n : Nat} (pos : 0 < n) (z : Int) : (sintOf n (wrapN n z) - z) % 2 ^ n = 0 := by
  rw [sintOf_wrapN pos]
  have := Int.bmod_emod (x := z) (m := 2 ^ n)
  push_cast at this
  exact Int.emod_eq_emod_iff_emod_sub_eq_zero.1 this

theorem ElemTy.width_pos (t : ElemTy) : 0 < t.width := by cases t <;> decide

/-- The code of an integer wrapped to its type: its own where it fits. -/
theorem ElemTy.int_wrapN {t : ElemTy} {z : Int} (lo : intMin t.width t.signed ≤ z) (hi : z ≤ intMax t.width t.signed) : t.int (wrapN t.width z) = z := by
  unfold ElemTy.int
  unfold intMin at lo
  unfold intMax at hi
  cases sg : t.signed <;> rw [sg] at lo hi
  · simp only [Bool.false_eq_true, if_false] at lo hi ⊢
    rw [Nat.mod_eq_of_lt (wrapN_lt _ _), wrapN, Int.toNat_of_nonneg (Int.emod_nonneg _ (by positivity)), Int.emod_eq_of_lt lo (by omega)]
  · simp only [if_true] at lo hi ⊢
    push_cast at lo hi
    exact sintOf_wrapN_of_bounds t.width_pos lo (by omega)

theorem ElemTy.int_wrapN_sub_emod (t : ElemTy) (z : Int) : (t.int (wrapN t.width z) - z) % 2 ^ t.width = 0 := by
  unfold ElemTy.int
  cases t.signed
  · simp only [Bool.false_eq_true, if_false]
    rw [Nat.mod_eq_of_lt (wrapN_lt _ _), wrapN, Int.toNat_of_nonneg (Int.emod_nonneg _ (by positivity))]
    push_cast
    exact Int.emod_eq_emod_iff_emod_sub_eq_zero.1 (Int.emod_emod_of_dvd z dvd_rfl)
  · exact sintOf_wrapN_sub_emod t.width_pos z

theorem clampInt_eq {lo hi : Int} (le : lo ≤ hi) (x : Int) : clampInt lo hi x = max lo (min hi x) := by
  unfold clampInt
  split
  · omega
  · split <;> omega

theorem intMin_le_intMax (n : Nat) (sg : Bool) : intMin n sg ≤ intMax n sg := by
  have := Nat.two_pow_pos n
  have := Nat.two_pow_pos (n - 1)
  cases sg <;> simp only [intMin, intMax, Bool.false_eq_true, if_false, if_true] <;> omega

/-- fit leaves the code of the exact integer, wrapped or saturated (R54, R224). -/
theorem fitInt_fits (t : ElemTy) (sat : Bool) (z : Int) : fitsInt t sat z (fitInt t sat z).1 ∧ (fitInt t sat z).1 < 2 ^ t.width := by
  refine ⟨?_, wrapN_lt _ _⟩
  have le := intMin_le_intMax t.width t.signed
  cases sat
  · exact t.int_wrapN_sub_emod z
  · simp only [fitsInt, fitInt, if_true]
    rw [clampInt_eq le, ElemTy.int_wrapN (le_max_left _ _) (max_le le (min_le_left _ _))]

end Sys2Proof
end

section
/-! Planes and sub-elements (R57, R222, R229, R230): a plane as an array, the active elements, and what a lane-wise word leaves in each. -/

namespace Sys2Proof.Machine

/-! ### Planes -/

/-- The dense form of a sparse list reads as the list does. -/
theorem getElem?_denseFrom {l : List (Nat × Half)} {i : Nat} (w : swfFrom 0 i l = true) {n j : Nat} (lt : j < n) :
    (denseFrom l i n)[j]? = some (sget 0 l (i + j)) := by
  induction n generalizing l i j with
  | zero => omega
  | succ n ih =>
    cases l with
    | nil =>
      cases j with
      | zero => rfl
      | succ j => rw [denseFrom, List.getElem?_cons_succ, ih rfl (by omega)]; rfl
    | cons x r =>
      obtain ⟨k, v⟩ := x
      simp only [swfFrom, Bool.and_eq_true, decide_eq_true_eq] at w
      obtain ⟨⟨le, nz⟩, tail⟩ := w
      simp only [denseFrom]
      split
      · rename_i here
        subst here
        cases j with
        | zero => simp [sget]
        | succ j =>
          rw [List.getElem?_cons_succ, ih tail (by omega), sget, if_neg (by omega)]
          congr 2
          omega
      · rename_i ne
        cases j with
        | zero => rw [List.getElem?_cons_zero, sget, if_neg (by omega), sget_of_lt tail (by omega)]
        | succ j =>
          rw [List.getElem?_cons_succ, ih (by simp only [swfFrom, Bool.and_eq_true, decide_eq_true_eq]; exact ⟨⟨by omega, nz⟩, tail⟩) (by omega)]
          congr 2
          omega

/-- An element of a plane's array is the plane's element. -/
theorem at_plane {c : Core} (planes : ∀ u, swf 0 (c.planes.get u) = true) (u : VReg) {e : Nat} (lt : e < 1024) : at_ (c.plane u) e = c.elem u e := by
  rw [at_, Core.plane, Array.getD_eq_getD_getElem?, List.getElem?_toArray, getElem?_denseFrom (planes u) lt, Nat.zero_add]
  rfl

theorem mem_active {c : Core} {e : Nat} : e ∈ c.active ↔ activeElem c e := by
  simp [Core.active, activeElem]

/-! ### What is written to the active elements -/

variable {c : Core} {d : VReg}

theorem writesElems.mono {r : VResult} {P Q : Nat → Half → Prop} (w : writesElems c r d P) (weaker : ∀ e x, activeElem c e → P e x → Q e x) :
    writesElems c r d Q :=
  ⟨fun x mem => let ⟨e, live, at_, value⟩ := w.1 x mem; ⟨e, live, at_, weaker e _ live value⟩, w.2⟩

/-- A word that writes each active element by a function of it. -/
theorem writesElems_mapActive {f : Nat → Half × Flags} {P : Nat → Half → Prop} (value : ∀ e, activeElem c e → P e (f e).1) :
    writesElems c (mapActive c d f) d P := by
  simp only [writesElems, mapActive, List.map_map, List.mem_map, Function.comp, mem_active]
  refine ⟨?_, fun e live => ⟨_, e, live, rfl⟩⟩
  rintro _ ⟨e, live, rfl⟩
  exact ⟨e, live, rfl, value e live⟩

/-! ### Sub-elements (R57) -/

/-- The sub-elements of an element fit into it. -/
theorem width_mul_count_le {t : ElemTy} (v : t ≠ .fp64) : t.width * t.count ≤ 32 := by
  cases t with
  | fp64 => exact absurd rfl v
  | _ => decide

theorem packFrom_succ (t : ElemTy) (i : Nat) (l : List Nat) : packFrom t (i + 1) l = 2 ^ t.width * packFrom t i l := by
  induction l generalizing i with
  | nil => rfl
  | cons x r ih => rw [packFrom, packFrom, ih, Nat.mul_succ, pow_add]; ring

/-- Each sub-element stands in its own bits. -/
theorem packFrom_field (t : ElemTy) {l : List Nat} {i : Nat} (lt : i < l.length) : packFrom t 0 l / 2 ^ (t.width * i) % 2 ^ t.width = l[i] % 2 ^ t.width := by
  have pos := Nat.two_pow_pos t.width
  induction l generalizing i with
  | nil => exact absurd lt (Nat.not_lt_zero _)
  | cons x r ih =>
    have split : packFrom t 0 (x :: r) = x % 2 ^ t.width + 2 ^ t.width * packFrom t 0 r := by
      rw [packFrom, packFrom_succ, Nat.mul_zero, pow_zero, Nat.mul_one]
    rw [split]
    cases i with
    | zero => simp
    | succ i =>
      rw [Nat.mul_succ, Nat.add_comm (t.width * i), pow_add, ← Nat.div_div_eq_div_mul, Nat.add_mul_div_left _ _ pos,
        Nat.div_eq_of_lt (Nat.mod_lt _ pos), Nat.zero_add, ih (Nat.lt_of_succ_lt_succ lt)]
      rfl

theorem subOf_lt (t : ElemTy) (x : Half) (i : Nat) : subOf t x i < 2 ^ t.width := Nat.mod_lt _ (Nat.two_pow_pos _)

/-- A sub-element that was put together is read back. -/
theorem subOf_packSubs {t : ElemTy} (v : t ≠ .fp64) {l : List Nat} (len : l.length = t.count) {i : Nat} (lt : i < l.length) :
    subOf t (packSubs t l) i = l[i] % 2 ^ t.width := by
  have room : t.width * i + t.width ≤ 32 := by
    have := Nat.mul_le_mul_left t.width (Nat.succ_le_of_lt lt)
    have := width_mul_count_le v
    rw [len] at *
    rw [Nat.mul_succ] at *
    omega
  obtain ⟨k, eq⟩ := Nat.exists_eq_add_of_le room
  rw [subOf, packSubs, BitVec.toNat_ofNat, ← packFrom_field t lt, eq, Nat.add_assoc, pow_add, Nat.mod_mul_right_div_self, pow_add, Nat.mod_mul_right_mod]

theorem subOf_eachSub {t : ElemTy} (v : t ≠ .fp64) (f : Nat → Nat × Flags) {i : Nat} (lt : i < t.count) :
    subOf t (eachSub t f).1 i = (f i).1 % 2 ^ t.width := by
  have len : (((List.range t.count).map f).map (·.1)).length = t.count := by simp
  rw [eachSub, subOf_packSubs v len (by omega)]
  simp

/-- The one sub-element of a type of 32 bits is the element. -/
theorem subOf_word {t : ElemTy} (whole : t ∈ [ElemTy.fp32, .s32, .n32]) (x : Half) : subOf t x 0 = x.toNat := by
  have width : t.width = 32 := by fin_cases whole <;> rfl
  rw [subOf, width, Nat.mul_zero, pow_zero, Nat.div_one, Nat.mod_eq_of_lt x.isLt]

/-! ### Lane-wise words (R233) -/

/-- What a lane-wise word of two planes leaves in each sub-element. -/
theorem lanesOf_lane2 (planes : ∀ u, swf 0 (c.planes.get u) = true) {t : ElemTy} (v : t ≠ .fp64) {f : Nat → Nat → Nat × Flags} {a b : VReg}
    {P : Nat → Nat → Nat → Prop}
    (value : ∀ e i, i < t.count → P e i ((f (subOf t (c.elem a e) i) (subOf t (c.elem b e) i)).1 % 2 ^ t.width)) :
    lanesOf c (lane2 c t f d a b) d t P :=
  writesElems_mapActive fun e live i lt => by
    rw [subOf_eachSub v _ lt, at_plane planes a live.1, at_plane planes b live.1]
    exact value e i lt

/-- What a lane-wise word of one plane leaves in each sub-element. -/
theorem lanesOf_lane1 (planes : ∀ u, swf 0 (c.planes.get u) = true) {t : ElemTy} (v : t ≠ .fp64) {f : Nat → Nat × Flags} {a : VReg}
    {P : Nat → Nat → Nat → Prop} (value : ∀ e i, i < t.count → P e i ((f (subOf t (c.elem a e) i)).1 % 2 ^ t.width)) :
    lanesOf c (lane1 c t f d a) d t P :=
  writesElems_mapActive fun e live i lt => by
    rw [subOf_eachSub v _ lt, at_plane planes a live.1]
    exact value e i lt

/-- What a lane-wise word of three planes leaves in each sub-element. -/
theorem lanesOf_lane3 (planes : ∀ u, swf 0 (c.planes.get u) = true) {t : ElemTy} (v : t ≠ .fp64) {f : Nat → Nat → Nat → Nat × Flags} {a b q : VReg}
    {P : Nat → Nat → Nat → Prop}
    (value : ∀ e i, i < t.count → P e i ((f (subOf t (c.elem a e) i) (subOf t (c.elem b e) i) (subOf t (c.elem q e) i)).1 % 2 ^ t.width)) :
    lanesOf c (lane3 c t f d a b q) d t P :=
  writesElems_mapActive fun e live i lt => by
    rw [subOf_eachSub v _ lt, at_plane planes a live.1, at_plane planes b live.1, at_plane planes q live.1]
    exact value e i lt

end Sys2Proof.Machine
end

section
/-! The operations on one sub-element (R224, R233 to R236), type by type: floats round once, integers wrap or saturate, Orris codes keep NaV. -/

namespace Sys2Proof

open Machine

variable {t : ElemTy} {mode : Rm} {sat : Bool}

/-! ### Float types -/

/-- The format that a type answers has both fields. -/
theorem ElemTy.ffmt_hasFields (t : ElemTy) : t.ffmt.HasFields := by
  cases t <;> exact ⟨by decide, by decide⟩

/-- The codes of a float type fill its width. -/
theorem two_mul_signBit (fl : t.isFloat = true) : 2 * t.ffmt.signBit = 2 ^ t.width := by
  cases t with
  | fp32 | bf16 | fp16 | e4m3 | e5m2 | fp64 => decide
  | _ => exact nomatch fl

theorem ElemTy.val_of_isFloat (fl : t.isFloat = true) (c : Nat) : t.val c = t.ffmt.val c := by
  simp [ElemTy.val, fl]

/-- A rounded code is a code of its format. -/
theorem roundsTo_lt {F : FFmt} {x : ℚ} {c : Nat} (r : roundsTo F mode x c) : c < 2 * F.signBit :=
  let ⟨_, cv, _⟩ := r
  cv.1

/-- A rounded code keeps all its bits in a sub-element. -/
theorem roundsTo_mod (fl : t.isFloat = true) {x : ℚ} {c : Nat} (r : roundsTo t.ffmt mode x c) : roundsTo t.ffmt mode x (c % 2 ^ t.width) := by
  rwa [Nat.mod_eq_of_lt (two_mul_signBit fl ▸ roundsTo_lt r)]

theorem subAdd_float (fl : t.isFloat = true) (a b : Nat) : subAdd t mode sat a b = fpAdd t.ffmt mode sat (t.ffmt.val a) (t.ffmt.val b) := by
  rw [subAdd, if_pos fl, ElemTy.val_of_isFloat fl, ElemTy.val_of_isFloat fl]
theorem subSub_float (fl : t.isFloat = true) (a b : Nat) : subSub t mode sat a b = fpSub t.ffmt mode sat (t.ffmt.val a) (t.ffmt.val b) := by
  rw [subSub, if_pos fl, ElemTy.val_of_isFloat fl, ElemTy.val_of_isFloat fl]
theorem subMul_float (fl : t.isFloat = true) (a b : Nat) : subMul t mode sat a b = fpMul t.ffmt mode sat (t.ffmt.val a) (t.ffmt.val b) := by
  rw [subMul, if_pos fl, ElemTy.val_of_isFloat fl, ElemTy.val_of_isFloat fl]
theorem subFma_float (fl : t.isFloat = true) (a b c : Nat) :
    subFma t mode sat a b c = fpFma t.ffmt mode sat (t.ffmt.val a) (t.ffmt.val b) (t.ffmt.val c) := by
  rw [subFma, if_pos fl, ElemTy.val_of_isFloat fl, ElemTy.val_of_isFloat fl, ElemTy.val_of_isFloat fl]

/-- The smaller, or the larger, of two finite codes (R62). -/
theorem fpMinMax_value {F : FFmt} {a b : Nat} {x y : ℚ} (hx : codeValue F a x) (hy : codeValue F b y) :
    codeValue F (fpMinMax F false a b) (min x y) ∧ codeValue F (fpMinMax F true a b) (max x y) := by
  have order := cmpNum_value hx.2 hy.2
  obtain ⟨_, s, m, e, va, -⟩ := id hx
  obtain ⟨_, r, n, f, vb, -⟩ := id hy
  rw [va, vb] at order
  simp only [fpMinMax, va, vb, order]
  obtain lt | rfl | gt := lt_trichotomy x y
  · simp [compare_lt_iff_lt.2 lt, min_eq_left lt.le, max_eq_right lt.le, hx, hy]
  · have either : ∀ b' : Bool, codeValue F (if b' = true then a else b) x := fun b' => by cases b' <;> assumption
    rw [min_self, max_self]
    exact ⟨either _, either _⟩
  · simp [compare_gt_iff_gt.2 gt, min_eq_right gt.le, max_eq_left gt.le, hx, hy]

/-- One NaN gives the other operand (R62). -/
theorem fpMinMax_nan {F : FFmt} {a b : Nat} (mx : Bool) {x : ℚ} :
    (isNaNValue (F.val a) → codeValue F b x → fpMinMax F mx a b = b) ∧ (codeValue F a x → isNaNValue (F.val b) → fpMinMax F mx a b = a) := by
  have nan : ∀ {v : Num}, isNaNValue v → ∃ s f n, v = .nan s f n := fun {v} is => by
    cases v with
    | nan s f n => exact ⟨s, f, n, rfl⟩
    | nav | inf | dy | lg => exact is.elim
  refine ⟨fun is ⟨_, s, m, e, vb, _⟩ => ?_, fun ⟨_, s, m, e, va, _⟩ is => ?_⟩
  · obtain ⟨_, _, _, va⟩ := nan is
    simp only [fpMinMax, va, vb]
  · obtain ⟨_, _, _, vb⟩ := nan is
    simp only [fpMinMax, va, vb]

/-- The code of a compare: all ones or zero. -/
theorem cmpCode_spec (w : Nat) (b : Bool) (p : Prop) (iff : b = true ↔ p) :
    (p → (if b = true then 2 ^ w - 1 else 0) % 2 ^ w = 2 ^ w - 1) ∧ (¬ p → (if b = true then 2 ^ w - 1 else 0) % 2 ^ w = 0) := by
  have pos := Nat.two_pow_pos w
  refine ⟨fun yes => ?_, fun no => ?_⟩
  · rw [if_pos (iff.2 yes), Nat.mod_eq_of_lt (by omega)]
  · rw [if_neg (mt iff.1 no), Nat.zero_mod]

/-- Inverting the top bit of a code of k + 1 bits. -/
theorem xor_top {k x : Nat} (lt : x < 2 * 2 ^ k) : x ^^^ 2 ^ k < 2 * 2 ^ k ∧ (x ^^^ 2 ^ k) % 2 ^ k = x % 2 ^ k ∧ (x ^^^ 2 ^ k) / 2 ^ k = 1 - x / 2 ^ k := by
  refine ⟨?_, ?_, ?_⟩
  · rw [← pow_succ'] at lt ⊢
    exact Nat.xor_lt_two_pow lt (Nat.pow_lt_pow_right Nat.one_lt_two (Nat.lt_succ_self k))
  · rw [Nat.xor_mod_two_pow, Nat.mod_self, Nat.xor_zero]
  · rw [Nat.xor_div_two_pow, Nat.div_self (Nat.two_pow_pos k)]
    have : x / 2 ^ k < 2 := Nat.div_lt_of_lt_mul (by omega)
    interval_cases x / 2 ^ k <;> rfl

/-! ### Integer types -/

theorem ElemTy.not_float_of_isInt (i : t.isInt = true) : t.isFloat = false ∧ t.isOrris = false := by
  cases t with
  | s32 | n32 | s8 | n8 => exact ⟨rfl, rfl⟩
  | _ => exact nomatch i

theorem subAdd_int (i : t.isInt = true) (a b : Nat) : subAdd t mode sat a b = fitInt t sat (t.int a + t.int b) := by
  simp [subAdd, ElemTy.not_float_of_isInt i]
theorem subSub_int (i : t.isInt = true) (a b : Nat) : subSub t mode sat a b = fitInt t sat (t.int a - t.int b) := by
  simp [subSub, ElemTy.not_float_of_isInt i]
theorem subMul_int (i : t.isInt = true) (a b : Nat) : subMul t mode sat a b = fitInt t sat (t.int a * t.int b) := by
  simp [subMul, ElemTy.not_float_of_isInt i]
theorem subFma_int (i : t.isInt = true) (a b c : Nat) : subFma t mode sat a b c = fitInt t sat (t.int a * t.int b + t.int c) := by
  simp [subFma, ElemTy.not_float_of_isInt i]
theorem subAbs_int (i : t.isInt = true) (a : Nat) : subAbs t sat a = (fitInt t sat |t.int a|).1 := by
  simp [subAbs, ElemTy.not_float_of_isInt i]
theorem subNeg_int (i : t.isInt = true) (a : Nat) : subNeg t sat a = (fitInt t sat (-(t.int a))).1 := by
  simp [subNeg, ElemTy.not_float_of_isInt i]

/-- A fitted code keeps all its bits in a sub-element. -/
theorem fitInt_fits_mod (t : ElemTy) (sat : Bool) (z : Int) : fitsInt t sat z ((fitInt t sat z).1 % 2 ^ t.width) := by
  obtain ⟨fits, lt⟩ := fitInt_fits t sat z
  rwa [Nat.mod_eq_of_lt lt]

theorem ElemTy.int_mod (t : ElemTy) (c : Nat) : t.int (c % 2 ^ t.width) = t.int c := by
  simp [ElemTy.int, sintOf]

/-- The smaller, or the larger, of two integer codes. -/
theorem subMinMax_int (i : t.isInt = true) (a b : Nat) :
    t.int (subMinMax t false a b) = min (t.int a) (t.int b) ∧ t.int (subMinMax t true a b) = max (t.int a) (t.int b) := by
  simp only [subMinMax, ElemTy.not_float_of_isInt i, Bool.false_eq_true, if_false]
  obtain lt | ge := lt_or_ge (t.int a) (t.int b)
  · simp [lt, min_eq_left lt.le, max_eq_right lt.le]
  · simp [not_lt.2 ge, min_eq_right ge, max_eq_left ge]

/-- The conditions of R236 on integers. -/
theorem subCmp_int (i : t.isInt = true) {k : Fin 5} (k3 : k ≠ 3) (a b : Nat) : subCmp t k.val a b = true ↔ lessLike k (t.int a) (t.int b) := by
  rw [subCmp, ElemTy.val_of_isInt i, ElemTy.val_of_isInt i, condHolds_value (intNum_hasValue _) (intNum_hasValue _), lessLike]
  match k with
  | 0 => simp
  | 1 => simp
  | 2 => simp
  | 3 => exact absurd rfl k3
  | 4 => simp

/-- Shifts take the count modulo the width (R235). -/
theorem subShift_spec (t : ElemTy) {a b : Nat} (la : a < 2 ^ t.width) (lb : b < 2 ^ t.width) :
    subShift t 0 a b % 2 ^ t.width = a * 2 ^ (b % t.width) % 2 ^ t.width ∧ subShift t 1 a b % 2 ^ t.width = a / 2 ^ (b % t.width)
      ∧ sintOf t.width (subShift t 2 a b % 2 ^ t.width) = sintOf t.width a / 2 ^ (b % t.width) := by
  simp only [subShift, Nat.mod_eq_of_lt la, Nat.mod_eq_of_lt lb]
  refine ⟨Nat.mod_mod _ _, Nat.mod_eq_of_lt ((Nat.div_le_self _ _).trans_lt la), ?_⟩
  obtain ⟨lo, hi⟩ := sintOf_bounds t.width_pos a
  have pos : (0 : Int) < 2 ^ (b % t.width) := by positivity
  have one : (1 : Int) ≤ 2 ^ (b % t.width) := pos
  rw [Nat.mod_eq_of_lt (wrapN_lt _ _)]
  push_cast
  refine sintOf_wrapN_of_bounds t.width_pos ?_ ?_
  · rw [Int.le_ediv_iff_mul_le pos]
    have : (0 : Int) < 2 ^ (t.width - 1) := by positivity
    nlinarith
  · rw [Int.ediv_lt_iff_lt_mul pos]
    have : (0 : Int) < 2 ^ (t.width - 1) := by positivity
    nlinarith

end Sys2Proof
end

section
/-! Bitwise, moving and integer vector words (R233 to R239, R245, R248): each computes its elements for exactly the active elements. -/

namespace Sys2Proof.Machine

variable {c : Core} {d a b : VReg}

/-- A bitwise word of two planes. -/
theorem writesElems_bitwise (planes : ∀ u, swf 0 (c.planes.get u) = true) (f : Half → Half → Half) :
    writesElems c (bitwise c f d a b) d (fun e w => w = f (c.elem a e) (c.elem b e)) :=
  writesElems_mapActive fun e live => by rw [at_plane planes a live.1, at_plane planes b live.1]

/-- A word that moves elements: element e takes source element g e. -/
theorem writesElems_moveFrom (planes : ∀ u, swf 0 (c.planes.get u) = true) {g : Nat → Nat} (inside : ∀ e < 1024, g e < 1024) :
    writesElems c (moveFrom c g d a) d (fun e w => w = c.elem a (g e)) :=
  writesElems_mapActive fun e live => at_plane planes a (inside e live.1)

/-- A moving word whose source element is known by where it stands. -/
theorem writesElems_moveFrom_at (planes : ∀ u, swf 0 (c.planes.get u) = true) {g : Nat → Nat} {Q : Nat → Nat → Prop}
    (inside : ∀ e < 1024, g e < 1024) (stands : ∀ e < 1024, Q e (g e)) :
    writesElems c (moveFrom c g d a) d (fun e w => ∃ f, w = c.elem a f ∧ Q e f) :=
  (writesElems_moveFrom planes inside).mono fun e _ live value => ⟨g e, value, stands e live.1⟩

/-! ### Words of 32-bit values -/

/-- A type whose values fill an element has one sub-element. -/
theorem eachSub_word {t : ElemTy} (whole : t ∈ [ElemTy.fp32, .s32, .n32]) (f : Nat → Nat × Flags) : (eachSub t f).1 = BitVec.ofNat 32 (f 0).1 := by
  have parts : t.count = 1 ∧ t.width = 32 := by fin_cases whole <;> exact ⟨rfl, rfl⟩
  rw [eachSub, parts.1]
  simp [packSubs, packFrom, parts.2, BitVec.ofNat, Fin.ofNat]

/-- A lane-wise word of two planes of 32-bit values. -/
theorem writesElems_lane2_word (planes : ∀ u, swf 0 (c.planes.get u) = true) {t : ElemTy} (whole : t ∈ [ElemTy.fp32, .s32, .n32])
    {f : Nat → Nat → Nat × Flags} {P : Nat → Half → Prop} (value : ∀ e, P e (BitVec.ofNat 32 (f (c.elem a e).toNat (c.elem b e).toNat).1)) :
    writesElems c (lane2 c t f d a b) d P :=
  writesElems_mapActive fun e live => by
    rw [eachSub_word whole, subOf_word whole, subOf_word whole, at_plane planes a live.1, at_plane planes b live.1]
    exact value e

theorem int_s32 (x : Half) : ElemTy.int .s32 x.toNat = x.toInt := by
  change sintOf 32 x.toNat = x.toInt
  rw [sintOf_eq (by decide), BitVec.ofNat_toNat, BitVec.setWidth_eq]

theorem int_n32 (x : Half) : ElemTy.int .n32 x.toNat = x.toNat := by
  change ((x.toNat % 2 ^ 32 : Nat) : Int) = x.toNat
  rw [Nat.mod_eq_of_lt x.isLt]

/-- An element made of an integer code stands for the code's integer. -/
theorem toInt_ofNat_s32 (n : Nat) : (BitVec.ofNat 32 n).toInt = ElemTy.int .s32 n := by
  rw [← int_s32, BitVec.toNat_ofNat]
  exact ElemTy.int_mod .s32 n

theorem toNat_ofNat_n32 (n : Nat) : ((BitVec.ofNat 32 n).toNat : Int) = ElemTy.int .n32 n := by
  rw [← int_n32, BitVec.toNat_ofNat]
  exact ElemTy.int_mod .n32 n

/-- A wrapped 32-bit integer as an element. -/
theorem ofNat_fitInt_n32 (z : Int) : BitVec.ofNat 32 (fitInt .n32 false z).1 = BitVec.ofInt 32 z := by
  change BitVec.ofNat 32 (wrapN 32 z) = _
  rw [wrapN_eq, BitVec.ofNat_toNat, BitVec.setWidth_eq]

/-- A saturated s32 integer as an element. -/
theorem ofNat_fitInt_s32 (z : Int) : (BitVec.ofNat 32 (fitInt .s32 true z).1).toInt = max (-2 ^ 31) (min (2 ^ 31 - 1) z) := by
  rw [toInt_ofNat_s32]
  exact (fitInt_fits .s32 true z).1

/-- Settles O37: each word is a word of its kind — bitwise, moving, or lane-wise on 32-bit values — whose elements the lemmas above give. -/
theorem vectorElementResults : Obligations.VectorElementResults := by
  intro c v d a b q n m g k rm row col x y z res planes
  simp only [x, y, z, res, vValue]
  have inRow : ∀ e < 1024, ∀ j < 64, 64 * (e / 64) + j < 1024 := by omega
  refine ⟨writesElems_bitwise planes _, writesElems_bitwise planes _, writesElems_bitwise planes _, writesElems_bitwise planes _, ?vsel,
    writesElems_moveFrom planes (fun _ lt => lt), writesElems_mapActive fun _ _ => rfl, ?vperm, ?vtrp, writesElems_mapActive fun _ _ => rfl, trivial, ?vmov,
    ?vrrot, ?vcrot, writesElems_moveFrom planes (fun e lt => inRow e lt _ n.isLt), writesElems_moveFrom planes (fun e _ => by omega),
    ?vadd, ?vadds, ?vsub, ?vmul, ?vmin, ?vmax, fun k3 => ?vcmp⟩
  case vsel =>
    refine writesElems_mapActive fun e live i => ?_
    rw [at_plane planes a live.1, at_plane planes b live.1, at_plane planes q live.1]
    rw [BitVec.getLsbD_or, BitVec.getLsbD_and, BitVec.getLsbD_and, BitVec.getLsbD_not]
    by_cases small : i < 32
    · cases (c.elem q e).getLsbD i <;> simp [small]
    · simp [BitVec.getLsbD_of_ge _ i (not_lt.1 small)]
  case vperm =>
    refine writesElems_mapActive fun e live => ?_
    rw [at_plane planes b live.1, at_plane planes a (Nat.mod_lt _ (by decide))]
  case vtrp =>
    have turned : ∀ i j k : Nat, i < 16 → j < 4 → k < 16 →
        let f := 64 * i + j * 16 + k
        f < 1024 ∧ f / 64 = i ∧ f % 64 / 16 = j ∧ f % 16 = k := by omega
    have parts : ∀ e < 1024, e % 16 < 16 ∧ e % 64 / 16 < 4 ∧ e / 64 < 16 := by omega
    exact writesElems_moveFrom_at planes (fun e lt => (turned _ _ _ (parts e lt).1 (parts e lt).2.1 (parts e lt).2.2).1)
      fun e lt => turned _ _ _ (parts e lt).1 (parts e lt).2.1 (parts e lt).2.2
  case vmov => rw [BitVec.ofNat_toNat]
  case vrrot => exact writesElems_moveFrom_at planes (fun e _ => by omega) fun e _ => by omega
  case vcrot => exact writesElems_moveFrom_at planes (fun e _ => by omega) fun e _ => by omega
  case vadd =>
    refine writesElems_lane2_word (t := .n32) planes (by decide) fun e => ?_
    rw [subAdd_int rfl, ofNat_fitInt_n32, int_n32, int_n32, BitVec.ofInt_add, BitVec.ofInt_natCast, BitVec.ofInt_natCast]
    simp
  case vadds =>
    refine writesElems_lane2_word (t := .s32) planes (by decide) fun e => ?_
    rw [subAdd_int rfl, ofNat_fitInt_s32, int_s32, int_s32]
  case vsub =>
    refine writesElems_lane2_word (t := .n32) planes (by decide) fun e => ?_
    rw [subSub_int rfl, ofNat_fitInt_n32, int_n32, int_n32, Int.sub_eq_add_neg, BitVec.ofInt_add, BitVec.ofInt_neg, BitVec.ofInt_natCast, BitVec.ofInt_natCast]
    simp [BitVec.sub_eq_add_neg]
  case vmul =>
    refine writesElems_lane2_word (t := .n32) planes (by decide) fun e => ?_
    rw [subMul_int rfl, ofNat_fitInt_n32, int_n32, int_n32, BitVec.ofInt_mul, BitVec.ofInt_natCast, BitVec.ofInt_natCast]
    simp
  case vmin =>
    refine writesElems_lane2_word (t := .s32) planes (by decide) fun e => ?_
    rw [toInt_ofNat_s32, (subMinMax_int rfl _ _).1, int_s32, int_s32]
  case vmax =>
    refine writesElems_lane2_word (t := .n32) planes (by decide) fun e => ?_
    rw [← Int.natCast_inj, toNat_ofNat_n32, (subMinMax_int rfl _ _).2, int_n32, int_n32, Nat.cast_max]
  case vcmp =>
    refine writesElems_lane2_word (t := .s32) planes (by decide) fun e i small => ?_
    rw [← int_s32, ← int_s32, ← subCmp_int rfl k3]
    cases subCmp .s32 k.val (c.elem a e).toNat (c.elem b e).toNat
    · simp
    · have ones : BitVec.ofNat 32 (2 ^ ElemTy.s32.width - 1) = BitVec.allOnes 32 := by decide
      simp only [if_true, ones, BitVec.getLsbD_allOnes, small, decide_true]

end Sys2Proof.Machine
end

section
/-! Orris codes (R58, R59, R67, R224): NaV, zero, and logarithms, whose codes are packed back as they stood. -/

namespace Sys2Proof

open Machine

/-- The Orris type of a width. -/
def orrisTy (six : Bool) : ElemTy := if six = true then .lg6 else .lg8

theorem two_mul_navCode (six : Bool) : 2 * navCode six = 2 ^ (orrisTy six).width := by cases six <;> rfl

theorem orrisTy_eq (six : Bool) : (orrisTy six == ElemTy.lg6) = six := by cases six <;> rfl

theorem orrisTy_ne (six : Bool) : orrisTy six ≠ .fp64 := by cases six <;> decide

theorem val_orrisTy (six : Bool) (c : Nat) : (orrisTy six).val c = lgVal six c := by cases six <;> rfl

theorem orrisTy_isOrris (six : Bool) : (orrisTy six).isFloat = false ∧ (orrisTy six).isOrris = true := by cases six <;> exact ⟨rfl, rfl⟩

/-- A packed Orris code is one of its format. -/
theorem lgCode_lt (six neg : Bool) (k : Int) (ex : Bool) : (lgCode six neg k ex).1 < 2 * navCode six := by
  have sign : (if neg = true then navCode six else 0) ≤ navCode six := by cases neg <;> simp
  have top : ((if six = true then 31 else 127 : Int)) = navCode six - 1 := by cases six <;> rfl
  have pos : 0 < navCode six := by cases six <;> decide
  simp only [lgCode, top]
  generalize (if neg = true then navCode six else 0) = sg at sign ⊢
  generalize k + (if six = true then 16 else 64) = t
  split
  · exact Nat.mul_pos two_pos pos
  · split <;> dsimp only <;> omega

theorem toLgLog_lt (six neg : Bool) (k : Int) : (toLgLog six neg k).1 < 2 * navCode six := by
  unfold toLgLog
  cases six
  · exact lgCode_lt ..
  · simp only [if_true]
    split
    · exact lgCode_lt ..
    · split <;> exact lgCode_lt ..

theorem navCode_eq (six : Bool) : navCode six = 2 ^ (if six = true then 5 else 7) := by cases six <;> rfl

/-- A logarithm t of a format, in the format's own steps from its least one, packs to t with its sign. -/
theorem toLgLog_steps (six neg : Bool) {t : Nat} (pos : t ≠ 0) (lt : t < navCode six) :
    (toLgLog six neg (if six = true then 2 * ((t : Int) - 16) else (t : Int) - 64)).1 = (if neg = true then navCode six else 0) + t := by
  cases six
  · have inside : ¬ ((t : Int) - 64 + 64 < 1) ∧ ¬ (127 < (t : Int) - 64 + 64) := by change t < 128 at lt; omega
    simp only [toLgLog, lgCode, Bool.false_eq_true, if_false, if_neg inside.1, if_neg inside.2]
    omega
  · have inside : ¬ ((t : Int) - 16 + 16 < 1) ∧ ¬ (31 < (t : Int) - 16 + 16) := by change t < 32 at lt; omega
    have even : 2 * ((t : Int) - 16) % 2 = 0 ∧ 2 * ((t : Int) - 16) / 2 = t - 16 := by omega
    simp only [toLgLog, lgCode, if_true, even, if_neg inside.1, if_neg inside.2]
    omega

/-- What a code of an Orris format is: NaV, zero, or a logarithm that packs to the same code. -/
theorem lgVal_cases {six : Bool} {c : Nat} (lt : c < 2 * navCode six) :
    (c = navCode six ∧ lgVal six c = .nav six) ∨ (c = 0 ∧ lgVal six c = .dy false 0 0)
      ∨ (c % navCode six ≠ 0 ∧ ∃ neg k, lgVal six c = .lg neg k ∧ (toLgLog six neg k).1 = c) := by
  have value : lgVal six c = if c % navCode six = 0 then (if bitAt c (if six = true then 5 else 7) = true then .nav six else .dy false 0 0)
      else .lg (bitAt c (if six = true then 5 else 7)) (if six = true then 2 * (((c % navCode six : Nat) : Int) - 16) else ((c % navCode six : Nat) : Int) - 64) := by
    cases six <;> rfl
  have sign : bitAt c (if six = true then 5 else 7) = decide (navCode six ≤ c) := by
    rw [bitAt, ← navCode_eq]
    obtain low | high := Nat.lt_or_ge c (navCode six)
    · rw [Nat.div_eq_of_lt low, decide_eq_false (not_le.2 low)]; rfl
    · rw [Nat.div_eq_of_lt_le (by omega) (by omega : c < (1 + 1) * navCode six), decide_eq_true high]; rfl
  have parts := Nat.div_add_mod c (navCode six)
  rw [value, sign]
  by_cases zero : c % navCode six = 0
  · rw [if_pos zero]
    obtain low | high := Nat.lt_or_ge c (navCode six)
    · exact .inr (.inl ⟨by rwa [Nat.mod_eq_of_lt low] at zero, by simp [not_le.2 low]⟩)
    · rw [Nat.div_eq_of_lt_le (by omega) (by omega : c < (1 + 1) * navCode six), zero] at parts
      exact .inl ⟨by omega, by simp [high]⟩
  · rw [if_neg zero]
    refine .inr (.inr ⟨zero, _, _, rfl, ?_⟩)
    rw [toLgLog_steps six _ zero (Nat.mod_lt _ (by omega))]
    obtain low | high := Nat.lt_or_ge c (navCode six)
    · simp [not_le.2 low, Nat.mod_eq_of_lt low]
    · rw [Nat.div_eq_of_lt_le (by omega) (by omega : c < (1 + 1) * navCode six)] at parts
      simp only [high, decide_true, if_true]
      omega

variable {six : Bool} {mode : Rm} {sat : Bool} {a b : Nat}

/-- The codes of an Orris sub-element. -/
theorem lt_two_mul_navCode (lt : a < 2 ^ (orrisTy six).width) : a < 2 * navCode six := two_mul_navCode six ▸ lt

theorem lgVal_navCode (six : Bool) : lgVal six (navCode six) = .nav six := by cases six <;> rfl
theorem lgVal_zero (six : Bool) : lgVal six 0 = .dy false 0 0 := by cases six <;> rfl

/-- A sum of Orris codes: NaV propagates, and zero adds nothing (R224). -/
theorem subAdd_orris (la : a < 2 * navCode six) (lb : b < 2 * navCode six) :
    (a = navCode six ∨ b = navCode six → (subAdd (orrisTy six) mode sat a b).1 = navCode six)
      ∧ (a = 0 → b ≠ navCode six → (subAdd (orrisTy six) mode sat a b).1 = b) ∧ (b = 0 → a ≠ navCode six → (subAdd (orrisTy six) mode sat a b).1 = a) := by
  have run : subAdd (orrisTy six) mode sat a b = lgAdd six (lgVal six a) (lgVal six b) := by
    rw [subAdd, if_neg (by simp [orrisTy_isOrris]), if_pos (orrisTy_isOrris six).2, orrisTy_eq, val_orrisTy, val_orrisTy]
  rw [run]
  refine ⟨?_, ?_, ?_⟩
  · rintro (rfl | rfl)
    · simp only [lgVal_navCode, lgAdd]
    · rw [lgVal_navCode]
      cases lgVal six a <;> rfl
  · rintro rfl no
    rw [lgVal_zero]
    obtain ⟨nav, -⟩ | ⟨rfl, -⟩ | ⟨-, neg, k, value, back⟩ := lgVal_cases lb
    · exact absurd nav no
    · rw [lgVal_zero]; rfl
    · rw [value]; exact back
  · rintro rfl no
    rw [lgVal_zero]
    obtain ⟨nav, -⟩ | ⟨rfl, -⟩ | ⟨-, neg, k, value, back⟩ := lgVal_cases la
    · exact absurd nav no
    · rw [lgVal_zero]; rfl
    · rw [value]; exact back

/-- A product of Orris codes: NaV propagates, and logarithms add (R224). -/
theorem subMul_orris :
    (a = navCode six ∨ b = navCode six → (subMul (orrisTy six) mode sat a b).1 = navCode six)
      ∧ ∀ s r m n, lgVal six a = .lg s m → lgVal six b = .lg r n → subMul (orrisTy six) mode sat a b = toLgLog six (s != r) (m + n) := by
  have run : subMul (orrisTy six) mode sat a b = lgFit six (lgMulNum (lgVal six a) (lgVal six b)) := by
    rw [subMul, if_neg (by simp [orrisTy_isOrris]), if_pos (orrisTy_isOrris six).2, orrisTy_eq, val_orrisTy, val_orrisTy]
  rw [run]
  refine ⟨?_, fun s r m n va vb => by rw [va, vb]; rfl⟩
  rintro (rfl | rfl) <;> rw [lgVal_navCode]
  · rfl
  · cases lgVal six a <;> rfl

/-- VNEG of an Orris code (R234). -/
theorem subNeg_orris (lt : a < 2 * navCode six) :
    if a % navCode six = 0 then subNeg (orrisTy six) sat a = a
      else subNeg (orrisTy six) sat a < 2 * navCode six ∧ subNeg (orrisTy six) sat a % navCode six = a % navCode six ∧ subNeg (orrisTy six) sat a ≠ a := by
  have run : subNeg (orrisTy six) sat a = if a % navCode six = 0 then a else a ^^^ navCode six := by
    rw [subNeg, if_neg (by simp [orrisTy_isOrris]), if_pos (orrisTy_isOrris six).2]
    simp only [orrisTy_eq, Nat.mod_eq_of_lt lt]
  rw [run]
  split
  · rfl
  · rw [navCode_eq] at lt ⊢
    obtain ⟨small, low, high⟩ := xor_top lt
    refine ⟨small, low, fun same => ?_⟩
    rw [same] at high
    omega


end Sys2Proof
end

section
/-! Conversions (R65, R68, R240): between floats and integers, and the sub-elements that VCVT writes. -/

namespace Sys2Proof

open Machine

variable {t s : ElemTy} {mode : Rm} {sat : Bool}

/-- A finite value into a float format, within its range (R65). -/
theorem toFloat_roundsTo {F : FFmt} (h : F.HasFields) {u : Num} {x : ℚ} (hx : u.HasValue x) (range : finiteIn F x) :
    roundsTo F mode x (u.toFloat F mode sat).1 := by
  obtain ⟨neg, m, e, rfl, rfl⟩ := hx
  have nonzero : m ≠ 0 := fun zero => range.1 (by rw [zero]; simp [dyadic])
  simp only [Num.toFloat, Num.unNav, if_neg nonzero]
  exact (roundMag_dyadic h range).1

/-- A magnitude between lo and lo + 1, with a sign, rounded to the one or to the other as the mode says. -/
theorem roundsToInt_between {neg up : Bool} {lo : Nat} {f : ℚ} (pos : 0 < f) (lt : f < 1) (rtz : mode = .rtz → up = false) (rdn : mode = .rdn → up = neg)
    (rup : mode = .rup → up = !neg)
    (rne : mode = .rne → if up = true then 1 / 2 ≤ f ∧ (f = 1 / 2 → lo % 2 = 1) else f ≤ 1 / 2 ∧ (f = 1 / 2 → lo % 2 = 0)) :
    roundsToInt mode (signOf neg * (lo + f)) (if neg = true then -((lo + up.toNat : Nat) : Int) else ((lo + up.toNat : Nat) : Int)) := by
  have base : (0 : ℚ) ≤ lo := Nat.cast_nonneg _
  have floor : ⌊(lo : ℚ) + f⌋ = lo := Int.floor_eq_iff.2 ⟨by push_cast; linarith, by push_cast; linarith⟩
  have ceil : ⌈(lo : ℚ) + f⌉ = lo + 1 := Int.ceil_eq_iff.2 ⟨by push_cast; linarith, by push_cast; linarith⟩
  cases mode with
  | rtz =>
    obtain rfl := rtz rfl
    cases neg
    · simp [roundsToInt, signOf, floor, add_nonneg base pos.le]
    · have below : ¬ (lo : ℚ) + f ≤ 0 := by linarith
      simp only [roundsToInt, signOf, if_true, neg_one_mul, Left.nonneg_neg_iff, if_neg below, Int.ceil_neg, floor]
      simp
  | rdn =>
    obtain rfl := rdn rfl
    cases up
    · simp [roundsToInt, signOf, floor]
    · simp only [roundsToInt, signOf, if_true, neg_one_mul, Int.floor_neg, ceil]
      simp
  | rup =>
    obtain rfl : neg = !up := by rw [rup rfl, Bool.not_not]
    cases up
    · simp only [roundsToInt, signOf, Bool.not_false, if_true, neg_one_mul, Int.ceil_neg, floor]
      simp
    · simp [roundsToInt, signOf, ceil]
  | rne =>
    have near := rne rfl
    have away : |signOf neg * (lo + f) - ((if neg = true then -((lo + up.toNat : Nat) : Int) else ((lo + up.toNat : Nat) : Int) : Int) : ℚ)|
        = if up = true then 1 - f else f := by
      cases neg <;> cases up <;> simp only [signOf, Bool.toNat_true, Bool.toNat_false, Bool.false_eq_true, if_true, if_false] <;> push_cast <;>
        [rw [abs_of_nonneg (by linarith)]; rw [abs_of_nonpos (by linarith)]; rw [abs_of_nonpos (by linarith)]; rw [abs_of_nonneg (by linarith)]] <;> ring
    rw [roundsToInt, away]
    cases up
    · simp only [Bool.false_eq_true, if_false] at near ⊢
      refine ⟨near.1, fun tie => ?_⟩
      have := near.2 tie
      cases neg <;> simp only [Bool.toNat_false, Nat.add_zero, Bool.false_eq_true, if_true, if_false] <;> omega
    · simp only [if_true] at near ⊢
      refine ⟨by linarith, fun tie => ?_⟩
      have := near.2 (by linarith)
      cases neg <;> simp only [Bool.toNat_true, Bool.false_eq_true, if_true, if_false] <;> omega

/-- An integer is rounded to itself. -/
theorem roundsToInt_intCast (mode : Rm) (z : Int) : roundsToInt mode (z : ℚ) z := by
  cases mode <;> simp [roundsToInt]

/-- A magnitude rounded to an integer (R68). -/
theorem roundToNat_roundsToInt (neg : Bool) (m : Nat) (e : Int) :
    roundsToInt mode (dyadic neg m e)
      (if neg = true then -((roundToNat mode neg m e false).1 : Int) else ((roundToNat mode neg m e false).1 : Int)) := by
  obtain ⟨parts, rest⟩ := splitAt2_parts m (-e)
  obtain ⟨lo, hlo⟩ : ∃ lo, (splitAt2 m (-e)).1 = lo := ⟨_, rfl⟩
  obtain ⟨rem, hrem⟩ : ∃ rem, (splitAt2 m (-e)).2 = rem := ⟨_, rfl⟩
  have unit : (0 : ℚ) < (2 : ℚ) ^ e := zpow_pos two_pos _
  rw [hlo, hrem] at parts
  rw [hrem] at rest
  have size : (m : ℚ) * (2 : ℚ) ^ e = lo + rem * (2 : ℚ) ^ e := by
    rw [parts, add_mul, mul_assoc, ← zpow_add₀ two_ne_zero, neg_add_cancel, zpow_zero, mul_one]
  rw [dyadic_eq, size]
  by_cases whole : rem = 0
  · have run : (roundToNat mode neg m e false).1 = lo := by simp [roundToNat, hlo, hrem, whole]
    have value : signOf neg * (lo + (rem : ℚ) * (2 : ℚ) ^ e) = ((if neg = true then -(lo : Int) else (lo : Int) : Int) : ℚ) := by
      cases neg <;> simp [signOf, whole]
    rw [run, value]
    exact roundsToInt_intCast _ _
  · have run : (roundToNat mode neg m e false).1 = lo + (roundsUp mode neg lo rem (-e) false).toNat := by
      simp only [roundToNat, hlo, hrem, whole, false_and, if_false]
      cases roundsUp mode neg lo rem (-e) false <;> rfl
    obtain ⟨deep, lt⟩ := rest.resolve_left whole
    obtain ⟨H, half⟩ : ∃ H, H = 2 ^ ((-e).toNat - 1) := ⟨_, rfl⟩
    have twice : 2 ^ (-e).toNat = 2 * H := by rw [half, ← pow_succ']; congr 1; omega
    have one : 2 * (H * (2 : ℚ) ^ e) = 1 := by
      rw [← mul_assoc, ← Nat.cast_ofNat (R := ℚ) (n := 2), ← Nat.cast_mul, ← twice, Nat.cast_pow, ← zpow_natCast, Int.toNat_of_nonneg deep.le,
        Nat.cast_ofNat, ← zpow_add₀ two_ne_zero, neg_add_cancel, zpow_zero]
    have scaled : ∀ {a b : Nat}, a < b → (a : ℚ) * (2 : ℚ) ^ e < b * (2 : ℚ) ^ e := fun lt => mul_lt_mul_of_pos_right (by exact_mod_cast lt) unit
    have some_ := scaled (Nat.pos_of_ne_zero whole)
    have few := scaled (twice ▸ lt)
    push_cast at some_ few
    obtain ⟨keep, take⟩ := roundsUp_rne (neg := neg) (st := false) (lo := lo) (rem := rem) deep
    rw [← half] at keep take
    rw [run]
    refine roundsToInt_between (by linarith) (by linarith) ?rtz ?rdn ?rup ?rne
    case rtz => rintro rfl; rfl
    case rdn => rintro rfl; rfl
    case rup => rintro rfl; rfl
    case rne =>
      rintro rfl
      cases up : roundsUp .rne neg lo rem (-e) false
      · rw [if_neg (by decide)]
        obtain lt | ⟨eq, -, even⟩ := keep up
        · have := scaled lt
          exact ⟨by linarith, fun tie => absurd tie (by linarith)⟩
        · rw [eq]
          exact ⟨by linarith, fun _ => even⟩
      · rw [if_pos rfl]
        obtain gt | ⟨eq, odd⟩ := take up
        · have := scaled gt
          exact ⟨by linarith, fun tie => absurd tie (by linarith)⟩
        · rw [eq]
          exact ⟨by linarith, fun _ => odd.resolve_left (by decide)⟩

/-- A finite value into an integer type: rounded, then clamped to the type's range (R68). -/
theorem toInt_rounds (t : ElemTy) (mode : Rm) {u : Num} {x : ℚ} (hx : u.HasValue x) :
    ∃ r, roundsToInt mode x r ∧ fitsInt t true r (u.toInt t.width t.signed mode).1 ∧ (u.toInt t.width t.signed mode).1 < 2 ^ t.width := by
  obtain ⟨neg, m, e, rfl, rfl⟩ := hx
  exact ⟨_, roundToNat_roundsToInt neg m e, fitInt_fits t true _⟩

/-- convert between the kinds of types (R240). -/
theorem convert_float (fl : t.isFloat = true) (c : Nat) : convert s t mode sat c = (s.val c).toFloat t.ffmt mode sat := by
  rw [convert, if_pos fl]

theorem convert_int_int (it : t.isInt = true) (is : s.isInt = true) (c : Nat) : convert s t mode sat c = fitInt t sat (s.int c) := by
  simp [convert, ElemTy.not_float_of_isInt it, is, fitInt, ElemTy.int]

theorem convert_int_float (it : t.isInt = true) (fl : s.isFloat = true) (c : Nat) : convert s t mode sat c = (s.ffmt.val c).toInt t.width t.signed mode := by
  have no : s.isInt = false := by
    cases s with
    | s32 | n32 | s8 | n8 => exact nomatch fl
    | _ => rfl
  simp [convert, ElemTy.not_float_of_isInt it, no, ElemTy.val_of_isFloat fl]

end Sys2Proof

namespace Sys2Proof.Machine

variable {t : ElemTy}

/-- Replacing one sub-element. -/
theorem subOf_putSub (v : t ≠ .fp64) (x : Half) (i n : Nat) {j : Nat} (lt : j < t.count) :
    subOf t (putSub t x i n) j = if j = i then n % 2 ^ t.width else subOf t x j := by
  rw [putSub, subOf_packSubs v (by simp) (by simpa using lt), List.getElem_map, List.getElem_range]
  split
  · rfl
  · exact Nat.mod_eq_of_lt (subOf_lt _ _ _)

/-- One step of VCVT: sub-element `dst i` is replaced where i is taken. -/
def cvtStep (t : ElemTy) (ok : Nat → Prop) [DecidablePred ok] (dst : Nat → Nat) (g : Nat → Nat × Flags) (acc : Half × Flags) (i : Nat) : Half × Flags :=
  if ok i then (putSub t acc.1 (dst i) (g i).1, acc.2 ||| (g i).2) else acc

/-- Steps with different places: a place that none of them takes stays, and each place taken holds what its step put there. -/
theorem subOf_cvtSteps (v : t ≠ .fp64) {ok : Nat → Prop} [DecidablePred ok] {dst : Nat → Nat} (inj : ∀ i k, dst i = dst k → i = k)
    (g : Nat → Nat × Flags) (y : Half × Flags) (n : Nat) {j : Nat} (lt : j < t.count) :
    ((∀ i < n, ok i → dst i ≠ j) → subOf t ((List.range n).foldl (cvtStep t ok dst g) y).1 j = subOf t y.1 j)
      ∧ ∀ i < n, ok i → dst i = j → subOf t ((List.range n).foldl (cvtStep t ok dst g) y).1 j = (g i).1 % 2 ^ t.width := by
  induction n with
  | zero => exact ⟨fun _ => rfl, fun i no => absurd no (Nat.not_lt_zero i)⟩
  | succ n ih =>
    rw [List.range_succ, List.foldl_append, List.foldl_cons, List.foldl_nil, cvtStep]
    refine ⟨fun none_ => ?_, fun i le taken here => ?_⟩
    · split
      · rw [subOf_putSub v _ _ _ lt, if_neg (Ne.symm (none_ n (Nat.lt_succ_self n) ‹_›))]
        exact ih.1 fun i lt => none_ i (Nat.lt_succ_of_lt lt)
      · exact ih.1 fun i lt => none_ i (Nat.lt_succ_of_lt lt)
    · obtain rfl | lt' := (Nat.lt_succ_iff.1 le).eq_or_lt
      · rw [if_pos taken, subOf_putSub v _ _ _ lt, if_pos here.symm]
      · have earlier := ih.2 i lt' taken here
        split
        · rw [subOf_putSub v _ _ _ lt, if_neg fun same => absurd (inj i n (here.trans same)) lt'.ne]
          exact earlier
        · exact earlier

/-- The source and the destination of the ith value that VCVT converts (R240). -/
def cvtSrc (s t : ElemTy) (part i : Nat) : Nat := if t.count < s.count then part * min s.count t.count + i else i
def cvtDst (s t : ElemTy) (part i : Nat) : Nat := if s.count < t.count then part * min s.count t.count + i else i

/-- The sub-elements that VCVT names, each with its source, and the others, which stay (R240). -/
theorem subOf_cvtElem {s : ElemTy} (v : t ≠ .fp64) (part : Nat) (mode : Rm) (sat : Bool) (x y : Half) {j : Nat} (lt : j < t.count) :
    let m := min s.count t.count
    let from_ := if t.count < s.count then part * m + j else if s.count < t.count then j - part * m else j
    let named := (s.count < t.count → part * m ≤ j ∧ j < part * m + m) ∧ (t.count < s.count → part * m + j < s.count)
    (¬ named → subOf t (cvtElem s t part mode sat x y).1 j = subOf t y j)
      ∧ (named → subOf t (cvtElem s t part mode sat x y).1 j = (convert s t mode sat (subOf s x from_)).1 % 2 ^ t.width) := by
  intro m from_ named
  have run : cvtElem s t part mode sat x y
      = (List.range m).foldl (cvtStep t (fun i => cvtSrc s t part i < s.count ∧ cvtDst s t part i < t.count) (cvtDst s t part)
          (fun i => convert s t mode sat (subOf s x (cvtSrc s t part i)))) (y, 0) := rfl
  have inj : ∀ i k, cvtDst s t part i = cvtDst s t part k → i = k := by intro i k; unfold cvtDst; split <;> omega
  obtain ⟨kept, put⟩ := subOf_cvtSteps v (ok := fun i => cvtSrc s t part i < s.count ∧ cvtDst s t part i < t.count) inj
    (fun i => convert s t mode sat (subOf s x (cvtSrc s t part i))) (y, 0) m lt
  rw [run]
  unfold cvtSrc cvtDst at kept put
  refine ⟨fun no => kept fun i small ok here => no ?_, fun yes => ?_⟩
  · simp only [named, m] at small ok here ⊢
    generalize part * min s.count t.count = first at *
    split at ok <;> split at here <;> omega
  · have source : cvtSrc s t part (if s.count < t.count then j - part * m else j) = from_ := by
      simp only [cvtSrc, from_, m]
      split <;> split <;> omega
    rw [← source]
    refine put _ ?_ ?_ ?_
    all_goals
      simp only [named, m] at yes ⊢
      generalize part * min s.count t.count = first at *
    · split <;> omega
    · split <;> split <;> omega
    · split <;> omega

end Sys2Proof.Machine
end

section
/-! Arithmetic vector words (R233 to R236): what each computes for the sub-elements of its type. -/

namespace Sys2Proof.Machine

variable {c : Core} {d a b q : VReg} {t : ElemTy}

theorem isFloat_of_mem (fl : t ∈ [ElemTy.fp32, .bf16, .fp16, .e4m3, .e5m2]) : t.isFloat = true ∧ t ≠ .fp64 := by
  fin_cases fl <;> exact ⟨rfl, by decide⟩

theorem isInt_of_mem (i : t ∈ [ElemTy.s32, .n32, .s8, .n8]) : t.isInt = true ∧ t ≠ .fp64 := by
  fin_cases i <;> exact ⟨rfl, by decide⟩

/-- A float code keeps all its bits in a sub-element. -/
theorem codeValue_mod (fl : t.isFloat = true) {n : Nat} {y : ℚ} (cv : codeValue t.ffmt n y) : codeValue t.ffmt (n % 2 ^ t.width) y := by
  rwa [Nat.mod_eq_of_lt (two_mul_signBit fl ▸ cv.1)]

theorem subMinMax_float (fl : t.isFloat = true) (mx : Bool) (x y : Nat) : subMinMax t mx x y = fpMinMax t.ffmt mx x y := by
  rw [subMinMax, if_pos fl]

theorem subCmp_float (fl : t.isFloat = true) (k x y : Nat) : subCmp t k x y = condHolds k (t.ffmt.val x) (t.ffmt.val y) := by
  rw [subCmp, ElemTy.val_of_isFloat fl, ElemTy.val_of_isFloat fl]

/-- The code of a compare with an unordered operand. -/
theorem cmpCode_unordered (w k : Nat) : (if decide (3 ≤ k) = true then 2 ^ w - 1 else 0) % 2 ^ w = if 3 ≤ k then 2 ^ w - 1 else 0 := by
  have pos := Nat.two_pow_pos w
  simp only [decide_eq_true_eq]
  split
  · exact Nat.mod_eq_of_lt (by omega)
  · rfl

/-- VNEG of a float code inverts its sign bit and no other (R234). -/
theorem subNeg_float (fl : t.isFloat = true) (sat : Bool) {n : Nat} (lt : n < 2 ^ t.width) :
    subNeg t sat n % 2 ^ t.width % t.ffmt.signBit = n % t.ffmt.signBit ∧ subNeg t sat n % 2 ^ t.width / t.ffmt.signBit = 1 - n / t.ffmt.signBit := by
  have lt : n < 2 * t.ffmt.signBit := two_mul_signBit fl ▸ lt
  rw [subNeg, if_pos fl, ← two_mul_signBit fl, Nat.mod_eq_of_lt lt]
  obtain ⟨small, low, high⟩ := xor_top lt
  rw [← FFmt.signBit] at small low high
  rw [Nat.mod_eq_of_lt small]
  exact ⟨low, high⟩

/-- VABS of a float code clears its sign bit (R234). -/
theorem subAbs_float (fl : t.isFloat = true) (sat : Bool) (n : Nat) : subAbs t sat n % 2 ^ t.width = n % t.ffmt.signBit := by
  have pos : 0 < t.ffmt.signBit := Nat.two_pow_pos _
  have := Nat.mod_lt n pos
  rw [subAbs, if_pos fl, ← two_mul_signBit fl, Nat.mod_eq_of_lt (by omega)]

/-- Settles O38: a lane-wise word does in each sub-element what the lemma of its operation says of the codes there; VCVT as `cvtElem` converts. -/
theorem vectorTypedResults : Obligations.VectorTypedResults := by
  intro c v d a b q ty st rm sat k part planes
  simp only [vValue]
  refine ⟨fun fl => ?floats, fun int => ?ints, fun six eq => ?orris, fun ty64 st64 => ?cvt⟩
  case floats =>
    obtain ⟨fl, v64⟩ := isFloat_of_mem fl
    have h := ty.ffmt_hasFields
    refine ⟨lanesOf_lane2 planes v64 fun e i _ m n hx hy range => ?_, lanesOf_lane2 planes v64 fun e i _ m n hx hy range => ?_,
      lanesOf_lane2 planes v64 fun e i _ m n hx hy range => ?_, lanesOf_lane3 planes v64 fun e i _ m n o hx hy hz range => ?_,
      lanesOf_lane2 planes v64 fun e i _ => ?vmin, lanesOf_lane2 planes v64 fun e i _ m n hx hy => ?vmax,
      lanesOf_lane2 planes v64 fun e i _ => ?vcmp, lanesOf_lane1 planes v64 fun e i _ => subAbs_float fl sat _,
      lanesOf_lane1 planes v64 fun e i _ => subNeg_float fl sat (subOf_lt _ _ _)⟩
    · rw [subAdd_float fl]; exact roundsTo_mod fl (fpAdd_roundsTo h hx.2 hy.2 range)
    · rw [subSub_float fl]; exact roundsTo_mod fl (fpSub_roundsTo h hx.2 hy.2 range)
    · rw [subMul_float fl]; exact roundsTo_mod fl (fpMul_roundsTo h hx.2 hy.2 range)
    · rw [subFma_float fl]; exact roundsTo_mod fl (fpFma_roundsTo h hx.2 hy.2 hz.2 range)
    case vmin =>
      rw [subMinMax_float fl]
      refine ⟨fun m n hx hy => codeValue_mod fl (fpMinMax_value hx hy).1, fun n nan hy => ?_, fun m hx nan => ?_⟩
      · rw [(fpMinMax_nan false).1 nan hy, Nat.mod_eq_of_lt (subOf_lt _ _ _)]
      · rw [(fpMinMax_nan false).2 hx nan, Nat.mod_eq_of_lt (subOf_lt _ _ _)]
    case vmax =>
      rw [subMinMax_float fl]
      exact codeValue_mod fl (fpMinMax_value hx hy).2
    case vcmp =>
      rw [subCmp_float fl]
      refine ⟨fun m n hx hy r iff => cmpCode_spec _ _ r ((condHolds_value hx.2 hy.2 _).trans iff.symm), fun nan => ?_⟩
      rw [condHolds_unordered (nan.imp unordered_of_isNaNValue unordered_of_isNaNValue)]
      exact cmpCode_unordered _ _
  case ints =>
    obtain ⟨i, v64⟩ := isInt_of_mem int
    refine ⟨lanesOf_lane2 planes v64 fun e j _ => ?_, lanesOf_lane2 planes v64 fun e j _ => ?_, lanesOf_lane2 planes v64 fun e j _ => ?_,
      lanesOf_lane3 planes v64 fun e j _ => ?_, lanesOf_lane2 planes v64 fun e j _ => ?_, lanesOf_lane2 planes v64 fun e j _ => ?_,
      lanesOf_lane1 planes v64 fun e j _ => ?_, lanesOf_lane1 planes v64 fun e j _ => ?_,
      fun k3 => lanesOf_lane2 planes v64 fun e j _ => cmpCode_spec _ _ _ (subCmp_int i k3 _ _),
      lanesOf_lane2 planes v64 fun e j _ => (subShift_spec ty (subOf_lt _ _ _) (subOf_lt _ _ _)).1,
      lanesOf_lane2 planes v64 fun e j _ => (subShift_spec ty (subOf_lt _ _ _) (subOf_lt _ _ _)).2.1,
      lanesOf_lane2 planes v64 fun e j _ => (subShift_spec ty (subOf_lt _ _ _) (subOf_lt _ _ _)).2.2⟩
    · rw [subAdd_int i]; exact fitInt_fits_mod ..
    · rw [subSub_int i]; exact fitInt_fits_mod ..
    · rw [subMul_int i]; exact fitInt_fits_mod ..
    · rw [subFma_int i]; exact fitInt_fits_mod ..
    · rw [ElemTy.int_mod]; exact (subMinMax_int i _ _).1
    · rw [ElemTy.int_mod]; exact (subMinMax_int i _ _).2
    · rw [subAbs_int i]; exact fitInt_fits_mod ..
    · rw [subNeg_int i]; exact fitInt_fits_mod ..
  case orris =>
    obtain rfl : ty = orrisTy six := eq
    have lt : ∀ x i, subOf (orrisTy six) x i < 2 * navCode six := fun x i => lt_two_mul_navCode (subOf_lt _ x i)
    have nav : navCode six % 2 ^ (orrisTy six).width = navCode six := Nat.mod_eq_of_lt (by rw [← two_mul_navCode]; cases six <;> decide)
    have keep : ∀ {n}, n < 2 * navCode six → n % 2 ^ (orrisTy six).width = n := fun small => Nat.mod_eq_of_lt (two_mul_navCode six ▸ small)
    refine ⟨lanesOf_lane2 planes (orrisTy_ne six) fun e i _ => ?_, lanesOf_lane2 planes (orrisTy_ne six) fun e i _ => ?_,
      lanesOf_lane2 planes (orrisTy_ne six) fun e i _ no => ?_, lanesOf_lane1 planes (orrisTy_ne six) fun e i _ => ?_⟩
    · obtain ⟨no, left, right⟩ := subAdd_orris (mode := v.rm) (sat := sat) (lt (c.elem a e) i) (lt (c.elem b e) i)
      exact ⟨fun is => by rw [no is, nav], fun zero is => by rw [left zero fun y => is (.inr y), keep (lt _ _)],
        fun zero is => by rw [right zero fun x => is (.inl x), keep (lt _ _)]⟩
    · obtain ⟨no, logs⟩ := subMul_orris (mode := v.rm) (sat := sat) (six := six) (a := subOf (orrisTy six) (c.elem a e) i) (b := subOf (orrisTy six) (c.elem b e) i)
      exact ⟨fun is => by rw [no is, nav], fun s r m n va vb => by rw [logs s r m n va vb, keep (toLgLog_lt _ _ _)]⟩
    · have unordered : (lgVal six (subOf (orrisTy six) (c.elem a e) i)).unordered = true ∨ (lgVal six (subOf (orrisTy six) (c.elem b e) i)).unordered = true :=
        no.imp (fun x => by rw [x, lgVal_navCode]; rfl) (fun y => by rw [y, lgVal_navCode]; rfl)
      rw [subCmp, val_orrisTy, val_orrisTy, condHolds_unordered unordered]
      exact cmpCode_unordered _ _
    · have inverted := subNeg_orris (sat := sat) (lt (c.elem a e) i)
      split at inverted
      · rw [if_pos ‹_›, inverted, keep (lt _ _)]
      · rw [if_neg ‹_›, keep inverted.1]
        exact inverted.2
  case cvt =>
    refine writesElems_mapActive fun e live j lt => ?_
    rw [at_plane planes a live.1, at_plane planes d live.1]
    obtain ⟨kept, put⟩ := subOf_cvtElem (s := st) ty64 part.val v.rm sat (c.elem a e) (c.elem d e) lt
    refine ⟨kept, fun named => ?_⟩
    rw [put named]
    refine ⟨fun fl flS p value range => ?_, fun fl intS range => ?_, fun int intS => ?_, fun int flS p value => ?_⟩
    · rw [convert_float fl, ElemTy.val_of_isFloat flS]
      exact roundsTo_mod fl (toFloat_roundsTo ty.ffmt_hasFields value.2 range)
    · rw [convert_float fl, ElemTy.val_of_isInt intS]
      exact roundsTo_mod fl (toFloat_roundsTo ty.ffmt_hasFields (intNum_hasValue _) range)
    · rw [convert_int_int int intS]
      exact fitInt_fits_mod ..
    · obtain ⟨r, rounds, fits, small⟩ := toInt_rounds ty v.rm value.2
      rw [convert_int_float int flS, Nat.mod_eq_of_lt small]
      exact ⟨r, rounds, fits⟩

end Sys2Proof.Machine
end

section
/-! Accumulation of log products (R73, R76, R275): a run of additions in 128 bits, exact until a partial sum leaves s128. -/

namespace Sys2Proof.Machine

/-- The sum of an entry's M and the terms of log products. -/
def logSum (e : AccEntry) (ps : List (Num × Num)) : Int := e.m.toInt + (ps.map lgTerm).sum

/-- A log product without a NaV adds its term to an entry that holds none. -/
theorem AccEntry.addLog_of_isLog {e : AccEntry} {p : Num × Num} (logs : isLog p.1 ∧ isLog p.2) (nv : e.nv = false) : e.addLog p = e.addInt (lgTerm p) := by
  unfold AccEntry.addLog
  split
  · rename_i nav
    exact (nav ▸ logs.1 : isLog (.nav _)).elim
  · rename_i nav _
    exact (nav ▸ logs.2 : isLog (.nav _)).elim
  · rw [nv]
    rfl

/-- Does the sum of an entry's M and of the first n terms stand in s128? -/
def logInside (e : AccEntry) (ps : List (Num × Num)) (n : Nat) : Prop := fits128 (logSum e (ps.take n)) = true

/-- The sums of a run after its first product. -/
theorem logSum_cons (e : AccEntry) (p : Num × Num) (ps : List (Num × Num)) : logSum e (p :: ps) = e.m.toInt + lgTerm p + (ps.map lgTerm).sum := by
  simp [logSum, add_assoc]

theorem fits128_iff (x : Int) : fits128 x = true ↔ -(2 ^ 127 : Int) ≤ x ∧ x < (2 ^ 127 : Int) := by
  simp [fits128]

theorem toInt_ofInt_of_fits128 {x : Int} (fits : fits128 x = true) : (BitVec.ofInt 128 x).toInt = x := by
  obtain ⟨lo, hi⟩ := (fits128_iff x).1 fits
  rw [BitVec.toInt_ofInt]
  exact Int.bmod_eq_of_le_mul_two (by push_cast; omega) (by push_cast; omega)

/-- M itself stands in s128. -/
theorem logInside_zero (e : AccEntry) (ps : List (Num × Num)) : logInside e ps 0 := by
  have lo := BitVec.le_toInt e.m
  have hi := BitVec.toInt_lt (x := e.m)
  rw [logInside, fits128_iff]
  simpa [logSum] using And.intro lo hi

/-- The sums of a run are those of the rest of it from the entry that the first product leaves, while that one stays inside. -/
theorem logInside_succ {e : AccEntry} {p : Num × Num} {ps : List (Num × Num)} (fits : fits128 (e.m.toInt + lgTerm p) = true) (n : Nat) :
    logInside e (p :: ps) (n + 1) ↔ logInside (e.addInt (lgTerm p)) ps n := by
  rw [logInside, logInside, List.take_succ_cons, logSum_cons, logSum, AccEntry.addInt, toInt_ofInt_of_fits128 fits]

theorem logInside_one (e : AccEntry) (p : Num × Num) (ps : List (Num × Num)) : logInside e (p :: ps) 1 ↔ fits128 (e.m.toInt + lgTerm p) = true := by
  rw [logInside, List.take_succ_cons, logSum_cons]
  simp

/-- What a run of log products leaves in an entry. -/
theorem addLogs_run (ps : List (Num × Num)) {e : AccEntry} (logs : ∀ p ∈ ps, isLog p.1 ∧ isLog p.2) (nv : e.nv = false) :
    let x := ps.foldl AccEntry.addLog e
    x.m = BitVec.ofInt 128 (logSum e ps) ∧ x.nv = false ∧ x.tag = e.tag ∧ x.exp = e.exp
      ∧ ((∀ n ≤ ps.length, logInside e ps n) → x.ovf = e.ovf)
      ∧ (e.ovf = true ∨ (∃ n ≤ ps.length, (∀ m < n, logInside e ps m) ∧ ¬ logInside e ps n) → x.ovf = true) := by
  induction ps generalizing e with
  | nil =>
    refine ⟨by simp [logSum], nv, rfl, rfl, fun _ => rfl, ?_⟩
    rintro (set | ⟨n, le, -, out⟩)
    · exact set
    · exact absurd (Nat.le_zero.1 le ▸ logInside_zero e []) out
  | cons p ps ih =>
    obtain ⟨m, nv', tag, exp, clear, set⟩ := ih (e := e.addInt (lgTerm p)) (fun q mem => logs q (List.mem_cons_of_mem _ mem)) nv
    have ovf : (e.addInt (lgTerm p)).ovf = (e.ovf || !fits128 (e.m.toInt + lgTerm p)) := rfl
    rw [List.foldl_cons, AccEntry.addLog_of_isLog (logs p List.mem_cons_self) nv]
    refine ⟨?_, nv', tag, exp, fun inside => ?_, ?_⟩
    · rw [m, logSum_cons, logSum, AccEntry.addInt, BitVec.ofInt_add, BitVec.ofInt_toInt, ← BitVec.ofInt_add]
    · have fits := (logInside_one e p ps).1 (inside 1 (by simp))
      rw [clear fun n le => (logInside_succ fits n).1 (inside (n + 1) (Nat.succ_le_succ le)), ovf, fits, Bool.not_true, Bool.or_false]
    · rintro (before | ⟨n, le, inside, out⟩)
      · exact set (.inl (by rw [ovf, before, Bool.true_or]))
      · by_cases fits : fits128 (e.m.toInt + lgTerm p) = true
        · obtain _ | n := n
          · exact absurd (logInside_zero e _) out
          · exact set (.inr ⟨n, Nat.le_of_succ_le_succ le, fun k lt => (logInside_succ fits k).1 (inside (k + 1) (Nat.succ_lt_succ lt)),
              mt (logInside_succ fits n).2 out⟩)
        · exact set (.inl (by rw [ovf, Bool.eq_false_iff.2 fits, Bool.not_false, Bool.or_true]))

/-- The entry that an issue of PLOG adds its terms to: TAG 2, EXP −28 (R275). -/
def AccEntry.forLogs (e : AccEntry) : AccEntry := { e with tag := 2, exp := BitVec.ofInt 28 (-28) }

/-- Settles O43, by induction on the products of a run. -/
theorem fixedPointAccumulationIsExact : Obligations.FixedPointAccumulationIsExact := by
  intro e ps logs nv ovf x sum inside
  obtain ⟨m, nv', tag, exp, clear, set⟩ := addLogs_run ps (e := e.forLogs) logs nv
  have whole : sum ps.length = logSum e.forLogs ps := by simp only [sum, List.take_length, logSum, AccEntry.forLogs]
  have inside_iff : ∀ n, inside (sum n) ↔ logInside e.forLogs ps n := fun n => (fits128_iff _).symm
  refine ⟨whole ▸ m, nv', tag, (congrArg BitVec.toInt exp).trans (by decide : (BitVec.ofInt 28 (-28)).toInt = -28), fun all => ⟨?_, ?_⟩, fun n le before out => ?_⟩
  · rw [show x.m = _ from m]
    exact (toInt_ofInt_of_fits128 ((fits128_iff _).2 (whole ▸ all _ le_rfl))).trans whole.symm
  · exact (clear fun n le => (inside_iff n).1 (all n le)).trans ovf
  · exact set (.inr ⟨n, le, fun k lt => (inside_iff k).1 (before k lt), mt (inside_iff n).2 out⟩)

end Sys2Proof.Machine
end

section
/-! Records that retire (R64, R201, R271, R308, R380, R382): what the retirement signals, and what it leaves alone. -/

namespace Sys2Proof.Machine

/-! ### What a retirement signals -/

theorem rStok_lt (ws : RWords) : rStok ws < 8 := Nat.mod_lt _ (by decide)

/-- The flags of a group join those that stand (R64). -/
theorem Core.getLsbD_orFlags (c : Core) {n : Nat} (small : n ≤ 11) (f : Flags) (i : Nat) :
    (c.orFlags n f).ctl.fpcs.getLsbD i = (c.ctl.fpcs.getLsbD i || (decide (5 * n ≤ i ∧ i < 5 * n + 5) && f.getLsbD (i - 5 * n))) := by
  rw [Core.orFlags]
  simp only [BitVec.getLsbD_or, BitVec.getLsbD_shiftLeft, BitVec.getLsbD_setWidth]
  congr 1
  by_cases low : 5 * n ≤ i
  · by_cases high : i < 5 * n + 5
    · have : i < 64 := by omega
      have : i - 5 * n < 64 := by omega
      simp [*]
    · simp [high, BitVec.getLsbD_of_ge f _ (by omega : 5 ≤ i - 5 * n)]
  · simp [low]

/-- The registers, the pc and the running records are none of what a retirement signals. -/
theorem Core.signalRecord_frame (c : Core) (product : Bool) (r : QRec) :
    (c.signalRecord product r).trun = c.trun ∧ (c.signalRecord product r).prun = c.prun ∧ (c.signalRecord product r).g = c.g
      ∧ (c.signalRecord product r).pc = c.pc := by
  unfold Core.signalRecord
  dsimp only
  split <;> split <;> exact ⟨rfl, rfl, rfl, rfl⟩

/-- The record's token, where it has one, counts one more retired (R382). -/
theorem Core.signalRecord_tok (c : Core) (product : Bool) (r : QRec) (k : Fin 8) :
    (c.signalRecord product r).tok.get k
      = if rTv r.words = true ∧ rStok r.words = k.val then { c.tok.get k with ret := (c.tok.get k).ret + 1 } else c.tok.get k := by
  have tok : (c.signalRecord product r).tok = if rTv r.words = true then (c.setTok (rStok r.words) (fun t => { t with ret := t.ret + 1 })).tok else c.tok := by
    unfold Core.signalRecord
    dsimp only
    split <;> split <;> rfl
  rw [tok]
  by_cases counts : rTv r.words = true
  · obtain ⟨n, stok⟩ : ∃ n : Fin 8, rStok r.words = n.val := ⟨⟨_, rStok_lt _⟩, rfl⟩
    have own : Fin.ofNat 8 n.val = n := Fin.ext (Nat.mod_eq_of_lt n.isLt)
    have same : n.val = k.val ↔ k = n := by rw [Fin.ext_iff]; exact eq_comm
    simp only [counts, if_true, true_and, stok, Core.setTok, own, Nat.mod_eq_of_lt n.isLt, vector_get_set, same]
    split
    · rw [‹k = n›]
    · rfl
  · simp [counts]

/-- The record's barrier, where it has one, has one posted record less and one arrival more (R380). -/
theorem Core.signalRecord_bars (c : Core) (product : Bool) (r : QRec) (named : rSbar r.words ≤ 96) (b : Fin 96) :
    (c.signalRecord product r).bars.get b
      = if rSbar r.words = b.val + 1 then ({ c.bars.get b with pc := (c.bars.get b).pc - 1 } : Barrier).arrive else c.bars.get b := by
  have bars : (c.signalRecord product r).bars = if rSbar r.words = 0 then c.bars
      else (c.setBarrier (rSbar r.words - 1) (fun b => ({ b with pc := b.pc - 1 } : Barrier).arrive)).bars := by
    unfold Core.signalRecord
    dsimp only
    split <;> split <;> rfl
  rw [bars]
  by_cases none_ : rSbar r.words = 0
  · rw [if_pos none_, if_neg (by omega)]
  · obtain ⟨n, sbar⟩ : ∃ n : Fin 96, rSbar r.words - 1 = n.val := ⟨⟨_, by omega⟩, rfl⟩
    have own : Fin.ofNat 96 n.val = n := Fin.ext (Nat.mod_eq_of_lt n.isLt)
    have same : rSbar r.words = b.val + 1 ↔ b = n := by rw [Fin.ext_iff]; omega
    simp only [none_, if_false, sbar, Core.setBarrier, own, Nat.mod_eq_of_lt n.isLt, vector_get_set, same]
    split
    · rw [‹b = n›]
    · rfl

/-- The record's flags join those of its engine (R64). -/
theorem Core.signalRecord_fpcs (c : Core) (product : Bool) (r : QRec) (i : Nat) :
    (c.signalRecord product r).ctl.fpcs.getLsbD i = (c.ctl.fpcs.getLsbD i
      || (decide (5 * (if product = true then 2 else 3) ≤ i ∧ i < 5 * (if product = true then 2 else 3) + 5)
        && r.flags.getLsbD (i - 5 * (if product = true then 2 else 3)))) := by
  rw [Core.signalRecord, Core.getLsbD_orFlags _ (by split <;> decide)]
  congr 2
  split <;> split <;> rfl

/-! ### The retirement of a record -/

/-- The core without the record that retires, before its signals: a product record's projections are taken from its entries (R267). -/
def Core.withoutRecord (c : Core) (xfer : Bool) (r : QRec) : Core :=
  if xfer = true then { c with trun := c.trun.filter (fun q => q.number ≠ r.number) }
  else ({ c with prun := c.prun.filter (fun q => q.number ≠ r.number) } : Core).resolve r

theorem Core.withoutRecord_frame (c : Core) (xfer : Bool) (r : QRec) :
    let k := c.withoutRecord xfer r
    k.trun = (if xfer = true then c.trun.filter (fun q => q.number ≠ r.number) else c.trun)
      ∧ k.prun = (if xfer = true then c.prun else c.prun.filter (fun q => q.number ≠ r.number))
      ∧ k.tok = c.tok ∧ k.bars = c.bars ∧ k.ctl = c.ctl ∧ k.g = c.g ∧ k.pc = c.pc := by
  cases xfer
  · simp only [Core.withoutRecord, Bool.false_eq_true, if_false, Core.resolve]
    split <;> exact ⟨rfl, rfl, rfl, rfl, rfl, rfl, rfl⟩
  · exact ⟨rfl, rfl, rfl, rfl, rfl, rfl, rfl⟩

/-- Of the current core a retirement changes what it signals and takes from the running records, and the task's pin; of memory nothing. -/
theorem State.retireRecord_spec (s : State) (xfer : Bool) (r : QRec) :
    (∃ t u, (s.retireRecord xfer r).core = { (s.core.withoutRecord xfer r).signalRecord (!xfer) r with task := t, unpin := u })
      ∧ (s.retireRecord xfer r).mem = s.mem := by
  have slab : ∀ x : State, x = s ∨ x = s.retireSlab r → x.core = s.core ∧ x.mem = s.mem := by
    rintro x (rfl | rfl)
    · exact ⟨rfl, rfl⟩
    · unfold State.retireSlab
      split <;> exact ⟨rfl, rfl⟩
  obtain ⟨core, mem⟩ := slab (if (xfer && !r.off) = true then s.retireSlab r else s) (by split; exacts [.inr rfl, .inl rfl])
  obtain ⟨x, run, core', mem'⟩ : ∃ x : State, s.retireRecord xfer r = x.settlePin ∧ x.core = (s.core.withoutRecord xfer r).signalRecord (!xfer) r
      ∧ x.mem = s.mem := by
    refine ⟨_, rfl, ?_, mem⟩
    cases xfer
    · rfl
    · exact congrArg (fun c : Core => (c.withoutRecord true r).signalRecord false r) core
  rw [run, State.settlePin_mem, mem']
  obtain ⟨t, u, pinned⟩ := x.settlePin_core
  exact ⟨⟨t, u, by rw [pinned, core']⟩, rfl⟩

/-- Settles O45: the record is done, so it retires, and its core is the one that the lemmas above describe field by field. -/
theorem recordRetires : Obligations.RecordRetires := by
  intro s xfer r here done written applied named
  have ready : s.recordDone r = true := by
    simp only [State.recordDone, done, written, List.isEmpty_nil, Bool.and_self, Bool.true_and, Bool.not_eq_true', List.any_eq_false]
    intro m mem
    simp only [Bool.and_eq_true, beq_iff_eq, Bool.not_eq_true', not_and, Bool.not_eq_false]
    exact applied m mem
  have run : exec (.recordRetire xfer) s = .next (s.retireRecord xfer r) := by
    change execRecordRetire xfer s = _
    rw [execRecordRetire, here]
    exact if_pos ready
  obtain ⟨⟨t, u, core⟩, mem⟩ := s.retireRecord_spec xfer r
  obtain ⟨trun, prun, tok, bars, ctl, g, pc⟩ := s.core.withoutRecord_frame xfer r
  obtain ⟨trun', prun', g', pc'⟩ := (s.core.withoutRecord xfer r).signalRecord_frame (!xfer) r
  refine ⟨_, run, fun a => by rw [State.byte, mem]; rfl, ?_⟩
  rw [core]
  refine ⟨trun'.trans trun, prun'.trans prun, fun k => ?_, fun b => ?_, fun i => ?_, fun k => ?_, pc'.trans pc⟩
  · exact (Core.signalRecord_tok _ (!xfer) r k).trans (by rw [tok])
  · exact (Core.signalRecord_bars _ (!xfer) r named b).trans (by rw [bars])
  · refine (Core.signalRecord_fpcs _ (!xfer) r i).trans ?_
    rw [ctl]
    cases xfer <;> rfl
  · exact congrArg (fun g : Vector Word 33 => if k.val = 0 then 0 else g.get k) (g'.trans g)

end Sys2Proof.Machine
end

section
/-! Scalar floating-point words (R190 to R192): they complete with the result and flags of the format's operations. -/

namespace Sys2Proof.Machine

/-- A word that writes a code and its flags does so where its register takes the code (R181, R190). -/
theorem writesFloat_of_run {i : Instr} {d : GReg} {f : Core → Nat × Flags} (run : ∀ s, exec i s = fpResult d f s) : writesFloat i d f :=
  fun s fit => (run s).trans (writeRetire_fits (fun c => c.orFlags 0 (f s.core).2) fit)

/-! ### The sign bit (R191) -/

theorem bitAt_eq_testBit (x i : Nat) : bitAt x i = x.testBit i := by
  rw [Nat.testBit_eq_decide_div_mod_eq]; rfl

/-- Bit i of a sign and a magnitude. -/
theorem testBit_withSign (F : FFmt) (neg : Bool) {m : Nat} (lt : m < F.signBit) (i : Nat) :
    (F.withSign neg m).testBit i = if i = F.eb + F.fb then neg else m.testBit i := by
  have top : F.withSign neg m = 2 ^ (F.eb + F.fb) * neg.toNat + m := by
    cases neg <;> simp [FFmt.withSign, FFmt.signBit, Nat.add_comm]
  rw [top, Nat.testBit_two_pow_mul_add _ lt]
  rcases Nat.lt_trichotomy i (F.eb + F.fb) with below | rfl | above
  · rw [if_pos below, if_neg below.ne]
  · rw [if_neg (lt_irrefl _), if_pos rfl, Nat.sub_self]
    cases neg <;> rfl
  · rw [if_neg above.not_gt, if_neg above.ne', Nat.testBit_lt_two_pow (lt.trans (Nat.pow_lt_pow_right one_lt_two above)),
      Nat.testBit_lt_two_pow (neg.toNat_lt.trans_le (Nat.pow_le_pow_right two_pos (Nat.sub_pos_of_lt above)))]

/-- Bit i of the operand of a width is that bit of its register. -/
theorem testBit_fpCode (dbl : Bool) (w : Word) {i : Nat} (le : i ≤ if dbl then 63 else 31) : (fpCode dbl w).testBit i = w.getLsbD i := by
  cases dbl
  · have lt : i < 32 := Nat.lt_succ_of_le le
    simp only [fpCode, Bool.false_eq_true, if_false, Nat.testBit_mod_two_pow, lt, decide_true, Bool.true_and]
    rfl
  · rfl

theorem scalarFmt_top (dbl : Bool) : (scalarFmt dbl).eb + (scalarFmt dbl).fb = if dbl then 63 else 31 := by
  cases dbl <;> rfl

/-- The bits that FSGN writes: the magnitude of its first operand under a sign bit from both. -/
theorem getLsbD_fpSign (dbl : Bool) (o : Nat) (a b : Word) (i : Nat) :
    (BitVec.ofNat 64 (fpSign (scalarFmt dbl) o (fpCode dbl a) (fpCode dbl b))).getLsbD i =
      let n := if dbl then 63 else 31
      let sa := a.getLsbD n
      let sb := b.getLsbD n
      if i < n then a.getLsbD i else if i = n then (match o with | 0 => sb | 1 => !sb | _ => sa != sb) else false := by
  have width : (if dbl then 63 else 31) < 64 := by cases dbl <;> decide
  unfold fpSign
  rw [BitVec.getLsbD_ofNat, testBit_withSign _ _ (Nat.mod_lt _ (Nat.two_pow_pos _)), FFmt.signBit, Nat.testBit_mod_two_pow, scalarFmt_top,
    bitAt_eq_testBit, bitAt_eq_testBit, testBit_fpCode dbl a le_rfl, testBit_fpCode dbl b le_rfl]
  rcases Nat.lt_trichotomy i (if dbl then 63 else 31) with below | eq | above
  · simp only [below, below.ne, below.trans width, testBit_fpCode dbl a below.le, if_true, if_false, decide_true, Bool.true_and]
  · simp only [eq, width, lt_irrefl, if_true, if_false, decide_true, Bool.true_and] <;> rfl
  · simp only [above.not_gt, above.ne', if_false, decide_false, Bool.false_and, Bool.and_false]

/-! ### Comparison (R191) -/

/-- FCMP writes the relation of its two operands and sets no flag. -/
theorem exec_fcmp (dbl : Bool) (p : PReg) (a b : GReg) (k : Fin 5) (s : State) :
    exec (.fcmp dbl p a b k) s = .next { s with core := (s.core.wp p (condHolds k.val (s.core.fp dbl a) (s.core.fp dbl b))).retire } := rfl

/-- Settles O16: each word writes what its operation of R61 to R64 gives; FCMP, FCLS and FSGN by the lemmas above. -/
theorem scalarFloatWordResults : Obligations.ScalarFloatWordResults := by
  refine ⟨fun dbl rm d a b q k => ⟨writesFloat_of_run fun _ => rfl, writesFloat_of_run fun _ => rfl,
    writesFloat_of_run fun _ => rfl, writesFloat_of_run fun _ => rfl, writesFloat_of_run fun _ => rfl, writesFloat_of_run fun _ => rfl,
    writesFloat_of_run fun _ => rfl⟩, fun dbl a b d p k o => ⟨fun s x y hx hy r holds => ?_,
    fun s nan => ?_, ?_, ?_, writesFloat_of_run fun _ => rfl, writesFloat_of_run fun _ => rfl⟩⟩
  · have value : condHolds k.val (s.core.fp dbl a) (s.core.fp dbl b) = r :=
      Bool.eq_iff_iff.2 ((condHolds_value hx.2 hy.2 k.val).trans holds.symm)
    rw [exec_fcmp, value]
  · rw [exec_fcmp, condHolds_unordered (nan.imp unordered_of_isNaNValue unordered_of_isNaNValue)]
  · rintro s _ ⟨n, -, rfl, rfl⟩ fit
    exact setG_fits fit
  · intro s v bits fit
    have value : BitVec.ofNat 64 (fpSign (scalarFmt dbl) o.val (fpCode dbl (s.core.rd a)) (fpCode dbl (s.core.rd b))) = v :=
      BitVec.eq_of_getLsbD_eq fun i _ => (getLsbD_fpSign dbl o.val _ _ i).trans (bits i).symm
    exact (congrArg (setG d · s) value).trans (setG_fits fit)

end Sys2Proof.Machine
end

section
/-! 32-bit results (R61, R62, R246): the operations on FP32 codes and on words of 32 bits give words of 32 bits. -/

namespace Sys2Proof

open Machine

theorem fp32_hasFields : FFmt.fp32.HasFields := ⟨by decide, by decide⟩

/-- Both signs of a magnitude code of FP32 are words of 32 bits. -/
theorem fp32_withSign_lt (neg : Bool) {n : Nat} (lt : n < 2 ^ 31) : FFmt.fp32.withSign neg n < 2 ^ 32 :=
  (FFmt.withSign_parts (F := .fp32) lt).2.2

/-- The fraction of a NaN that a code holds fits into its field. -/
theorem FFmt.val_nan {F : FFmt} {c : Nat} {neg : Bool} {frac fb : Nat} (nan : F.val c = .nan neg frac fb) : frac < 2 ^ F.fb ∧ fb = F.fb := by
  have lt := Nat.mod_lt c (Nat.two_pow_pos F.fb)
  simp only [FFmt.val] at nan
  split_ifs at nan <;> injection nan with _ frac_eq fb_eq <;> exact ⟨frac_eq ▸ lt, fb_eq.symm⟩

/-- A quiet NaN of FP32 is a word of 32 bits. -/
theorem nanQuiet_fp32_lt (neg : Bool) {frac : Nat} (lt : frac < 2 ^ 23) : nanQuiet .fp32 neg frac 23 < 2 ^ 32 := by
  have quiet : FFmt.fp32.infCode + (if frac * 2 ^ 0 = 0 then 2 ^ 22 else frac * 2 ^ 0) < 2 ^ 31 := by
    have : FFmt.fp32.infCode = 0x7F800000 := rfl
    split <;> omega
  exact Nat.or_lt_two_pow (n := 32) (fp32_withSign_lt neg quiet) (by decide)

/-- The NaN that an operation on FP32 codes passes on is a word of 32 bits. -/
theorem firstNaN_fp32_lt {cs : List Nat} {r : Nat} (first : firstNaN .fp32 (cs.map FFmt.fp32.val) = some r) : r < 2 ^ 32 := by
  induction cs with
  | nil => exact nomatch first
  | cons c cs ih =>
    rw [List.map_cons] at first
    cases val : FFmt.fp32.val c with
    | nan neg frac fb =>
      obtain ⟨lt, rfl⟩ := FFmt.val_nan val
      rw [val] at first
      exact Option.some.inj first ▸ nanQuiet_fp32_lt neg lt
    | nav | inf | dy | lg => rw [val] at first; exact ih first

theorem infResult_fp32_lt (neg : Bool) : (infResult .fp32 neg).1 < 2 ^ 32 := by
  cases neg <;> decide

theorem roundInt_lt {F : FFmt} (h : F.HasFields) (mode : Rm) (sat : Bool) (v e : Int) (st : Bool) : (roundInt F mode sat v e st).1 < 2 * F.signBit := by
  unfold roundInt
  split <;> exact roundMag_lt h

/-- A sum of FP32 codes is a word of 32 bits. -/
theorem fpAdd_fp32_lt (mode : Rm) (sat : Bool) (a b : Nat) : (fpAdd .fp32 mode sat (FFmt.fp32.val a) (FFmt.fp32.val b)).1 < 2 ^ 32 := by
  have nan := fun r => firstNaN_fp32_lt (cs := [a, b]) (r := r)
  rw [List.map_cons, List.map_cons, List.map_nil] at nan
  unfold fpAdd
  split
  · exact nan _ ‹_›
  · split
    · split
      · exact infResult_fp32_lt _
      · decide
    · exact infResult_fp32_lt _
    · exact infResult_fp32_lt _
    · simp only [addDy]
      split
      · exact fp32_withSign_lt _ (by decide)
      · exact roundInt_lt fp32_hasFields _ _ _ _ _
    · decide

/-- The smaller or larger of two FP32 codes is a word of 32 bits where they are. -/
theorem fpMinMax_fp32_lt (mx : Bool) {a b : Nat} (la : a < 2 ^ 32) (lb : b < 2 ^ 32) : fpMinMax .fp32 mx a b < 2 ^ 32 := by
  unfold fpMinMax
  split
  · rename_i va _
    obtain ⟨lt, rfl⟩ := FFmt.val_nan va
    exact nanQuiet_fp32_lt _ lt
  · exact lb
  · exact la
  · simp only
    split <;> assumption

end Sys2Proof

namespace Sys2Proof.Machine

variable {t : ElemTy}

theorem subAdd_lt (whole : t ∈ [ElemTy.fp32, .s32, .n32]) (mode : Rm) (sat : Bool) (a b : Nat) : (subAdd t mode sat a b).1 < 2 ^ 32 := by
  fin_cases whole
  · exact fpAdd_fp32_lt mode sat a b
  · exact wrapN_lt 32 _
  · exact wrapN_lt 32 _

theorem subMinMax_lt (whole : t ∈ [ElemTy.fp32, .s32, .n32]) (mx : Bool) {a b : Nat} (la : a < 2 ^ 32) (lb : b < 2 ^ 32) : subMinMax t mx a b < 2 ^ 32 := by
  fin_cases whole
  · exact fpMinMax_fp32_lt mx la lb
  all_goals
    change (if _ then a else b) < 2 ^ 32
    split <;> assumption

/-! ### combine (R246) -/

/-- An input or a partial result of 32 bits, or an absent one. -/
def isWord (x : Option (Nat × Flags)) : Prop := ∀ r ∈ x, r.1 < 2 ^ 32

variable {mode : Rm} {sat : Bool} {op : Nat} {a b : Option (Nat × Flags)}

theorem combine_isSome (some_ : a.isSome ∨ b.isSome) : (combine t mode sat op a b).isSome := by
  cases a <;> cases b
  · exact absurd some_ (by simp)
  · rfl
  · rfl
  · simp only [combine]
    split <;> rfl

theorem combine_isWord (whole : t ∈ [ElemTy.fp32, .s32, .n32]) (wa : isWord a) (wb : isWord b) : isWord (combine t mode sat op a b) := by
  cases a <;> cases b
  · exact wb
  · exact wb
  · exact wa
  · simp only [combine, isWord, Option.mem_def]
    split
    · rintro _ ⟨⟩
      exact subAdd_lt whole ..
    · rintro _ ⟨⟩
      exact subMinMax_lt whole _ (wa _ rfl) (wb _ rfl)

end Sys2Proof.Machine
end

section
/-! Reductions and scans (R246, R247): the tree level by level, and the combinations up to each input. -/

namespace Sys2Proof.Machine

variable {α : Type} {f : Option (Nat × Flags) → Option (Nat × Flags) → Option (Nat × Flags)}

/-! ### The tree -/

/-- The partial results of level k of the tree over l. -/
def treeAt (f : Option (Nat × Flags) → Option (Nat × Flags) → Option (Nat × Flags)) (l : List (Option (Nat × Flags))) (k : Nat) :
    List (Option (Nat × Flags)) := (treeLevel f)^[k] l

theorem treeAt_succ (l : List (Option (Nat × Flags))) (k : Nat) : treeAt f l (k + 1) = treeLevel f (treeAt f l k) :=
  Function.iterate_succ_apply' _ _ _

/-- A level halves an even number of inputs, and combines neighbours. -/
theorem treeLevel_spec {n : Nat} {l : List (Option (Nat × Flags))} (len : l.length = 2 * n) :
    (treeLevel f l).length = n ∧ ∀ j < n, (treeLevel f l).getD j none = f (l.getD (2 * j) none) (l.getD (2 * j + 1) none) := by
  induction n generalizing l with
  | zero =>
    obtain rfl := List.length_eq_zero_iff.1 len
    exact ⟨rfl, fun _ lt => absurd lt (Nat.not_lt_zero _)⟩
  | succ n ih =>
    match l, len with
    | x :: y :: r, len =>
      obtain ⟨length, values⟩ := ih (l := r) (by simpa [Nat.mul_succ] using len)
      refine ⟨congrArg (· + 1) length, fun j lt => ?_⟩
      cases j with
      | zero => rfl
      | succ j => exact values j (Nat.lt_of_succ_lt_succ lt)

theorem length_treeAt {size k : Nat} (le : k ≤ size) {l : List (Option (Nat × Flags))} (len : l.length = 2 ^ size) :
    (treeAt f l k).length = 2 ^ (size - k) := by
  induction k with
  | zero => exact len
  | succ k ih =>
    rw [treeAt_succ]
    refine (treeLevel_spec ?_).1
    rw [ih (by omega), ← pow_succ']
    congr 1
    omega

/-- Each level combines the neighbours of the level below. -/
theorem getD_treeAt_succ {size k j : Nat} (lt : k < size) {l : List (Option (Nat × Flags))} (len : l.length = 2 ^ size) (at_ : j < 2 ^ (size - 1 - k)) :
    (treeAt f l (k + 1)).getD j none = f ((treeAt f l k).getD (2 * j) none) ((treeAt f l k).getD (2 * j + 1) none) := by
  rw [treeAt_succ]
  refine (treeLevel_spec ?_).2 j at_
  rw [length_treeAt lt.le len, ← pow_succ']
  congr 1
  omega

/-- Once a single value is left, the tree is done. -/
theorem tree_singleton (n : Nat) (x : Option (Nat × Flags)) : tree f n [x] = x := by
  induction n with
  | zero => cases x <;> rfl
  | succ n ih => exact ih

theorem tree_add (k n : Nat) (l : List (Option (Nat × Flags))) : tree f (k + n) l = tree f n (treeAt f l k) := by
  induction k generalizing l with
  | zero => rw [Nat.zero_add]; rfl
  | succ k ih => rw [Nat.succ_add]; exact ih _

/-- The tree's result is the one value of its last level. -/
theorem tree_eq_getD {size n : Nat} (le : size ≤ n) {l : List (Option (Nat × Flags))} (len : l.length = 2 ^ size) :
    tree f n l = (treeAt f l size).getD 0 none := by
  obtain ⟨k, rfl⟩ := Nat.exists_eq_add_of_le le
  have one := length_treeAt (f := f) le_rfl len
  rw [Nat.sub_self, pow_zero] at one
  obtain ⟨x, eq⟩ := List.length_eq_one_iff.1 one
  rw [tree_add, eq, tree_singleton]
  rfl

/-- What combining keeps holds of every tree. -/
theorem treeLevel_all {P : Option (Nat × Flags) → Prop} (keeps : ∀ a b, P a → P b → P (f a b)) (l : List (Option (Nat × Flags)))
    (all : ∀ x ∈ l, P x) : ∀ x ∈ treeLevel f l, P x := by
  induction l using treeLevel.induct with
  | case1 a b r ih =>
    simp only [treeLevel, List.mem_cons, forall_eq_or_imp] at all ⊢
    exact ⟨keeps _ _ all.1 all.2.1, ih all.2.2⟩
  | case2 l no => rwa [treeLevel.eq_2 _ _ no]

theorem tree_all {P : Option (Nat × Flags) → Prop} (keeps : ∀ a b, P a → P b → P (f a b)) (absent : P none) (n : Nat) (l : List (Option (Nat × Flags)))
    (all : ∀ x ∈ l, P x) : P (tree f n l) := by
  induction n generalizing l with
  | zero =>
    cases l with
    | nil => exact absent
    | cons x r => exact all x List.mem_cons_self
  | succ n ih => exact ih _ (treeLevel_all keeps l all)

/-- What one input gives to a combination reaches the next level. -/
theorem treeLevel_any {P : Option (Nat × Flags) → Prop} (gives : ∀ a b, P a ∨ P b → P (f a b)) (l : List (Option (Nat × Flags)))
    (any : ∃ x ∈ l, P x) : ∃ x ∈ treeLevel f l, P x := by
  induction l using treeLevel.induct with
  | case1 a b r ih =>
    simp only [treeLevel, List.mem_cons, exists_eq_or_imp] at any ⊢
    rcases any with pa | pb | rest
    · exact .inl (gives _ _ (.inl pa))
    · exact .inl (gives _ _ (.inr pb))
    · exact .inr (ih rest)
  | case2 l no => rwa [treeLevel.eq_2 _ _ no]

theorem treeAt_any {P : Option (Nat × Flags) → Prop} (gives : ∀ a b, P a ∨ P b → P (f a b)) (k : Nat) (l : List (Option (Nat × Flags)))
    (any : ∃ x ∈ l, P x) : ∃ x ∈ treeAt f l k, P x := by
  induction k with
  | zero => exact any
  | succ k ih => exact treeAt_succ (f := f) l k ▸ treeLevel_any gives _ ih

/-- The last level has what any input gives. -/
theorem tree_any {P : Option (Nat × Flags) → Prop} (gives : ∀ a b, P a ∨ P b → P (f a b)) {size n : Nat} (le : size ≤ n)
    {l : List (Option (Nat × Flags))} (len : l.length = 2 ^ size) (any : ∃ x ∈ l, P x) : P (tree f n l) := by
  have one := length_treeAt (f := f) le_rfl len
  rw [Nat.sub_self, pow_zero] at one
  obtain ⟨x, eq⟩ := List.length_eq_one_iff.1 one
  obtain ⟨y, mem, py⟩ := treeAt_any gives size l any
  rw [eq, List.mem_singleton] at mem
  rw [tree_eq_getD le len, eq]
  exact mem ▸ py

/-! ### The scan -/

/-- The combination of the present inputs before j. -/
def scanAt (f : Option (Nat × Flags) → Option (Nat × Flags) → Option (Nat × Flags)) (x : Nat → Option (Nat × Flags)) : Nat → Option (Nat × Flags)
  | 0 => none
  | j + 1 => if (x j).isSome = true then f (scanAt f x j) (x j) else scanAt f x j

/-- A scan leaves at each present input the combination up to it. -/
theorem mem_scanLine {E : Nat → Nat} {x : Nat → Option (Nat × Flags)} (n k : Nat) (y : Nat × Nat × Flags) :
    y ∈ scanLine f (scanAt f x k) ((List.range' k n).map (fun j => (E j, x j))) ↔
      ∃ j, k ≤ j ∧ j < k + n ∧ (x j).isSome = true ∧ y.1 = E j ∧ scanAt f x (j + 1) = some y.2 := by
  induction n generalizing k with
  | zero => exact iff_of_false (List.not_mem_nil) fun ⟨j, lo, hi, _⟩ => absurd hi (not_lt.2 lo)
  | succ n ih =>
    rw [List.range'_succ, List.map_cons]
    have rest := ih (k + 1)
    have split : (∃ j, k ≤ j ∧ j < k + (n + 1) ∧ (x j).isSome = true ∧ y.1 = E j ∧ scanAt f x (j + 1) = some y.2) ↔
        ((x k).isSome = true ∧ y.1 = E k ∧ scanAt f x (k + 1) = some y.2)
          ∨ ∃ j, k + 1 ≤ j ∧ j < k + 1 + n ∧ (x j).isSome = true ∧ y.1 = E j ∧ scanAt f x (j + 1) = some y.2 := by
      constructor
      · rintro ⟨j, lo, hi, here⟩
        obtain rfl | lt := Nat.eq_or_lt_of_le lo
        · exact .inl here
        · exact .inr ⟨j, lt, by omega, here⟩
      · rintro (here | ⟨j, lo, hi, there⟩)
        · exact ⟨k, le_rfl, by omega, here⟩
        · exact ⟨j, by omega, by omega, there⟩
    rw [split, ← rest]
    cases here : x k with
    | none => simp [scanLine, scanAt, here]
    | some v =>
      have next : scanAt f x (k + 1) = f (scanAt f x k) (some v) := by simp [scanAt, here]
      obtain ⟨e, r⟩ := y
      simp only [scanLine, List.mem_append, ← next]
      refine or_congr ?_ Iff.rfl
      cases scanAt f x (k + 1) with
      | none => simp
      | some w => simp [eq_comm]

/-- What combining keeps holds all along a scan. -/
theorem scanAt_all {P : Option (Nat × Flags) → Prop} (keeps : ∀ a b, P a → P b → P (f a b)) (absent : P none) {x : Nat → Option (Nat × Flags)}
    (all : ∀ j, P (x j)) (j : Nat) : P (scanAt f x j) := by
  induction j with
  | zero => exact absent
  | succ j ih =>
    rw [scanAt]
    split
    · exact keeps _ _ ih (all j)
    · exact ih

end Sys2Proof.Machine
end

section
/-! Reductions and scans along a plane (R246, R247): the rows of 64 elements and the lanes of 16, for the active elements. -/

namespace Sys2Proof.Machine

/-- The lines of an axis: element j of line i is element E i j of the plane, and element e stands at place pos e of line e. -/
structure IsAxis (row : Bool) (size lines : Nat) (E : Nat → Nat → Nat) (line pos : Nat → Nat) : Prop where
  elems : ∀ i, axisElems row i = (List.range (2 ^ size)).map (E i)
  count : (if row then 16 else 64) = lines
  size_le : size ≤ 6
  line_eq : ∀ e, (if row then e / 64 else e % 64) = line e
  inside : ∀ i < lines, ∀ j < 2 ^ size, E i j < 1024 ∧ line (E i j) = i ∧ pos (E i j) = j
  place : ∀ e < 1024, line e < lines ∧ pos e < 2 ^ size ∧ E (line e) (pos e) = e

/-- The rows of a plane. -/
theorem isAxis_rows : IsAxis true 6 16 (fun r j => 64 * r + j) (· / 64) (· % 64) :=
  ⟨fun _ => rfl, rfl, le_rfl, fun _ => rfl, fun _ _ _ _ => by omega, fun _ _ => by omega⟩

/-- The lanes of a plane. -/
theorem isAxis_lanes : IsAxis false 4 64 (fun l j => 64 * j + l) (· % 64) (· / 64) :=
  ⟨fun _ => rfl, rfl, by decide, fun _ => rfl, fun _ _ _ _ => by omega, fun _ _ => by omega⟩

/-- What element e of a plane gives to an axis: nothing where it is not active. -/
def planeInput (c : Core) (a : VReg) (e : Nat) : Option (Nat × Flags) := if c.topMask.getLsbD e = true then some ((c.elem a e).toNat, 0) else none

variable {c : Core} {d a : VReg} {t : ElemTy} {row : Bool} {size lines : Nat} {E : Nat → Nat → Nat} {line pos : Nat → Nat}

theorem axisInput_plane (planes : ∀ u, swf 0 (c.planes.get u) = true) {e : Nat} (lt : e < 1024) : c.axisInput (c.plane a) e = planeInput c a e := by
  rw [Core.axisInput, at_plane planes a lt, planeInput]

theorem planeInput_isWord (e : Nat) : isWord (planeInput c a e) := by
  unfold planeInput
  split
  · rintro _ ⟨⟩
    exact (c.elem a e).isLt
  · exact nofun

theorem planeInput_isSome {e : Nat} : (planeInput c a e).isSome = true ↔ c.topMask.getLsbD e = true := by
  unfold planeInput
  split <;> simp [*]

/-- A word of 32 bits is the element that holds it. -/
theorem toNat_ofNat_word {n : Nat} (lt : n < 2 ^ 32) : (BitVec.ofNat 32 n).toNat = n := by
  rw [BitVec.toNat_ofNat, Nat.mod_eq_of_lt lt]

/-- The inputs of line i. -/
def lineInputs (c : Core) (a : VReg) (size : Nat) (E : Nat → Nat → Nat) (i : Nat) : List (Option (Nat × Flags)) :=
  (List.range (2 ^ size)).map (fun j => planeInput c a (E i j))

theorem length_lineInputs (i : Nat) : (lineInputs c a size E i).length = 2 ^ size := by simp [lineInputs]

theorem lineInputs_isWord {i : Nat} : ∀ x ∈ lineInputs c a size E i, isWord x :=
  List.forall_mem_map.2 fun _ _ => planeInput_isWord _

theorem IsAxis.inputs (ax : IsAxis row size lines E line pos) (planes : ∀ u, swf 0 (c.planes.get u) = true) {i : Nat} (lt : i < lines) :
    (axisElems row i).map (c.axisInput (c.plane a)) = lineInputs c a size E i := by
  rw [ax.elems, List.map_map]
  exact List.map_congr_left fun j mem => axisInput_plane planes (ax.inside i lt j (List.mem_range.1 mem)).1

/-- The tree of a line with an active element has a result, a word of 32 bits. -/
theorem IsAxis.tree_result (ax : IsAxis row size lines E line pos) (whole : t ∈ [ElemTy.fp32, .s32, .n32]) (mode : Rm) (sat : Bool) (op : Nat)
    {e : Nat} (live : activeElem c e) : ∃ r, tree (combine t mode sat op) 6 (lineInputs c a size E (line e)) = some r ∧ r.1 < 2 ^ 32 := by
  obtain ⟨-, pos_lt, at_⟩ := ax.place e live.1
  have here : planeInput c a e ∈ lineInputs c a size E (line e) := List.mem_map.2 ⟨pos e, List.mem_range.2 pos_lt, by rw [at_]⟩
  obtain ⟨r, result⟩ := Option.isSome_iff_exists.1 (tree_any (P := (·.isSome = true)) (f := combine t mode sat op) (fun _ _ => combine_isSome) ax.size_le
    (length_lineInputs _) ⟨_, here, planeInput_isSome.2 live.2⟩)
  exact ⟨r, result, tree_all (P := isWord) (fun _ _ => combine_isWord whole) nofun 6 _ lineInputs_isWord r result⟩

/-- Each active element takes the tree of its line. -/
theorem writesElems_reduceAxis (planes : ∀ u, swf 0 (c.planes.get u) = true) (whole : t ∈ [ElemTy.fp32, .s32, .n32]) (ax : IsAxis row size lines E line pos)
    (mode : Rm) (sat : Bool) (op : Nat) :
    writesElems c (reduceAxis c row t mode sat op d a) d (fun e w =>
      ∃ (u : Nat → Nat → Option (Nat × Flags)) (fl : Flags), (∀ j < 2 ^ size, u 0 j = planeInput c a (E (line e) j))
        ∧ (∀ k < size, ∀ j < 2 ^ (size - 1 - k), u (k + 1) j = combine t mode sat op (u k (2 * j)) (u k (2 * j + 1))) ∧ u size 0 = some (w.toNat, fl)) := by
  refine writesElems_mapActive fun e live => ?_
  obtain ⟨line_lt, -, -⟩ := ax.place e live.1
  obtain ⟨r, result, lt⟩ := ax.tree_result (a := a) whole mode sat op live
  have entry : ∀ L : Nat → Option (Nat × Flags),
      ((List.range (if row then 16 else 64)).map L).toArray.getD (if row then e / 64 else e % 64) none = L (line e) := by
    intro L
    rw [ax.count, ax.line_eq, Array.getD_eq_getD_getElem?, List.getElem?_toArray, List.getElem?_map, List.getElem?_range line_lt]
    rfl
  rw [entry, ax.inputs planes line_lt, result]
  refine ⟨fun k j => (treeAt (combine t mode sat op) (lineInputs c a size E (line e)) k).getD j none, r.2, fun j lt => ?_,
    fun k lt j small => getD_treeAt_succ lt (length_lineInputs _) small, ?_⟩
  · simp [treeAt, lineInputs, lt]
  · exact (tree_eq_getD ax.size_le (length_lineInputs _)).symm.trans (by rw [result, toNat_ofNat_word lt])

/-- What a scan leaves along line i. -/
theorem IsAxis.mem_scan (ax : IsAxis row size lines E line pos) (planes : ∀ u, swf 0 (c.planes.get u) = true) {i : Nat} (lt : i < lines)
    (f : Option (Nat × Flags) → Option (Nat × Flags) → Option (Nat × Flags)) (y : Nat × Nat × Flags) :
    y ∈ scanLine f none ((axisElems row i).map (fun e => (e, c.axisInput (c.plane a) e))) ↔
      ∃ j < 2 ^ size, c.topMask.getLsbD (E i j) = true ∧ y.1 = E i j ∧ scanAt f (fun j => planeInput c a (E i j)) (j + 1) = some y.2 := by
  have inputs : (axisElems row i).map (fun e => (e, c.axisInput (c.plane a) e)) = (List.range' 0 (2 ^ size)).map (fun j => (E i j, planeInput c a (E i j))) := by
    rw [ax.elems, List.map_map, ← List.range_eq_range']
    exact List.map_congr_left fun j mem => congrArg (E i j, ·) (axisInput_plane planes (ax.inside i lt j (List.mem_range.1 mem)).1)
  rw [inputs]
  refine (mem_scanLine (2 ^ size) 0 y).trans ?_
  simp only [Nat.zero_le, true_and, Nat.zero_add, planeInput_isSome]

/-- Each active element takes the combination of its line up to it. -/
theorem writesElems_scanAxis (planes : ∀ u, swf 0 (c.planes.get u) = true) (whole : t ∈ [ElemTy.fp32, .s32, .n32]) (ax : IsAxis row size lines E line pos)
    (mode : Rm) (sat : Bool) (op : Nat) :
    writesElems c (scanAxis c row t mode sat op d a) d (fun e w =>
      ∃ (S : Nat → Option (Nat × Flags)) (fl : Flags), S 0 = none
        ∧ (∀ j < 2 ^ size, S (j + 1) = if (planeInput c a (E (line e) j)).isSome = true then combine t mode sat op (S j) (planeInput c a (E (line e) j)) else S j)
        ∧ S (pos e + 1) = some (w.toNat, fl)) := by
  simp only [writesElems, scanAxis, List.mem_map, List.mem_flatMap, List.mem_range, ax.count]
  refine ⟨?_, fun e live => ?_⟩
  · rintro _ ⟨y, ⟨i, lt, mem⟩, rfl⟩
    obtain ⟨j, small, live, at_, result⟩ := (ax.mem_scan planes lt _ y).1 mem
    obtain ⟨inside, line_eq, pos_eq⟩ := ax.inside i lt j small
    have word := scanAt_all (P := isWord) (fun _ _ => combine_isWord whole) nofun (fun j => planeInput_isWord (c := c) (a := a) (E i j)) _ _ result
    refine ⟨E i j, ⟨inside, live⟩, by rw [at_], scanAt (combine t mode sat op) (fun j => planeInput c a (E i j)), y.2.2, rfl, fun j _ => ?_, ?_⟩
    · rw [line_eq, scanAt]
    · rw [pos_eq, result, toNat_ofNat_word word]
  · obtain ⟨line_lt, pos_lt, at_⟩ := ax.place e live.1
    have present : (planeInput c a (E (line e) (pos e))).isSome = true := planeInput_isSome.2 (at_.symm ▸ live.2)
    have upTo : (scanAt (combine t mode sat op) (fun j => planeInput c a (E (line e) j)) (pos e + 1)).isSome = true := by
      rw [scanAt, if_pos present]
      exact combine_isSome (.inr present)
    obtain ⟨r, result⟩ := Option.isSome_iff_exists.1 upTo
    exact ⟨_, (e, r), ⟨line e, line_lt, (ax.mem_scan planes line_lt _ _).2 ⟨pos e, pos_lt, at_.symm ▸ live.2, at_.symm, result⟩⟩, rfl⟩

end Sys2Proof.Machine
end

section
/-! Sums of exact terms (R70, R251, R252): what a term stands for, the exact sum, and the sum of terms cut at one place. -/

namespace Sys2Proof

/-- What a term stands for. -/
def termValue (t : Term) : ℚ := t.1 * (2 : ℚ) ^ t.2

theorem Num.HasValue.term {v : Num} {y : ℚ} (hv : v.HasValue y) : termValue v.term = y := by
  obtain ⟨neg, m, e, rfl, rfl⟩ := hv
  cases neg <;> simp [Num.term, termValue, Machine.dyadic]

/-- A sum along a list, from any start. -/
theorem foldl_add_eq {α : Type} (g : α → Int) (l : List α) (s : Int) : l.foldl (fun s x => s + g x) s = s + (l.map g).sum := by
  induction l generalizing s with
  | nil => simp
  | cons x r ih => rw [List.foldl_cons, ih, List.map_cons, List.sum_cons, add_assoc]

/-! ### The exact sum -/

theorem foldl_min_le (T : List Term) (x : Int) : T.foldl (fun m t => min m t.2) x ≤ x ∧ ∀ t ∈ T, T.foldl (fun m t => min m t.2) x ≤ t.2 := by
  induction T generalizing x with
  | nil => exact ⟨le_rfl, nofun⟩
  | cons t r ih =>
    obtain ⟨start, rest⟩ := ih (min x t.2)
    exact ⟨start.trans (min_le_left _ _), List.forall_mem_cons.2 ⟨start.trans (min_le_right _ _), rest⟩⟩

/-- A term against a smaller exponent. -/
theorem termValue_shift (t : Term) {e : Int} (le : e ≤ t.2) : ((t.1 * ((2 ^ (t.2 - e).toNat : Nat) : Int) : Int) : ℚ) * (2 : ℚ) ^ e = termValue t := by
  have place : (2 : ℚ) ^ (t.2 - e).toNat * (2 : ℚ) ^ e = (2 : ℚ) ^ t.2 := by
    rw [← zpow_natCast, Int.toNat_of_nonneg (sub_nonneg.2 le), ← zpow_add₀ two_ne_zero, sub_add_cancel]
  push_cast
  rw [termValue, mul_assoc, place]

theorem Machine.exactSum_value (T : List Term) : termValue (Machine.exactSum T) = (T.map termValue).sum := by
  obtain ⟨-, le⟩ := foldl_min_le T 0
  dsimp only [Machine.exactSum, termValue]
  rw [foldl_add_eq, zero_add]
  generalize T.foldl (fun m t => min m t.2) 0 = e at le
  induction T with
  | nil => simp
  | cons t r ih =>
    obtain ⟨here, rest⟩ := List.forall_mem_cons.1 le
    simp only [List.map_cons, List.sum_cons] at ih ⊢
    rw [← ih rest, ← termValue_shift t here]
    push_cast
    ring

/-! ### The window -/

/-- A term cut at place q. -/
theorem floorAt_eq (v e q : Int) : (floorAt v e q).1 = ⌊(v : ℚ) * (2 : ℚ) ^ e / (2 : ℚ) ^ q⌋ := by
  have place : (v : ℚ) * (2 : ℚ) ^ e / (2 : ℚ) ^ q = v * (2 : ℚ) ^ (e - q) := by rw [mul_div_assoc, ← zpow_sub₀ two_ne_zero]
  rw [floorAt, place]
  split
  · rename_i le
    have whole : (v : ℚ) * (2 : ℚ) ^ (e - q) = ((v * ((2 ^ (e - q).toNat : Nat) : Int) : Int) : ℚ) := by
      push_cast
      rw [← zpow_natCast, Int.toNat_of_nonneg (sub_nonneg.2 le)]
    rw [whole, Int.floor_intCast]
  · rename_i gt
    have part : (v : ℚ) * (2 : ℚ) ^ (e - q) = v / ((2 ^ (q - e).toNat : Nat) : ℚ) := by
      push_cast
      rw [← zpow_natCast, Int.toNat_of_nonneg (by omega), div_eq_mul_inv, ← zpow_neg, neg_sub]
    rw [part, Rat.floor_intCast_div_natCast]

/-- The leading place of a term. -/
theorem termValue_place {v : Int} (nonzero : v ≠ 0) (e : Int) :
    (2 : ℚ) ^ ((Nat.log2 v.natAbs : Int) + e) ≤ |termValue (v, e)| ∧ |termValue (v, e)| < (2 : ℚ) ^ ((Nat.log2 v.natAbs : Int) + e + 1) := by
  have pos : (0 : ℚ) < (2 : ℚ) ^ e := zpow_pos two_pos e
  have low := Nat.log2_self_le (Int.natAbs_ne_zero.2 nonzero)
  have high := Nat.lt_log2_self (n := v.natAbs)
  have abs_ : |termValue (v, e)| = (v.natAbs : ℚ) * (2 : ℚ) ^ e := by rw [termValue, abs_mul, abs_of_pos pos, Nat.cast_natAbs, Int.cast_abs]
  rw [abs_, add_right_comm, zpow_add₀ two_ne_zero, zpow_add₀ two_ne_zero]
  refine ⟨mul_le_mul_of_nonneg_right ?_ pos.le, mul_lt_mul_of_pos_right ?_ pos⟩
  · exact_mod_cast low
  · exact_mod_cast high

/-- The leading place of a list of terms: some term stands there, and none above. -/
def leadsAt (T : List Term) (x : Int) : Prop := (∃ t ∈ T, (2 : ℚ) ^ x ≤ |termValue t|) ∧ ∀ t ∈ T, |termValue t| < (2 : ℚ) ^ (x + 1)

theorem leadsAt.unique {T : List Term} {x y : Int} (hx : leadsAt T x) (hy : leadsAt T y) : x = y := by
  have below : ∀ {x y : Int}, leadsAt T x → leadsAt T y → x ≤ y := fun ⟨⟨t, mem, le⟩, _⟩ ⟨_, lt⟩ =>
    Int.lt_add_one_iff.1 ((zpow_lt_zpow_iff_right₀ one_lt_two).1 (le.trans_lt (lt t mem)))
  exact le_antisymm (below hx hy) (below hy hx)

theorem termValue_eq_zero {t : Term} (zero : t.1 = 0) : termValue t = 0 := by simp [termValue, zero]

/-- Terms of the value zero change no leading place. -/
theorem leadsAt.of_zeros {t : Term} {r : List Term} {x : Int} (here : leadsAt [t] x) (zeros : ∀ t ∈ r, t.1 = 0) : leadsAt (t :: r) x := by
  obtain ⟨⟨_, mem, le⟩, lt⟩ := here
  refine ⟨⟨t, List.mem_cons_self, List.mem_singleton.1 mem ▸ le⟩, List.forall_mem_cons.2 ⟨lt t List.mem_cons_self, fun u mem => ?_⟩⟩
  rw [termValue_eq_zero (zeros u mem), abs_zero]
  positivity

theorem leadsAt.cons_zero {t : Term} {r : List Term} {x : Int} (zero : t.1 = 0) (rest : leadsAt r x) : leadsAt (t :: r) x := by
  obtain ⟨⟨u, mem, le⟩, lt⟩ := rest
  refine ⟨⟨u, List.mem_cons_of_mem _ mem, le⟩, List.forall_mem_cons.2 ⟨?_, lt⟩⟩
  rw [termValue_eq_zero zero, abs_zero]
  positivity

/-- The higher of two leading places leads. -/
theorem leadsAt.cons {t : Term} {r : List Term} {x y : Int} (here : leadsAt [t] x) (rest : leadsAt r y) : leadsAt (t :: r) (max x y) := by
  obtain ⟨⟨_, mem, le⟩, lt⟩ := here
  obtain rfl := List.mem_singleton.1 mem
  have raise : ∀ {a b : Int}, a ≤ b → (2 : ℚ) ^ (a + 1) ≤ (2 : ℚ) ^ (b + 1) := fun le => zpow_le_zpow_right₀ one_le_two (Int.add_le_add_right le 1)
  refine ⟨?_, List.forall_mem_cons.2 ⟨(lt _ mem).trans_le (raise (le_max_left _ _)), fun u mem => (rest.2 u mem).trans_le (raise (le_max_right _ _))⟩⟩
  obtain eq | eq := max_choice x y
  · exact ⟨_, List.mem_cons_self, by rwa [eq]⟩
  · obtain ⟨u, mem, le⟩ := rest.1
    exact ⟨u, List.mem_cons_of_mem _ mem, by rwa [eq]⟩

/-- emax of R70 is the leading place of the terms; there is none where all are zero. -/
theorem maxExp_spec (T : List Term) : (maxExp T = none → ∀ t ∈ T, t.1 = 0) ∧ ∀ x, maxExp T = some x → leadsAt T x := by
  induction T with
  | nil => exact ⟨fun _ => nofun, nofun⟩
  | cons t r ih =>
    obtain ⟨v, e⟩ := t
    obtain ⟨zeros, leads⟩ := ih
    by_cases zero : v = 0
    · have skip : maxExp ((v, e) :: r) = maxExp r := by simp [maxExp, zero]
      rw [skip]
      exact ⟨fun none_ => List.forall_mem_cons.2 ⟨zero, zeros none_⟩, fun x some_ => leadsAt.cons_zero zero (leads x some_)⟩
    · obtain ⟨low, high⟩ := termValue_place zero e
      have here : leadsAt [(v, e)] ((Nat.log2 v.natAbs : Int) + e) := ⟨⟨_, List.mem_cons_self, low⟩, List.forall_mem_singleton.2 high⟩
      cases rest : maxExp r with
      | none =>
        have first : maxExp ((v, e) :: r) = some ((Nat.log2 v.natAbs : Int) + e) := by simp [maxExp, zero, rest]
        rw [first]
        exact ⟨nofun, fun x eq => Option.some.inj eq ▸ here.of_zeros (zeros rest)⟩
      | some y =>
        have both : maxExp ((v, e) :: r) = some (max ((Nat.log2 v.natAbs : Int) + e) y) := by simp [maxExp, zero, rest]
        rw [both]
        exact ⟨nofun, fun x eq => Option.some.inj eq ▸ here.cons (leads y rest)⟩

theorem maxExp_eq {T : List Term} {x : Int} (leads : leadsAt T x) : maxExp T = some x := by
  obtain ⟨zeros, found⟩ := maxExp_spec T
  cases max_ : maxExp T with
  | none =>
    obtain ⟨⟨t, mem, le⟩, -⟩ := leads
    rw [termValue_eq_zero (zeros max_ t mem), abs_zero] at le
    exact absurd (zpow_pos two_pos x) (not_lt.2 le)
  | some y => rw [(found y max_).unique leads]

/-- A window of 25 bits under a leading place g + 23: each term is cut at place g (R70). -/
theorem alignWindow_value {T : List Term} {g : Int} (leads : leadsAt T (g + 23)) :
    termValue ((alignWindow T 25).1, (alignWindow T 25).2.1) = (T.map (fun t => (⌊termValue t / (2 : ℚ) ^ g⌋ : ℚ) * (2 : ℚ) ^ g)).sum := by
  have place : g + 23 - (25 : Nat) + 2 = g := by omega
  simp only [alignWindow, maxExp_eq leads, place, foldl_add_eq, zero_add, List.map_map, termValue]
  rw [List.sum_map_mul_right, Int.cast_list_sum, List.map_map]
  simp only [Function.comp_def, floorAt_eq]

end Sys2Proof
end

section
/-! Dot products (R251, R252): with finite operands the sum is rounded once, for the active elements of one row group. -/

namespace Sys2Proof.Machine

/-- Both factors of a product are finite. -/
def finitePair (p : Num × Num) : Prop := (∃ x, p.1.HasValue x) ∧ ∃ y, p.2.HasValue y

theorem firstNaN_finite {F : FFmt} {l : List Num} (finite : ∀ v ∈ l, ∃ x, v.HasValue x) : firstNaN F l = none := by
  induction l with
  | nil => rfl
  | cons v r ih =>
    obtain ⟨⟨x, _, _, _, rfl, -⟩, rest⟩ := List.forall_mem_cons.1 finite
    exact ih rest

/-- Finite operands whose sum is not zero are no special case. -/
theorem dotSpecial_finite {ps : List (Num × Num)} {add : Num} (finite : ∀ p ∈ ps, finitePair p) {z : ℚ} (hz : add.HasValue z) (rdn : Bool) :
    dotSpecial ps add false rdn = none := by
  have operands : ∀ v ∈ ps.flatMap (fun p => [p.1, p.2]) ++ [add], ∃ x, v.HasValue x := by
    intro v mem
    simp only [List.mem_append, List.mem_flatMap, List.mem_cons, List.not_mem_nil, or_false] at mem
    rcases mem with ⟨p, mem, rfl | rfl⟩ | rfl
    · exact (finite p mem).1
    · exact (finite p mem).2
    · exact ⟨z, hz⟩
  have terms : ∀ u ∈ ps.map (fun p => mulNum p.1 p.2) ++ [some add], ∃ neg m e, u = some (.dy neg m e) := by
    intro u mem
    simp only [List.mem_append, List.mem_map, List.mem_singleton] at mem
    rcases mem with ⟨p, mem, rfl⟩ | rfl
    · obtain ⟨⟨x, hx⟩, y, hy⟩ := finite p mem
      obtain ⟨q, product, neg, m, e, rfl, -⟩ := mulNum_hasValue hx hy
      exact ⟨neg, m, e, product⟩
    · obtain ⟨neg, m, e, rfl, -⟩ := hz
      exact ⟨neg, m, e, rfl⟩
  have noInf : ∀ s, (ps.map (fun p => mulNum p.1 p.2) ++ [some add]).any (fun x => x == some (.inf s)) = false := by
    intro s
    refine List.any_eq_false.2 fun u mem => ?_
    obtain ⟨neg, m, e, rfl⟩ := terms u mem
    simp
  have defined : (ps.map (fun p => mulNum p.1 p.2)).any (·.isNone) = false := by
    refine List.any_eq_false.2 fun u mem => ?_
    obtain ⟨neg, m, e, rfl⟩ := terms u (List.mem_append_left _ mem)
    simp
  simp only [dotSpecial, firstNaN_finite operands, defined, noInf, Bool.and_self, Bool.or_self, Bool.false_eq_true, if_false]

/-- The product of two finite values as a term. -/
theorem termValue_prodTerm {u v : Num} {x y : ℚ} (hx : u.HasValue x) (hy : v.HasValue y) : termValue (prodTerm (u, v)) = x * y := by
  obtain ⟨p, product, hp⟩ := mulNum_hasValue hx hy
  rw [prodTerm, product]
  exact hp.term

/-- A dot product of finite operands rounds the sum of its part and the addend. -/
theorem dotElem_roundsTo {window : Bool} {mode : Rm} {sat : Bool} {ps : List (Num × Num)} {add : Num} {P z : ℚ} (finite : ∀ p ∈ ps, finitePair p)
    (hz : add.HasValue z)
    (part : termValue (if window then ((alignWindow (ps.map prodTerm) 25).1, (alignWindow (ps.map prodTerm) 25).2.1) else exactSum (ps.map prodTerm)) = P)
    (range : finiteIn .fp32 (P + z)) : roundsTo .fp32 mode (P + z) (dotElem window mode sat ps add).1 := by
  simp only [dotElem]
  generalize (if window then ((alignWindow (ps.map prodTerm) 25).1, (alignWindow (ps.map prodTerm) 25).2.1) else exactSum (ps.map prodTerm)) = T at part ⊢
  have sum : termValue (exactSum [T, add.term]) = P + z := by
    rw [exactSum_value, List.map_cons, List.map_singleton, List.sum_cons, List.sum_singleton, part, hz.term]
  have nonzero : ((exactSum [T, add.term]).1 == 0) = false := by
    rw [beq_eq_false_iff_ne]
    exact fun zero => range.1 (sum.symm.trans (termValue_eq_zero zero))
  rw [nonzero, dotSpecial_finite finite hz]
  rw [← sum] at range ⊢
  exact roundInt_roundsTo fp32_hasFields range

variable {n : Nat} {X Y : Nat → Num} {m o : Nat → ℚ}

/-- The pairs of a dot product. -/
def pairs (n : Nat) (X Y : Nat → Num) : List (Num × Num) := (List.range n).map (fun j => (X j, Y j))

theorem finitePair_pairs (finite : ∀ j < n, (X j).HasValue (m j) ∧ (Y j).HasValue (o j)) : ∀ p ∈ pairs n X Y, finitePair p :=
  List.forall_mem_map.2 fun j mem => ⟨⟨_, (finite j (List.mem_range.1 mem)).1⟩, _, (finite j (List.mem_range.1 mem)).2⟩

/-- What a function of the terms' values gives along the pairs. -/
theorem map_terms_pairs (finite : ∀ j < n, (X j).HasValue (m j) ∧ (Y j).HasValue (o j)) (g : ℚ → ℚ) :
    ((pairs n X Y).map prodTerm).map (fun t => g (termValue t)) = (List.range n).map (fun j => g (m j * o j)) := by
  rw [pairs, List.map_map, List.map_map]
  exact List.map_congr_left fun j mem => congrArg g (termValue_prodTerm (finite j (List.mem_range.1 mem)).1 (finite j (List.mem_range.1 mem)).2)

/-- VDOTB: the exact sum, rounded once. -/
theorem dotElem_exact {mode : Rm} {sat : Bool} {add : Num} {z : ℚ} (finite : ∀ j < n, (X j).HasValue (m j) ∧ (Y j).HasValue (o j)) (hz : add.HasValue z)
    (range : finiteIn .fp32 (((List.range n).map (fun j => m j * o j)).sum + z)) :
    roundsTo .fp32 mode (((List.range n).map (fun j => m j * o j)).sum + z) (dotElem false mode sat (pairs n X Y) add).1 :=
  dotElem_roundsTo (finitePair_pairs finite) hz ((exactSum_value _).trans (congrArg List.sum (map_terms_pairs finite id))) range

/-- VDOT8: the sum of the products cut at the window's place, rounded once. -/
theorem dotElem_window {mode : Rm} {sat : Bool} {add : Num} {z : ℚ} {g : Int} (finite : ∀ j < n, (X j).HasValue (m j) ∧ (Y j).HasValue (o j))
    (hz : add.HasValue z) (top : ∃ j < n, (2 : ℚ) ^ (g + 23) ≤ |m j * o j|) (below : ∀ j < n, |m j * o j| < (2 : ℚ) ^ (g + 24))
    (range : finiteIn .fp32 (((List.range n).map (fun j => (⌊m j * o j / (2 : ℚ) ^ g⌋ : ℚ) * (2 : ℚ) ^ g)).sum + z)) :
    roundsTo .fp32 mode (((List.range n).map (fun j => (⌊m j * o j / (2 : ℚ) ^ g⌋ : ℚ) * (2 : ℚ) ^ g)).sum + z)
      (dotElem true mode sat (pairs n X Y) add).1 := by
  have value : ∀ j < n, termValue (prodTerm (X j, Y j)) = m j * o j := fun j lt => termValue_prodTerm (finite j lt).1 (finite j lt).2
  have leads : leadsAt ((pairs n X Y).map prodTerm) (g + 23) := by
    simp only [leadsAt, pairs, List.map_map, List.mem_map, List.mem_range, Function.comp]
    refine ⟨?_, ?_⟩
    · obtain ⟨j, lt, le⟩ := top
      exact ⟨_, ⟨j, lt, rfl⟩, by rwa [value j lt]⟩
    · rintro _ ⟨j, lt, rfl⟩
      rw [value j lt, add_assoc]
      exact below j lt
  exact dotElem_roundsTo (finitePair_pairs finite) hz
    ((alignWindow_value leads).trans (congrArg List.sum (map_terms_pairs finite (fun x => (⌊x / (2 : ℚ) ^ g⌋ : ℚ) * (2 : ℚ) ^ g)))) range

/-! ### The planes of a dot product -/

/-- The elements that a word computes for row group h of plane d: exactly the active ones there, each with the value that P gives. -/
def writesGroup (c : Core) (r : VResult) (d : VReg) (h : Nat) (P : Nat → Half → Prop) : Prop :=
  (∀ x ∈ r.planes, ∃ e, activeElem c e ∧ e / 256 = h ∧ x.1 = 1024 * d.val + e ∧ P e x.2)
    ∧ ∀ e, activeElem c e → e / 256 = h → ∃ w, (1024 * d.val + e, w) ∈ r.planes

/-- Code j of the column that a dot product reads for element e: the codes of four rows, one row after the other. -/
def dotCode (c : Core) (t : ElemTy) (u : VReg) (e j : Nat) : Nat :=
  subOf t (c.elem u (64 * (4 * (e / 64 % 4) + j / t.count) + e % 64)) (j % t.count)

/-- A list of n lists of k values. -/
theorem flatMap_range_map {α : Type} (n k : Nat) (G : Nat → Nat → α) :
    (List.range n).flatMap (fun i => (List.range k).map (G i)) = (List.range (n * k)).map (fun j => G (j / k) (j % k)) := by
  induction n with
  | zero => simp
  | succ n ih =>
    rw [List.range_succ, List.flatMap_append, ih, List.flatMap_singleton, Nat.succ_mul, List.range_add, List.map_append, List.map_map]
    congr 1
    refine List.map_congr_left fun j mem => ?_
    have lt := List.mem_range.1 mem
    have row : (n * k + j) / k = n := by rw [Nat.mul_comm, Nat.mul_add_div (Nat.zero_lt_of_lt lt), Nat.div_eq_of_lt lt]; rfl
    have col : (n * k + j) % k = j := by rw [Nat.mul_add_mod', Nat.mod_eq_of_lt lt]
    rw [Function.comp_apply, row, col]

variable {c : Core} {d a b q : VReg} {h : Nat}

theorem writesGroup_dotPlane (planes : ∀ u, swf 0 (c.planes.get u) = true) {window : Bool} {mode : Rm} {sat : Bool} {ta tb : ElemTy}
    (fa : ta.isFloat = true) (fb : tb.isFloat = true) (same : tb.count = ta.count) {n : Nat} (size : 4 * ta.count = n) :
    writesGroup c (dotPlane c window mode sat ta tb h d a b q) d h (fun e w => w = BitVec.ofNat 32 (dotElem window mode sat
      (pairs n (fun j => ta.ffmt.val (dotCode c ta a e j)) (fun j => tb.ffmt.val (dotCode c tb b e j))) (FFmt.fp32.val (c.elem q e).toNat)).1) := by
  have operands : ∀ e < 1024, (List.range 4).flatMap (fun i => (List.range ta.count).map (fun k =>
      (ta.val (subOf ta (at_ (c.plane a) (64 * (4 * (e / 64 % 4) + i) + e % 64)) k), tb.val (subOf tb (at_ (c.plane b) (64 * (4 * (e / 64 % 4) + i) + e % 64)) k))))
      = pairs n (fun j => ta.ffmt.val (dotCode c ta a e j)) (fun j => tb.ffmt.val (dotCode c tb b e j)) := by
    intro e lt
    rw [flatMap_range_map, size]
    refine List.map_congr_left fun j mem => ?_
    have row : j / ta.count < 4 := Nat.div_lt_of_lt_mul (Nat.mul_comm .. ▸ size ▸ List.mem_range.1 mem)
    rw [at_plane planes a (by omega), at_plane planes b (by omega), ElemTy.val_of_isFloat fa, ElemTy.val_of_isFloat fb, ← same]
    simp only [dotCode, same]
  have inGroup : ∀ {e}, e ∈ c.active.filter (fun e => e / 256 == h) ↔ activeElem c e ∧ e / 256 = h := by
    simp [List.mem_filter, mem_active]
  simp only [writesGroup, dotPlane, List.map_map, List.mem_map, Function.comp, inGroup]
  refine ⟨?_, fun e live at_ => ⟨_, e, ⟨live, at_⟩, rfl⟩⟩
  rintro _ ⟨e, ⟨live, here⟩, rfl⟩
  refine ⟨e, live, here, rfl, ?_⟩
  rw [operands e live.1, at_plane planes q live.1]

/-- A rounded FP32 code is the element that holds it. -/
theorem roundsTo_toNat_ofNat {mode : Rm} {x : ℚ} {n : Nat} (r : roundsTo .fp32 mode x n) : roundsTo .fp32 mode x (BitVec.ofNat 32 n).toNat := by
  rwa [toNat_ofNat_word (roundsTo_lt r)]

end Sys2Proof.Machine
end

section
/-! Scales and function words (R78, R250, R253): the power of two that VSCL multiplies by, and the codes that the functions give. -/

namespace Sys2Proof

open Machine

/-! ### Scaling (R253) -/

/-- Scaling by κ = 255 gives the default NaN. -/
theorem Machine.scaleSub_255 (t : ElemTy) (mode : Rm) (sat : Bool) (x : Nat) : (scaleSub t mode sat 255 x).1 = t.ffmt.defaultNaN := rfl

theorem dyadic_scale (neg : Bool) (m : Nat) (e k : Int) : dyadic neg m (e + k) = dyadic neg m e * (2 : ℚ) ^ k := by
  rw [dyadic, dyadic, zpow_add₀ two_ne_zero, mul_assoc _ ((2 : ℚ) ^ e)]

/-- Any other scale multiplies by 2^(κ − 127) and rounds once. -/
theorem Machine.scaleSub_roundsTo {t : ElemTy} {mode : Rm} {sat : Bool} {κ x : Nat} {p : ℚ} (scale : κ ≠ 255) (value : codeValue t.ffmt x p)
    (range : finiteIn t.ffmt (p * (2 : ℚ) ^ ((κ : Int) - 127))) :
    roundsTo t.ffmt mode (p * (2 : ℚ) ^ ((κ : Int) - 127)) (scaleSub t mode sat κ x).1 := by
  obtain ⟨-, neg, m, e, val, rfl⟩ := value
  rw [← dyadic_scale] at range ⊢
  have nonzero : m ≠ 0 := by
    rintro rfl
    exact range.1 (by simp [dyadic])
  rw [scaleSub, if_neg scale, val]
  simp only [if_neg nonzero, add_sub_assoc]
  exact (roundMag_dyadic t.ffmt_hasFields range).1

/-! ### Functions (R78, R250) -/

/-- A fixed result is a word of 32 bits. -/
def FnVal.isWord : FnVal → Prop
  | .code r _ => r < 2 ^ 32
  | .mag _ _ _ _ => True

theorem fnExp2_isWord (neg : Bool) (m : Nat) (e : Int) : (fnExp2 neg m e).isWord := by
  simp only [fnExp2]
  split_ifs <;> trivial

theorem fnLog2_isWord (m : Nat) (e : Int) : (fnLog2 m e).isWord := by
  simp only [fnLog2]
  split_ifs
  · exact Nat.two_pow_pos 32
  · trivial
  · trivial

theorem fnTrig_isWord (cos neg : Bool) (m : Nat) (e : Int) : (fnTrig cos neg m e).isWord := by
  simp only [fnTrig]
  split_ifs <;> trivial

theorem fnTanh_isWord (neg : Bool) (m : Nat) (e : Int) : (fnTanh neg m e).isWord := by
  simp only [fnTanh]
  split_ifs <;> trivial

/-- The special results of Table 3.8 are words of 32 bits. -/
theorem fnVal_isWord (fn c : Nat) : (fnVal fn c).isWord := by
  have sign : ∀ neg n, n < 2 ^ 31 → FFmt.fp32.withSign neg n < 2 ^ 32 := fun neg _ => fp32_withSign_lt neg
  have nan : FFmt.fp32.defaultNaN < 2 ^ 32 := by decide
  have inf : FFmt.fp32.infCode < 2 ^ 32 := by decide
  have zero : 0 < 2 ^ 32 := by decide
  simp only [fnVal]
  cases FFmt.fp32.val c with
  | nan | nav | lg => exact nan
  | inf neg =>
    match fn with
    | 0 => cases neg; exacts [inf, zero]
    | 1 => cases neg; exacts [inf, nan]
    | 2 => exact sign _ _ (by decide)
    | 3 => cases neg; exacts [zero, nan]
    | 4 | 5 => exact nan
    | 6 => exact sign _ _ (by decide)
    | _ + 7 => exact nan
  | dy neg m e =>
    dsimp only
    split
    · match fn with
      | 0 | 5 => exact (by decide : 0x3F800000 < 2 ^ 32)
      | 1 | 2 | 3 => exact sign _ _ (by decide)
      | 4 | _ + 6 => exact sign _ _ (by decide)
    · match fn with
      | 0 => exact fnExp2_isWord neg m e
      | 1 =>
        cases neg
        · exact fnLog2_isWord m e
        · exact nan
      | 2 => trivial
      | 3 => cases neg; exacts [trivial, nan]
      | 4 => exact fnTrig_isWord false neg m e
      | 5 => exact fnTrig_isWord true neg m e
      | _ + 6 => exact fnTanh_isWord neg m e

/-- The NaN that a function passes on is a word of 32 bits. -/
theorem firstNaN_one_lt {c r : Nat} (first : firstNaN .fp32 [FFmt.fp32.val c] = some r) : r < 2 ^ 32 :=
  firstNaN_fp32_lt (cs := [c]) first

theorem fnX_lt (fn c : Nat) : (fnX fn c).1 < 2 ^ 32 := by
  have word := fnVal_isWord fn c
  unfold fnX
  split
  · exact firstNaN_one_lt ‹_›
  · split
    · rename_i code
      rwa [code] at word
    · exact roundMag_lt fp32_hasFields

theorem fnF_lt (fn c : Nat) : (fnF fn c).1 < 2 ^ 32 := by
  have word := fnVal_isWord fn c
  unfold fnF
  split
  · exact firstNaN_one_lt ‹_›
  · split
    · rename_i code
      rwa [code] at word
    · dsimp only
      split
      · exact BitVec.isLt _
      · exact fnX_lt fn c

/-- The significand of a finite code. -/
theorem FFmt.val_dy_lt {F : FFmt} {c m : Nat} {neg : Bool} {e : Int} (val : F.val c = .dy neg m e) : m < 2 * 2 ^ F.fb := by
  have lt := Nat.mod_lt c (Nat.two_pow_pos F.fb)
  simp only [FFmt.val] at val
  split_ifs at val <;> injection val with _ m_eq _ <;> omega

/-- A quotient of k bits by a significand keeps 24 places and more. -/
theorem two_pow_div_large {k m : Nat} (pos : m ≠ 0) (lt : m < 2 ^ 24) (room : 48 ≤ k) : 2 ^ 24 ≤ 2 ^ k / m := by
  rw [Nat.le_div_iff_mul_le (Nat.pos_of_ne_zero pos)]
  calc 2 ^ 24 * m ≤ 2 ^ 24 * 2 ^ 24 := Nat.mul_le_mul_left _ lt.le
    _ = 2 ^ 48 := by norm_num
    _ ≤ 2 ^ k := Nat.pow_le_pow_right two_pos room

/-- A quotient of k bits places the reciprocal of a smaller significand. -/
theorem reciprocal_liesAt {k m : Nat} (pos : m ≠ 0) (lt : m < 2 ^ 24) (room : 48 ≤ k) (e : Int) :
    liesAt .fp32 (1 / (m * (2 : ℚ) ^ e)) (2 ^ k / m) (-(k : Int) - e) (decide (2 ^ k % m ≠ 0)) := by
  have m_pos : (0 : ℚ) < m := by exact_mod_cast Nat.pos_of_ne_zero pos
  have unit : (0 : ℚ) < (2 : ℚ) ^ (-(k : Int) - e) := zpow_pos two_pos _
  have value : 1 / (m * (2 : ℚ) ^ e) = ((2 : ℚ) ^ k / m) * (2 : ℚ) ^ (-(k : Int) - e) := by
    rw [zpow_sub₀ two_ne_zero, zpow_neg, zpow_natCast]
    field_simp
  have parts : (2 : ℚ) ^ k / m = (2 ^ k / m : Nat) + ((2 ^ k % m : Nat) : ℚ) / m := by
    have whole : ((m * (2 ^ k / m) + 2 ^ k % m : Nat) : ℚ) = (2 : ℚ) ^ k := by rw [Nat.div_add_mod]; push_cast; rfl
    rw [← whole]
    push_cast
    field_simp
  rw [value, parts, liesAt]
  by_cases whole : 2 ^ k % m = 0
  · simp [whole]
  · have rest : (0 : ℚ) < ((2 ^ k % m : Nat) : ℚ) / m := div_pos (by exact_mod_cast Nat.pos_of_ne_zero whole) m_pos
    have less : ((2 ^ k % m : Nat) : ℚ) / m < 1 := (div_lt_one m_pos).2 (by exact_mod_cast Nat.mod_lt _ (Nat.pos_of_ne_zero pos))
    rw [if_pos (by simpa using whole)]
    refine ⟨?_, mul_lt_mul_of_pos_right (by linarith) unit, mul_lt_mul_of_pos_right (by linarith) unit⟩
    have big := two_pow_div_large pos lt room
    have places : 24 ≤ Nat.log2 (2 ^ k / m) := (Nat.le_log2 (by omega)).2 big
    have fb : (FFmt.fp32.fb : Int) = 23 := rfl
    rw [roundPlace, fb]
    have := le_max_left ((Nat.log2 (2 ^ k / m) : Int) + (-k - e)) FFmt.fp32.emin
    omega

/-- The X form of the reciprocal is the reciprocal rounded to nearest. -/
theorem fnX_reciprocal {c : Nat} {p : ℚ} (value : codeValue .fp32 c p) (nonzero : p ≠ 0) (range : finiteIn .fp32 (1 / p)) :
    roundsTo .fp32 .rne (1 / p) (fnX 2 c).1 := by
  obtain ⟨-, neg, m, e, val, rfl⟩ := value
  have pos : m ≠ 0 := by
    rintro rfl
    exact nonzero (by simp [dyadic])
  obtain ⟨k, room, run⟩ : ∃ k : Nat, 48 ≤ k ∧ fnX 2 c = roundMag .fp32 .rne false neg (2 ^ k / m) (-(k : Int) - e) (decide (2 ^ k % m ≠ 0)) := by
    refine ⟨400, by decide, ?_⟩
    rw [fnX, fnVal, val]
    simp only [firstNaN, if_neg pos, Nat.cast_ofNat]
  have lt : m < 2 ^ 24 := FFmt.val_dy_lt val
  have large := two_pow_div_large pos lt room
  have sign : 1 / dyadic neg m e = signOf neg * (1 / (m * (2 : ℚ) ^ e)) := by
    cases neg <;> simp [dyadic, signOf]
  have size : |1 / dyadic neg m e| = 1 / (m * (2 : ℚ) ^ e) := by
    have nonneg : 0 ≤ 1 / (m * (2 : ℚ) ^ e) := by positivity
    cases neg <;> simp [sign, signOf, abs_of_nonneg]
  have top := ((finiteIn_iff fp32_hasFields).1 range).2
  rw [size] at top
  rw [sign, run]
  exact (roundMag_roundsTo fp32_hasFields (by omega) (reciprocal_liesAt pos lt room e) top).1

end Sys2Proof
end

section
/-! Wide words (R256 to R258): a number of 512 bits over 16 elements, the values packed into it and its digits taken apart again. -/

namespace Sys2Proof

open Machine

/-! ### Digits (R258) -/

/-- What is left of x above its lowest digit. -/
def restOf (g : Nat) (x : Int) : Int := (x - digit g x) / ((2 ^ g : Nat) : Int)

/-- The digits of x, one from each rest. -/
theorem digits_eq_map (g n : Nat) (x : Int) : digits g n x = (List.range n).map (fun i => digit g ((restOf g)^[i] x)) := by
  induction n generalizing x with
  | zero => rfl
  | succ n ih =>
    rw [List.range_succ_eq_map, List.map_cons, List.map_map, digits]
    exact congrArg (digit g x :: ·) (ih (restOf g x))

theorem digit_bounds {g : Nat} (pos : 0 < g) (x : Int) : -2 ^ (g - 1) ≤ digit g x ∧ digit g x < 2 ^ (g - 1) := sintOf_bounds pos _

/-- A number is its lowest digit and the rest above it. -/
theorem digit_add_restOf {g : Nat} (pos : 0 < g) (x : Int) : x = digit g x + 2 ^ g * restOf g x := by
  have dvd : ((2 ^ g : Nat) : Int) ∣ x - digit g x := by
    rw [dvd_sub_comm]
    push_cast
    exact Int.dvd_of_emod_eq_zero (sintOf_wrapN_sub_emod pos x)
  have whole : ((2 ^ g : Nat) : Int) * restOf g x = x - digit g x := Int.mul_ediv_cancel' dvd
  push_cast at whole
  rw [whole]
  ring

/-- A digit as an s32 element. -/
theorem clampDigit_toInt (z : Int) : (BitVec.ofNat 32 (clampDigit z).1).toInt = max (-2 ^ 31) (min (2 ^ 31 - 1) z) := ofNat_fitInt_s32 z

/-! ### Fields of a number -/

/-- A field of a number that is cut to more bits is the number's. -/
theorem wrapN_field {n i k : Nat} (le : i + k ≤ n) (z : Int) : (wrapN n z : Int) / 2 ^ i % 2 ^ k = z / 2 ^ i % 2 ^ k := by
  obtain ⟨m, rfl⟩ := Nat.exists_eq_add_of_le le
  have pos : (0 : Int) < 2 ^ i := by positivity
  have cut : (wrapN (i + k + m) z : Int) = z + 2 ^ i * (2 ^ k * (2 ^ m * -(z / 2 ^ (i + k + m)))) := by
    rw [wrapN, Int.toNat_of_nonneg (Int.emod_nonneg _ (by positivity)), Int.emod_def]
    push_cast
    ring
  rw [cut, Int.add_mul_ediv_left _ _ pos.ne', Int.add_mul_emod_self_left]

/-- A number from its places. -/
theorem foldr_places (b n : Nat) (y : Nat → Nat) : (List.range n).foldr (fun j s => y j + b * s) 0 = ((List.range n).map (fun j => y j * b ^ j)).sum := by
  induction n generalizing y with
  | zero => rfl
  | succ n ih =>
    have shifted : ∀ j, y (j + 1) * b ^ (j + 1) = b * (y (j + 1) * b ^ j) := fun j => by ring
    rw [List.range_succ_eq_map, List.foldr_cons, List.foldr_map, List.map_cons, List.map_map, List.sum_cons, ih (fun j => y (j + 1)), pow_zero, Nat.mul_one]
    simp only [Function.comp_def, Nat.succ_eq_add_one, shifted, List.sum_map_mul_left]

end Sys2Proof

namespace Sys2Proof.Machine

/-! ### Wide words of a plane (R256) -/

/-- The elements that a word computes for plane d: exactly the wide words whose element 16w is active, each element with the value that P gives. -/
def writesWide (c : Core) (r : VResult) (d : VReg) (P : Nat → Nat → Half → Prop) : Prop :=
  (∀ x ∈ r.planes, ∃ w j, w < 64 ∧ j < 16 ∧ c.topMask.getLsbD (16 * w) = true ∧ x.1 = 1024 * d.val + 16 * w + j ∧ P w j x.2)
    ∧ ∀ w j, w < 64 → j < 16 → c.topMask.getLsbD (16 * w) = true → ∃ y, (1024 * d.val + 16 * w + j, y) ∈ r.planes

variable {c : Core} {d a : VReg}

theorem writesWide_mapWide {f : Nat → List Half × Flags} {P : Nat → Nat → Half → Prop} (value : ∀ w j, w < 64 → j < 16 → P w j ((f w).1.getD j 0)) :
    writesWide c (mapWide c d f) d P := by
  simp only [writesWide, mapWide, List.mem_flatMap, List.mem_map, List.mem_filter, List.mem_range]
  refine ⟨?_, fun w j wide small live => ⟨_, _, ⟨w, ⟨wide, live⟩, rfl⟩, j, small, rfl⟩⟩
  rintro _ ⟨_, ⟨w, ⟨wide, live⟩, rfl⟩, j, small, rfl⟩
  exact ⟨w, j, wide, small, live, rfl, value w j wide small⟩

/-- Element j of a number's 512 bits. -/
theorem getD_wideElems (z : Int) {j : Nat} (lt : j < 16) : (((wideElems (wrapN 512 z)).getD j 0).toNat : Int) = z / 2 ^ (32 * j) % 2 ^ 32 := by
  rw [← wrapN_field (n := 512) (by omega), wideElems, List.getD_eq_getElem?_getD, List.getElem?_map, List.getElem?_range lt]
  simp

theorem wideWord_plane (planes : ∀ u, swf 0 (c.planes.get u) = true) {w : Nat} (lt : w < 64) :
    wideWord (c.plane a) w = ((List.range 16).map (fun i => (c.elem a (16 * w + i)).toNat * 2 ^ (32 * i))).sum := by
  rw [wideWord, foldr_places]
  refine congrArg List.sum (List.map_congr_left fun i mem => ?_)
  have small := List.mem_range.1 mem
  rw [at_plane planes a (by omega), pow_mul]

/-! ### VPKP and VXTP (R257, R258) -/

/-- Value k of a plane's sub-elements in their order; past the plane, zero. -/
def planeValue (c : Core) (t : ElemTy) (a : VReg) (k : Nat) : Int := if k < 1024 * t.count then t.int (subOf t (c.elem a (k / t.count)) (k % t.count)) else 0

theorem writesWide_packWide (planes : ∀ u, swf 0 (c.planes.get u) = true) (t : ElemTy) (sel : Bool) (part : Nat) (gw : Word) :
    writesWide c (packWide c t sel part gw d a) d (fun w j x =>
      (x.toNat : Int) = ((List.range (gwK gw)).map (fun i =>
        max (intMin (if sel then gwWB gw else gwWA gw) (if sel then gwSB gw else gwSA gw))
          (min (intMax (if sel then gwWB gw else gwWA gw) (if sel then gwSB gw else gwSA gw)) (planeValue c t a ((64 * part + w) * gwK gw + i)))
          * 2 ^ (gwG gw * i))).sum / 2 ^ (32 * j) % 2 ^ 32) := by
  refine writesWide_mapWide fun w j _ small => ?_
  have value : ∀ k, (if k < 1024 * t.count then t.int (subOf t (at_ (c.plane a) (k / t.count)) (k % t.count)) else 0) = planeValue c t a k := by
    intro k
    unfold planeValue
    split
    · rename_i inside
      rw [at_plane planes a (Nat.div_lt_of_lt_mul (Nat.mul_comm .. ▸ inside))]
    · rfl
  simp only [foldl_add_eq, zero_add, List.map_map, Function.comp_def, value]
  rw [getD_wideElems _ small]
  simp only [clampInt_eq (intMin_le_intMax _ _), Nat.cast_pow, Nat.cast_ofNat]

theorem getD_append_replicate {α : Type} (l : List α) (n j : Nat) (z : α) : (l ++ List.replicate n z).getD j z = l.getD j z := by
  obtain inside | past := Nat.lt_or_ge j l.length
  · rw [List.getD_append _ _ _ _ inside]
  · rw [List.getD_append_right _ _ _ _ past, List.getD_eq_getElem?_getD, List.getElem?_getD_replicate_default_eq, List.getD_eq_default _ _ past]

theorem writesWide_extractWide (planes : ∀ u, swf 0 (c.planes.get u) = true) {gw : Word} (g : gwG gw ≠ 0) (f n : Nat) :
    writesWide c (extractWide c f n gw d a) d (fun w j x =>
      let word : Nat := ((List.range 16).map (fun i => (c.elem a (16 * w + i)).toNat * 2 ^ (32 * i))).sum
      (j < n → ∃ X D : Nat → Int, X 0 = sintOf 512 word
        ∧ (∀ i, -2 ^ (gwG gw - 1) ≤ D i ∧ D i < 2 ^ (gwG gw - 1) ∧ X i = D i + 2 ^ gwG gw * X (i + 1))
        ∧ x.toInt = max (-2 ^ 31) (min (2 ^ 31 - 1) (D (f + j))))
      ∧ (n ≤ j → x = 0)) := by
  have pos := Nat.pos_of_ne_zero g
  refine writesWide_mapWide fun w j wide small => ?_
  dsimp only
  rw [← wideWord_plane planes wide, digits_eq_map, getD_append_replicate]
  generalize sintOf 512 (wideWord (c.plane a) w) = x
  refine ⟨fun lt => ⟨fun i => (restOf (gwG gw))^[i] x, fun i => digit (gwG gw) ((restOf (gwG gw))^[i] x), rfl, fun i => ?_, ?_⟩, fun ge => ?_⟩
  · obtain ⟨lo, hi⟩ := digit_bounds pos ((restOf (gwG gw))^[i] x)
    refine ⟨lo, hi, ?_⟩
    exact (digit_add_restOf pos _).trans (congrArg (_ + 2 ^ gwG gw * ·) (Function.iterate_succ_apply' _ i x).symm)
  · rw [← clampDigit_toInt]
    simp [List.getD_eq_getElem?_getD, lt]
  · simp [List.getD_eq_getElem?_getD, ge]

end Sys2Proof.Machine
end

section
/-! The words across a plane (R245 to R258): each is one of the kinds of words above. -/

namespace Sys2Proof.Machine

variable {c : Core} {d a b : VReg}

theorem defaultNaN_lt (t : ElemTy) : t.ffmt.defaultNaN < 2 * t.ffmt.signBit := by
  cases t <;> decide

/-- VSCL in each sub-element. -/
theorem lanesOf_scale (planes : ∀ u, swf 0 (c.planes.get u) = true) {t : ElemTy} (fl : t.isFloat = true) (v64 : t ≠ .fp64) (mode : Rm) (sat : Bool) (n : Nat) :
    lanesOf c (mapActive c d (fun e => eachSub t (fun i => scaleSub t mode sat ((at_ (c.plane b) e).toNat / 256 ^ n % 256) (subOf t (at_ (c.plane a) e) i)))) d t
      (fun e i w =>
        let κ := (c.elem b e).toNat / 256 ^ n % 256
        (κ = 255 → w = t.ffmt.defaultNaN)
        ∧ (κ ≠ 255 → ∀ p, codeValue t.ffmt (subOf t (c.elem a e) i) p → finiteIn t.ffmt (p * (2 : ℚ) ^ ((κ : Int) - 127)) →
            roundsTo t.ffmt mode (p * (2 : ℚ) ^ ((κ : Int) - 127)) w)) := by
  refine writesElems_mapActive fun e live i lt => ?_
  rw [subOf_eachSub v64 _ lt, at_plane planes a live.1, at_plane planes b live.1]
  refine ⟨fun full => ?_, fun scale p value range => roundsTo_mod fl (scaleSub_roundsTo scale value range)⟩
  rw [full, scaleSub_255, Nat.mod_eq_of_lt (two_mul_signBit fl ▸ defaultNaN_lt t)]

/-- The types of VDOT8's operands have four codes in an element. -/
theorem dot8_type (five : Bool) : (if five = true then ElemTy.e5m2 else .e4m3).isFloat = true ∧ (if five = true then ElemTy.e5m2 else .e4m3).count = 4 := by
  cases five <;> exact ⟨rfl, rfl⟩

/-- The types of VSCL. -/
theorem scale_type (bf : Bool) : (if bf = true then ElemTy.bf16 else .fp32).isFloat = true ∧ (if bf = true then ElemTy.bf16 else .fp32) ≠ .fp64 := by
  cases bf <;> exact ⟨rfl, by decide⟩

/-- A function word in each active element. -/
theorem writesElems_fnPlane (planes : ∀ u, swf 0 (c.planes.get u) = true) {g : Nat → Nat × Flags} {P : Nat → Half → Prop}
    (value : ∀ e, P e (BitVec.ofNat 32 (g (c.elem a e).toNat).1)) : writesElems c (fnPlane g c d a) d P :=
  writesElems_mapActive fun e live => by
    rw [eachSub_word (t := .fp32) (by decide), subOf_word (by decide), at_plane planes a live.1]
    exact value e

/-- Settles O39: each word is a word of its kind — along an axis, a dot product, a scale, a function or wide — whose elements the lemmas above give. -/
theorem vectorPlaneResults : Obligations.VectorPlaneResults := by
  intro c v d a b q ty rm sat op h n planes
  simp only [vValue]
  have fnx : ∀ fn, writesElems c (fnPlane (fnX fn) c d a) d (fun e w => w.toNat = (fnX fn (c.elem a e).toNat).1) := fun fn =>
    writesElems_fnPlane planes fun e => toNat_ofNat_word (fnX_lt fn _)
  have fnf : ∀ fn, writesElems c (fnPlane (fnF fn) c d a) d (fun e w => w.toNat = (fnF fn (c.elem a e).toNat).1) := fun fn =>
    writesElems_fnPlane planes fun e => toNat_ofNat_word (fnF_lt fn _)
  refine ⟨fun whole => ⟨writesElems_reduceAxis planes whole isAxis_rows _ _ _, writesElems_reduceAxis planes whole isAxis_lanes _ _ _,
      writesElems_scanAxis planes whole isAxis_rows _ _ _, writesElems_scanAxis planes whole isAxis_lanes _ _ _⟩,
    ⟨fun ta tb => ?vdot8, ?vdotb⟩, fun bf => ?vscl,
    ⟨fnx 0, fnx 1, fnx 2, fnx 3, fnx 4, fnx 5, fnx 6, fnf 0, fnf 1, fnf 2, fnf 3, fnf 4, fnf 5, fnf 6, ?vrcpx⟩,
    fun g k => ⟨fun sel part _ => writesWide_packWide planes ty sel part.val v.scalar, fun fd m => ?vxtp⟩⟩
  case vdot8 =>
    obtain ⟨fa, ka⟩ := dot8_type ta
    obtain ⟨fb, kb⟩ := dot8_type tb
    have writes := writesGroup_dotPlane (window := true) (mode := .rne) (sat := false) (d := d) (a := a) (b := b) (q := q) (h := h.val) planes fa fb
      (kb.trans ka.symm) (congrArg (4 * ·) ka)
    refine ⟨fun x mem => ?_, writes.2⟩
    obtain ⟨e, live, here, at_, value⟩ := writes.1 x mem
    refine ⟨e, live, here, at_, ?_⟩
    intro m o z g values hz top below range
    rw [value]
    exact roundsTo_toNat_ofNat (dotElem_window (fun j lt => ⟨(values j lt).1.2, (values j lt).2.2⟩) hz.2 top below range)
  case vdotb =>
    have writes := writesGroup_dotPlane (window := false) (mode := v.rm) (sat := sat) (ta := .bf16) (tb := .bf16) (n := 8) (d := d) (a := a) (b := b) (q := q)
      (h := h.val) planes rfl rfl rfl rfl
    refine ⟨fun x mem => ?_, writes.2⟩
    obtain ⟨e, live, here, at_, value⟩ := writes.1 x mem
    refine ⟨e, live, here, at_, ?_⟩
    intro m o z values hz range
    rw [value]
    exact roundsTo_toNat_ofNat (dotElem_exact (fun j lt => ⟨(values j lt).1.2, (values j lt).2.2⟩) hz.2 range)
  case vscl => exact lanesOf_scale planes (scale_type bf).1 (scale_type bf).2 v.rm sat n.val
  case vrcpx =>
    refine writesElems_fnPlane planes ?_
    intro e p value nonzero range
    exact roundsTo_toNat_ofNat (fnX_reciprocal value nonzero range)
  case vxtp =>
    obtain ⟨members, all⟩ := writesWide_extractWide (d := d) (a := a) planes g fd.val (m.val + 1)
    refine ⟨fun x mem => ?_, all⟩
    obtain ⟨w, j, wide, small, live, at_, digits_, zero⟩ := members x mem
    exact ⟨w, j, wide, small, live, at_, fun le => digits_ (Nat.lt_succ_of_le le), zero⟩

end Sys2Proof.Machine
end

section
/-! The life of a packet in its queue (R81 to R93): fetching, polling, and retirement. -/

namespace Sys2Proof.Machine

/-! ### Fetching (R81, R83, R84, R89) -/

theorem exec_packetFetch (s : State) : exec .packetFetch s = execPacketFetch s := rfl
theorem exec_queuePoll (s : State) : exec .queuePoll s = execQueuePoll s := rfl
theorem exec_packetRetire (s : State) : exec .packetRetire s = execPacketRetire s := rfl

/-- The byte of a word that holds a lap code. -/
theorem bits_low_byte (w : Nat) : bits w 7 0 = w % 256 := by simp [bits]

/-- A fence that has not retired is what keeps an active queue from fetching (R91). -/
theorem State.mayFetch_of {s : State} {q : Queue} (active : s.queueActive q = true) (room : q.fetch < q.rd + 16)
    (fences : ∀ p ∈ q.packets, p.ty = 6 → p.retired = true) : s.mayFetch q = true := by
  have open_ : q.packets.any (fun p => !p.retired && p.ty == 6) = false := by
    simp only [List.any_eq_false]
    intro p m
    have := fences p m
    grind
  simp [State.mayFetch, active, room, open_]

/-- The packet as it is decoded: whole, or invalid with its lowest detail (R84). -/
theorem State.decodePacket_eq (s : State) (k : QKey) (q : Queue) (ws : Vector Word 8) :
    let p : Packet := ⟨q.fetch, ws, .fetched, 0, none, none, none, false⟩
    s.decodePacket k q ws = { p with phase := (s.decodePacket k q ws).phase }
      ∧ (s.packetFaults k q p = [] → (s.decodePacket k q ws).phase = .fetched)
      ∧ ∀ d, lowest (s.packetFaults k q p) = some d → (s.decodePacket k q ws).phase = .invalid d := by
  intro p
  refine ⟨?_, fun valid => ?_, fun d faulty => ?_⟩
  · unfold State.decodePacket; dsimp only; split <;> rfl
  · simp only [State.decodePacket, p] at valid ⊢; simp [valid, lowest]
  · simp only [State.decodePacket, p] at faulty ⊢; simp [faulty]

section
variable {s : State} {q : Queue} (at_ : aget s.queues s.place.q = some q)
include at_

theorem exec_queuePoll_empty (host : s.hostQueue s.place.q q = true) (may : s.mayFetch q = true) (empty : s.validSlot s.place.q q = none)
    (due : q.pollAt ≤ s.tick) : exec .queuePoll s = .next (s.setQueue s.place.q { q with pollAt := s.tick + q.poll }) := by
  rw [exec_queuePoll, execQueuePoll, withQueue_some at_]
  simp only [host, may, empty, due]
  rfl

variable {pa : Nat} (slot : (if q.part.isEmpty then s.validSlot s.place.q q else s.slotPA s.place.q q q.fetch) = some pa)
  (may : s.mayFetch q = true) (due : s.hostQueue s.place.q q = true → q.pollAt ≤ s.tick)
include slot may due

/-- A slot that is read: one word of it, or all that are left, from which the packet is decoded unless the lap code has gone. -/
theorem execPacketFetch_eq : execPacketFetch s =
    if 1 ≤ s.place.n ∧ s.place.n ≤ 8 then
      if (aget q.part (pa + 8 * (s.place.n - 1))).isSome then idle s
      else .next (s.setQueue s.place.q { q with part := q.part ++ [(pa + 8 * (s.place.n - 1), s.readWord (pa + 8 * (s.place.n - 1)))] })
    else if (s.slotWord q pa 0).toNat % 256 ≠ lapCode q.log2s q.fetch then .next (s.setQueue s.place.q { q with part := [] })
    else .next (s.setQueue s.place.q (q.addPacket (s.decodePacket s.place.q q (Vector.ofFn (fun i => s.slotWord q pa i.val))))) := by
  have ready : (s.mayFetch q && (!s.hostQueue s.place.q q || decide (q.pollAt ≤ s.tick))) = true := by
    cases h : s.hostQueue s.place.q q
    · simp [may]
    · simp [may, due h]
  rw [execPacketFetch, withQueue_some at_]
  simp only [slot, ready, if_true, bits_low_byte]
  rfl

theorem exec_packetFetch_word (low : 1 ≤ s.place.n) (high : s.place.n ≤ 8) (unread : aget q.part (pa + 8 * (s.place.n - 1)) = none) :
    exec .packetFetch s = .next (s.setQueue s.place.q
      { q with part := q.part ++ [(pa + 8 * (s.place.n - 1), s.readWord (pa + 8 * (s.place.n - 1)))] }) := by
  rw [exec_packetFetch, execPacketFetch_eq at_ slot may due, if_pos ⟨low, high⟩, unread]
  rfl

theorem exec_packetFetch_lost (all : s.place.n = 0 ∨ 8 < s.place.n) (lost : (s.slotWord q pa 0).toNat % 256 ≠ lapCode q.log2s q.fetch) :
    exec .packetFetch s = .next (s.setQueue s.place.q { q with part := [] }) := by
  rw [exec_packetFetch, execPacketFetch_eq at_ slot may due, if_neg (by omega), if_pos lost]

theorem exec_packetFetch_decodes (all : s.place.n = 0 ∨ 8 < s.place.n) (lap : (s.slotWord q pa 0).toNat % 256 = lapCode q.log2s q.fetch) :
    exec .packetFetch s = .next (s.setQueue s.place.q
      (q.addPacket (s.decodePacket s.place.q q (Vector.ofFn (fun i => s.slotWord q pa i.val))))) := by
  rw [exec_packetFetch, execPacketFetch_eq at_ slot may due, if_neg (by omega), if_neg (not_not_intro lap)]
end

/-! ### Reports (R88) -/

/-- Where a packet's status record or completion signal goes, if it names a place that can be used (R88; entry 106). -/
def State.reportPlace (s : State) (k : QKey) (q : Queue) (p : Packet) (i : Fin 8) (al : Nat) : Option Nat :=
  let va := p.bits i 55 0
  if va = 0 ∨ va % al ≠ 0 ∨ p.bits i 63 56 ≠ 0 then none else s.queuePA k q va .write (al == 8)

/-- The state with the status record written. -/
def State.recorded (s : State) (k : QKey) (q : Queue) (p : Packet) (status detail ran stopped : Nat) : State :=
  match s.reportPlace k q p 6 16 with
  | some pa => s.write pa (toBytes 8 (detail % 2 ^ 32 * 2 ^ 32 + status) ++ toBytes 8 (stopped % 2 ^ 32 * 2 ^ 32 + ran % 2 ^ 32))
  | none => s

theorem State.reportPlace_of {s : State} {k : QKey} {q : Queue} {p : Packet} {i : Fin 8} {al pa : Nat} (aligned : p.bits i 55 0 % al = 0)
    (place : (if p.bits i 55 0 ≠ 0 ∧ p.bits i 63 56 = 0 then s.queuePA k q (p.bits i 55 0) .write (al == 8) else none) = some pa) :
    s.reportPlace k q p i al = some pa := by
  rw [← place, State.reportPlace]
  have named : p.bits i 55 0 ≠ 0 ∧ p.bits i 63 56 = 0 := by
    by_contra unnamed
    simp [if_neg unnamed] at place
  rw [if_neg (by simp [named, aligned]), if_pos named]

section
variable (s : State) (k : QKey) (q : Queue) (p : Packet) (status detail ran stopped : Nat)

/-- The record is written, then the signal is sent. -/
theorem State.report_eq : s.report k q p status detail ran stopped =
    match s.reportPlace k q p 7 8 with
    | some pa => (s.recorded k q p status detail ran stopped).sendSig (q.source k) pa false (BitVec.ofNat 64 (p.bits 0 63 32)) none none none
    | none => s.recorded k q p status detail ran stopped := rfl

theorem State.recorded_queues : (s.recorded k q p status detail ran stopped).queues = s.queues := by unfold State.recorded; split <;> rfl
theorem State.recorded_sigs : (s.recorded k q p status detail ran stopped).sigs = s.sigs := by unfold State.recorded; split <;> rfl
theorem State.recorded_wf {s : State} (h : s.Sound) : (s.recorded k q p status detail ran stopped).Sound := by
  unfold State.recorded
  split
  · exact State.write_wf _ _ h
  · exact h

theorem State.report_mem : (s.report k q p status detail ran stopped).mem = (s.recorded k q p status detail ran stopped).mem := by
  rw [State.report_eq]; split <;> rfl
theorem State.report_queues : (s.report k q p status detail ran stopped).queues = s.queues := by
  rw [State.report_eq]
  split
  · exact s.recorded_queues k q p status detail ran stopped
  · exact s.recorded_queues k q p status detail ran stopped
theorem State.report_wf {s : State} (h : s.Sound) : (s.report k q p status detail ran stopped).Sound := by
  unfold State.Sound
  rw [State.report_mem]
  exact State.recorded_wf k q p status detail ran stopped h

/-- The status record reads as it was written. -/
theorem State.num_report {s : State} (h : s.Sound) {pa : Nat} (place : s.reportPlace k q p 6 16 = some pa) (small : status < 2 ^ 32) :
    (s.report k q p status detail ran stopped).num pa 8 = detail % 2 ^ 32 * 2 ^ 32 + status
      ∧ (s.report k q p status detail ran stopped).num (pa + 8) 8 = stopped % 2 ^ 32 * 2 ^ 32 + ran % 2 ^ 32 := by
  have mem := s.report_mem k q p status detail ran stopped
  have written : s.recorded k q p status detail ran stopped
      = s.write pa (toBytes 8 (detail % 2 ^ 32 * 2 ^ 32 + status) ++ toBytes 8 (stopped % 2 ^ 32 * 2 ^ 32 + ran % 2 ^ 32)) := by
    simp only [State.recorded, place]
  obtain ⟨first, second⟩ := State.num_write_pair h pa (detail % 2 ^ 32 * 2 ^ 32 + status) (stopped % 2 ^ 32 * 2 ^ 32 + ran % 2 ^ 32)
  rw [State.num_congr mem, State.num_congr mem, written, first, second]
  omega

/-- The completion signal is sent behind those on their way. -/
theorem State.report_sends {pa : Nat} (place : s.reportPlace k q p 7 8 = some pa) :
    ∃ m, (s.report k q p status detail ran stopped).sigs = s.sigs ++ [m] ∧ m.addr = pa ∧ m.isMax = false
      ∧ m.val = BitVec.ofNat 64 (p.bits 0 63 32) ∧ m.src = q.source k ∧ m.applied = false := by
  rw [State.report_eq, place]
  have sent := s.recorded_sigs k q p status detail ran stopped
  exact ⟨⟨_, _, _, _, _, _, _, _, _, _, _, _, _⟩, congrArg (· ++ [_]) sent, rfl, rfl, rfl, rfl, rfl⟩
end

/-! ### Retirement (R88, R93) -/

/-- A packet has ended: as it was ended, in its turn if it is invalid, once its update is applied if it is a set, once it is the oldest if it
is a fence (entry 38). -/
theorem State.packetEnd_of {s : State} {k : QKey} {q : Queue} {p : Packet} {a b c d : Nat}
    (h : p.phase = .ended a b c d
      ∨ (p.phase = .invalid b ∧ q.nextPacket.map (·.idx) = some p.idx ∧ s.queueActive q = true ∧ a = 5 ∧ c = 0 ∧ d = 0)
      ∨ (p.phase = .dispatched ∧ a = 0 ∧ b = 0 ∧ c = 0 ∧ d = 0
        ∧ ((p.ty = 5 ∧ ∀ m ∈ s.sigs, m.pkt = some (k, p.idx) → m.applied = true) ∨ (p.ty = 6 ∧ q.rd = p.idx)))) :
    s.packetEnd k q p = some (a, b, c, d) := by
  rcases h with ended | ⟨invalid, next, active, rfl, rfl, rfl⟩ | ⟨dispatched, rfl, rfl, rfl, rfl, done⟩
  · simp only [State.packetEnd, ended]
  · simp [State.packetEnd, invalid, next, active]
  · simp only [State.packetEnd, dispatched]
    refine if_pos ?_
    rcases done with ⟨ty, applied⟩ | ⟨ty, oldest⟩
    · have none_ : s.sigs.any (fun m => m.pkt == some (k, p.idx) && !m.applied) = false := by
        simp only [List.any_eq_false]
        intro m here
        have := applied m here
        grind
      simp [ty, none_]
    · simp [ty, oldest]

/-- Does the end of a packet put its queue into ERR (R93)? -/
def State.putsErr (s : State) (q : Queue) (a : Nat) : Bool := (a == 5 || a == 6) && s.queueActive q

/-- A queue one of whose packets has retired. -/
def Queue.retired (q : Queue) (p : Packet) (err : Bool) : Queue :=
  let x := advance q.rd (q.setPacket p.idx (fun p => { p with retired := true })).packets
  let q' := { q with rd := x.1, packets := x.2, state := if err then 1 else q.state }
  if err then q'.dropBehind p.idx else q'

theorem Queue.retired_false (q : Queue) (p : Packet) :
    let done := advance q.rd (q.packets.map (fun x => if x.idx = p.idx then { x with retired := true } else x))
    (q.retired p false).rd = done.1 ∧ (q.retired p false).packets = done.2 ∧ (q.retired p false).state = q.state := ⟨rfl, rfl, rfl⟩
theorem Queue.retired_true (q : Queue) (p : Packet) :
    let done := advance q.rd (q.packets.map (fun x => if x.idx = p.idx then { x with retired := true } else x))
    (q.retired p true).rd = done.1 ∧ (q.retired p true).state = 1
      ∧ ∀ x, x ∈ (q.retired p true).packets ↔ x ∈ done.2 ∧ (x.idx ≤ p.idx ∨ x.begun = true) := by
  refine ⟨rfl, rfl, fun x => ?_⟩
  simp [Queue.retired, Queue.dropBehind, Queue.setPacket]
theorem Queue.retired_rd (q : Queue) (p : Packet) (err : Bool) :
    (q.retired p err).rd = (advance q.rd (q.packets.map (fun x => if x.idx = p.idx then { x with retired := true } else x))).1 := by
  cases err <;> rfl
theorem Queue.retired_descPA (q : Queue) (p : Packet) (err : Bool) : (q.retired p err).descPA = q.descPA := by cases err <;> rfl

/-- The state in which RDIDX stands in the descriptor, and in ERR the index and the code of the packet. -/
def State.described (u : State) (k : QKey) (q : Queue) (err : Bool) (a idx : Nat) : State :=
  let v := (u.setQueue k q).writeWord (q.descPA + 16) (BitVec.ofNat 64 q.rd)
  if err then v.writeWord (q.descPA + 32) (queueWord4 1 a idx) else v

section
variable {u : State} (k : QKey) (q : Queue) (err : Bool) (a idx : Nat)

theorem State.described_queues : (u.described k q err a idx).queues = aput u.queues k q := by unfold State.described; dsimp only; split <;> rfl
theorem State.described_sigs : (u.described k q err a idx).sigs = u.sigs := by unfold State.described; dsimp only; split <;> rfl

theorem State.num_described_rd (h : u.Sound) : (u.described k q err a idx).num (q.descPA + 16) 8 = q.rd % 2 ^ 64 := by
  have rd : ((u.setQueue k q).writeWord (q.descPA + 16) (BitVec.ofNat 64 q.rd)).num (q.descPA + 16) 8 = q.rd % 2 ^ 64 := by
    rw [State.num_writeWord (s := u.setQueue k q) h, BitVec.toNat_ofNat]
  unfold State.described
  dsimp only
  split
  · rw [State.num_writeWord_outside _ _ _ _ _ (.inl (by omega)), rd]
  · exact rd

theorem State.num_described_err (h : u.Sound) (small : a < 2 ^ 16) :
    (u.described k q true a idx).num (q.descPA + 32) 8 = idx % 2 ^ 32 * 2 ^ 32 + a * 2 ^ 16 + 1 := by
  unfold State.described
  dsimp only
  rw [if_pos rfl, State.num_writeWord (State.writeWord_wf (s := u.setQueue k q) _ _ h), queueWord4, BitVec.toNat_ofNat, Nat.mod_eq_of_lt (by omega)]

theorem State.num_described_outside {pa n : Nat} (apart : pa + n ≤ q.descPA ∨ q.descPA + 64 ≤ pa) :
    (u.described k q err a idx).num pa n = u.num pa n := by
  have rd : ((u.setQueue k q).writeWord (q.descPA + 16) (BitVec.ofNat 64 q.rd)).num pa n = u.num pa n :=
    State.num_writeWord_outside _ _ _ _ _ (by omega)
  unfold State.described
  dsimp only
  split
  · rw [State.num_writeWord_outside _ _ _ _ _ (by omega), rd]
  · exact rd
end

/-- A packet that has ended retires once its signal may be sent. -/
theorem exec_packetRetire_ended {s : State} {q : Queue} {p : Packet} {a b c d : Nat} (at_ : aget s.queues s.place.q = some q)
    (found : q.packets.find? (fun p => p.idx = s.place.n && !p.retired) = some p) (ended : s.packetEnd s.place.q q p = some (a, b, c, d))
    (room : s.signalRoom s.place.q q p = true) :
    let u := s.report s.place.q q p a b c d
    exec .packetRetire s = .next (u.described s.place.q (q.retired p (u.putsErr q a)) (u.putsErr q a) a p.idx) := by
  intro u
  rw [exec_packetRetire, execPacketRetire, withQueue_some at_]
  simp -zeta only [found, ended, room, if_true]
  rfl

/-- No other status than PACKET_INVALID and WAIT_TIMEOUT puts a queue into ERR. -/
theorem State.putsErr_other (u : State) (q : Queue) {a : Nat} (h5 : a ≠ 5) (h6 : a ≠ 6) : u.putsErr q a = false := by
  simp [State.putsErr, h5, h6]
/-- In a queue that is in state 0 they do. -/
theorem State.putsErr_active (u : State) {q : Queue} {a : Nat} (h : a = 5 ∨ a = 6) (state : q.state = 0) (live : q.destroyAt = none) :
    u.putsErr q a = true := by
  rcases h with rfl | rfl <;> simp [State.putsErr, State.queueActive, state, live]

/-- Settles O49: a fetch reads the slot by its law; a packet that has ended retires into `State.described`, which is read field by field. -/
theorem packetsAreFetchedAndRetired : Obligations.PacketsAreFetchedAndRetired := by
  intro s q at_ k
  refine ⟨?fetch, exec_queuePoll_empty at_, ?retire⟩
  case fetch =>
    intro pa slot active room fences due first
    have may := State.mayFetch_of active room fences
    refine ⟨fun all lap => ?_, exec_packetFetch_lost at_ slot may due, exec_packetFetch_word at_ slot may due⟩
    exact ⟨_, exec_packetFetch_decodes at_ slot may due all lap, s.decodePacket_eq k q _⟩
  case retire =>
    intro p a b c d found ends room sound done record
    let u := s.report k q p a b c d
    let err := u.putsErr q a
    have us : u.Sound := State.report_wf k q p a b c d sound
    have desc : (q.retired p err).descPA = q.descPA := q.retired_descPA p err
    refine ⟨_, q.retired p err, exec_packetRetire_ended at_ found (State.packetEnd_of ends) room, ?_, q.retired_rd p err, ?_, fun h5 h6 => ?_,
      fun code state live => ?_, fun pa aligned place apart small => ?_, fun pa aligned place => ?_, fun j other => ?_⟩
    · rw [State.described_queues, aget_aput_self]
    · rw [← desc]
      exact State.num_described_rd k _ err a p.idx us
    · have none_ : err = false := u.putsErr_other q h5 h6
      rw [none_]
      exact ⟨(q.retired_false p).2.2, (q.retired_false p).2.1⟩
    · have puts : u.putsErr q a = true := u.putsErr_active code state live
      have now : err = true := puts
      obtain ⟨-, ERR, packets⟩ := q.retired_true p
      rw [puts, now, ← q.retired_descPA p true]
      exact ⟨ERR, State.num_described_err k _ a p.idx us (by omega), packets⟩
    · rw [State.num_described_outside _ _ _ _ _ (by rw [desc]; omega), State.num_described_outside _ _ _ _ _ (by rw [desc]; omega)]
      exact State.num_report k q p a b c d sound (State.reportPlace_of aligned place) small
    · obtain ⟨m, sent, rest⟩ := s.report_sends k q p a b c d (State.reportPlace_of (al := 8) aligned place)
      exact ⟨m, by rw [State.described_sigs]; exact sent, rest⟩
    · rw [State.described_queues, aget_aput, if_neg other, State.report_queues]

end Sys2Proof.Machine
end

section
/-! Queues as they are created and destroyed (R80, R94 to R96). -/

namespace Sys2Proof.Machine

/-! ### The descriptor's STATE field (R80, R94) -/

/-- STATE reads as it was written, and no other byte of memory changes. -/
theorem Queue.num_setState (q : Queue) {s : State} (h : s.Sound) {v : Nat} (small : v < 4) : (q.setState v s).num (q.descPA + 32) 8 % 4 = v := by
  rw [Queue.setState, State.num_writeWord h, putBits, BitVec.toNat_ofNat, bits]
  omega
theorem Queue.sameMemoryBut_setState (q : Queue) (s : State) (v : Nat) : s.sameMemoryBut (q.setState v s) (q.descPA + 32) 8 :=
  fun _ apart => State.byte_writeWord_outside _ _ _ _ apart

/-! ### Creation (R80) -/

theorem exec_qcreate (a : GReg) (s : State) : exec (.qcreate a) s = execQcreate a s := rfl
theorem exec_qkill (a : GReg) (s : State) : exec (.qkill a) s = execQkill a s := rfl

section
variable {s : State} {a : GReg} {pa : Nat} {tr : Trans} (priv : s.core.priv = true)
  (place : translate seqReach .write (s.core.rd a).toNat s = .ok (pa, tr))
include priv place

/-- A descriptor without an offending field makes its queue. -/
theorem exec_qcreate_makes (valid : (s.hold tr).queueFaults s.core.key pa (fun i => s.readNum (pa + 8 * i) 8) = []) :
    let w := fun i => s.readNum (pa + 8 * i) 8
    exec (.qcreate a) s = .next ({ s.hold tr with
      queues := aput s.queues ⟨s.core.key.pkg, bits (w 3) 37 32⟩ (queueOf pa w) }.writeWord (pa + 32) 0).retire := by
  have key : (s.hold tr).core.key = s.core.key := Core.hold_key _ _
  have none_ : lowest ((s.hold tr).queueFaults s.core.key pa (fun i => (s.hold tr).readNum (pa + 8 * i) 8)) = none := congrArg lowest valid
  rw [exec_qcreate, execQcreate, privileged_handler priv]
  simp only [place, key, none_]
  rfl
/-- One with an offending field is refused with the first of them. -/
theorem exec_qcreate_refuses {e : Nat} (faulty : lowest ((s.hold tr).queueFaults s.core.key pa (fun i => s.readNum (pa + 8 * i) 8)) = some e) :
    exec (.qcreate a) s = .next ((s.hold tr).writeWord (pa + 32) (queueWord4 3 10 e)).retire := by
  have key : (s.hold tr).core.key = s.core.key := Core.hold_key _ _
  have some_ : lowest ((s.hold tr).queueFaults s.core.key pa (fun i => (s.hold tr).readNum (pa + 8 * i) 8)) = some e := faulty
  rw [exec_qcreate, execQcreate, privileged_handler priv]
  simp only [place, key, some_]
  rfl
end

/-! ### The start of a destruction (R94; entry 20) -/

/-- A live queue goes into destruction. -/
theorem State.destroyQueue_live {s : State} {k : QKey} {q : Queue} (at_ : aget s.queues k = some q) (live : q.destroyAt = none) :
    s.destroyQueue k = q.setState 2 (s.setQueue k { q with state := 2, destroyAt := some (s.tick + 512) }) := by
  simp only [State.destroyQueue, at_, live]
  rfl
/-- A number that names no live queue changes nothing. -/
theorem State.destroyQueue_gone {s : State} {k : QKey}
    (h : aget s.queues k = none ∨ ∃ q, aget s.queues k = some q ∧ q.destroyAt.isSome = true) : s.destroyQueue k = s := by
  rcases h with gone | ⟨q, at_, ending⟩
  · simp only [State.destroyQueue, gone]
  · simp only [State.destroyQueue, at_, ending, if_true]

theorem exec_qkill_eq {s : State} (priv : s.core.priv = true) (a : GReg) : exec (.qkill a) s
    = .next (if (s.core.rd a).toNat < 64 then s.destroyQueue ⟨s.core.key.pkg, (s.core.rd a).toNat⟩ else s).retire := by
  rw [exec_qkill, execQkill, privileged_handler priv]
  rfl

/-! ### Destroy packets (R94) -/

theorem exec_destroy (s : State) : exec .destroy s = execDestroy s := rfl
theorem exec_destroyTick (s : State) : exec .destroyTick s = execDestroyTick s := rfl
theorem exec_destroyNotice (t : Nat) (s : State) : exec (.destroyNotice t) s = execDestroyNotice t s := rfl

section
variable {s : State} {q : Queue} {p : Packet} (at_ : aget s.queues s.place.q = some q)
  (found : q.packets.find? (fun p => p.phase == .fetched && p.ty == 8) = some p)
include at_ found

/-- A destroy packet that names no live queue ends at once. -/
theorem exec_destroy_gone (h : aget s.queues ⟨s.place.q.pkg, p.bits 1 5 0⟩ = none
      ∨ ∃ x, aget s.queues ⟨s.place.q.pkg, p.bits 1 5 0⟩ = some x ∧ x.destroyAt.isSome = true) :
    exec .destroy s = .next (s.endPacket s.place.q p.idx 0 0 0 0) := by
  rw [exec_destroy, execDestroy, withQueue_some at_]
  rcases h with gone | ⟨x, here, ending⟩
  · simp only [found, gone]; rfl
  · simp only [found, here, ending]; rfl

/-- One that names a live queue starts its destruction. -/
theorem exec_destroy_live {x : Queue} (here : aget s.queues ⟨s.place.q.pkg, p.bits 1 5 0⟩ = some x) (live : x.destroyAt = none) :
    exec .destroy s = .next ((s.setQueue s.place.q (q.setPacket p.idx
      (fun y => { y with phase := .dispatched, destroys := some (p.bits 1 5 0) }))).destroyQueue ⟨s.place.q.pkg, p.bits 1 5 0⟩) := by
  rw [exec_destroy, execDestroy, withQueue_some at_]
  simp only [found, here, live]; rfl
end

/-- A packet's dispatch leaves a queue live. -/
theorem State.aget_setQueue_live {s : State} {k t : QKey} {q x y : Queue} (at_ : aget s.queues k = some q) (same : y.destroyAt = q.destroyAt)
    (here : aget s.queues t = some x) (live : x.destroyAt = none) :
    ∃ z, aget (s.setQueue k y).queues t = some z ∧ z.destroyAt = none := by
  by_cases own : t = k
  · subst own
    obtain rfl : q = x := Option.some.inj (at_.symm.trans here)
    exact ⟨y, aget_aput_self _ _ _, same.trans live⟩
  · exact ⟨x, by rw [State.setQueue, aget_aput, if_neg own, here], live⟩

/-! ### The destroy tick (R95) -/

/-- What the destroy tick t leaves of a launch: none of its groups waits to be placed, unless it is a gang without ABORT. -/
def Launch.overAt (l : Launch) (t : Nat) : Prop :=
  l.destroyed = some t ∧ ((l.lpb.gang = true → l.lpb.abort = true) → ∀ x ∈ l.shares, x.pending = [])

/-- A launch of u stands in s under another number than n, or has number n and is over. -/
def State.overIn (s u : State) (n t : Nat) : Prop := ∀ x ∈ u.launches, (x ∈ s.launches ∧ x.lid ≠ n) ∨ (x.lid = n ∧ x.overAt t)

theorem Launch.cut_overAt (l : Launch) (t : Nat) : (l.cut t).overAt t := by
  refine ⟨rfl, fun _ x m => ?_⟩
  obtain ⟨y, -, rfl⟩ := List.mem_map.1 m
  rfl
theorem State.mem_setLaunch {s : State} {l x : Launch} (h : x ∈ (s.setLaunch l).launches) : (x ∈ s.launches ∧ x.lid ≠ l.lid) ∨ x = l := by
  obtain ⟨y, m, e⟩ := List.mem_map.1 h
  split at e
  · exact .inr e.symm
  · next other => exact .inl (e ▸ ⟨m, other⟩)
theorem State.launch_lid {s : State} {n : Nat} {l : Launch} (h : s.launch n = some l) : l.lid = n := by simpa using List.find?_some h

theorem State.overIn_setLaunch {s u : State} {l : Launch} {n t : Nat} (h : s.overIn u n t) (lid : l.lid = n) (cut : l.overAt t) :
    s.overIn (u.setLaunch l) n t := by
  intro x m
  rcases State.mem_setLaunch m with ⟨here, -⟩ | rfl
  · exact h x here
  · exact .inr ⟨lid, cut⟩

/-- A launch with one task less at work on a die, and one more done. -/
def Launch.dropped (l : Launch) (die tid : Nat) : Launch :=
  let l := match l.share die with | some x => l.setShare { x with live := x.live - 1 } | none => l
  { l with done := tid :: l.done }

theorem Launch.dropped_lid (l : Launch) (die tid : Nat) : (l.dropped die tid).lid = l.lid := by
  unfold Launch.dropped; dsimp only; split <;> rfl
theorem Launch.dropped_overAt {l : Launch} {t : Nat} (cut : l.overAt t) (die tid : Nat) : (l.dropped die tid).overAt t := by
  unfold Launch.dropped
  dsimp only
  split
  · next x found =>
    refine ⟨cut.1, fun abort y my => ?_⟩
    obtain ⟨z, mz, e⟩ := List.mem_map.1 my
    split at e
    · rw [← e]; exact cut.2 abort x (List.mem_of_find?_eq_some found)
    · rw [← e]; exact cut.2 abort z mz
  · exact cut

/-- A core that is aborted: the cores are changed alone, or its task's launch drops it. -/
theorem State.abortCore_cases (u : State) (l : Launch) (k : CoreKey) :
    (u.abortCore l k).queues = u.queues ∧ ((u.abortCore l k).launches = u.launches
      ∨ ∃ tid, (u.abortCore l k).launches = (u.setLaunch (((u.launch l.lid).getD l).dropped k.die tid)).launches) := by
  have kept (c : Core) : (u.setCore c).queues = u.queues ∧ ((u.setCore c).launches = u.launches
      ∨ ∃ tid, (u.setCore c).launches = (u.setLaunch (((u.launch l.lid).getD l).dropped k.die tid)).launches) :=
    ⟨State.setCore_queues _ _, .inl (State.setCore_launches _ _)⟩
  unfold State.abortCore
  generalize u.getCore k = c
  dsimp only
  split
  · next w _ =>
    split
    · exact ⟨rfl, .inl rfl⟩
    · cases c.phase with
      | stopped groups live at_ => exact kept _
      | running =>
        dsimp only
        split
        · exact kept _
        · rw [State.setCore_queues, State.setCore_launches]
          exact ⟨rfl, .inr ⟨w.tid.toNat, rfl⟩⟩
      | free => exact ⟨rfl, .inl rfl⟩
      | ending e => exact ⟨rfl, .inl rfl⟩
  · exact ⟨rfl, .inl rfl⟩

/-- A launch that is over stays so while its tasks are aborted. -/
theorem State.abortCore_overIn {s u : State} {l : Launch} {t : Nat} (cut : l.overAt t) (h : s.overIn u l.lid t) (k : CoreKey) :
    s.overIn (u.abortCore l k) l.lid t := by
  have current : ((u.launch l.lid).getD l).lid = l.lid ∧ ((u.launch l.lid).getD l).overAt t := by
    cases found : u.launch l.lid with
    | none => exact ⟨rfl, cut⟩
    | some m =>
      have lid := State.launch_lid found
      exact ⟨lid, (h m (List.mem_of_find?_eq_some found)).elim (fun o => absurd lid o.2) (·.2)⟩
  obtain ⟨-, same | ⟨tid, drops⟩⟩ := u.abortCore_cases l k
  · intro x m
    exact h x (same ▸ m)
  · intro x m
    exact State.overIn_setLaunch h ((Launch.dropped_lid _ _ _).trans current.1) (Launch.dropped_overAt current.2 _ _) x (drops ▸ m)

theorem State.unreserve_frame (s : State) (l : Launch) : (s.unreserve l).launches = s.launches ∧ (s.unreserve l).queues = s.queues := by
  refine ⟨foldl_keeps State.launches (fun u x => ?_) _ _, foldl_keeps State.queues (fun u x => ?_) _ _⟩
  · exact foldl_keeps State.launches (fun _ _ => by rfl) _ _
  · exact foldl_keeps State.queues (fun _ _ => by rfl) _ _

/-- A launch at the destroy tick is over, and every other stands as it was. -/
theorem State.cutLaunch_overIn (s : State) (t : Nat) (l : Launch) : s.overIn (s.cutLaunch t l) l.lid t := by
  have start {u : State} {m : Launch} (same : u.launches = s.launches) (lid : m.lid = l.lid) (cut : m.overAt t) :
      s.overIn (u.setLaunch m) l.lid t := by
    intro x mx
    rcases State.mem_setLaunch mx with ⟨here, other⟩ | rfl
    · exact .inl ⟨same ▸ here, lid ▸ other⟩
    · exact .inr ⟨lid, cut⟩
  unfold State.cutLaunch
  dsimp only
  split
  · next gang =>
    simp only [Bool.and_eq_true, Bool.not_eq_true'] at gang
    exact start (u := s) rfl rfl ⟨rfl, fun abort => absurd (abort gang.1) (by simp [gang.2])⟩
  · have cut := start (u := s.unreserve l) (m := l.cut t) (s.unreserve_frame l).1 rfl (l.cut_overAt t)
    split
    · exact List.foldlRecOn (motive := fun u => s.overIn u l.lid t) _ _ cut
        (fun u h k _ => State.abortCore_overIn (l := l.cut t) (l.cut_overAt t) h k)
    · exact cut
theorem State.cutLaunch_queues (s : State) (t : Nat) (l : Launch) : (s.cutLaunch t l).queues = s.queues := by
  unfold State.cutLaunch
  dsimp only
  split
  · rfl
  · split
    · exact (foldl_keeps State.queues (fun u k => (u.abortCore_cases (l.cut t) k).1) _ _).trans (s.unreserve_frame l).2
    · exact (s.unreserve_frame l).2

/-- Some launches at the destroy tick. -/
def State.cutLaunches (s : State) (t : Nat) (ls : List Launch) : State := ls.foldl (fun s l => s.cutLaunch t l) s

/-- A launch that is left is over, unless it is none of them. -/
theorem State.cutLaunches_over (s : State) (t : Nat) (ls : List Launch) {x : Launch} (m : x ∈ (s.cutLaunches t ls).launches) :
    (x ∈ s.launches ∧ x ∉ ls) ∨ x.overAt t := by
  induction ls generalizing s with
  | nil => exact .inl ⟨m, List.not_mem_nil⟩
  | cons l r ih =>
    rcases ih (s.cutLaunch t l) m with ⟨here, rest⟩ | over_
    · rcases s.cutLaunch_overIn t l x here with ⟨before, other⟩ | ⟨-, over_⟩
      · exact .inl ⟨before, List.not_mem_cons_of_ne_of_not_mem (fun e => other (e ▸ rfl)) rest⟩
      · exact .inr over_
    · exact .inr over_
theorem State.cutLaunches_queues (s : State) (t : Nat) (ls : List Launch) : (s.cutLaunches t ls).queues = s.queues :=
  foldl_keeps State.queues (fun u l => u.cutLaunch_queues t l) ls s

/-- A packet that has not begun dispatch, or waits, ends with DESTROYED at the tick (R95; entry 42). -/
theorem Packet.cut_ended {p : Packet} {own : Nat} (t : Nat)
    (h : p.phase = .fetched ∨ (∃ d, p.phase = .invalid d) ∨ (p.phase = .dispatched ∧ p.lid = none ∧ p.destroys ≠ some own)) :
    (p.cut own t).phase = .ended 4 (t % 2 ^ 32) 0 0 := by
  rcases h with fetched | ⟨d, invalid⟩ | ⟨dispatched, waits, other⟩
  · simp only [Packet.cut, fetched]
  · simp only [Packet.cut, invalid]
  · simp [Packet.cut, dispatched, waits, other]

/-- A packet whose work was the destruction of queue k ends with it. -/
def Packet.destroyed (k : QKey) (p : Packet) : Packet :=
  if p.destroys = some k.q ∧ p.phase = .dispatched then { p with phase := .ended 0 0 0 0 } else p
/-- The queues once queue k is gone: in those of its package the packets that destroyed it have ended (R96). -/
def State.freed (s : State) (k : QKey) : State :=
  { s with queues := (adel s.queues k).map (fun x =>
      (x.1, if x.1.pkg = k.pkg then { x.2 with packets := x.2.packets.map (Packet.destroyed k) } else x.2)) }
/-- The descriptor of a queue that is gone says so, and the packet in it that destroyed it reports (R88, R96). -/
def State.buried (s : State) (k : QKey) (q : Queue) : State :=
  match q.packets.find? (fun p => p.destroys == some k.q && !p.retired) with
  | some p => (q.setState 3 s).report k q p 0 0 0 0
  | none => q.setState 3 s

theorem State.buried_queues (s : State) (k : QKey) (q : Queue) : (s.buried k q).queues = s.queues := by
  unfold State.buried
  split
  · exact State.report_queues ..
  · rfl
theorem State.buried_retired {s : State} {k : QKey} {q : Queue} (h : ∀ p ∈ q.packets, p.retired = true) : s.buried k q = q.setState 3 s := by
  have none_ : q.packets.find? (fun p => p.destroys == some k.q && !p.retired) = none :=
    List.find?_eq_none.2 (fun p m => by simp [h p m])
  rw [State.buried, none_]

/-- A finite map whose values are changed. -/
theorem aget_map {κ α β : Type} [DecidableEq κ] (l : List (κ × α)) (f : κ × α → β) (k : κ) :
    aget (l.map (fun e => (e.1, f e))) k = (aget l k).map (fun v => f (k, v)) := by
  simp only [aget, List.find?_map, Option.map_map, Function.comp_def]
  cases found : l.find? (fun e => decide (e.1 = k)) with
  | none => rfl
  | some e => simpa using congrArg (fun j => f (j, e.2)) (by simpa using List.find?_some found)

theorem State.aget_freed_self (s : State) (k : QKey) : aget (s.freed k).queues k = none := by
  rw [State.freed, aget_map, aget_adel, if_pos rfl, Option.map_none]
theorem State.aget_freed_other {s : State} {k j : QKey} {x : Queue} (other : j ≠ k) (package : j.pkg = k.pkg) (at_ : aget s.queues j = some x) :
    aget (s.freed k).queues j = some { x with packets := x.packets.map (Packet.destroyed k) } := by
  rw [State.freed, aget_map, aget_adel, if_neg other, at_, Option.map_some, if_pos package]

section
variable {s : State} {q : Queue} {t : Nat} (at_ : aget s.queues s.place.q = some q) (ending : q.destroyAt = some t)
include at_ ending

/-- At its destroy tick a queue's packets and launches are cut. -/
theorem exec_destroyTick_cuts (state : q.state = 2) (due : t ≤ s.tick) : exec .destroyTick s
    = .next ((s.setQueue s.place.q { q with state := 3, packets := q.packets.map (Packet.cut s.place.q.q t), part := [] }).cutLaunches t
        (s.launches.filter (fun l => l.q = s.place.q))) := by
  rw [exec_destroyTick, execDestroyTick, withQueue_some at_]
  simp only [ending, state, due]
  rfl

/-- Once nothing of a destroyed queue is left, its number is free. -/
theorem exec_destroyTick_frees (state : q.state = 3) (left : ∀ p ∈ q.packets, p.retired = true ∨ p.destroys = some s.place.q.q)
    (launches : ∀ l ∈ s.launches, l.q ≠ s.place.q) (room : ∀ p ∈ q.packets, p.retired = true ∨ s.signalRoom s.place.q q p = true) :
    exec .destroyTick s = .next ((s.buried s.place.q q).freed s.place.q) := by
  have empty : s.queueEmpty s.place.q q = true := by
    simp only [State.queueEmpty, Bool.and_eq_true, List.all_eq_true, Bool.or_eq_true, beq_iff_eq, Bool.not_eq_true', List.any_eq_false]
    exact ⟨left, launches⟩
  have sends : q.packets.all (fun p => p.retired || s.signalRoom s.place.q q p) = true := by
    simpa only [List.all_eq_true, Bool.or_eq_true] using room
  have fin : (fun x : QKey × Queue => if x.1.pkg = s.place.q.pkg then
        (x.1, { x.2 with packets := x.2.packets.map (fun p => if p.destroys = some s.place.q.q ∧ p.phase = .dispatched then
          { p with phase := .ended 0 0 0 0 } else p) }) else x)
      = fun x => (x.1, if x.1.pkg = s.place.q.pkg then { x.2 with packets := x.2.packets.map (Packet.destroyed s.place.q) } else x.2) := by
    funext x
    split <;> rfl
  rw [exec_destroyTick, execDestroyTick, withQueue_some at_]
  simp only [ending]
  rw [if_neg (by omega), if_pos ⟨state, empty, sends⟩, State.freed, ← fin]
  rfl
end

/-- Settles O52: creation and destruction by the law of each word and event; the launches that are cut by `State.cutLaunches_over`. -/
theorem queuesAreCreatedAndDestroyed : Obligations.QueuesAreCreatedAndDestroyed := by
  refine ⟨?words, ?events⟩
  case words =>
    intro s a pa tr priv sound w key n k
    refine ⟨fun place valid => ?_, fun e place faulty => ?_, fun q small at_ live => ?_, fun none_ => ?_⟩
    · refine ⟨_, exec_qcreate_makes priv place valid, ?_, fun x apart => ?_, aget_aput_self _ _ _, fun j other => ?_⟩
      · exact State.num_writeWord (s := { s.hold tr with queues := _ }) sound (pa + 32) 0
      · exact State.byte_writeWord_outside _ _ _ _ apart
      · exact (aget_aput _ _ _ _).trans (if_neg other)
    · refine ⟨_, exec_qcreate_refuses priv place faulty, ?_, fun x apart => ?_, rfl⟩
      · have word := State.num_writeWord (s := s.hold tr) sound (pa + 32) (queueWord4 3 10 e)
        refine word.trans ?_
        rw [queueWord4, BitVec.toNat_ofNat]
        omega
      · exact State.byte_writeWord_outside _ _ _ _ apart
    · refine ⟨_, (exec_qkill_eq priv a).trans (by rw [if_pos small, State.destroyQueue_live at_ live]), aget_aput_self _ _ _, ?_, ?_⟩
      · exact q.num_setState (s := s.setQueue k _) sound (by decide)
      · exact q.sameMemoryBut_setState (s.setQueue k _) 2
    · rw [exec_qkill_eq priv]
      split
      · next small => rw [State.destroyQueue_gone (none_.resolve_left (by omega))]
      · rfl
  case events =>
    intro s q at_ sound k
    refine ⟨fun p found => ⟨fun gone => ?_, fun x here ending => ?_, fun x here live => ?_⟩, fun t ending state due => ?_,
      fun t p => Packet.cut_ended t, fun t ending state left launches room => ?_, fun t ending new => ?_⟩
    · exact exec_destroy_gone at_ found (.inl gone)
    · exact exec_destroy_gone at_ found (.inr ⟨x, here, ending⟩)
    · obtain ⟨y, there, alive⟩ := State.aget_setQueue_live at_ (y := q.setPacket p.idx
        (fun y => { y with phase := .dispatched, destroys := some (p.bits 1 5 0) })) rfl here live
      refine ⟨_, _, (exec_destroy_live at_ found here live).trans (by rw [State.destroyQueue_live there alive]), aget_aput_self _ _ _, rfl, rfl⟩
    · let y := { q with state := 3, packets := q.packets.map (Packet.cut k.q t), part := [] }
      refine ⟨_, y, exec_destroyTick_cuts at_ ending state due, ?_, rfl, rfl, fun l m own => ?_⟩
      · rw [State.cutLaunches_queues]
        exact aget_aput_self _ _ _
      · refine (State.cutLaunches_over _ t _ m).resolve_left (fun h => h.2 ?_)
        exact List.mem_filter.2 ⟨h.1, decide_eq_true own⟩
    · refine ⟨_, exec_destroyTick_frees at_ ending state left launches room, State.aget_freed_self _ _, fun retired => ?_,
        fun j x other package here => ⟨_, State.aget_freed_other other package (by rw [State.buried_queues]; exact here), rfl⟩⟩
      rw [State.buried_retired retired]
      exact q.num_setState sound (by decide)
    · refine ⟨_, ?_, rfl⟩
      rw [exec_destroyNotice, execDestroyNotice, at_]
      exact if_pos ⟨ending, new⟩

end Sys2Proof.Machine
end

section
/-! A gang that starts behind its tick (R112, R395): two parked cores under one key, of which reading finds the first, while a core that
joins a stall domain looks for its step among all of them. -/

namespace Sys2Proof.Machine

theorem exec_gangStart (s : State) : exec .gangStart s = execGangStart s := rfl

/-! ### The state -/

/-- The core that is parked twice: free, and behind that at work in a fixed-mode task of the die's stall domain, at clock step 3. -/
def twinKey : CoreKey := ⟨0, 0, 1⟩
def twinFree : Core := Core.reset twinKey
def twinSlow : Core := { Core.reset twinKey with phase := .running, task := some { blankTask with fixed := true, dom := 2 }, clk := 3 }

/-- A gang of one group in fixed mode, whose stall domain is the die, with START 9, ready on core 0 of die 0. -/
def soloShare : DieShare :=
  { die := 0, pending := [(0, 0)], bind := [0], ran := 0, stopped := 0, live := 0, check := .ready, reported := false }
def soloGang : Launch :=
  { lid := 0, q := ⟨0, 0⟩, pidx := 0, seq := 0, prio := 0
    lpb := { va := 0, image := 0, trav := 0, swz := 0, xm1 := 0, ym1 := 0, zm1 := 0, cores := 1, mesh := false, dom := 2, abort := false
             gang := true, det := false, fixed := true, hops := 0, mcols := 0, mrows := 0, dies := 1, start := 9, params := [], copy := [] }
    image := { gang := true, detreq := false, timed := true, ring := false, entry := 8, codesz := 0, nbank := 0, maxbatch := 0, safegap := 0
               clusz := 0, unitsz := 0, stacksz := 0, code := [], consts := [], patches := [], tags := [], ttab := [(8, 0, 0)] }
    shares := [soloShare], start := 9, notReady := false, begun := false, destroyed := none, faults := [], done := [], logs := [] }

/-- The device with that gang, and core 1 parked twice. -/
def twinParked : State := { State.reset with parked := [(twinKey, twinFree), (twinKey, twinSlow)], launches := [soloGang] }

/-! ### What it satisfies -/

theorem twinParked_keyed : twinParked.Keyed := by
  unfold State.Keyed
  decide +kernel

/-- Every core reads with clock step 0: the slow one stands behind the free one. -/
theorem twinParked_clk (e : CoreKey) : (twinParked.getCore e).clk = 0 := by
  unfold State.getCore
  split
  · rfl
  · by_cases twin : twinKey = e
    · subst twin; rfl
    · simp [twinParked, aget, twin, Core.reset]

/-! ### What happens -/

/-- The tick in which the next core cycle of core k ends after an event. -/
def firstTick (o : Out State) (k : CoreKey) : Option Nat :=
  match o with
  | .next t => let u := t.select k; some (cycleEndAfter u.coreStep u.core.clock / 504)
  | _ => none

/-- Core 0 takes the clock step of the core that stands behind: the period in which tick 9 would begin for it is suppressed. -/
theorem firstTick_twinParked : firstTick (exec .gangStart twinParked) ⟨0, 0, 0⟩ = some 10 := by
  rw [exec_gangStart]
  decide +kernel

/-- Refutes O54: a keyed state may park two cores under one key. In `twinParked` every core that can be read has clock step 0, and no pace or
die a step, yet the gang with START 9 has its first core cycle in tick 10. -/
theorem not_gangsStartAndCoresAreFused : ¬ Obligations.GangsStartAndCoresAreFused := by
  rintro ⟨gangs, -⟩
  obtain ⟨-, -, -, starts⟩ := gangs twinParked soloGang soloShare (by decide) rfl rfl
  obtain ⟨t, run, -, placed⟩ := starts rfl (by decide) (by decide) (by decide) (by decide)
  obtain ⟨-, -, -, -, inTick⟩ := placed twinParked_keyed (by decide) soloShare (by decide) (0, 0) (by decide) 0 rfl
  have nine : firstTick (exec .gangStart twinParked) ⟨0, 0, 0⟩ = some 9 := by
    rw [run]
    exact congrArg some (inTick rfl rfl (fun _ => rfl) twinParked_clk)
  have ten := nine.symm.trans firstTick_twinParked
  exact absurd ten (by decide)

end Sys2Proof.Machine
end

section
/-! What events, stall requests and changes of single dies leave of the dies, of the ring and of memory (R136, R137, R415). -/

namespace Sys2Proof.Machine

/-! ### Events and stall requests -/

/-- Posting an event changes its buffer, or that of its die, and nothing else. -/
theorem State.post_cases (s : State) (n : Nat) (k : CoreKey) (w : List Word) :
    (∃ q, s.post n k w = { s with eventq := q }) ∨ ∃ l, s.post n k w = s.setDie { s.getDie k.dieKey with events := l } := by
  unfold State.post
  dsimp only
  split
  · exact .inl ⟨_, rfl⟩
  · split
    · exact .inr ⟨_, rfl⟩
    · exact .inl ⟨s.eventq, rfl⟩
/-- Of the state's fields it changes the event queue and the dies. -/
theorem State.post_frame (s : State) (n : Nat) (k : CoreKey) (w : List Word) : ∃ q ds, s.post n k w = { s with eventq := q, dies := ds } := by
  rcases s.post_cases n k w with ⟨q, e⟩ | ⟨l, e⟩
  · exact ⟨q, s.dies, e⟩
  · exact ⟨s.eventq, _, e⟩
@[simp] theorem State.post_ring (s : State) (n : Nat) (k : CoreKey) (w : List Word) : (s.post n k w).ring = s.ring := by
  obtain ⟨q, ds, e⟩ := s.post_frame n k w
  rw [e]
@[simp] theorem State.post_now (s : State) (n : Nat) (k : CoreKey) (w : List Word) : (s.post n k w).now = s.now := by
  obtain ⟨q, ds, e⟩ := s.post_frame n k w
  rw [e]
@[simp] theorem State.post_modules (s : State) (n : Nat) (k : CoreKey) (w : List Word) : (s.post n k w).modules = s.modules := by
  obtain ⟨q, ds, e⟩ := s.post_frame n k w
  rw [e]
@[simp] theorem State.post_bridge (s : State) (n : Nat) (k : CoreKey) (w : List Word) : (s.post n k w).bridge = s.bridge := by
  obtain ⟨q, ds, e⟩ := s.post_frame n k w
  rw [e]

/-- A die that requests a ring stall notes it as its own. -/
def Die.asked (d : Die) (ts : Nat) : Die := { d with ownStall := some ts, stallReq := d.stallReq ++ [ts] }
/-- Its request is announced to every die. -/
def State.announced (s : State) (k : DieKey) : State :=
  let ts := s.tick + (s.getDie k).stlead
  { s.setDie ((s.getDie k).asked ts) with ring := { s.ring with stalls := s.ring.stalls ++ [ts] } }
/-- A request is announced with an event; a die with one pending makes none. -/
theorem State.requestStall_cases (s : State) (k : DieKey) : ((s.getDie k).ownStall.isSome = true ∧ s.requestStall k = s)
    ∨ ((s.getDie k).ownStall = none ∧ ∃ w, s.requestStall k = (s.announced k).post 3 ⟨k.pkg, k.die, 0⟩ w) := by
  unfold State.requestStall
  cases h : (s.getDie k).ownStall with
  | some t => exact .inl ⟨rfl, by simp [h]⟩
  | none => exact .inr ⟨rfl, _, by simp only [h, Option.isSome_none, Bool.false_eq_true, if_false]; rfl⟩
@[simp] theorem State.requestStall_mem (s : State) (k : DieKey) : (s.requestStall k).mem = s.mem := by
  rcases s.requestStall_cases k with ⟨-, e⟩ | ⟨-, w, e⟩ <;> rw [e]
  exact State.post_mem _ _ _ _
@[simp] theorem State.requestStall_now (s : State) (k : DieKey) : (s.requestStall k).now = s.now := by
  rcases s.requestStall_cases k with ⟨-, e⟩ | ⟨-, w, e⟩ <;> rw [e]
  exact State.post_now _ _ _ _
/-- Of the ring a request changes the stalls announced alone. -/
theorem State.requestStall_ring (s : State) (k : DieKey) : ∃ l, (s.requestStall k).ring = { s.ring with stalls := l } := by
  rcases s.requestStall_cases k with ⟨-, e⟩ | ⟨-, w, e⟩ <;> rw [e]
  · exact ⟨_, rfl⟩
  · exact ⟨_, State.post_ring _ _ _ _⟩
@[simp] theorem State.checkSpace_mem (s : State) (k : DieKey) : (s.checkSpace k).mem = s.mem := by
  unfold State.checkSpace
  dsimp only
  split
  · exact s.requestStall_mem k
  · rfl

/-! ### What the dies keep -/

/-- t is keyed and has the dies of s, and every die reads through g in it as it does in s. -/
structure DiesKeep {β : Type} (g : Die → β) (s t : State) : Prop where
  keyed : t.Keyed
  getDie : ∀ j, g (t.getDie j) = g (s.getDie j)
  held : ∀ j, (aget s.dies j).isSome = true → (aget t.dies j).isSome = true

section
variable {β : Type} {g : Die → β} {s t : State}

theorem State.Keyed.diesKeep (h : s.Keyed) : DiesKeep g s s := ⟨h, fun _ => rfl, fun _ => id⟩
theorem DiesKeep.trans {u : State} (h : DiesKeep g s t) (h' : DiesKeep g t u) : DiesKeep g s u :=
  ⟨h'.keyed, fun j => (h'.getDie j).trans (h.getDie j), fun j m => h'.held j (h.held j m)⟩
theorem DiesKeep.ite {p : Prop} [Decidable p] {a b : State} (ha : DiesKeep g s a) (hb : DiesKeep g s b) : DiesKeep g s (if p then a else b) := by
  split
  · exact ha
  · exact hb

/-- A die under the key of another, with what g reads of it. -/
theorem DiesKeep.setDie (h : DiesKeep g s t) {k : DieKey} {d : Die} (key : d.key = (t.getDie k).key) (same : g d = g (t.getDie k)) :
    DiesKeep g s (t.setDie d) := by
  have at_ : d.key = k := key.trans (State.getDie_key h.keyed k)
  refine ⟨h.keyed.setDie d, fun j => ?_, fun j m => ?_⟩
  · rw [← h.getDie j, State.getDie_setDie]
    split
    · next e => rw [same, ← at_, e]
    · rfl
  · rw [State.setDie, aget_aput]
    split
    · rfl
    · exact h.held j m
/-- Whatever leaves the dies alone. -/
theorem DiesKeep.of_dies {u : State} (h : DiesKeep g s t) (keyed : u.Keyed) (dies : u.dies = t.dies) : DiesKeep g s u := by
  refine ⟨keyed, fun j => ?_, fun j m => ?_⟩
  · rw [← h.getDie j, State.getDie, dies]
    rfl
  · rw [dies]
    exact h.held j m
theorem DiesKeep.post (h : DiesKeep g s t) (events : ∀ d l, g { d with events := l } = g d) (n : Nat) (k : CoreKey) (w : List Word) :
    DiesKeep g s (t.post n k w) := by
  rcases t.post_cases n k w with ⟨q, e⟩ | ⟨l, e⟩ <;> rw [e]
  · exact h.of_dies h.keyed rfl
  · exact h.setDie rfl (events _ l)
theorem DiesKeep.requestStall (h : DiesKeep g s t) (asked : ∀ d ts, g (d.asked ts) = g d) (events : ∀ d l, g { d with events := l } = g d)
    (k : DieKey) : DiesKeep g s (t.requestStall k) := by
  rcases t.requestStall_cases k with ⟨-, e⟩ | ⟨-, w, e⟩ <;> rw [e]
  · exact h
  · have noted : DiesKeep g s (t.setDie ((t.getDie k).asked (t.tick + (t.getDie k).stlead))) := h.setDie rfl (asked _ _)
    have announced : DiesKeep g s (t.announced k) := noted.of_dies noted.keyed rfl
    exact announced.post events _ _ _
theorem DiesKeep.checkSpace (h : DiesKeep g s t) (asked : ∀ d ts, g (d.asked ts) = g d) (events : ∀ d l, g { d with events := l } = g d)
    (k : DieKey) : DiesKeep g s (t.checkSpace k) := .ite (h.requestStall asked events k) h
theorem DiesKeep.foldl {α : Type} {f : State → α → State} (h : DiesKeep g s t) (hf : ∀ u a, u.Keyed → DiesKeep g u (f u a)) (l : List α) :
    DiesKeep g s (l.foldl f t) :=
  List.foldlRecOn (motive := DiesKeep g s) l f h (fun u hu a _ => hu.trans (hf u a hu.keyed))
theorem DiesKeep.updRun (h : DiesKeep g s t) (k : CoreKey) (n : Nat) (f : QRec → QRec) : DiesKeep g s (t.updRun k n f) :=
  h.of_dies (h.keyed.updRun k n f) (State.setCore_dies _ _)
/-- A change of every die. -/
theorem aget_map_snd {κ α : Type} [DecidableEq κ] (l : List (κ × α)) (f : α → α) (k : κ) :
    aget (l.map (fun e => (e.1, f e.2))) k = (aget l k).map f := by
  simp only [aget, List.find?_map, Option.map_map]
  rfl
theorem State.getDie_mapDies (s : State) (f : Die → Die) (j : DieKey) :
    State.getDie { s with dies := s.dies.map (fun e => (e.1, f e.2)) } j = ((aget s.dies j).map f).getD (Die.reset j) := by
  simp only [State.getDie, aget_map_snd]
theorem DiesKeep.mapDies (h : DiesKeep g s t) {f : Die → Die} (key : ∀ d, (f d).key = d.key) (same : ∀ d, g (f d) = g d) :
    DiesKeep g s { t with dies := t.dies.map (fun e => (e.1, f e.2)) } := by
  refine ⟨h.keyed.mapDies (fun e => key e.2), fun j => ?_, fun j m => ?_⟩
  · rw [← h.getDie j, State.getDie_mapDies, State.getDie]
    cases aget t.dies j with
    | none => rfl
    | some d => exact same d
  · simpa only [aget_map_snd, Option.isSome_map] using h.held j m
end

/-- A die with no stall of its own pending that requests one has it among those due. -/
theorem State.stallReq_requestStall {s : State} (h : s.Keyed) {k : DieKey} (free : (s.getDie k).ownStall = none) :
    ((s.requestStall k).getDie k).stallReq = (s.getDie k).stallReq ++ [s.tick + (s.getDie k).stlead] := by
  rcases s.requestStall_cases k with ⟨pending, -⟩ | ⟨-, w, e⟩
  · simp [free] at pending
  · have announced : (s.announced k).Keyed := h.setDie _
    have posted := announced.diesKeep.post (g := Die.stallReq) (fun _ _ => rfl) 3 ⟨k.pkg, k.die, 0⟩ w
    rw [e, posted.getDie]
    exact congrArg Die.stallReq (State.getDie_setDie_of (s := s) (d := (s.getDie k).asked _) (State.getDie_key h k))

end Sys2Proof.Machine
end

section
/-! Track ports (R120 to R126, R140, R141): what a port takes from flits and requests, where a payload stands, what it sends. -/

namespace Sys2Proof.Machine

theorem exec_flitReceive (up : Bool) (f : Flit) (s : State) : exec (.flitReceive up f) s = execFlitReceive up f s := rfl
theorem exec_flitReplay (up : Bool) (q : BitVec 32) (s : State) : exec (.flitReplay up q) s = execFlitReplay up q s := rfl
theorem exec_latencyProbe (up : Bool) (s : State) : exec (.latencyProbe up) s = execLatencyProbe up s := rfl
theorem exec_probeEcho (up : Bool) (s : State) : exec (.probeEcho up) s = execProbeEcho up s := rfl
theorem exec_linkFailResends (up : Bool) (s : State) : exec (.linkFailResends up) s = execLinkFailResends up s := rfl
theorem exec_linkFailSilence (up : Bool) (s : State) : exec (.linkFailSilence up) s = execLinkFailSilence up s := rfl
theorem exec_flitSend (up : Bool) (s : State) : exec (.flitSend up) s = execFlitSend up s := rfl
theorem exec_shardDeparture (s : State) : exec .shardDeparture s = execShardDeparture s := rfl

/-! ### Ports -/

@[simp] theorem Die.port_setPort (d : Die) (up : Bool) (p : Port) : (d.setPort up p).port up = p := by cases up <;> rfl
@[simp] theorem Die.key_setPort (d : Die) (up : Bool) (p : Port) : (d.setPort up p).key = d.key := by cases up <;> rfl
@[simp] theorem Die.port_count (d : Die) (up u : Bool) (n : Fin 8) : (d.count up n).port u = d.port u := by cases up <;> rfl
@[simp] theorem Die.key_count (d : Die) (up : Bool) (n : Fin 8) : (d.count up n).key = d.key := by cases up <;> rfl

/-- A die whose port was put back reads so. -/
theorem State.port_setDie_setPort {s : State} (h : s.Keyed) (k : DieKey) (up : Bool) (p : Port) :
    ((s.setDie ((s.getDie k).setPort up p)).getDie k).port up = p := by
  rw [State.getDie_setDie_of ((Die.key_setPort _ _ _).trans (State.getDie_key h k)), Die.port_setPort]

/-! ### Flits received (R122, R126, R128) -/

/-- How far a port has received: the last sequence number, and when. -/
def Die.received (up : Bool) (d : Die) : BitVec 32 × Nat := ((d.port up).rxSeq, (d.port up).lastRx)
theorem Die.received_of_ports {d e : Die} (up : Bool) (u : e.up = d.up) (w : e.down = d.down) : e.received up = d.received up := by
  simp only [Die.received, Die.port, u, w]

theorem Die.received_owners (d : Die) (up : Bool) (l : List (BitVec 32 × CoreKey × Nat)) :
    Die.received up { d with up := { d.up with owners := l } } = d.received up := by cases up <;> rfl

/-- The die and the shard that a shard flit goes to: one that is still arriving, or a new one at the head. -/
def State.shardOf (s : State) (d : Die) (f : Flit) : Die × Shard :=
  match d.shards.find? (fun x => x.tag == f.tag && !x.complete) with
  | some x => (d, x)
  | none => s.newShard d f.tag f.shbytes.toNat f.late.toNat f.reinj
/-- A die that has taken a flit of a shard: the head moves on, and the shard holds the flit. -/
def Die.takeFlit (d : Die) (x y : Shard) : Die :=
  { d with head := max d.head (if y.complete then y.base + y.footprint else y.base + 480 * y.got.length)
           shards := d.shards.map (fun z => if z.id = x.id then y else z), lastRecv := if y.complete then y.tag else d.lastRecv }
/-- The bytes of a flit's payload with their places in the carousel (R128). -/
def payloadAt (f : Flit) (x : Shard) (size : Nat) : List (Nat × Byte) :=
  (f.body.take (min f.len.toNat 480)).zipIdx.map (fun e => (x.pa size (f.offset.toNat + e.2), e.1))
/-- A die with a carousel takes a shard flit into it. -/
def State.takeShard (s : State) (k : DieKey) (f : Flit) : State :=
  let a := s.shardOf (s.getDie k) f
  let y := a.2.take (f.offset.toNat / 480)
  ((s.setDie (a.1.takeFlit a.2 y)).perform (payloadAt f y a.1.size)).checkSpace k

/-- What becomes of a shard flit: passed on, dropped on a dead die, passed through without a carousel, or held. -/
theorem receiveShard_eq (k : DieKey) (f : Flit) (s : State) : receiveShard k f s =
    (let d := s.getDie k
     if s.carried k then s.setDie { d with through := d.through ++ [(s.pacedNow + 4096, { f with replay := false })] }
     else if d.upsrc = 3 || s.ring.failedDies.contains k then s
     else if !d.enabled then s.setDie { d with through := d.through ++ [(0, { f with replay := false })] }
     else s.takeShard k f) := rfl

theorem State.shardOf_frame (s : State) (d : Die) (f : Flit) : (s.shardOf d f).1.key = d.key ∧ (s.shardOf d f).1.up = d.up
    ∧ (s.shardOf d f).1.down = d.down ∧ (s.shardOf d f).1.carcfg = d.carcfg := by
  unfold State.shardOf
  split <;> exact ⟨rfl, rfl, rfl, rfl⟩

section
variable {s t : State} {up : Bool}

theorem DiesKeep.takeShard (h : DiesKeep (Die.received up) s t) (k : DieKey) (f : Flit) : DiesKeep (Die.received up) s (t.takeShard k f) := by
  obtain ⟨key, u, w, -⟩ := t.shardOf_frame (t.getDie k) f
  have held := h.setDie (d := (t.shardOf (t.getDie k) f).1.takeFlit (t.shardOf (t.getDie k) f).2
    ((t.shardOf (t.getDie k) f).2.take (f.offset.toNat / 480))) key (Die.received_of_ports up u w)
  refine DiesKeep.checkSpace ?_ (fun _ _ => by rfl) (fun _ _ => by rfl) k
  exact held.of_dies held.keyed rfl
theorem DiesKeep.receiveShard (h : DiesKeep (Die.received up) s t) (k : DieKey) (f : Flit) :
    DiesKeep (Die.received up) s (receiveShard k f t) := by
  have passes : ∀ l, DiesKeep (Die.received up) s (t.setDie { t.getDie k with through := l }) := fun l => h.setDie rfl (by rfl)
  rw [receiveShard_eq]
  exact .ite (passes _) (.ite h (.ite (passes _) (h.takeShard k f)))
theorem DiesKeep.endXsend (h : DiesKeep (Die.received up) s t) (k : DieKey) (seq : BitVec 32) :
    DiesKeep (Die.received up) s (t.endXsend k seq) := by
  unfold State.endXsend
  dsimp only
  split
  · refine DiesKeep.updRun ?_ _ _ _
    exact h.setDie (k := k) rfl (Die.received_owners _ up _)
  · exact h
theorem DiesKeep.receiveData (h : DiesKeep (Die.received up) s t) (k : DieKey) (f : Flit) :
    DiesKeep (Die.received up) s (receiveData k f t) := by
  unfold Machine.receiveData
  extract_lets pa bs u
  have written : DiesKeep (Die.received up) s u := by
    have keyed : u.Keyed := State.Keyed.write (by split; exacts [h.keyed.veil _ _ _, h.keyed]) _ _
    refine h.of_dies keyed ?_
    change (State.write _ pa bs).dies = _
    rw [State.write, State.perform_dies]
    split
    · unfold State.veil
      split
      · dsimp only; split <;> rfl
      · rfl
    · rfl
  split
  · split
    · exact written.endXsend _ _
    · exact written
  · exact written
end

/-- A die whose port has accepted a flit. -/
def Die.accept (d : Die) (up : Bool) (f : Flit) (link : Nat) : Die := d.setPort up { d.port up with rxSeq := f.seq, lastRx := link }
theorem Die.received_accept (d : Die) (up : Bool) (f : Flit) (link : Nat) : (d.accept up f link).received up = (f.seq, link) := by
  simp only [Die.received, Die.accept, Die.port_setPort]
@[simp] theorem Die.key_accept (d : Die) (up : Bool) (f : Flit) (link : Nat) : (d.accept up f link).key = d.key := Die.key_setPort _ _ _
/-- A HOLE flit changes where the hole stands alone. -/
theorem Die.takeHole_frame (d : Die) (t : Nat) : ∃ a b, d.takeHole t = { d with holeFrom := a, holeAt := b } := by
  unfold Die.takeHole
  split
  · split
    · exact ⟨_, _, rfl⟩
    · exact ⟨_, _, rfl⟩
  · exact ⟨_, _, rfl⟩

/-- Counting a replay changes RTRK alone. -/
theorem Die.countReplay_frame (d : Die) : ∃ n, d.countReplay = { d with rtrk := n } := ⟨_, rfl⟩

/-- What an accepted flit does on the die that accepts it, sort by sort. -/
theorem acceptFlit_eq (k : DieKey) (up : Bool) (f : Flit) (s : State) : acceptFlit k up f s =
    (let d := (s.getDie k).accept up f s.linkCycle
     let t := s.setDie d
     let code := (f.body.getD 0 0).toNat
     if f.ctrl then
       if 1 ≤ code ∧ code ≤ 3 then
         t.setDie (d.setPort up { d.port up with ctrl := (d.port up).ctrl ++ [(code, BitVec.ofNat 32 (ofBytes ((f.body.drop 8).take 4)))] })
       else t.setDie d.countReplay
     else if f.idle then t
     else if f.hole then (if up then t.setDie (d.takeHole t.pacedNow) else t)
     else if f.isShard then (if up then receiveShard k f t else t)
     else if up then t else receiveData k f t) := rfl

/-- Nothing that an accepted flit does moves the port's sequence number. -/
theorem acceptFlit_received {s : State} (h : s.Keyed) (k : DieKey) (up : Bool) (f : Flit) :
    ((acceptFlit k up f s).getDie k).received up = (f.seq, s.linkCycle) := by
  rw [acceptFlit_eq]
  extract_lets d t code
  clear_value code
  have key : d.key = k := (Die.key_accept _ _ _ _).trans (State.getDie_key h k)
  have keyed : t.Keyed := h.setDie d
  have die : t.getDie k = d := State.getDie_setDie_of key
  have keep : DiesKeep (Die.received up) t t := keyed.diesKeep
  have put : ∀ e : Die, e.key = d.key → e.received up = d.received up → DiesKeep (Die.received up) t (t.setDie e) :=
    fun e key same => keep.setDie (k := k) (by rw [die, key]) (by rw [die, same])
  have control : ∀ l, DiesKeep (Die.received up) t (t.setDie (d.setPort up { d.port up with ctrl := l })) := fun l =>
    put _ (Die.key_setPort _ _ _) (by simp only [Die.received, Die.port_setPort])
  have hole : DiesKeep (Die.received up) t (t.setDie (d.takeHole t.pacedNow)) := by
    obtain ⟨a, b, e⟩ := d.takeHole_frame t.pacedNow
    rw [e]
    exact put _ rfl (Die.received_of_ports up rfl rfl)
  have replay : DiesKeep (Die.received up) t (t.setDie d.countReplay) := by
    obtain ⟨n, e⟩ := d.countReplay_frame
    rw [e]
    exact put _ rfl (Die.received_of_ports up rfl rfl)
  refine (DiesKeep.getDie (s := t) ?_ k).trans (by rw [die]; exact Die.received_accept _ _ _ _)
  exact .ite (.ite (control _) replay) (.ite keep (.ite (.ite hole keep) (.ite (.ite (keep.receiveShard k f) keep)
    (.ite keep (keep.receiveData k f)))))

/-- A flit with a good CRC and the next number is accepted. -/
theorem exec_flitReceive_accepts {s : State} {up : Bool} {f : Flit} (crc : f.crc = f.goodCrc)
    (next : f.seq = ((s.getDie s.place.core.dieKey).port up).rxSeq + 1) :
    exec (.flitReceive up f) s = .next (acceptFlit s.place.core.dieKey up f s) := by
  rw [exec_flitReceive, execFlitReceive]
  simp only [← crc, ← next, beq_self_eq_true, Bool.and_self, if_true]
  rfl
/-- Any other is dropped, and its replay asked for. -/
theorem exec_flitReceive_drops {s : State} {up : Bool} {f : Flit}
    (bad : ¬ (f.crc = f.goodCrc ∧ f.seq = ((s.getDie s.place.core.dieKey).port up).rxSeq + 1)) :
    let d := s.getDie s.place.core.dieKey
    exec (.flitReceive up f) s = .next (s.setDie (d.setPort up { d.port up with
      queue := (d.port up).queue ++ [(Flit.ctrlOne 1 ((d.port up).rxSeq + 1), none)] })) := by
  rw [exec_flitReceive, execFlitReceive]
  exact if_neg (by simpa only [Bool.and_eq_true, beq_iff_eq] using bad)

/-! ### Payloads (R122, R128) -/

/-- A flit that a shard takes leaves where its bytes stand. -/
theorem Shard.pa_take (x : Shard) (i size n : Nat) : (x.take i).pa size n = x.pa size n := by
  unfold Shard.take
  split <;> rfl
/-- Bytes of a shard less than the carousel's size apart stand apart. -/
theorem Shard.pa_inj {x : Shard} {size o i j n : Nat} (small : n ≤ size) (hi : i < n) (hj : j < n)
    (e : x.pa size (o + i) = x.pa size (o + j)) : i = j := by
  have same : (x.base + (o + i)) % size = (x.base + (o + j)) % size := by
    simpa only [Shard.pa, Nat.max_eq_left (show 1 ≤ size by omega), Nat.add_left_cancel_iff] using e
  rw [← Nat.add_assoc, ← Nat.add_assoc] at same
  exact Nat.ModEq.eq_of_lt_of_lt (Nat.ModEq.add_left_cancel' _ same) (by omega) (by omega)

theorem length_body (f : Flit) : f.body.length = 480 := by
  rw [Flit.body, List.length_take, List.length_append, List.length_replicate]
  omega
/-- The bytes of a payload with their places, one by one. -/
theorem mem_payloadAt {f : Flit} {x : Shard} {size : Nat} {e : Nat × Byte} : e ∈ payloadAt f x size
    ↔ ∃ j < min f.len.toNat 480, e = (x.pa size (f.offset.toNat + j), f.body.getD j 0) := by
  have long := length_body f
  simp only [payloadAt, List.mem_map, Prod.exists, List.mem_zipIdx_iff_getElem?, List.getElem?_take]
  constructor
  · rintro ⟨b, j, h, rfl⟩
    split at h
    · next lt => exact ⟨j, lt, by rw [List.getD_eq_getElem?_getD, h]; rfl⟩
    · exact absurd h (by simp)
  · rintro ⟨j, lt, rfl⟩
    have inside : j < f.body.length := by omega
    exact ⟨f.body.getD j 0, j, by rw [if_pos lt, List.getD_eq_getElem?_getD, List.getElem?_eq_getElem inside]; rfl, rfl⟩

/-- Every byte of a payload that fits the carousel reads as it was sent, and no other byte changes. -/
theorem State.byte_perform_payload {s : State} (h : s.Sound) (f : Flit) (x : Shard) {size : Nat} (fits : 480 ≤ size) :
    (∀ j < min f.len.toNat 480, (s.perform (payloadAt f x size)).byte (x.pa size (f.offset.toNat + j)) = f.body.getD j 0)
      ∧ ∀ a, (∀ j < min f.len.toNat 480, a ≠ x.pa size (f.offset.toNat + j)) → (s.perform (payloadAt f x size)).byte a = s.byte a := by
  refine ⟨fun j lt => ?_, fun a other => State.byte_perform_of_not_mem fun e m => ?_⟩
  · refine sget_putBytes_of_mem h (e := (x.pa size (f.offset.toNat + j), f.body.getD j 0)) (mem_payloadAt.2 ⟨j, lt, rfl⟩) fun e m same => ?_
    obtain ⟨i, lt', rfl⟩ := mem_payloadAt.1 m
    rw [Shard.pa_inj (by omega) lt' lt same]
  · obtain ⟨j, lt, rfl⟩ := mem_payloadAt.1 m
    exact (other j lt).symm

/-- A live die with a carousel takes a shard flit into it. -/
theorem receiveShard_takes {k : DieKey} {f : Flit} {s : State} (alive : k ∉ s.ring.failedDies) (routed : (s.getDie k).upsrc ≠ 3)
    (enabled : (s.getDie k).enabled = true) : receiveShard k f s = s.takeShard k f := by
  have listed : s.ring.failedDies.contains k = false := by simpa using alive
  have carried : s.carried k = false := by rw [State.carried, listed, Bool.false_and]
  rw [receiveShard_eq]
  simp [carried, routed, alive, enabled]

/-- Its port's acceptance of the flit does not move the shard that it goes to. -/
theorem State.shardOf_accept {s : State} {d : Die} (held : s.getDie d.key = d) (f : Flit) :
    ((s.setDie (d.accept true f s.linkCycle)).shardOf (d.accept true f s.linkCycle) f).2 = (s.shardOf d f).2 := by
  have region : (s.setDie (d.accept true f s.linkCycle)).diePA (d.accept true f s.linkCycle) d.carva.toNat = s.diePA d d.carva.toNat :=
    State.diePA_congr (State.setDie_mem _ _) (State.pairs_setDie (by rw [Die.key_accept, held]; rfl)) (Die.key_accept _ _ _ _) rfl _
  have same : (d.accept true f s.linkCycle).shards = d.shards := rfl
  simp only [State.shardOf, same]
  split
  · rfl
  · simp only [State.newShard]
    rw [← region]
    rfl

/-- The payload of an accepted shard flit stands at the shard's base plus OFFSET; no other byte changes. -/
theorem State.byte_acceptFlit {s : State} (h : s.Keyed) (sound : s.Sound) {k : DieKey} {f : Flit} (shard : f.isShard = true) (ctrl : f.ctrl = false)
    (idle_ : f.idle = false) (hole : f.hole = false) (alive : k ∉ s.ring.failedDies) (routed : (s.getDie k).upsrc ≠ 3)
    (enabled : (s.getDie k).enabled = true) (room : 480 ≤ (s.getDie k).size) :
    let x := (s.shardOf (s.getDie k) f).2
    let size := (s.getDie k).size
    (∀ j < min f.len.toNat 480, (acceptFlit k true f s).byte (x.pa size (f.offset.toNat + j)) = f.body.getD j 0)
      ∧ ∀ a, (∀ j < min f.len.toNat 480, a ≠ x.pa size (f.offset.toNat + j)) → (acceptFlit k true f s).byte a = s.byte a := by
  intro x size
  let e := (s.getDie k).accept true f s.linkCycle
  have key : (s.getDie k).key = k := State.getDie_key h k
  have die : (s.setDie e).getDie k = e := State.getDie_setDie_of key
  have accepts : acceptFlit k true f s = (s.setDie e).takeShard k f := by
    rw [acceptFlit_eq]
    simp only [ctrl, idle_, hole, shard, Bool.false_eq_true, if_false, if_true]
    exact receiveShard_takes (s := s.setDie e) alive (by rw [die]; exact routed) (by rw [die]; exact enabled)
  have at_ : ((s.setDie e).shardOf e f).2 = x := State.shardOf_accept (by rw [key]) f
  have size_ : ((s.setDie e).shardOf e f).1.size = size := by
    obtain ⟨-, -, -, carcfg⟩ := (s.setDie e).shardOf_frame e f
    simp only [Die.size, carcfg]
    rfl
  let y := x.take (f.offset.toNat / 480)
  have mem : (acceptFlit k true f s).mem = (s.perform (payloadAt f y size)).mem := by
    rw [accepts, State.takeShard, die]
    simp only [at_, size_]
    exact State.checkSpace_mem _ _
  have places : ∀ n, y.pa size n = x.pa size n := x.pa_take _ size
  obtain ⟨written, kept⟩ := State.byte_perform_payload sound f y room
  refine ⟨fun j lt => ?_, fun a other => ?_⟩
  · rw [State.byte_congr mem, ← places, written j lt]
  · rw [State.byte_congr mem, kept a (fun j lt => by rw [places]; exact other j lt)]

end Sys2Proof.Machine
end

section
/-! Track ports (R122 to R126, R140, R141): requests, probes and failures, and what a port sends in its next link cycle. -/

namespace Sys2Proof.Machine

/-! ### Requests, probes and echoes (R122, R123, R125) -/

section
variable {s : State} {up : Bool}

/-- A request that a port has received is found by what singles it out. -/
theorem find_request {l : List (Nat × BitVec 32)} {q : Nat × BitVec 32 → Bool} (h : ∃ e ∈ l, q e = true) : ∃ e, l.find? q = some e :=
  Option.isSome_iff_exists.1 (List.find?_isSome.2 h)

/-- A replay request: every flit from the one named on, of those kept, is sent again. -/
theorem exec_flitReplay_sends {q : BitVec 32} (asked : (1, q) ∈ ((s.getDie s.place.core.dieKey).port up).ctrl) :
    let d := s.getDie s.place.core.dieKey
    ∃ c t, exec (.flitReplay up q) s = .next (s.setDie (d.setPort up { d.port up with
      ctrl := c, resend := ((d.port up).sent.filter (fun f => decide ((f.seq - q).toNat < 2 ^ 31))).map (·.seq), tries := t })) := by
  obtain ⟨e, found⟩ := find_request (q := fun e => e == (1, q)) ⟨_, asked, beq_self_eq_true _⟩
  exact ⟨_, _, (exec_flitReplay up q s).trans (takeCtrl_some found)⟩
/-- A probe is answered with an echo. -/
theorem exec_latencyProbe_answers (asked : ∃ e ∈ ((s.getDie s.place.core.dieKey).port up).ctrl, e.1 = 2) :
    let d := s.getDie s.place.core.dieKey
    ∃ c, exec (.latencyProbe up) s = .next (s.setDie (d.setPort up { d.port up with
      ctrl := c, queue := (d.port up).queue ++ [(Flit.ctrlOne 3 0, none)] })) := by
  obtain ⟨e, m, code⟩ := asked
  obtain ⟨e, found⟩ := find_request (q := fun e => e.1 == 2) ⟨e, m, beq_iff_eq.2 code⟩
  exact ⟨_, (exec_latencyProbe up s).trans (takeCtrl_some found)⟩
/-- An echo ends the probe under way, if there is one. -/
theorem exec_probeEcho_ends (asked : ∃ e ∈ ((s.getDie s.place.core.dieKey).port up).ctrl, e.1 = 3) :
    let d := s.getDie s.place.core.dieKey
    ∃ c, exec (.probeEcho up) s = .next (match (d.port up).probeAt with
      | some t => s.measured d up { d.port up with ctrl := c } t
      | none => s.setDie (d.setPort up { d.port up with ctrl := c })) := by
  obtain ⟨e, m, code⟩ := asked
  obtain ⟨e, found⟩ := find_request (q := fun e => e.1 == 3) ⟨e, m, beq_iff_eq.2 code⟩
  exact ⟨_, (exec_probeEcho up s).trans (takeCtrl_some found)⟩
end

/-- One die takes its dwell. -/
def State.setDwell (c : Nat) (s : State) (e : DieKey × BitVec 32) : State :=
  s.setDie { s.getDie e.1 with rpace := putBits (s.getDie e.1).rpace 31 0 e.2.toNat, dwellWas := some (c, (s.getDie e.1).dwell) }
theorem State.setDwells_mem (s : State) (c : Nat) (l : List (DieKey × BitVec 32)) : (s.setDwells c l).mem = s.mem :=
  foldl_keeps (f := State.setDwell c) State.mem (fun _ _ => rfl) l s
/-- A die that is given one dwell takes it. -/
theorem State.dwell_setDwells {s : State} (h : s.Keyed) (c : Nat) {l : List (DieKey × BitVec 32)} {k : DieKey} {v : BitVec 32} (m : (k, v) ∈ l)
    (one : ∀ e ∈ l, e.1 = k → e.2 = v) : ((s.setDwells c l).getDie k).dwell = v.toNat := by
  induction l using List.reverseRecOn with
  | nil => simp at m
  | append_singleton l e ih =>
    have before : (s.setDwells c l).Keyed := h.setDwells c l
    have last : s.setDwells c (l ++ [e]) = State.setDwell c (s.setDwells c l) e := List.foldl_append
    have key : (State.getDie (s.setDwells c l) e.1).key = e.1 := State.getDie_key before e.1
    rw [last, State.setDwell, State.getDie_setDie]
    split
    · next same =>
      have value : e.2 = v := one e (by simp) (key.symm.trans same)
      have small := v.isLt
      rw [value]
      exact (bits_putBits_low _ _).trans (Nat.mod_eq_of_lt small)
    · next other =>
      have rest : (k, v) ∈ l := by
        rcases List.mem_append.1 m with m | m
        · exact m
        · exact absurd (by rw [key, ← List.mem_singleton.1 m]) other
      exact ih rest (fun e me => one e (List.mem_append_left _ me))
theorem DiesKeep.setDwells {β : Type} {g : Die → β} {s t : State} (h : DiesKeep g s t)
    (dwells : ∀ d r w, g { d with rpace := r, dwellWas := w } = g d)
    (c : Nat) (l : List (DieKey × BitVec 32)) : DiesKeep g s (t.setDwells c l) :=
  h.foldl (fun _ e hu => hu.diesKeep.setDie (k := e.1) rfl (dwells _ _ _)) l

/-- The dwells of a whole ring: one for each die of the pod (R125). -/
theorem State.mem_dwellsFor {s : State} {e : DieKey × BitVec 32} : e ∈ s.dwellsFor [] [] ↔ e.1.pkg < s.modules ∧ e.1.die < 8
    ∧ let first := s.getDie ⟨s.bridge, 0⟩
      let rot := first.seg * (first.fps + first.svc)
      e.2 = BitVec.ofNat 32 (rot / s.modules - (s.getDie e.1).down.latency + (if e.1.pkg = s.bridge then rot % s.modules else 0)) := by
  have rest : ∀ rot n : Nat, rot - n * (rot / n) = rot % n := fun rot n => (Nat.mod_eq_sub rot n).symm
  simp only [State.dwellsFor, List.foldl_nil, List.length_nil, Nat.sub_zero, List.contains_nil, Bool.not_false, Bool.and_self, List.filter_true,
    rest]
  obtain ⟨⟨p, d⟩, v⟩ := e
  split
  · next none_ => simp [none_]
  · simp only [List.mem_flatMap, List.mem_map, List.mem_range, Prod.mk.injEq, DieKey.mk.injEq]
    constructor
    · rintro ⟨p', hp, d', hd, ⟨rfl, rfl⟩, rfl⟩
      exact ⟨hp, hd, rfl⟩
    · rintro ⟨hp, hd, value⟩
      exact ⟨p, hp, d, hd, ⟨rfl, rfl⟩, value.symm⟩

/-- What a port knows of its probe and its link. -/
def Die.probed (up : Bool) (d : Die) : Option Nat × Nat := ((d.port up).probeAt, (d.port up).latency)

/-- The die whose port has timed a hop. -/
def Die.timed (d : Die) (up : Bool) (p : Port) (n : Nat) : Die := d.setPort up { p with probeAt := none, latency := n }

section
variable {s : State} (h : s.Keyed) (k : DieKey) (p : Port) (t : Nat)
include h

/-- A measurement ends the probe, gives the latency and writes no memory. -/
theorem State.measured_port (up : Bool) : ((s.measured (s.getDie k) up p t).getDie k).probed up = (none, (s.linkCycle - t) / 2)
    ∧ (s.measured (s.getDie k) up p t).mem = s.mem := by
  have key : ((s.getDie k).timed up p ((s.linkCycle - t) / 2)).key = k := (Die.key_setPort _ _ _).trans (State.getDie_key h k)
  have keep : DiesKeep (Die.probed up) (s.setDie ((s.getDie k).timed up p ((s.linkCycle - t) / 2))) (s.measured (s.getDie k) up p t) :=
    .ite (h.setDie _).diesKeep ((h.setDie _).diesKeep.setDwells (fun _ _ _ => by cases up <;> rfl) _ _)
  refine ⟨?_, ?_⟩
  · rw [keep.getDie, State.getDie_setDie_of key]
    simp only [Die.probed, Die.timed, Die.port_setPort]
  · unfold State.measured
    dsimp only
    split
    · rfl
    · exact State.setDwells_mem _ _ _
/-- The latency of the hop to the next module gives the die its dwell, on a ring without failures (R125). -/
theorem State.measured_dwell (whole : s.ring.failedPkgs = []) (live : s.ring.failedDies = []) (pkg : k.pkg < s.modules) (die : k.die < 8) :
    let first := s.getDie ⟨s.bridge, 0⟩
    let rot := first.seg * (first.fps + first.svc)
    ((s.measured (s.getDie k) false p t).getDie k).dwell
      = (rot / s.modules - (s.linkCycle - t) / 2 + (if k.pkg = s.bridge then rot % s.modules else 0)) % 2 ^ 32 := by
  intro first rot
  let e := (s.getDie k).timed false p ((s.linkCycle - t) / 2)
  let u := s.setDie e
  have keyed : u.Keyed := h.setDie _
  have key : (s.getDie k).key = k := State.getDie_key h k
  have here : u.getDie k = e := State.getDie_setDie_of key
  have slots : DiesKeep (fun d => (d.seg, d.fps, d.svc)) s u := h.diesKeep.setDie (k := k) rfl rfl
  have same := slots.getDie ⟨s.bridge, 0⟩
  simp only [Prod.mk.injEq] at same
  obtain ⟨seg, fps, svc⟩ := same
  have measured : s.measured (s.getDie k) false p t = u.setDwells u.pacedNow ((u.dwellsFor [] []).filter (fun x => x.1 == k)) := by
    have none_ : u.transits = [] := by
      rw [State.transits, show u.ring.failedDies = [] from live]
      rfl
    have e : s.measured (s.getDie k) false p t
        = u.setDwells u.pacedNow ((u.dwellsFor s.ring.failedPkgs u.transits).filter (fun x => x.1 == (s.getDie k).key)) := rfl
    rw [e, whole, none_, key]
  have mem : ∀ v, (k, v) ∈ (u.dwellsFor [] []).filter (fun x => x.1 == k) ↔ v = BitVec.ofNat 32 (rot / s.modules - (s.linkCycle - t) / 2
      + (if k.pkg = s.bridge then rot % s.modules else 0)) := by
    intro v
    simp only [List.mem_filter, beq_self_eq_true, and_true, State.mem_dwellsFor, here]
    simp only [show u.bridge = s.bridge from rfl, show u.modules = s.modules from rfl, seg, fps, svc]
    exact ⟨fun ⟨_, _, value⟩ => value, fun value => ⟨pkg, die, value⟩⟩
  rw [measured]
  refine (State.dwell_setDwells keyed _ ((mem _).2 rfl) (fun x m at_ => ?_)).trans (BitVec.toNat_ofNat _ _)
  subst at_
  exact (mem x.2).1 m
end

/-! ### Failed links (R122, R141) -/

/-- A port that declares its link failed has LFAIL set; its die requests a stall, unless one of its own is pending. -/
theorem State.failLink_spec {s : State} (h : s.Keyed) (k : DieKey) (up : Bool) :
    let d := s.getDie k
    (((s.failLink k up).getDie k).port up).failed = true
      ∧ (d.ownStall = none → s.tick + d.stlead ∈ ((s.failLink k up).getDie k).stallReq) := by
  intro d
  let e : Die := { (d.setPort up { d.port up with failed := true }) with rtrk := d.rtrk ||| 1 }
  have key : e.key = k := (Die.key_setPort _ _ _).trans (State.getDie_key h k)
  have here : (s.setDie e).getDie k = e := State.getDie_setDie_of key
  have fails : s.failLink k up = (s.setDie e).requestStall k := by cases up <;> rfl
  rw [fails]
  refine ⟨?_, fun free => ?_⟩
  · have keep := (h.setDie e).diesKeep.requestStall (g := fun d => (d.port up).failed) (fun _ _ => by cases up <;> rfl)
      (fun _ _ => by cases up <;> rfl) k
    rw [keep.getDie k, here]
    cases up <;> rfl
  · have free' : ((s.setDie e).getDie k).ownStall = none := by
      rw [here]
      cases up <;> exact free
    have lead : e.stlead = d.stlead := by cases up <;> rfl
    rw [State.stallReq_requestStall (h.setDie e) free', here, lead]
    exact List.mem_append_right _ (List.mem_singleton_self _)
theorem exec_linkFailResends_fails {s : State} {up : Bool} (works : ((s.getDie s.place.core.dieKey).port up).failed = false)
    (tries : ∃ e ∈ ((s.getDie s.place.core.dieKey).port up).tries, 16 ≤ e.2) :
    exec (.linkFailResends up) s = .next (s.failLink s.place.core.dieKey up) := by
  rw [exec_linkFailResends, execLinkFailResends]
  refine if_pos ?_
  obtain ⟨e, m, sixteen⟩ := tries
  simp only [works, Bool.not_false, Bool.true_and, List.any_eq_true, decide_eq_true_eq]
  exact ⟨e, m, sixteen⟩
theorem exec_linkFailSilence_fails {s : State} {up : Bool} (works : ((s.getDie s.place.core.dieKey).port up).failed = false)
    (silent : ((s.getDie s.place.core.dieKey).port up).lastRx + 1024 ≤ s.linkCycle) :
    exec (.linkFailSilence up) s = .next (s.failLink s.place.core.dieKey up) := by
  rw [exec_linkFailSilence, execLinkFailSilence]
  exact if_pos (by simp [works, silent])

/-! ### Sending (R126, R140) -/

/-- A port has sent one flit: in its next sequence number, or a kept one again; what it has received stands. -/
def Die.Sends (up : Bool) (d e : Die) : Prop :=
  e.key = d.key ∧ (e.port up).rxSeq = (d.port up).rxSeq
    ∧ ((e.port up).txSeq = (d.port up).txSeq + 1 ∨ ((d.port up).resend ≠ [] ∧ (e.port up).txSeq = (d.port up).txSeq))

section
variable {d e : Die} {up : Bool}

theorem Die.Sends.count (h : d.Sends up e) (n : Fin 8) : d.Sends up (e.count up n) := by
  simpa only [Die.Sends, Die.port_count, Die.key_count] using h
theorem Die.sends_new (d : Die) (up : Bool) (f : Flit) (o : Option (CoreKey × Nat)) (tick : Nat) : d.Sends up (d.sendNew up f o tick) := by
  simp only [Die.Sends, Die.sendNew, Die.port_setPort, Die.key_setPort, true_or, and_self]
/-- A new flit, from a die that differs in no sequence number. -/
theorem Die.sends_new_of (key : e.key = d.key) (port : (e.port up).rxSeq = (d.port up).rxSeq ∧ (e.port up).txSeq = (d.port up).txSeq) (f : Flit)
    (o : Option (CoreKey × Nat)) (tick : Nat) : d.Sends up (e.sendNew up f o tick) := by
  obtain ⟨key', rx, tx⟩ := e.sends_new up f o tick
  refine ⟨key'.trans key, rx.trans port.1, .inl ?_⟩
  simp only [Die.sendNew, Die.port_setPort, port.2]
theorem Die.sends_queued (d : Die) (up : Bool) (f : Flit) (o : Option (CoreKey × Nat)) (r : List (Flit × Option (CoreKey × Nat))) :
    d.Sends up (d.sendQueued up f o r) :=
  Die.sends_new_of (Die.key_setPort _ _ _) (by simp only [Die.port_setPort, and_self]) f o _
theorem Die.key_countReplay (d : Die) : d.countReplay.key = d.key := by
  obtain ⟨n, e⟩ := d.countReplay_frame
  rw [e]
theorem Die.sends_again (again : (d.port up).resend ≠ []) (seq : BitVec 32) (f : Flit) (tick : Nat) : d.Sends up (d.sendAgain up seq f tick) := by
  refine ⟨(Die.key_setPort _ _ _).trans d.key_countReplay, ?_, .inr ⟨again, ?_⟩⟩ <;> simp only [Die.sendAgain, Die.port_setPort]
/-- A flit of a shard leaves by the downstream port. -/
theorem State.sends_shard (s : State) (d : Die) (x : Shard) (i : Nat) : d.Sends false (s.sendShard d x i) :=
  d.sends_new false (s.shardFlit d x i) none (d.sendCycle false / 8)
/-- Only a port with resends asked for has one due. -/
theorem State.resend_of_due {s : State} {f : Flit} (due : s.resendDue d up = some f) : (d.port up).resend ≠ [] := by
  intro none_
  simp only [State.resendDue, none_, List.findSome?_nil, reduceCtorEq] at due
end

/-- In its next link cycle a port sends one flit. -/
theorem State.sends_one (s : State) (d : Die) (up : Bool) : d.Sends up (s.sendOne d up) := by
  have idle_ : ∀ n : Fin 8, d.Sends up ((d.sendNew up Flit.idleOne none (d.sendCycle up / 8)).count up n) := fun n => (d.sends_new _ _ _ _).count n
  unfold State.sendOne
  extract_lets c p paced idle
  split
  · exact idle_ 7
  · split
    · exact idle_ _
    · split
      · split
        · next due => exact (Die.sends_again (State.resend_of_due due) _ _ _).count 6
        · split
          · exact (d.sends_queued _ _ _ _).count 6
          · exact idle_ 6
        · exact idle_ 6
      · split
        · next due => exact (Die.sends_again (State.resend_of_due due) _ _ _).count _
        · split
          · next due =>
            cases up
            · exact (s.sends_shard d _ _).count 0
            · simp at due
          · split
            · exact (Die.sends_new_of rfl (by cases up <;> exact ⟨rfl, rfl⟩) _ _ _).count 0
            · split
              · exact (d.sends_queued _ _ _ _).count _
              · split
                · exact (d.sends_new _ _ _ _).count 4
                · exact idle_ 5

/-- A port sends once the cycle has begun; a downstream port yields to a departure that is due. -/
theorem exec_flitSend_sends {s : State} {up : Bool} (begun : (s.getDie s.place.core.dieKey).sendCycle up ≤ s.linkCycle)
    (free : up = true ∨ s.departureDue (s.getDie s.place.core.dieKey) = none) :
    exec (.flitSend up) s = .next (s.setDie (s.sendOne (s.getDie s.place.core.dieKey) up)) := by
  rw [exec_flitSend, execFlitSend]
  refine if_neg ?_
  rcases free with up_ | none_
  · simp [up_, up_ ▸ begun]
  · simp [none_, begun]

/-- The shard that leaves, with its lateness (R126). -/
def Shard.leaves (x : Shard) (paced : Nat) : Shard := { x with late := min (paced - x.deadline) (2 ^ 24 - 1) }

/-- The shard whose turn it is leaves, its port being free for it (R126, R137, R143). -/
theorem exec_shardDeparture_departs {s : State} {x : Shard} {i : Nat} : let d := s.getDie s.place.core.dieKey
    let c := d.sendCycle false
    let n := s.ring.pace.paced c
    d.nextToLeave = some x → x.nextFlit = some i → x.sent = [] → c ≤ s.linkCycle → x.deadline ≤ n → s.ring.pace.isPaced c = true →
    d.stallUntil = none → d.stallDue c = false → s.resendDue d false = none → s.shardsMove d = true → d.enabled = true →
    (d.transit = true → d.slotStart n = true) →
    exec .shardDeparture s = .next (s.setDie ({ s.sendShard d (x.leaves n) i with slotFrom := some n }.count false 0)) := by
  intro d c n turn first whole begun reached paced calm noStall noResend moves enabled slot
  have transit : (!d.transit || d.slotStart n) = true := by
    cases t : d.transit with
    | false => rfl
    | true => exact slot t
  have due : s.departureDue d = some (x, i) := by
    simp only [State.departureDue, turn]
    simp [c, n, first, whole, reached, paced, calm, noStall, noResend, moves, enabled, transit]
  rw [exec_shardDeparture, execShardDeparture]
  simp only [d, due]
  exact if_pos begun

/-- A flit leaves with the CRC that it should carry. -/
theorem crc_stamp (f : Flit) (tick : Nat) : (f.stamp tick).crc = (f.stamp tick).goodCrc := rfl
/-- A new flit is the last of those that the port keeps. -/
theorem Die.getLast?_sendNew (d : Die) (up : Bool) (f : Flit) (o : Option (CoreKey × Nat)) (tick : Nat) :
    ((d.sendNew up f o tick).port up).sent.getLast? = some (({ f with seq := (d.port up).txSeq } : Flit).stamp tick) := by
  simp only [Die.sendNew, Die.port_setPort, List.getLast?_drop, List.getLast?_append, List.length_append, List.length_singleton]
  rw [if_neg (by omega)]
  rfl

/-! ### The obligation -/

/-- Settles O55: each event of a port by the law of its own; what a port takes by `acceptFlit_received` and `State.byte_acceptFlit`, what it sends
by `State.sends_one`. -/
theorem trackPortsCarryFlits : Obligations.TrackPortsCarryFlits := by
  unfold Obligations.TrackPortsCarryFlits
  intro s up f q keyed k d p after fails
  have key : d.key = k := State.getDie_key keyed k
  have port : ∀ p', after (s.setDie (d.setPort up p')) = p' := fun p' => State.port_setDie_setPort keyed k up p'
  refine ⟨?accepts, ?payload, ?drops, ?replay, ?probe, ?echo, ?resends, ?silence, ?sends, ?departs⟩
  case accepts =>
    rintro ⟨crc, next⟩
    have received := acceptFlit_received keyed k up f
    simp only [Die.received, Prod.mk.injEq] at received
    exact ⟨_, exec_flitReceive_accepts crc next, received⟩
  case payload =>
    rintro rfl crc next shard ctrl idle_ hole sound - routed alive enabled room x n
    have target : x = (s.shardOf d f).2 := by
      simp only [x, State.shardOf]
      cases d.shards.find? (fun x => x.tag == f.tag && !x.complete) <;> rfl
    rw [target]
    exact ⟨_, exec_flitReceive_accepts crc next, State.byte_acceptFlit keyed sound shard ctrl idle_ hole alive routed enabled room⟩
  case drops => exact exec_flitReceive_drops
  case replay =>
    intro asked
    obtain ⟨c, tries, run⟩ := exec_flitReplay_sends asked
    exact ⟨_, run, congrArg Port.resend (port _), fun _ => rfl⟩
  case probe =>
    intro asked
    obtain ⟨c, run⟩ := exec_latencyProbe_answers asked
    exact ⟨_, run, congrArg Port.queue (port _), fun _ => rfl⟩
  case echo =>
    intro asked
    obtain ⟨c, run⟩ := exec_probeEcho_ends asked
    refine ⟨_, run, ?_⟩
    change (after (match p.probeAt with | some t => _ | none => _)).probeAt = none ∧ _
    cases probe : p.probeAt with
    | none => exact ⟨(congrArg Port.probeAt (port _)).trans probe, fun _ => rfl, fun n e => by cases e⟩
    | some t =>
      obtain ⟨probed, mem⟩ := State.measured_port keyed k { p with ctrl := c } t up
      simp only [Die.probed, Prod.mk.injEq] at probed
      refine ⟨probed.1, State.byte_congr mem, fun n e => ?_⟩
      cases e
      refine ⟨probed.2, fun down whole live pkg die => ?_⟩
      subst down
      rw [key] at pkg die ⊢
      exact State.measured_dwell keyed k { p with ctrl := c } t whole live pkg die
  case resends => exact fun works tries => ⟨_, exec_linkFailResends_fails works tries, State.failLink_spec keyed k up⟩
  case silence => exact fun works silent => ⟨_, exec_linkFailSilence_fails works silent, State.failLink_spec keyed k up⟩
  case sends => exact fun begun free => ⟨_, exec_flitSend_sends begun free, s.sends_one d up⟩
  case departs =>
    intro c n x i turn first whole begun reached paced calm noStall noResend moves enabled slot
    refine ⟨_, _, exec_shardDeparture_departs turn first whole begun reached paced calm noStall noResend moves enabled slot, rfl, ?_,
      d.getLast?_sendNew false (s.shardFlit d (x.leaves n) i) none (d.sendCycle false / 8), rfl, rfl, rfl, ?_, rfl⟩
    · rfl
    · exact crc_stamp _ _

end Sys2Proof.Machine
end

section
/-! Stalls, steps, injection, repair and restart of the ring (R136 to R149, R429): what each event leaves of the ring and of its dies. -/

namespace Sys2Proof.Machine

theorem exec_ringStall (ts : Nat) (s : State) : exec (.ringStall ts) s = execRingStall ts s := rfl
theorem exec_ringStallBegin (s : State) : exec .ringStallBegin s = execRingStallBegin s := rfl
theorem exec_ringStallEnd (s : State) : exec .ringStallEnd s = execRingStallEnd s := rfl
theorem exec_podStep (n : Fin 5) (s : State) : exec (.podStep n) s = execPodStep n s := rfl
theorem exec_repairReport (f : FailKind) (s : State) : exec (.repairReport f) s = execRepairReport f s := rfl
theorem exec_repairAnnouncement (r : Repair) (s : State) : exec (.repairAnnouncement r) s = execRepairAnnouncement r s := rfl
theorem exec_repairTick (s : State) : exec .repairTick s = execRepairTick s := rfl
theorem exec_ringInject (s : State) : exec .ringInject s = execRingInject s := rfl
theorem exec_reinjection (s : State) : exec .reinjection s = execReinjection s := rfl
theorem exec_ringRestart (s : State) : exec .ringRestart s = execRingRestart s := rfl

/-! ### One die, or core, after the other -/

/-- A fold that changes one die, or one core, at a time, of keys that are listed once: each is changed by its own step, and the others stand. -/
theorem foldl_each {κ δ : Type} {get : State → κ → δ} {f : State → κ → State} {I : State → Prop} {P : κ → δ → δ → Prop}
    (step : ∀ u k, I u → I (f u k) ∧ P k (get u k) (get (f u k) k) ∧ ∀ j, j ≠ k → get (f u k) j = get u j)
    {l : List κ} (once : l.Nodup) {s : State} (h : I s) :
    I (l.foldl f s) ∧ (∀ k ∈ l, P k (get s k) (get (l.foldl f s) k)) ∧ ∀ j, j ∉ l → get (l.foldl f s) j = get s j := by
  induction l generalizing s with
  | nil => exact ⟨h, fun k m => (List.not_mem_nil m).elim, fun _ _ => rfl⟩
  | cons k l ih =>
    obtain ⟨new, once⟩ := List.nodup_cons.1 once
    obtain ⟨inv, here, others⟩ := step s k h
    obtain ⟨inv', each, rest⟩ := ih once inv
    refine ⟨inv', fun j m => ?_, fun j out => ?_⟩
    · rcases List.mem_cons.1 m with rfl | m
      · rw [List.foldl_cons, rest j new]
        exact here
      · have other : j ≠ k := fun e => new (e ▸ m)
        rw [← others j other]
        exact each j m
    · rw [List.mem_cons, not_or] at out
      rw [List.foldl_cons, rest j out.2, others j out.1]

/-- The dies of a package. -/
theorem nodup_dies (p : Nat) : ((List.range 8).map (fun d => (⟨p, d⟩ : DieKey))).Nodup :=
  List.nodup_range.map (fun a b e => by injection e)
theorem mem_dies {p n : Nat} : (⟨p, n⟩ : DieKey) ∈ (List.range 8).map (fun d => (⟨p, d⟩ : DieKey)) ↔ n < 8 := by simp

/-- A change of some dies under their own keys. -/
theorem State.getDie_onDies {s : State} (h : s.Keyed) {f : Die → Die} (key : ∀ d, (f d).key = d.key) {l : List DieKey} (once : l.Nodup) {k : DieKey}
    (m : k ∈ l) : (s.onDies l f).getDie k = f (s.getDie k) := by
  refine (foldl_each (get := State.getDie) (f := fun s d => s.setDie (f (s.getDie d))) (I := State.Keyed) (P := fun _ d e => e = f d)
    (fun u j hu => ?_) once h).2.1 k m
  have at_ : (f (u.getDie j)).key = j := (key _).trans (State.getDie_key hu j)
  refine ⟨hu.setDie _, State.getDie_setDie_of at_, fun i other => ?_⟩
  rw [State.getDie_setDie, if_neg (fun e => other (e.symm.trans at_))]
theorem DiesKeep.onDies {β : Type} {g : Die → β} {s t : State} (h : DiesKeep g s t) {f : Die → Die} (key : ∀ d, (f d).key = d.key)
    (same : ∀ d, g (f d) = g d) (l : List DieKey) : DiesKeep g s (t.onDies l f) :=
  h.foldl (fun _ k hu => hu.diesKeep.setDie (k := k) (key _) (same _)) l

/-! ### The ring as the pod sees it -/

/-- The ring, the modules and the bridge: what no change of dies, cores and memory touches. -/
def State.pod (s : State) : Ring × Nat × Nat := (s.ring, s.modules, s.bridge)

theorem State.post_pod (s : State) (n : Nat) (k : CoreKey) (w : List Word) : (s.post n k w).pod = s.pod := by
  simp only [State.pod, State.post_ring, State.post_modules, State.post_bridge]
theorem State.updRun_pod (s : State) (k : CoreKey) (n : Nat) (f : QRec → QRec) : (s.updRun k n f).pod = s.pod := by
  unfold State.updRun State.setCore
  dsimp only
  split <;> rfl
theorem State.onDies_pod (s : State) (l : List DieKey) (f : Die → Die) : (s.onDies l f).pod = s.pod := foldl_keeps State.pod (fun _ _ => by rfl) l s
theorem State.setDwells_pod (s : State) (c : Nat) (l : List (DieKey × BitVec 32)) : (s.setDwells c l).pod = s.pod :=
  foldl_keeps (f := State.setDwell c) State.pod (fun _ _ => rfl) l s

/-! ### Stalls (R136, R137, R141) -/

theorem bits_putBits_high (w : Word) (v : Nat) : bits (putBits w 63 32 v).toNat 63 32 = v % 2 ^ 32 := by
  have := w.isLt
  simp only [putBits, bits, BitVec.toNat_ofNat]
  omega

section
variable {s : State}

/-- A stall tick that is announced is noted once. -/
theorem exec_ringStall_notes {ts : Nat} (announced : ts ∈ s.ring.stalls) (new : ts ∉ (s.getDie s.place.core.dieKey).stallReq) (ahead : s.tick < ts) :
    exec (.ringStall ts) s = .next (s.setDie { s.getDie s.place.core.dieKey with stallReq := (s.getDie s.place.core.dieKey).stallReq ++ [ts] }) := by
  rw [exec_ringStall, execRingStall]
  exact if_pos ⟨announced, new, ahead⟩

/-- A die whose stall for tick ts has begun. -/
def State.stalled (s : State) (d : Die) (ts : Nat) : Die :=
  { d.countStall with
    stallReq := d.stallReq.erase ts, stallUntil := some (s.pacedNow + d.stallq)
    shards := d.shards.map (fun x => if s.ring.pace.paced (8 * ts) ≤ x.deadline then { x with deadline := x.deadline + d.stallq } else x)
    ownStall := if d.ownStall = some ts then none else d.ownStall }
theorem exec_ringStallBegin_begins {ts : Nat} (due : (s.getDie s.place.core.dieKey).stallReq.find? (fun t => t ≤ s.tick) = some ts)
    (calm : (s.getDie s.place.core.dieKey).stallUntil = none) (free : s.departing (s.getDie s.place.core.dieKey) = false) :
    exec .ringStallBegin s = .next (s.setDie (s.stalled (s.getDie s.place.core.dieKey) ts)) := by
  rw [exec_ringStallBegin, execRingStallBegin]
  simp only [due, calm, free, Option.isNone_none, Bool.not_false, Bool.and_self, if_true]
  rfl
/-- A stall ends; a die with a failed link requests the next one. -/
theorem exec_ringStallEnd_ends {u : Nat} (stalls : (s.getDie s.place.core.dieKey).stallUntil = some u) (past : u ≤ s.pacedNow)
    (runs : s.ring.downNow = false) : let d := s.getDie s.place.core.dieKey
    exec .ringStallEnd s = .next (if d.up.failed || d.down.failed then (s.setDie { d with stallUntil := none }).requestStall s.place.core.dieKey
      else s.setDie { d with stallUntil := none }) := by
  rw [exec_ringStallEnd, execRingStallEnd]
  simp only [stalls]
  exact if_pos ⟨past, runs⟩

/-! ### Pod steps (R138) -/

/-- The pod at step n, from the tick agreed on, or from now on. -/
def State.stepped (s : State) (n : Nat) : State :=
  { s with ring := { s.ring with
      pace := s.ring.pace.change n (match s.ring.stepAt with | some (a, _) => 8 * a | none => s.linkCycle), stepAt := none } }
theorem exec_podStep_steps {n : Fin 5} (due : s.ring.stepAt = none ∨ ∃ t, s.ring.stepAt = some (t, n.val) ∧ t ≤ s.tick) :
    exec (.podStep n) s = .next ((s.stepped n.val).post 8 ⟨s.place.core.pkg, s.place.core.die, 0⟩
      [BitVec.ofNat 64 n.val, BitVec.ofNat 64 (s.getDie s.place.core.dieKey).centi]) := by
  rw [exec_podStep, execPodStep, State.stepped]
  rcases due with none_ | ⟨t, agreed, now⟩
  · simp only [none_]
    rfl
  · simp only [agreed, now, decide_true, beq_self_eq_true, Bool.and_self, if_true]
    rfl

/-! ### Failures that are reported and announced (R142, R146, R148) -/

theorem State.postLost_pod (s : State) (k : FailKind) (tick : Nat) (reqs : List Nat) : (s.postLost k tick reqs).pod = s.pod :=
  foldl_keeps State.pod (fun _ _ => State.post_pod _ _ _ _) _ s

/-- A registered request in its descriptor's STATE (R146). -/
def State.loseRequest (hostOnly : Bool) (s : State) (r : ReqCopy) : State :=
  if hostOnly && paSpace r.addr != 4 then s else s.writeWord r.addr (putBits (s.word r.addr) 57 56 2)
/-- A die that has lost requests. -/
def Die.loses (rs : List ReqCopy) (d : Die) : Die :=
  { d with need := d.need.filter (fun e => !rs.any (fun r => r.req == needReq e.2)), reqs := d.reqs.map (fun r => { r with state := 2 }) }
theorem State.loseRequests_eq (s : State) (p : Nat) (hostOnly : Bool) : ∃ rs : List ReqCopy, (s.loseRequests p hostOnly).1
    = (rs.foldl (State.loseRequest hostOnly) s).onDies ((List.range 8).map (fun d => ⟨p, d⟩)) (Die.loses rs) := ⟨_, rfl⟩
theorem State.loseRequest_frame (hostOnly : Bool) (s : State) (r : ReqCopy) :
    (s.loseRequest hostOnly r).pod = s.pod ∧ (s.loseRequest hostOnly r).dies = s.dies := by
  unfold State.loseRequest
  split <;> exact ⟨rfl, rfl⟩
theorem State.loseRequests_pod (s : State) (p : Nat) (hostOnly : Bool) : (s.loseRequests p hostOnly).1.pod = s.pod := by
  obtain ⟨rs, e⟩ := s.loseRequests_eq p hostOnly
  rw [e, State.onDies_pod]
  exact foldl_keeps State.pod (fun t r => (t.loseRequest_frame hostOnly r).1) rs s

/-- The ring is down at once, with no repair to come. -/
theorem State.ringDown_ring (s : State) (f : FailKind) : (s.ringDown f).ring = { s.ring.fail f with downNow := true, repair := none } := by
  have down : (s.ringDown f).pod = ({ s with ring := s.ring.fail f } : State).tellDown.pod :=
    (State.postLost_pod _ _ _ _).trans (State.loseRequests_pod _ _ _)
  exact (congrArg Prod.fst down).trans (State.post_ring _ _ _ _)

/-- The coordinator's announcement of a failure: the tick 2^18 ahead, and the new dwells. -/
def State.repairOf (s : State) (f : FailKind) : Repair := { kind := f, tick := s.tick + 262144, dwells := s.newDwells f }
def State.repairing (s : State) (f : FailKind) : State := { s with ring := { s.ring with repair := some (s.repairOf f) } }
theorem exec_repairReport_announces {f : FailKind} (free : s.ring.repair = none) (runs : s.ring.downNow = false) (true_ : s.classified f = true)
    (mends : s.beyondRepair f = false) : exec (.repairReport f) s = .next ((s.repairing f).post 4 ⟨f.pkg, 0, 0⟩
      [BitVec.ofNat 64 f.code, BitVec.ofNat 64 (s.repairOf f).tick, 0]) := by
  rw [exec_repairReport, execRepairReport, free, runs, true_, mends]
  rfl
theorem exec_repairReport_down {f : FailKind} (free : s.ring.repair = none) (runs : s.ring.downNow = false) (true_ : s.classified f = true)
    (beyond : s.beyondRepair f = true) : exec (.repairReport f) s = .next (s.ringDown f) := by
  rw [exec_repairReport, execRepairReport, free, runs, true_, beyond]
  rfl

/-- The dies of a package receive an announcement that one of them has not. -/
theorem exec_repairAnnouncement_received {r : Repair} (announced : s.ring.repair = some r)
    (new : ∃ n < 8, (s.getDie ⟨s.place.core.pkg, n⟩).repair ≠ some r) :
    exec (.repairAnnouncement r) s = .next (s.onDies ((List.range 8).map (fun d => ⟨s.place.core.pkg, d⟩)) (fun d => { d with repair := some r })) := by
  obtain ⟨n, lt, other⟩ := new
  rw [exec_repairAnnouncement, execRepairAnnouncement]
  refine if_pos ⟨announced, List.all_eq_false.2 ⟨_, mem_dies.2 lt, ?_⟩⟩
  simpa using other
end

end Sys2Proof.Machine
end

section
/-! Injection and reinjection (R145, R149): a shard that is put whole into the carousels of the bridge module's dies. -/

namespace Sys2Proof.Machine

/-- A state of one time and one ring with another, but for the stalls that have been announced since. -/
structure SameRing (s u : State) : Prop where
  keyed : u.Keyed
  now : u.now = s.now
  ring : ∃ l, u.ring = { s.ring with stalls := l }

section
variable {s u : State}

theorem State.Keyed.sameRing (h : s.Keyed) : SameRing s s := ⟨h, rfl, _, rfl⟩
theorem SameRing.setDie (h : SameRing s u) (d : Die) : SameRing s (u.setDie d) := ⟨h.keyed.setDie d, h.now, h.ring⟩
theorem SameRing.perform (h : SameRing s u) (l : List (Nat × Byte)) : SameRing s (u.perform l) := ⟨h.keyed.perform l, h.now, h.ring⟩
theorem SameRing.requestStall (h : SameRing s u) (k : DieKey) : SameRing s (u.requestStall k) := by
  obtain ⟨l, ring⟩ := h.ring
  obtain ⟨l', ring'⟩ := u.requestStall_ring k
  exact ⟨h.keyed.requestStall k, (u.requestStall_now k).trans h.now, l', by rw [ring', ring]⟩
theorem SameRing.checkSpace (h : SameRing s u) (k : DieKey) : SameRing s (u.checkSpace k) := by
  unfold State.checkSpace
  dsimp only
  split
  · exact h.requestStall k
  · exact h
theorem SameRing.pacedNow (h : SameRing s u) : u.pacedNow = s.pacedNow := by
  obtain ⟨l, ring⟩ := h.ring
  simp only [State.pacedNow, State.linkCycle, h.now, ring]
theorem SameRing.openHole (h : SameRing s u) (d : Die) : u.openHole d = s.openHole d := by
  simp only [State.openHole, h.pacedNow]
end

/-- A request and the event that tells of it change the die that makes it alone. -/
theorem State.getDie_requestStall_other {s : State} (h : s.Keyed) {k j : DieKey} (other : j ≠ k) : (s.requestStall k).getDie j = s.getDie j := by
  have apart : ∀ {t : State} {d : Die}, d.key = k → (t.setDie d).getDie j = t.getDie j := fun e => by
    rw [State.getDie_setDie, if_neg (fun e' => other (e'.symm.trans e))]
  have key : (s.getDie k).key = k := State.getDie_key h k
  rcases s.requestStall_cases k with ⟨-, e⟩ | ⟨-, w, e⟩ <;> rw [e]
  have announced : (s.announced k).getDie j = s.getDie j := apart (d := (s.getDie k).asked _) key
  rw [← announced]
  have keyed : (s.announced k).Keyed := h.setDie _
  rcases (s.announced k).post_cases 3 ⟨k.pkg, k.die, 0⟩ w with ⟨q, e⟩ | ⟨l, e⟩ <;> rw [e]
  · rfl
  · exact apart (State.getDie_key keyed k)
theorem State.getDie_checkSpace_other {s : State} (h : s.Keyed) {k j : DieKey} (other : j ≠ k) : (s.checkSpace k).getDie j = s.getDie j := by
  unfold State.checkSpace
  dsimp only
  split
  · exact State.getDie_requestStall_other h other
  · rfl

/-- A die has taken a shard of a segment whole: its tag and bytes, past batch formation or not, with a deadline, and the hole is filled. -/
def tookWhole (e : Half × Nat × Nat) (reinj formed : Bool) (arrival deadline : Nat) (d : Die) : Prop :=
  d.holeAt = none ∧ ∃ x ∈ d.shards, x.tag = e.1 ∧ x.bytes = e.2.1 ∧ x.complete = true ∧ x.formed = formed ∧ x.reinj = reinj
    ∧ x.arrival = arrival ∧ x.deadline = deadline

/-- A new shard that is held whole. -/
def Shard.whole (x : Shard) (formed : Bool) (deadline : Nat) : Shard :=
  { x with got := List.range x.flits, formed := formed, deadline := deadline }
theorem Shard.whole_complete (x : Shard) (formed : Bool) (deadline : Nat) : (x.whole formed deadline).complete = true := by
  refine decide_eq_true ?_
  change x.flits ≤ (List.range x.flits).length
  rw [List.length_range]
/-- The die whose carousel has taken a shard at its head. -/
def Die.holdNew (d : Die) (x : Shard) : Die := { (d.setShard x) with head := x.base + x.footprint, holeAt := none, lastRecv := x.tag }

section
variable (s : State) (k : DieKey) (e : Half × Nat × Nat) (reinj formed : Bool) (t wait : Nat)

/-- The die behind whose last shard a segment is put, and its shard. -/
def State.putTarget : Die × Shard :=
  let d := s.getDie k
  let a := s.newShard { d with head := d.shards.foldl (fun n x => max n (x.base + x.footprint)) d.head } e.1 e.2.1 (s.pacedNow - t) reinj
  (a.1, a.2.whole formed (t + wait))
theorem State.putShard_eq : ∃ l, s.putShard k e reinj formed t wait
    = ((s.setDie ((s.putTarget k e reinj formed t wait).1.holdNew (s.putTarget k e reinj formed t wait).2)).perform l).checkSpace k := ⟨_, rfl⟩
theorem State.putTarget_mem : (s.putTarget k e reinj formed t wait).2 ∈
    ((s.putTarget k e reinj formed t wait).1.holdNew (s.putTarget k e reinj formed t wait).2).shards := by
  refine Die.self_mem_setShard (z := (s.newShard _ e.1 e.2.1 (s.pacedNow - t) reinj).2) ?_ rfl
  exact List.mem_append_right _ (List.mem_singleton_self _)

variable {s}
/-- A shard that is put whole into a carousel: the die holds it, the others stand. -/
theorem SameRing.putShard {r : State} (h : SameRing r s) : SameRing r (s.putShard k e reinj formed t wait)
    ∧ tookWhole e reinj formed (s.pacedNow - (s.pacedNow - t)) (t + wait) ((s.putShard k e reinj formed t wait).getDie k)
    ∧ ∀ j, j ≠ k → (s.putShard k e reinj formed t wait).getDie j = s.getDie j := by
  obtain ⟨l, put⟩ := s.putShard_eq k e reinj formed t wait
  have member := s.putTarget_mem k e reinj formed t wait
  have key : ((s.putTarget k e reinj formed t wait).1.holdNew (s.putTarget k e reinj formed t wait).2).key = k := State.getDie_key h.keyed k
  rw [put]
  have held := (h.setDie ((s.putTarget k e reinj formed t wait).1.holdNew (s.putTarget k e reinj formed t wait).2)).perform l
  refine ⟨held.checkSpace k, ?_, fun j other => ?_⟩
  · have keep := held.keyed.diesKeep.checkSpace (g := fun d => (d.holeAt, d.shards)) (fun _ _ => rfl) (fun _ _ => rfl) k
    have same := (keep.getDie k).trans (congrArg (fun d => (d.holeAt, d.shards)) (State.getDie_setDie_of key))
    simp only [Prod.mk.injEq] at same
    obtain ⟨hole, shards⟩ := same
    refine ⟨hole, _, shards ▸ member, rfl, rfl, Shard.whole_complete _ _ _, rfl, rfl, rfl, rfl⟩
  · rw [State.getDie_checkSpace_other held.keyed other]
    exact (State.getDie_setDie _ _ _).trans (if_neg (fun e => other (e.symm.trans key)))
end

theorem State.nodup_bridgeDies (s : State) : s.bridgeDies.Nodup := nodup_dies s.bridge

/-! ### Injection (R149) -/

/-- The next segment enters the hole that is arriving at one die. -/
def State.injectAt (e : Half × Nat × Nat) (s : State) (k : DieKey) : State :=
  let d := s.getDie k
  let at_ := (s.openHole d).getD s.pacedNow
  s.putShard k e false false at_ (d.dwellAt at_)
/-- It enters the hole slots that are arriving at all the dies of the bridge module. -/
theorem exec_ringInject_enters {s : State} (more : s.ring.next < s.segments) (tag : (s.segment s.ring.next).1 ≠ 0)
    (open_ : ∀ e ∈ s.bridgeDies, (s.getDie e).enabled = true ∧ (s.openHole (s.getDie e)).isSome = true) (runs : s.ring.restarting = false) :
    let t := s.bridgeDies.foldl (State.injectAt (s.segment s.ring.next)) s
    exec .ringInject s = .next { t with ring := { t.ring with next := t.ring.next + 1 } } := by
  rw [exec_ringInject, execRingInject]
  refine if_pos ⟨more, tag, List.all_eq_true.2 fun k m => ?_, runs⟩
  obtain ⟨enabled, hole⟩ := open_ k m
  simp only [enabled, hole, Bool.and_self]
/-- Each of them takes it whole, from the beginning of its hole on. -/
theorem State.injectAll {s : State} (h : s.Keyed) (e : Half × Nat × Nat) :
    SameRing s (s.bridgeDies.foldl (State.injectAt e) s)
      ∧ ∀ k ∈ s.bridgeDies, ∀ n, s.openHole (s.getDie k) = some n → n ≤ s.pacedNow →
        tookWhole e false false n (n + (s.getDie k).dwellAt n) ((s.bridgeDies.foldl (State.injectAt e) s).getDie k) := by
  have each := foldl_each (get := State.getDie) (f := State.injectAt e) (I := SameRing s)
    (P := fun _ d d' => ∀ n, s.openHole d = some n → n ≤ s.pacedNow →
    tookWhole e false false n (n + d.dwellAt n) d') (fun u k hu => ?_) s.nodup_bridgeDies h.sameRing
  · exact ⟨each.1, each.2.1⟩
  · obtain ⟨ring, took, others⟩ := hu.putShard k e false false ((u.openHole (u.getDie k)).getD u.pacedNow)
      ((u.getDie k).dwellAt ((u.openHole (u.getDie k)).getD u.pacedNow))
    refine ⟨ring, fun n hole begun => ?_, others⟩
    have at_ : (u.openHole (u.getDie k)).getD u.pacedNow = n := by rw [hu.openHole, hole]; rfl
    have arrival : u.pacedNow - (u.pacedNow - n) = n := by rw [hu.pacedNow]; omega
    rw [at_, arrival] at took
    rw [State.injectAt, at_]
    exact took

/-! ### Reinjection (R145) -/

/-- A lost segment fills the slots that are about to leave all the dies of the bridge module. -/
theorem exec_reinjection_fills {s : State} {e : Half × Nat × Nat} {r : List (Half × Nat × Nat)} (lost : s.ring.lost = e :: r)
    (free : ∀ b ∈ s.bridgeDies, let x := s.getDie b
      let n := s.ring.pace.paced (x.sendCycle false)
      x.enabled = true ∧ x.slotStart n = true ∧ ∀ y ∈ x.shards, y.gone = true ∨ (y.sent = [] ∧ n < y.deadline)) :
    let t := s.bridgeDies.foldl (fun s k => s.putShard k e true true s.pacedNow 0) s
    exec .reinjection s = .next { t with ring := { t.ring with lost := r } } := by
  rw [exec_reinjection, execReinjection]
  simp only [lost]
  refine if_pos (List.all_eq_true.2 fun k m => ?_)
  obtain ⟨enabled, slot, idle_⟩ := free k m
  simp only [enabled, slot, Bool.and_self, Bool.true_and, List.all_eq_true, Bool.or_eq_true, Bool.and_eq_true, List.isEmpty_iff,
    decide_eq_true_eq]
  exact idle_
/-- Each of them takes it whole, past batch formation and due at once. -/
theorem State.reinjectAll {s : State} (h : s.Keyed) (e : Half × Nat × Nat) :
    ∀ k ∈ s.bridgeDies, ∃ n, tookWhole e true true n s.pacedNow
      ((s.bridgeDies.foldl (fun s k => s.putShard k e true true s.pacedNow 0) s).getDie k) := by
  refine (foldl_each (get := State.getDie) (I := SameRing s)
    (P := fun _ _ d => ∃ n, tookWhole e true true n s.pacedNow d) (fun u k hu => ?_) s.nodup_bridgeDies h.sameRing).2.1
  obtain ⟨ring, took, others⟩ := hu.putShard k e true true u.pacedNow 0
  rw [Nat.add_zero, hu.pacedNow] at took
  exact ⟨ring, ⟨_, by rw [hu.pacedNow]; exact took⟩, others⟩

end Sys2Proof.Machine
end

section
/-! Repair and restart of the ring (R141 to R148, R429): routes, dwells, residency and requests after the repair tick. -/

namespace Sys2Proof.Machine

/-! ### Routes (R143, R144, Table 6.16) -/

/-- Where a die's shards come from and go to. -/
def Die.routing (d : Die) : Nat × Nat := (d.upsrc, d.dndst)
theorem Die.routing_eq {d : Die} {a b : Nat} : d.routing = (a, b) ↔ d.upsrc = a ∧ d.dndst = b := Prod.mk.injEq _ _ _ _ ▸ Iff.rfl

section
variable (w : Word)

theorem route_dead : bits (putBits w 11 8 15).toNat 11 10 = 3 ∧ bits (putBits w 11 8 15).toNat 9 8 = 3 := by
  have := w.isLt
  simp only [putBits, bits, BitVec.toNat_ofNat]
  omega
theorem route_down : bits (putBits w 9 8 2).toNat 11 10 = bits w.toNat 11 10 ∧ bits (putBits w 9 8 2).toNat 9 8 = 2 := by
  have := w.isLt
  simp only [putBits, bits, BitVec.toNat_ofNat]
  omega
theorem route_up : bits (putBits w 11 10 2).toNat 11 10 = 2 ∧ bits (putBits w 11 10 2).toNat 9 8 = bits w.toNat 9 8 := by
  have := w.isLt
  simp only [putBits, bits, BitVec.toNat_ofNat]
  omega
theorem route_carry : (putBits w 2 2 1).getLsbD 2 = true ∧ bits (putBits w 2 2 1).toNat 11 10 = bits w.toNat 11 10
    ∧ bits (putBits w 2 2 1).toNat 9 8 = bits w.toNat 9 8 := by
  have := w.isLt
  simp only [putBits, bits, BitVec.getLsbD, Nat.testBit_eq_decide_div_mod_eq, BitVec.toNat_ofNat, decide_eq_true_eq]
  omega
theorem route_transit : (w ||| 2).getLsbD 2 = w.getLsbD 2 ∧ bits (w ||| 2).toNat 11 10 = bits w.toNat 11 10
    ∧ bits (w ||| 2).toNat 9 8 = bits w.toNat 9 8 := by
  refine ⟨by simp, ?_, ?_⟩ <;>
    simp only [bits, BitVec.toNat_or, ← Nat.shiftRight_eq_div_pow, Nat.shiftRight_or_distrib] <;> simp
theorem bits_putBits_nom (v : Nat) : bits (putBits w 11 0 v).toNat 11 0 = v % 2 ^ 12 := by
  have := w.isLt
  simp only [putBits, bits, BitVec.toNat_ofNat]
  omega
end

/-! ### What each part of a repair keeps -/

section
variable {β : Type} {g : Die → β} {s t : State}

theorem DiesKeep.route (h : DiesKeep g s t) (k : DieKey) {hi lo v : Nat} (same : ∀ d, g { d with rtrk := putBits d.rtrk hi lo v } = g d) :
    DiesKeep g s (t.route k hi lo v) := h.setDie (k := k) rfl (same _)
theorem DiesKeep.mendLink (h : DiesKeep g s t) (ports : ∀ d up p, g (Die.setPort d up p) = g d) (k : DieKey) (up : Bool) :
    DiesKeep g s (t.mendLink k up) := h.setDie (k := k) (Die.key_setPort _ _ _) (ports _ _ _)

/-- The neighbours of a dead module pass it by on one track. -/
def State.bypassAt (p : Nat) (s : State) (d : Nat) : State :=
  let s := (s.route ⟨s.before p, d⟩ 9 8 2).route ⟨s.after p, d⟩ 11 10 2
  (s.mendLink ⟨s.before p, d⟩ false).mendLink ⟨s.after p, d⟩ true
/-- The partner of a dead die carries its track, and the live dies of the module go into transit. -/
def State.detour (s : State) (p d : Nat) : State :=
  let s := (s.route ⟨p, d⟩ 11 8 15).route ⟨p, d ^^^ 1⟩ 2 2 1
  let s := s.onDies (s.liveDies p) Die.toTransit
  (((s.mendLink ⟨s.before p, d⟩ false).mendLink ⟨s.after p, d⟩ true).mendLink ⟨p, d⟩ true).mendLink ⟨p, d⟩ false
theorem State.switchRing_module (s : State) (p : Nat) : s.switchRing (.moduleFail p) = (List.range 8).foldl (State.bypassAt p) s := rfl
theorem State.switchRing_die (s : State) (p d : Nat) :
    s.switchRing (.dieFail p d) = (s.setDie { s.getDie ⟨p, d⟩ with shards := [], through := [] }).detour p d := rfl

theorem DiesKeep.bypass (h : DiesKeep g s t) (route : ∀ d r, g { d with rtrk := r } = g d) (ports : ∀ d up p, g (Die.setPort d up p) = g d) (p : Nat) :
    DiesKeep g s (t.switchRing (.moduleFail p)) := by
  rw [State.switchRing_module]
  exact h.foldl (fun u d hu => (((hu.diesKeep.route _ (fun d => route d _)).route _ (fun d => route d _)).mendLink ports _ _).mendLink ports _ _) _
theorem DiesKeep.switchRing (h : DiesKeep g s t) (route : ∀ d r, g { d with rtrk := r } = g d) (ports : ∀ d up p, g (Die.setPort d up p) = g d)
    (shards : ∀ d x y, g { d with shards := x, through := y } = g d) (f : FailKind) : DiesKeep g s (t.switchRing f) := by
  cases f with
  | moduleFail p => exact h.bypass route ports p
  | dieFail p d =>
    have emptied : DiesKeep g s (t.setDie { t.getDie ⟨p, d⟩ with shards := [], through := [] }) := h.setDie (k := ⟨p, d⟩) rfl (shards _ _ _)
    have routed := (emptied.route ⟨p, d⟩ (hi := 11) (lo := 8) (v := 15) (fun d => route d _)).route ⟨p, d ^^^ 1⟩ (hi := 2) (lo := 2) (v := 1)
      (fun d => route d _)
    have transit : ∀ d, g (Die.toTransit d) = g d := fun d => (shards { d with rtrk := d.rtrk ||| 2 } _ d.through).trans (route d _)
    rw [State.switchRing_die]
    exact ((((routed.onDies (f := Die.toTransit) (fun _ => rfl) transit _).mendLink ports _ _).mendLink ports _ _).mendLink ports _ _).mendLink
      ports _ _

theorem DiesKeep.dropSends (h : DiesKeep g s t) (port : ∀ d u, g { d with up := u } = g d) (events : ∀ d l, g { d with events := l } = g d)
    (k : DieKey) (f : FailKind) (tick : Nat) : DiesKeep g s (t.dropSends k f tick) := by
  have emptied : ∀ u, DiesKeep g s (t.setDie { t.getDie k with up := u }) := fun u => h.setDie (k := k) rfl (port _ _)
  exact (emptied _).foldl (fun u o hu => (hu.diesKeep.updRun _ _ _).post events _ _ _) _
theorem DiesKeep.loseRequests (h : DiesKeep g s t) (lost : ∀ d n r, g { d with need := n, reqs := r } = g d) (p : Nat) (hostOnly : Bool) :
    DiesKeep g s (t.loseRequests p hostOnly).1 := by
  obtain ⟨rs, e⟩ := t.loseRequests_eq p hostOnly
  rw [e]
  refine DiesKeep.onDies ?_ (fun _ => by rfl) (fun _ => lost _ _ _) _
  exact h.foldl (fun u r hu => hu.diesKeep.of_dies (.ite hu (hu.writeWord _ _)) (u.loseRequest_frame hostOnly r).2) rs
theorem DiesKeep.postLost (h : DiesKeep g s t) (events : ∀ d l, g { d with events := l } = g d) (k : FailKind) (tick : Nat) (reqs : List Nat) :
    DiesKeep g s (t.postLost k tick reqs) :=
  h.foldl (fun _ _ hu => hu.diesKeep.post events _ _ _) _
end

/-! ### Detours and bypasses (R143, R144) -/

section
variable {s : State} (h : s.Keyed)
include h

theorem State.getDie_route (k : DieKey) (hi lo v : Nat) (j : DieKey) :
    (s.route k hi lo v).getDie j = if j = k then { s.getDie k with rtrk := putBits (s.getDie k).rtrk hi lo v } else s.getDie j := by
  have key : (s.getDie k).key = k := State.getDie_key h k
  rw [State.route, State.getDie_setDie]
  exact if_congr ⟨fun e => e.symm.trans key, fun e => key.trans e.symm⟩ rfl rfl

/-- The dead die takes and sends no shards; its partner carries its track. -/
theorem State.detour_routes (p d : Nat) : ((s.detour p d).getDie ⟨p, d⟩).routing = (3, 3) ∧ ((s.detour p d).getDie ⟨p, d ^^^ 1⟩).carries = true := by
  let dead := s.route ⟨p, d⟩ 11 8 15
  let carried := dead.route ⟨p, d ^^^ 1⟩ 2 2 1
  have keyed : dead.Keyed := h.route _ _ _ _
  have keyed' : carried.Keyed := keyed.route _ _ _ _
  have rest : ∀ {β : Type} {g : Die → β}, (∀ d up p, g (Die.setPort d up p) = g d) → (∀ d, g (Die.toTransit d) = g d) →
      DiesKeep g carried (s.detour p d) := fun ports transit =>
    ((((keyed'.diesKeep.onDies (f := Die.toTransit) (fun _ => rfl) transit _).mendLink ports _ _).mendLink ports _ _).mendLink
      ports _ _).mendLink ports _ _
  constructor
  · have keep := (keyed.diesKeep.route (g := Die.routing) ⟨p, d ^^^ 1⟩ (hi := 2) (lo := 2) (v := 1)
      (fun d => Die.routing_eq.2 (route_carry d.rtrk).2)).trans
      (rest (fun _ up _ => by cases up <;> rfl) (fun d => Die.routing_eq.2 (route_transit d.rtrk).2))
    rw [keep.getDie, State.getDie_route h, if_pos rfl]
    exact Die.routing_eq.2 (route_dead _)
  · have keep := rest (g := Die.carries) (fun _ up _ => by cases up <;> rfl) (fun d => (route_transit d.rtrk).1)
    rw [keep.getDie, State.getDie_route keyed, if_pos rfl]
    exact (route_carry _).1
end

theorem State.before_congr {s t : State} (modules : t.modules = s.modules) (failed : t.ring.failedPkgs = s.ring.failedPkgs) (p : Nat) :
    t.before p = s.before p ∧ t.after p = s.after p := by
  simp only [State.before, State.after, modules, failed, and_self]
theorem State.bypassAt_pod (s : State) (p d : Nat) : (s.bypassAt p d).pod = s.pod := rfl
theorem State.switchRing_pod (s : State) (f : FailKind) : (s.switchRing f).pod = s.pod := by
  cases f with
  | moduleFail p => exact foldl_keeps State.pod (fun u d => u.bypassAt_pod p d) _ s
  | dieFail p d => exact State.onDies_pod _ _ _

/-- One track of a module that is passed by, and no other route. -/
theorem State.bypassAt_routes {s : State} (h : s.Keyed) (p d : Nat) (j : DieKey) :
    ((s.bypassAt p d).getDie j).dndst = (if j = ⟨s.before p, d⟩ then 2 else (s.getDie j).dndst)
      ∧ ((s.bypassAt p d).getDie j).upsrc = (if j = ⟨s.after p, d⟩ then 2 else (s.getDie j).upsrc) := by
  let down := s.route ⟨s.before p, d⟩ 9 8 2
  let up := down.route ⟨s.after p, d⟩ 11 10 2
  have keyed : down.Keyed := h.route _ _ _ _
  have ports : ∀ d up p, Die.routing (Die.setPort d up p) = Die.routing d := fun _ up _ => by cases up <;> rfl
  have keep : DiesKeep Die.routing up (s.bypassAt p d) := ((keyed.route _ _ _ _).diesKeep.mendLink ports _ _).mendLink ports _ _
  have same := keep.getDie j
  have first : (down.getDie j).routing = ((s.getDie j).upsrc, if j = ⟨s.before p, d⟩ then 2 else (s.getDie j).dndst) := by
    rw [State.getDie_route h]
    split
    · next e => rw [e]; exact Die.routing_eq.2 (route_down _)
    · rfl
  have second : (up.getDie j).routing = (if j = ⟨s.after p, d⟩ then 2 else (down.getDie j).upsrc, (down.getDie j).dndst) := by
    rw [State.getDie_route keyed]
    split
    · next e => rw [e]; exact Die.routing_eq.2 (route_up _)
    · rfl
  obtain ⟨upsrc, dndst⟩ := Die.routing_eq.1 (same.trans second)
  obtain ⟨upsrc', dndst'⟩ := Die.routing_eq.1 first
  exact ⟨dndst.trans dndst', by rw [upsrc, upsrc']⟩
/-- The neighbours of a dead module pass it by on every track. -/
theorem State.bypass_routes {s : State} (h : s.Keyed) (p : Nat) (l : List Nat) : ∀ d ∈ l,
    ((l.foldl (State.bypassAt p) s).getDie ⟨s.before p, d⟩).dndst = 2 ∧ ((l.foldl (State.bypassAt p) s).getDie ⟨s.after p, d⟩).upsrc = 2 := by
  induction l using List.reverseRecOn with
  | nil => exact fun d m => (List.not_mem_nil m).elim
  | append_singleton l e ih =>
    let u := l.foldl (State.bypassAt p) s
    have keyed : u.Keyed := h.foldl (fun _ _ ht => (((ht.route _ _ _ _).route _ _ _ _).mendLink _ _).mendLink _ _) l
    have pod : u.pod = s.pod := foldl_keeps State.pod (fun u d => u.bypassAt_pod p d) l s
    simp only [State.pod, Prod.mk.injEq] at pod
    obtain ⟨ring, modules, -⟩ := pod
    obtain ⟨before, after⟩ := State.before_congr modules (by rw [ring]) p
    intro d m
    obtain ⟨down, -⟩ := State.bypassAt_routes keyed p e ⟨s.before p, d⟩
    obtain ⟨-, up⟩ := State.bypassAt_routes keyed p e ⟨s.after p, d⟩
    rw [List.foldl_append, List.foldl_cons, List.foldl_nil, down, up, before, after]
    rcases List.mem_append.1 m with m | m
    · obtain ⟨down, up⟩ := ih d m
      exact ⟨by split <;> [rfl; exact down], by split <;> [rfl; exact up]⟩
    · rw [List.mem_singleton.1 m]
      exact ⟨if_pos rfl, if_pos rfl⟩

/-! ### The repair tick, stage by stage -/

/-- The dies immediately below a failure. -/
def State.belowFailure (s : State) : FailKind → List DieKey
  | .dieFail p d => [⟨s.after p, d⟩]
  | .moduleFail p => (List.range 8).map (fun d => ⟨s.after p, d⟩)

section
variable (s : State) (r : Repair)

/-- The failure is known, and what was on its way to it is given up. -/
def State.cutOff : State :=
  let u := (s.belowFailure r.kind).foldl (fun s k => s.dropSends k r.kind r.tick) s
  { u with ring := { u.ring.fail r.kind with repair := none, lost := u.ring.lost ++ u.lostSegments r.kind } }
/-- The routes are switched, and the parts of shards below the failure dropped. -/
def State.switched : State := ((s.cutOff r).switchRing r.kind).onDies (s.belowFailure r.kind) Die.dropPart
/-- The dies have their new dwells. -/
def State.redwelt : State := (s.switched r).setDwells ((s.switched r).ring.pace.paced (8 * r.tick)) r.dwells
/-- A die has its new nominal residency, and no repair to come. -/
def Die.mended (nom : Nat) (d : Die) : Die := { d with repair := none, carcfg := putBits d.carcfg 11 0 nom }
/-- So has every die. -/
def State.mended : State := { s.redwelt r with dies := (s.redwelt r).dies.map (fun e => (e.1, e.2.mended (s.redwelt r).newNom)) }
/-- The requests of the module are lost, and events tell of them. -/
def State.repairedBy : State :=
  ((s.mended r).loseRequests r.kind.pkg (r.kind.code == 1)).1.postLost r.kind r.tick ((s.mended r).loseRequests r.kind.pkg (r.kind.code == 1)).2

variable {s r}
theorem exec_repairTick_repairs (announced : s.ring.repair = some r) (due : r.tick ≤ s.tick) : exec .repairTick s = .next (s.repairedBy r) := by
  rw [exec_repairTick, execRepairTick]
  simp only [announced]
  exact (if_neg (Nat.not_lt.2 due)).trans (by rfl)

variable (s r)
theorem State.dropSends_pod (k : DieKey) (f : FailKind) (tick : Nat) : (s.dropSends k f tick).pod = s.pod :=
  foldl_keeps State.pod (fun u _ => (State.post_pod _ _ _ _).trans (u.updRun_pod _ _ _)) _ _
/-- Of the ring the repair changes what has failed, what is lost, and that a repair is to come. -/
theorem State.cutOff_pod : ∃ l, (s.cutOff r).pod = ({ s.ring.fail r.kind with repair := none, lost := l }, s.modules, s.bridge) := by
  have kept := foldl_keeps State.pod (fun u k => u.dropSends_pod k r.kind r.tick) (s.belowFailure r.kind) s
  simp only [State.pod, Prod.mk.injEq] at kept
  obtain ⟨ring, modules, bridge⟩ := kept
  refine ⟨(s.cutOff r).ring.lost, ?_⟩
  simp only [State.pod, State.cutOff, ring, modules, bridge]
theorem State.redwelt_pod : (s.redwelt r).pod = (s.cutOff r).pod :=
  (State.setDwells_pod _ _ _).trans ((State.onDies_pod _ _ _).trans (State.switchRing_pod _ _))
theorem State.repairedBy_pod : (s.repairedBy r).pod = (s.redwelt r).pod :=
  (State.postLost_pod _ _ _ _).trans (State.loseRequests_pod _ _ _)

variable {s} (h : s.Keyed)
include h

theorem State.Keyed.cutOff : (s.cutOff r).Keyed := State.Keyed.foldl h (fun _ _ ht => ht.dropSends _ _ _) _
theorem State.Keyed.switched : (s.switched r).Keyed := State.Keyed.foldl ((h.cutOff r).switchRing r.kind) (fun _ _ ht => ht.setDie _) _
theorem State.Keyed.redwelt : (s.redwelt r).Keyed := (h.switched r).setDwells _ _

section
variable {β : Type} {g : Die → β}

/-- From the repair's new residency on. -/
theorem State.redwelt_keep (residency : ∀ d n, g (Die.mended n d) = g d) (lost : ∀ d n r, g { d with need := n, reqs := r } = g d)
    (events : ∀ d l, g { d with events := l } = g d) : DiesKeep g (s.redwelt r) (s.repairedBy r) :=
  have mended : DiesKeep g (s.redwelt r) (s.mended r) :=
    (h.redwelt r).diesKeep.mapDies (f := Die.mended (s.redwelt r).newNom) (fun _ => rfl) (fun d => residency d _)
  (mended.loseRequests lost r.kind.pkg (r.kind.code == 1)).postLost events r.kind r.tick _
/-- From the switch of the routes on. -/
theorem State.switchRing_keep (parts : ∀ d, g (Die.dropPart d) = g d) (dwells : ∀ d r w, g { d with rpace := r, dwellWas := w } = g d)
    (residency : ∀ d n, g (Die.mended n d) = g d) (lost : ∀ d n r, g { d with need := n, reqs := r } = g d)
    (events : ∀ d l, g { d with events := l } = g d) : DiesKeep g ((s.cutOff r).switchRing r.kind) (s.repairedBy r) :=
  ((((h.cutOff r).switchRing r.kind).diesKeep.onDies (f := Die.dropPart) (fun _ => rfl) parts _).setDwells dwells _ _).trans
    (State.redwelt_keep r h residency lost events)
/-- Up to the loss of requests. -/
theorem State.mended_keep (port : ∀ d u, g { d with up := u } = g d) (events : ∀ d l, g { d with events := l } = g d)
    (route : ∀ d r, g { d with rtrk := r } = g d) (ports : ∀ d up p, g (Die.setPort d up p) = g d)
    (shards : ∀ d x y, g { d with shards := x, through := y } = g d) (dwells : ∀ d r w, g { d with rpace := r, dwellWas := w } = g d)
    (residency : ∀ d n, g (Die.mended n d) = g d) : DiesKeep g s (s.mended r) := by
  have dropped := h.diesKeep.foldl (g := g) (fun u k hu => hu.diesKeep.dropSends port events k r.kind r.tick) (s.belowFailure r.kind)
  have cut : DiesKeep g s (s.cutOff r) := dropped.of_dies dropped.keyed rfl
  have parts : ∀ d, g (Die.dropPart d) = g d := fun d => shards d _ d.through
  exact (((cut.switchRing route ports shards r.kind).onDies (f := Die.dropPart) (fun _ => rfl) parts _).setDwells dwells _ _).mapDies
    (f := Die.mended (s.redwelt r).newNom) (fun _ => rfl) (fun d => residency d _)
end

/-- After a detour (R143). -/
theorem State.repairedBy_detour {p d : Nat} (kind : r.kind = .dieFail p d) :
    ((s.repairedBy r).getDie ⟨p, d⟩).routing = (3, 3) ∧ ((s.repairedBy r).getDie ⟨p, d ^^^ 1⟩).carries = true := by
  have routes := State.detour_routes ((h.cutOff r).setDie { (s.cutOff r).getDie ⟨p, d⟩ with shards := [], through := [] }) p d
  rw [← State.switchRing_die, ← kind] at routes
  have keep := State.switchRing_keep (g := fun d => (d.routing, d.carries)) r h (fun _ => rfl) (fun _ _ _ => rfl) (fun _ _ => rfl)
    (fun _ _ _ => rfl) (fun _ _ => rfl)
  have dead := keep.getDie ⟨p, d⟩
  have partner := keep.getDie ⟨p, d ^^^ 1⟩
  simp only [Prod.mk.injEq] at dead partner
  exact ⟨dead.1.trans routes.1, partner.2.trans routes.2⟩
/-- After a bypass (R144). -/
theorem State.repairedBy_bypass {p e : Nat} (kind : r.kind = .moduleFail p) (lt : e < 8) :
    let u : State := { s with ring := s.ring.fail r.kind }
    ((s.repairedBy r).getDie ⟨u.before p, e⟩).dndst = 2 ∧ ((s.repairedBy r).getDie ⟨u.after p, e⟩).upsrc = 2 := by
  intro u
  obtain ⟨l, pod⟩ := s.cutOff_pod r
  simp only [State.pod, Prod.mk.injEq] at pod
  obtain ⟨ring, modules, -⟩ := pod
  obtain ⟨before, after⟩ := State.before_congr (s := u) (t := s.cutOff r) modules (by rw [ring]) p
  have routes := State.bypass_routes (h.cutOff r) p (List.range 8) e (List.mem_range.2 lt)
  rw [← State.switchRing_module, ← kind, before, after] at routes
  have keep := State.switchRing_keep (g := Die.routing) r h (fun _ => rfl) (fun _ _ _ => rfl) (fun _ _ => rfl) (fun _ _ _ => rfl) (fun _ _ => rfl)
  obtain ⟨-, dndst⟩ := Die.routing_eq.1 (keep.getDie ⟨u.before p, e⟩)
  obtain ⟨upsrc, -⟩ := Die.routing_eq.1 (keep.getDie ⟨u.after p, e⟩)
  exact ⟨dndst.trans routes.1, upsrc.trans routes.2⟩
/-- The dies take the dwells that were announced (R147). -/
theorem State.repairedBy_dwell (once : (r.dwells.map (·.1)).Nodup) {x : DieKey × BitVec 32} (m : x ∈ r.dwells) :
    ((s.repairedBy r).getDie x.1).dwell = x.2.toNat := by
  have keep := State.redwelt_keep (g := Die.dwell) r h (fun _ _ => rfl) (fun _ _ _ => rfl) (fun _ _ => rfl)
  rw [keep.getDie]
  exact State.dwell_setDwells (h.switched r) _ m (fun e me same => congrArg Prod.snd (List.inj_on_of_nodup_map once me m same))
/-- They take the nominal residency of the ring that is left (R147). -/
theorem State.repairedBy_nom {e : DieKey} (held : (aget s.dies e).isSome = true) :
    ((s.repairedBy r).getDie e).nom = (s.repairedBy r).newNom % 2 ^ 12 := by
  have late := State.redwelt_keep (g := fun d => (d.seg, d.fps)) r h (fun _ _ => rfl) (fun _ _ _ => rfl) (fun _ _ => rfl)
  have slots := late.getDie ⟨s.bridge, 0⟩
  simp only [Prod.mk.injEq] at slots
  have nom : (s.repairedBy r).newNom = (s.redwelt r).newNom := by
    have pod := s.repairedBy_pod r
    obtain ⟨l, cut⟩ := s.cutOff_pod r
    have early := (s.redwelt_pod r).trans cut
    simp only [State.pod, Prod.mk.injEq] at pod early
    obtain ⟨ring, modules, bridge⟩ := pod
    obtain ⟨-, -, bridge'⟩ := early
    simp only [State.newNom, State.transits, ring, modules, bridge, bridge', slots.1, slots.2]
  have fields : DiesKeep (fun _ => ()) s (s.mended r) := State.mended_keep r h (fun _ _ => rfl) (fun _ _ => rfl) (fun _ _ => rfl) (fun _ _ _ => rfl)
    (fun _ _ _ => rfl) (fun _ _ _ => rfl) (fun _ _ => rfl)
  have lost : DiesKeep Die.nom (s.mended r) (s.repairedBy r) :=
    (fields.keyed.diesKeep.loseRequests (fun _ _ _ => rfl) _ _).postLost (fun _ _ => rfl) _ _ _
  have there := fields.held e held
  rw [lost.getDie, nom]
  rw [State.mended, aget_map_snd, Option.isSome_map] at there
  obtain ⟨d, at_⟩ := Option.isSome_iff_exists.1 there
  rw [State.mended, State.getDie_mapDies, at_]
  exact bits_putBits_nom _ _
/-- The requests of the failed module are lost (R146). -/
theorem State.repairedBy_reqs {e : Nat} (lt : e < 8) : ((s.repairedBy r).getDie ⟨r.kind.pkg, e⟩).reqs
    = (s.getDie ⟨r.kind.pkg, e⟩).reqs.map (fun q => { q with state := 2 }) := by
  have early : DiesKeep Die.reqs s (s.mended r) := State.mended_keep r h (fun _ _ => rfl) (fun _ _ => rfl) (fun _ _ => rfl)
    (fun _ up _ => by cases up <;> rfl) (fun _ _ _ => rfl) (fun _ _ _ => rfl) (fun _ _ => rfl)
  obtain ⟨rs, loses⟩ := (s.mended r).loseRequests_eq r.kind.pkg (r.kind.code == 1)
  have written : DiesKeep Die.reqs (s.mended r) (rs.foldl (State.loseRequest (r.kind.code == 1)) (s.mended r)) :=
    early.keyed.diesKeep.foldl (fun u q hu => hu.diesKeep.of_dies (.ite hu (hu.writeWord _ _)) (u.loseRequest_frame _ q).2) rs
  have late : DiesKeep Die.reqs ((s.mended r).loseRequests r.kind.pkg (r.kind.code == 1)).1 (s.repairedBy r) :=
    (early.keyed.loseRequests _ _).diesKeep.postLost (fun _ _ => rfl) _ _ _
  rw [late.getDie, loses, State.getDie_onDies (f := Die.loses rs) written.keyed (fun _ => rfl) (nodup_dies _) (mem_dies.2 lt),
    ← early.getDie, ← written.getDie]
  rfl
end

/-! ### Restart (R144, R148, R429) -/

/-- The ring as a restart begins it: every die fresh, nothing under way, the modules that cannot be reached passed by. -/
def State.freshRing (s : State) : State :=
  { s with
    dies := s.dies.map (fun e => (e.1, e.2.restart s.linkCycle))
    ring := { s.ring with
      stalls := [], repair := none, lost := [], next := 0, failedPkgs := s.ring.failedPkgs.filter (fun p => !s.fabricUp p), failedDies := []
      downNow := false, restarting := false } }
theorem State.restartRing_eq (s : State) : ∃ c dw, s.restartRing
    = ((s.ring.failedPkgs.filter (fun p => !s.fabricUp p)).foldl (fun s p => s.switchRing (.moduleFail p)) s.freshRing).setDwells c dw := ⟨_, _, rfl⟩
theorem State.restartRing_ring (s : State) : s.restartRing.ring = s.freshRing.ring := by
  obtain ⟨c, dw, e⟩ := s.restartRing_eq
  rw [e]
  exact congrArg Prod.fst ((State.setDwells_pod _ _ _).trans (foldl_keeps State.pod (fun _ _ => State.switchRing_pod _ _) _ s.freshRing))
/-- No carousel holds a shard. -/
theorem State.restartRing_shards {s : State} (h : s.Keyed) (k : DieKey) : (s.restartRing.getDie k).shards = [] := by
  have fresh : s.freshRing.Keyed := h.mapDies (fun _ => by rfl)
  obtain ⟨c, dw, e⟩ := s.restartRing_eq
  have keep := (fresh.diesKeep.foldl (fun u p hu => hu.diesKeep.bypass (g := Die.shards) (fun _ _ => rfl) (fun _ up _ => by cases up <;> rfl) p)
    (s.ring.failedPkgs.filter (fun p => !s.fabricUp p))).setDwells (fun _ _ _ => rfl) c dw
  rw [e, keep.getDie]
  have held : s.freshRing.getDie k = ((aget s.dies k).map (Die.restart · s.linkCycle)).getD (Die.reset k) :=
    State.getDie_mapDies s (Die.restart · s.linkCycle) k
  rw [held]
  cases aget s.dies k <;> rfl
theorem exec_ringRestart_restarts {s : State} (second : s.place.n = 1) (under : s.ring.restarting = true) (retired : s.streamsRetired = true) :
    exec .ringRestart s = .next s.restartRing := by
  rw [exec_ringRestart, execRingRestart, if_pos second, under, retired]
  rfl
/-- The command is taken while the ring is down, once. -/
theorem exec_ringRestart_command {s : State} (first : s.place.n ≠ 1) (up : s.managed s.place.core.pkg = true) : exec .ringRestart s =
    .next (if s.ring.downNow && !s.ring.restarting then complete .done { s with ring := { s.ring with restarting := true } }
      else complete .refused s) := by
  rw [exec_ringRestart, execRingRestart, if_neg first, command, served_managed up]
  rfl

end Sys2Proof.Machine
end

section
/-! The ring's stalls, steps, repairs, injections and restarts together (R136 to R149, R429). -/

namespace Sys2Proof.Machine

/-- What has failed is known, whatever is to come. -/
theorem Ring.failedDies_fail {r : Ring} {f : FailKind} {p e : Nat} (kind : f = .dieFail p e) : ⟨p, e⟩ ∈ (r.fail f).failedDies := by
  subst kind
  exact List.mem_append_right _ (List.mem_singleton_self _)
theorem Ring.failedPkgs_fail {r : Ring} {f : FailKind} {p : Nat} (kind : f = .moduleFail p) : p ∈ (r.fail f).failedPkgs := by
  subst kind
  exact List.mem_append_right _ (List.mem_singleton_self _)

/-- The ring after the repair tick. -/
theorem State.repairedBy_ring (s : State) (r : Repair) : ∃ l, (s.repairedBy r).ring = { s.ring.fail r.kind with repair := none, lost := l } := by
  obtain ⟨l, cut⟩ := s.cutOff_pod r
  exact ⟨l, congrArg Prod.fst ((s.repairedBy_pod r).trans ((s.redwelt_pod r).trans cut))⟩

/-- A command that is done or refused says so in the status of its package. -/
theorem State.complete_status {s : State} (h : s.Keyed) (st : CmdStatus) : ((complete st s).getPkg s.place.core.pkg).status = st :=
  congrArg Package.status (State.getPkg_setPkg_of (s := s) (p := { s.getPkg s.place.core.pkg with status := st }) (State.getPkg_key h _))

/-- Settles O57: each event of the ring by the law of its own. -/
theorem ringStallsStepsAndRepairs : Obligations.RingStallsStepsAndRepairs := by
  unfold Obligations.RingStallsStepsAndRepairs
  intro s keyed k d
  refine ⟨?notes, ?begins, ?ends, ?steps, ?reported, ?received, ?repairs, ?injects, ?fills, ?command, ?restarts⟩
  case notes => exact fun _ announced new ahead => exec_ringStall_notes announced new ahead
  case begins =>
    exact fun ts due calm free => ⟨_, exec_ringStallBegin_begins due calm free, rfl, rfl, rfl, fun own => if_pos own, bits_putBits_high _ _⟩
  case ends =>
    intro u stalls past runs
    have run := exec_ringStallEnd_ends stalls past runs
    refine ⟨fun up down => run.trans (congrArg ok (if_neg ?_)), fun failed => run.trans (congrArg ok (if_pos ?_))⟩
    · simp only [k, d] at up down
      simp [up, down]
    · rcases failed with failed | failed <;> simp only [k, d] at failed <;> simp [failed]
  case steps =>
    intro n due
    refine ⟨_, exec_podStep_steps due, ?_, State.byte_congr (State.post_mem _ _ _ _), ?_⟩ <;> rw [State.post_ring] <;> rfl
  case reported =>
    intro f free runs true_
    refine ⟨fun mends => ⟨_, s.repairOf f, exec_repairReport_announces free runs true_ mends, ?_, rfl, rfl, rfl⟩,
      fun beyond => ⟨_, exec_repairReport_down free runs true_ beyond, ?_, ?_⟩⟩
    · rw [State.post_ring]
      rfl
    · rw [State.ringDown_ring]
    · rw [State.ringDown_ring]
  case received =>
    intro r announced new
    refine ⟨_, exec_repairAnnouncement_received announced new, fun n lt => ?_⟩
    rw [State.getDie_onDies (f := fun d => { d with repair := some r }) keyed (fun _ => rfl) (nodup_dies _) (mem_dies.2 lt)]
  case repairs =>
    intro r announced due u
    obtain ⟨l, ring⟩ := s.repairedBy_ring r
    refine ⟨_, exec_repairTick_repairs announced due, by rw [ring], fun p e kind => ?_, fun p kind => ?_,
      fun once x m => State.repairedBy_dwell r keyed once m, fun e x held => State.repairedBy_nom r keyed (by rw [held]; rfl),
      fun e lt => State.repairedBy_reqs r keyed lt⟩
    · obtain ⟨dead, carried⟩ := State.repairedBy_detour r keyed kind
      obtain ⟨upsrc, dndst⟩ := Die.routing_eq.1 dead
      exact ⟨by rw [ring]; exact Ring.failedDies_fail kind, upsrc, dndst, carried⟩
    · exact ⟨by rw [ring]; exact Ring.failedPkgs_fail kind, fun e lt => State.repairedBy_bypass r keyed kind lt⟩
  case injects =>
    intro more tag open_ runs
    obtain ⟨same, took⟩ := State.injectAll keyed (s.segment s.ring.next)
    obtain ⟨l, ring⟩ := same.ring
    refine ⟨_, exec_ringInject_enters more tag open_ runs, by rw [ring], fun e m n hole begun => ?_⟩
    obtain ⟨empty, x, held, tag, bytes, complete, formed, -, arrival, deadline⟩ := took e m n hole begun
    exact ⟨empty, x, held, tag, bytes, complete, formed, arrival, deadline⟩
  case fills =>
    intro e r lost free
    refine ⟨_, exec_reinjection_fills lost free, rfl, fun b m => ?_⟩
    obtain ⟨_, -, x, held, tag, bytes, complete, formed, reinj, -, deadline⟩ := State.reinjectAll keyed e b m
    exact ⟨x, held, tag, bytes, complete, formed, reinj, deadline⟩
  case command =>
    intro first up
    have run := exec_ringRestart_command first up
    refine ⟨fun once down => ?_, fun refused => run.trans (congrArg ok (if_neg ?_))⟩
    · rw [down, once] at run
      exact ⟨_, run, rfl, State.complete_status (s := { s with ring := { s.ring with restarting := true } }) keyed _⟩
    · rcases refused with refused | refused <;> simp [refused]
  case restarts =>
    intro second under retired
    have ring := s.restartRing_ring
    refine ⟨_, exec_ringRestart_restarts second under retired, ?_, ?_, ?_, ?_, ?_, ?_, State.restartRing_shards keyed⟩ <;> rw [ring] <;> rfl

end Sys2Proof.Machine
end

section
/-! Interruptions (R138, R395, R396, R397, R400, R405, R416, R427): the faults of the word boundary, clock steps, thermal shutdown and soft errors. -/

namespace Sys2Proof.Machine

theorem exec_safeGap (s : State) : exec .safeGap s = execSafeGap s := rfl
theorem exec_domainAbort (t : BitVec 32) (s : State) : exec (.domainAbort t) s = execDomainAbort t s := rfl
theorem exec_localClockStep (k : Fin 5) (n : Nat) (s : State) : exec (.localClockStep k n) s = execLocalClockStep k n s := rfl
theorem exec_forcedStallCycle (s : State) : exec .forcedStallCycle s = execForcedStallCycle s := rfl
theorem exec_powerLimitExceeded (s : State) : exec .powerLimitExceeded s = execPowerLimitExceeded s := rfl
theorem exec_thermalShutdown (n : Nat) (s : State) : exec (.thermalShutdown n) s = execThermalShutdown n s := rfl
theorem exec_softError (m : Fin 5) (s : State) : exec (.softError m) s = execSoftError m s := rfl

/-! ### Faults of a word boundary (R397, R400, R405) -/

/-- A fault of a running core's word boundary is taken, or waits for the vector words before it. -/
theorem State.raised_boundary {s : State} (runs : s.core.phase = .running) (f : FaultInfo) :
    (s.core.precise → s.atBoundary.raised f = takeFault f s.atBoundary)
      ∧ (s.core.vectorIdle = false → s.atBoundary.raised f = s.atBoundary.withCore { s.atBoundary.core with trap := some f }) := by
  have alive : s.atBoundary.core.failed = false := by
    rw [Core.failed, show s.atBoundary.core.phase = .running from runs]
    rfl
  exact ⟨raised_precise (s := s.atBoundary) f, raised_waits (s := s.atBoundary) f alive⟩
theorem exec_safeGap_raises {s : State} {k : Task} (task : s.core.task = some k) (runs : s.core.phase = .running) (late : k.safegap < s.core.watch) :
    exec .safeGap s = .next (s.atBoundary.raised { code := 27, engine := 4, detail := k.safegap }) := by
  rw [exec_safeGap, execSafeGap]
  simp only [task]
  exact if_pos ⟨runs, late⟩
theorem exec_domainAbort_raises {s : State} {t : BitVec 32} (runs : s.core.phase = .running) (abort : s.core.abortTid = some t) :
    exec (.domainAbort t) s = .next (s.atBoundary.raised { code := 29, engine := 4, detail := t.toNat }) := by
  rw [exec_domainAbort, execDomainAbort]
  exact if_pos ⟨runs, abort⟩

/-! ### Clock steps (R395) -/

theorem le_runPeriod (k p : Nat) : p ≤ runPeriod k p := by
  unfold runPeriod
  split <;> omega
/-- The core cycle that ends behind a time ends later. -/
theorem lt_cycleEndAfter (k t : Nat) : t < cycleEndAfter k t := by
  have := le_runPeriod k (t / 210)
  unfold cycleEndAfter
  omega
/-- A die with a local clock step, and the junction temperature that goes with it. -/
def Die.slowed (d : Die) (k n : Nat) : Die := { d with localStep := k, centi := n }
theorem exec_localClockStep_steps {s : State} {k : Fin 5} {n : Nat}
    (limit : k.val ≤ (s.getDie s.place.core.dieKey).localStep ∨ 9500 ≤ n ∨ s.place.n = 1) : exec (.localClockStep k n) s
    = .next ((s.setDie ((s.getDie s.place.core.dieKey).slowed k.val n)).post 8 ⟨s.place.core.pkg, s.place.core.die, 0⟩
        [BitVec.ofNat 64 k.val, BitVec.ofNat 64 n, 0]) := by
  rw [exec_localClockStep, execLocalClockStep]
  refine if_neg fun ⟨below, cool, power⟩ => ?_
  rcases limit with faster | hot | limited
  · exact absurd below (Nat.not_lt.2 faster)
  · exact absurd cool (Nat.not_lt.2 hot)
  · exact power limited
/-- A core that has a step to take has a delay due. -/
theorem State.delayDue_of_slow (run : Instr → State → Out State) {s : State} (slow : s.core.slow = true) : s.delayDue run = true := by
  simp only [State.delayDue, slow, Bool.true_or]

/-! ### One core after the other -/

/-- The current core is put back when another is selected: every core reads as before. -/
theorem State.getCore_select {s : State} (h : s.Keyed) (k j : CoreKey) : (s.select k).getCore j = s.getCore j := by
  unfold State.select
  split
  · rfl
  · have key : (s.getCore k).key = k := State.getCore_key h k
    change (if (s.getCore k).key = j then s.getCore k else (aget (adel (aput s.parked s.core.key s.core) k) j).getD (Core.reset j)) = s.getCore j
    rw [key, aget_adel, aget_aput]
    by_cases e : k = j
    · rw [if_pos e, e]
    · rw [if_neg e, if_neg (Ne.symm e), State.getCore]
      by_cases c : s.core.key = j
      · rw [if_pos c.symm, if_pos c]
        rfl
      · rw [if_neg (Ne.symm c), if_neg c]
theorem State.select_core (s : State) (k : CoreKey) : (s.select k).core = s.getCore k := by
  unfold State.select
  split
  · next e => rw [← e, State.getCore_core]
  · rfl
theorem State.select_dies (s : State) (k : CoreKey) : (s.select k).dies = s.dies := by
  unfold State.select
  split <;> rfl
theorem State.getCore_atCore {s : State} (h : s.Keyed) (k j : CoreKey) {f : State → State} (hf : ∀ t : State, t.Keyed → (f t).Keyed) :
    (s.atCore k f).getCore j = (f (s.select k)).getCore j := State.getCore_select (hf _ (h.select k)) _ _

/-! ### Thermal shutdown (R396) -/

/-- What of a core says whether a fault ends its task at once. -/
def Core.standing (c : Core) : Phase × Bool := (c.phase, c.vectorIdle)
/-- What a shutdown sets of a die. -/
def Die.shut (d : Die) : Bool × List Saved := (d.halted, d.saved)

/-- What the end of the current core's task leaves of memory, of the dies and of the other cores. -/
structure Ends (s t : State) : Prop where
  dies : DiesKeep Die.shut s t
  mem : t.mem = s.mem
  key : t.core.key = s.core.key
  others : ∀ j, (aget t.parked j).map Core.standing = (aget s.parked j).map Core.standing

section
variable {s t : State}

theorem State.Keyed.ends (h : s.Keyed) : Ends s s := ⟨h.diesKeep, rfl, rfl, fun _ => rfl⟩
theorem Ends.withCore (h : Ends s t) {c : Core} (key : c.key = t.core.key) : Ends s (t.withCore c) :=
  ⟨h.dies.of_dies (h.dies.keyed.withCore key) rfl, h.mem, key.trans h.key, h.others⟩
theorem Ends.setDie (h : Ends s t) {k : DieKey} {d : Die} (key : d.key = (t.getDie k).key) (same : d.shut = (t.getDie k).shut) :
    Ends s (t.setDie d) := ⟨h.dies.setDie key same, h.mem, h.key, h.others⟩
theorem Ends.getCore (h : Ends s t) {j : CoreKey} (other : j ≠ s.core.key) : (t.getCore j).standing = (s.getCore j).standing := by
  rw [State.getCore, if_neg (by rw [h.key]; exact other.symm), State.getCore, if_neg other.symm,
    ← Option.getD_map Core.standing, ← Option.getD_map Core.standing, h.others j]

/-- A core that is marked for the abort of its domain, where it belongs to the domain of core a. -/
def Core.marked (a c : Core) : Core := if sameDomain a c && c.abortTid == none then { c with abortTid := some a.tid } else c
theorem Core.marked_standing (a c : Core) : (a.marked c).standing = c.standing := by
  unfold Core.marked
  split <;> rfl
theorem State.abortDomain_parked (s : State) : s.abortDomain.parked = s.parked.map (fun e => (e.1, s.core.marked e.2)) := rfl
/-- The abort of a domain marks its members; their tasks go on to their word boundaries. -/
theorem Ends.abortDomain (h : Ends s t) : Ends s t.abortDomain := by
  refine ⟨h.dies.of_dies h.dies.keyed.abortDomain rfl, h.mem, h.key, fun j => ?_⟩
  rw [← h.others j, State.abortDomain_parked, aget_map_snd, Option.map_map]
  exact congrArg (fun f => (aget t.parked j).map f) (funext (Core.marked_standing t.core))
theorem Ends.dropPin (h : Ends s t) : Ends s t.dropPin := by
  have freed : ∀ x r, Ends s (t.setDie { t.ownDie with shards := x, resv := r }) := fun _ _ => h.setDie (k := t.core.key.dieKey) rfl rfl
  unfold State.dropPin
  split
  · dsimp only
    split
    · exact (freed _ _).withCore rfl
    · exact h
  · exact h
theorem Ends.discardLog (h : Ends s t) : Ends s t.discardLog := by
  have cleared : Ends s (t.withCore { t.core with log := [] }) := h.withCore rfl
  have closed : ∀ l, Ends s ((t.withCore { t.core with log := [] }).setDie { t.ownDie with streams := l }) :=
    fun _ => cleared.setDie (k := t.core.key.dieKey) rfl rfl
  unfold State.discardLog
  split
  · split
    · exact h
    · dsimp only
      split
      · exact closed _
      · exact ⟨cleared.dies.of_dies cleared.dies.keyed rfl, cleared.mem, cleared.key, cleared.others⟩
  · exact h
theorem Ends.endByFault (h : Ends s t) : Ends s t.endByFault := h.abortDomain.dropPin.discardLog.withCore rfl
theorem Ends.ite {p : Prop} [Decidable p] {a b : State} (ha : Ends s a) (hb : Ends s b) : Ends s (if p then a else b) := by
  split
  · exact ha
  · exact hb
theorem Ends.takeFault (h : Ends s t) (f : FaultInfo) : Ends s (takeFault f t) := .ite (Ends.endByFault (h.withCore rfl)) (h.withCore rfl)
theorem Ends.raised (h : Ends s t) (f : FaultInfo) : Ends s (t.raised f) := .ite h (.ite (h.takeFault f) (h.withCore rfl))
theorem State.Keyed.shutTask_ends (h : s.Keyed) : Ends s s.shutTask := by
  have at_ : Ends s s.atBoundary := h.ends.withCore rfl
  unfold State.shutTask
  split
  · exact at_.raised _
  · exact at_.raised _
  · exact h.ends

/-- A running task with no vector word under way ends. -/
theorem State.shutTask_phase (standing : s.core.standing = (.running, true)) : s.shutTask.core.phase = .ending .fault := by
  obtain ⟨runs, idle_⟩ := Prod.mk.inj standing
  have precise : s.atBoundary.core.precise := ⟨idle_, fun e => Phase.noConfusion (e.symm.trans runs)⟩
  have shut : s.shutTask = s.atBoundary.raised { code := 31, engine := 4 } := by
    unfold State.shutTask
    rw [runs]
  rw [shut, raised_precise _ precise, takeFault_ends (.inr rfl) (.inr rfl)]
  rfl

/-- The task of one core ends. -/
theorem State.Keyed.shutCore_ends (h : s.Keyed) (k : CoreKey) : let t := s.atCore k State.shutTask
    t.Keyed ∧ t.mem = s.mem ∧ DiesKeep Die.shut s t ∧ ((s.getCore k).standing = (.running, true) → (t.getCore k).phase = .ending .fault)
      ∧ ∀ j, j ≠ k → (t.getCore j).standing = (s.getCore j).standing := by
  intro t
  have keyed : t.Keyed := h.atCore k (fun _ hu => hu.shutTask)
  have ends := (h.select k).shutTask_ends
  have core : (s.select k).core.key = k := by rw [State.select_core, State.getCore_key h]
  have read : ∀ j, t.getCore j = (s.select k).shutTask.getCore j := fun j => State.getCore_atCore h k j (fun _ hu => hu.shutTask)
  refine ⟨keyed, ((State.select_mem _ _).trans ends.mem).trans (State.select_mem _ _), ?_, fun standing => ?_, fun j other => ?_⟩
  · have selected : DiesKeep Die.shut s (s.select k) := h.diesKeep.of_dies (h.select k) (State.select_dies _ _)
    exact (selected.trans ends.dies).of_dies keyed (State.select_dies _ _)
  · rw [read, show (s.select k).shutTask.getCore k = (s.select k).shutTask.core from if_pos (ends.key.trans core)]
    exact State.shutTask_phase (by rw [State.select_core]; exact standing)
  · rw [read, ends.getCore (by rw [core]; exact other), State.getCore_select h]
end

/-- The saved tasks of a die that is stopped are lost: no core is touched, no die and no memory. -/
theorem State.loseSaved_frame (code : Nat) (s : State) (m : Saved) :
    ((s.loseSaved code m).core, (s.loseSaved code m).parked, (s.loseSaved code m).mem) = (s.core, s.parked, s.mem) := by
  unfold State.loseSaved
  split
  · dsimp only
    split <;> simp
  · rfl
theorem DiesKeep.loseSaved {β : Type} {g : Die → β} {s t : State} (h : DiesKeep g s t) (events : ∀ d l, g { d with events := l } = g d) (code : Nat)
    (m : Saved) : DiesKeep g s (t.loseSaved code m) := by
  unfold State.loseSaved
  split
  · have posted := fun w => h.post events 1 m.core.key w
    dsimp only
    split
    · exact (posted _).of_dies (posted _).keyed rfl
    · exact posted _
  · exact h

/-- A die that a shutdown stops. -/
def Die.stopAt (d : Die) (n : Nat) : Die := { d with halted := true, centi := n, saved := [] }
/-- A die of which the saved tasks are lost. -/
def State.saveless (s : State) (n : Nat) : State :=
  let d := s.getDie s.place.core.dieKey
  d.saved.foldl (State.loseSaved 31) (s.setDie (d.stopAt n))
/-- The cores of the die at place that have a task. -/
def State.busy (s : State) (k : DieKey) : List CoreKey := (dieCores k).filter (fun k => (s.getCore k).task.isSome)
theorem CoreKey.mem_dieCores {k : DieKey} {j : CoreKey} (die : j.dieKey = k) (lt : j.core < 96) : j ∈ dieCores k := by
  subst die
  exact List.mem_map.2 ⟨j.core, List.mem_range.2 lt, rfl⟩
theorem nodup_dieCores (k : DieKey) : (dieCores k).Nodup := List.nodup_range.map (fun a b e => by injection e)

/-- A die that is stopped, its tasks ended. -/
def State.shutDown (s : State) (n : Nat) : State :=
  ((s.saveless n).busy s.place.core.dieKey).foldl (fun s k => s.atCore k State.shutTask) (s.saveless n)
theorem exec_thermalShutdown_stops {s : State} {n : Nat} (hot : 11000 ≤ n) (slow : max (s.getDie s.place.core.dieKey).localStep s.podStep = 4)
    (runs : (s.getDie s.place.core.dieKey).halted = false) : exec (.thermalShutdown n) s
    = .next ((s.shutDown n).post 8 ⟨s.place.core.pkg, s.place.core.die, 0⟩ [4, BitVec.ofNat 64 n, 1]) := by
  rw [exec_thermalShutdown, execThermalShutdown]
  exact if_pos ⟨hot, slow, runs⟩

section
variable {s : State} (h : s.Keyed) (n : Nat)
include h

theorem State.saveless_spec : (s.saveless n).Keyed ∧ (s.saveless n).mem = s.mem ∧ (∀ j, (s.saveless n).getCore j = s.getCore j)
    ∧ ((s.saveless n).getDie s.place.core.dieKey).shut = (true, []) := by
  let d := s.getDie s.place.core.dieKey
  let s' := s.setDie (d.stopAt n)
  have keyed : s'.Keyed := h.setDie _
  have keep : DiesKeep Die.shut s' (s.saveless n) := keyed.diesKeep.foldl (fun u m hu => hu.diesKeep.loseSaved (fun _ _ => rfl) 31 m) d.saved
  have frame := foldl_keeps (fun u : State => (u.core, u.parked, u.mem)) (fun u m => u.loseSaved_frame 31 m) d.saved s'
  simp only [Prod.mk.injEq] at frame
  obtain ⟨core, parked, mem⟩ := frame
  refine ⟨keep.keyed, mem, fun j => (State.getCore_congr core parked j).trans rfl, ?_⟩
  exact (keep.getDie _).trans (congrArg Die.shut (State.getDie_setDie_of (s := s) (d := d.stopAt n) (State.getDie_key h _)))

/-- The die is stopped, its running tasks end, and memory stands. -/
theorem State.shutDown_spec : (s.shutDown n).Keyed ∧ (s.shutDown n).mem = s.mem ∧ ((s.shutDown n).getDie s.place.core.dieKey).shut = (true, [])
    ∧ ∀ j : CoreKey, j.dieKey = s.place.core.dieKey → j.core < 96 → (s.getCore j).task.isSome = true → (s.getCore j).standing = (.running, true) →
      ((s.shutDown n).getCore j).phase = .ending .fault := by
  obtain ⟨keyed, mem, cores, shut⟩ := State.saveless_spec h n
  obtain ⟨⟨keyed', mem', keep⟩, ended, -⟩ := foldl_each (get := fun u k => (u.getCore k).standing) (f := fun s k => s.atCore k State.shutTask)
    (I := fun u => u.Keyed ∧ u.mem = s.mem ∧ DiesKeep Die.shut (s.saveless n) u)
    (P := fun _ a b => a = (.running, true) → b.1 = .ending .fault)
    (fun u k ⟨hu, memory, dies⟩ => by
      obtain ⟨hu', memory', dies', here, others⟩ := hu.shutCore_ends k
      exact ⟨⟨hu', memory'.trans memory, dies.trans dies'⟩, here, others⟩)
    ((nodup_dieCores s.place.core.dieKey).filter (fun k => ((s.saveless n).getCore k).task.isSome)) ⟨keyed, mem, keyed.diesKeep⟩
  refine ⟨keyed', mem', (keep.getDie _).trans shut, fun j die lt task standing => ?_⟩
  refine ended j (List.mem_filter.2 ⟨CoreKey.mem_dieCores die lt, ?_⟩) ?_ <;> rw [cores]
  · exact task
  · exact standing
end

/-! ### Soft errors (R416) -/

/-- Is the event of a corrected error in space m due? -/
def State.softDue (s : State) (d : Die) (m : Nat) : Bool :=
  match d.soft.find? (fun e => e.1 = m) with
  | some e => decide (e.2.2 + 2 ^ 30 ≤ s.tick)
  | none => true
/-- A soft error is counted; the event that carries the count is posted at most once in 2^30 ticks. -/
theorem exec_softError_counts (m : Fin 5) (s : State) : let d := s.getDie s.place.core.dieKey
    ∃ l t, exec (.softError m) s = .next t ∧ (t = s.setDie { d with soft := l } ∨ ∃ k w, t = (s.setDie { d with soft := l }).post 7 k w)
      ∧ (d.soft = [] → l = [(m.val, 0, s.tick)])
      ∧ ∀ n a, d.soft = [(m.val, n, a)] → s.tick < a + 2 ^ 30 → l = [(m.val, n + 1, a)] := by
  intro d
  rw [exec_softError, execSoftError]
  by_cases due : s.softDue d m.val = true
  · refine ⟨_, _, if_pos due, .inr ⟨_, _, rfl⟩, fun none_ => by simp [d, none_], fun n a one before => ?_⟩
    rw [State.softDue, one] at due
    simp at due
    omega
  · refine ⟨_, _, if_neg due, .inl rfl, fun none_ => ?_, fun n a one _ => by simp [d, one]⟩
    rw [State.softDue, none_] at due
    exact absurd rfl due

/-! ### The obligation -/

/-- Settles O58: each interruption by the law of its own; the thermal shutdown by `State.shutDown_spec`. -/
theorem interruptionsTakeEffect : Obligations.InterruptionsTakeEffect := by
  unfold Obligations.InterruptionsTakeEffect
  intro s c d taken
  refine ⟨?gap, ?abort, ?refused, ?stepped, ?forced, ?stall, ?power, ?shutdown, ?soft⟩
  case gap =>
    intro k task runs late
    have boundary := State.raised_boundary runs { code := 27, engine := 4, detail := k.safegap }
    have raises := exec_safeGap_raises task runs late
    exact ⟨fun precise => raises.trans (congrArg ok (boundary.1 precise)), fun waits => raises.trans (congrArg ok (boundary.2 waits))⟩
  case abort =>
    intro t runs abort
    have boundary := State.raised_boundary runs { code := 29, engine := 4, detail := t.toNat }
    have raises := exec_domainAbort_raises runs abort
    exact ⟨fun precise => raises.trans (congrArg ok (boundary.1 precise)), fun waits => raises.trans (congrArg ok (boundary.2 waits))⟩
  case refused =>
    intro k n below cool power
    rw [exec_localClockStep, execLocalClockStep]
    exact if_pos ⟨below, cool, power⟩
  case stepped =>
    intro k n keyed limit
    have set : (s.setDie (d.slowed k.val n)).Keyed := keyed.setDie _
    have keep := set.diesKeep.post (g := fun d => (d.localStep, d.centi)) (fun _ _ => rfl) 8 ⟨c.pkg, c.die, 0⟩
      [BitVec.ofNat 64 k.val, BitVec.ofNat 64 n, 0]
    have die : (s.setDie (d.slowed k.val n)).getDie c.dieKey = d.slowed k.val n :=
      State.getDie_setDie_of (s := s) (d := d.slowed k.val n) (State.getDie_key keyed _)
    obtain ⟨step, temperature⟩ := Prod.mk.inj ((keep.getDie c.dieKey).trans (congrArg (fun d => (d.localStep, d.centi)) die))
    exact ⟨_, exec_localClockStep_steps limit, step, temperature, State.post_core _ _ _ _, State.byte_congr (State.post_mem _ _ _ _)⟩
  case forced =>
    intro runs fixed behind long steady
    refine ⟨?_, State.delayDue_of_slow _ rfl⟩
    rw [exec_forcedStallCycle, execForcedStallCycle]
    exact if_pos ⟨runs, fixed, behind, long, steady⟩
  case stall =>
    exact ⟨rfl, rfl, lt_cycleEndAfter _ _, fun none_ => congrArg (Option.getD · _) none_⟩
  case power =>
    intro p
    rw [exec_powerLimitExceeded, execPowerLimitExceeded]
    exact ⟨fun within => if_pos within, fun beyond => if_neg (Nat.not_le.2 beyond)⟩
  case shutdown =>
    intro n hot slow runs keyed
    obtain ⟨keyed', mem, shut, ended⟩ := State.shutDown_spec keyed n
    refine ⟨_, exec_thermalShutdown_stops hot slow runs, ?_⟩
    have keep := keyed'.diesKeep.post (g := Die.shut) (fun _ _ => rfl) 8 ⟨c.pkg, c.die, 0⟩ [4, BitVec.ofNat 64 n, 1]
    obtain ⟨halted, saved⟩ := Prod.mk.inj ((keep.getDie c.dieKey).trans shut)
    refine ⟨halted, saved, State.byte_congr ((State.post_mem _ _ _ _).trans mem), fun j die lt task phase idle_ => ?_⟩
    rw [State.getCore_congr (State.post_core _ _ _ _) (State.post_parked _ _ _ _)]
    exact ended j die lt task (Prod.ext phase idle_)
  case soft =>
    intro m
    obtain ⟨l, t, run, counted, first, next⟩ := exec_softError_counts m s
    have read : s.Keyed → (t.getDie c.dieKey).soft = l := fun keyed => by
      have set : ((s.setDie { d with soft := l }).getDie c.dieKey).soft = l :=
        congrArg Die.soft (State.getDie_setDie_of (s := s) (d := { d with soft := l }) (State.getDie_key keyed _))
      rcases counted with rfl | ⟨k, w, rfl⟩
      · exact set
      · exact (((keyed.setDie _).diesKeep.post (g := Die.soft) (fun _ _ => rfl) 7 k w).getDie _).trans set
    have frame : t.mem = s.mem ∧ t.core = s.core := by
      rcases counted with rfl | ⟨k, w, rfl⟩
      · exact ⟨rfl, rfl⟩
      · exact ⟨State.post_mem _ _ _ _, State.post_core _ _ _ _⟩
    exact ⟨t, run, State.byte_congr frame.1, frame.2, fun keyed none_ => (read keyed).trans (first none_),
      fun n a keyed one before => (read keyed).trans (next n a one before)⟩

end Sys2Proof.Machine
end

section
/-! Instruction words (Tables 7.1 to 7.5, R150 to R154): what a row of the decoder accepts, and that the decoder and the encoder are inverse to
each other. The codes of a field, the rows of a table and the shared fields of a word come first; each part of the decoder is then read once in
either direction. O1, O2, O3. -/

namespace Sys2Proof

/-! ### Codes of fields -/

@[simp] theorem elemTy?_eq_some {n : Nat} {ty : ElemTy} : elemTy? n = some ty ↔ ty.isVec = true ∧ n = ty.code := by
  constructor
  · intro h
    unfold elemTy? at h
    split at h <;> cases h <;> exact ⟨rfl, rfl⟩
  · rintro ⟨v, rfl⟩
    cases ty with
    | fp64 => cases v
    | _ => rfl
@[simp] theorem rmSel?_eq_some {n : Nat} {rm : RmSel} : rmSel? n = some rm ↔ n = rmCode rm := by
  constructor
  · intro h
    unfold rmSel? at h
    split at h <;> cases h <;> rfl
  · rintro rfl
    rcases rm with _ | _ | _ | _ | _ <;> rfl
@[simp] theorem memSize?_eq_some {n : Nat} {sz : MemSize} : memSize? n = some sz ↔ n = sz.code := by
  constructor
  · intro h
    unfold memSize? at h
    split at h <;> cases h <;> rfl
  · rintro rfl
    cases sz <;> rfl
@[simp] theorem scope?_eq_some {n : Nat} {sc : Scope} : scope? n = some sc ↔ n = sc.code := by
  constructor
  · intro h
    unfold scope? at h
    split at h <;> cases h <;> rfl
  · rintro rfl
    cases sc <;> rfl
@[simp] theorem below?_eq_some {n k : Nat} [NeZero n] {c : Fin n} : below? n k = some c ↔ k = c.val := by
  unfold below?
  split
  next lt => rw [Option.some.injEq, Fin.ext_iff, Fin.val_ofNat, Nat.mod_eq_of_lt lt]
  next ge => exact ⟨nofun, fun e => absurd (e ▸ c.isLt) ge⟩

/-- A code as a number of its range, so that arithmetic knows its bound. -/
def ElemTy.codeFin (ty : ElemTy) : Fin 12 := ⟨ty.code, by cases ty <;> decide⟩
/-- The code of a rounding-mode field as a number of 3 bits. -/
def rmFin (rm : RmSel) : Fin 8 := ⟨rmCode rm, by rcases rm with _ | _ | _ | _ | _ <;> decide⟩
/-- The code of an access size as a number of its range. -/
def MemSize.codeFin (sz : MemSize) : Fin 7 := ⟨sz.code, by cases sz <;> decide⟩
/-- The code of a barrier scope as a number of its range. -/
def Scope.codeFin (sc : Scope) : Fin 6 := ⟨sc.code, by cases sc <;> decide⟩
/-- A Boolean as a number of one bit. -/
def bitFin (b : Bool) : Fin 2 := ⟨bit b, by cases b <;> decide⟩
@[simp] theorem ElemTy.code_eq (ty : ElemTy) : ty.code = ty.codeFin.val := rfl
@[simp] theorem rmCode_eq (rm : RmSel) : rmCode rm = (rmFin rm).val := rfl
@[simp] theorem MemSize.code_eq (sz : MemSize) : sz.code = sz.codeFin.val := rfl
@[simp] theorem Scope.code_eq (sc : Scope) : sc.code = sc.codeFin.val := rfl

@[simp] theorem bit_eq (b : Bool) : bit b = (bitFin b).val := rfl

/-- A test of a field for one value, as a number: the distance of the two, taken from 1. -/
@[simp] theorem bitFin_beq (n m : Nat) : (bitFin (n == m)).val = 1 - (n - m + (m - n)) := by
  by_cases h : n = m
  · simp [h, bitFin, bit]
  · rw [beq_eq_false_iff_ne.2 h]
    exact (by omega : 0 = 1 - (n - m + (m - n)))
@[simp] theorem beq_eq_iff {n m : Nat} {b : Bool} : (n == m) = b ↔ 1 - (n - m + (m - n)) = (bitFin b).val := by
  rw [← bitFin_beq]
  cases n == m <;> cases b <;> simp [bitFin, bit]

/-! ### Register fields -/

@[simp] theorem okG_iff {n : Nat} : okG n = true ↔ n ≤ 32 := decide_eq_true_iff
@[simp] theorem okB_iff {k n : Nat} : okB k n = true ↔ n < k := decide_eq_true_iff
@[simp] theorem toG_val (n : Nat) : (toG n).val = n % 33 := rfl
@[simp] theorem to8_val (n : Nat) : (to8 n).val = n % 8 := rfl
@[simp] theorem toV_val (n : Nat) : (toV n).val = n % 32 := rfl
@[simp] theorem toCls_val (n : Nat) : (toCls n).val = n % 16 := rfl
@[simp] theorem toG_eq_iff {n : Nat} {x : GReg} : toG n = x ↔ n % 33 = x.val := Fin.ext_iff
@[simp] theorem to8_eq_iff {n : Nat} {x : Fin 8} : to8 n = x ↔ n % 8 = x.val := Fin.ext_iff
@[simp] theorem toV_eq_iff {n : Nat} {x : VReg} : toV n = x ↔ n % 32 = x.val := Fin.ext_iff
@[simp] theorem toCls_eq_iff {n : Nat} {x : OrdClass} : toCls n = x ↔ n % 16 = x.val := Fin.ext_iff
open Fin.NatCast in
@[simp] theorem natCast_eq_iff {n k : Nat} [NeZero n] {x : Fin n} : (k : Fin n) = x ↔ k % n = x.val := Fin.ext_iff
@[simp] theorem ofNat_eq_iff {w n : Nat} {x : BitVec w} : BitVec.ofNat w n = x ↔ n % 2 ^ w = x.toNat := by
  rw [← BitVec.toNat_inj, BitVec.toNat_ofNat]

/-! ### Rows and words -/

/-- A row gives its instruction exactly where its fields pass checks 3 and 4 (R154). -/
theorem row_eq_ok {o : Option (Bool × Bool × Instr)} {i : Instr} :
    row o = .ok i ↔ o = some (true, true, i) ∧ i.wellFormed = true := by
  rcases o with _ | ⟨m, r, j⟩
  · simp [row]
  · cases m <;> cases r <;> simp [row, Instr.wellFormed] <;> grind

/-- The fields of a word with a clear guard. -/
def Fields.bare (f : Fields) : Fields := { f with gn := 0, gp := 0 }

/-- The fields that a decoder reads lie within their widths. -/
structure Fields.InRange (f : Fields) : Prop where
  maj : f.maj < 256
  sub : f.sub < 16
  d : f.d < 64
  a : f.a < 64
  low : f.low < 2 ^ 36

theorem mkFields_eq_bare {maj sub d a low : Nat} {f : Fields} :
    mkFields maj sub d a low = some f.bare ↔ f.maj = maj ∧ f.sub = sub ∧ f.d = d ∧ f.a = a ∧ f.low = low := by
  simp only [mkFields, Fields.bare, Option.some.injEq, Fields.mk.injEq, true_and, eq_comm]

/-- The parts of `low` in the formats Q, H and W (Table 7.2). -/
theorem Fields.formats {f : Fields} (r : f.low < 2 ^ 36) :
    (f.low = f.b * 2 ^ 30 + f.c * 2 ^ 24 + f.x ∧ f.b < 64 ∧ f.c < 64 ∧ f.x < 2 ^ 24)
    ∧ (f.low = f.b * 2 ^ 30 + f.x14 * 2 ^ 16 + f.i16 ∧ f.x14 < 2 ^ 14 ∧ f.i16 < 2 ^ 16)
    ∧ (f.low = f.x4 * 2 ^ 32 + f.i32 ∧ f.x4 < 16 ∧ f.i32 < 2 ^ 32) := by
  unfold Fields.b Fields.c Fields.x Fields.x14 Fields.i16 Fields.x4 Fields.i32
  omega

/-- The operation field of an atomic word (X14[13:10]). -/
theorem Fields.x14_atomic {f : Fields} {b : GReg} {k : Nat} {obs : BitVec 5} {sz : MemSize} {off : BitVec 16}
    (low : f.low = b.val * 2 ^ 30 + k * 2 ^ 26 + obs.toNat * 2 ^ 21 + sz.code * 2 ^ 18 + off.toNat) (lt : k < 16) :
    f.x14 / 2 ^ 10 = k := by
  simp [Fields.x14, low]
  omega

/-- The types that a vector word names are all of Table 7.3. -/
def Instr.vecTypes : Instr → Bool
  | .vadd ty _ _ _ _ _ | .vsub ty _ _ _ _ _ | .vmul ty _ _ _ _ _ | .vfma ty _ _ _ _ _ _ | .vmin ty _ _ _ | .vmax ty _ _ _
  | .vabs ty _ _ _ | .vneg ty _ _ _ | .vshl ty _ _ _ | .vshr ty _ _ _ | .vsha ty _ _ _ | .vpkp ty _ _ _ _ | .vcmp ty _ _ _ _
  | .vrred ty _ _ _ _ _ | .vcred ty _ _ _ _ _ | .vrscan ty _ _ _ _ _ | .vcscan ty _ _ _ _ _ => ty.isVec
  | .vcvt s t _ _ _ _ _ => s.isVec && t.isVec
  | _ => true

theorem ElemTy.isVec_of_isInt {ty : ElemTy} (h : ty.isInt = true) : ty.isVec = true := by
  cases ty with
  | fp64 => cases h
  | _ => rfl
theorem isVec_of_redFields {ty : ElemTy} {rm : RmSel} {sat : Bool} {op : Fin 3} (h : redFields ty rm sat op = true) : ty.isVec = true := by
  cases ty with
  | fp64 => cases h
  | _ => rfl
/-- Check 3 refuses the records' type FP64 (R222, R234 to R246). -/
theorem vecTypes_of_wellFormed {i : Instr} (w : i.wellFormed = true) : i.vecTypes = true := by
  have c : i.check3 = true := (Bool.and_eq_true_iff.1 w).1
  cases i
  case vadd | vsub | vmul | vfma => exact (Bool.and_eq_true_iff.1 (Bool.and_eq_true_iff.1 c).1).1
  case vabs | vneg | vcmp => exact (Bool.and_eq_true_iff.1 c).1
  case vmin | vmax => exact c
  case vshl | vshr | vsha | vpkp => exact ElemTy.isVec_of_isInt c
  case vrred | vcred | vrscan | vcscan => exact isVec_of_redFields c
  case vcvt => exact (Bool.and_eq_true_iff.1 (Bool.and_eq_true_iff.1 c).1).1
  all_goals rfl

/-! ### Which part of the decoder reads a major opcode -/

section
variable {f : Fields}
theorem decodeFields_int (h : f.maj < 0x30) : decodeFields f = decodeInt f := if_pos h
theorem decodeFields_fp (h : 0x30 ≤ f.maj ∧ f.maj < 0x40) : decodeFields f = decodeFp f := by
  unfold decodeFields
  grind
theorem decodeFields_control (h : 0x40 ≤ f.maj ∧ f.maj < 0x60) : decodeFields f = decodeControl f := by
  unfold decodeFields
  grind
theorem decodeFields_mem (h : 0x60 ≤ f.maj ∧ f.maj < 0x70 ∨ f.maj = 0x72 ∨ f.maj = 0x73) : decodeFields f = decodeMem f := by
  unfold decodeFields
  grind
theorem decodeFields_sync (h : 0x70 ≤ f.maj ∧ f.maj < 0x72 ∨ 0x74 ≤ f.maj ∧ f.maj < 0x80) : decodeFields f = decodeSync f := by
  unfold decodeFields
  grind
theorem decodeFields_vec (h : 0x80 ≤ f.maj ∧ f.maj < 0x84) : decodeFields f = decodeVec f := by
  unfold decodeFields
  grind
theorem decodeFields_vMem (h : 0x84 ≤ f.maj ∧ f.maj < 0x8A) : decodeFields f = decodeVMem f := by
  unfold decodeFields
  grind
theorem decodeFields_vec2 (h : 0x8A ≤ f.maj ∧ f.maj ≠ 0xFC) : decodeFields f = decodeVec2 f := by
  unfold decodeFields
  grind
theorem decodeFields_rep (h : f.maj = 0xFC) : decodeFields f = decodeRep f := by
  unfold decodeFields
  grind
end

/-! ### The words that the encoder writes are read back

Of each part of the encoder, the constructors that it does not write go first. Each of the others has one row of the decoder: `hm` and `hs`
select it, a field that selects the row's form is read off (`form`), and the row's tests and operands are then facts about quotients and
remainders of `low`, which the encoder wrote. -/

theorem ctlwr_number {n : BitVec 12} {a : GReg} (w : (Instr.ctlwr n a).wellFormed = true) : n.toNat ≠ 0x200 ∧ n.toNat ≠ 0x201 := by
  simp only [Instr.wellFormed, Instr.check4, Bool.and_eq_true, bne_iff_ne] at w
  exact ⟨fun e => w.2.1.2 (BitVec.eq_of_toNat_eq e), fun e => w.2.2 (BitVec.eq_of_toNat_eq e)⟩

section
variable {f : Fields} {i : Instr}

theorem decodeInt_encode (e : encInt i = some f.bare) (w : i.wellFormed = true) : f.InRange ∧ decodeFields f = .ok i := by
  cases i
  all_goals try exact absurd e.symm (Option.some_ne_none _)
  all_goals
    obtain ⟨hm, hs, hd, ha, hl⟩ := mkFields_eq_bare.1 e
    refine ⟨⟨by omega, by omega, by omega, by omega, by simp [hl] <;> omega⟩, ?_⟩
    rw [decodeFields_int (by omega)]
    simp only [decodeInt, hm, hs]
  all_goals
    refine row_eq_ok.2 ⟨?_, w⟩
    simp [hd, ha, hl, Fields.b, Fields.c, Fields.x, Fields.x14, Fields.i16, Fields.x4, Fields.i32] <;> omega
theorem decodeFp_encode (e : encFp i = some f.bare) (w : i.wellFormed = true) : f.InRange ∧ decodeFields f = .ok i := by
  cases i
  all_goals try exact absurd e.symm (Option.some_ne_none _)
  all_goals
    obtain ⟨hm, hs, hd, ha, hl⟩ := mkFields_eq_bare.1 e
    refine ⟨⟨by omega, by omega, by omega, by omega, by simp [hl]; omega⟩, ?_⟩
    rw [decodeFields_fp (by omega)]
    simp only [decodeFp, hm, hs]
  all_goals
    refine row_eq_ok.2 ⟨?_, w⟩
    simp [hd, ha, hl, Fields.b, Fields.c, Fields.x, Option.bind_eq_some_iff]
    omega
theorem decodeControl_encode (e : encControl i = some f.bare) (w : i.wellFormed = true) : f.InRange ∧ decodeFields f = .ok i := by
  cases i
  all_goals try exact absurd e.symm (Option.some_ne_none _)
  all_goals
    obtain ⟨hm, hs, hd, ha, hl⟩ := mkFields_eq_bare.1 e
    refine ⟨⟨by omega, by omega, by omega, by omega, by simp [hl] <;> omega⟩, ?_⟩
    rw [decodeFields_control (by omega)]
    simp only [decodeControl, hm, hs]
  case' spmov d i =>
    have form : f.x4 = 0 := by simp [Fields.x4, hl]; omega
    simp only [form]
  case' spmovSp a i =>
    have form : f.x4 = 1 := by simp [Fields.x4, hl]; omega
    simp only [form]
  all_goals
    refine row_eq_ok.2 ⟨?_, w⟩
    simp [hd, ha, hl, Fields.b, Fields.c, Fields.x, Fields.x4, Fields.i32, Option.bind_eq_some_iff] <;> omega
theorem decodeMem_encode (e : encMem i = some f.bare) (w : i.wellFormed = true) : f.InRange ∧ decodeFields f = .ok i := by
  cases i
  all_goals try exact absurd e.symm (Option.some_ne_none _)
  all_goals
    obtain ⟨hm, hs, hd, ha, hl⟩ := mkFields_eq_bare.1 e
    refine ⟨⟨by omega, by omega, by omega, by omega, by simp [hl]; omega⟩, ?_⟩
    rw [decodeFields_mem (by omega)]
    simp only [decodeMem, hm, hs]
  case' aadd | aand | aor | axor | amins | aminn | amaxs | amaxn | axch => simp only [Fields.x14_atomic hl (by decide)]
  all_goals
    refine row_eq_ok.2 ⟨?_, w⟩
    simp [hd, ha, hl, Fields.b, Fields.x14, Fields.i16, Option.bind_eq_some_iff]
    omega
theorem decodeSync_encode (e : encSync i = some f.bare) (w : i.wellFormed = true) : f.InRange ∧ decodeFields f = .ok i := by
  cases i
  all_goals try exact absurd e.symm (Option.some_ne_none _)
  all_goals
    obtain ⟨hm, hs, hd, ha, hl⟩ := mkFields_eq_bare.1 e
    refine ⟨⟨by omega, by omega, by omega, by omega, by simp [hl] <;> omega⟩, ?_⟩
    rw [decodeFields_sync (by omega)]
    simp only [decodeSync, hm, hs]
  case' qcreate a =>
    have form : f.i16 = 0x200 := by simp [Fields.i16, hl]
    rw [if_pos (by rw [form]; rfl)]
  case' qkill a =>
    have form : f.i16 = 0x201 := by simp [Fields.i16, hl]
    rw [if_neg (by rw [form]; decide), if_pos (by rw [form]; rfl)]
  case' ctlwr n a =>
    have form : f.i16 = n.toNat := by simp [Fields.i16, hl]; omega
    simp only [form, beq_iff_eq, ctlwr_number w, ↓reduceIte]
  all_goals
    refine row_eq_ok.2 ⟨?_, w⟩
    simp [hd, ha, hl, Fields.b, Fields.c, Fields.x, Fields.x14, Fields.i16, Option.bind_eq_some_iff] <;> omega
theorem decodeVec_encode (e : encVec i = some f.bare) (w : i.wellFormed = true) : f.InRange ∧ decodeFields f = .ok i := by
  have v := vecTypes_of_wellFormed w
  cases i
  all_goals try exact absurd e.symm (Option.some_ne_none _)
  all_goals
    obtain ⟨hm, hs, hd, ha, hl⟩ := mkFields_eq_bare.1 e
    refine ⟨⟨by omega, by omega, by omega, by omega, by simp [hl] <;> omega⟩, ?_⟩
    rw [decodeFields_vec (by omega)]
    simp only [decodeVec, hm, hs]
  case' vmov d a =>
    have form : f.x / 2 ^ 13 = 0 := by simp [Fields.x, hl]
    simp only [form]
  case' vmovExtract d a row col =>
    have form : f.x / 2 ^ 13 = 1 := by simp [Fields.x, hl]; omega
    simp only [form]
  case' vmovInsert d a row col =>
    have form : f.x / 2 ^ 13 = 2 := by simp [Fields.x, hl]; omega
    simp only [form]
  all_goals
    refine row_eq_ok.2 ⟨?_, w⟩
    simp only [Instr.vecTypes, Bool.and_eq_true] at v
    simp [hd, ha, hl, Fields.b, Fields.c, Fields.x, Option.bind_eq_some_iff, v] <;> omega
theorem decodeVMem_encode (e : encVMem i = some f.bare) (w : i.wellFormed = true) : f.InRange ∧ decodeFields f = .ok i := by
  cases i
  all_goals try exact absurd e.symm (Option.some_ne_none _)
  all_goals
    obtain ⟨hm, hs, hd, ha, hl⟩ := mkFields_eq_bare.1 e
    refine ⟨⟨by omega, by omega, by omega, by omega, by simp [hl]; omega⟩, ?_⟩
    rw [decodeFields_vMem (by omega)]
    simp only [decodeVMem, hm, hs]
  all_goals
    refine row_eq_ok.2 ⟨?_, w⟩
    simp [hd, ha, hl, Fields.b, Fields.x14, Fields.i16, Option.bind_eq_some_iff]
    omega
theorem decodeVec2_encode (e : encVec2 i = some f.bare) (w : i.wellFormed = true) : f.InRange ∧ decodeFields f = .ok i := by
  have v := vecTypes_of_wellFormed w
  cases i
  all_goals try exact absurd e.symm (Option.some_ne_none _)
  all_goals
    obtain ⟨hm, hs, hd, ha, hl⟩ := mkFields_eq_bare.1 e
    refine ⟨⟨by omega, by omega, by omega, by omega, by simp [hl] <;> omega⟩, ?_⟩
    rw [decodeFields_vec2 (by omega)]
    simp only [decodeVec2, hm, hs]
  all_goals
    refine row_eq_ok.2 ⟨?_, w⟩
    simp only [Instr.vecTypes] at v
    simp [hd, ha, hl, Fields.b, Fields.c, Fields.x, Option.bind_eq_some_iff, v] <;> omega
theorem decodeRep_encode (e : encRep i = some f.bare) (w : i.wellFormed = true) (guard : f.gn = 0 ∧ f.gp = 0) :
    f.InRange ∧ decodeFields f = .ok i := by
  cases i
  all_goals try exact absurd e.symm (Option.some_ne_none _)
  obtain ⟨hm, hs, hd, ha, hl⟩ := mkFields_eq_bare.1 e
  refine ⟨⟨by omega, by omega, by omega, by omega, by omega⟩, ?_⟩
  rw [decodeFields_rep hm]
  refine row_eq_ok.2 ⟨?_, w⟩
  simp [hs, hd, ha, hl, guard]
  omega

/-- The fields of a well-formed word lie within their widths and decode to it. -/
theorem decodeFields_encode (e : i.fields? = some f.bare) (w : i.wellFormed = true) (rep : encRep i ≠ none → f.gn = 0 ∧ f.gp = 0) :
    f.InRange ∧ decodeFields f = .ok i := by
  simp only [Instr.fields?, Option.orElse_eq_some] at e
  rcases e with e | ⟨-, e | ⟨-, e | ⟨-, e | ⟨-, e | ⟨-, e | ⟨-, e | ⟨-, e | ⟨-, e⟩⟩⟩⟩⟩⟩⟩⟩
  · exact decodeInt_encode e w
  · exact decodeFp_encode e w
  · exact decodeControl_encode e w
  · exact decodeMem_encode e w
  · exact decodeSync_encode e w
  · exact decodeVec_encode e w
  · exact decodeVMem_encode e w
  · exact decodeVec2_encode e w
  · exact decodeRep_encode e w (rep (e ▸ Option.some_ne_none _))

/-! ### The words that the decoder accepts are written back

Each row of the decoder that gives an instruction has tested every field that it does not read into an operand, so that the fields are again
those that the encoder writes: `low` is the sum of its parts, each of them read or zero. -/

theorem encode_decodeInt (r : f.InRange) (h : decodeInt f = .ok i) : i.fields? = some f.bare ∧ i.wellFormed = true := by
  obtain ⟨-, ls, ld, la, ll⟩ := r
  have parts := Fields.formats ll
  unfold decodeInt at h
  repeat' split at h
  any_goals cases h
  all_goals
    obtain ⟨e, w⟩ := row_eq_ok.1 h
    simp at e
    casesm* _ ∧ _, ∃ _, _
    subst i
    refine ⟨mkFields_eq_bare.2 ⟨‹_›, ?_⟩, w⟩
    try simp
    omega
theorem encode_decodeFp (r : f.InRange) (h : decodeFp f = .ok i) : i.fields? = some f.bare ∧ i.wellFormed = true := by
  obtain ⟨-, ls, ld, la, ll⟩ := r
  have parts := (Fields.formats ll).1
  unfold decodeFp at h
  repeat' split at h
  any_goals cases h
  all_goals
    obtain ⟨e, w⟩ := row_eq_ok.1 h
    simp [Option.bind_eq_some_iff] at e
    casesm* _ ∧ _, ∃ _, _
    subst i
    refine ⟨mkFields_eq_bare.2 ⟨‹_›, ?_⟩, w⟩
    try simp
    omega
theorem encode_decodeControl (r : f.InRange) (h : decodeControl f = .ok i) : i.fields? = some f.bare ∧ i.wellFormed = true := by
  obtain ⟨-, ls, ld, la, ll⟩ := r
  have parts := Fields.formats ll
  unfold decodeControl at h
  repeat' split at h
  any_goals cases h
  all_goals
    obtain ⟨e, w⟩ := row_eq_ok.1 h
    simp [Option.bind_eq_some_iff] at e
    casesm* _ ∧ _, ∃ _, _
    subst i
    refine ⟨mkFields_eq_bare.2 ⟨‹_›, ?_⟩, w⟩
    try simp
    omega
theorem encode_decodeMem (r : f.InRange) (h : decodeMem f = .ok i) : i.fields? = some f.bare ∧ i.wellFormed = true := by
  obtain ⟨-, ls, ld, la, ll⟩ := r
  have parts := (Fields.formats ll).2.1
  unfold decodeMem at h
  repeat' split at h
  any_goals cases h
  all_goals
    obtain ⟨e, w⟩ := row_eq_ok.1 h
    simp [Option.bind_eq_some_iff] at e
    casesm* _ ∧ _, ∃ _, _
    subst i
    refine ⟨mkFields_eq_bare.2 ⟨‹_›, ?_⟩, w⟩
    try simp
    omega
theorem encode_decodeSync (r : f.InRange) (h : decodeSync f = .ok i) : i.fields? = some f.bare ∧ i.wellFormed = true := by
  obtain ⟨-, ls, ld, la, ll⟩ := r
  have parts := Fields.formats ll
  unfold decodeSync at h
  simp only [beq_iff_eq] at h
  repeat' split at h
  any_goals cases h
  all_goals
    obtain ⟨e, w⟩ := row_eq_ok.1 h
    simp [Option.bind_eq_some_iff] at e
    casesm* _ ∧ _, ∃ _, _
    subst i
    refine ⟨mkFields_eq_bare.2 ⟨‹_›, ?_⟩, w⟩
    try simp
    omega
theorem encode_decodeVec (r : f.InRange) (h : decodeVec f = .ok i) : i.fields? = some f.bare ∧ i.wellFormed = true := by
  obtain ⟨-, ls, ld, la, ll⟩ := r
  have parts := (Fields.formats ll).1
  unfold decodeVec at h
  repeat' split at h
  any_goals cases h
  all_goals
    obtain ⟨e, w⟩ := row_eq_ok.1 h
    simp [Option.bind_eq_some_iff] at e
    casesm* _ ∧ _, ∃ _, _
    subst i
    refine ⟨mkFields_eq_bare.2 ⟨‹_›, ?_⟩, w⟩
    try simp
    omega
theorem encode_decodeVMem (r : f.InRange) (h : decodeVMem f = .ok i) : i.fields? = some f.bare ∧ i.wellFormed = true := by
  obtain ⟨-, ls, ld, la, ll⟩ := r
  have parts := (Fields.formats ll).2.1
  unfold decodeVMem at h
  repeat' split at h
  any_goals cases h
  all_goals
    obtain ⟨e, w⟩ := row_eq_ok.1 h
    simp [Option.bind_eq_some_iff] at e
    casesm* _ ∧ _, ∃ _, _
    subst i
    refine ⟨mkFields_eq_bare.2 ⟨‹_›, ?_⟩, w⟩
    try simp
    omega
theorem encode_decodeVec2 (r : f.InRange) (h : decodeVec2 f = .ok i) : i.fields? = some f.bare ∧ i.wellFormed = true := by
  obtain ⟨-, ls, ld, la, ll⟩ := r
  have parts := (Fields.formats ll).1
  unfold decodeVec2 at h
  repeat' split at h
  any_goals cases h
  all_goals
    obtain ⟨e, w⟩ := row_eq_ok.1 h
    simp [Option.bind_eq_some_iff] at e
    casesm* _ ∧ _, ∃ _, _
    subst i
    refine ⟨mkFields_eq_bare.2 ⟨‹_›, ?_⟩, w⟩
    try simp
    omega
theorem encode_decodeRep (maj : f.maj = 0xFC) (r : f.InRange) (h : decodeRep f = .ok i) :
    i.fields? = some f.bare ∧ i.wellFormed = true ∧ f.gn = 0 ∧ f.gp = 0 := by
  obtain ⟨-, ls, ld, la, ll⟩ := r
  obtain ⟨e, w⟩ := row_eq_ok.1 h
  simp at e
  obtain ⟨⟨⟨⟨hs, gn⟩, gp⟩, low⟩, rfl⟩ := e
  refine ⟨mkFields_eq_bare.2 ⟨maj, ?_⟩, w, gn, gp⟩
  simp
  omega

/-- The fields that the decoder accepts are those of its instruction, which passes checks 3 and 4; a REP has no guard (Table 7.5). -/
theorem encode_decodeFields (r : f.InRange) (h : decodeFields f = .ok i) :
    i.fields? = some f.bare ∧ i.wellFormed = true ∧ (f.maj = 0xFC → f.gn = 0 ∧ f.gp = 0) := by
  by_cases rep : f.maj = 0xFC
  · rw [decodeFields_rep rep] at h
    obtain ⟨e, w, guard⟩ := encode_decodeRep rep r h
    exact ⟨e, w, fun _ => guard⟩
  · suffices accepted : i.fields? = some f.bare ∧ i.wellFormed = true from ⟨accepted.1, accepted.2, fun m => absurd m rep⟩
    unfold decodeFields at h
    split at h; · exact encode_decodeInt r h
    split at h; · exact encode_decodeFp r h
    split at h; · exact encode_decodeControl r h
    split at h; · exact encode_decodeMem r h
    split at h; · exact encode_decodeSync r h
    split at h; · exact encode_decodeVec r h
    split at h; · exact encode_decodeVMem r h
    split at h
    next m => exact absurd (beq_iff_eq.1 m) rep
    next => exact encode_decodeVec2 r h

end

/-! ### The shared fields of a word -/

theorem fieldsOf_inRange (n : Nat) : (fieldsOf n).InRange := by
  constructor <;> exact Nat.mod_lt _ (by decide)
theorem pack_fieldsOf {n : Nat} (h : n < 2 ^ 64) : (fieldsOf n).pack = n := by
  simp only [fieldsOf, Fields.pack]
  omega
theorem fieldsOf_pack {f : Fields} (r : f.InRange) (gn : f.gn < 2) (gp : f.gp < 8) : fieldsOf (BitVec.ofNat 64 f.pack).toNat = f := by
  obtain ⟨maj, sub, d, a, low⟩ := r
  rw [BitVec.toNat_ofNat, Nat.mod_eq_of_lt (by unfold Fields.pack; omega)]
  obtain ⟨⟩ := f
  simp only [fieldsOf, Fields.pack, Fields.mk.injEq] at *
  omega

theorem decode_eq_ok {w : Word} {g : Guarded} :
    decode w = .ok g ↔ decodeFields (fieldsOf w.toNat) = .ok g.instr
      ∧ g.neg = ((fieldsOf w.toNat).gn == 1) ∧ g.gp = to8 (fieldsOf w.toNat).gp := by
  obtain ⟨n, p, i⟩ := g
  simp only [decode]
  cases decodeFields (fieldsOf w.toNat) with
  | error m => exact ⟨nofun, fun h => nomatch h.1⟩
  | ok j =>
    simp only [Except.ok.injEq, Guarded.mk.injEq]
    exact ⟨fun ⟨a, b, c⟩ => ⟨c, a.symm, b.symm⟩, fun ⟨a, b, c⟩ => ⟨b.symm, c.symm, a⟩⟩
theorem decode_eq_error {w : Word} {n : Nat} (h : decodeFields (fieldsOf w.toNat) = .error n) : decode w = .error n := by
  simp only [decode, h]

theorem bit_beq_one (b : Bool) : (bit b == 1) = b := by cases b <;> rfl

/-! ### O1, O2, O3 -/

open Machine

theorem Instr.fields?_bare {i : Instr} {f : Fields} (h : i.fields? = some f) : f.bare = f := by
  cases i
  all_goals try exact absurd h.symm (Option.some_ne_none _)
  all_goals exact Option.some.inj h ▸ rfl

theorem encRep_ne_none {i : Instr} (h : encRep i ≠ none) : ∃ c s t, i = .rep c s t := by
  cases i
  case rep c s t => exact ⟨c, s, t, rfl⟩
  all_goals exact absurd rfl h

/-- Settles O1: the fields that the encoder writes decode to the instruction, and the word of these fields has them. -/
theorem encodedWordDecodesBack : Obligations.EncodedWordDecodesBack := by
  intro g word wf
  obtain ⟨f, e⟩ := Option.isSome_iff_exists.1 word
  obtain ⟨w, rep⟩ := Bool.and_eq_true_iff.1 wf
  let p : Fields := { f with gn := bit g.neg, gp := g.gp.val }
  have unguarded : encRep g.instr ≠ none → p.gn = 0 ∧ p.gp = 0 := fun h => by
    obtain ⟨c, s, t, i⟩ := encRep_ne_none h
    simp_all [p, bit]
  obtain ⟨range, back⟩ := decodeFields_encode (f := p) (e.trans (congrArg some (Instr.fields?_bare e).symm)) w unguarded
  have fields := fieldsOf_pack range (bitFin g.neg).isLt g.gp.isLt
  refine ⟨BitVec.ofNat 64 p.pack, by simp [encode, e, p], decode_eq_ok.2 ?_⟩
  rw [fields]
  exact ⟨back, (bit_beq_one g.neg).symm, Fin.ext (Nat.mod_eq_of_lt g.gp.isLt).symm⟩

/-- Settles O2: the decoder reads every field, and each field is the one that the encoder writes for the instruction. -/
theorem acceptedWordIsItsEncoding : Obligations.AcceptedWordIsItsEncoding := by
  intro w g h
  obtain ⟨back, neg, gp⟩ := decode_eq_ok.1 h
  have range := fieldsOf_inRange w.toNat
  generalize word : fieldsOf w.toNat = f at back neg gp range
  obtain ⟨gn2, gp8⟩ : f.gn < 2 ∧ f.gp < 8 := word ▸ ⟨Nat.mod_lt _ (by decide), Nat.mod_lt _ (by decide)⟩
  obtain ⟨e, wf, rep⟩ := encode_decodeFields range back
  constructor
  · have gn : bit g.neg = f.gn := by
      simp [neg]
      omega
    have gp : g.gp.val = f.gp := gp ▸ Nat.mod_eq_of_lt gp8
    have pack : f.pack = w.toNat := word ▸ pack_fieldsOf w.isLt
    simp only [encode, e, Fields.bare, gn, gp]
    rw [pack, BitVec.ofNat_toNat, BitVec.setWidth_eq]
  · obtain ⟨n, p, i⟩ := g
    refine Bool.and_eq_true_iff.2 ⟨wf, ?_⟩
    cases i
    case rep c s t =>
      obtain ⟨gn, gp0⟩ := rep (mkFields_eq_bare.1 e).1
      simp_all
    all_goals rfl

/-- No part of the decoder reads a major opcode that Table 7.4 does not list: check 1 refuses it. -/
theorem decodeFields_unlisted {f : Fields} (h : ¬ listedMajor f.maj) : decodeFields f = .error 1 := by
  unfold listedMajor at h
  unfold decodeFields
  simp only [Bool.or_eq_true, decide_eq_true_eq, beq_iff_eq]
  split_ifs
  · unfold decodeInt
    split <;> try exact absurd (by rw [‹f.maj = _›]; decide) h
    rfl
  · unfold decodeFp
    split <;> try exact absurd (by rw [‹f.maj = _›]; decide) h
    rfl
  · unfold decodeControl
    split <;> try exact absurd (by rw [‹f.maj = _›]; decide) h
    rfl
  · unfold decodeMem
    split <;> try exact absurd (by rw [‹f.maj = _›]; decide) h
    rfl
  · unfold decodeSync
    split <;> try exact absurd (by rw [‹f.maj = _›]; decide) h
    rfl
  · unfold decodeVec
    split <;> try exact absurd (by rw [‹f.maj = _›]; decide) h
    rfl
  · unfold decodeVMem
    split <;> try exact absurd (by rw [‹f.maj = _›]; decide) h
    rfl
  · omega
  · unfold decodeVec2
    split <;> try exact absurd (by rw [‹f.maj = _›]; decide) h
    rfl

/-- Settles O3: the worked encodings are decoded, and an unlisted major is none of the decoder's cases. -/
theorem wordsDecodeAsTheTablesSay : Obligations.WordsDecodeAsTheTablesSay := by
  refine ⟨⟨rfl, rfl, rfl, rfl, rfl, rfl, rfl, rfl⟩, fun w h => decode_eq_error (decodeFields_unlisted ?_)⟩
  have major : (fieldsOf w.toNat).maj = w.toNat / 2 ^ 56 := Nat.mod_eq_of_lt (Nat.div_lt_of_lt_mul w.isLt)
  rwa [major]

end Sys2Proof
end

section
/-! What registers and predicates read after a write, and the loop-end visit of R198 (O9, O10). -/

namespace Sys2Proof.Machine

/-! ### Predicates -/

/-- The mask with which a predicate is written singles out its bit. -/
theorem predMask_getLsbD : ∀ d q : PReg, (BitVec.ofNat 8 (2 ^ d.val)).getLsbD q.val = decide (q = d) := by decide

/-- The bits of the predicate file after a write. -/
theorem Core.wp_bit (c : Core) (d q : PReg) (b : Bool) (hd : d.val ≠ 0) :
    (c.wp d b).p.getLsbD q.val = if q = d then b else c.p.getLsbD q.val := by
  have hq : q.val < 8 := q.isLt
  rw [Core.wp, if_neg hd]
  cases b
  · change (c.p &&& ~~~(BitVec.ofNat 8 (2 ^ d.val))).getLsbD q.val = _
    rw [BitVec.getLsbD_and, BitVec.getLsbD_not, predMask_getLsbD]
    by_cases e : q = d <;> simp [e, hq]
  · change (c.p ||| BitVec.ofNat 8 (2 ^ d.val)).getLsbD q.val = _
    rw [BitVec.getLsbD_or, predMask_getLsbD]
    by_cases e : q = d <;> simp [e]

/-- Reading a predicate after a write (Table 7.9). -/
theorem Core.rp_wp (c : Core) (d q : PReg) (b : Bool) : (c.wp d b).rp q = if q = d ∧ d ≠ 0 then b else c.rp q := by
  by_cases hd : d.val = 0
  · have e : c.wp d b = c := if_pos hd
    have : d = 0 := Fin.ext hd
    rw [e, if_neg (fun h => h.2 this)]
  · have h0 : d ≠ 0 := fun e => hd (congrArg Fin.val e)
    rw [Core.rp, Core.wp_bit c d q b hd]
    by_cases e : q = d
    · simp [e, hd, h0]
    · simp [e, Core.rp]

/-- Settles O9, from what a register and a predicate read after a write. -/
theorem registersReadBack : Obligations.RegistersReadBack := by
  intro c v b
  exact ⟨fun d r => c.rd_wr d r v, rfl, rfl, fun d q => c.rp_wp d q b, rfl, rfl⟩

/-! ### Loop-end processing (R198) -/

/-- What a loop-end visit at a leaves of a counter whose passes are used up. -/
def LoopCtr.exhausted (l : LoopCtr) (a : BitVec 17) : LoopCtr :=
  if l.active = true ∧ l.fin = a then { l with count := 0, active := false } else l

/-- After the target is found no counter is visited. -/
theorem foldl_loopVisit_some (a p : BitVec 17) (lc : Vector LoopCtr 4) (l : List (Fin 4)) :
    l.foldl (loopVisit a) (lc, some p) = (lc, some p) := by
  induction l with
  | nil => rfl
  | cons n l ih => exact ih

/-- A counter that does not go round again is left as used up, and the visit goes on. -/
theorem loopVisit_exhausted (a : BitVec 17) (lc : Vector LoopCtr 4) (n : Fin 4)
    (h : (lc.get n).active = true → (lc.get n).fin = a → (lc.get n).count = 1) :
    ∃ lc', loopVisit a (lc, none) n = (lc', none) ∧ ∀ m, lc'.get m = if m = n then (lc.get n).exhausted a else lc.get m := by
  by_cases e : (lc.get n).active = true ∧ (lc.get n).fin = a
  · have one : (lc.get n).count = 1 := h e.1 e.2
    refine ⟨lc.set n.val { lc.get n with count := 0, active := false }, ?_, fun m => ?_⟩
    · simp [loopVisit, e, one]
    · rw [vector_get_set, LoopCtr.exhausted, if_pos e]
  · refine ⟨lc, ?_, fun m => ?_⟩
    · simp_all [loopVisit]
    · by_cases hm : m = n <;> simp [hm, LoopCtr.exhausted, e]

/-- A counter with passes left counts one and gives its start as the target. -/
theorem loopVisit_again (a : BitVec 17) (lc : Vector LoopCtr 4) (n : Fin 4) (ha : (lc.get n).active = true) (hf : (lc.get n).fin = a)
    (hc : (lc.get n).count ≠ 1) :
    loopVisit a (lc, none) n = (lc.set n.val { lc.get n with count := (lc.get n).count - 1 }, some (lc.get n).start) := by
  have : (lc.get n).count - 1#32 ≠ 0#32 := fun e => hc (by bv_omega)
  simp [loopVisit, ha, hf, this]

/-- Visiting counters of which none goes round again leaves each of them used up and finds no target. -/
theorem foldl_loopVisit_exhausted (a : BitVec 17) (l : List (Fin 4)) (hl : l.Nodup) (lc : Vector LoopCtr 4)
    (h : ∀ m ∈ l, (lc.get m).active = true → (lc.get m).fin = a → (lc.get m).count = 1) :
    ∃ lc', l.foldl (loopVisit a) (lc, none) = (lc', none) ∧ ∀ m, lc'.get m = if m ∈ l then (lc.get m).exhausted a else lc.get m := by
  induction l generalizing lc with
  | nil => exact ⟨lc, rfl, by simp⟩
  | cons n l ih =>
    obtain ⟨hn, hl⟩ := List.nodup_cons.1 hl
    obtain ⟨lc₁, e₁, get₁⟩ := loopVisit_exhausted a lc n (h n (by simp))
    have same : ∀ m ∈ l, lc₁.get m = lc.get m := fun m hm => by rw [get₁, if_neg (ne_of_mem_of_not_mem hm hn)]
    obtain ⟨lc₂, e₂, get₂⟩ := ih hl lc₁ (fun m hm => by rw [same m hm]; exact h m (List.mem_cons_of_mem _ hm))
    refine ⟨lc₂, by rw [List.foldl_cons, e₁, e₂], fun m => ?_⟩
    rw [get₂, get₁]
    by_cases hm : m ∈ l
    · have : m ≠ n := ne_of_mem_of_not_mem hm hn
      simp [hm, this]
    · by_cases e : m = n <;> simp [hm, e, hn]

/-- The four counters innermost first: those below n, n, and those above it. -/
theorem counters_split : ∀ n : Fin 4, ([0, 1, 2, 3] : List (Fin 4)) = [0, 1, 2, 3].filter (· < n) ++ n :: [0, 1, 2, 3].filter (n < ·) := by
  decide

/-- Every counter is visited. -/
theorem mem_counters : ∀ n : Fin 4, n ∈ ([0, 1, 2, 3] : List (Fin 4)) := by decide

/-- Loop-end processing where counter n is the innermost that goes round again (R198). -/
theorem loopEnd_again (lc : Vector LoopCtr 4) (a : BitVec 17) (n : Fin 4)
    (h : ∀ m : Fin 4, m < n → (lc.get m).active = true → (lc.get m).fin = a → (lc.get m).count = 1)
    (ha : (lc.get n).active = true) (hf : (lc.get n).fin = a) (hc : (lc.get n).count ≠ 1) :
    (loopEnd lc a).2 = (lc.get n).start ∧ ∀ m, (loopEnd lc a).1.get m =
      if m = n then { lc.get n with count := (lc.get n).count - 1 } else if m < n then (lc.get m).exhausted a else lc.get m := by
  obtain ⟨lc₁, e₁, get₁⟩ := foldl_loopVisit_exhausted a ([0, 1, 2, 3].filter (· < n)) (List.Nodup.filter _ (by decide)) lc
    (fun m hm => h m (by simpa using (List.mem_filter.1 hm).2))
  have hn : lc₁.get n = lc.get n := by simp [get₁]
  have e : [0, 1, 2, 3].foldl (loopVisit a) (lc, none)
      = (lc₁.set n.val { lc.get n with count := (lc.get n).count - 1 }, some (lc.get n).start) := by
    rw [counters_split n, List.foldl_append, e₁, List.foldl_cons, loopVisit_again a lc₁ n (hn ▸ ha) (hn ▸ hf) (hn ▸ hc), hn,
      foldl_loopVisit_some]
  unfold loopEnd
  rw [e]
  refine ⟨rfl, fun m => ?_⟩
  simp only [vector_get_set, get₁, List.mem_filter, mem_counters, decide_eq_true_eq, true_and]

/-- Loop-end processing where no counter goes round again (R198). -/
theorem loopEnd_exhausted (lc : Vector LoopCtr 4) (a : BitVec 17)
    (h : ∀ n : Fin 4, (lc.get n).active = true → (lc.get n).fin = a → (lc.get n).count = 1) :
    (loopEnd lc a).2 = a + 8 ∧ ∀ m, (loopEnd lc a).1.get m = (lc.get m).exhausted a := by
  obtain ⟨lc', e, get⟩ := foldl_loopVisit_exhausted a [0, 1, 2, 3] (by decide) lc (fun m _ => h m)
  unfold loopEnd
  rw [e]
  exact ⟨rfl, fun m => by rw [get, if_pos (mem_counters m)]⟩

/-- Outside a REP sequence retirement is loop-end processing at the pc. -/
theorem Core.retire_lc_pc (c : Core) (h : c.rep = none) :
    c.retire.lc = (loopEnd c.lc c.pc).1 ∧ c.retire.pc = (loopEnd c.lc c.pc).2 := by
  simp only [Core.retire, h]
  exact ⟨rfl, rfl⟩

/-- Settles O10, from the two outcomes of loop-end processing. -/
theorem loopEndVisitsCountersInnermostFirst : Obligations.LoopEndVisitsCountersInnermostFirst := by
  intro c hrep
  obtain ⟨lc, pc⟩ := c.retire_lc_pc hrep
  rw [lc, pc]
  refine ⟨fun n h ha hf hc => ?_, fun h => loopEnd_exhausted c.lc c.pc h⟩
  obtain ⟨target, get⟩ := loopEnd_again c.lc c.pc n h ha hf hc
  refine ⟨target, by simp [get], fun m hm => ?_, fun m hm => ?_⟩
  · rw [get, if_neg hm.ne, if_pos hm, LoopCtr.exhausted]
  · rw [get, if_neg hm.ne', if_neg hm.asymm]

end Sys2Proof.Machine
end

section
/-! The state after reset (O8). -/

namespace Sys2Proof.Machine

/-- Reading a vector of equal entries. -/
theorem get_replicate {α : Type} {n : Nat} (a : α) (i : Fin n) : (Vector.replicate n a).get i = a := by
  rw [Vector.get_eq_getElem, Vector.getElem_replicate]

/-- Every register reads zero at power-on. -/
theorem Core.reset_rd (k : CoreKey) (r : GReg) : (Core.reset k).rd r = 0 := by
  unfold Core.rd
  split
  · rfl
  · exact get_replicate 0 r

/-- Of the guard slots gs0 alone is resolved at power-on. -/
theorem Core.reset_slot (k : CoreKey) (n : SReg) : (Core.reset k).slot n = if n = 0 then .resolved true else .unresolved := by
  unfold Core.slot
  split
  · next h => rw [if_pos (Fin.ext h)]
  · next h => rw [if_neg (fun e => h (congrArg Fin.val e))]; exact get_replicate _ n

/-- Every barrier is disabled at power-on. -/
theorem Core.reset_bars (k : CoreKey) (i : Fin 96) : (Core.reset k).bars.get i = Barrier.off := get_replicate _ i

/-- Settles O8, field by field of the reset state. -/
theorem resetState : Obligations.ResetState := by
  refine ⟨⟨rfl, List.forall_mem_nil _, List.forall_mem_nil _, List.forall_mem_nil _⟩, rfl, rfl, Core.reset_rd _, by decide, rfl,
    fun k => get_replicate _ k, Core.reset_slot _, rfl, rfl, rfl, fun a => rfl, fun i => ?_, rfl⟩
  exact congrArg Barrier.ec (Core.reset_bars _ i)

end Sys2Proof.Machine
end

section
/-! TRAP, RTE and the privileged words (O21). -/

namespace Sys2Proof.Machine

/-- Fields of a number that reach down to a multiple of a power of two. -/
theorem bits_16_3 (x : Nat) : bits x 16 3 * 8 = x % 2 ^ 17 / 8 * 8 := by
  unfold bits
  omega

/-- Bit 0 cleared, the other bits kept. -/
theorem getLsbD_and_not_one (x : Word) (i : Nat) : (x &&& ~~~1).getLsbD i = if i = 0 then false else x.getLsbD i := by
  rw [BitVec.getLsbD_and, BitVec.getLsbD_not]
  rcases i with _ | i
  · simp
  · by_cases hi : i + 1 < 64
    · simp [hi]
    · simp [BitVec.getLsbD_of_ge x (i + 1) (by omega)]

/-- Setting bit 0 and clearing it again leaves a word that had it clear (R402, R403). -/
theorem or_one_and_not_one (x : Word) (h : x.getLsbD 0 = false) : (x ||| 1) &&& ~~~1 = x := by
  apply BitVec.eq_of_getLsbD_eq
  intro i _
  rw [getLsbD_and_not_one, BitVec.getLsbD_or]
  rcases i with _ | i
  · simpa using h.symm
  · simp [BitVec.getLsbD_one]

/-- The core that RTE leaves in the handler: user mode, at EPC, and a REP there resumes (R403, R159). -/
def Core.returned (c : Core) : Core :=
  { ({ c with ctl := { c.ctl with mode := c.ctl.mode &&& ~~~1 } }.jump (BitVec.ofNat 17 (bits c.ctl.epc.toNat 16 3 * 8))) with
    repResume := true }

theorem exec_trap (n : BitVec 16) (s : State) : exec (.trap n) s = raise { code := 26, detail := n.toNat } s := rfl
theorem exec_rte (s : State) : exec .rte s = privileged (fun s => .next { s with core := s.core.returned }) s := rfl
theorem exec_barc (sc : Scope) (k : BitVec 7) (a : GReg) (s : State) : exec (.barc sc k a) s = execBarc sc k a s := rfl
theorem exec_tmark (a b : GReg) (r k : Fin 3) (s : State) : exec (.tmark a b r k) s = execTmark a b r k s := rfl
theorem exec_ctlwr (n : BitVec 12) (a : GReg) (s : State) : exec (.ctlwr n a) s = execCtlwr n a s := rfl
theorem exec_ctlset (n : BitVec 12) (a : GReg) (s : State) : exec (.ctlset n a) s = execCtlset n a s := rfl
theorem exec_ctlclr (n : BitVec 12) (a : GReg) (s : State) : exec (.ctlclr n a) s = execCtlclr n a s := rfl

theorem execRte_handler {s : State} (h : s.core.priv = true) : exec .rte s = .next { s with core := s.core.returned } := by
  rw [exec_rte, privileged_handler h]

@[simp] theorem Core.returned_mode (c : Core) : c.returned.ctl.mode = c.ctl.mode &&& ~~~1 := rfl
@[simp] theorem Core.returned_pc (c : Core) : c.returned.pc = BitVec.ofNat 17 (bits c.ctl.epc.toNat 16 3 * 8) := rfl

/-- RTE goes to the word that EPC names. -/
theorem Core.returned_pc_toNat (c : Core) : c.returned.pc.toNat = c.ctl.epc.toNat % 2 ^ 17 / 8 * 8 := by
  rw [Core.returned_pc, BitVec.toNat_ofNat, bits_16_3]
  omega

/-- RTE changes MODE.PRIV and what moving the pc changes, and no more. -/
theorem framePc_returned (s : State) :
    framePc { s with core := { s.core with ctl := { s.core.ctl with mode := s.core.returned.ctl.mode } } }
      { s with core := s.core.returned } := by
  refine ⟨rfl, fun _ => rfl, rfl, ?_⟩
  change (s.core.task.map _).map _ = s.core.task.map _
  rw [Option.map_map]
  rfl

/-- Entering the handler by a TRAP in user mode (R399, R402). -/
theorem takeFault_trap {s : State} (n : Nat) (hu : s.core.priv = false) (ht : s.core.ctl.tvec.getLsbD 0 = true) :
    (takeFault { code := 26, detail := n } s).core.ctl.mode = s.core.ctl.mode ||| 1
      ∧ (takeFault { code := 26, detail := n } s).core.ctl.epc = (s.core.pc + 8).zeroExtend 64 := by
  rw [takeFault_handler (f := { code := 26, detail := n }) rfl hu ht]
  exact ⟨rfl, rfl⟩

/-- A TRAP and the RTE that answers it leave the pc behind the TRAP and MODE as it was (R402, R403). -/
theorem trap_then_rte {s : State} (n : BitVec 16) (hp : s.core.precise) (hu : s.core.priv = false)
    (ht : s.core.ctl.tvec.getLsbD 0 = true) (ha : s.core.pc.toNat % 8 = 0) :
    ∃ t u, exec (.trap n) s = .next t ∧ exec .rte t = .next u ∧ u.core.pc = s.core.pc + 8 ∧ u.core.ctl.mode = s.core.ctl.mode := by
  obtain ⟨mode, epc⟩ := takeFault_trap (s := s) n.toNat hu ht
  have priv : (takeFault { code := 26, detail := n.toNat } s).core.priv = true := by
    rw [Core.priv, mode, BitVec.getLsbD_or]
    simp
  refine ⟨_, _, (exec_trap n s).trans (raise_precise _ hp), execRte_handler priv, ?_, ?_⟩
  · apply BitVec.eq_of_toNat_eq
    have next : (s.core.pc + 8).toNat = (s.core.pc.toNat + 8) % 2 ^ 17 := BitVec.toNat_add ..
    rw [Core.returned_pc_toNat, epc, BitVec.zeroExtend_eq_setWidth, BitVec.toNat_setWidth, next]
    omega
  · rw [Core.returned_mode, mode]
    exact or_one_and_not_one _ hu

/-- A privileged word in user mode, with no vector word before it, raises PRIVILEGE_VIOLATION (R156). -/
theorem privileged_precise (m : State → Out State) {s : State} (hu : s.core.priv = false) (hp : s.core.precise) :
    privileged m s = .next (takeFault { code := 2 } s) := by
  rw [privileged_user hu, raise_precise _ hp]

/-- The write of a control register from 0x010 on is a privileged word (R156). -/
theorem ctlPrivileged_precise (m : State → Out State) {n : Nat} {s : State} (hn : 0x010 ≤ n) (hu : s.core.priv = false)
    (hp : s.core.precise) : ctlPrivileged n m s = .next (takeFault { code := 2 } s) := by
  rw [ctlPrivileged, ctlWritePriv, if_pos (decide_eq_true hn), privileged_precise m hu hp]

/-- Settles O21: TRAP is its fault, RTE its return, and every privileged word asks for the handler. -/
theorem trapReturnAndPrivilege : Obligations.TrapReturnAndPrivilege := by
  refine ⟨fun s n => ⟨fun hp => by rw [exec_trap, raise_precise _ hp], fun h => ?_, trap_then_rte n⟩, fun s i hu hp hi => ?_⟩
  · exact ⟨_, execRte_handler h, s.core.returned_pc_toNat, getLsbD_and_not_one _, rfl, framePc_returned s⟩
  · have priv := fun m => privileged_precise m hu hp
    rcases hi with rfl | ⟨sc, k, a, rfl⟩ | ⟨a, rfl⟩ | ⟨a, rfl⟩ | ⟨a, b, r, k, rfl⟩ | ⟨n, a, hn, rfl | rfl | rfl⟩
    · rw [exec_rte, priv]
    · rw [exec_barc, execBarc, priv]
    · rw [exec_qcreate, execQcreate, priv]
    · rw [exec_qkill, execQkill, priv]
    · rw [exec_tmark, execTmark, priv]
    · rw [exec_ctlwr, execCtlwr, ctlPrivileged_precise _ hn hu hp]
    · rw [exec_ctlset, execCtlset, ctlPrivileged_precise _ hn hu hp]
    · rw [exec_ctlclr, execCtlclr, ctlPrivileged_precise _ hn hu hp]

end Sys2Proof.Machine
end

section
/-! Hardware loops and REP (O35). -/

namespace Sys2Proof.Machine

theorem exec_loop (l : LReg) (n e : BitVec 16) (s : State) : exec (.loop l n e) s = startLoop l (n.zeroExtend 32) e s := rfl
theorem exec_loopr (l : LReg) (a : GReg) (e : BitVec 16) (s : State) :
    exec (.loopr l a e) s = startLoop l ((s.core.rd a).truncate 32) e s := rfl
theorem exec_lbrk (l : LReg) (i : BitVec 32) (s : State) :
    exec (.lbrk l i) s = transferTo (s.core.relTarget i) (fun c => { c with lc := clearLoops l c.lc }) s := rfl
theorem exec_rep (cnt : Fin 64) (step : BitVec 4) (stride : Fin 4) (s : State) :
    exec (.rep cnt step stride) s = execRep cnt step stride s := rfl

/-! ### Transfers of control (R193, R198) -/

/-- A transfer of control to a, on the core. -/
def Core.transferred (c : Core) (a : BitVec 17) : Core := ({ c with wait := none }.goto a).nextIn 3

theorem transferTo_eq (a : BitVec 17) (f : Core → Core) (s : State) :
    transferTo a f s = .next { s with core := (f s.core).transferred a } := rfl

@[simp] theorem Core.transferred_pc (c : Core) (a : BitVec 17) : (c.transferred a).pc = a := by
  unfold Core.transferred Core.nextIn
  split <;> rfl
@[simp] theorem Core.transferred_lc (c : Core) (a : BitVec 17) : (c.transferred a).lc = c.lc := by
  unfold Core.transferred Core.nextIn
  split <;> rfl

/-- Marking a task as executed twice is marking it once. -/
theorem executed_twice (t : Option Task) :
    (t.map (fun t => { t with executed := true })).map (fun t => { t with executed := true }) = t.map (fun t => { t with executed := true }) := by
  rw [Option.map_map]
  rfl

/-- A transfer of control changes of its core what moving the pc changes. -/
theorem Core.transferred_moved (c : Core) (a : BitVec 17) : c.moved (c.transferred a) := by
  unfold Core.transferred Core.nextIn
  split
  · exact ⟨rfl, executed_twice c.task⟩
  · exact ⟨rfl, executed_twice c.task⟩

/-- A state whose core has only moved. -/
theorem framePc_of_moved (s : State) {c : Core} (h : s.core.moved c) : framePc s { s with core := c } := ⟨rfl, fun _ => rfl, h⟩

/-- A transfer of control jumps, from the state whose core the word has changed. -/
theorem jumpsTo_transferred (s : State) (a : BitVec 17) : jumpsTo s { s with core := s.core.transferred a } a :=
  ⟨s.core.transferred_pc a, s.core.transferred_lc a, framePc_of_moved s (s.core.transferred_moved a)⟩

/-- A relative target is the pc and the sign-extended field, modulo 2 ^ 17 (R193). -/
theorem relTarget_eq_branchTarget (s : State) (i : BitVec 32) : s.core.relTarget i = branchTarget s i := by
  have pc : BitVec.ofInt 17 (s.core.pc.toNat : Int) = s.core.pc := by simp
  have off : BitVec.ofInt 17 i.toInt = i.truncate 17 := BitVec.signExtend_eq_setWidth_of_le i (by decide)
  rw [branchTarget, BitVec.ofInt_add, pc, off, Core.relTarget]

/-! ### LOOP, LOOPR and LBRK (R197, R199) -/

/-- The core whose counter l has begun n passes of the body behind the word, which ends at pc + e. -/
def Core.loopStarted (c : Core) (l : LReg) (n : BitVec 32) (e : BitVec 16) : Core :=
  { c with lc := c.lc.set l.val ⟨n, c.pc + 8, c.pc + BitVec.ofNat 17 e.toNat, true⟩ }

/-- A count other than zero starts the counter and goes on. -/
theorem startLoop_starts (l : LReg) {n : BitVec 32} (e : BitVec 16) (s : State) (h : n ≠ 0) :
    startLoop l n e s = .next { s with core := (s.core.loopStarted l n e).retire } := by
  rw [startLoop, if_neg h, Core.loopStarted, BitVec.ofNat_toNat]
  rfl

/-- A count of zero skips the body. -/
theorem startLoop_skips (l : LReg) (e : BitVec 16) (s : State) :
    ∃ t, startLoop l 0 e s = .next t
      ∧ jumpsTo { s with core := { s.core with lc := s.core.lc.set l.val { s.core.lc.get l with active := false } } } t
          (s.core.pc + BitVec.ofNat 17 e.toNat + 8) := by
  rw [startLoop, if_pos rfl, transferTo_eq, BitVec.ofNat_toNat]
  exact ⟨_, rfl, jumpsTo_transferred { s with core := { s.core with lc := s.core.lc.set l.val { s.core.lc.get l with active := false } } } _⟩

/-- The counters up to l are inactive, the others as they were (R199). -/
theorem clearLoops_get (l : LReg) (v : Vector LoopCtr 4) (k : Fin 4) :
    (clearLoops l v).get k = if k ≤ l then { v.get k with active := false } else v.get k := by
  have fold : ∀ (ns : List (Fin 4)) (v : Vector LoopCtr 4),
      (ns.foldl (fun v (n : Fin 4) => if n ≤ l then v.set n.val { v.get n with active := false } else v) v).get k
        = if k ∈ ns ∧ k ≤ l then { v.get k with active := false } else v.get k := by
    intro ns
    induction ns with
    | nil => intro v; simp
    | cons n ns ih =>
      intro v
      rw [List.foldl_cons, ih]
      by_cases hn : n ≤ l
      · by_cases e : k = n
        · simp [hn, vector_get_set, e]
        · simp [hn, vector_get_set, e]
      · have ne : k ≤ l → k ≠ n := fun hk e => hn (e ▸ hk)
        by_cases hk : k ≤ l <;> simp [hn, hk, ne]
  rw [clearLoops, fold]
  simp only [mem_counters, true_and]

/-! ### REP (R157 to R159, R465) -/

/-- The majors that can repeat. -/
theorem repeatable_iff (w : Word) : repeatable (bits w.toNat 63 56) = true
    ↔ w.toNat / 2 ^ 56 ∈ [0x80, 0x81, 0x82, 0x83, 0x8A, 0x8B, 0x8C, 0x8E, 0x8F, 0x90, 0x92] := by
  have e : bits w.toNat 63 56 = w.toNat / 2 ^ 56 := by
    have := w.isLt
    unfold bits
    omega
  rw [repeatable, e, List.contains_iff_mem]

/-- A REP before a word of a major that cannot repeat. -/
theorem execRep_invalid {cnt : Fin 64} {step : BitVec 4} {stride : Fin 4} {s : State}
    (h : repeatable (bits (s.fetch (s.core.pc + 8)).toNat 63 56) = false) :
    execRep cnt step stride s = raise { code := 3 } s := by
  simp only [execRep, h, Bool.not_false, if_true]

/-- A REP before a word that does not decode (entry 109). -/
theorem execRep_undecodable {cnt : Fin 64} {step : BitVec 4} {stride : Fin 4} {s : State} {n : Nat}
    (h : repeatable (bits (s.fetch (s.core.pc + 8)).toNat 63 56) = true) (hd : decode (s.fetch (s.core.pc + 8)) = .error n) :
    execRep cnt step stride s = undefined n s := by
  simp only [execRep, h, Bool.not_true, Bool.false_eq_true, if_false, hd]

/-- A REP before a word with a stepped field out of its range or not in use. -/
theorem execRep_bad {cnt : Fin 64} {step : BitVec 4} {stride : Fin 4} {s : State} {g : Guarded}
    (h : repeatable (bits (s.fetch (s.core.pc + 8)).toNat 63 56) = true) (hd : decode (s.fetch (s.core.pc + 8)) = .ok g)
    (hb : repBad (s.fetch (s.core.pc + 8)) g.instr cnt.val step stride.val = true) :
    execRep cnt step stride s = undefined 5 s := by
  simp only [execRep, h, Bool.not_true, Bool.false_eq_true, if_false, hd, hb, if_true]

/-- Does a REP before the word g begin its sequence: the guard holds, or held before the fault that RTE comes back from (R465)? -/
def Core.repGoes (c : Core) (g : Guarded) : Bool := c.guardHolds g || (c.repResume && c.repHeld == some c.pc)

theorem Core.repGoes_iff (c : Core) (g : Guarded) :
    c.repGoes g = true ↔ c.rp g.gp ≠ g.neg ∨ (c.repResume = true ∧ c.repHeld = some c.pc) := by
  simp [Core.repGoes, Core.guardHolds]

/-- The first repeat of a sequence: 0, or REPPOS after an RTE to the REP (R159). -/
def Core.repFirst (c : Core) : Nat := if c.repResume = true then c.ctl.reppos.toNat % 64 else 0

section
variable {cnt : Fin 64} {step : BitVec 4} {stride : Fin 4} {s : State} {g : Guarded}
  (h : repeatable (bits (s.fetch (s.core.pc + 8)).toNat 63 56) = true) (hd : decode (s.fetch (s.core.pc + 8)) = .ok g)
  (hb : repBad (s.fetch (s.core.pc + 8)) g.instr cnt.val step stride.val = false)
include h hd hb

/-- A REP whose word can repeat. -/
theorem execRep_ok : execRep cnt step stride s =
    if s.core.repGoes g = true then
      if cnt.val < s.core.repFirst then .next { s with core := { s.core with wait := none }.goto (s.core.pc + 16) }
      else .next { s with core := { s.core with
        rep := some ⟨cnt.val, step, stride, s.core.repFirst⟩, repResume := false
        repHeld := if s.core.priv then s.core.repHeld else none }.markExecuted }
    else .next { s with core :=
        ({ s.core with lc := (loopEnd s.core.lc (s.core.pc + 8)).1, wait := none }.goto (loopEnd s.core.lc (s.core.pc + 8)).2) } := by
  have first : bits s.core.ctl.reppos.toNat 5 0 = s.core.ctl.reppos.toNat % 64 := by simp [bits]
  simp only [execRep, h, Bool.not_true, Bool.false_eq_true, if_false, hd, hb, first]
  rfl

/-- The sequence begins (R157, R159). -/
theorem execRep_begins (hg : s.core.repGoes g = true) (hf : s.core.repFirst ≤ cnt.val) :
    ∃ t, execRep cnt step stride s = .next t ∧ t.core.rep = some ⟨cnt.val, step, stride, s.core.repFirst⟩ ∧ t.core.pc = s.core.pc
      ∧ framePc s t := by
  rw [execRep_ok h hd hb, if_pos hg, if_neg (by omega)]
  exact ⟨_, rfl, rfl, rfl, framePc_of_moved s ⟨rfl, executed_twice _⟩⟩

/-- A REPPOS above CNT goes on behind the repeated word. -/
theorem execRep_passes (hg : s.core.repGoes g = true) (hf : cnt.val < s.core.repFirst) (hr : s.core.rep = none) :
    ∃ t, execRep cnt step stride s = .next t ∧ t.core.pc = s.core.pc + 16 ∧ t.core.rep = none ∧ framePc s t := by
  rw [execRep_ok h hd hb, if_pos hg, if_pos hf]
  exact ⟨_, rfl, rfl, hr, framePc_of_moved s ⟨rfl, executed_twice _⟩⟩

/-- With a false guard both words are skipped, with loop-end processing for the second (entry 5). -/
theorem execRep_skips (hg : ¬ s.core.repGoes g = true) (hr : s.core.rep = none) :
    execRep cnt step stride s = .next { s with core := Core.retire { s.core with pc := s.core.pc + 8 } } := by
  rw [execRep_ok h hd hb, if_neg hg]
  simp only [Core.retire, hr]
  rfl

end

/-- The loop words (R197, R199). -/
theorem loopWords (s : State) (l : LReg) (n e : BitVec 16) (a : GReg) (i : BitVec 32) :
    let skipped := { s.core with lc := s.core.lc.set l.val { s.core.lc.get l with active := false } }
    let past := s.core.pc + BitVec.ofNat 17 e.toNat + 8
    (n ≠ 0 → exec (.loop l n e) s = .next { s with core := (s.core.loopStarted l (BitVec.ofNat 32 n.toNat) e).retire })
    ∧ ((s.core.rd a).toNat % 2 ^ 32 ≠ 0 →
      exec (.loopr l a e) s = .next { s with core := (s.core.loopStarted l (BitVec.ofNat 32 (s.core.rd a).toNat) e).retire })
    ∧ (n = 0 → ∃ t, exec (.loop l n e) s = .next t ∧ jumpsTo { s with core := skipped } t past)
    ∧ ((s.core.rd a).toNat % 2 ^ 32 = 0 → ∃ t, exec (.loopr l a e) s = .next t ∧ jumpsTo { s with core := skipped } t past)
    ∧ (∃ t, exec (.lbrk l i) s = .next t ∧ t.core.pc = branchTarget s i
        ∧ (∀ k : Fin 4, t.core.lc.get k = if k ≤ l then { s.core.lc.get k with active := false } else s.core.lc.get k)
        ∧ framePc { s with core := { s.core with lc := t.core.lc } } t) := by
  have wide : n.zeroExtend 32 = 0 ↔ n = 0 := by rw [BitVec.zeroExtend_eq_setWidth]; bv_omega
  have low : (s.core.rd a).truncate 32 = 0 ↔ (s.core.rd a).toNat % 2 ^ 32 = 0 := by
    rw [BitVec.truncate_eq_setWidth, ← BitVec.toNat_inj, BitVec.toNat_setWidth]; rfl
  refine ⟨fun h => ?_, fun h => ?_, fun h => ?_, fun h => ?_, ?_⟩
  · rw [exec_loop, startLoop_starts l e s (mt wide.1 h), BitVec.ofNat_toNat]
  · rw [exec_loopr, startLoop_starts l e s (mt low.1 h), BitVec.ofNat_toNat]
  · rw [exec_loop, wide.2 h]; exact startLoop_skips l e s
  · rw [exec_loopr, low.2 h]; exact startLoop_skips l e s
  · rw [exec_lbrk, transferTo_eq, relTarget_eq_branchTarget]
    refine ⟨_, rfl, Core.transferred_pc _ _, fun k => ?_, ?_⟩
    · rw [Core.transferred_lc, clearLoops_get]
    · rw [Core.transferred_lc]
      exact framePc_of_moved { s with core := { s.core with lc := clearLoops l s.core.lc } } (Core.transferred_moved _ _)

/-- Settles O35, from what a loop word does and from the outcomes of a REP. -/
theorem loopAndRepeatWords : Obligations.LoopAndRepeatWords := by
  refine ⟨loopWords, fun s cnt step stride g hr => ?_⟩
  simp only [← repeatable_iff, ← Core.repGoes_iff, exec_rep, Bool.not_eq_true]
  refine ⟨fun can hd hb => ⟨fun hg hf => execRep_begins can hd hb hg hf, fun hg hf => execRep_passes can hd hb hg hf hr,
    fun hg => execRep_skips can hd hb (by simp [hg]) hr⟩, fun can hd hb hp => ?_, fun n can hd hp => ?_, fun can hp => ?_⟩
  · rw [execRep_bad can hd hb, undefined, raise_precise _ hp]
  · rw [execRep_undecodable can hd, undefined, raise_precise _ hp]
  · rw [execRep_invalid can, raise_precise _ hp]

end Sys2Proof.Machine
end

section
/-! What a step does with the turn that is named (O4). -/

namespace Sys2Proof.Machine

section
variable {run : Instr → State → Out State} {s : State}

/-! ### The turn -/

theorem stepWith_seq {r : List Turn} (h : s.turns = .seq :: r) :
    stepWith run s = seqCycle run { s with turns := r, skipped := false } := by
  simp only [stepWith, h]

theorem stepWith_ev {r : List Turn} {p : Place} {i : Instr} (h : s.turns = .ev p i :: r) :
    stepWith run s = run i { s with turns := r, skipped := false, place := p } := by
  simp only [stepWith, h]

/-! ### A core cycle of the sequencer (R180, R394) -/

/-- The sequencer of a core with a task in a package that runs, with no earlier cycle of another core to finish. -/
theorem seqCycle_verdict (hp : (s.getPkg s.core.key.pkg).power = true) (hr : (s.getPkg s.core.key.pkg).inReset = false)
    (hf : s.core.phase ≠ .free) (ho : s.allCores.any (fun c => s.working c && decide (c.clock < s.core.clock)) = false) :
    seqCycle run s = match s.core.verdict with
      | none => .next (s.boundary run)
      | some true => .next (s.stallCycle run)
      | some false => sequence run (s.work run) := by
  have on : ¬ ((!(s.getPkg s.core.key.pkg).power || (s.getPkg s.core.key.pkg).inReset) = true) := by simp [hp, hr]
  have first : ¬ (s.allCores.any (fun c => s.working c && decide (c.clock < s.core.clock)) = true) := by simp [ho]
  exact (if_neg on).trans ((if_neg hf).trans (if_neg first))

theorem seqCycle_turnOpen (h : s.turnOpen) : seqCycle run s = sequence run (s.work run) := by
  obtain ⟨hp, hr, running, ho, verdict⟩ := h
  rw [seqCycle_verdict hp hr (by rw [running]; exact Phase.noConfusion) ho, verdict]

/-! ### The word at the pc (R154, R155) -/

/-- With nothing that holds the next word, it executes. -/
theorem sequence_wordFree (h : s.wordFree) : sequence run s = runWord run s.nextWord s := by
  obtain ⟨running, trap, fault, free, section_, -⟩ := h
  simp only [sequence, trap, running, fault, free, section_, Bool.or_self, Bool.false_eq_true, if_true, if_false]

/-- A word that waits lets the core cycle pass. -/
theorem sequence_interlocked (running : s.core.phase = .running) (trap : s.core.trap = none) (fault : s.core.boundaryFault = none)
    (h : s.interlocked = true) : sequence run s = .next s := by
  simp only [sequence, trap, running, fault, h, Bool.true_or, if_true]

@[simp] theorem State.issued_rep (s : State) (w : Word) : (s.issued w).core.rep = s.core.rep := Core.enterSection_rep _
@[simp] theorem State.issued_rp (s : State) (w : Word) (a : PReg) : (s.issued w).core.rp a = s.core.rp a := by
  simp only [Core.rp, State.issued, Core.enterSection_p]
@[simp] theorem State.issued_guardHolds (s : State) (w : Word) (g : Guarded) :
    (s.issued w).core.guardHolds g = s.core.guardHolds g := by simp only [Core.guardHolds, State.issued_rp]
@[simp] theorem State.issued_spoiled (s : State) (w : Word) (pa n : Nat) : (s.issued w).spoiled pa n = s.spoiled pa n := rfl

/-- The word that issues is the one at the same address. -/
theorem State.issued_wordAddr (s : State) (w : Word) :
    codePA (s.issued w).core.key + (s.issued w).core.wordAddr.toNat = codePA s.core.key + s.core.wordAddr.toNat := by
  simp only [Core.wordAddr, State.issued, Core.enterSection_key, Core.enterSection_rep, Core.enterSection_pc]

/-- Issuing a word leaves a fault as precise as it was. -/
theorem State.issued_precise (h : s.core.precise) (w : Word) : (s.issued w).core.precise := by
  obtain ⟨idle, phase⟩ := h
  refine ⟨?_, by rwa [State.issued, Core.enterSection_phase]⟩
  simpa only [Core.vectorIdle, State.issued, Core.enterSection_vq, Core.enterSection_vfly, Core.enterSection_loads,
    Core.enterSection_stores] using idle

/-- A word whose bytes hold no soft error issues without one. -/
theorem State.issued_clean {w : Word} (h : s.spoiled (codePA s.core.key + s.core.wordAddr.toNat) 8 = false) :
    ¬ (s.issued w).spoiled (codePA (s.issued w).core.key + (s.issued w).core.wordAddr.toNat) 8 = true := by
  rw [State.issued_wordAddr, State.issued_spoiled, h]
  exact Bool.false_ne_true

/-- A word that fails a check of R154. -/
theorem runWord_error {w : Word} {n : Nat} (h : s.spoiled (codePA s.core.key + s.core.wordAddr.toNat) 8 = false)
    (hd : decode w = .error n) : runWord run w s = undefined n (s.issued w) := by
  rw [runWord, if_neg (State.issued_clean h)]
  simp only [hd]

/-- A word that decodes runs where its guard holds, and is skipped where it does not. -/
theorem runWord_ok {w : Word} {g : Guarded} (h : s.spoiled (codePA s.core.key + s.core.wordAddr.toNat) 8 = false)
    (hd : decode w = .ok g) : runWord run w s =
      if s.core.rep.isSome || s.core.guardHolds g then run g.instr ((s.issued w).withCore ((s.issued w).core.noteResult g.instr))
      else skipWord (s.issued w) := by
  rw [runWord, if_neg (State.issued_clean h)]
  simp only [hd, State.issued_rep, State.issued_guardHolds]

theorem Core.guardHolds_iff (c : Core) (g : Guarded) : c.guardHolds g = true ↔ c.rp g.gp ≠ g.neg := by
  rw [Core.guardHolds, bne_iff_ne]

/-- A word waits for a load whose register it names (R180, R291). -/
theorem interlocked_of_load {l : PLoad} {g : Guarded} {d : GReg} {sz : MemSize} (hl : l ∈ s.core.loads)
    (hd : decode s.nextWord = .ok g) (hg : s.core.guardHolds g = true) (dst : l.dst = .reg d sz) (h0 : d ≠ 0) (hn : d ∈ gNames g.instr) :
    s.interlocked = true := by
  have waits : d ∈ s.core.waitsFor s.nextWord := by
    simp only [Core.waitsFor, hd, hg, Bool.or_true, if_true]
    exact List.mem_filter.2 ⟨hn, decide_eq_true (fun e => h0 (Fin.ext e))⟩
  have needs : s.core.needs s.nextWord l = true := by
    have : l.fills d = true := by simp [PLoad.fills, dst]
    simp only [Core.needs, PLoad.isPlane, dst, Bool.not_false, Bool.true_and]
    exact List.any_eq_true.2 ⟨d, waits, this⟩
  have : s.core.loads.any (s.core.needs s.nextWord) = true := List.any_eq_true.2 ⟨l, hl, needs⟩
  simp only [State.interlocked, this, Bool.true_or]

end

/-- Settles O4: each turn of the sequencer by what holds its word, and a device event by its meaning. -/
theorem stepRunsTheDecodedInstruction : Obligations.StepRunsTheDecodedInstruction := by
  refine ⟨fun s r turns => ?_, fun s r p i turns => stepWith_ev turns⟩
  intro s' u w
  have turn : step s = seqCycle exec s' := stepWith_seq turns
  have cycle := seqCycle_verdict (run := exec) (s := s')
  have issue (h : State.issues s') : step s = runWord exec w u := by
    rw [turn, seqCycle_turnOpen h.1, sequence_wordFree h.2]
  have clean (h : State.issues s') : u.spoiled (codePA u.core.key + u.core.wordAddr.toNat) 8 = false := h.2.2.2.2.2.2
  refine ⟨fun h g hd hg => ?_, fun h g hd hr hg => ?_, fun h n hd hp => ?_,
    fun h running trap fault ⟨l, hl, g, d, sz, hd, _, hg, dst, h0, hn⟩ => ?_, fun power reset phase first => ⟨fun v => ?_, fun v => ?_⟩⟩
  · have runs : (u.core.rep.isSome || u.core.guardHolds g) = true := by rwa [Bool.or_eq_true, Core.guardHolds_iff]
    exact (issue h).trans ((runWord_ok (clean h) hd).trans (if_pos runs))
  · have skips : ¬ (u.core.rep.isSome || u.core.guardHolds g) = true := by
      simp [hr, Core.guardHolds_iff, hg]
    exact (issue h).trans ((runWord_ok (clean h) hd).trans (if_neg skips))
  · rw [issue h, runWord_error (clean h) hd]
    exact raise_precise _ (State.issued_precise hp w)
  · rw [turn, seqCycle_turnOpen h]
    exact sequence_interlocked running trap fault (interlocked_of_load hl hd ((Core.guardHolds_iff _ g).2 hg) dst h0 hn)
  · exact turn.trans ((cycle power reset phase first).trans (by rw [show s'.core.verdict = _ from v]))
  · exact turn.trans ((cycle power reset phase first).trans (by rw [show s'.core.verdict = _ from v]))

end Sys2Proof.Machine
end

section
/-! Every word and every event has a next state: one lemma for each operation that words and events share, and one for each meaning of its own
with more than one outcome (O5). -/

namespace Sys2Proof.Machine

/-- The answer is a next state: neither a fault of the machine nor a refusal. -/
def Completes (o : Out State) : Prop := ∃ t, o = .next t

theorem Completes.next {t : State} : Completes (.next t) := ⟨t, rfl⟩
theorem Completes.ite {p : Prop} [Decidable p] {a b : Out State} (ha : Completes a) (hb : Completes b) :
    Completes (if p then a else b) := by
  split
  · exact ha
  · exact hb
theorem Completes.not_fault {o : Out State} (h : Completes o) (f : Fault) : o ≠ .fault f := by
  obtain ⟨t, rfl⟩ := h
  nofun
theorem Completes.not_refused {o : Out State} (h : Completes o) (r : Refusal) : o ≠ .refused r := by
  obtain ⟨t, rfl⟩ := h
  nofun

section
variable {s : State}

/-! ### Retirement, waits and guards of a meaning -/

theorem stayCounted_completes : Completes (stayCounted s) := .ite .next .next
theorem writeRetire_completes {d v f} : Completes (writeRetire d v f s) := .ite .next .next
theorem setG_completes {d v} : Completes (setG d v s) := writeRetire_completes
theorem alu_completes {d f} : Completes (alu d f s) := setG_completes
theorem fpResult_completes {d f} : Completes (fpResult d f s) := writeRetire_completes
theorem privileged_completes {m : State → Out State} (hm : ∀ s, Completes (m s)) : Completes (privileged m s) := .ite (hm s) .next
theorem unlessSpoiled_completes {pa n} {m : State → Out State} (hm : ∀ s, Completes (m s)) : Completes (unlessSpoiled pa n m s) :=
  .ite .next (hm s)
theorem transFault_completes {va x slot engine} : Completes (transFault va x slot engine s) := by
  cases x with
  | fault => exact .next
  | spoiled => exact .next
  | wait => exact .next
theorem logFault_completes {e engine} : Completes (logFault e engine s) := by
  cases e with
  | full => exact .next
  | conflict => exact .next
theorem waitOwn_completes {m r} : Completes (waitOwn m r s) := .ite .next .next
theorem streamOnly_completes {m : Task → State → Out State} (hm : ∀ t s, Completes (m t s)) : Completes (streamOnly m s) := by
  unfold streamOnly
  refine .ite ?_ .next
  split
  · exact hm _ s
  · exact .next
theorem withRead_completes {va n} {m : Nat → Trans → State → Out State} (hm : ∀ pa tr s, Completes (m pa tr s)) :
    Completes (withRead va n m s) := by
  unfold withRead
  refine .ite .next ?_
  split
  · exact transFault_completes
  · exact hm _ _ _
theorem withPlace_completes {va n} {m : Nat → Trans → State → Out State} (hm : ∀ pa tr s, Completes (m pa tr s)) :
    Completes (withPlace va n m s) := by
  unfold withPlace
  refine .ite .next ?_
  split
  · exact transFault_completes
  · exact hm _ _ _
theorem unlessCovered_completes {va pa n} {m : State → Out State} (hm : ∀ s, Completes (m s)) : Completes (unlessCovered va pa n m s) := by
  unfold unlessCovered
  split
  · exact .next
  · exact hm s
theorem withWrite_completes {va n} {m : Nat → Trans → State → Out State} (hm : ∀ pa tr s, Completes (m pa tr s)) :
    Completes (withWrite va n m s) :=
  withPlace_completes (fun pa tr _ => unlessCovered_completes (hm pa tr))
theorem ctlPrivileged_completes {n} {m : State → Out State} (hm : ∀ s, Completes (m s)) : Completes (ctlPrivileged n m s) :=
  .ite (privileged_completes hm) (hm s)

/-! ### Loads, stores, fences and atomics -/

theorem storeChunks_completes {cls ls obs trans fin vec} : Completes (storeChunks cls ls obs trans fin s vec) := by
  unfold storeChunks
  refine .ite .next ?_
  split
  · exact logFault_completes
  · exact .next
theorem storeBytes_completes {cls l obs trans fin vec} : Completes (storeBytes cls l obs trans fin s vec) := storeChunks_completes
theorem loadReg_completes {cls sz d va f obs} : Completes (loadReg cls sz d va f s obs) :=
  withRead_completes (fun _ _ _ => .ite (.ite .next (unlessSpoiled_completes (fun _ => writeRetire_completes))) .next)
theorem execLdp_completes {cls d b a off} : Completes (execLdp cls d b a off s) :=
  withRead_completes (fun _ _ _ => withRead_completes (fun _ _ _ => .ite (.ite .next
    (unlessSpoiled_completes (fun _ => unlessSpoiled_completes (fun _ => .ite .next writeRetire_completes)))) .next))
theorem storeReg_completes {cls obs sz d va f} : Completes (storeReg cls obs sz d va f s) :=
  withWrite_completes (fun _ _ _ => .ite waitOwn_completes storeBytes_completes)
theorem execStp_completes {cls d b a off} : Completes (execStp cls d b a off s) :=
  withPlace_completes (fun _ _ _ => withPlace_completes (fun _ _ _ =>
    unlessCovered_completes (fun _ => unlessCovered_completes (fun _ => storeChunks_completes))))
theorem fence_completes {m r} : Completes (fence m r s) := .ite waitOwn_completes .next
theorem atomic_completes {cls obs m d a off} : Completes (atomic cls obs m d a off s) := by
  refine withWrite_completes (fun pa tr s => .ite ?_ (.ite (.ite waitOwn_completes (unlessSpoiled_completes (fun _ => .ite .next .next))) .next))
  split
  · exact .next
  · refine .ite waitOwn_completes ?_
    split
    · exact logFault_completes
    · exact .next

/-! ### Integer, stream, branch and loop words -/

theorem execBatch_completes {d a w} : Completes (execBatch d a w s) := by
  refine streamOnly_completes (fun t s => ?_)
  dsimp only
  split
  · exact setG_completes
  · exact .next
theorem execNeed_completes {d a b once} : Completes (execNeed d a b once s) := .ite .next setG_completes
theorem execKva_completes {d a b} : Completes (execKva d a b s) := .ite .next setG_completes
theorem execAcalloc_completes {d n} : Completes (execAcalloc d n s) := by
  unfold execAcalloc
  dsimp only
  split
  · exact setG_completes
  · exact writeRetire_completes
theorem execAcfree_completes {a} : Completes (execAcfree a s) := by
  unfold execAcfree
  dsimp only
  split
  · exact .next
  · exact .ite .next .next
theorem branchIf_completes {t i} : Completes (branchIf t i s) := .ite .next .next
theorem execBmz_completes {i} : Completes (execBmz i s) := .ite branchIf_completes .next
theorem execBrl_completes {d a} : Completes (execBrl d a s) := .ite .next (.ite .next .next)
theorem pushAndGo_completes {t} : Completes (pushAndGo t s) := by
  unfold pushAndGo
  refine .ite .next (.ite .next ?_)
  split
  · exact transFault_completes
  · split
    · exact .next
    · exact storeBytes_completes
theorem execCallr_completes {a} : Completes (execCallr a s) := .ite pushAndGo_completes .next
theorem execRet_completes : Completes (execRet s) := by
  unfold execRet
  dsimp only
  split
  · exact .next
  · refine .ite .next ?_
    split
    · exact transFault_completes
    · exact .ite .next (unlessSpoiled_completes (fun _ => .next))
theorem startLoop_completes {l n e} : Completes (startLoop l n e s) := .ite .next .next
theorem execSafe_completes {g l} : Completes (execSafe g l s) := by
  unfold execSafe
  refine .ite .next ?_
  split
  · exact .next
  · exact .next
  · exact .next
theorem execRep_completes {n x y} : Completes (execRep n x y s) := by
  unfold execRep
  refine .ite .next ?_
  split
  · exact .next
  · exact .ite .next (.ite (.ite .next .next) .next)
theorem execWbind_completes {w a} : Completes (execWbind w a s) := by
  unfold execWbind
  refine .ite .next ?_
  split
  · exact transFault_completes
  · refine .ite .next (unlessSpoiled_completes (fun s => ?_))
    dsimp only
    split
    · exact .next
    · exact .next

/-! ### Synchronisation, control registers and the handler's words -/

theorem waitAccesses_completes : Completes (waitAccesses s) := .ite .next stayCounted_completes
theorem arriveAt_completes {sc i} {m : BitVec 16 → State → Out State} (hm : ∀ p s, Completes (m p s)) : Completes (arriveAt sc i m s) :=
  .ite .next (.ite waitAccesses_completes (hm _ _))
theorem execBara_completes {d sc i} : Completes (execBara d sc i s) := .ite .next (arriveAt_completes (fun _ _ => setG_completes))
theorem retireOrCount_completes {p : Prop} [Decidable p] : Completes (if p then ok s.retire else stayCounted s) :=
  .ite .next stayCounted_completes
theorem execBar_completes {sc i} : Completes (execBar sc i s) := by
  unfold execBar
  split
  · exact retireOrCount_completes
  · exact arriveAt_completes (fun _ _ => .next)
theorem execBarc_completes {sc i a} : Completes (execBarc sc i a s) := privileged_completes (fun _ => .ite .next .next)
theorem signalWord_completes {x cls obs b a off} : Completes (signalWord x cls obs b a off s) :=
  withWrite_completes (fun _ _ _ => .ite .next .next)
theorem pollSignal_completes {d b cmp lim n pa k tr v} : Completes (pollSignal d b cmp lim n pa k tr v s) :=
  .ite .next (.ite setG_completes stayCounted_completes)
theorem execSigw_completes {obs d a b cmp lim} : Completes (execSigw obs d a b cmp lim s) := by
  unfold execSigw
  split
  · exact pollSignal_completes
  · exact withRead_completes (fun _ _ _ => pollSignal_completes)
theorem execSigwLimit_completes : Completes (execSigwLimit s) := by
  unfold execSigwLimit
  split
  · exact .ite setG_completes .next
  · exact .next
theorem execMerge_completes : Completes (execMerge s) := by
  unfold execMerge
  dsimp only
  split
  · exact .next
  · refine .ite .next ?_
    split
    · exact .next
    · split
      · exact .next
      · exact stayCounted_completes
      · exact .ite .next (.ite .next waitAccesses_completes)
theorem execCtlrd_completes {d n} : Completes (execCtlrd d n s) := .ite .next setG_completes
theorem execQcreate_completes {a} : Completes (execQcreate a s) := by
  refine privileged_completes (fun s => ?_)
  dsimp only
  split
  · exact transFault_completes
  · split
    · exact .next
    · exact .next
theorem execTmark_completes {a b range scope} : Completes (execTmark a b range scope s) := by
  refine privileged_completes (fun s => ?_)
  dsimp only
  split
  · exact .ite .next .next
  · exact .ite waitOwn_completes (.ite .next .next)
theorem execIcfence_completes : Completes (execIcfence s) := .ite .next .next

/-! ### Enqueueing, vector words and vector accesses -/

theorem enqueue_completes {keep : State → State} {held ws} : Completes (enqueue keep held ws s) := by
  unfold enqueue
  refine .ite .next (.ite .next (.ite (.ite .next .next) ?_))
  split
  · exact .next
  · exact .next
  · exact .next
  · exact .next
theorem enqGuard_completes {m : State → Out State} (hm : ∀ s, Completes (m s)) : Completes (enqGuard m s) := .ite .next (hm s)
theorem execEnq_completes {a} : Completes (execEnq a s) := by
  refine enqGuard_completes (fun s => ?_)
  dsimp only
  split
  · exact enqueue_completes
  · refine .ite .next ?_
    split
    · exact transFault_completes
    · exact .ite waitOwn_completes (unlessSpoiled_completes (fun _ => enqueue_completes))
theorem execEnqr_completes {b} : Completes (execEnqr b s) := enqGuard_completes (fun _ => enqueue_completes)
theorem vGuard_completes {m : State → Out State} (hm : ∀ s, Completes (m s)) : Completes (vGuard m s) := .ite .next (.ite .next (hm s))
theorem vPut_completes {i rm x y} : Completes (vPut i rm x y s) := vGuard_completes (fun _ => .next)
theorem vPlain_completes {i} : Completes (vPlain i s) := vPut_completes
theorem vRound_completes {i rm} : Completes (vRound i rm s) := vPut_completes
theorem vChecked_completes {p : Prop} [Decidable p] {n i} : Completes (if p then vGuard (vFault n) s else vPlain i s) :=
  .ite (vGuard_completes (fun _ => .next)) vPut_completes
theorem packed_completes {i} : Completes (packed i s) := .ite (vGuard_completes (fun _ => .next)) vPut_completes
theorem execVmovExtract_completes {d a r c} : Completes (execVmovExtract d a r c s) :=
  .ite (vGuard_completes (fun _ => .ite setG_completes .next)) vPut_completes
theorem vAccess_completes {acc base al w vas} {m : List (Nat × Nat) → List Trans → State → Out State}
    (hm : ∀ l ts s, Completes (m l ts s)) : Completes (vAccess acc base al w vas m s) := by
  unfold vAccess
  refine .ite .next ?_
  split
  · exact transFault_completes
  · split
    · exact .next
    · exact hm _ _ _
theorem rowLoad_completes {i cls sz d base p f} : Completes (rowLoad i cls sz d base p f s) :=
  vGuard_completes (fun _ => vAccess_completes (fun _ _ _ => .next))
theorem storeNow_completes {cls d w occ l ts f} : Completes (storeNow cls d w occ l ts f s) := by
  unfold storeNow
  dsimp only
  split
  · exact logFault_completes
  · split
    · exact logFault_completes
    · exact storeBytes_completes
theorem vStore_completes {i cls sz d occ l ts f} : Completes (vStore i cls sz d occ l ts f s) := .ite (.ite storeNow_completes .next) .next
theorem rowStore_completes {i cls sz d base p f} : Completes (rowStore i cls sz d base p f s) :=
  vGuard_completes (fun _ => vAccess_completes (fun _ _ _ => vStore_completes))
theorem indexed_completes {acc sz a b off} {m : List (Nat × Nat) → List Trans → State → Out State} (hm : ∀ l ts s, Completes (m l ts s)) :
    Completes (indexed acc sz a b off m s) :=
  vGuard_completes (fun _ => .ite .next (.ite (vAccess_completes hm) .next))

end

end Sys2Proof.Machine
end

section
/-! Every event of the engines, the signals, the collectives, the tasks and the launches has a next state (O5). -/

namespace Sys2Proof.Machine

section
variable {s : State}

/-! ### Vector words, accesses and records on their way -/

theorem execVectorIssue_completes : Completes (execVectorIssue s) := by
  unfold execVectorIssue
  split
  · exact .next
  · exact .ite .next .next
theorem execVectorComplete_completes : Completes (execVectorComplete s) := by
  unfold execVectorComplete
  split
  · exact .next
  · exact .ite .next .next
theorem execLoadDataArrival_completes : Completes (execLoadDataArrival s) := by
  unfold execLoadDataArrival
  split
  · exact .next
  · exact .next
theorem execStorePerform_completes {cls} : Completes (execStorePerform cls s) := by
  unfold execStorePerform
  split
  · split
    · exact .next
    · exact .next
  · dsimp only
    split
    · split
      · exact .next
      · exact .next
    · exact .next
theorem execRecordRetire_completes {x} : Completes (execRecordRetire x s) := by
  unfold execRecordRetire
  split
  · exact .next
  · exact .ite .next .next
theorem stepProduct_completes {i body} : Completes (stepProduct i body s) := by
  unfold stepProduct
  dsimp only
  split
  · exact .next
  · split
    · split
      · exact .next
      · exact .next
    · exact .next
theorem startTransfer_completes {i f} : Completes (startTransfer i f s) := by
  unfold startTransfer
  split
  · exact .next
  · refine .ite ?_ .next
    dsimp only
    split
    · exact .next
    · exact .next
theorem stepTransfer_completes {i body} : Completes (stepTransfer i body s) := by
  unfold stepTransfer
  dsimp only
  split
  · exact .next
  · exact startTransfer_completes
theorem stepRemote_move_completes {i c} : Completes (stepRemote.move i s c) := by
  unfold stepRemote.move
  split
  · exact .next
  · exact .next
theorem stepRemote_completes {i} : Completes (stepRemote i s) := by
  unfold stepRemote
  dsimp only
  split
  · exact .ite startTransfer_completes stepRemote_move_completes
  · exact stepRemote_move_completes
theorem execXslab_completes : Completes (execXslab s) := by
  unfold execXslab
  dsimp only
  split
  · exact .next
  · exact startTransfer_completes
theorem execXsig_completes : Completes (execXsig s) := by
  unfold execXsig
  dsimp only
  split
  · exact .next
  · exact startTransfer_completes
theorem execXtmark_completes : Completes (execXtmark s) := by
  unfold execXtmark
  split
  · exact .ite .next .next
  · exact .next
theorem execXsend_move_completes {c} : Completes (execXsend.move s c) := by
  unfold execXsend.move
  split
  · exact .next
  · exact .next
theorem execXsend_completes : Completes (execXsend s) := by
  unfold execXsend
  dsimp only
  split
  · exact .ite startTransfer_completes execXsend_move_completes
  · exact execXsend_move_completes

/-! ### Collectives and signals -/

theorem execXmlrSetup_completes : Completes (execXmlrSetup s) := by
  unfold execXmlrSetup
  split
  · exact .ite .next .next
  · exact startTransfer_completes
theorem execXmlrSetupTimeout_completes : Completes (execXmlrSetupTimeout s) := by
  unfold execXmlrSetupTimeout
  split
  · exact .next
  · exact .next
theorem execXmlrCombine_completes : Completes (execXmlrCombine s) := by
  unfold execXmlrCombine
  split
  · exact .next
  · exact .ite .next (.ite .next .next)
theorem execXmlrTimeout_completes : Completes (execXmlrTimeout s) := by
  unfold execXmlrTimeout
  split
  · exact .next
  · dsimp only
    split
    · exact .next
    · exact .ite .next .next
theorem execSignalUpdate_completes : Completes (execSignalUpdate s) := by
  unfold execSignalUpdate
  split
  · exact .ite .next .next
  · exact .next
theorem execSignalAcknowledge_completes : Completes (execSignalAcknowledge s) := by
  unfold execSignalAcknowledge
  split
  · exact .ite .next .next
  · exact .next
theorem execSignalResend_completes : Completes (execSignalResend s) := by
  unfold execSignalResend
  split
  · exact .ite .next .next
  · exact .next

/-! ### Logs, tasks and launches -/

theorem gangDet_completes {m : Launch → Out State} (hm : ∀ l, Completes (m l)) : Completes (gangDet m s) := by
  unfold gangDet
  split
  · exact .ite (hm _) .next
  · exact .next
theorem execMergeApply_completes : Completes (execMergeApply s) := gangDet_completes (fun _ => .ite .next .next)
theorem execFinalMerge_completes : Completes (execFinalMerge s) := gangDet_completes (fun _ => .ite .next .next)
theorem execTaskLogApply_completes : Completes (execTaskLogApply s) := by
  unfold execTaskLogApply
  dsimp only
  split
  · split
    · exact .ite (.ite .next .next) .next
    · exact .next
  · exact .next
theorem execStreamLogApply_completes : Completes (execStreamLogApply s) := by
  unfold execStreamLogApply
  dsimp only
  split
  · refine .ite ?_ .next
    split
    · exact .next
    · exact .next
  · exact .next
theorem execPlacementChoice_completes : Completes (execPlacementChoice s) := by
  unfold execPlacementChoice
  refine .ite .next ?_
  split
  · exact .next
  · split
    · exact .next
    · split
      · exact .next
      · exact .next
theorem execContextSaveDone_completes : Completes (execContextSaveDone s) := by
  unfold execContextSaveDone
  dsimp only
  split
  · exact .ite .next .next
  · exact .next
theorem execTaskRetire_completes : Completes (execTaskRetire s) := by
  unfold execTaskRetire
  dsimp only
  split
  · exact .ite .next .next
  · exact .next
theorem execDieLaunchReport_completes : Completes (execDieLaunchReport s) := by
  unfold execDieLaunchReport
  split
  · exact .next
  · split
    · exact .next
    · exact .ite .next (.ite .next .next)
theorem gangShare_completes {m : Launch → DieShare → Out State} (hm : ∀ l x, Completes (m l x)) : Completes (gangShare m s) := by
  unfold gangShare
  split
  · split
    · exact .ite (hm _ _) .next
    · exact .next
  · exact .next
theorem execGangReadyCheck_completes : Completes (execGangReadyCheck s) := gangShare_completes (fun _ _ => .ite (.ite .next .next) .next)
theorem execGangNotReady_completes : Completes (execGangNotReady s) := gangShare_completes (fun _ _ => .ite .next .next)
theorem execGangDefer_completes : Completes (execGangDefer s) := by
  unfold execGangDefer
  split
  · exact .ite .next .next
  · exact .next
theorem execGangStart_completes : Completes (execGangStart s) := by
  unfold execGangStart
  split
  · exact .ite .next .next
  · exact .next
theorem execCoreFuse_completes : Completes (execCoreFuse s) := .ite .next (.ite .next (.ite (.ite .next .next) (.ite .next .next)))

end

end Sys2Proof.Machine
end

section
/-! Every event of the queues, the host, the ring, power and the package's complex has a next state (O5). -/

namespace Sys2Proof.Machine

section
variable {s : State}

/-! ### Queues and packets -/

theorem execDestroyNotice_completes {t} : Completes (execDestroyNotice t s) := by
  unfold execDestroyNotice
  dsimp only
  split
  · exact .ite .next .next
  · exact .next
theorem withQueue_completes {m : QKey → Queue → State → Out State} (hm : ∀ k q s, Completes (m k q s)) : Completes (withQueue m s) := by
  unfold withQueue
  split
  · exact hm _ _ s
  · exact .next
theorem dispatch_completes {kind m may} (hm : ∀ k q p s, Completes (m k q p s)) : Completes (dispatch kind m s may) := by
  refine withQueue_completes (fun k q s => ?_)
  dsimp only
  split
  · exact .ite (hm _ _ _ _) .next
  · exact .next
theorem execPacketFetch_completes : Completes (execPacketFetch s) := by
  refine withQueue_completes (fun k q s => ?_)
  dsimp only
  generalize (if q.part.isEmpty = true then s.validSlot k q else s.slotPA k q q.fetch) = slot
  split
  · exact .ite (.ite (.ite .next .next) (.ite .next .next)) .next
  · exact .next
theorem execQueuePoll_completes : Completes (execQueuePoll s) := withQueue_completes (fun _ _ _ => .ite .next .next)
theorem dispatchLaunch_completes {gang k q p} : Completes (dispatchLaunch gang k q p s) := by
  unfold dispatchLaunch
  split
  · exact .next
  · split
    · exact .next
    · exact .next
theorem execBindKernel_completes : Completes (execBindKernel s) := by
  refine dispatch_completes (fun k q p s => ?_)
  dsimp only
  split
  · exact .next
  · refine .ite .next ?_
    split
    · exact .next
    · exact .ite .next (.ite .next .next)
theorem execRegisterRequest_completes : Completes (execRegisterRequest s) := by
  refine dispatch_completes (fun k q p s => ?_)
  dsimp only
  split
  · exact .next
  · split
    · exact .next
    · exact .next
theorem execRegisterNeed_completes : Completes (execRegisterNeed s) := by
  refine dispatch_completes (fun k q p s => ?_)
  dsimp only
  split
  · exact .next
  · exact .next
theorem execRemoveNeed_completes : Completes (execRemoveNeed s) := dispatch_completes (fun _ _ _ _ => .next)
theorem execSetRequestState_completes : Completes (execSetRequestState s) := by
  refine dispatch_completes (fun k q p s => ?_)
  dsimp only
  split
  · exact .next
  · exact .next
theorem execUnbind_completes : Completes (execUnbind s) := dispatch_completes (fun _ _ _ _ => .next)
theorem execSignalWait_completes : Completes (execSignalWait s) := by
  refine withQueue_completes (fun k q s => ?_)
  split
  · exact .next
  · exact dispatch_completes (fun _ _ _ _ => .next)
theorem execWaitTimeout_completes : Completes (execWaitTimeout s) := by
  refine withQueue_completes (fun k q s => ?_)
  split
  · exact .next
  · exact .next
theorem execSignalSet_completes : Completes (execSignalSet s) := by
  refine dispatch_completes (fun k q p s => ?_)
  split
  · exact .next
  · exact .next
theorem execFetchFence_completes : Completes (execFetchFence s) := dispatch_completes (fun _ _ _ _ => .next)
theorem execBarrierPacket_completes : Completes (execBarrierPacket s) := by
  refine withQueue_completes (fun k q s => ?_)
  dsimp only
  split
  · exact .next
  · exact dispatch_completes (fun _ _ _ _ => .ite .next .next)
theorem execDestroy_completes : Completes (execDestroy s) := by
  refine withQueue_completes (fun k q s => ?_)
  dsimp only
  split
  · split
    · exact .ite .next .next
    · exact .next
  · exact .next
theorem execPacketRetire_completes : Completes (execPacketRetire s) := by
  refine withQueue_completes (fun k q s => ?_)
  dsimp only
  split
  · exact .next
  · split
    · exact .next
    · exact .ite .next .next
theorem execDestroyTick_completes : Completes (execDestroyTick s) := by
  refine withQueue_completes (fun k q s => ?_)
  dsimp only
  split
  · exact .next
  · exact .ite .next (.ite .next .next)

/-! ### Events, the host and test access -/

theorem execEventPost_completes : Completes (execEventPost s) := by
  unfold execEventPost
  split
  · exact .ite .next .next
  · exact .next
theorem execOverflow_completes : Completes (execOverflow s) := by
  unfold execOverflow
  split
  · exact .ite .next .next
  · exact .next
theorem hostRequest_completes {pa n m} : Completes (hostRequest pa n m s) := .ite .next .next
theorem hostAtomic_completes {pa f} : Completes (hostAtomic pa f s) := hostRequest_completes

/-! ### Links and the ring -/

theorem takeCtrl_completes {up q} {m : Die → Port → Out State} (hm : ∀ d p, Completes (m d p)) : Completes (takeCtrl up q m s) := by
  unfold takeCtrl
  dsimp only
  split
  · exact hm _ _
  · exact .next
theorem execFlitReceive_completes {up f} : Completes (execFlitReceive up f s) := .ite .next .next
theorem execLinkFailResends_completes {up} : Completes (execLinkFailResends up s) := .ite .next .next
theorem execLinkFailSilence_completes {up} : Completes (execLinkFailSilence up s) := .ite .next .next
theorem execFlitSend_completes {up} : Completes (execFlitSend up s) := .ite .next .next
theorem execShardDeparture_completes : Completes (execShardDeparture s) := by
  unfold execShardDeparture
  dsimp only
  split
  · exact .ite .next .next
  · exact .next
theorem execBatchFormation_completes : Completes (execBatchFormation s) := by
  unfold execBatchFormation
  dsimp only
  split
  · exact .next
  · refine .ite .next ?_
    split
    · exact .next
    · split
      · exact .next
      · exact .next
theorem execStreamStart_completes : Completes (execStreamStart s) := by
  have marked {d was : Die} {t : State} : Completes (if d = was then idle s else ok t) := .ite .next .next
  unfold execStreamStart
  dsimp only
  split
  · split
    · exact .next
    · exact marked
  · split
    · exact .next
    · exact marked
  · exact marked
theorem execDepartureDeadline_completes : Completes (execDepartureDeadline s) := by
  unfold execDepartureDeadline
  dsimp only
  split
  · exact .next
  · exact .next
theorem execRingStall_completes {ts} : Completes (execRingStall ts s) := .ite .next .next
theorem execRingStallBegin_completes : Completes (execRingStallBegin s) := by
  unfold execRingStallBegin
  dsimp only
  split
  · exact .ite .next .next
  · exact .next
theorem execRingStallEnd_completes : Completes (execRingStallEnd s) := by
  unfold execRingStallEnd
  dsimp only
  split
  · exact .ite .next .next
  · exact .next
theorem execPodStep_completes {k} : Completes (execPodStep k s) := .ite .next .next
theorem execRingInject_completes : Completes (execRingInject s) := .ite .next .next
theorem execReinjection_completes : Completes (execReinjection s) := by
  unfold execReinjection
  dsimp only
  split
  · exact .ite .next .next
  · exact .next
theorem execRepairAnnouncement_completes {r} : Completes (execRepairAnnouncement r s) := .ite .next .next
theorem execRepairReport_completes {f} : Completes (execRepairReport f s) := .ite .next (.ite .next .next)
theorem execRepairTick_completes : Completes (execRepairTick s) := by
  unfold execRepairTick
  split
  · exact .ite .next .next
  · exact .next

/-! ### The watchdog, power, errors and the complex -/

theorem execSafeGap_completes : Completes (execSafeGap s) := by
  unfold execSafeGap
  split
  · exact .ite .next .next
  · exact .next
theorem execDomainAbort_completes {t} : Completes (execDomainAbort t s) := .ite .next .next
theorem execLocalClockStep_completes {k n} : Completes (execLocalClockStep k n s) := .ite .next .next
theorem execForcedStallCycle_completes : Completes (execForcedStallCycle s) := .ite .next .next
theorem execPowerLimitExceeded_completes : Completes (execPowerLimitExceeded s) := .ite .next .next
theorem execThermalShutdown_completes {n} : Completes (execThermalShutdown n s) := .ite .next .next
theorem execSoftError_completes {x} : Completes (execSoftError x s) := .ite .next .next
theorem execHeartbeat_completes : Completes (execHeartbeat s) := .ite .next .next
theorem execTakeover_completes : Completes (execTakeover s) := by
  unfold execTakeover
  refine .ite .next (.ite .next ?_)
  split
  · exact .ite .next .next
  · exact .next
theorem served_completes {m : State → Out State} (hm : ∀ s, Completes (m s)) : Completes (served m s) := .ite (hm s) .next
theorem command_completes {b m} : Completes (command b m s) := served_completes (fun _ => .next)
theorem execUpdate_completes {fw} : Completes (execUpdate fw s) := served_completes (fun _ => .ite .next (.ite .next .next))
theorem execAttest_completes {nonce} : Completes (execAttest nonce s) := served_completes (fun _ => .ite .next (.ite .next .next))
theorem execRingRestart_completes : Completes (execRingRestart s) := .ite (.ite .next .next) command_completes

end

end Sys2Proof.Machine
end

section
/-! Every word and event has a next state, by the lemma of the operation that gives it its meaning; a step lacks one only where the current
core's package is without power or held in reset: O5 (R154, R397, R428). -/

namespace Sys2Proof.Machine

/-- Every word and every event has a next state. -/
theorem exec_completes (i : Instr) (s : State) : Completes (exec i s) := by
  cases i with unfold exec
  | nop | cmpeq | cmpne | cmplts | cmples | cmpltn | cmplen | pand | por | pxor | pnot | prload | wstep | wrst | gwset | fcmp | br |
    lbrk | gset | gclr | exit | trap | barrierArrival | testEnableStrap | fabricPortLoss | fabricPortReturn | powerOnReset | bypass |
    samplePreload | extest | idcode | warmReset | powerLoss => exact .next
  | add | sub | mul | mulhs | mulhn | divs | divn | rems | remn | and | or | xor | andn | shl | shrl | shra | rotl | clz | ctz |
    popc | sext | mins | minn | maxs | maxn | sel | bfxs | bfxn | bfi | addi | andi | ori | xori | shli | movi | movh | lea | prsave =>
    exact alu_completes
  | fadd | fsub | fmul | ffma | fdiv | fsqrt | fmin | fmax | fcvt => exact fpResult_completes
  | fcls | fsgn | wpos | spadj | spmov | spmovSp | barq | tick => exact setG_completes
  | bc | bwe => exact branchIf_completes
  | bmz => exact execBmz_completes
  | brl => exact execBrl_completes
  | call => exact pushAndGo_completes
  | callr => exact execCallr_completes
  | ret => exact execRet_completes
  | loop | loopr => exact startLoop_completes
  | safe => exact execSafe_completes
  | rte | qkill => exact privileged_completes (fun _ => .next)
  | wbind => exact execWbind_completes
  | shard => exact streamOnly_completes (fun _ _ => setG_completes)
  | batch => exact execBatch_completes
  | need => exact execNeed_completes
  | unpin => exact streamOnly_completes (fun _ _ => .next)
  | kva => exact execKva_completes
  | enq => exact execEnq_completes
  | enqr => exact execEnqr_completes
  | acalloc => exact execAcalloc_completes
  | acfree => exact execAcfree_completes
  | ld | ldacq | ldw => exact loadReg_completes
  | st | strel | stw => exact storeReg_completes
  | ldp => exact execLdp_completes
  | stp => exact execStp_completes
  | fence | fenceo => exact fence_completes
  | aadd | aand | aor | axor | amins | aminn | amaxs | amaxn | axch | acas | afadd => exact atomic_completes
  | bara => exact execBara_completes
  | barw | tokw => exact retireOrCount_completes
  | bar => exact execBar_completes
  | barc => exact execBarc_completes
  | sigadd | sigmax => exact signalWord_completes
  | sigw => exact execSigw_completes
  | merge => exact execMerge_completes
  | ctlrd => exact execCtlrd_completes
  | ctlwr | ctlset | ctlclr => exact ctlPrivileged_completes (fun _ => .next)
  | qcreate => exact execQcreate_completes
  | tmark => exact execTmark_completes
  | icfence => exact execIcfence_completes
  | rep => exact execRep_completes
  | vadd | vsub | vmul | vfma | vcvt | vrred | vcred | vrscan | vcscan | vdotb | vscl => exact vRound_completes
  | vmin | vmax | vabs | vneg | vand | vor | vxor | vnot | vshl | vshr | vsha | vcmp | vsel | vmov | vrrot | vrbc | vcrot | vcbc |
    vtrp | vperm | vexpf | vexpx | vlogf | vlogx | vrcpf | vrcpx | vrsqf | vrsqx | vsinf | vsinx | vcosf | vcosx | vtanhf | vtanhx |
    vdot8 => exact vPlain_completes
  | vmovExtract => exact execVmovExtract_completes
  | vmovInsert | vbc => exact vPut_completes
  | vld | vldw => exact rowLoad_completes
  | vst | vstw => exact rowStore_completes
  | vgath => exact indexed_completes (fun _ _ _ => .next)
  | vscat => exact indexed_completes (fun _ _ _ => vStore_completes)
  | mpush | minv | mpop | mand => exact vChecked_completes
  | vrng => exact vGuard_completes (fun _ => .next)
  | vpkp | vxtp => exact packed_completes
  | storePerform => exact execStorePerform_completes
  | recordRetire => exact execRecordRetire_completes
  | destroyNotice => exact execDestroyNotice_completes
  | flitReceive => exact execFlitReceive_completes
  | flitReplay | latencyProbe | probeEcho => exact takeCtrl_completes (fun _ _ => .next)
  | flitSend => exact execFlitSend_completes
  | linkFailResends => exact execLinkFailResends_completes
  | linkFailSilence => exact execLinkFailSilence_completes
  | ringStall => exact execRingStall_completes
  | podStep => exact execPodStep_completes
  | repairReport => exact execRepairReport_completes
  | repairAnnouncement => exact execRepairAnnouncement_completes
  | domainAbort => exact execDomainAbort_completes
  | localClockStep => exact execLocalClockStep_completes
  | thermalShutdown => exact execThermalShutdown_completes
  | softError => exact execSoftError_completes
  | setEventq | powerLimit => exact command_completes
  | attest => exact execAttest_completes
  | update => exact execUpdate_completes
  | hostRead | hostPostedWrite => exact hostRequest_completes
  | hostFetchadd | hostCompareAndSwap => exact hostAtomic_completes
  | vectorIssue => exact execVectorIssue_completes
  | vectorComplete => exact execVectorComplete_completes
  | loadDataArrival => exact execLoadDataArrival_completes
  | pdotF64 | pdotF32 | pdotBf16 | plog66 | plog68 | plog88 | pmulp | pmul | pscale | pnorm | pzero | pload | pdrain | pxtp =>
    exact stepProduct_completes
  | xcopy | xcopyTable | xcvt | xfill | xgath | xscat | xrestr | xprol | xsten => exact stepTransfer_completes
  | xslab => exact execXslab_completes
  | xslabRelease | xmlr => exact startTransfer_completes
  | xput | xget => exact stepRemote_completes
  | xsend => exact execXsend_completes
  | xsig => exact execXsig_completes
  | xmlrSetup => exact execXmlrSetup_completes
  | xtmark => exact execXtmark_completes
  | xmlrCombine => exact execXmlrCombine_completes
  | xmlrTimeout => exact execXmlrTimeout_completes
  | xmlrSetupTimeout => exact execXmlrSetupTimeout_completes
  | signalUpdate => exact execSignalUpdate_completes
  | signalResend => exact execSignalResend_completes
  | sigwLimit => exact execSigwLimit_completes
  | mergeApply => exact execMergeApply_completes
  | finalMerge => exact execFinalMerge_completes
  | taskLogApply => exact execTaskLogApply_completes
  | streamLogApply => exact execStreamLogApply_completes
  | packetFetch => exact execPacketFetch_completes
  | queuePoll => exact execQueuePoll_completes
  | launch | gangLaunch => exact dispatch_completes (fun _ _ _ _ => dispatchLaunch_completes)
  | bindKernel => exact execBindKernel_completes
  | registerRequest => exact execRegisterRequest_completes
  | registerNeed => exact execRegisterNeed_completes
  | removeNeed => exact execRemoveNeed_completes
  | setRequestState => exact execSetRequestState_completes
  | unbind => exact execUnbind_completes
  | signalWait => exact execSignalWait_completes
  | waitTimeout => exact execWaitTimeout_completes
  | signalSet => exact execSignalSet_completes
  | fetchFence => exact execFetchFence_completes
  | barrierPacket => exact execBarrierPacket_completes
  | destroy => exact execDestroy_completes
  | destroyTick => exact execDestroyTick_completes
  | packetRetire => exact execPacketRetire_completes
  | placementChoice => exact execPlacementChoice_completes
  | contextSaveDone => exact execContextSaveDone_completes
  | gangReadyCheck => exact execGangReadyCheck_completes
  | gangNotReady => exact execGangNotReady_completes
  | gangDefer => exact execGangDefer_completes
  | gangStart => exact execGangStart_completes
  | dieLaunchReport => exact execDieLaunchReport_completes
  | taskRetire => exact execTaskRetire_completes
  | coreFuse => exact execCoreFuse_completes
  | batchFormation => exact execBatchFormation_completes
  | streamStart => exact execStreamStart_completes
  | shardDeparture => exact execShardDeparture_completes
  | departureDeadline => exact execDepartureDeadline_completes
  | ringStallBegin => exact execRingStallBegin_completes
  | ringStallEnd => exact execRingStallEnd_completes
  | repairTick => exact execRepairTick_completes
  | reinjection => exact execReinjection_completes
  | ringInject => exact execRingInject_completes
  | safeGap => exact execSafeGap_completes
  | powerLimitExceeded => exact execPowerLimitExceeded_completes
  | eventPost => exact execEventPost_completes
  | overflow => exact execOverflow_completes
  | heartbeat => exact execHeartbeat_completes
  | takeover => exact execTakeover_completes
  | ringRestart => exact execRingRestart_completes
  | resetPackage => exact served_completes (fun _ => .next)
  | forcedStallCycle => exact execForcedStallCycle_completes
  | signalAcknowledge => exact execSignalAcknowledge_completes

section
variable {run : Instr → State → Out State} {s : State} (hr : ∀ i s, Completes (run i s))
include hr

theorem runWord_completes (w : Word) : Completes (runWord run w s) := by
  unfold runWord
  refine .ite .next ?_
  split
  · exact .next
  · exact .ite (hr _ _) .next
theorem sequence_completes : Completes (sequence run s) := by
  unfold sequence
  split
  · exact .next
  · refine .ite ?_ .next
    split
    · exact .next
    · exact .ite .next (runWord_completes hr _)

/-- The sequencer's move in a package that runs. -/
theorem seqCycle_completes (power : (s.getPkg s.core.key.pkg).power = true) (reset : (s.getPkg s.core.key.pkg).inReset = false) :
    Completes (seqCycle run s) := by
  have on : ¬ ((!(s.getPkg s.core.key.pkg).power || (s.getPkg s.core.key.pkg).inReset) = true) := by simp [power, reset]
  rw [seqCycle, if_neg on]
  refine .ite (.ite .next .next) (.ite .next ?_)
  split
  · exact .next
  · exact .next
  · exact sequence_completes hr
theorem defaultStep_completes (power : (s.getPkg s.core.key.pkg).power = true) (reset : (s.getPkg s.core.key.pkg).inReset = false) :
    Completes (defaultStep run s) := by
  unfold defaultStep
  split
  · exact .next
  · split
    · exact .next
    · split
      · exact .ite (seqCycle_completes hr power reset) .next
      · exact seqCycle_completes hr power reset
theorem stepWith_completes (power : (s.getPkg s.core.key.pkg).power = true) (reset : (s.getPkg s.core.key.pkg).inReset = false) :
    Completes (stepWith run s) := by
  unfold stepWith
  dsimp only
  split
  · exact defaultStep_completes hr power reset
  · exact .next
  · exact seqCycle_completes hr power reset
  · exact hr _ _
  · exact .next
  · exact .next

end

/-- Settles O5: every word and event has a next state, and so has every step of a core in a package that runs. -/
theorem nothingStopsTheMachineButPower : Obligations.NothingStopsTheMachineButPower := by
  refine ⟨fun i s => ⟨(exec_completes i s).not_fault, fun _ => (exec_completes i s).not_refused _⟩, fun s f h => ?_⟩
  by_contra off
  obtain ⟨power, reset⟩ := not_or.1 off
  exact (stepWith_completes exec_completes (Bool.eq_true_of_not_eq_false power) (Bool.eq_false_of_not_eq_true reset)).not_fault f h

end Sys2Proof.Machine
end
